-- ==== Sys2Proof/Word.lean ====
section
/-! DEFINITION. The words of Elzan: bytes, 16-, 32- and 64-bit words, FP32 patterns, and the sparse table type
that holds the block's arrays. -/

namespace Sys2Proof

/-- One byte (00_scope.md R9). -/
abbrev Byte := BitVec 8

/-- A 16-bit word. -/
abbrev U16 := BitVec 16

/-- A 32-bit register or packet word. -/
abbrev U32 := BitVec 32

/-- A 64-bit word: an address, a tag, a total. -/
abbrev U64 := BitVec 64

/-- The bits of an FP32 value (02_number_formats.md, "Floating-point formats"). -/
abbrev F32 := BitVec 32

/-- A value of TIME_NS (14_ports.md R399). -/
abbrev Time := BitVec 64

/-- An array of the block held sparsely: keys strictly rising, no entry equal to the array's reset element. -/
abbrev Tbl (α : Type) := List (Nat × α)

end Sys2Proof
end

