-- ==== Sys2Proof/Config.lean ====
section
/-! DEFINITION. What an implementation fixes (the six build parameters of 00_scope.md R6) and the free values:
constants without a body, for what the manual leaves open. -/

namespace Sys2Proof

/-- ACRE_COLS (00_scope.md R6). -/
inductive ColsOpt where
  | c256 | c512 | c1024
  deriving DecidableEq, Repr, Inhabited

/-- GRANARY_SIZE (00_scope.md R6). -/
inductive GranaryOpt where
  | m512 | g1 | g2
  deriving DecidableEq, Repr, Inhabited

/-- BARN_SIZE (00_scope.md R6). -/
inductive BarnOpt where
  | m128 | m256
  deriving DecidableEq, Repr, Inhabited

/-- STACK_PORTS (00_scope.md R6). -/
inductive PortsOpt where
  | p8 | p16 | p24
  deriving DecidableEq, Repr, Inhabited

/-- STRIPS (00_scope.md R6). -/
inductive StripsOpt where
  | s1024 | s4096
  deriving DecidableEq, Repr, Inhabited

/-- The build parameters, fixed at synthesis (00_scope.md R6, R7). -/
structure Build where
  cols : ColsOpt
  granary : GranaryOpt
  barn : BarnOpt
  ports : PortsOpt
  strips : StripsOpt
  pairLink : Bool
  deriving DecidableEq, Repr, Inhabited

namespace Config

/-- FREE VALUE. The FP32 result of operation `op` where an operand is not finite and no rule replaces it; and, among the
finite values, of a division by zero and of the root of a negative value: the manual states no result (log 6). `op` is 0 for an
addition, 1 a product, 2 a quotient, 3 a root. -/
opaque fpOpen (op : Nat) (a b : BitVec 32) : BitVec 32

/-- FREE VALUE. The firmware public key of the boot ROM, a point of curve P-384 (17_startup.md R460): the manual does not hold
it (log 7). -/
opaque fwKey : Nat × Nat

/-- FREE VALUE. The bits of the IEEE 1687 network at its capture, which reads the spare maps of columns, rows and banks back
(14_ports.md R402): the manual gives neither its length nor its order (log 81). -/
opaque ijtagNetwork (cols rows banks : List (Nat × BitVec 32)) : List Bool

/-- FREE VALUE. Bytes of the sections of the n-th context image (16_faults_spares_pairs.md R437: "The layout of
the sections is Elzan's own") (log 8). -/
opaque ctxSections (n : Nat) : List Byte

/-- FREE VALUE. The n-th open 32-bit value that a step of the block needs and the manual does not state. -/
opaque freeWord (n : Nat) : BitVec 32

/-- FREE VALUE. The unit of the Granary that a word of a bank belongs to (04_granary.md R99: the relation of banks to
blocks and fields is private to Elzan) (log 25). -/
opaque unitOfWord (bank word : Nat) : Nat

/-- FREE VALUE. The n-th run of bytes written to a region whose layout is Elzan's own: the dZ buffer and the scratch
part of the dW stage (07_training_passes.md R168, R171) (log 31). -/
opaque privateBytes (n : Nat) : List Byte

end Config

end Sys2Proof
end

