-- ==== Sys2Proof/Syntax.lean ====
section
/-! DEFINITION. The commands of Elzan: one constructor of `Instr` per row of spec/opcode_table.json, with the operands
that the row's step needs. Rows that are packets of the command reference name the ring whose packet takes the step,
or the ring and SEQ of a command already dispatched; rows that are register accesses carry the written word; rows that
come from the block's ports and clocks carry what the pins bring. `now` is the value of time_ns at the step (R399). -/

namespace Sys2Proof

/-- stk_k_rsp_code (14_ports.md, signals of a stack port). -/
inductive RspCode where
  | ok | dataErr | addrErr | unsupported
  deriving DecidableEq, Repr, Inhabited

/-- The end of self-test (R455): passed, memory that redundant rows cannot cover, or failed logic. -/
inductive SelfTestEnd where
  | pass
  | unrepairable (region : Nat)
  | logicFail (unit : Nat)
  deriving DecidableEq, Repr, Inhabited

/-- What self-test found (R455): failed lines of the Acre as (group, line), failed Granary banks as (group, bank),
groups whose spare itself failed, and whether redundant SRAM rows were used. -/
structure SelfTest where
  stop : SelfTestEnd
  cols : List (Nat × Nat)
  rows : List (Nat × Nat)
  banks : List (Nat × Nat)
  colSpares : List Nat
  rowSpares : List Nat
  bankSpares : List Nat
  sramRepaired : Bool
  deriving DecidableEq, Repr, Inhabited

/-- What a tile's operand reads met (R111, R112, R427): nothing more than corrected reads, an uncorrectable Granary or
read, one of the scale store, or a parity error on an operand line (true: a row line). The bank and word of a scale-store error are what
GRN_ECC_UE then shows: the manual numbers no bank of the scale store (R112; log 80). -/
inductive TileFault where
  | none
  | granary (bank word : Nat)
  | scaleStore (bank word : Nat)
  | parity (row : Bool) (line : Nat)
  deriving DecidableEq, Repr, Inhabited

/-- Corrected reads of a step (R111): Granary banks, one entry a read, and the counts of scale-store, Barn and accumulator
reads. -/
structure Corrected where
  banks : List Nat
  scale : Nat
  barn : Nat
  acc : Nat
  deriving DecidableEq, Repr, Inhabited

/-- What a scrub read finds (R113). -/
inductive ScrubRead where
  | clean | corrected | uncorrectable
  deriving DecidableEq, Repr, Inhabited

/-- Where a per-function reset comes from (R432): the function's pin, or an uncorrectable error of R426 in the given
region and word. -/
inductive ResetSource where
  | pin
  | auto (region word : Nat)
  deriving DecidableEq, Repr, Inhabited

/-- The wrapper instructions (R403). -/
inductive WrapperIns where
  | bypass | extest | intest | safe
  deriving DecidableEq, Repr, Inhabited

/-- The power-supply islands (01_architecture.md, islands). -/
inductive Island where
  | acre | winnow | harrow | ctrl | link
  | port (k : Nat)
  deriving DecidableEq, Repr, Inhabited

/-- The header of a received pair frame (R396): FSEQ, ACK, whether its CRC passes, and which entry of the frame the
step takes (a DIGEST frame holds up to 9 entries, a STATE frame up to 4, R449). -/
structure FrameHdr where
  fseq : U16
  ack : U16
  crcOk : Bool
  idx : Nat
  deriving DecidableEq, Repr, Inhabited

/-- One STATE entry of a pair frame (R449). -/
structure StateEntry where
  ring : Fin 64
  seq : U32
  time : Time
  narrow : Bool
  shed : Bool
  progA : U32
  progB : U32
  deriving DecidableEq, Repr, Inhabited

/-- One DIGEST entry of a pair frame (R449). -/
structure DigestEntry where
  ring : Fin 64
  seq : U32
  crc : U32
  deriving DecidableEq, Repr, Inhabited

/-- The sag level of sag_n (R400): 0 to 3. -/
abbrev SagLevel := Fin 4

/-- One count of a ledger tick that no other row carries (R407, R409): event class and number, charged to BG. -/
abbrev TickCount := Nat × Nat

/-- The Barn accesses of a command's work in a tick (R406, R409; log 42). -/
structure BarnUse where
  ring : Fin 64
  seq : U32
  n : Nat
  deriving DecidableEq, Repr, Inhabited

/-- What happens at the TAP (R402): trst_n is low, one cycle of tck with the levels of tms and tdi, or the IJTAG network
runs a self-test instrument. -/
inductive TapEvent where
  | trst
  | clock (tms tdi : Bool)
  | run
  deriving DecidableEq, Repr, Inhabited

/-- The commands. -/
inductive Instr where
  | nop (ring : Fin 64) (now : Time)
  | fence (ring : Fin 64) (now : Time)
  | gateWait (ring : Fin 64) (now : Time)
  | gateSignal (ring : Fin 64) (now : Time)
  | loadHead (ring : Fin 64) (seq : U32) (n : Nat) (now : Time)
  | evictHead (ring : Fin 64) (now : Time)
  | stripSetInstall (ring : Fin 64) (now : Time)
  | stripSetParams (ring : Fin 64) (now : Time)
  | stripSetRelease (ring : Fin 64) (now : Time)
  | stripGet (ring : Fin 64) (now : Time)
  | sampleStep (ring : Fin 64) (now : Time)
  | verifyTree (ring : Fin 64) (now : Time)
  | headFwd (ring : Fin 64) (now : Time)
  | shardMerge (ring : Fin 64) (now : Time)
  | trainStep (ring : Fin 64) (now : Time)
  | update (ring : Fin 64) (seq : U32) (n : Nat) (now : Time)
  | updateSqsum (ring : Fin 64) (seq : U32) (now : Time)
  | updateResume (ring : Fin 64) (seq : U32) (n : Nat) (now : Time)
  | sowFill (ring : Fin 64) (seq : U32) (n : Nat) (now : Time)
  | ctxSave (ring : Fin 64) (now : Time)
  | ctxRestore (ring : Fin 64) (now : Time)
  | energySet (ring : Fin 64) (now : Time)
  | fwSwapLoad (ring : Fin 64) (now : Time)
  | fwSwapSwitch (ring : Fin 64) (now : Time)
  | fwSwapLoadSwitch (ring : Fin 64) (now : Time)
  | doorbell (ring : Fin 64) (tail : U32)
  | ringRestart (ring : Fin 64)
  | ringCfgWrite (ring : Fin 64) (reg : Fin 6) (v : U32)
  | cplHeadWrite (ring : Fin 64) (v : U32)
  | gateWrite (gate : Fin 8192) (v : U32)
  | arbRingCommit
  | arbRingSeed (v : U32)
  | arbRingTktWrite (n : Fin 64) (v : U32)
  | arbMvrCommit
  | arbMvrSeed (v : U32)
  | arbMvrTktWrite (n : Fin 16) (v : U32)
  | sowProbeGo
  | sowProbeDone
  | winFnGo (v : U32)
  | winFnDone
  | prtProbeGo (v : U32) (now : Time)
  | prtProbeResponse (code : RspCode) (data : U64) (now : Time)
  | portOosWrite (port : Fin 24) (v : U32)
  | tenAdj (n : Fin 256) (v : U32)
  | tenWindowWrite (n : Fin 256) (v : U32) (now : Time)
  | grnSpareBankWrite (g : Fin 64) (v : U32)
  | acrSpareWrite (row : Bool) (n : Fin 16) (v : U32)
  | fltResetWrite (port : Bool) (v : U32) (now : Time)
  | pairEn (v : U32)
  | detach (v : U32) (now : Time)
  | takeover (v : U32) (now : Time)
  | perfSnap (release : Bool) (now : Time)
  | perfRelease
  | go
  | loReadLatch (addr : BitVec 20) (now : Time)
  | registerWrite (addr : BitVec 20) (data : U32) (strb : BitVec 4) (now : Time)
  | rstNAssert
  | rstNRelease
  | pllBLock
  | pllALock
  | selfTestDone (result : SelfTest)
  | paramsRead (now : Time)
  | firmwareRead (now : Time)
  | fwReady (now : Time)
  | startStageTimeout (port : Fin 24)
  | fnRstAssert (fn : Fin 10) (src : ResetSource) (now : Time)
  | fnRstRelease (fn : Fin 10)
  | fnResetDone (fn : Fin 10) (now : Time)
  | stkPortReset (port : Fin 24) (low : Bool) (now : Time)
  | stkDrained (port : Fin 24) (high : Bool)
  | stkUp (port : Fin 24)
  | reqCreditReturn (port : Fin 24) (now : Time)
  | wdCreditReturn (port : Fin 24) (now : Time)
  | readResponse (port : Fin 24) (tag : BitVec 10) (beat : BitVec 3) (last : Bool) (code : RspCode) (data : List Byte) (now : Time)
  | writeResponse (port : Fin 24) (tag : BitVec 10) (beat : BitVec 3) (last : Bool) (code : RspCode) (now : Time)
  | transferTimeout (port : Fin 24) (tag : BitVec 10) (now : Time)
  | moverTransferIssue (mover : Fin 16) (port : Fin 24) (tag : BitVec 10) (cycles : Nat) (now : Time)
  | moverPowerDown (mover : Fin 16)
  | moverPowerUp (mover : Fin 16)
  | fetchRetry (ring : Fin 64) (now : Time)
  | cplWriteRetry (ring : Fin 64) (now : Time)
  | ringDraw (cycles : Nat) (short : BitVec 64)
  | packetFetch (ring : Fin 64) (now : Time)
  | gateTimeout (ring : Fin 64) (now : Time)
  | barrierInHigh (now : Time)
  | cutOff (ring : Fin 64) (now : Time)
  | energyAdmit (ring : Fin 64) (seq : U32)
  | poolGrant
  | harrowConvert (ring : Fin 64) (seq : U32) (ttUe : Bool)
  | conversionDone (ring : Fin 64) (seq : U32)
  | actFrame (bytes : List Byte) (badKeep : Option Nat) (now : Time)
  | acreSelect (now : Time)
  | acreTile (fault : TileFault) (ce : Corrected) (now : Time)
  | tileHoldRelease (now : Time)
  | stagingSwath (ring : Fin 64) (seq : U32)
  | computePhaseEnd (now : Time)
  | stripCommit (ring : Fin 64) (seq : U32) (times : List Time)
  | resultRecordsWritten (ring : Fin 64) (seq : U32) (now : Time)
  | completionWritten (ring : Fin 64) (now : Time)
  | ctxPauseReached (ring : Fin 64) (seq : U32) (strand : Fin 64) (now : Time)
  | mergeStart (ring : Fin 64) (seq : U32) (now : Time)
  | shardRecord (bytes : List Byte) (now : Time)
  | shardTimeout (ring : Fin 64) (seq : U32) (now : Time)
  | resSegmentSend (now : Time)
  | scrubStep (bank word : Nat) (found : ScrubRead) (superseded : Bool)
  | migrationCopyDone (g : Fin 64) (corrected : Nat) (poisoned : List Nat)
  | ledgerLost (word : Nat) (now : Time)
  | fwBankUe (word : Nat) (now : Time)
  | stripLost (strip : BitVec 12) (ledger : Bool) (word : Nat) (now : Time)
  | tenantWindowTurn (n : Fin 256) (now : Time)
  | ledgerTick (now : Time) (bg : List TickCount) (barn : List BarnUse) (barnCe : Nat)
  | epochTurn (now : Time)
  | telemetrySample (mw : BitVec 24) (now : Time)
  | sagLevelRise (sagN : BitVec 3) (now : Time)
  | sagLevelFall (now : Time)
  | powerFailHold (strand : Fin 64) (now : Time)
  | held (now : Time)
  | timeFault (input : Time)
  | pairHello (h : FrameHdr) (role : Bool) (version build fwVersion fwCrc : U32)
  | pairFailing (h : FrameHdr) (now : Time)
  | pairDetachFrame (h : FrameHdr)
  | pairDigest (h : FrameHdr) (entry : DigestEntry) (now : Time)
  | pairStateDispatch (h : FrameHdr) (entry : StateEntry) (now : Time)
  | pairStateCheck (h : FrameHdr) (entry : StateEntry)
  | pairStateCommit (h : FrameHdr) (entry : StateEntry)
  | pairStateProgress (h : FrameHdr) (entry : StateEntry)
  | pairIdle (h : FrameHdr) (type : Byte)
  | pairCredit
  | pairResend
  | pairIdleSend
  | pairLinkDown
  | barrierInLow
  | apbInterfaceReset
  | wrapperInstructionUpdate (ins : WrapperIns)
  | ijtagSelfTestInstrument (ev : TapEvent)
  | supplyRemoved (island : Island)
  deriving DecidableEq, Repr, Inhabited

end Sys2Proof
end

