-- ==== Sys2Proof/Decode.lean ====
section
/-! DEFINITION. The commands that words spell. No row of spec/opcode_table.json gives bits: Elzan has no instruction
words, and its packets are read from memory by PACKET_FETCH (12_rings_and_gates.md R310, R311). -/

namespace Sys2Proof

/-- The command that a word of `nbits` bits spells by the opcode table: none, as no row gives bits. -/
def decodeTableWord (_nbits _w : Nat) : Option Instr := none

end Sys2Proof
end

