-- ==== Sys2Proof/Machine/Tbl.lean ====
section
/-! DEFINITION. Sparse tables in one canonical form: keys strictly rising, and no entry equal to the value that an
unlisted key reads as. The block's arrays and the memory behind the stack ports are held so. -/

namespace Sys2Proof.Machine

/-- The value at key `k`, `d` where none is listed. -/
def tblGet {α : Type} (d : α) : Tbl α → Nat → α
  | [], _ => d
  | (a, v) :: t, k => if a = k then v else tblGet d t k

/-- Removes key `k`. -/
def tblErase {α : Type} : Tbl α → Nat → Tbl α
  | [], _ => []
  | (a, v) :: t, k => if a = k then tblErase t k else (a, v) :: tblErase t k

/-- Inserts or replaces key `k`, keeping the keys rising. -/
def tblInsert {α : Type} : Tbl α → Nat → α → Tbl α
  | [], k, v => [(k, v)]
  | (a, w) :: t, k, v =>
    if k < a then (k, v) :: (a, w) :: t
    else if a = k then (k, v) :: t
    else (a, w) :: tblInsert t k v

/-- Writes `v` at key `k`; writing the unlisted value `d` removes the entry. -/
def tblSet {α : Type} [DecidableEq α] (d : α) (t : Tbl α) (k : Nat) (v : α) : Tbl α :=
  if v = d then tblErase t k else tblInsert t k v

/-- Applies `f` to the value at key `k`. -/
def tblModify {α : Type} [DecidableEq α] (d : α) (t : Tbl α) (k : Nat) (f : α → α) : Tbl α :=
  tblSet d t k (f (tblGet d t k))

/-- The canonical form: keys strictly rising, no entry equal to `d`. -/
def tblWf {α : Type} [DecidableEq α] (d : α) : Tbl α → Bool
  | [] => true
  | [(_, v)] => decide (v ≠ d)
  | (a, v) :: (b, w) :: t => decide (v ≠ d) && decide (a < b) && tblWf d ((b, w) :: t)

end Sys2Proof.Machine
end

