-- ==== Sys2Proof/Machine/Bytes.lean ====
section
/-! DEFINITION. Little-endian fields of packets and records (00_scope.md R9), CRC-32C, and the bytes of the memory
behind the stack ports. -/

namespace Sys2Proof.Machine

/-- Byte `i` of a record, zero beyond its end. -/
def byteAt (b : List Byte) (i : Nat) : Byte := b.getD i 0

/-- The unsigned value of the `n` bytes from offset `off`, little-endian (R9). -/
def leNat (b : List Byte) (off : Nat) : Nat → Nat
  | 0 => 0
  | n + 1 => (byteAt b off).toNat + 256 * leNat b (off + 1) n

/-- The 16-bit field at `off`. -/
def le16 (b : List Byte) (off : Nat) : U16 := BitVec.ofNat 16 (leNat b off 2)

/-- The 32-bit field at `off`. -/
def le32 (b : List Byte) (off : Nat) : U32 := BitVec.ofNat 32 (leNat b off 4)

/-- The 64-bit field at `off`. -/
def le64 (b : List Byte) (off : Nat) : U64 := BitVec.ofNat 64 (leNat b off 8)

/-- The `n` low bytes of `v`, least significant first (R9). -/
def leBytes : Nat → Nat → List Byte
  | 0, _ => []
  | n + 1, v => BitVec.ofNat 8 (v % 256) :: leBytes n (v / 256)

/-- `n` zero bytes. -/
def zeros (n : Nat) : List Byte := List.replicate n 0

/-- Cuts or zero-pads a record to `n` bytes. -/
def padTo (n : Nat) (b : List Byte) : List Byte := (b ++ zeros (n - b.length)).take n

/-- Places `v` as `n` bytes at offset `off` of a record. -/
def putLe (b : List Byte) (off n v : Nat) : List Byte :=
  b.take off ++ leBytes n v ++ b.drop (off + n)

/-- Whether the bytes from `off` to `off + n - 1` are all zero. -/
def zeroRange (b : List Byte) (off n : Nat) : Bool :=
  (List.range n).all fun i => byteAt b (off + i) == 0

/-- Bits hi down to lo of `w`, as a number (R8). -/
def bitField (w : Nat) (hi lo : Nat) : Nat := (w >>> lo) % 2 ^ (hi + 1 - lo)

/-- One bit step of CRC-32C, reflected polynomial 0x82F63B78. -/
def crcBit (c : BitVec 32) : BitVec 32 :=
  if c.getLsbD 0 then (c >>> 1) ^^^ 0x82F63B78#32 else c >>> 1

/-- One byte of CRC-32C. -/
def crcByte (c : BitVec 32) (b : Byte) : BitVec 32 :=
  let c := c ^^^ b.setWidth 32
  crcBit (crcBit (crcBit (crcBit (crcBit (crcBit (crcBit (crcBit c)))))))

/-- CRC-32C of a byte string (initial value and final xor all ones), as R254, R255, R396, R437 and R458 use it
(the manual names CRC-32C; its parameters are the published ones: log 9). -/
def crc32c (b : List Byte) : BitVec 32 := ~~~(b.foldl crcByte 0xFFFFFFFF#32)

/-- What a byte of memory that no response has brought and no write has set reads as (log 4). -/
def memDefault : Byte := 0

/-- An address of the 64-bit global address space (R377). -/
def addrWrap (a : Nat) : Nat := a % 2 ^ 64

/-- One byte of the memory behind the stack ports. -/
def memRead (m : Tbl Byte) (a : Nat) : Byte := tblGet memDefault m (addrWrap a)

/-- The canonical form of the memory: addresses of the address space, strictly rising, and no byte listed that reads so
unlisted. -/
def Memory.wf (m : Tbl Byte) : Bool := tblWf memDefault m && m.all fun e => decide (e.1 < 2 ^ 64)

/-- `n` bytes from address `a`. -/
def memBytes (m : Tbl Byte) (a n : Nat) : List Byte := (List.range n).map fun i => memRead m (a + i)

/-- Writes one byte. -/
def memWrite (m : Tbl Byte) (a : Nat) (v : Byte) : Tbl Byte := tblSet memDefault m (addrWrap a) v

/-- Writes the bytes `b` from address `a` on, in ascending order. -/
def memWriteBytes (m : Tbl Byte) (a : Nat) : List Byte → Tbl Byte
  | [] => m
  | v :: t => memWriteBytes (memWrite m a v) (a + 1) t

end Sys2Proof.Machine
end

