-- ==== Sys2Proof/Machine/Authentic.lean ====
section
/-! DEFINITION. The authentication of firmware images (17_startup.md R460): SHA-384 (FIPS 180-4) and ECDSA verification on
curve P-384 (FIPS 186-4). The public key of the boot ROM is not in the manual: it alone is free (log 7). -/

namespace Sys2Proof.Machine

/-! ### SHA-384 -/

/-- Constants 0 to 19 of SHA-384. -/
def shaK0 : List U64 := [
  0x428A2F98D728AE22, 0x7137449123EF65CD, 0xB5C0FBCFEC4D3B2F, 0xE9B5DBA58189DBBC,
  0x3956C25BF348B538, 0x59F111F1B605D019, 0x923F82A4AF194F9B, 0xAB1C5ED5DA6D8118,
  0xD807AA98A3030242, 0x12835B0145706FBE, 0x243185BE4EE4B28C, 0x550C7DC3D5FFB4E2,
  0x72BE5D74F27B896F, 0x80DEB1FE3B1696B1, 0x9BDC06A725C71235, 0xC19BF174CF692694,
  0xE49B69C19EF14AD2, 0xEFBE4786384F25E3, 0x0FC19DC68B8CD5B5, 0x240CA1CC77AC9C65]

/-- Constants 20 to 39 of SHA-384. -/
def shaK1 : List U64 := [
  0x2DE92C6F592B0275, 0x4A7484AA6EA6E483, 0x5CB0A9DCBD41FBD4, 0x76F988DA831153B5,
  0x983E5152EE66DFAB, 0xA831C66D2DB43210, 0xB00327C898FB213F, 0xBF597FC7BEEF0EE4,
  0xC6E00BF33DA88FC2, 0xD5A79147930AA725, 0x06CA6351E003826F, 0x142929670A0E6E70,
  0x27B70A8546D22FFC, 0x2E1B21385C26C926, 0x4D2C6DFC5AC42AED, 0x53380D139D95B3DF,
  0x650A73548BAF63DE, 0x766A0ABB3C77B2A8, 0x81C2C92E47EDAEE6, 0x92722C851482353B]

/-- Constants 40 to 59 of SHA-384. -/
def shaK2 : List U64 := [
  0xA2BFE8A14CF10364, 0xA81A664BBC423001, 0xC24B8B70D0F89791, 0xC76C51A30654BE30,
  0xD192E819D6EF5218, 0xD69906245565A910, 0xF40E35855771202A, 0x106AA07032BBD1B8,
  0x19A4C116B8D2D0C8, 0x1E376C085141AB53, 0x2748774CDF8EEB99, 0x34B0BCB5E19B48A8,
  0x391C0CB3C5C95A63, 0x4ED8AA4AE3418ACB, 0x5B9CCA4F7763E373, 0x682E6FF3D6B2B8A3,
  0x748F82EE5DEFB2FC, 0x78A5636F43172F60, 0x84C87814A1F0AB72, 0x8CC702081A6439EC]

/-- Constants 60 to 79 of SHA-384. -/
def shaK3 : List U64 := [
  0x90BEFFFA23631E28, 0xA4506CEBDE82BDE9, 0xBEF9A3F7B2C67915, 0xC67178F2E372532B,
  0xCA273ECEEA26619C, 0xD186B8C721C0C207, 0xEADA7DD6CDE0EB1E, 0xF57D4F7FEE6ED178,
  0x06F067AA72176FBA, 0x0A637DC5A2C898A6, 0x113F9804BEF90DAE, 0x1B710B35131C471B,
  0x28DB77F523047D84, 0x32CAAB7B40C72493, 0x3C9EBE0A15C9BEBC, 0x431D67C49C100D4C,
  0x4CC5D4BECB3E42B6, 0x597F299CFC657E2A, 0x5FCB6FAB3AD6FAEC, 0x6C44198C4A475817]

/-- The 80 round constants. -/
def shaK : List U64 := shaK0 ++ shaK1 ++ shaK2 ++ shaK3

/-- The eight working variables. -/
structure ShaVars where
  a : U64
  b : U64
  c : U64
  d : U64
  e : U64
  f : U64
  g : U64
  h : U64
  deriving DecidableEq, Repr

/-- The initial hash value of SHA-384. -/
def shaInit : ShaVars :=
  ⟨0xCBBB9D5DC1059ED8, 0x629A292A367CD507, 0x9159015A3070DD17, 0x152FECD8F70E5939,
    0x67332667FFC00B31, 0x8EB44A8768581511, 0xDB0C2E0D64F98FA7, 0x47B5481DBEFA4FA4⟩

/-- The padded message: a 1 bit, zeros, and the bit length as 16 big-endian bytes, in blocks of 128 bytes. -/
def shaPad (m : List Byte) : List Byte :=
  m ++ [0x80] ++ zeros ((239 - m.length % 128) % 128) ++ (leBytes 16 (8 * m.length)).reverse

/-- The number that big-endian bytes spell. -/
def beNat (b : List Byte) : Nat := b.foldl (fun n x => 256 * n + x.toNat) 0

/-- The message schedule of a block, the last word first, extended by `n` words. -/
def shaSchedule (w : List U64) : Nat → List U64
  | 0 => w
  | n + 1 =>
    let x := w.getD 14 0
    let y := w.getD 1 0
    let s0 := x.rotateRight 1 ^^^ x.rotateRight 8 ^^^ (x >>> 7)
    let s1 := y.rotateRight 19 ^^^ y.rotateRight 61 ^^^ (y >>> 6)
    shaSchedule ((w.getD 15 0 + s0 + w.getD 6 0 + s1) :: w) n

/-- One round with constant plus schedule word `kw`. -/
def shaRound (v : ShaVars) (kw : U64) : ShaVars :=
  let s1 := v.e.rotateRight 14 ^^^ v.e.rotateRight 18 ^^^ v.e.rotateRight 41
  let ch := (v.e &&& v.f) ^^^ (~~~v.e &&& v.g)
  let t1 := v.h + s1 + ch + kw
  let s0 := v.a.rotateRight 28 ^^^ v.a.rotateRight 34 ^^^ v.a.rotateRight 39
  let maj := (v.a &&& v.b) ^^^ (v.a &&& v.c) ^^^ (v.b &&& v.c)
  ⟨t1 + s0 + maj, v.a, v.b, v.c, v.d + t1, v.e, v.f, v.g⟩

/-- The hash value after a block of 128 bytes. -/
def shaBlock (v : ShaVars) (b : List Byte) : ShaVars :=
  let w := (List.range 16).map fun i => BitVec.ofNat 64 (beNat ((b.drop (8 * i)).take 8))
  let u := ((shaSchedule w.reverse 64).reverse.zipWith (· + ·) shaK).foldl shaRound v
  ⟨v.a + u.a, v.b + u.b, v.c + u.c, v.d + u.d, v.e + u.e, v.f + u.f, v.g + u.g, v.h + u.h⟩

/-- Hashes `n` blocks. -/
def shaBlocks (v : ShaVars) (b : List Byte) : Nat → ShaVars
  | 0 => v
  | n + 1 => shaBlocks (shaBlock v (b.take 128)) (b.drop 128) n

/-- SHA-384 of a message, as a number of 384 bits. -/
@[irreducible] def sha384 (m : List Byte) : Nat :=
  let p := shaPad m
  let v := shaBlocks shaInit p (p.length / 128)
  [v.a, v.b, v.c, v.d, v.e, v.f].foldl (fun n x => 2 ^ 64 * n + x.toNat) 0

/-! ### Curve P-384 -/

/-- The field prime. -/
def ecP : Nat := 2 ^ 384 - 2 ^ 128 - 2 ^ 96 + 2 ^ 32 - 1
/-- The order of the base point. -/
def ecN : Nat := 0xFFFFFFFFFFFFFFFFFFFFFFFFFFFFFFFFFFFFFFFFFFFFFFFFC7634D81F4372DDF581A0DB248B0A77AECEC196ACCC52973
/-- The base point. -/
def ecG : Option (Nat × Nat) := some
  (0xAA87CA22BE8B05378EB1C71EF320AD746E1D3B628BA79B9859F741E082542A385502F25DBF55296C3A545E3872760AB7,
   0x3617DE4A96262C6F5D9E98BF9292DC29F8F41DBD289A147CE9DA3113B5F0B8C00A60B1CE1D7E819D7A431D7C90EA0E5F)

/-- b^e modulo m, for an exponent of at most `k` bits. -/
def powMod (m : Nat) : Nat → Nat → Nat → Nat
  | 0, _, _ => 1
  | k + 1, b, e =>
    let h := powMod m k (b * b % m) (e / 2)
    if e % 2 = 1 then b * h % m else h

/-- The inverse modulo a prime of 384 bits. -/
def invMod (m x : Nat) : Nat := powMod m 384 (x % m) (m - 2)

/-- The sum of two points; the point at infinity is none. The curve is y² = x³ - 3 x + b. -/
def ecAdd (p q : Option (Nat × Nat)) : Option (Nat × Nat) :=
  match p, q with
  | none, q => q
  | p, none => p
  | some (x1, y1), some (x2, y2) =>
    if x1 = x2 ∧ (y1 + y2) % ecP = 0 then none
    else
      let l := if x1 = x2 then (3 * x1 * x1 + ecP - 3) * invMod ecP (2 * y1) % ecP
        else (y2 + ecP - y1) * invMod ecP (x2 + ecP - x1) % ecP
      let x := (l * l + 2 * ecP - x1 - x2) % ecP
      some (x, (l * (x1 + ecP - x) + ecP - y1) % ecP)

/-- A multiple of a point, by a number of at most `k` bits. -/
def ecMul : Nat → Nat → Option (Nat × Nat) → Option (Nat × Nat)
  | 0, _, _ => none
  | k + 1, n, p =>
    let h := ecMul k (n / 2) (ecAdd p p)
    if n % 2 = 1 then ecAdd p h else h

/-- The signature (r, s) of hash value `e` verifies against public key `key`. -/
@[irreducible] def ecdsaOk (key : Nat × Nat) (e r s : Nat) : Bool :=
  if r = 0 ∨ ecN ≤ r ∨ s = 0 ∨ ecN ≤ s then false
  else
    let w := invMod ecN s
    match ecAdd (ecMul 384 (e * w % ecN) ecG) (ecMul 384 (r * w % ecN) (some key)) with
    | none => false
    | some (x, _) => x % ecN == r

/-- The signature of a firmware image, big-endian r and s, verifies against the key of the boot ROM (R460). -/
def signatureOk (message r s : List Byte) : Bool := ecdsaOk Config.fwKey (sha384 message) (beNat r) (beNat s)

end Sys2Proof.Machine
end

