-- ==== Sys2Proof/Machine/Fp.lean ====
section
/-! DEFINITION. FP32 arithmetic of Elzan (02_number_formats.md R32, R33): every operation is computed exactly on
integers and narrowed once, to nearest with ties to even, subnormals kept, overflow replaced by the largest finite
value. -/

namespace Sys2Proof.Machine

/-- A rounded FP32 result and whether R32 replaced an overflow by the largest finite value. -/
structure Rounded where
  bits : F32
  sat : Bool
  deriving DecidableEq, Repr, Inhabited

/-- The largest finite FP32 magnitude. -/
def fpMaxFinite : Nat := 0x7F7FFFFF

/-- The sign bit. -/
def fpNeg (x : F32) : Bool := x.getLsbD 31

/-- The 31 bits below the sign. -/
def fpLow (x : F32) : Nat := x.toNat % 2 ^ 31

/-- The exponent field. -/
def fpExp (x : F32) : Nat := fpLow x / 2 ^ 23

/-- The fraction field. -/
def fpFrac (x : F32) : Nat := x.toNat % 2 ^ 23

/-- Neither NaN nor infinite. -/
def fpFinite (x : F32) : Bool := fpExp x != 255

/-- +0 or -0 (R488). -/
def fpIsZero (x : F32) : Bool := fpLow x == 0

/-- Positive and finite, both zeros excluded (R488). -/
def fpPosFinite (x : F32) : Bool := fpFinite x && !fpNeg x && !fpIsZero x

/-- Zero of either sign, or positive and finite (R488). -/
def fpNonNegFinite (x : F32) : Bool := fpIsZero x || fpPosFinite x

/-- The integer significand: the magnitude is `fpSig x * 2 ^ fpPow x`. -/
def fpSig (x : F32) : Nat := if fpExp x = 0 then fpFrac x else 2 ^ 23 + fpFrac x

/-- The power of two of the significand's unit. -/
def fpPow (x : F32) : Int := if fpExp x = 0 then -149 else (fpExp x : Int) - 150

/-- The signed significand. -/
def fpInt (x : F32) : Int := if fpNeg x then -(fpSig x : Int) else (fpSig x : Int)

/-- The FP32 with the given sign and low bits. -/
def fpMake (neg : Bool) (low : Nat) : F32 := BitVec.ofNat 32 ((if neg then 2 ^ 31 else 0) + low)

/-- +0. -/
def fpZero : F32 := 0#32

/-- 1.0. -/
def fpOne : F32 := 0x3F800000#32

/-- Changes the sign. -/
def fpNegate (x : F32) : F32 := x ^^^ 0x80000000#32

/-- The magnitude. -/
def fpAbs (x : F32) : F32 := x &&& 0x7FFFFFFF#32

/-- An integer that orders FP32 values, both zeros equal. -/
def fpKey (x : F32) : Int := if fpNeg x then -(fpLow x : Int) else (fpLow x : Int)

/-- `x < y` for values that are not NaN. -/
def fpLt (x y : F32) : Bool := decide (fpKey x < fpKey y)

/-- `x ≤ y` for values that are not NaN. -/
def fpLe (x y : F32) : Bool := decide (fpKey x ≤ fpKey y)

/-- Equal values, the two zeros being equal. -/
def fpEq (x y : F32) : Bool := decide (fpKey x = fpKey y)

/-- `n / 2 ^ k` rounded to the nearest integer, ties to even. -/
def shiftRoundEven (n k : Nat) : Nat :=
  let d := n / 2 ^ k
  let r := 2 * (n % 2 ^ k)
  if r > 2 ^ k then d + 1 else if r = 2 ^ k ∧ d % 2 = 1 then d + 1 else d

/-- `n * 2 ^ p` with the given sign, rounded once to FP32 by R32. -/
def fpRound (neg : Bool) (n : Nat) (p : Int) : Rounded :=
  if n = 0 then ⟨fpMake neg 0, false⟩
  else
    let q : Int := max ((Nat.log2 n : Int) + p - 23) (-149)
    let m : Nat := if q ≤ p then n * 2 ^ (p - q).toNat else shiftRoundEven n (q - p).toNat
    let (m, q) : Nat × Int := if m = 2 ^ 24 then (2 ^ 23, q + 1) else (m, q)
    if m < 2 ^ 23 then ⟨fpMake neg m, false⟩
    else
      let e := q + 150
      if e > 254 then ⟨fpMake neg fpMaxFinite, true⟩
      else ⟨fpMake neg (e.toNat * 2 ^ 23 + (m - 2 ^ 23)), false⟩

/-- The signed exact value `i * 2 ^ p`, rounded once; exact zero gives +0. -/
def fpOfInt (i : Int) (p : Int) : Rounded := fpRound (decide (i < 0)) i.natAbs p

/-- An open result of finite operands: no operation gives an infinity or a NaN from finite operands, so a free word with
the exponent field 255 loses the lowest bit of that field (R32; log 6). -/
def fpOpenFinite (op : Nat) (a b : F32) : F32 :=
  let x := Config.fpOpen op a b
  if fpFinite x then x else x &&& 0xFF7FFFFF#32

/-- fp32_add with its saturation flag (R32). -/
def fpAddX (a b : F32) : Rounded :=
  if fpFinite a && fpFinite b then
    if fpIsZero a && fpIsZero b then ⟨fpMake (fpNeg a && fpNeg b) 0, false⟩
    else
      let p := min (fpPow a) (fpPow b)
      fpOfInt (fpInt a * 2 ^ (fpPow a - p).toNat + fpInt b * 2 ^ (fpPow b - p).toNat) p
  else ⟨Config.fpOpen 0 a b, false⟩

/-- fp32_mul with its saturation flag (R32). -/
def fpMulX (a b : F32) : Rounded :=
  if fpFinite a && fpFinite b then
    fpRound (fpNeg a != fpNeg b) (fpSig a * fpSig b) (fpPow a + fpPow b)
  else ⟨Config.fpOpen 1 a b, false⟩

/-- fp32_div with its saturation flag: IEEE 754 division rounded by R32 (R86). The quotient of a division by zero is open
among the finite values (log 6). -/
def fpDivX (a b : F32) : Rounded :=
  if fpFinite a && fpFinite b then
    if fpIsZero b then ⟨fpOpenFinite 2 a b, false⟩
    else
      let n := fpSig a * 2 ^ 60
      let d := fpSig b
      let q := n / d
      let sticky := if n % d = 0 then 0 else 1
      fpRound (fpNeg a != fpNeg b) (2 * q + sticky) (fpPow a - fpPow b - 61)
  else ⟨Config.fpOpen 2 a b, false⟩

/-- The largest `s` with `s * s ≤ n`, found bit by bit from bit `k - 1` down. -/
def isqrtBits (n : Nat) : Nat → Nat → Nat
  | 0, acc => acc
  | k + 1, acc =>
    let t := acc + 2 ^ k
    isqrtBits n k (if t * t ≤ n then t else acc)

/-- fp32_sqrt: IEEE 754 square root rounded by R32 (R153). The significand is widened by 60 bits or 61, so that the root
has at least 31 bits before its sticky bit, subnormals included. The root of a negative value is open among the finite
values (log 6). -/
def fpSqrt (a : F32) : F32 :=
  if fpIsZero a then a
  else if fpFinite a then
    if fpNeg a then fpOpenFinite 3 a 0
    else
      let p := fpPow a
      let (n, p) : Nat × Int := if p % 2 = 0 then (fpSig a * 2 ^ 60, p - 60) else (fpSig a * 2 ^ 61, p - 61)
      let r := isqrtBits n 43 0
      let sticky := if r * r = n then 0 else 1
      (fpRound false (2 * r + sticky) (p / 2 - 1)).bits
  else Config.fpOpen 3 a 0

/-- fp32_add (R32). -/
def fpAdd (a b : F32) : F32 := (fpAddX a b).bits

/-- fp32_sub (R32). -/
def fpSub (a b : F32) : F32 := fpAdd a (fpNegate b)

/-- fp32_mul (R32). -/
def fpMul (a b : F32) : F32 := (fpMulX a b).bits

/-- fp32_div (R32, R86). -/
def fpDiv (a b : F32) : F32 := (fpDivX a b).bits

/-- fp32_sub with its saturation flag. -/
def fpSubX (a b : F32) : Rounded := fpAddX a (fpNegate b)

/-- float(n): an integer converted by round to nearest, ties to even (R86). -/
def fpOfNat (n : Nat) : F32 := (fpRound false n 0).bits

/-- scale(y, n) = y * 2 ^ n, rounded once by R32 when subnormal (R218). -/
def fpScale (y : F32) (n : Int) : F32 := (fpRound (fpNeg y) (fpSig y) (fpPow y + n)).bits

/-- A -0 value replaced by +0 (08_scoring.md R196). -/
def fpPlusZero (x : F32) : F32 := if fpIsZero x then fpZero else x

/-- The larger of two magnitudes held as non-negative FP32 values. -/
def fpMax (a b : F32) : F32 := if fpLt a b then b else a

/-- FP32 to BF16 by round to nearest, ties to even, on the low 16 bits; a value beyond the range becomes the
largest finite BF16 of its sign (R33). -/
def bf16Of (x : F32) : U16 :=
  let m := shiftRoundEven (fpLow x) 16
  let m := if m > 0x7F7F then 0x7F7F else m
  BitVec.ofNat 16 ((if fpNeg x then 0x8000 else 0) + m)

/-- BF16 to FP32 by appending 16 zero bits (R54 step 1). -/
def fpOfBf16 (x : U16) : F32 := BitVec.ofNat 32 (x.toNat * 2 ^ 16)

/-- Compares `a * 2 ^ p` with `b * 2 ^ q` exactly. -/
def scaledLe (a : Nat) (p : Int) (b : Nat) (q : Int) : Bool :=
  let m := min p q
  decide (a * 2 ^ (p - m).toNat ≤ b * 2 ^ (q - m).toNat)

/-- `a * 2 ^ p < b * 2 ^ q`, exactly. -/
def scaledLt (a : Nat) (p : Int) (b : Nat) (q : Int) : Bool := !scaledLe b q a p

end Sys2Proof.Machine
end

