-- ==== Sys2Proof/Machine/Quant.lean ====
section
/-! DEFINITION. The element formats, block scales, global scale and element conversion of the Harrow
(02_number_formats.md R30 to R54), and the rotation of R51. -/

namespace Sys2Proof.Machine

/-- The element formats of a quantised tensor (R34). -/
inductive ElemFmt where
  | e2m1 | e4m3 | e5m2
  deriving DecidableEq, Repr, Inhabited

/-- A vector quantised in blocks of 16 along one axis: element codes, one UE4M3 scale a block, and the exponent of
the global scale (R34). -/
structure QVec where
  fmt : ElemFmt
  codes : List Byte
  scales : List Byte
  exp : Int
  deriving DecidableEq, Repr, Inhabited

/-- What a conversion counts: scale-capped blocks (R45), saturated and underflowed elements (R48). -/
structure QCount where
  cap : Nat
  sat : Nat
  ufl : Nat
  deriving DecidableEq, Repr, Inhabited

/-- No counts. -/
def qCountZero : QCount := ⟨0, 0, 0⟩

/-- Sum of counts. -/
def qCountAdd (a b : QCount) : QCount := ⟨a.cap + b.cap, a.sat + b.sat, a.ufl + b.ufl⟩

/-- Width of the mantissa field. -/
def fmtMant : ElemFmt → Nat
  | .e2m1 => 1
  | .e4m3 => 3
  | .e5m2 => 2

/-- The power of two of which every magnitude of the format is a whole number: halves, 2^-9, 2^-16 (R65). -/
def fmtUnit : ElemFmt → Int
  | .e2m1 => -1
  | .e4m3 => -9
  | .e5m2 => -16

/-- The code of the largest finite magnitude: 6.0, 448, 57,344 (R33). -/
def fmtMax : ElemFmt → Nat
  | .e2m1 => 0x7
  | .e4m3 => 0x7E
  | .e5m2 => 0x7B

/-- The sign bit of a code. -/
def fmtSign : ElemFmt → Nat
  | .e2m1 => 0x8
  | .e4m3 => 0x80
  | .e5m2 => 0x80

/-- The magnitude of code `c` in units of `fmtUnit`. -/
def fmtMag (f : ElemFmt) (c : Nat) : Nat :=
  let m := 2 ^ fmtMant f
  if c / m = 0 then c % m else (m + c % m) * 2 ^ (c / m - 1)

/-- The signed value of a code in units; the code of negative zero reads as zero (R30). -/
def codeInt (f : ElemFmt) (c : Byte) : Int :=
  let m := (fmtMag f (c.toNat % fmtSign f) : Int)
  if c.toNat / fmtSign f % 2 = 1 then -m else m

/-- A UE4M3 scale as an integer significand and a power of two ("The tine and its block", 03_acre.md). -/
def scaleSplit (s : Byte) : Nat × Int :=
  let e := s.toNat / 8 % 16
  let m := s.toNat % 8
  if e = 0 then (m, -9) else (8 + m, (e : Int) - 10)

/-- A scale that no block may carry: bit 7 set, or 0x7F (R31). -/
def scaleFault (s : Byte) : Bool := decide (s.toNat ≥ 0x7F)

/-- The exponent E of the global scale for a running maximum M (R37). -/
def globalExp (f : ElemFmt) (m : F32) : Int :=
  if fpPosFinite m then
    let c := 448 * fmtMag f (fmtMax f)
    let lm := Nat.log2 (fpSig m)
    let lc := Nat.log2 c
    let e0 : Int := ((lm : Int) + fpPow m) - ((lc : Int) + fmtUnit f)
    let e := if fpSig m * 2 ^ lc ≤ c * 2 ^ lm then e0 else e0 + 1
    max (-126) (min 127 e)
  else 0

/-- Whether scale code `s` brings reference `r` within the element range: Q * s ≥ r / 2^E (R43). -/
def scaleHolds (f : ElemFmt) (r : F32) (e : Int) (s : Nat) : Bool :=
  let (m, q) := scaleSplit (BitVec.ofNat 8 s)
  scaledLe (fpSig r) (fpPow r) (fmtMag f (fmtMax f) * m) (fmtUnit f + q + e)

/-- The block scale of R43 for reference `r`, and whether the block is scale-capped. -/
def blockScale (f : ElemFmt) (r : F32) (e : Int) : Byte × Bool :=
  if fpIsZero r then (0, false)
  else
    match ((List.range 0x7E).map (· + 1)).find? (scaleHolds f r e) with
    | some s => (BitVec.ofNat 8 s, false)
    | none => (0x7E, true)

/-- The largest and second-largest magnitudes of a list, repeated values counted separately (R44). -/
def topTwo (xs : List F32) : F32 × F32 :=
  xs.foldl (fun (t : F32 × F32) x =>
    let a := fpAbs x
    if fpLt t.1 a then (a, t.1) else if fpLt t.2 a then (t.1, a) else t) (fpZero, fpZero)

/-- The reference magnitude of a block (R44). A block of one element has that element's magnitude for reference
under SCALE_REF = 1 too (log 10). -/
def blockRef (second : Bool) (xs : List F32) : F32 :=
  let t := topTwo xs
  if second && decide (xs.length > 1) then t.2 else t.1

/-- A multiple `n` of the block's unit, times scale and global scale, as the FP32 that comparisons use (R45's
section: exact but at the extremes, where R32 rounds it). -/
def thresholdOf (f : ElemFmt) (s : Byte) (e : Int) (n : Nat) (p : Int) : F32 :=
  let (m, q) := scaleSplit s
  (fpRound false (n * m) (p + fmtUnit f + q + e)).bits

/-- The magnitude code nearest to |x| / (s * 2^E), ties to the even mantissa (R46, R49). -/
def codeNearest (f : ElemFmt) (s : Byte) (e : Int) (a : F32) : Nat :=
  ((List.range (fmtMax f)).map (· + 1)).foldl (fun mag hi =>
    let t := thresholdOf f s e (fmtMag f (hi - 1) + fmtMag f hi) (-1)
    if fpLt t a || (fpEq t a && hi % 2 == 0) then hi else mag) 0

/-- The magnitude code of stochastic rounding with draw `u` (R47), by exact comparison. -/
def codeStochastic (f : ElemFmt) (s : Byte) (e : Int) (u : Nat) (a : F32) : Nat :=
  let (m, q) := scaleSplit s
  let p := min (fpPow a) (fmtUnit f + q + e)
  let x := fpSig a * 2 ^ (fpPow a - p).toNat
  let g := m * 2 ^ (fmtUnit f + q + e - p).toNat
  if fmtMag f (fmtMax f) * g ≤ x then fmtMax f
  else
    let lo := ((List.range (fmtMax f)).filter fun c => fmtMag f c * g ≤ x).length - 1
    let l := fmtMag f lo
    let h := fmtMag f (lo + 1)
    if x = l * g then lo
    else if u * ((h - l) * g) < (x - l * g) * 65536 then lo + 1 else lo

/-- |x| > Q * s * 2^E (R46). -/
def elemSaturates (f : ElemFmt) (s : Byte) (e : Int) (x : F32) : Bool :=
  fpLt (thresholdOf f s e (fmtMag f (fmtMax f)) 0) (fpAbs x)

/-- One element converted under scale `s`: code, saturated, underflowed (R46 to R49). -/
def quantElem (f : ElemFmt) (s : Byte) (e : Int) (draw : Option Nat) (x : F32) : Byte × QCount :=
  if s = 0 then (0, ⟨0, 0, if fpIsZero x then 0 else 1⟩)
  else
    let a := fpAbs x
    let mag := match draw with
      | none => codeNearest f s e a
      | some u => codeStochastic f s e u a
    let sat := if elemSaturates f s e x then 1 else 0
    let ufl := if !fpIsZero x && mag == 0 then 1 else 0
    (BitVec.ofNat 8 (if mag = 0 then 0 else if fpNeg x then fmtSign f + mag else mag), ⟨0, sat, ufl⟩)

/-- The exact decoded value of a code times its scales, as an integer and a power of two (R123). -/
def decodeElem (f : ElemFmt) (s : Byte) (e : Int) (c : Byte) : Int × Int :=
  let (m, q) := scaleSplit s
  (codeInt f c * (m : Int), fmtUnit f + q + e)

/-- One block converted: codes, scale and counts. `draw i` is the stochastic draw of element `i`. -/
def quantBlock (f : ElemFmt) (e : Int) (second : Bool) (draw : Nat → Option Nat) (xs : List F32) :
    List Byte × Byte × QCount :=
  let (s, capped) := blockScale f (blockRef second xs) e
  let out := (List.range xs.length).map fun i => quantElem f s e (draw i) (xs.getD i 0)
  (out.map Prod.fst, s,
    out.foldl (fun c o => qCountAdd c o.2) ⟨if capped then 1 else 0, 0, 0⟩)

/-- Block `k` of a vector cut in 16s. -/
def block16 {α : Type} (k : Nat) (xs : List α) : List α := (xs.drop (16 * k)).take 16

/-- A vector converted in blocks of 16 along its axis. A short last block is filled with zero elements that never
enter its scale (R36). -/
def quantVec (f : ElemFmt) (e : Int) (second : Bool) (draw : Nat → Option Nat) (xs : List F32) : QVec × QCount :=
  let n := (xs.length + 15) / 16
  let bs := (List.range n).map fun k => quantBlock f e second (fun i => draw (16 * k + i)) (block16 k xs)
  let codes := (bs.map fun b => b.1 ++ zeros (16 - b.1.length)).flatten
  (⟨f, codes, bs.map fun b => b.2.1, e⟩, bs.foldl (fun c b => qCountAdd c b.2.2) qCountZero)

/-- A NaN or infinite input becomes +0.0 (R54 step 2); the count of such inputs. -/
def replaceNonFinite (xs : List F32) : List F32 × Nat :=
  (xs.map fun x => if fpFinite x then x else fpZero, (xs.filter fun x => !fpFinite x).length)

/-- One butterfly stage over bit `t` of the index, with the count of overflowed sums (R51, R52). -/
def butterfly (t : Nat) (v : List F32) : List F32 × Nat :=
  let out := (List.range v.length).map fun i =>
    if i / 2 ^ t % 2 = 0 then fpAddX (v.getD i 0) (v.getD (i + 2 ^ t) 0)
    else fpSubX (v.getD (i - 2 ^ t) 0) (v.getD i 0)
  (out.map Rounded.bits, (out.filter Rounded.sat).length)

/-- The rotation of one 256-element group; `sign j` is the rotation-sign bit of element `j` of the group (R51). -/
def rotateGroup (sign : Nat → Bool) (v : List F32) : List F32 × Nat :=
  let v := (List.range v.length).map fun j => if sign j then fpNegate (v.getD j 0) else v.getD j 0
  let (v, n) := (List.range 8).foldl (fun (a : List F32 × Nat) t =>
    let (w, c) := butterfly t a.1
    (w, a.2 + c)) (v, 0)
  (v.map fun x => fpScale x (-4), n)

/-- The rotation of a whole row of hidden elements, group by group (R51); `sign j` for hidden index `j`. -/
def rotateRow (sign : Nat → Bool) (v : List F32) : List F32 × Nat :=
  (List.range (v.length / 256)).foldl (fun (a : List F32 × Nat) g =>
    let (w, c) := rotateGroup (fun j => sign (256 * g + j)) ((v.drop (256 * g)).take 256)
    (a.1 ++ w, a.2 + c)) ([], 0)

/-- The largest magnitude of a list (R38). -/
def maxAbs (xs : List F32) : F32 := (topTwo xs).1

/-- Packs E2M1 codes two to a byte, the even index in bits [3:0] (R35). -/
def packNibbles : List Byte → List Byte
  | a :: b :: t => ((a &&& 0xF) ||| (b <<< 4)) :: packNibbles t
  | [a] => [a &&& 0xF]
  | [] => []

/-- The E2M1 code at index `i` of a packed run (R35). -/
def nibbleAt (b : List Byte) (i : Nat) : Byte :=
  let v := byteAt b (i / 2)
  if i % 2 = 0 then v &&& 0xF else v >>> 4

end Sys2Proof.Machine
end

