-- ==== Sys2Proof/Machine/AcreNum.lean ====
section
/-! DEFINITION. The arithmetic of the Acre (03_acre.md): block products (R64, R65), the canonical strand order (R66,
R67), staging (R72, R73), narrow accumulation (R76, R77, R173), saturation (R80), the fused drain operation (R83),
and the reductions of the drain path (R85, R86). -/

namespace Sys2Proof.Machine

/-- One scale block of an operand: its element codes and its UE4M3 scale (R34). -/
structure Blk where
  codes : List Byte
  scale : Byte
  deriving DecidableEq, Repr, Inhabited

/-- A row or column operand of a tile: element format, blocks along the contraction axis, global exponent (R61). -/
structure Opd where
  fmt : ElemFmt
  blocks : List Blk
  exp : Int
  deriving DecidableEq, Repr, Inhabited

/-- A block of zero elements, which pads an operand to K_pad (R66). -/
def blkZero : Blk := ⟨[], 0⟩

/-- Block `k` of an operand, zero beyond its end (R66). -/
def opdBlock (o : Opd) (k : Nat) : Blk := o.blocks.getD k blkZero

/-- An operand from a quantised vector. -/
def opdOfQVec (v : QVec) : Opd :=
  ⟨v.fmt, (List.range v.scales.length).map fun k => ⟨block16 k v.codes, v.scales.getD k 0⟩, v.exp⟩

/-- The exact sum S of the 16 products of a block, in products of the two formats' units (R63, R65). -/
def blockSum (fr : ElemFmt) (fc : ElemFmt) : List Byte → List Byte → Int
  | a :: s, b :: t => codeInt fr a * codeInt fc b + blockSum fr fc s t
  | _, _ => 0

/-- The exact block product I * 2 ^ e of R64 and R65: I and e. -/
def blockTerm (fr fc : ElemFmt) (er ec : Int) (r c : Blk) : Int × Int :=
  let (mr, qr) := scaleSplit r.scale
  let (mc, qc) := scaleSplit c.scale
  (blockSum fr fc r.codes c.codes * (mr * mc : Nat), qr + qc + er + ec + fmtUnit fr + fmtUnit fc)

/-- The chain of one output: the strand accumulator A, the pair (T_hi, T_lo), whether R73 holds T_lo at +0 for the
rest of the output, and whether any FP32 result saturated (R80). -/
structure Chain where
  a : F32
  hi : F32
  lo : F32
  dead : Bool
  sat : Bool
  deriving DecidableEq, Repr, Inhabited

/-- The chain before the first block (R67). -/
def chainZero : Chain := ⟨fpZero, fpZero, fpZero, false, false⟩

/-- A strand boundary: the single addition of R67, or the exact two-sum of R73. -/
def chainBoundary (bounded : Bool) (c : Chain) : Chain :=
  let s := fpAddX c.hi c.a
  if bounded then
    if s.sat || c.dead then ⟨fpZero, s.bits, fpZero, true, c.sat || s.sat⟩
    else
      let bp := fpSub s.bits c.hi
      let ap := fpSub s.bits bp
      let e := fpAdd (fpSub c.hi ap) (fpSub c.a bp)
      let l := fpAddX c.lo e
      ⟨fpZero, s.bits, l.bits, false, c.sat || l.sat⟩
  else ⟨fpZero, s.bits, c.lo, c.dead, c.sat || s.sat⟩

/-- The value that leaves the chain at the drain (R72, R73), with its saturation. -/
def chainOutput (bounded : Bool) (c : Chain) : Rounded :=
  if bounded then let r := fpAddX c.hi c.lo; ⟨r.bits, c.sat || r.sat⟩ else ⟨c.hi, c.sat⟩

/-- Adds one value into A. -/
def chainAdd (c : Chain) (p : Rounded) : Chain :=
  let r := fpAddX c.a p.bits
  { c with a := r.bits, sat := c.sat || p.sat || r.sat }

/-- The blocks of wide accumulation from block index `k` on, `b` blocks a strand (R67, R172). -/
def chainWide (bounded : Bool) (b : Nat) : Nat → List (Int × Int) → Chain → Chain
  | _, [], c => c
  | k, (i, e) :: t, c =>
    let c := chainAdd c (fpOfInt i e)
    chainWide bounded b (k + 1) t (if (k + 1) % b = 0 then chainBoundary bounded c else c)

/-- One block's contribution to NAR: round-to-nearest-even(I * 2 ^ (e - e* - 3)) (R76). -/
def narrowTerm (star : Int) (p : Int × Int) : Int :=
  let c := shiftRoundEven p.1.natAbs (star + 3 - p.2).toNat
  if p.1 < 0 then -(c : Int) else c

/-- The largest e of a group, over the blocks and columns whose two scales are non-zero (R76). -/
def narrowStar : List (Option Int) → Option Int
  | [] => none
  | none :: t => narrowStar t
  | some e :: t => match narrowStar t with
    | none => some e
    | some f => some (max e f)

/-- The groups of narrow accumulation from block index `k` on (R76, R77, R173). `ps` holds I and e of every block,
`es` the largest e over the segment's columns for every block. `fuel` bounds the number of groups. -/
def chainNarrow (bounded : Bool) (b : Nat) :
    Nat → Nat → List (Int × Int) → List (Option Int) → Chain → Chain
  | 0, _, _, _, c => c
  | fuel + 1, k, ps, es, c =>
    if ps.isEmpty then c
    else
      let g := min (min 8 (b - k % b)) ps.length
      let p : Rounded := match narrowStar (es.take g) with
        | none => ⟨fpZero, false⟩
        | some star => fpOfInt ((ps.take g).foldl (fun n p => if p.1 = 0 then n else n + narrowTerm star p) 0) (star + 3)
      let c := chainAdd c p
      chainNarrow bounded b fuel (k + g) (ps.drop g) (es.drop g)
        (if (k + g) % b = 0 then chainBoundary bounded c else c)

/-- The exact products of blocks `k` to `k + n - 1` of a row and a column operand. -/
def opdTerms (r c : Opd) (k n : Nat) : List (Int × Int) :=
  (List.range n).map fun i => blockTerm r.fmt c.fmt r.exp c.exp (opdBlock r (k + i)) (opdBlock c (k + i))

/-- For each of `n` blocks from `k`: the largest e over the columns of the segment with two non-zero scales (R76). -/
def opdStars (r : Opd) (cols : List Opd) (k n : Nat) : List (Option Int) :=
  (List.range n).map fun i =>
    let rb := opdBlock r (k + i)
    if rb.scale = 0 then none
    else narrowStar (cols.map fun c =>
      let cb := opdBlock c (k + i)
      if cb.scale = 0 then none else some (blockTerm r.fmt c.fmt r.exp c.exp ⟨[], rb.scale⟩ ⟨[], cb.scale⟩).2)

/-- The accumulation mode of a tile (R79). -/
structure AccMode where
  bounded : Bool
  narrow : Bool
  deriving DecidableEq, Repr, Inhabited

/-- Runs blocks `k` to `k + n - 1` of one output on its chain. An FP8 operand takes the additions of R65 in either
mode, since R76 rests on the exact I and e of R64 (log 11). `stars` are those of `opdStars`. -/
def chainRun (m : AccMode) (b : Nat) (r c : Opd) (k n : Nat) (stars : List (Option Int)) (s : Chain) : Chain :=
  let ps := opdTerms r c k n
  if m.narrow && c.fmt == .e2m1 && r.fmt == .e2m1 then chainNarrow m.bounded b n k ps stars s
  else chainWide m.bounded b k ps s

/-- K_pad / 16 / 64: the blocks of one strand for a contraction of length `k` (R66). -/
def strandBlocks (k : Nat) : Nat := (k + 1023) / 1024

/-- The chains of a tile's outputs from strand `s0` on, column by column: `prev` gives the chain of row r and
column c at the pause (R87), `rows` the row operands, `cols` the columns of the segment (R61, R67, R88). -/
def tileChains (m : AccMode) (kLen s0 s1 : Nat) (rows cols : List Opd) (prev : Nat → Nat → Chain) : List (List Chain) :=
  let b := strandBlocks kLen
  let k := s0 * b
  let n := (s1 - s0) * b
  let stars := rows.map fun r => if m.narrow then opdStars r cols k n else []
  (List.range cols.length).map fun c =>
    (List.range rows.length).map fun r =>
      chainRun m b (rows.getD r default) (cols.getD c default) k n (stars.getD r []) (prev c r)

/-- The fused drain operation of R83; `o` is the widened element of O. -/
def fuseApply (op : Nat) (y o : F32) : Rounded :=
  let o := if fpFinite o then o else fpZero
  if op = 1 then fpAddX y o else if op = 2 then fpMulX y o else ⟨y, false⟩

/-! Pairwise trees over leaf indices (R85, R86, R224). A stack holds completed nodes, the newest first, each with the
index of its last leaf; absent leaves merge as the identity. -/

/-- The number of bits of `n`: two leaves i and j first share a node at level `bitLen (i xor j)`. -/
def bitLen (n : Nat) : Nat := if n = 0 then 0 else Nat.log2 n + 1

/-- Merges the newest node with older ones that share a node below the level where leaf `i` joins. -/
def treeCollapse {α : Type} (merge : α → α → α) (i j : Nat) (b : α) : List (Nat × α) → List (Nat × α)
  | [] => [(j, b)]
  | (k, a) :: t =>
    if bitLen (k ^^^ j) < bitLen (j ^^^ i) then treeCollapse merge i j (merge a b) t else (j, b) :: (k, a) :: t

/-- Adds leaf `i`; leaves come in rising index order. -/
def treePush {α : Type} (merge : α → α → α) (st : List (Nat × α)) (i : Nat) (v : α) : List (Nat × α) :=
  match st with
  | [] => [(i, v)]
  | (j, b) :: t => (i, v) :: treeCollapse merge i j b t

/-- The root of the tree over the leaves pushed so far. -/
def treeRoot {α : Type} (merge : α → α → α) : List (Nat × α) → Option α
  | [] => none
  | (_, b) :: t => some (t.foldl (fun acc p => merge p.2 acc) b)

/-- A tree over a list of indexed leaves. -/
def treeOf {α : Type} (merge : α → α → α) (xs : List (Nat × α)) : Option α :=
  treeRoot merge (xs.foldl (fun st p => treePush merge st p.1 p.2) [])

/-- A stack of a sum of squares (R85). -/
abbrev SqStack := List (Nat × F32)

/-- Adds x squared at leaf `i` (R85). -/
def sqPush (st : SqStack) (i : Nat) (x : F32) : SqStack := treePush fpAdd st i (fpMul x x)

/-- The sum of squares, +0 over no leaves (R85). -/
def sqRoot (st : SqStack) : F32 := (treeRoot fpAdd st).getD fpZero

/-- The triple (count, mean, M2) of R86. -/
structure MeanVar where
  n : Nat
  m : F32
  q : F32
  deriving DecidableEq, Repr, Inhabited

/-- The leaf of a value (R86). -/
def mvLeaf (x : F32) : MeanVar := ⟨1, x, fpZero⟩

/-- merge of R86. -/
def mvMerge (a b : MeanVar) : MeanVar :=
  if b.n = 0 then a
  else if a.n = 0 then b
  else
    let n := a.n + b.n
    let d := fpSub b.m a.m
    let w := fpDiv (fpOfNat b.n) (fpOfNat n)
    ⟨n, fpAdd a.m (fpMul d w), fpAdd (fpAdd a.q b.q) (fpMul (fpMul d d) (fpMul (fpOfNat a.n) w))⟩

/-- A stack of triples. -/
abbrev MvStack := List (Nat × MeanVar)

/-- Mean and population variance (R86); both +0 over no leaves (R192). -/
def mvResult (st : MvStack) : F32 × F32 :=
  match treeRoot mvMerge st with
  | none => (fpZero, fpZero)
  | some t => if t.n = 0 then (fpZero, fpZero) else (t.m, fpDiv t.q (fpOfNat t.n))

end Sys2Proof.Machine
end

