-- ==== Sys2Proof/Machine/Stone.lean ====
section
/-! DEFINITION. The stone path (05_stone_path.md R122 to R130): which elements become stones, the stone list and its
entries, the stone accumulator, and the issue of a tile's entries. -/

namespace Sys2Proof.Machine

/-- One stone entry: column element within the pass, hidden index, BF16 residual (R125). -/
structure Stone where
  col : BitVec 10
  hidx : BitVec 15
  resid : U16
  deriving DecidableEq, Repr, Inhabited

/-- The entry as its 64-bit word: COL in [41:32], HIDX in [30:16], RESID in [15:0], the reserved bits zero (R125). -/
def stoneWord (e : Stone) : U64 := 0#22 ++ e.col ++ 0#1 ++ e.hidx ++ e.resid

/-- The entry as it is stored: 8 bytes, little-endian (R9, R125). -/
def stoneBytes (e : Stone) : List Byte := leBytes 8 (stoneWord e).toNat

/-- The entry that a stored word holds (R125). -/
def stoneOfWord (w : U64) : Stone := ⟨w.extractLsb' 32 10, w.extractLsb' 16 15, w.extractLsb' 0 16⟩

/-- θ of STONE_THR in half-units (R122). -/
def stoneTheta (thr : Nat) : Nat := if thr = 1 then 12 else if thr = 2 then 10 else 8

/-- Whether element x of a block with scale s under exponent e is a stone (R122). -/
def isStone (thr : Nat) (s : Byte) (e : Int) (x : F32) : Bool :=
  thr != 0 && fpLt (thresholdOf .e2m1 s e (stoneTheta thr) 0) (fpAbs x)

/-- The residual BF16(x - q) of an element with code c: q is exact, and the difference is rounded once (R123). -/
def stoneResid (s : Byte) (e : Int) (c : Byte) (x : F32) : U16 :=
  let (q, k) := decodeElem .e2m1 s e c
  let p := min (fpPow x) k
  bf16Of (fpOfInt (fpInt x * 2 ^ (fpPow x - p).toNat - q * 2 ^ (k - p).toNat) p).bits

/-- A residual that produces an entry: neither +0 nor -0 (R123). -/
def residLive (r : U16) : Bool := r.toNat % 2 ^ 15 != 0

/-- The hidden index and residual of each stone of one token, ascending (R123, R124). -/
def tokenStones (thr : Nat) (q : QVec) (xs : List F32) : List (Nat × U16) :=
  (List.range xs.length).filterMap fun h =>
    let x := xs.getD h 0
    let s := q.scales.getD (h / 16) 0
    let r := stoneResid s q.exp (q.codes.getD h 0) x
    if isStone thr s q.exp x && residLive r then some (h, r) else none

/-- The elements of one row whose saturation clips a non-zero residual: those that R124 counts as dropped under
STONE_THR = 0b00 and in the token-blocked copy. -/
def clippedCount (q : QVec) (xs : List F32) : Nat :=
  ((List.range xs.length).filter fun h =>
    let x := xs.getD h 0
    let s := q.scales.getD (h / 16) 0
    s != 0 && elemSaturates .e2m1 s q.exp x && residLive (stoneResid s q.exp (q.codes.getD h 0) x)).length

/-- The weight at a hidden index of a row operand: element times block scale times 2^E_ROW, exactly (R126). -/
def opdElem (o : Opd) (h : Nat) : Int × Int :=
  let b := opdBlock o (h / 16)
  let (m, q) := scaleSplit b.scale
  (codeInt o.fmt (byteAt b.codes (h % 16)) * (m : Nat), q + fmtUnit o.fmt + o.exp)

/-- fp32_mul of a residual with an exact weight, rounded once by R32 (R126). -/
def stoneProduct (r : U16) (w : Int × Int) : Rounded :=
  let x := fpOfBf16 r
  if fpFinite x then fpOfInt (fpInt x * w.1) (fpPow x + w.2) else ⟨Config.fpOpen 1 x 0, false⟩

/-- The stone accumulator Z of one output over `entries`, from value `z` (R126, R134), with its saturation. -/
def stoneAcc (row : Opd) (entries : List Stone) (z : Rounded) : Rounded :=
  entries.foldl (fun (z : Rounded) e =>
    let p := stoneProduct e.resid (opdElem row e.hidx.toNat)
    let r := fpAddX z.bits p.bits
    ⟨r.bits, z.sat || p.sat || r.sat⟩) z

/-- The issue rule of R128 over the COL fields of a tile's list; the answer is the excess X. -/
def stoneExcess (tTile : Nat) : Nat → Nat → List Nat → Nat
  | _, _, [] => 0
  | k, used, c :: t =>
    let (k, used) := if used = 16 then (k + 1, 0) else (k, used)
    let (k, used) := if k < c + 1 then (c + 1, 0) else (k, used)
    if k + 4 > tTile + c then t.length + 1 else stoneExcess tTile k (used + 1) t

/-- The hold of a stone glean pass (R130). -/
def gleanHold (x : Nat) : Nat := if x = 0 then 0 else (x + 15) / 16 + 4

end Sys2Proof.Machine
end

