-- ==== Sys2Proof/Machine/Cycles.lean ====
section
/-! DEFINITION. The geometry and the exact ACRE cycle counts of the compute phase: fold and column passes (R71, R486),
effective width (R90), tiles (R93), fill and drain (R94, R95). -/

namespace Sys2Proof.Machine

/-- The fold factors (R69), the largest first. -/
def foldList : List Nat := [64, 32, 16, 8, 4, 2, 1]

/-- The largest F with C_eff / F ≥ `need`, 1 where none (R71). -/
def foldLargest (need cEff : Nat) : Nat := (foldList.find? fun f => decide (need * f ≤ cEff)).getD 1

/-- The fold factor that R71 chooses for FOLD, B column elements and C_eff; TRAIN_STEP keeps C_eff / F ≥ 16. -/
def chooseFold (fold b cEff : Nat) (train : Bool) : Nat :=
  if fold = 0 then foldLargest (max (min b cEff) (if train then 16 else 1)) cEff
  else min fold (foldLargest (if train then 16 else 1) cEff)

/-- FOLD passes the check of R71 at fetch. -/
def foldOk (fold cEff : Nat) (train : Bool) : Bool :=
  fold == 0 || (foldList.contains fold && (!train || decide (fold * 16 ≤ cEff)))

/-- The column-pass size S of R486. -/
def passSize (fold b cEff : Nat) (train : Bool) : Nat := cEff / chooseFold fold b cEff train

/-- Division rounded up. -/
def ceilDiv (a b : Nat) : Nat := (a + b - 1) / b

/-- The number of column passes of `b` column elements (R62). -/
def passCount (b s : Nat) : Nat := ceilDiv b s

/-- The tile time of R93. -/
def tileTime (kPad cEff f rowHalf : Nat) (fp8 : Bool) : Nat :=
  let k := if fp8 then kPad else kPad / 4
  if rowHalf = 0 then max k cEff / f else 2 * max k (cEff / 2) / f

/-- K_pad of a contraction length (R66). -/
def kPadOf (k : Nat) : Nat := 1024 * ceilDiv k 1024

/-- The fill and drain term D (R94, R95). -/
def fillDrain (cEff f : Nat) : Nat := 80 + max 16 (cEff / f)

/-- The sub-tiles of one forward or dH tile (R486): 1 while C_eff / F ≥ S. -/
def subTiles (s f cEff : Nat) : Nat := if s ≤ cEff / f then 1 else ceilDiv (s * f) cEff

/-- The effective column count of R90: `usable` column groups, halved at sag level 3. -/
def effectiveCols (usable : Nat) (half : Bool) : Nat :=
  if usable = 0 then 0 else
    let c := 2 ^ Nat.log2 (64 * usable)
    if half then c / 2 else c

end Sys2Proof.Machine
end

