-- ==== Sys2Proof/Machine/MathFn.lean ====
section
/-! DEFINITION. The bit-exact functions of Elzan: exp (08_scoring.md R218, R219), ln (R220, R221) and the normal
pair with its quarter-wave table (06_sower.md R152, R153). The tables are given by their rules, "the FP32 value
nearest to" a real number, and are computed here on integers with far more bits than the rounding needs. -/

namespace Sys2Proof.Machine

/-- The largest `t` below `2 ^ k + acc` with `t ^ 256 ≤ n`, found bit by bit. -/
def root256 (n : Nat) : Nat → Nat → Nat
  | 0, acc => acc
  | k + 1, acc => root256 n k (if (acc + 2 ^ k) ^ 256 ≤ n then acc + 2 ^ k else acc)

/-- EXPT[j], the FP32 value nearest to 2^(j/256) (R219): half of `floor (2 ^ (24 + j/256))`, rounded up when odd. -/
def expTable (j : Nat) : F32 := (fpRound false ((root256 (2 ^ (256 * 24 + j)) 25 0 + 1) / 2) (-23)).bits

/-- The integer nearest to a finite FP32, ties to even (R218). -/
def fpRoundEven (x : F32) : Int :=
  let n : Nat := if 0 ≤ fpPow x then fpSig x * 2 ^ (fpPow x).toNat else shiftRoundEven (fpSig x) (-fpPow x).toNat
  if fpNeg x then -(n : Int) else n

/-- float(k) for a signed integer. -/
def fpOfIntExact (i : Int) : F32 := (fpOfInt i 0).bits

/-- exp of R218, for finite arguments x ≤ 0. -/
def expFn (x : F32) : F32 :=
  if fpIsZero x then fpOne
  else if fpLt x 0xC2D00000#32 then fpZero
  else
    let t := fpMul x 0x43B8AA3B#32
    let k := fpRoundEven t
    let kf := fpOfIntExact k
    let r := fpSub (fpSub x (fpMul kf 0x3B310000#32)) (fpMul kf 0x36E42FF0#32)
    let j := (k % 256).toNat
    let n := (k - j) / 256
    let q := fpMul r (fpAdd fpOne (fpMul r (fpAdd 0x3F000000#32 (fpMul r 0x3E2AAAAB#32))))
    let y := fpAdd (expTable j) (fpMul (expTable j) q)
    fpScale y n

/-- The sum of `z / 1 + z^3 / 3 + z^5 / 5 + …`, `n` terms, in units of 2^-128; `p` is the odd power of z so far. -/
def atanhSum (a b : Nat) : Nat → Nat → Nat → Nat → Nat
  | 0, _, _, acc => acc
  | n + 1, i, p, acc => atanhSum a b n (i + 2) (p * a * a / (b * b)) (acc + p / i)

/-- ln(a / b) for a ≥ b in units of 2^-128, by ln(a/b) = 2 atanh((a - b) / (a + b)). -/
def lnFixed (a b : Nat) : Nat := 2 * atanhSum (a - b) (a + b) 40 1 ((a - b) * 2 ^ 128 / (a + b)) 0

/-- The grid point LC[j] in units of 1/512 (R221). -/
def lnGrid (j : Nat) : Nat := if j < 128 then 512 + 2 * j else 257 + j

/-- LC[j] (R221). -/
def lnC (j : Nat) : F32 := (fpRound false (lnGrid j) (-9)).bits

/-- LR[j], the FP32 value nearest to 1 / LC[j] (R221). -/
def lnR (j : Nat) : F32 := fpDiv fpOne (lnC j)

/-- LL[j], the FP32 value nearest to ln LC[j] (R221). -/
def lnL (j : Nat) : F32 :=
  let g := lnGrid j
  if 512 ≤ g then (fpRound false (lnFixed g 512) (-128)).bits
  else (fpRound true (lnFixed 512 g) (-128)).bits

/-- ln of R220, for positive finite arguments. -/
def lnFn (x : F32) : F32 :=
  let l := Nat.log2 (fpSig x)
  let m := fpSig x * 2 ^ (23 - l) - 2 ^ 23
  let e : Int := fpPow x + l
  let low := m / 2 ^ 22 = 0
  let j := if low then m / 2 ^ 15 else 128 + m % 2 ^ 22 / 2 ^ 15
  let g := (fpRound false (2 ^ 23 + m) (if low then -23 else -24)).bits
  let e := if low then e else e + 1
  let d := fpSub g (lnC j)
  let r := fpMul d (lnR j)
  let q := fpAdd r (fpMul (fpMul r r)
    (fpAdd 0xBF000000#32 (fpMul r (fpAdd 0x3EAAAAAB#32 (fpMul r 0xBE800000#32)))))
  let ef := fpOfIntExact e
  let hi := fpAdd (fpMul ef 0x3F317200#32) (lnL j)
  let lo := fpAdd (fpMul ef 0x35BFBE8E#32) q
  fpAdd hi lo

/-- Pi in units of 2^-128 (R152 names the number). -/
def piFixed : Nat := 0x3243F6A8885A308D313198A2E03707344

/-- The Taylor sum of the sine in units of 2^-128: alternating terms `t`, with `x2` the squared argument. -/
def sinSum (x2 : Nat) : Nat → Nat → Int → Int → Int
  | 0, _, _, acc => acc
  | n + 1, i, t, acc => sinSum x2 n (i + 2) (-(t * x2 / 2 ^ 128 / ((i + 1) * (i + 2)))) (acc + t)

/-- S[k], the FP32 value nearest to sin(pi k / 2048), k = 0 to 1024 (R152). -/
def sinTable (k : Nat) : F32 :=
  if k = 0 then fpZero
  else if 1024 ≤ k then fpOne
  else
    let x := piFixed * k / 2048
    (fpRound false (sinSum (x * x / 2 ^ 128) 24 1 x 0).toNat (-128)).bits

/-- A table entry negated; +0.0 stays +0.0 (R153). -/
def negTable (x : F32) : F32 := if fpIsZero x then fpZero else fpNegate x

/-- The FP32 value U of a uniform draw (R147). -/
def uniformOf (w : U32) : F32 := (fpRound false (2 * (w.toNat / 2 ^ 9) + 1) (-24)).bits

/-- The normal pair (n_c, n_s) of words a and b (R153). -/
def normalPair (a b : U32) : F32 × F32 :=
  let rad := fpSqrt (fpMul 0xC0000000#32 (lnFn (uniformOf a)))
  let qd := b.toNat / 2 ^ 30
  let k := b.toNat / 2 ^ 20 % 1024
  let s := sinTable k
  let c := sinTable (1024 - k)
  let sn := if qd = 0 then s else if qd = 1 then c else if qd = 2 then negTable s else negTable c
  let cs := if qd = 0 then c else if qd = 1 then negTable s else if qd = 2 then negTable c else s
  (fpMul rad cs, fpMul rad sn)

/-- The Gumbel noise of word `w` (R148). -/
def gumbelOf (w : U32) : F32 := fpNegate (lnFn (fpNegate (lnFn (uniformOf w))))

end Sys2Proof.Machine
end

