-- ==== Sys2Proof/Machine/Sower.lean ====
section
/-! DEFINITION. The Sower (06_sower.md): the mixing function of R139, the counters of R142 and the draws read from
one output (R147 to R154). -/

namespace Sys2Proof.Machine

/-- The rotations ROT[0..9] (R140). -/
def sowRot (r : Nat) : Nat := [13, 7, 19, 3, 23, 11, 29, 5, 17, 9].getD r 0

/-- The four words of a counter or an output, x_0 the lowest. -/
structure SowWords where
  x0 : U32
  x1 : U32
  x2 : U32
  x3 : U32
  deriving DecidableEq, Repr, Inhabited

/-- One round of mix (R139, R140). -/
def sowRound (k0 k1 : U32) (r : Nat) (c : SowWords) : SowWords :=
  let ka := k0 + BitVec.ofNat 32 r * 0xA5F13C27#32
  let kb := k1 + BitVec.ofNat 32 r * 0x7B4D92E9#32
  let p := c.x0.toNat * 0xD3A56E4B
  let q := c.x2.toNat * 0xCB8F2A1D
  let lo (n : Nat) : U32 := BitVec.ofNat 32 n
  let hi (n : Nat) : U32 := BitVec.ofNat 32 (n / 2 ^ 32)
  ⟨hi q ^^^ c.x1 ^^^ ka, (lo q).rotateLeft (sowRot r), hi p ^^^ c.x3 ^^^ kb, (lo p).rotateLeft (sowRot r)⟩

/-- mix(K, C) on words (R139). -/
def sowMix (k0 k1 : U32) (c : SowWords) : SowWords :=
  (List.range 10).foldl (fun c r => sowRound k0 k1 r c) c

/-- mix with a 64-bit key and a counter given as a number. -/
def sowOut (key : U64) (ctr : Nat) : SowWords :=
  sowMix (key.setWidth 32) ((key >>> 32).setWidth 32)
    ⟨BitVec.ofNat 32 ctr, BitVec.ofNat 32 (ctr / 2 ^ 32), BitVec.ofNat 32 (ctr / 2 ^ 64), BitVec.ofNat 32 (ctr / 2 ^ 96)⟩

/-- The output O as one number, O[31:0] = x_0. -/
def sowNat (o : SowWords) : Nat :=
  o.x0.toNat + 2 ^ 32 * o.x1.toNat + 2 ^ 64 * o.x2.toNat + 2 ^ 96 * o.x3.toNat

/-- A counter from its fields (R142): domain, C[123:120], C[111:80], C[79:48], C[47:0]. -/
def sowCounter (domain sub a b pos : Nat) : Nat :=
  (domain % 16) * 2 ^ 124 + (sub % 16) * 2 ^ 120 + (a % 2 ^ 32) * 2 ^ 80 + (b % 2 ^ 32) * 2 ^ 48 + pos % 2 ^ 48

/-- The Gumbel noise of token id `v` at position `pos` of the stream named by `tag` (R142, R148). -/
def gumbelNoise (seed : U64) (tag pos : U32) (v : Nat) : F32 :=
  gumbelOf (sowOut seed (sowCounter 1 0 tag.toNat pos.toNat v)).x0

/-- The stochastic-rounding draw of element `index` of a tensor (R142, R144, R149). -/
def srDraw (seed : U64) (sub tensorId index : Nat) : Nat :=
  sowNat (sowOut seed (sowCounter 2 sub tensorId 0 (index / 8))) / 2 ^ (16 * (index % 8)) % 2 ^ 16

/-- The rotation sign bit of hidden index `j` (R150). -/
def rotSign (key : U64) (j : Nat) : Bool :=
  (sowNat (sowOut key (sowCounter 3 0 0 0 (j / 128)))).testBit (j % 128)

/-- The yes-or-no draw of R151. -/
def yesNo (p d : Nat) : Bool := decide (d < p)

/-- The output of SOW_FILL element `i` under distribution `dist` (R154). -/
def fillOut (seed : U64) (dist fillId i n : Nat) : SowWords := sowOut seed (sowCounter 4 dist fillId 0 (i / n))

/-- The FP32 value of a uniform or normal element (R154, DIST 0 and 1). -/
def fillValue (seed : U64) (dist fillId : Nat) (a b : F32) (i : Nat) : F32 :=
  let o := fillOut seed dist fillId i 4
  let w := if i % 4 = 0 then o.x0 else if i % 4 = 1 then o.x1 else if i % 4 = 2 then o.x2 else o.x3
  let n := if i % 4 < 2 then normalPair o.x0 o.x1 else normalPair o.x2 o.x3
  let v := if dist = 0 then uniformOf w else if i % 2 = 0 then n.1 else n.2
  fpAdd a (fpMul v b)

/-- The yes-or-no bit of element `i` (R154, DIST 2). -/
def fillBit (seed : U64) (fillId thresh i : Nat) : Bool :=
  yesNo thresh (sowNat (fillOut seed 2 fillId i 8) / 2 ^ (16 * (i % 8)) % 2 ^ 16)

/-- The bytes that a SOW_FILL of distribution DIST and format FMT writes for the `n` elements that start `m`
elements after ELEM_BASE (R154). For DIST 2 the run starts on a byte and `count` bounds the bits written as one. -/
def fillBytes (seed : U64) (dist fmt fillId thresh : Nat) (a b : F32) (base count m n : Nat) : List Byte :=
  if dist = 2 then
    (List.range ((n + 7) / 8)).map fun k =>
      BitVec.ofNat 8 ((List.range 8).foldl (fun acc t =>
        let e := m + 8 * k + t
        if e < count && fillBit seed fillId thresh (base + e) then acc + 2 ^ t else acc) 0)
  else
    ((List.range n).map fun k =>
      let i := base + m + k
      if dist = 3 then leBytes 16 (sowNat (fillOut seed 3 fillId i 1))
      else
        let x := fillValue seed dist fillId a b i
        if fmt = 1 then leBytes 2 (bf16Of x).toNat else leBytes 4 x.toNat).flatten

end Sys2Proof.Machine
end

