-- ==== Sys2Proof/Machine/Score.lean ====
section
/-! DEFINITION. The Winnower's scoring (08_scoring.md): the parameters of a strip (R200, R201, R231, R233), its
lists and hedge (R202, R211, R212), stages 1 to 4 (R198 to R215), the stubble ledger (R204 to R208), and the
canonical (M, Z) statistics (R223 to R225). -/

namespace Sys2Proof.Machine

/-- The fields of a strip record that scoring and selection read (R200, R231, R142). -/
structure StripParams where
  biasAddr : Nat
  biasCount : Nat
  penEn : Bool
  ledgerUpd : Bool
  repPos : F32
  repNeg : F32
  presPen : F32
  freqPen : F32
  hedgeMode : Nat
  hedgeAddr : Nat
  hedgeCount : Nat
  invTemp : F32
  topK : Nat
  minP : F32
  topP : F32
  altCount : Nat
  seed : U64
  sowTag : U32
  pos : U32
  deriving DecidableEq, Repr, Inhabited

/-- A ledger: (TOKEN, COUNT) pairs in ascending TOKEN order (R204). -/
abbrev Ledger := List (Nat × Nat)

/-- The lists that bind one token's scoring, staged before the compute phase (R216). -/
structure ScoreLists where
  bias : List (Nat × F32)
  ranges : List (Nat × Nat)
  ledger : Ledger
  deriving DecidableEq, Repr, Inhabited

/-- INV_TEMP selects greedy selection (R215). -/
def isGreedy (p : StripParams) : Bool := fpIsZero p.invTemp

/-- A strip in truncated sampling (R231). -/
def isTruncated (p : StripParams) : Bool :=
  !isGreedy p && (p.topK != 0 || !fpIsZero p.minP || p.topP != fpOne)

/-- Whether the strip's tokens need a sheaf (R232). -/
def needsSheaf (p : StripParams) : Bool := isTruncated p || p.altCount != 0

/-- The hedge alignment and count rule of R200 for a hedge mode. -/
def hedgeFieldOk (mode addr count : Nat) : Bool :=
  if mode = 0 then true
  else if mode ≤ 2 then addr % 128 == 0
  else addr % 8 == 0 && decide (1 ≤ count) && decide (count ≤ 512)

/-- The conditions of R201 with reason BAD_SCORE_PARAM all absent. -/
def scoreParamOk (p : StripParams) : Bool :=
  fpPosFinite p.repPos && fpPosFinite p.repNeg && fpFinite p.presPen && fpFinite p.freqPen
    && fpNonNegFinite p.invTemp && decide (p.hedgeMode ≤ 4) && decide (p.biasCount ≤ 256)
    && (p.biasCount == 0 || p.biasAddr % 8 == 0)
    && hedgeFieldOk p.hedgeMode p.hedgeAddr p.hedgeCount

/-- TOP_K, MIN_P, TOP_P and ALT_COUNT pass R233 (a MIN_P of -0 is +0, R488). -/
def selectParamOk (p : StripParams) : Bool :=
  decide (p.altCount ≤ 20) &&
    (isGreedy p ||
      (decide (p.topK ≤ 4096)
        && (fpIsZero p.minP || (fpPosFinite p.minP && fpLt p.minP fpOne))
        && (fpPosFinite p.topP && fpLe p.topP fpOne)))

/-- The sheaf capacity serves the strip (R233). -/
def sheafOk (p : StripParams) (ks : Nat) : Bool :=
  !(needsSheaf p && ks == 0) && !(!isGreedy p && decide (p.topK > ks)) && decide (p.altCount ≤ ks)

/-- The bias list of `n` entries from its bytes (R202); none when an entry breaks the rule. -/
def parseBias (b : List Byte) (n : Nat) : Option (List (Nat × F32)) :=
  let es := (List.range n).map fun i => (leNat b (8 * i) 4, le32 b (8 * i + 4))
  let asc := (List.range (n - 1)).all fun i => decide ((es.getD i default).1 < (es.getD (i + 1) default).1)
  if asc && es.all fun e => decide (e.1 < 2 ^ 20) && fpFinite e.2 then some es else none

/-- The range list of `n` entries from its bytes (R211); none when an entry breaks the rule. -/
def parseRanges (b : List Byte) (n : Nat) : Option (List (Nat × Nat)) :=
  let es := (List.range n).map fun i => (leNat b (8 * i) 4, leNat b (8 * i + 4) 4)
  let asc := (List.range (n - 1)).all fun i => decide ((es.getD i default).2 < (es.getD (i + 1) default).1)
  if asc && es.all fun e => decide (e.1 < 2 ^ 20) && decide (e.2 < 2 ^ 20) && decide (e.1 ≤ e.2) then some es else none

/-- A ledger of `n` pairs from its bytes: TOKEN in bits [19:0], COUNT in bits [31:20] (R58); none unless the TOKENs
are strictly ascending (R204). -/
def parseLedger (b : List Byte) (n : Nat) : Option Ledger :=
  let es := (List.range n).map fun i => let w := leNat b (4 * i) 4; (w % 2 ^ 20, w / 2 ^ 20)
  let asc := (List.range (n - 1)).all fun i => decide ((es.getD i default).1 < (es.getD (i + 1) default).1)
  if asc then some es else none

/-- The bytes of a ledger (R58). -/
def ledgerBytes (l : Ledger) : List Byte := (l.map fun p => leBytes 4 (p.1 + p.2 * 2 ^ 20)).flatten

/-- COUNT of `v`, 0 when no pair names it (R205). -/
def ledgerCount (l : Ledger) (v : Nat) : Nat := ((l.find? fun p => p.1 == v).map Prod.snd).getD 0

/-- What a ledger update reports (R208, R59). -/
structure LedgerFlags where
  sat : Bool
  wrap : Bool
  full : Bool
  deriving DecidableEq, Repr, Inhabited

/-- Inserts (v, 1) at its ordered place. -/
def ledgerInsert (v : Nat) : Ledger → Ledger
  | [] => [(v, 1)]
  | (a, c) :: t => if v < a then (v, 1) :: (a, c) :: t else (a, c) :: ledgerInsert v t

/-- The ledger update of R208 for committed token `v` under INT_MODE. -/
def ledgerAdd (intMode : Nat) (l : Ledger) (v : Nat) : Ledger × LedgerFlags :=
  if l.any fun p => p.1 == v then
    let c := ledgerCount l v
    let c' := if c < 4095 then c + 1 else if intMode = 0 then 4095 else 0
    (l.map fun p => if p.1 = v then (v, c') else p,
      ⟨decide (c = 4095) && intMode == 0, decide (c = 4095) && intMode != 0, false⟩)
  else if l.length < 2048 then (ledgerInsert v l, ⟨false, false, false⟩)
  else (l, ⟨false, false, true⟩)

/-- R212 for one row: `slice` is the 128-byte bitmap slice of the row's swath. -/
def hedgeAllows (mode : Nat) (ranges : List (Nat × Nat)) (slice : List Byte) (v : Nat) : Bool :=
  let bit := (byteAt slice (v % 1024 / 8)).getLsbD (v % 8)
  let inRange := ranges.any fun r => decide (r.1 ≤ v) && decide (v ≤ r.2)
  if mode = 0 then true
  else if mode = 1 then bit
  else if mode = 2 then !bit
  else if mode = 3 then inRange
  else !inRange

/-- Stage 2 for ledger count c > 0 (R205), and whether any of its roundings saturated (R199). -/
def stagePenalty (p : StripParams) (c : Nat) (x : F32) : Rounded :=
  let a := fpMulX x (if fpLt fpZero x then p.repPos else p.repNeg)
  let f := fpMulX p.freqPen (fpOfNat c)
  let t := fpAddX p.presPen f.bits
  let r := fpSubX a.bits t.bits
  ⟨fpPlusZero r.bits, a.sat || f.sat || t.sat || r.sat⟩

/-- Stages 1, 2 and 4 for the row of vocabulary id `v` (R198, R203, R205, R215): the scored logit and the number of
stages that saturated (R199). -/
def scoreRow (p : StripParams) (l : ScoreLists) (v : Nat) (x : F32) : F32 × Nat :=
  let x := fpPlusZero x
  let s1 : Rounded := match l.bias.find? fun e => e.1 == v with
    | some e => let r := fpAddX x e.2; ⟨fpPlusZero r.bits, r.sat⟩
    | none => ⟨x, false⟩
  let c := if p.penEn then ledgerCount l.ledger v else 0
  let s2 : Rounded := if c = 0 then ⟨s1.bits, false⟩ else stagePenalty p c s1.bits
  let s4 : Rounded := if isGreedy p then ⟨s2.bits, false⟩
    else let r := fpMulX s2.bits p.invTemp; ⟨fpPlusZero r.bits, r.sat⟩
  (s4.bits, (if s1.sat then 1 else 0) + (if s2.sat then 1 else 0) + (if s4.sat then 1 else 0))

/-- A canonical pair (m, z) (R223). -/
structure MZ where
  m : F32
  z : F32
  deriving DecidableEq, Repr, Inhabited

/-- merge of R224 for two non-empty pairs. -/
def mzMerge (a b : MZ) : MZ :=
  let m := if fpLe b.m a.m then a.m else b.m
  ⟨m, fpAdd (fpMul a.z (expFn (fpSub a.m m))) (fpMul b.z (expFn (fpSub b.m m)))⟩

/-- The swath pair of the valid rows (row, scored logit), ascending (R223); none when EMPTY. -/
def swathPair (xs : List (Nat × F32)) : Option MZ :=
  match xs with
  | [] => none
  | (_, x) :: t =>
    let m := t.foldl (fun m p => if fpLt m p.2 then p.2 else m) x
    (treeOf fpAdd (xs.map fun p => (p.1, expFn (fpSub p.2 m)))).map fun z => ⟨m, z⟩

end Sys2Proof.Machine
end

