-- ==== Sys2Proof/Machine/Select.lean ====
section
/-! DEFINITION. Selection (09_selection_and_sampling.md): the order of candidates (R230), greedy and Gumbel-max
selection (R234, R235), the Thresher (R237 to R239), truncation (R241), alternatives (R243), and the running result
of one token, which the Winnower fills swath by swath (R225). -/

namespace Sys2Proof.Machine

/-- A candidate: value and token id. -/
abbrev Cand := F32 × Nat

/-- The order of R230. -/
def candBetter (a b : Cand) : Bool := fpLt b.1 a.1 || (fpEq a.1 b.1 && decide (a.2 < b.2))

/-- The better of two optional candidates. -/
def candBest (a b : Option Cand) : Option Cand :=
  match a, b with
  | none, b => b
  | a, none => a
  | some x, some y => if candBetter y x then some y else some x

/-- Inserts a candidate into a best-first list. -/
def candInsert (c : Cand) : List Cand → List Cand
  | [] => [c]
  | d :: t => if candBetter c d then c :: d :: t else d :: candInsert c t

/-- A list of candidates, best first. -/
def candSort (l : List Cand) : List Cand := l.foldl (fun acc c => candInsert c acc) []

/-- A token's Thresher: its buffer, threshold and OVER (R238). -/
structure Thresher where
  buf : List Cand
  thr : Option Cand
  overK : Bool
  deriving DecidableEq, Repr, Inhabited

/-- The Thresher before the first row. -/
def thresherZero : Thresher := ⟨[], none, false⟩

/-- One valid row through the Thresher of capacity `ks` (R238). -/
def thresherPush (ks : Nat) (t : Thresher) (c : Cand) : Thresher :=
  if (t.thr.map fun h => candBetter h c).getD false then { t with overK := true }
  else
    let buf := c :: t.buf
    if buf.length = 2 * ks then
      let kept := (candSort buf).take ks
      ⟨kept, kept.getLast?, true⟩
    else { t with buf := buf }

/-- The sheaf, best first, and OVER after the tail (R238, R239). -/
def thresherFinish (ks : Nat) (t : Thresher) : List Cand × Bool :=
  ((candSort t.buf).take ks, t.overK || decide (t.buf.length > ks))

/-- What the Winnower has gathered of one token. -/
structure TokAcc where
  pairs : List (Nat × MZ)
  greedy : Option Cand
  noisy : Option (Cand × F32)
  sheaf : Thresher
  valid : Nat
  satCount : Nat
  narrow : Bool
  stoneOff : Bool
  target : Option F32
  stats : MvStack
  deriving DecidableEq, Repr, Inhabited

/-- A token before its first swath. -/
def tokAccZero : TokAcc := ⟨[], none, none, thresherZero, 0, 0, false, false, none, []⟩

/-- The better of a running noisy winner, kept with its scored logit, and a new row (R235). -/
def noisyBest (b : Option (Cand × F32)) (c : Cand × F32) : Option (Cand × F32) :=
  match b with
  | none => some c
  | some d => if candBetter c.1 d.1 then some c else some d

/-- Feeds the valid scored rows of swath `w` of one token, (row, scored logit) ascending. `noise` gives G_v for a
strip in plain sampling; `ks` is 0 when the token needs no sheaf (R223, R225, R234, R235, R238). -/
def tokFeed (w ks : Nat) (noise : Option (Nat → F32)) (rows : List (Nat × F32)) (a : TokAcc) : TokAcc :=
  let ids := rows.map fun r => (1024 * w + r.1, r.2)
  { a with
    pairs := match swathPair rows with
      | none => a.pairs
      | some p => treePush mzMerge a.pairs w p
    greedy := ids.foldl (fun b r => candBest b (some (r.2, r.1))) a.greedy
    noisy := match noise with
      | none => a.noisy
      | some g => ids.foldl (fun b r => noisyBest b ((fpAdd r.2 (g r.1), r.1), r.2)) a.noisy
    sheaf := if ks = 0 then a.sheaf else ids.foldl (fun t r => thresherPush ks t (r.2, r.1)) a.sheaf
    valid := a.valid + rows.length }

/-- The root pair of a token (R224). -/
def tokRoot (a : TokAcc) : Option MZ := treeRoot mzMerge a.pairs

/-- LP(v) of R226 for a scored logit. -/
def logProb (r : MZ) (lnz x : F32) : F32 := fpSub (fpSub x r.m) lnz

/-- The selection fields of a result record (R244). -/
structure Selection where
  token : Nat
  logprob : F32
  alts : List (Nat × F32)
  survivors : Nat
  trunc : Bool
  deriving DecidableEq, Repr, Inhabited

/-- The top-p prefix of R241: the kept list and whether the sum reached TOP_P. -/
def topPrefix (r : MZ) (rz topP : F32) : F32 → List Cand → List Cand × Bool
  | _, [] => ([], false)
  | c, x :: t =>
    let c := fpAdd c (fpMul (expFn (fpSub x.1 r.m)) rz)
    if fpLe topP c then ([x], true)
    else let (l, b) := topPrefix r rz topP c t; (x :: l, b)

/-- The survivor list S and NUCLEUS_TRUNC of R241 over a sheaf, best first. -/
def survivors (p : StripParams) (r : MZ) (sheaf : List Cand) (overK : Bool) : List Cand × Bool :=
  let rz := fpDiv fpOne r.z
  let k1 := if p.topK = 0 then sheaf.length else min p.topK sheaf.length
  let s := (sheaf.take k1).filter fun x => fpIsZero p.minP || fpLe p.minP (expFn (fpSub x.1 r.m))
  let (s, reached) := if p.topP = fpOne then (s, false) else topPrefix r rz p.topP fpZero s
  let last := match sheaf.getLast? with
    | none => false
    | some c => s.contains c
  (s, overK && p.topK == 0 && last && !reached)

/-- Selection of one token from its root, winners and sheaf (R234, R235, R241, R243). `noise` is G_v;
the plain-sampling winner comes with its scored logit. -/
def selectToken (p : StripParams) (noise : Nat → F32) (r : MZ) (greedy : Option Cand) (noisy : Option (Cand × F32))
    (sheaf : List Cand) (overK : Bool) : Selection :=
  let lnz := lnFn r.z
  let alts := (sheaf.take (min p.altCount sheaf.length)).map fun c => (c.2, logProb r lnz c.1)
  if isGreedy p then
    let c := greedy.getD (r.m, 0)
    ⟨c.2, logProb r lnz c.1, alts, 0, false⟩
  else if isTruncated p then
    let (s, tr) := survivors p r sheaf overK
    let b := (s.foldl (fun b c => noisyBest b ((fpAdd c.1 (noise c.2), c.2), c.1)) none).getD ((r.m, 0), r.m)
    ⟨b.1.2, logProb r lnz b.2, alts, s.length, tr⟩
  else
    let c := noisy.getD ((r.m, 0), r.m)
    ⟨c.1.2, logProb r lnz c.2, alts, 0, false⟩

end Sys2Proof.Machine
end

