-- ==== Sys2Proof/Machine/Tree.lean ====
section
/-! DEFINITION. Draft trees (10_tree_verification.md): descriptors (R264, R267), node tables (R265, R268), the path of a
node (R206, R269) and the sample-then-match walk (R270, R271). -/

namespace Sys2Proof.Machine

/-- A tree descriptor (R264). -/
structure TreeDesc where
  strip : Nat
  nodes : Nat
  resv : Bool
  nodeAddr : Nat
  vrecAddr : Nat
  deriving DecidableEq, Repr, Inhabited

/-- Descriptor `i` of a table (R264); `resv` says that a reserved field is non-zero. -/
def parseDesc (b : List Byte) (i : Nat) : TreeDesc :=
  let o := 32 * i
  let s := leNat b o 2
  ⟨s % 4096, leNat b (o + 2) 2, s / 4096 != 0 || !zeroRange b (o + 4) 4 || !zeroRange b (o + 24) 8,
    leNat b (o + 8) 8, leNat b (o + 16) 8⟩

/-- A list of numbers without repeats. -/
def distinct : List Nat → Bool
  | [] => true
  | a :: t => !t.contains a && distinct t

/-- The conditions of R267 on a descriptor table all absent. -/
def treeTableOk (strips : Nat) (ds : List TreeDesc) : Bool :=
  decide (1 ≤ ds.length) && decide (ds.length ≤ strips)
    && ds.all (fun d => decide (1 ≤ d.nodes) && decide (d.nodes ≤ 256) && !d.resv
        && d.nodeAddr % 16 == 0 && d.vrecAddr % 512 == 0)
    && decide ((ds.map TreeDesc.nodes).sum ≤ 65536)
    && distinct (ds.map TreeDesc.strip)

/-- A node entry (R265). -/
structure Node where
  token : Nat
  parent : Nat
  resv : Nat
  hedgeCount : Nat
  hedgeAddr : Nat
  deriving DecidableEq, Repr, Inhabited

/-- The nodes of a table of `n` entries (R265). -/
def parseNodes (b : List Byte) (n : Nat) : List Node :=
  (List.range n).map fun i =>
    let o := 16 * i
    ⟨leNat b o 4, leNat b (o + 4) 1, leNat b (o + 5) 1, leNat b (o + 6) 2, leNat b (o + 8) 8⟩

/-- Node `i`. -/
def nodeAt (ns : List Node) (i : Nat) : Node := ns.getD i default

/-- The path from the root to node `n`, the root left out, deepest last. `fuel` bounds its length. -/
def nodePath (ns : List Node) : Nat → Nat → List Nat
  | 0, _ => []
  | fuel + 1, n => if n = 0 then [] else nodePath ns fuel (nodeAt ns n).parent ++ [n]

/-- The depth of node `n` (R265). -/
def nodeDepth (ns : List Node) (n : Nat) : Nat := (nodePath ns ns.length n).length

/-- The number of levels of a tree (R265). -/
def treeLevels (ns : List Node) : Nat := (List.range ns.length).foldl (fun m i => max m (nodeDepth ns i)) 0 + 1

/-- The conditions of R268 that the node table alone decides, for vocabulary V and the strip's HEDGE_MODE. -/
def nodesOk (v hedgeMode : Nat) (ns : List Node) : Bool :=
  (List.range ns.length).all fun n =>
    let e := nodeAt ns n
    (if n = 0 then e.token == 0 && e.parent == 0 else decide (e.parent < n))
      && decide (nodeDepth ns n ≤ 31) && decide (e.token < v) && decide (e.token < 2 ^ 20) && e.resv == 0
      && (e.hedgeAddr == 0 || hedgeFieldOk hedgeMode e.hedgeAddr e.hedgeCount)
      && (List.range n).all fun m =>
        m == 0 || n == 0 || !((nodeAt ns m).parent == e.parent && (nodeAt ns m).token == e.token)

/-- The child of node `n` that carries token `t` (R270). -/
def childWith (ns : List Node) (n t : Nat) : Option Nat :=
  (List.range ns.length).find? fun i => i != 0 && (nodeAt ns i).parent == n && (nodeAt ns i).token == t

/-- What the walk of R270 gives: node indices, tokens and log-probabilities of the path, ACCEPTED, the two flags. -/
structure Walk where
  path : List Nat
  tokens : List Nat
  lps : List F32
  accepted : Nat
  hedgeStop : Bool
  budgetCap : Bool
  deriving DecidableEq, Repr, Inhabited

/-- The walk of R270 from node `n`; `sel i` is node i's sampled token and its LP, none when no row of it is valid.
`capped` says that the emission cap comes from a tenant's budget (R271). `fuel` bounds the number of levels. -/
def walkFrom (ns : List Node) (sel : Nat → Option (Nat × F32)) (cap : Nat) (capped : Bool) : Nat → Nat → Walk → Walk
  | 0, _, w => w
  | fuel + 1, n, w =>
    match sel n with
    | none => { w with hedgeStop := !w.path.isEmpty }
    | some (t, lp) =>
      let w := { w with path := w.path ++ [n], tokens := w.tokens ++ [t], lps := w.lps ++ [lp] }
      match childWith ns n t with
      | none => w
      | some c =>
        if w.path.length = cap then { w with budgetCap := capped }
        else walkFrom ns sel cap capped fuel c { w with accepted := w.accepted + 1 }

/-- The walk from the root. -/
def walkTree (ns : List Node) (sel : Nat → Option (Nat × F32)) (cap : Nat) (capped : Bool) : Walk :=
  walkFrom ns sel cap capped (ns.length + 1) 0 ⟨[], [], [], 0, false, false⟩

/-- The verification record of R274. -/
def vrecBytes (w : Walk) (scaleShift : Bool) (pos : U32) : List Byte :=
  let flags := (if w.hedgeStop then 1 else 0) + (if w.budgetCap then 2 else 0) + (if scaleShift then 4 else 0)
  let keep := (List.range 32).map fun k => BitVec.ofNat 8
    ((List.range 8).foldl (fun a t => let n := 8 * k + t; if n != 0 && w.path.contains n then a + 2 ^ t else a) 0)
  leBytes 1 w.accepted ++ leBytes 1 w.path.length ++ leBytes 1 flags ++ [0]
    ++ leBytes 4 pos.toNat ++ zeros 8 ++ keep
    ++ padTo 32 (w.path.map fun n => BitVec.ofNat 8 n)
    ++ padTo 128 (w.tokens.map (leBytes 4)).flatten
    ++ padTo 128 (w.lps.map fun x => leBytes 4 x.toNat).flatten
    ++ zeros 176

end Sys2Proof.Machine
end

