-- ==== Sys2Proof/Machine/State.lean ====
section
/-! DEFINITION. The state of Elzan 3.2 as plain data, the reasons a step can stop, and the state while rst_n is low
(14_ports.md R369; 18_register_map.md R467). A table field's unlisted entries hold the reset element named beside it.
Fields marked MODEL are the model's own bookkeeping of a step in progress. -/

namespace Sys2Proof.Machine

/-- The reasons a step stops with a fault. No meaning of this block raises one: every access to memory goes through
a stack port, whose memory side answers with a response code (R373). -/
inductive Fault where
  /-- Raised by nothing; safe. -/
  | unreachable
  deriving DecidableEq, Repr, Inhabited

/-- The reasons a step is refused. -/
inductive Refusal where
  /-- A command whose meaning is not written; raised by its arm of `exec` only; safe. -/
  | notModelled (mnemonic : String)
  deriving DecidableEq, Repr

/-! ### Boot and pins -/

/-- The boot sequencer and its registers (17_startup.md R452, R465). -/
structure Boot where
  /-- STAGE, 1 to 8. -/
  stage : Nat
  ready : Bool
  failed : Bool
  failCode : Nat
  failDetail : Nat
  /-- A GO has been written (R454). -/
  go : Bool
  paramAddr : U64
  fwAddr : U64
  fwLen : U32
  bist : U32
  /-- The firmware image has been accepted; stage 7 waits for fn_rst_n[4] (R462). -/
  fwRead : Bool
  deriving DecidableEq, Repr, Inhabited

/-- The levels at the pins that a later step reads (14_ports.md signal tables). Reset inputs hold `true` while low. -/
structure Pins where
  rstLow : Bool
  fnLow : BitVec 10
  barrierIn : Bool
  barrierOut : Bool
  /-- sag_n[2:0] as recognised (R400). -/
  sagN : BitVec 3
  pfailLow : Bool
  mvrLow : U16
  /-- stk_k_rst_n while low, and the levels of stk_k_drained (R370, R382). -/
  stkLow : BitVec 24
  drained : BitVec 24
  /-- The wrapper's instruction register (R403). -/
  wrapper : WrapperIns
  deriving DecidableEq, Repr, Inhabited

/-- The sag level of sag_n: the largest i for which sag_n[i - 1] is low, 0 when no bit is low (R400). -/
def sagLevelOf (n : BitVec 3) : SagLevel :=
  if !n.getLsbD 2 then 3 else if !n.getLsbD 1 then 2 else if !n.getLsbD 0 then 1 else 0

/-- WS_SAFE: every output holds its reset value (R403). -/
def Pins.outputsOff (p : Pins) : Bool := p.wrapper == .safe

/-- The sag level at the pins. -/
def Pins.sag (p : Pins) : SagLevel := sagLevelOf p.sagN

/-- The states of the IEEE 1149.1 controller (R402). -/
inductive TapState where
  | reset | idle
  | selectDr | captureDr | shiftDr | exit1Dr | pauseDr | exit2Dr | updateDr
  | selectIr | captureIr | shiftIr | exit1Ir | pauseIr | exit2Ir | updateIr
  deriving DecidableEq, Repr, Inhabited

/-- The TAP (R402): its controller, its instruction register, the bits of the register being shifted, the next to leave
first, and tdo. -/
structure Tap where
  state : TapState
  ir : Byte
  shift : List Bool
  tdo : Bool
  deriving DecidableEq, Repr, Inhabited

/-- A TAP after its reset: BYPASS (log 81). -/
def tapReset : Tap := ⟨.reset, 0xFF, [], false⟩

/-- The outputs of the last APB transfer (R387). -/
structure Apb where
  prdata : U32
  pready : Bool
  pslverr : Bool
  deriving DecidableEq, Repr, Inhabited

/-! ### Stack ports and movers -/

/-- The traffic of a mover (R379, R383). -/
inductive Traffic where
  | fetch | cpl | hidden | fuse | bias | ranges | bitmap | result | vrec | loss | stats | logits | dh | dzWrite | dzRead
  | dwWrite | dwRead | gRead | gWrite | stage | loadSrc | updRead | updWrite | fill | ctxWrite | ctxRead | firmware
  | coef | desc | nodes | targets | stripList | stripRead | stripWrite | pfail | param | bootFw | probe
  deriving DecidableEq, Repr, Inhabited

/-- A range of bytes that a mover reads or writes (R483): `data` is empty for a read; `ring`, `seq` and `idx` name the
command and the unit the range serves; `tries` counts the DATA_ERR answers so far (R379). -/
structure Range where
  mover : Nat
  write : Bool
  addr : Nat
  len : Nat
  data : List Byte
  ring : Nat
  seq : U32
  kind : Traffic
  idx : Nat
  tries : Nat
  deriving DecidableEq, Repr, Inhabited

/-- A transfer outstanding on a port (R371, R373). -/
structure Xfer where
  port : Nat
  tag : Nat
  /-- 0 read, 1 write, 2 add-write. -/
  op : Nat
  /-- The transfer's 64-byte aligned address and its length (R371). -/
  start : Nat
  size : Nat
  beats : Nat
  seen : Nat
  code : RspCode
  range : Range
  issued : Time
  deriving DecidableEq, Repr, Inhabited

/-- One stack port (R374, R382, R404); reset element `portReset`. -/
structure Port where
  up : Bool
  oos : Bool
  protoErr : Bool
  rspErr : Bool
  reqCrd : Nat
  wdCrd : Nat
  /-- Beats of the write in progress that still wait for a write-data credit (R373). -/
  wdOwed : Nat
  errValid : Bool
  errCode : Nat
  errOp : Nat
  errMover : Nat
  protoCause : Nat
  errAddr : U64
  timeoutUs : U16
  errCount : U32
  /-- The mover lottery's shift register and losses (R384). -/
  lot : U32
  losses : Tbl Nat
  /-- The mover that holds the grant and the transfers it has issued under it (R384). -/
  grant : Option (Nat × Nat)
  deriving DecidableEq, Repr, Inhabited

/-- A port after rst_n. -/
def portReset : Port :=
  ⟨false, false, false, false, 0, 0, 0, false, 0, 0, 0, 0, 0, 0x03E8, 0, 1, [], none⟩

/-- The reset value of port k's shift register for seed `v` (R384). -/
def portLot (v : U32) (k : Nat) : U32 :=
  let l := v ^^^ BitVec.ofNat 32 (k * 0x01010101)
  if l = 0 then 1 else l

/-- A lottery's tickets: live word and shadow word in the layout of ARB_RING_TKT_n (R335, R404), and the loss count of
the ring lottery (R328). -/
structure Tickets where
  live : U32
  shadow : U32
  losses : Nat
  deriving DecidableEq, Repr, Inhabited

/-- Tickets after rst_n (R335, R404). -/
def ticketsReset : Tickets := ⟨0x10000101, 0x10000101, 0⟩

/-- The ring arbiter (R328, R335). -/
structure RingArb where
  l : U32
  seed : U32
  starveDraws : U16
  pending : Bool
  starve : BitVec 64
  tickets : Tbl Tickets
  /-- The granted ring and the packets it has been served under the grant (R330). -/
  grant : Option (Nat × Nat)
  /-- MODEL: of the granted ring's next packet nothing (0), the header slot (1) or the whole packet (2) has been asked
  for. -/
  fetching : Nat
  /-- TIME_NS at which the fetch hold began (R331), and the read beats that the fetch has brought (R406). -/
  since : Time
  beats : Nat
  /-- HEAD at which the fetch began, and whether a doorbell with EN = 0 has moved HEAD since (R306, R312). -/
  fetchSeq : U32
  moved : Bool
  deriving DecidableEq, Repr, Inhabited

/-- The mover arbiter (R384, R404). -/
structure MvrArb where
  seed : U32
  starveDraws : U16
  pending : Bool
  starve : U16
  tickets : Tbl Tickets
  deriving DecidableEq, Repr, Inhabited

/-- A steering entry (R378, R404); reset element `steerReset`. -/
structure Steer where
  base : U64
  en : Bool
  log2Size : Nat
  log2Il : Nat
  first : Nat
  count : Nat
  deriving DecidableEq, Repr, Inhabited

/-- A steering entry after rst_n: 0x0C0C_0001. -/
def steerReset : Steer := ⟨0, false, 12, 12, 0, 1⟩

/-- The probe (R385, R404). -/
structure PortProbe where
  addr : U64
  data : U64
  code : Nat
  op : Nat
  port : Nat
  busy : Bool
  /-- The transfer is on its way; while BUSY and not issued it waits for a free request cycle. -/
  issued : Bool
  /-- It is reissued by R378 (R379, R382), and the DATA_ERR answers so far. -/
  steered : Bool
  tries : Nat
  deriving DecidableEq, Repr, Inhabited

/-! ### Rings and commands -/

/-- A command ring and its completion ring (R305 to R309, R334); reset element `ringReset`. -/
structure Ring where
  base : U64
  en : Bool
  maxInflight : Nat
  irqLine : Nat
  log2Slots : Nat
  tail : U32
  head : U32
  stopped : Bool
  cause : Nat
  cfgIgnored : Bool
  waitTimeout : U16
  holdLimit : U16
  cplBase : U64
  log2Entries : Nat
  cplTail : U32
  cplHead : U32
  /-- The packet fetch at HEAD failed and waits for its retry (R379). -/
  fetchFailed : Bool
  /-- A completion record is being written; it failed and waits for its retry (R379). -/
  cplBusy : Bool
  cplFailed : Bool
  /-- LEN of the packet at HEAD where its header has been read and its slots do not all lie before TAIL yet (R307); 0
  where unknown. -/
  needSlots : Nat
  deriving DecidableEq, Repr, Inhabited

/-- A ring after rst_n. -/
def ringReset : Ring :=
  ⟨0, false, 8, 0, 6, 0, 0, false, 0, false, 0, 0x0064, 0, 4, 0, 0, false, false, false, 0⟩

/-- Reason codes (R340). -/
inductive Reason where
  | ok | badOpcode | badLength | reservedNonzero | badAddr | gateTimeout | cutOff | abortedReset | badGateOp
  | fieldEmpty | fieldDamaged | fieldStreamed | fieldInUse | badShape | badSource | badScale | badImage
  | granaryFull | granaryFragmented | granaryOos | granaryUe | barnTooSmall
  | badFold | badFuse | badCount | badSheaf | badTree | badShard | shardUnsupported | shardFailed | noStep
  | badStripParam | badTarget | badLossScale | badGradMode | badSkip | badHyper | badResume | badDist
  | stripEmpty | badStrip | badStripRecord | badLedger | badMode
  | noContext | saved | ctxTooSmall | badContext | restoreGeometry | badEnergy | badFwSig | fwTooLarge | noStandby
  | fwVersion
  deriving DecidableEq, Repr, Inhabited

/-- Where a fetched packet stands in its life (R312 to R319). -/
inductive Stage where
  /-- In its ring's wait stage (step 4). -/
  | waiting
  /-- In its dispatch hold, having begun the given part of it (step 5). -/
  | hold (part : Nat)
  /-- Dispatched, not begun (step 6). -/
  | queued
  /-- In its compute phase or its work (step 7). -/
  | running
  /-- Its commit has begun (step 8). -/
  | committing
  /-- Ended; its record waits or is being written (step 9). -/
  | finished
  deriving DecidableEq, Repr, Inhabited

/-- The counts of a compute command's completion body (R80, R136, R351). -/
structure Counts where
  scaleCap : Nat
  satElems : Nat
  uflElems : Nat
  nonfinite : Nat
  satTiles : Nat
  narrowTiles : Nat
  satFirst : Option Nat
  stones : Nat
  stoneDrop : Nat
  gleanTiles : Nat
  fp8Tiles : Nat
  gleanCycles : Nat
  shedTiles : Nat
  boundExceeded : Bool
  narrowMismatch : Bool
  deriving DecidableEq, Repr, Inhabited

/-- One strip-step of a command (R284, R285, R296). -/
structure StripStep where
  strip : Nat
  idx : Nat
  /-- The reason it took, 0 while it stands. -/
  reason : Nat
  /-- The strip record as it stood at T_CHECK. -/
  params : StripParams
  lists : ScoreLists
  tenant : Nat
  hostTag : U64
  /-- Tokens reserved, and whether the tenant had EN = 1 at T_CHECK (R288, R290). -/
  reserved : Nat
  counted : Bool
  cap : Nat
  deadline : Time
  /-- RFLAGS gathered so far (R298). -/
  flags : U32
  sel : Option Selection
  walk : Walk
  amax : F32
  time : Time
  emitted : Nat
  /-- The record's writes have been asked for; all have been answered; one failed; steps 3 to 6 have been applied. -/
  asked : Bool
  failedWrite : Bool
  committed : Bool
  /-- The tree's nodes and each node's own lists (R265, R269). -/
  nodes : List Node
  nodeLists : List ScoreLists
  record : List Byte
  vrec : List Byte
  deriving DecidableEq, Repr, Inhabited

/-- One column pass in the Seedbed (R118): the converted operands of its tokens and its stone list. -/
structure SeedBuf where
  owner : Option (Nat × U32 × Nat)
  complete : Bool
  /-- The hidden-blocked copy, one operand a token, and the token-blocked copy, one operand a hidden index. -/
  hid : List Opd
  tok : List Opd
  stones : List Stone
  deriving DecidableEq, Repr, Inhabited

/-- An empty Seedbed buffer. -/
def seedReset : SeedBuf := ⟨none, false, [], [], []⟩

/-- The dZ of one swath of a pass in a dZ swath buffer (R166, R171, R178): its swath, the token-blocked copies, E2M1 and
FP8, one operand a row, and NZ, SAT and SPAN of its dW unit. -/
structure DzSwath where
  swath : Nat
  tok : List Opd
  tok8 : List Opd
  nz : Nat
  sat : Nat
  span : Nat
  deriving DecidableEq, Repr, Inhabited

/-- What a TRAIN_STEP keeps (07_training_passes.md). -/
structure Train where
  /-- Target id and IGNORE of every token (R163). -/
  targets : List (Nat × Bool)
  /-- The tensor table entry before the command, and the maximum gathered so far (R160, R437). -/
  amaxBefore : F32
  amaxGathered : F32
  /-- m and z of the tokens of the pass in progress (R165). -/
  mz : List MZ
  /-- loss and lse of the tokens of finished phase A (R167). -/
  losses : List (F32 × F32)
  /-- The dZ swath buffers: the swath whose dW tiles run and the swath drained last (R158, R171). -/
  dz : List DzSwath
  /-- The vocabulary-blocked dZ of the pass, E2M1 and FP8, one operand a token (R168). -/
  dzVoc : List Opd
  dzVoc8 : List Opd
  /-- NZ, SAT and SPAN of the dH unit (R178). -/
  dhUnit : Nat × Nat × Nat
  /-- The dW stage: chains of the 1,024 rows, keyed by swath position × 32,768 + h (R171, R172). -/
  dw : Tbl (List Chain)
  dzSat : Nat
  dzUfl : Nat
  fp8Dh : Nat
  dhValid : Nat
  gDone : Nat
  /-- The first swath whose G transfer failed (R176). -/
  gBad : Option Nat
  /-- Swaths whose G writes have been asked for, and whether the read that comes before the next one has been (R174). -/
  gAsked : Nat
  gReading : Bool
  /-- Swath, index and SAT flag of the last dW tile of each swath (R80). -/
  dwLast : List (Nat × Nat × Bool)
  /-- dH outputs of the pass by token, for DH_SQSUM, and its tree (R192). -/
  dhRows : List (List F32)
  dhSq : SqStack
  lossStats : MvStack
  logitStats : MvStack
  logitMax : F32
  /-- Sharded exchange of the pass: own round sent, peers complete (R262). -/
  exchanged : Bool
  deriving DecidableEq, Repr, Inhabited

/-- What a LOAD_HEAD, UPDATE or SOW_FILL keeps. -/
structure Fill where
  /-- Units done: swath records, block rows or elements; and units whose writes were asked for. -/
  done : Nat
  asked : Nat
  /-- The maximum gathered, the M in use and whether the gathering read is over (R42). -/
  amax : F32
  m : F32
  gathered : Bool
  gradSq : SqStack
  updSq : SqStack
  wSq : SqStack
  factor : F32
  gradSqsum : F32
  /-- The maximum of w' over the block row whose writes are open. -/
  rowMax : F32
  base : Nat
  units : Nat
  deriving DecidableEq, Repr, Inhabited

/-- A merge or exchange of shards (R250, R262). -/
structure Merge where
  active : Bool
  /-- The sharded command merged. -/
  tgtRing : Nat
  tgtSeq : U32
  /-- TIME_NS of step 1 of R250; and where the exchange stands: 0 not begun, 1 waiting to send round 1 (R419), 2 round 1
  sent, 3 round 2 sent. -/
  start : Time
  round : Nat
  /-- Records accepted: (SRC, round, SEQ, LAST, bytes). -/
  got : List (Nat × Nat × Nat × Bool × List Byte)
  sent1 : Nat
  sent2 : Nat
  recv1 : Nat
  recv2 : Nat
  aborted : Bool
  done : Bool
  /-- The body of the merge's record, once the step has ended (R360). -/
  mbody : List (Nat × Nat × Nat)
  /-- The reason codes of the tokens of a sharded HEAD_FWD, once its merge or the command itself has ended (R254). -/
  codes : List Nat
  deriving DecidableEq, Repr, Inhabited

/-- What a compute command keeps from dispatch to its record. -/
structure Work where
  /-- Column elements, S of R486, and the field as it stood at the start. -/
  tokens : Nat
  s : Nat
  /-- F, C_eff and ROW_HALF of the compute phase (R486). -/
  f : Nat
  cEff : Nat
  rowHalf : Nat
  descs : List TreeDesc
  descOk : Bool
  /-- The strips that the command names, in command order, and whether they are known yet (R197, R487). -/
  strips : List Nat
  stripsKnown : Bool
  /-- Every earlier command that names its strips has committed: lists may be staged (R197); the passes whose bias and range
  lists have been asked for, and the swath, in command swath order, whose bitmap slices are asked for next (R216). -/
  listsAsked : Bool
  biasNext : Nat
  rangeNext : Nat
  sliceNext : Nat
  frame : Option (List Byte)
  /-- The frame of a stream-sourced command has been taken or is to be discarded (R490). -/
  frameDone : Bool
  /-- The pass at which a frame of several passes is found malformed (R390). -/
  frameBad : Option Nat
  /-- The next pass to convert, and the first token whose hidden state is not converted. -/
  convNext : Nat
  converting : Bool
  amaxTok : List F32
  dropTok : List Nat
  counts : Counts
  begun : Bool
  ended : Bool
  tCheck : Time
  pass : Nat
  /-- 0 forward; 1, 2, 3 phases A, B, C (R158). -/
  phase : Nat
  /-- Tile in the phase, first column of the next sub-tile, and index in command order. -/
  tile : Nat
  sub : Nat
  index : Nat
  /-- A tile stopped inside (R87): next strand, chains, Z, first unissued stone, and its modes. -/
  strand : Nat
  chains : List (List Chain)
  zs : List (List Rounded)
  stoneNext : Nat
  /-- The column at which that tile ends, and the modes that a pair fixes for the command (R444). -/
  tileEnd : Nat
  narrow : Bool
  shed : Bool
  toks : List TokAcc
  steps : List StripStep
  /-- Parameters and lists of the strip that a HEAD_FWD is bound to (R195, R349). -/
  bound : Option (StripParams × ScoreLists)
  /-- Roots of finished tokens (HEAD_FWD statistics) with their accumulators (R249). -/
  results : List TokAcc
  outBytes : Nat
  /-- A Granary error (R112), the first faulty staged swath and whether it held a scale fault (R482). -/
  ue : Bool
  badSwath : Option (Nat × Bool)
  /-- Staging halves: swath position held, its record, and the position next to stage (R109). -/
  staged : List (Nat × List (List Blk))
  stageNext : Nat
  /-- The position whose read is asked for next: a half is in use from then on until its last tile has read it (R109). -/
  stageAsk : Nat
  /-- The Seedbed buffer of pass 0, by which pass p goes into buffer seedBase + p mod 2 (R118). -/
  seedBase : Option Nat
  /-- Contents of the Seedbed that a restored command brings, by pass, until a buffer is free (R366, R437). -/
  seeds : List SeedBuf
  /-- An address failure (R379) and the strip-steps' commits in progress. -/
  badAddr : Bool
  pauseAsked : Bool
  train : Train
  fill : Fill
  merge : Merge
  deriving DecidableEq, Repr, Inhabited

/-- A fetched, uncompleted packet (R312, R313). -/
structure Cmd where
  ring : Nat
  seq : U32
  pkt : List Byte
  /-- OPCODE of the packet, and of the command that runs (a restored one's, R366). -/
  raw : Nat
  op : Nat
  run : List Byte
  order : Nat
  disp : Option Nat
  /-- MODEL: the order number at which a control packet, its gate wait and barrier over, began to wait between steps 4 and 5
  (R105, R283, R314). -/
  turn : Option Nat
  stage : Stage
  entered : Time
  gateOk : Bool
  valueSeen : U32
  joined : Bool
  reason : Reason
  body : List Byte
  intSat : Bool
  intWrap : Bool
  preempted : Bool
  cycles : Nat
  tDone : Time
  charge : Nat
  /-- The energy account in 2^-12 fJ and the events of the tick in progress (R406, R407). -/
  acct : Nat
  events : Tbl Nat
  proj : Nat
  admitted : Bool
  deferred : Bool
  /-- Pool granules, allocations they make up, and whether they are held (R119, R120). -/
  granules : Nat
  allocs : Nat
  granted : Bool
  started : Bool
  /-- The commit has begun (R296, R444). -/
  commit : Bool
  /-- A failed transfer (R379). -/
  failed : Option Traffic
  /-- The record has been handed to mover 0; the primary's digest has matched (R443). -/
  recAsked : Bool
  matched : Bool
  /-- Writes that a secondary holds back (R443), and the digest bytes of its outputs. -/
  heldWrites : List Range
  outputs : List (Nat × Nat × List Byte)
  work : Work
  deriving DecidableEq, Repr, Inhabited

/-! ### Weight store and Barn -/

/-- A field descriptor and its contents (R104, R107); reset element `fieldReset`. -/
structure Field where
  /-- STATE of R104. -/
  state : Nat
  stream : Bool
  rot : Bool
  v : Nat
  hk : Nat
  base : Nat
  units : Nat
  eRow : Int
  amax : F32
  rotKey : U64
  /-- SHD_FIELD_n: EN, LOG2_SPAN, COUNT_M1, SHARD_ID (R263). -/
  shard : Bool
  log2Span : Nat
  qM1 : Nat
  shardId : Nat
  /-- The image of a stream-fed field (R109). -/
  src : Nat
  /-- Block rows of each owned swath, ascending: 16 × 16 blocks as 256 codes and a scale (R98, R107). -/
  swaths : List (List (List Blk))
  /-- BROWS_DONE and AMAX_PART of an UPDATE that ended early, and whether one did (R190). -/
  browsDone : Nat
  amaxPart : F32
  leftOver : Bool
  deriving DecidableEq, Repr, Inhabited

/-- An EMPTY field. -/
def fieldReset : Field := ⟨0, false, false, 0, 0, 0, 0, 0, 0, 0, false, 0, 0, 0, 0, [], 0, 0, false⟩

/-- The Granary's registers and repair state (R111 to R116). -/
structure Granary where
  shadows : Nat
  mapIgnored : Bool
  oos : Bool
  scrubEn : Bool
  ceLimit : Nat
  passes : U16
  ceCount : U32
  ueValid : Bool
  ueBank : Nat
  ueWord : Nat
  /-- GRN_SPARE_BANK_g. -/
  spare : Tbl U32
  /-- Corrected errors of each bank since start (R114). -/
  bankCe : Tbl Nat
  /-- Words of the current scrub pass read so far, of all banks and of each bank (R113). -/
  scrubbed : Nat
  scanned : Tbl Nat
  /-- Words, as (64 g + bank, word), that a migration copy has left with check bits that read as uncorrectable (R114). -/
  poison : List (Nat × Nat)
  /-- MODEL: banks (64 g + bank) that a spare or a shadow serves or will serve (R114, R115); those whose copy runs, oldest
  first; and those whose copy has ended and whose switch waits for the next boundary on the Acre. -/
  moved : List Nat
  moving : List Nat
  due : List Nat
  deriving DecidableEq, Repr, Inhabited

/-- The Barn's layout and pool (R117 to R121, R475). -/
structure Barn where
  seedH : Nat
  seedTrain : Bool
  dwStage : Nat
  poolSize : Nat
  poolFree : Nat
  deriving DecidableEq, Repr, Inhabited

/-- The Acre (R90 to R92, R474). -/
structure Acre where
  spareCol : Tbl U32
  spareRow : Tbl U32
  /-- Groups whose spare line has failed itself (R427), columns then rows. -/
  deadCol : List Nat
  deadRow : List Nat
  cEff : Nat
  rowHalf : Nat
  sagHalf : Bool
  /-- The command on the Acre. -/
  run : Option (Nat × U32)
  held : Bool
  clkHalf : Bool
  narrow : Bool
  shed : Bool
  deriving DecidableEq, Repr, Inhabited

/-- A strip of the strip table (R279), without the parts kept beside it; reset element `stripReset`. -/
structure Strip where
  valid : Bool
  dropLate : Bool
  firstDone : Bool
  tenant : Nat
  params : StripParams
  amax : F32
  ledgerAddr : U64
  hostTag : U64
  ttft : U64
  itl : U32
  lateCount : U32
  firstCommit : U64
  lastCommit : U64
  committed : U32
  ledger : Ledger
  deriving DecidableEq, Repr, Inhabited

/-- A strip of zeros. -/
def stripReset : Strip := default

/-- A window turn of a tenant that a commit in progress may still precede (R289): TIME_NS from which it holds, REMAIN before it,
how many windows it passed, and REFILL. -/
structure Turn where
  since : Nat
  before : Int
  count : Nat
  refill : Nat
  deriving DecidableEq, Repr, Inhabited

/-- A tenant (R286 to R291, R304); reset element `tenantReset`. REMAIN is signed and exact. -/
structure Tenant where
  en : Bool
  refill : Nat
  windowUs : U32
  remain : Int
  reserved : Nat
  committed : U32
  late : U16
  budget : U16
  /-- The window of the last turn (R287). -/
  window : Nat
  /-- The turns since reservations have been open, newest first (R289). -/
  past : List Turn
  deriving DecidableEq, Repr, Inhabited

/-- A tenant after rst_n: WINDOW_US = 1,000. -/
def tenantReset : Tenant := ⟨false, 0, 0x3E8, 0, 0, 0, 0, 0, 0, []⟩

/-! ### Energy, faults, pair, shard -/

/-- A pending ENERGY_SET of AT_NEXT_EPOCH = 1 (R367). -/
structure EnergyNext where
  allow : Option Nat
  reserve : Option Nat
  epochUs : Option Nat
  coefs : Option (List U32)
  deriving DecidableEq, Repr, Inhabited

/-- The energy ledger, planner and sag level (15_energy_and_supply.md). Amounts of energy are in 2^-12 fJ (R407). -/
structure Energy where
  planEn : Bool
  trimEn : Bool
  gain : Nat
  exitHoldUs : U16
  level : SagLevel
  /-- TIME_NS since which the input has been below the level in force (R418). -/
  belowSince : Option Time
  pfail : Bool
  heldFlag : Bool
  oversize : BitVec 8
  epochUs : Nat
  lastProj : U32
  allow : Nat
  reserve : Nat
  next : Option EnergyNext
  /-- ALLOWANCE plus the carried deficit, S and G of the epoch (R412). -/
  deficit : Int
  spent : Nat
  genSpent : Nat
  epoch : Nat
  carry : Nat
  totCmd : U64
  totBg : U64
  totClass : Tbl U64
  served : U64
  trained : U64
  epochServed : Nat
  epochTrained : Nat
  tpj : U32
  tpkwh : U64
  trim : Nat
  /-- TRIM from the next tick on, where a sample has changed it; the number of the tick in progress (R407, R411). -/
  trimNext : Option Nat
  tick : Nat
  samples : U16
  lastSample : Time
  sampleAccrued : Nat
  bgAcct : Nat
  bgEvents : Tbl Nat
  coefs : Tbl U32
  pfailAddr : U64
  pfailKib : U32
  /-- The contexts saved into the power-fail area, with their offsets, and the commands dropped; the rest of the area has
  been asked for (R420, R422). -/
  pfailCtx : List (Nat × U32 × Nat)
  pfailDropped : Nat
  pfailArea : Bool
  deriving DecidableEq, Repr, Inhabited

/-- The fault unit (R429 to R435, R450). -/
structure Flt where
  ledgerLost : Bool
  fwLost : Bool
  pend : BitVec 10
  irqEn : BitVec 10
  route : BitVec 30
  hold : BitVec 10
  portHold : BitVec 24
  inReset : BitVec 10
  ceBarn : U16
  ceAcc : U16
  /-- CORRECTED faults counted toward the interrupt of 2^16 (R429). -/
  corrected : Nat
  ueValid : Bool
  ueRegion : Nat
  ueWord : BitVec 25
  parValid : Bool
  parRow : Bool
  parCount : U16
  parLine : Nat
  lostValid : Bool
  lostCount : BitVec 12
  lostStrip : BitVec 12
  replace : Bool
  standbyValid : Bool
  activeBank : Bool
  switches : U16
  /-- A reset of the command processor waits for the end of the commits in progress (R434). -/
  cpDue : Bool
  deriving DecidableEq, Repr, Inhabited

/-- The two firmware banks (R431, R460). -/
structure Fw where
  bank0 : List Byte
  bank1 : List Byte
  deriving DecidableEq, Repr, Inhabited

/-- A frame kept until an ACK covers it, as it was sent last: FSEQ, ACK, TYPE, PAYLOAD (R396, R397). -/
structure PairFrame where
  fseq : U16
  ack : U16
  type : Nat
  payload : List Byte
  deriving DecidableEq, Repr, Inhabited

/-- The pair and its link (R395 to R397, R441 to R451). -/
structure Pair where
  en : Bool
  role : Bool
  auto : Bool
  /-- 0 SOLO, 1 FORMING, 2 PAIRED, 3 REFUSED, 4 DETACHED, 5 TAKEN_OVER. -/
  state : Nat
  /-- A detached secondary that holds every command and waits for TAKEOVER or DETACH (R448). -/
  holding : Bool
  diverged : Bool
  failing : Bool
  mismatch : Nat
  divValid : Bool
  divRing : Nat
  divSeq : U32
  up : Bool
  down : Bool
  replays : U16
  crcErr : U32
  credits : Nat
  txNext : U16
  rxNext : U16
  unacked : List PairFrame
  /-- Payloads that wait for a credit or for the end of sag level 3 (R419). -/
  queue : List (Nat × List Byte)
  /-- DISPATCH entries not yet acted on (R444). -/
  dispatches : List (Nat × U32)
  /-- CHECK entries not yet acted on: ring, SEQ, T_CHECK, narrow, stone shed; COMMIT entries: ring, SEQ, time; the
  last PROGRESS entry of each command: ring, SEQ, PROG_A, PROG_B (R444). -/
  checks : List (Nat × U32 × Time × Bool × Bool)
  commits : List (Nat × U32 × Time)
  progress : List (Nat × U32 × Nat × Nat)
  /-- DIGESTs of the primary: ring, SEQ, digest (R446). -/
  theirs : List (Nat × U32 × U32)
  /-- Credits returned to the partner: 32 as the link comes up, and one for each receive buffer freed (R397). -/
  returned : Nat
  /-- A HELLO that came before this member's own EN: role, GLB_VERSION, GLB_BUILD, firmware version and CRC (R441). -/
  hello : Option (Bool × U32 × U32 × U32 × U32)
  deriving DecidableEq, Repr, Inhabited

/-- Vocabulary sharding (R257, R263). -/
structure Shard where
  timeoutUs : U32
  sent : U32
  recv : U32
  bad : U32
  mismatch : U16
  merges : U16
  early : List (List Byte)
  /-- STEP_TAGs of the sharded commands that have ended since rst_n (R257, R260; log 78). -/
  gone : List U64
  /-- The records that the last row which sends any sent on the shard port, in order, with the sending field (R393). -/
  out : List (Nat × List Byte)
  deriving DecidableEq, Repr, Inhabited

/-- A segment of the result stream (R391). -/
structure Segment where
  ring : Nat
  seq : U32
  kind : Nat
  last : Bool
  data : List Byte
  deriving DecidableEq, Repr, Inhabited

/-- The activation and result streams (R389 to R392, R404). -/
structure Streams where
  frameErr : U16
  resHeld : Bool
  queue : List Segment
  /-- Dispatched commands with SRC = 1 whose frame has not come, in dispatch order; one that has ended is discarded
  when it comes (R389, R490). -/
  frames : List (Nat × U32)
  deriving DecidableEq, Repr, Inhabited

/-- The Winnower's counters and probes (R229, R263, R278, R157). -/
structure Win where
  scoreSat : U32
  refused : U32
  ledgerFull : U32
  fnArg : U32
  fnSel : Bool
  fnBusy : Bool
  fnDomErr : Bool
  fnOut : U32
  nucleusTrunc : U32
  verifyStrips : U32
  verifyAccepted : U32
  verifyShift : U32
  sowKey : Tbl U32
  sowCtr : Tbl U32
  sowOut : Tbl U32
  sowBusy : Bool
  deriving DecidableEq, Repr, Inhabited

/-- The counters of strips, Harrow and stone path (R303, R476, R138). -/
structure Totals where
  commits : U32
  records : U32
  late : U32
  dropped : U32
  nonfinite : U32
  scaleCap : U32
  satElems : U32
  uflElems : U32
  gleanTiles : U32
  gleanCyc : U32
  stoneDropped : U32
  deriving DecidableEq, Repr, Inhabited

/-- The performance counters (R478, R479). -/
structure Perf where
  counters : Tbl U64
  snap : Tbl U64
  snapValid : Bool
  snapTime : Time
  /-- Twentieths of an ACRE cycle run beyond the last whole one, and the ACRE cycles run while a compute phase counts that
  no tile has counted yet, below zero where a tile has counted cycles ahead of TIME_NS (R480). -/
  acreFrac : Nat
  acrePool : Int
  /-- The microsecond of TIME_NS up to which PERF_DEFER_US and PERF_WAIT_US have counted (R479). -/
  deferTo : Nat
  waitTo : Nat
  deriving DecidableEq, Repr, Inhabited

/-- A context image that Elzan has written, with the command it holds (R437; log 8). -/
structure CtxImage where
  bytes : List Byte
  cmd : Cmd
  seed : List SeedBuf
  deriving DecidableEq, Repr, Inhabited

/-- The state of the block. -/
structure State where
  /-- The build parameters (R6); fixed at synthesis. -/
  build : Build
  /-- The commands that wait, first in, first out. -/
  pending : List Instr
  /-- MODEL: the counter that free values are drawn with (log 3). -/
  freeCtr : Nat
  /-- Out of operation until rst_n (R402, R403, R21). -/
  outOfOp : Bool
  boot : Boot
  pins : Pins
  tap : Tap
  apb : Apb
  /-- The _HI latches of R469, keyed by the _HI register's address; 0. -/
  latches : Tbl U32
  /-- TIME_NS (R399). -/
  timeNs : Time
  rings : Tbl Ring
  arb : RingArb
  /-- GATE_n (R321); 0. -/
  gates : Tbl U32
  /-- CMD_CPL_PEND (R334). -/
  cplPend : BitVec 64
  /-- The fetched, uncompleted packets in fetch order (R313). -/
  cmds : List Cmd
  /-- MODEL: the next fetch or dispatch order. -/
  nextOrder : Nat
  /-- The ring whose packet is at the barrier (R325). -/
  barrier : Option Nat
  acre : Acre
  granary : Granary
  fields : Tbl Field
  barn : Barn
  seed0 : SeedBuf
  seed1 : SeedBuf
  /-- The Seedbed buffer that the next command's first pass takes (R118). -/
  seedTurn : Nat
  /-- HRW_TT_SEL and the Harrow tensor table (R477); +0. -/
  ttSel : Nat
  tensors : Tbl F32
  totals : Totals
  win : Win
  strips : Tbl Strip
  tenants : Tbl Tenant
  ports : Tbl Port
  /-- Ranges waiting at the movers, oldest first (R383). -/
  queue : List Range
  xfers : List Xfer
  /-- Writes of a reset port that wait for stk_k_drained (R382). -/
  drainWait : List Xfer
  marb : MvrArb
  steer : Tbl Steer
  probe : PortProbe
  streams : Streams
  energy : Energy
  flt : Flt
  fw : Fw
  pair : Pair
  shard : Shard
  perf : Perf
  /-- The memory behind the stack ports, as the block sees it (log 4). -/
  mem : List Host.Cell
  /-- Context images written (log 8). -/
  images : List CtxImage
  deriving DecidableEq, Repr, Inhabited

/-- The maximum configuration (00_scope.md R7; GLB_BUILD 0x02B6_0000). -/
def buildMax : Build := ⟨.c1024, .g2, .m256, .p24, .s4096, true⟩

/-- ACRE_COLS. -/
def acreCols : ColsOpt → Nat
  | .c256 => 256
  | .c512 => 512
  | .c1024 => 1024

/-- The block of build `b` while rst_n is low, with memory `m` behind its ports and time_ns at 0 (log 1). -/
def State.ofBuild (b : Build) (m : List Host.Cell) : State where
  build := b
  pending := []
  freeCtr := 0
  outOfOp := false
  boot := ⟨1, false, false, 0, 0, false, 0, 0, 0, 0, false⟩
  pins := ⟨true, 0, false, false, 7, false, 0, 0, 0, .bypass⟩
  tap := tapReset
  apb := ⟨0, false, false⟩
  latches := []
  timeNs := 0
  rings := []
  arb := ⟨1, 1, 0x0400, false, 0, [], none, 0, 0, 0, 0, false⟩
  gates := []
  cplPend := 0
  cmds := []
  nextOrder := 0
  barrier := none
  acre := ⟨[], [], [], [], acreCols b.cols, 0, false, none, false, false, false, false⟩
  granary := ⟨0, false, false, true, 0x10, 0, 0, false, 0, 0, [], [], 0, [], [], [], [], []⟩
  fields := []
  barn := ⟨0, false, 0, 0, 0⟩
  seed0 := seedReset
  seed1 := seedReset
  seedTurn := 0
  ttSel := 0
  tensors := []
  totals := ⟨0, 0, 0, 0, 0, 0, 0, 0, 0, 0, 0⟩
  win := ⟨0, 0, 0, 0, false, false, false, 0, 0, 0, 0, 0, [], [], [], false⟩
  strips := []
  tenants := []
  ports := (List.range 23).map fun k => (k + 1, { portReset with lot := portLot 1 (k + 1) })
  queue := []
  xfers := []
  drainWait := []
  marb := ⟨1, 0x0400, false, 0, []⟩
  steer := []
  probe := ⟨0, 0, 0, 0, 0, false, false, false, 0⟩
  streams := ⟨0, false, [], []⟩
  energy := ⟨false, false, 4, 0x0064, 0, none, false, false, 0, 0x3E8, 0, 0, 0, none, 0, 0, 0, 0, 0, 0, 0, [], 0, 0, 0, 0,
    0, 0, 0x1000, none, 0, 0, 0, 0, 0, [], [], 0, 0, [], 0, false⟩
  flt := ⟨false, false, 0, 0x008, 0, 0, 0, 0, 0, 0, 0, false, 0, 0, false, false, 0, 0, false, 0, 0, false, false, false, 0, false⟩
  fw := ⟨[], []⟩
  pair := ⟨false, false, true, 0, false, false, false, 0, false, 0, 0, false, false, 0, 0, 0, 0, 0, [], [], [], [], [], [], [], 0, none⟩
  shard := ⟨0x3E8, 0, 0, 0, 0, 0, [], [], []⟩
  perf := ⟨[], [], false, 0, 0, 0, 0, 0⟩
  mem := m
  images := []

/-- FREE VALUE. The functional state of the block while it is out of operation, and the state of an island whose
supply was removed (R402, R403, R21): "undefined until the next rst_n" (log 5). -/
opaque undefinedState (n : Nat) : State

/-- FREE VALUE. The command and the Seedbed contents that the sections of a context image hold where this block has no
record of writing it (R437: "The layout of the sections is Elzan's own"; log 8). -/
opaque ctxDecode (bytes : List Byte) : CtxImage

/-- The block right after power-on with rst_n low: the maximum configuration, and memory with nothing listed. -/
def State.reset : State := State.ofBuild buildMax []

end Sys2Proof.Machine
end

