-- ==== Sys2Proof/Machine/BuildInfo.lean ====
section
/-! DEFINITION. The numbers of a build (00_scope.md R6, 01_architecture.md R25, R26, 04_granary.md R97). -/

namespace Sys2Proof.Machine

/-- Units of the Granary: GRANARY_SIZE / 512 KiB (04_granary.md, Fields). -/
def granaryUnits (b : Build) : Nat :=
  match b.granary with
  | .m512 => 1024
  | .g1 => 2048
  | .g2 => 4096

/-- Bank groups (R97). -/
def bankGroups (b : Build) : Nat := granaryUnits b / 64

/-- Words of a bank (R97). -/
def bankWords (b : Build) : Nat := 16384 * granaryUnits b / 4096

/-- 64 KiB granules of the Barn. -/
def barnGranules (b : Build) : Nat :=
  match b.barn with
  | .m128 => 2048
  | .m256 => 4096

/-- STACK_PORTS. -/
def stackPorts (b : Build) : Nat :=
  match b.ports with
  | .p8 => 8
  | .p16 => 16
  | .p24 => 24

/-- STRIPS. -/
def stripCount (b : Build) : Nat :=
  match b.strips with
  | .s1024 => 1024
  | .s4096 => 4096

/-- Column groups of 64. -/
def colGroups (b : Build) : Nat := acreCols b.cols / 64

/-- GLB_VERSION (R3). -/
def glbVersion : U32 := 0x00030200#32

/-- GLB_BUILD (R26). -/
def glbBuild (b : Build) : U32 :=
  let c := match b.cols with
    | .c256 => 0
    | .c512 => 1
    | .c1024 => 2
  let g := match b.granary with
    | .m512 => 0
    | .g1 => 1
    | .g2 => 2
  let a := match b.barn with
    | .m128 => 0
    | .m256 => 1
  let p := match b.ports with
    | .p8 => 0
    | .p16 => 1
    | .p24 => 2
  let t := match b.strips with
    | .s1024 => 0
    | .s4096 => 1
  BitVec.ofNat 32 (c * 2 ^ 24 + g * 2 ^ 22 + a * 2 ^ 21 + p * 2 ^ 19 + t * 2 ^ 18 + if b.pairLink then 2 ^ 17 else 0)

/-- Granules of the fixed Barn regions (R117): each rounded up to 64 KiB. -/
def fixedGranules (b : Build) (seedH : Nat) (train : Bool) (dwStage : Nat) : Nat :=
  ceilDiv (stripCount b * 256) 65536 + ceilDiv (stripCount b * 8192) 65536 + 1
    + ceilDiv (2 * 1024 * seedH * 9 / 16 * (if train then 2 else 1)) 65536 + 64 + 128 + dwStage

end Sys2Proof.Machine
end

