-- ==== Sys2Proof/Machine/Operands.lean ====
section
/-! DEFINITION. The fields of command packets (12_rings_and_gates.md R310, 13_command_reference.md R341 to R368), the
checks made at fetch (R311, R337 to R339), reason codes (R340) and completion records (R316). -/

namespace Sys2Proof.Machine

/-- The value of a reason code (R340). -/
def reasonCode : Reason → Nat
  | .ok => 0x00
  | .badOpcode => 0x01
  | .badLength => 0x02
  | .reservedNonzero => 0x03
  | .badAddr => 0x04
  | .gateTimeout => 0x05
  | .cutOff => 0x06
  | .abortedReset => 0x07
  | .badGateOp => 0x08
  | .fieldEmpty => 0x10
  | .fieldDamaged => 0x11
  | .fieldStreamed => 0x12
  | .fieldInUse => 0x13
  | .badShape => 0x14
  | .badSource => 0x15
  | .badScale => 0x16
  | .badImage => 0x17
  | .granaryFull => 0x18
  | .granaryFragmented => 0x19
  | .granaryOos => 0x1A
  | .granaryUe => 0x1B
  | .barnTooSmall => 0x1C
  | .badFold => 0x20
  | .badFuse => 0x21
  | .badCount => 0x22
  | .badSheaf => 0x23
  | .badTree => 0x24
  | .badShard => 0x25
  | .shardUnsupported => 0x26
  | .shardFailed => 0x27
  | .noStep => 0x28
  | .badStripParam => 0x29
  | .badTarget => 0x30
  | .badLossScale => 0x31
  | .badGradMode => 0x32
  | .badSkip => 0x33
  | .badHyper => 0x34
  | .badResume => 0x35
  | .badDist => 0x36
  | .stripEmpty => 0x38
  | .badStrip => 0x39
  | .badStripRecord => 0x3A
  | .badLedger => 0x3B
  | .badMode => 0x3C
  | .noContext => 0x40
  | .saved => 0x41
  | .ctxTooSmall => 0x42
  | .badContext => 0x43
  | .restoreGeometry => 0x44
  | .badEnergy => 0x48
  | .badFwSig => 0x50
  | .fwTooLarge => 0x51
  | .noStandby => 0x52
  | .fwVersion => 0x53

/-! ### Opcodes (R336) -/

/-- Opcode values. -/
def opNop : Nat := 0x00
/-- FENCE. -/
def opFence : Nat := 0x01
/-- GATE_WAIT. -/
def opGateWait : Nat := 0x02
/-- GATE_SIGNAL. -/
def opGateSignal : Nat := 0x03
/-- LOAD_HEAD. -/
def opLoadHead : Nat := 0x08
/-- EVICT_HEAD. -/
def opEvictHead : Nat := 0x09
/-- STRIP_SET. -/
def opStripSet : Nat := 0x0C
/-- STRIP_GET. -/
def opStripGet : Nat := 0x0D
/-- SAMPLE_STEP. -/
def opSample : Nat := 0x10
/-- VERIFY_TREE. -/
def opVerify : Nat := 0x11
/-- HEAD_FWD. -/
def opHeadFwd : Nat := 0x12
/-- SHARD_MERGE. -/
def opMerge : Nat := 0x13
/-- TRAIN_STEP. -/
def opTrain : Nat := 0x18
/-- UPDATE. -/
def opUpdate : Nat := 0x19
/-- SOW_FILL. -/
def opSowFill : Nat := 0x1A
/-- CTX_SAVE. -/
def opCtxSave : Nat := 0x20
/-- CTX_RESTORE. -/
def opCtxRestore : Nat := 0x21
/-- ENERGY_SET. -/
def opEnergySet : Nat := 0x28
/-- FW_SWAP. -/
def opFwSwap : Nat := 0x30

/-- LEN of each defined opcode in slots; NOP takes any from 1 to 16 (R336). -/
def opLen : Nat → Option Nat
  | 0x00 | 0x01 | 0x02 | 0x03 | 0x09 | 0x0C | 0x0D | 0x13 | 0x20 | 0x21 | 0x30 => some 1
  | 0x08 | 0x10 | 0x11 | 0x12 | 0x1A | 0x28 => some 2
  | 0x19 => some 3
  | 0x18 => some 4
  | _ => none

/-- The commands that run on the Acre. -/
def isAcreOp (op : Nat) : Bool := op == opSample || op == opVerify || op == opHeadFwd || op == opTrain

/-- The class commands: every opcode that R336 does not call control; a CTX_RESTORE counts here by its restored
command. -/
def isClassOp (op : Nat) : Bool :=
  isAcreOp op || op == opMerge || op == opLoadHead || op == opUpdate || op == opSowFill

/-! ### Packet fields -/

/-- A bit of a packet byte. -/
def pktBit (p : List Byte) (off i : Nat) : Bool := (byteAt p off).getLsbD i

/-- OPCODE. -/
def pkOpcode (p : List Byte) : Nat := leNat p 0 1
/-- LEN. -/
def pkLen (p : List Byte) : Nat := leNat p 1 1
/-- PFLAGS WAIT_EN. -/
def pkWaitEn (p : List Byte) : Bool := pktBit p 2 0
/-- PFLAGS SIG_EN. -/
def pkSigEn (p : List Byte) : Bool := pktBit p 2 1
/-- PFLAGS SIG_OK_ONLY. -/
def pkSigOkOnly (p : List Byte) : Bool := pktBit p 2 2
/-- PFLAGS BARRIER. -/
def pkBarrier (p : List Byte) : Bool := pktBit p 2 3
/-- PFLAGS IRQ. -/
def pkIrq (p : List Byte) : Bool := pktBit p 2 4
/-- PFLAGS INT_MODE: 0 saturate, 1 wrap (R59). -/
def pkIntMode (p : List Byte) : Nat := if pktBit p 2 5 then 1 else 0
/-- WAIT_GATE. -/
def pkWaitGate (p : List Byte) : Nat := leNat p 4 2 % 8192
/-- SIG_GATE. -/
def pkSigGate (p : List Byte) : Nat := leNat p 6 2 % 8192
/-- WAIT_VALUE. -/
def pkWaitValue (p : List Byte) : U32 := le32 p 8
/-- SIG_ADD. -/
def pkSigAdd (p : List Byte) : U32 := le32 p 12
/-- USER_TAG. -/
def pkUserTag (p : List Byte) : U64 := le64 p 16
/-- FIELD, at offset 32 of every packet that names a field. -/
def pkField (p : List Byte) : Nat := leNat p 32 1 % 8

/-! The compute block (R341) and the bodies of the Acre commands (R344 to R350). -/

/-- FOLD. -/
def pkFold (p : List Byte) : Nat := leNat p 33 1
/-- STAGING. -/
def pkBounded (p : List Byte) : Bool := pktBit p 34 0
/-- ACC_MODE. -/
def pkNarrow (p : List Byte) : Bool := pktBit p 34 1
/-- SCALE_REF. -/
def pkSecond (p : List Byte) : Bool := pktBit p 34 2
/-- STONE_THR. -/
def pkStoneThr (p : List Byte) : Nat := bitField (leNat p 34 1) 4 3
/-- SHARD_EN. -/
def pkShardEn (p : List Byte) : Bool := pktBit p 34 5
/-- SRC: the activation stream. -/
def pkStreamSrc (p : List Byte) : Bool := pktBit p 34 6
/-- SRC_FMT: BF16. -/
def pkSrcBf16 (p : List Byte) : Bool := pktBit p 34 7
/-- FUSE_OP. -/
def pkFuseOp (p : List Byte) : Nat := bitField (leNat p 35 1) 1 0
/-- FUSE_SHAPE. -/
def pkFuseShape (p : List Byte) : Nat := bitField (leNat p 35 1) 3 2
/-- FUSE_FMT: BF16. -/
def pkFuseBf16 (p : List Byte) : Bool := pktBit p 35 4
/-- COUNT. -/
def pkCount (p : List Byte) : Nat := leNat p 36 4
/-- HID_ADDR. -/
def pkHidAddr (p : List Byte) : Nat := leNat p 40 8
/-- FUSE_ADDR. -/
def pkFuseAddr (p : List Byte) : Nat := leNat p 48 8
/-- STEP_TAG of the compute block. -/
def pkStepTag (p : List Byte) : U64 := le64 p 56
/-- STRIP_ADDR or DESC_ADDR. -/
def pkListAddr (p : List Byte) : Nat := leNat p 64 8
/-- RES_ADDR. -/
def pkResAddr (p : List Byte) : Nat := leNat p 72 8
/-- SHEAF_CAP. -/
def pkSheafCap (p : List Byte) : Nat := leNat p 80 2
/-- SMODE PROMPT. -/
def pkPrompt (p : List Byte) : Bool := pktBit p 82 0
/-- RES_DEST of SMODE or VMODE: the result stream. -/
def pkResStream (p : List Byte) : Bool := pktBit p 82 1
/-- OUT_MODE. -/
def pkOutMode (p : List Byte) : Nat := leNat p 64 1
/-- OUT_FMT. -/
def pkOutFmt (p : List Byte) : Nat := leNat p 65 1
/-- OUT_DEST. -/
def pkOutDest (p : List Byte) : Nat := leNat p 66 1
/-- BIND EN. -/
def pkBindEn (p : List Byte) : Bool := pktBit p 69 7
/-- BIND strip. -/
def pkBindStrip (p : List Byte) : Nat := leNat p 68 2 % 4096
/-- OUT_ADDR. -/
def pkOutAddr (p : List Byte) : Nat := leNat p 72 8
/-- TGT_ADDR. -/
def pkTgtAddr (p : List Byte) : Nat := leNat p 64 8
/-- LOSS_ADDR. -/
def pkLossAddr (p : List Byte) : Nat := leNat p 72 8
/-- DH_ADDR. -/
def pkDhAddr (p : List Byte) : Nat := leNat p 80 8
/-- GRAD_ADDR. -/
def pkGradAddr (p : List Byte) : Nat := leNat p 88 8
/-- DZ_ADDR. -/
def pkDzAddr (p : List Byte) : Nat := leNat p 96 8
/-- SCRATCH_ADDR. -/
def pkScratchAddr (p : List Byte) : Nat := leNat p 104 8
/-- SR_SEED of TRAIN_STEP. -/
def pkTrainSeed (p : List Byte) : U64 := le64 p 112
/-- LOSS_SCALE. -/
def pkLossScale (p : List Byte) : F32 := le32 p 120
/-- AMAX_SEED. -/
def pkAmaxSeed (p : List Byte) : F32 := le32 p 124
/-- GRAD_SKIP. -/
def pkGradSkip (p : List Byte) : Nat := leNat p 128 2
/-- SAT_THR. -/
def pkSatThr (p : List Byte) : Nat := leNat p 130 2
/-- UFL_THR. -/
def pkUflThr (p : List Byte) : Nat := leNat p 132 2
/-- TENSOR_ID of TRAIN_STEP. -/
def pkTensorId (p : List Byte) : Nat := leNat p 134 1
/-- TMODES DH_DEST: the result stream. -/
def pkDhStream (p : List Byte) : Bool := pktBit p 135 0
/-- TMODES DH_FMT: BF16. -/
def pkDhBf16 (p : List Byte) : Bool := pktBit p 135 1
/-- TMODES GRAD_ACC. -/
def pkGradAcc (p : List Byte) : Nat := bitField (leNat p 135 1) 3 2
/-- TMODES RND. -/
def pkRnd (p : List Byte) : Nat := bitField (leNat p 135 1) 5 4
/-- TMODES GRAD_FP8. -/
def pkGradFp8 (p : List Byte) : Nat := bitField (leNat p 135 1) 7 6
/-- UFL_SPAN. -/
def pkUflSpan (p : List Byte) : Nat := bitField (leNat p 136 1) 3 0

/-! ### Reserved bytes (R311 check 3, R337) -/

/-- The ranges (offset, length) that must read zero, by opcode and by the packet's own settings. -/
def resvRanges (op : Nat) (p : List Byte) : List (Nat × Nat) :=
  let byIf (b : Bool) (l : List (Nat × Nat)) := if b then l else []
  let compute := byIf (pkStreamSrc p) [(40, 8)] ++ byIf (pkFuseOp p == 0) [(48, 8)] ++ byIf (!pkShardEn p) [(56, 8)]
  match op with
  | 0x00 => [(32, 992)]
  | 0x01 => [(33, 31)]
  | 0x02 | 0x03 => [(32, 32)]
  | 0x08 => [(45, 3), (76, 52)]
      ++ byIf (!pktBit p 33 4) [(34, 2), (64, 8)] ++ byIf (leNat p 33 1 % 4 != 0) [(41, 1)]
      ++ byIf (!pktBit p 33 5) [(42, 3)] ++ byIf (!pktBit p 33 2) [(56, 8)]
  | 0x09 => [(33, 31)]
  | 0x0C => [(35, 5), (48, 16)] ++ byIf (leNat p 34 1 == 2) [(40, 8)]
  | 0x0D => [(35, 5), (56, 8)]
  | 0x10 => compute ++ [(83, 45)] ++ byIf (pkResStream p) [(72, 8)]
  | 0x11 => compute ++ [(83, 45)] ++ byIf (pkResStream p) [(72, 8)]
  | 0x12 => compute ++ [(67, 1), (70, 2), (80, 48)] ++ byIf (pkOutMode p == 1) [(65, 1)] ++ byIf (pkOutDest p == 1) [(72, 8)]
  | 0x13 => [(34, 6), (48, 16)]
  | 0x18 => compute ++ [(137, 119)] ++ byIf (pkDhStream p) [(80, 8)] ++ byIf (pkGradAcc p == 2) [(88, 8), (104, 8)]
      ++ byIf (pkRnd p == 0) [(112, 8)]
  | 0x19 => if pktBit p 33 0 then [(34, 6), (48, 92), (144, 48)]
      else [(36, 4), (148, 44)] ++ byIf (!pktBit p 33 3) [(34, 2), (96, 8)] ++ byIf (!pktBit p 33 2) [(144, 4)]
  | 0x1A => [(34, 2), (82, 46)] ++ byIf (leNat p 32 1 == 2 || leNat p 32 1 == 3) [(72, 8)] ++ byIf (leNat p 32 1 != 2) [(80, 2)]
  | 0x20 => [(33, 3), (56, 8)] ++ byIf (leNat p 48 8 == 0) [(40, 8)]
  | 0x21 => [(32, 8), (56, 8)] ++ byIf (leNat p 48 8 == 0) [(40, 8)]
  | 0x28 => [(33, 7), (62, 2), (72, 56)] ++ byIf (!pktBit p 32 0) [(40, 8)] ++ byIf (!pktBit p 32 1) [(48, 8)]
      ++ byIf (!pktBit p 32 2) [(56, 4)] ++ byIf (!pktBit p 32 3) [(60, 2), (64, 8)]
  | 0x30 => [(45, 19)] ++ byIf (leNat p 44 1 == 1) [(32, 12)]
  | _ => []

/-- The bits (offset, mask) that must read zero. -/
def resvBits (op : Nat) (p : List Byte) : List (Nat × Nat) :=
  match op with
  | 0x08 => [(32, 0xF8), (33, if leNat p 33 1 % 4 = 0 then 0xD0 else 0xC0), (38, 0xF0), (39, 0xFF), (42, 0xC0)]
  | 0x09 => [(32, 0xF8)]
  | 0x0C => [(33, 0xF0)]
  | 0x0D => [(33, 0xF0), (34, 0xFE)]
  | 0x10 => [(32, 0xF8), (35, 0xE0), (82, 0xFC)]
  | 0x11 => [(32, 0xF8), (35, 0xE0), (82, 0xFD)]
  | 0x12 => [(32, 0xF8), (35, 0xE0), (69, 0x70)]
  | 0x13 => [(32, 0xF8), (33, 0xFE)]
  | 0x18 => [(32, 0xF8), (35, 0xE0), (136, 0xF0)]
  | 0x19 => [(32, 0xF8), (33, if pktBit p 33 0 then 0xFE else 0xF0)]
  | 0x1A => [(32, 0xF0), (33, 0xFE)]
  | 0x20 => [(32, 0xC0)]
  | 0x28 => [(32, 0xE0)]
  | _ => []

/-- The reserved parts of the header (R310). -/
def resvHeader (p : List Byte) : Bool :=
  (leNat p 2 1 / 64 == 0) && leNat p 3 1 == 0 && leNat p 4 2 / 8192 == 0 && leNat p 6 2 / 8192 == 0
    && zeroRange p 24 8
    && (pkWaitEn p || (zeroRange p 4 2 && zeroRange p 8 4))
    && (pkSigEn p || (zeroRange p 6 2 && zeroRange p 12 4 && !pkSigOkOnly p))

/-- Every reserved field of the packet is zero (R311 check 3). Bytes beyond the packet's LEN slots read as zero. -/
def resvZero (op : Nat) (p : List Byte) : Bool :=
  resvHeader p && (resvRanges op p).all (fun r => zeroRange p r.1 r.2)
    && (resvBits op p).all fun r => (leNat p r.1 1 &&& r.2) == 0

/-! ### Alignment (R338) -/

/-- The 64-bit addresses of a body with their alignment; a field that is not used reads zero by R337. -/
def addrFields (op : Nat) : List (Nat × Nat) :=
  match op with
  | 0x08 => [(48, 4096)]
  | 0x0C => [(40, 64)]
  | 0x0D => [(40, 64), (48, 4)]
  | 0x10 => [(40, 4096), (48, 64), (64, 64), (72, 256)]
  | 0x11 => [(40, 4096), (48, 64), (64, 32), (72, 256)]
  | 0x12 => [(40, 4096), (48, 64), (72, 4096)]
  | 0x18 => [(40, 4096), (48, 64), (64, 4096), (72, 4096), (80, 4096), (88, 4096), (96, 4096)]
  | 0x19 => (List.range 7).map fun i => (40 + 8 * i, 4096)
  | 0x1A => [(48, 64)]
  | 0x20 | 0x21 => [(40, 4096)]
  | 0x28 => [(64, 64)]
  | 0x30 => [(32, 4096)]
  | _ => []

/-- Every used address is aligned (R338). -/
def addrAligned (op : Nat) (p : List Byte) : Bool := (addrFields op).all fun a => leNat p a.1 8 % a.2 == 0

/-! ### Range checks at fetch (R339 point 2) -/

/-- The common checks of the compute block in their order (R339). -/
def computeRange (op strips cEff : Nat) (p : List Byte) : Option Reason :=
  if op = opVerify then
    if pkCount p = 0 ∨ pkCount p > strips then some .badTree
    else if !foldOk (pkFold p) cEff false then some .badFold
    else if pkFuseOp p = 3 ∨ pkFuseShape p = 3 then some .badFuse else none
  else if pkCount p = 0 ∨ pkCount p > 65536 then some .badCount
  else if !foldOk (pkFold p) cEff (op == opTrain) then some .badFold
  else if pkFuseOp p = 3 ∨ pkFuseShape p = 3 then some .badFuse else none

/-- SHEAF_CAP is 0 or a multiple of 8 from 8 to 4,096 (R232). -/
def sheafCapOk (k : Nat) : Bool := k % 8 == 0 && decide (k ≤ 4096)

/-- The opcode's own range reasons (R339 point 2). -/
def ownRange (op : Nat) (p : List Byte) : Option Reason :=
  match op with
  | 0x10 | 0x11 => if sheafCapOk (pkSheafCap p) then none else some .badSheaf
  | 0x12 => if pkOutMode p ≤ 1 ∧ pkOutFmt p ≤ 1 ∧ pkOutDest p ≤ 1 then none else some .badMode
  | 0x18 =>
    if !fpPosFinite (pkLossScale p) || !fpNonNegFinite (pkAmaxSeed p) then some .badLossScale
    else if pkGradAcc p = 3 ∨ pkGradFp8 p = 3 then some .badGradMode
    else if pkGradSkip p ≠ 0 ∧ pkGradAcc p = 2 then some .badSkip else none
  | 0x1A =>
    let dist := leNat p 32 1 % 16
    let count := leNat p 64 8
    if count = 0 ∨ count > 2 ^ 40 ∨ leNat p 56 8 + count > 2 ^ 48 then some .badCount
    else if dist ≥ 4 ∨ (leNat p 33 1 % 2 ≠ 0 ∧ dist ≥ 2) ∨ !fpFinite (le32 p 72) ∨ !fpFinite (le32 p 76) then some .badDist
    else none
  | _ => none

/-- Points 1 and 2 of R339, for a packet whose LEN slots have been read: the first reason that applies. `strips` is
STRIPS and `cEff` the width that ACR_WIDTH reads (R71). -/
def fetchReason (strips cEff : Nat) (p : List Byte) : Option Reason :=
  let op := pkOpcode p
  if pkLen p = 0 ∨ pkLen p > 16 then some .badLength
  else match opLen op with
    | none => some .badOpcode
    | some n =>
      if !resvZero op (p.take (if op = opNop then 1024 else 64 * n)) then some .reservedNonzero
      else if op ≠ opNop ∧ pkLen p ≠ n then some .badLength
      else if !addrAligned op p then some .badAddr
      else match if isAcreOp op then computeRange op strips cEff p else none with
        | some r => some r
        | none => ownRange op p

/-! ### Completion records (R316) -/

/-- The header of a completion record. -/
structure CplHeader where
  opcode : Nat
  reason : Nat
  ring : Nat
  intSat : Bool
  intWrap : Bool
  preempted : Bool
  sigSkipped : Bool
  phase : Bool
  seq : U32
  userTag : U64
  tDone : Time
  cycles : Nat
  charge : Nat
  deriving DecidableEq, Repr, Inhabited

/-- A Boolean as a bit of weight `w`. -/
def flagBit (b : Bool) (w : Nat) : Nat := if b then w else 0

/-- A count saturated at the largest U32 (R60, R408). -/
def sat32 (n : Nat) : Nat := min n 0xFFFFFFFF

/-- The 128 bytes of a completion record with body `b` from offset 32 (R316). PHASE_CYCLES wraps or saturates by the
caller; CHARGE_UJ saturates (R408). -/
def cplBytes (h : CplHeader) (b : List Byte) : List Byte :=
  padTo 128 (leBytes 1 h.opcode ++ leBytes 1 h.reason ++ leBytes 1 (h.ring % 64)
    ++ leBytes 1 (flagBit h.intSat 1 + flagBit h.intWrap 2 + flagBit h.preempted 4 + flagBit h.sigSkipped 8 + flagBit h.phase 128)
    ++ leBytes 4 h.seq.toNat ++ leBytes 8 h.userTag.toNat ++ leBytes 8 h.tDone.toNat ++ leBytes 4 h.cycles
    ++ leBytes 4 (sat32 h.charge) ++ padTo 96 b)

/-- A body of 96 bytes, offsets 32 to 127 of the record, from (offset in the record, size, value) (R316). -/
def cplBody (fs : List (Nat × Nat × Nat)) : List Byte := fs.foldl (fun b f => putLe b (f.1 - 32) f.2.1 f.2.2) (zeros 96)

/-- A U16 count saturated at 65,535 (R60). -/
def sat16 (n : Nat) : Nat := min n 0xFFFF

/-- A U32 output under INT_MODE (R59): the value, whether it saturated, whether it wrapped. -/
def intOut (mode n : Nat) : Nat × Bool × Bool :=
  if n < 2 ^ 32 then (n, false, false)
  else if mode = 0 then (2 ^ 32 - 1, true, false) else (n % 2 ^ 32, false, true)

end Sys2Proof.Machine
end

