-- ==== Sys2Proof/Machine/Ops.lean ====
section
/-! DEFINITION. The named operations over the state: what a step keeps, when the block runs, its tables, its counters,
the lotteries, and the traffic of the movers up to the ports. -/

namespace Sys2Proof.Machine

/-- The three outcomes of a meaning. -/
abbrev Out := Host.Outcome State Fault Refusal

/-- The frame of every row: no step changes the commands that wait or the build, and only a row that brings the answer
of a transfer changes memory (R372, R373; log 4). -/
def State.keep (s t : State) : State := { t with pending := s.pending, build := s.build, mem := s.mem }

/-- The frame of a row that brings the answer of a transfer: as `keep`, with memory `m`. -/
def State.keepMem (s : State) (m : List Host.Cell) (t : State) : State :=
  { t with pending := s.pending, build := s.build, mem := m }

/-! ### When the block runs -/

/-- Powered, out of reset, and in operation (R369, R402, R403). -/
def State.powered (s : State) : Bool := !s.pins.rstLow && !s.outOfOp

/-- As `powered`, and not HELD: a HELD block answers reads and ignores everything else (R421). -/
def State.awake (s : State) : Bool := s.powered && !s.energy.heldFlag

/-- READY (R452). -/
def State.running (s : State) : Bool := s.awake && s.boot.ready

/-- Halted under R430. -/
def State.halted (s : State) : Bool := s.flt.ledgerLost || s.flt.fwLost

/-- Takes new work: READY, not halted, not in the power-fail hold, and no detached secondary that holds (R420, R430,
R448). -/
def State.working (s : State) : Bool := s.running && !s.halted && !s.energy.pfail && !s.pair.holding

/-- Function n, as fn_rst_n numbers it, is in reset (R432). -/
def State.fnReset (s : State) (n : Nat) : Bool := s.flt.inReset.getLsbD n

/-! ### Tables -/

/-- Ring n. -/
def State.ring (s : State) (n : Nat) : Ring := tblGet ringReset s.rings n

/-- Changes ring n. -/
def State.modRing (s : State) (n : Nat) (f : Ring → Ring) : State := { s with rings := tblModify ringReset s.rings n f }

/-- Port k. -/
def State.port (s : State) (k : Nat) : Port := tblGet portReset s.ports k

/-- Changes port k. -/
def State.modPort (s : State) (k : Nat) (f : Port → Port) : State := { s with ports := tblModify portReset s.ports k f }

/-- Gate g (R321). -/
def State.gate (s : State) (g : Nat) : U32 := tblGet 0 s.gates g

/-- Field f. -/
def State.field (s : State) (f : Nat) : Field := tblGet fieldReset s.fields f

/-- Changes field f. -/
def State.modField (s : State) (f : Nat) (g : Field → Field) : State := { s with fields := tblModify fieldReset s.fields f g }

/-- Strip n. -/
def State.strip (s : State) (n : Nat) : Strip := tblGet stripReset s.strips n

/-- Changes strip n. -/
def State.modStrip (s : State) (n : Nat) (f : Strip → Strip) : State := { s with strips := tblModify stripReset s.strips n f }

/-- Tenant n. -/
def State.tenant (s : State) (n : Nat) : Tenant := tblGet tenantReset s.tenants n

/-- Changes tenant n. -/
def State.modTenant (s : State) (n : Nat) (f : Tenant → Tenant) : State :=
  { s with tenants := tblModify tenantReset s.tenants n f }

/-! ### Commands -/

/-- The command of ring `r` with SEQ `q`; one that has not ended comes before one whose record waits. -/
def State.cmd (s : State) (r : Nat) (q : U32) : Option Cmd :=
  match s.cmds.find? (fun c => c.ring == r && c.seq == q && c.stage != .finished) with
  | some c => some c
  | none => s.cmds.find? (fun c => c.ring == r && c.seq == q)

/-- Replaces the command with `c`'s fetch order. -/
def State.setCmd (s : State) (c : Cmd) : State := { s with cmds := s.cmds.map fun d => if d.order = c.order then c else d }

/-- Changes the command of ring `r` with SEQ `q`. -/
def State.modCmd (s : State) (r : Nat) (q : U32) (f : Cmd → Cmd) : State :=
  match s.cmd r q with
  | some c => s.setCmd (f c)
  | none => s

/-- INFLIGHT of ring `r` (R334). -/
def State.inflight (s : State) (r : Nat) : Nat := (s.cmds.filter fun c => c.ring == r).length

/-- The packet of ring `r` at step 4 or 5 of its life: a ring has at most one (R313). -/
def State.waiting (s : State) (r : Nat) : Option Cmd :=
  s.cmds.find? fun c => c.ring == r && c.disp.isNone && c.stage != .finished

/-- A command that has been dispatched and has not ended. -/
def Cmd.active (c : Cmd) : Bool := c.disp.isSome && c.stage != .finished

/-- The dispatch order, 0 before dispatch. -/
def Cmd.dispOrder (c : Cmd) : Nat := c.disp.getD 0

/-- Inserts by dispatch order. -/
def insertByDisp (c : Cmd) : List Cmd → List Cmd
  | [] => [c]
  | d :: t => if c.dispOrder < d.dispOrder then c :: d :: t else d :: insertByDisp c t

/-- The active commands in dispatch order. -/
def State.activeCmds (s : State) : List Cmd := (s.cmds.filter Cmd.active).foldr insertByDisp []

/-- The class of a command: 0 generation, 1 prompt, 2 training (R300, R336); 3 control. -/
def classOf (op : Nat) (p : List Byte) : Nat :=
  if op = opSample then (if pkPrompt p then 1 else 0)
  else if op = opVerify ∨ op = opMerge then 0
  else if op = opHeadFwd then 1
  else if op = opLoadHead ∨ op = opTrain ∨ op = opUpdate ∨ op = opSowFill then 2
  else 3

/-- The class of a command in service. -/
def Cmd.cls (c : Cmd) : Nat := classOf c.op c.run

/-! ### Counters, events and interrupts -/

/-- Adds to performance counter n, from READY on (R479; the counters wrap, R60). -/
def State.perfAdd (s : State) (n k : Nat) : State :=
  if s.boot.ready && k != 0 then
    { s with perf := { s.perf with counters := tblModify 0 s.perf.counters n (· + BitVec.ofNat 64 k) } }
  else s

/-- ACRE cycles that a tile or the close of a compute phase counts: PERF_ACRE_PHASE takes them out of the cycles that the
clock has run (R480). -/
def State.phaseCycles (s : State) (k : Nat) : State :=
  let s := s.perfAdd 0 k
  if s.boot.ready then { s with perf := { s.perf with acrePool := s.perf.acrePool - k } } else s

/-- A compute phase is cut off inside a tile: the cycles that the tile has run stay in PERF_ACRE_PHASE (R480). -/
def State.flushPhase (s : State) : State :=
  let k := s.perf.acrePool.toNat
  match s.acre.run with
  | some (r, q) => (s.modCmd r q fun c => { c with cycles := c.cycles + k }).phaseCycles k
  | none => s

/-- Adds `k` events of class `c` to a list of counts. -/
def evAdd (t : Tbl Nat) (c k : Nat) : Tbl Nat := tblModify 0 t c (· + k)

/-- Charges `k` events of class `c` to BG (R406). -/
def State.bgEvent (s : State) (c k : Nat) : State :=
  { s with energy := { s.energy with bgEvents := evAdd s.energy.bgEvents c k } }

/-- Charges events to a command. -/
def Cmd.event (d : Cmd) (c k : Nat) : Cmd := { d with events := evAdd d.events c k }

/-- Charges events to the command of ring `r` with SEQ `q`; to BG when there is none, or when its account has been converted,
as for the beats of its own record (R406, R408; log 13). -/
def State.event (s : State) (r : Nat) (q : U32) (c k : Nat) : State :=
  match s.cmd r q with
  | some d => if d.stage = .finished then s.bgEvent c k else s.setCmd (d.event c k)
  | none => s.bgEvent c k

/-- Charges events of a transfer to the command that it serves; probes and the power-fail hold serve none (R406). -/
def State.charge (s : State) (g : Range) (c k : Nat) : State :=
  if g.kind = .probe ∨ g.kind = .pfail then s.bgEvent c k else s.event g.ring g.seq c k

/-- Sets PEND of source i (R429). -/
def State.raise (s : State) (i : Nat) : State :=
  { s with flt := { s.flt with pend := s.flt.pend ||| BitVec.ofNat 10 (2 ^ i) } }

/-- Counts a CORRECTED fault; every 2^16th raises source 0 (R429). -/
def State.corrected (s : State) (n : Nat) : State :=
  let c := s.flt.corrected + n
  let s := { s with flt := { s.flt with corrected := c % 2 ^ 16 } }
  if c ≥ 2 ^ 16 then s.raise 0 else s

/-- Records an uncorrectable error in FLT_UE_INFO when VALID is 0 (R450). -/
def State.ueInfo (s : State) (region word : Nat) : State :=
  if s.flt.ueValid then s
  else { s with flt := { s.flt with ueValid := true, ueRegion := region, ueWord := BitVec.ofNat 25 word } }

/-- Adds two U32 counts modulo 2^32, and tells whether the sum left the range. -/
def add32 (a : U32) (n : Nat) : U32 := a + BitVec.ofNat 32 n

/-! ### The passage of time (R399, R479, R480) -/

/-- A fill-class command is deferred (R415). -/
def Cmd.isDeferred (c : Cmd) : Bool := c.deferred && c.active

/-- A ring has a packet in its wait stage. -/
def Cmd.inWait (c : Cmd) : Bool := c.stage == .waiting && c.disp.isNone

/-- Twentieths of an ACRE cycle in a nanosecond: 700 MHz, half of it while CLK_HALF = 1, none while PLL A or the Acre is
stopped (R420, R430, R480). -/
def State.acreRate (s : State) : Nat :=
  if !s.boot.ready || s.halted || s.energy.heldFlag then 0 else if s.acre.clkHalf then 7 else 14

/-- A compute phase counts: its command is on the Acre and its next tile is not held (R315). -/
def State.phaseCounts (s : State) : Bool :=
  !s.fnReset 0 && !s.acre.held && (match s.acre.run with
    | some (r, q) => (match s.cmd r q with
      | some c => c.work.begun && !c.work.ended
      | none => false)
    | none => false)

/-- `n` ACRE cycles have run: those of a compute phase wait for its tiles to count them, every other falls to
PERF_ACRE_RESET, PERF_ACRE_HELD or PERF_ACRE_IDLE (R479, R480). -/
def State.acreRuns (s : State) (n : Nat) : State :=
  let left := s.perf.acrePool + n
  if s.phaseCounts then { s with perf := { s.perf with acrePool := left } }
  else
    let s := s.perfAdd (if s.fnReset 0 then 2 else if s.acre.held then 1 else 3) left.toNat
    { s with perf := { s.perf with acrePool := min left 0 } }

/-- The microseconds of TIME_NS that the interval from `a` to before `b` touches, those before `done` left out. -/
def newMicros (a b done : Nat) : Nat := if a < b then (b - 1) / 1000 + 1 - max (a / 1000) done else 0

/-- What the passage of TIME_NS up to `now` counts (R479, R480). -/
def State.passTime (s : State) (now : Time) : State :=
  let a := s.timeNs.toNat
  let b := now.toNat
  let run := s.perf.acreFrac + (b - a) * s.acreRate
  let s := ({ s with perf := { s.perf with acreFrac := run % 20 } }).acreRuns (run / 20)
  let s := if s.cmds.any Cmd.isDeferred then
    let n := newMicros a b s.perf.deferTo
    { s.perfAdd 19 n with perf := { (s.perfAdd 19 n).perf with deferTo := max s.perf.deferTo ((b + 999) / 1000) } } else s
  if s.cmds.any Cmd.inWait then
    let n := newMicros a b s.perf.waitTo
    { s.perfAdd 20 n with perf := { (s.perfAdd 20 n).perf with waitTo := max s.perf.waitTo ((b + 999) / 1000) } } else s

/-- Takes the value of time_ns at the step: TIME_NS never falls (R399). -/
def State.at (s : State) (now : Time) : State :=
  if s.timeNs ≤ now then { (if s.boot.ready then s.passTime now else s) with timeNs := now } else s

/-- The ledger tick that holds time `t` (R407). -/
def tickOf (t : Time) : Nat := t.toNat / 1000

/-! ### The lotteries (R328, R329, R384) -/

/-- One cycle of a lottery's shift register (R328). -/
def lotStep (l : U32) : U32 := if l.getLsbD 0 then (l >>> 1) ^^^ 0x80200003#32 else l >>> 1

/-- `n` cycles of the shift register. -/
def lotAdvance : Nat → U32 → U32
  | 0, l => l
  | n + 1, l => lotAdvance n (lotStep l)

/-- TICKETS of a ticket word (R335). -/
def tktTickets (w : U32) : Nat := bitField w.toNat 7 0
/-- STEP. -/
def tktStep (w : U32) : Nat := bitField w.toNat 11 8
/-- BURST = BURST_M1 + 1. -/
def tktBurst (w : U32) : Nat := bitField w.toNat 17 14 + 1
/-- CAP. -/
def tktCap (w : U32) : Nat := bitField w.toNat 31 22

/-- The effective ticket count: TICKETS + STEP × LOSSES, limited to max(CAP, TICKETS) (R328). -/
def effTickets (w : U32) (losses : Nat) : Nat :=
  min (tktTickets w + tktStep w * losses) (max (tktCap w) (tktTickets w))

/-- The requester whose interval holds x, the intervals end to end in ascending number (R329). -/
def lotPick : Nat → List (Nat × Nat) → Option Nat
  | _, [] => none
  | x, (n, t) :: r => if x < t then some n else lotPick (x - t) r

/-- The draw of R329 over (number, effective tickets) in ascending number. -/
def lotDraw (l : U32) (rs : List (Nat × Nat)) : Option Nat :=
  let total := (rs.map Prod.snd).sum
  if total = 0 then (rs.map Prod.fst).head? else lotPick ((l.toNat / 2 ^ 16) * total / 2 ^ 16) rs

/-! ### Mover traffic (R383, R483) -/

/-- The mover that carries a traffic (R383); stream-fed staging goes by the parity of the swath. The two boot reads go
by the FW mover (log 12). -/
def moverOf (k : Traffic) (idx : Nat) : Nat :=
  match k with
  | .fetch | .cpl => 0
  | .hidden | .fuse => 1
  | .bias | .ranges | .bitmap => 2
  | .result | .vrec | .loss | .stats | .logits => 3
  | .dh => 4
  | .dzWrite | .dzRead => 5
  | .dwWrite | .dwRead | .gRead | .gWrite => 6
  | .stage => if idx % 2 = 0 then 7 else 8
  | .loadSrc => 9
  | .updRead => 10
  | .updWrite => 11
  | .fill => 12
  | .ctxWrite | .ctxRead | .pfail => 13
  | .firmware | .coef | .desc | .nodes | .targets | .stripList | .param | .bootFw | .probe => 14
  | .stripRead | .stripWrite => 15

/-- The function that masks mover m while in reset (R383). -/
def moverFn : Nat → Nat
  | 0 => 4
  | 1 => 2
  | 2 => 1
  | 3 => 1
  | 4 => 0
  | 5 => 1
  | 6 => 0
  | 7 => 0
  | 8 => 0
  | 9 => 2
  | 10 => 2
  | 11 => 2
  | 12 => 2
  | _ => 4

/-- Queues a range behind the ranges of its mover; a range of no bytes is no traffic. -/
def State.ask (s : State) (r : Range) : State := if r.len = 0 then s else { s with queue := s.queue ++ [r] }

/-- Queues a read of `len` bytes at `addr` for a command. -/
def State.askRead (s : State) (k : Traffic) (ring : Nat) (seq : U32) (idx addr len : Nat) : State :=
  s.ask ⟨moverOf k idx, false, addrWrap addr, len, [], ring, seq, k, idx, 0⟩

/-- Queues a write of `data` at `addr` for a command. -/
def State.askWrite (s : State) (k : Traffic) (ring : Nat) (seq : U32) (idx addr : Nat) (data : List Byte) : State :=
  s.ask ⟨moverOf k idx, true, addrWrap addr, data.length, data, ring, seq, k, idx, 0⟩

/-- The ranges at hand: waiting at a mover, outstanding on a port, or waiting for a port's drain. -/
def State.ranges (s : State) : List Range := s.queue ++ s.xfers.map (·.range) ++ s.drainWait.map (·.range)

/-- Traffic of the given kind is still open for a command. -/
def State.open (s : State) (r : Nat) (q : U32) (k : Traffic) : Bool :=
  s.ranges.any fun g => g.ring == r && g.seq == q && g.kind == k

/-- As `open`, for one unit of the traffic. -/
def State.openIdx (s : State) (r : Nat) (q : U32) (k : Traffic) (i : Nat) : Bool :=
  s.ranges.any fun g => g.ring == r && g.seq == q && g.kind == k && g.idx == i

/-- A memory write of the command is still open (R376); its completion record does not count. -/
def State.writesOpen (s : State) (r : Nat) (q : U32) : Bool :=
  s.ranges.any fun g => g.ring == r && g.seq == q && g.write && g.kind != .cpl

/-- Bytes of drained values bound for memory that no port has taken yet (R392). -/
def State.drainedQueued (s : State) : Nat :=
  ((s.queue.filter fun g => g.kind == .logits || g.kind == .dh || g.kind == .dzWrite || g.kind == .dwWrite).map Range.len).sum

/-- A segment of the command stands behind the end of an output queue with `room` bytes left (R392). -/
def segsWait (r : Nat) (q : U32) : Nat → List Segment → Bool
  | _, [] => false
  | room, g :: t =>
    if g.data.length ≤ room then segsWait r q (room - g.data.length) t else (g :: t).any fun e => e.ring == r && e.seq == q

/-- A segment of the command has not entered the 8 MiB of the output queue yet (R380, R392). -/
def State.segmentsWait (s : State) (r : Nat) (q : U32) : Bool := segsWait r q (2 ^ 23 - s.drainedQueued) s.streams.queue

/-- Takes the command's waiting ranges from the movers; transfers already issued run on. -/
def State.dropQueued (s : State) (r : Nat) (q : U32) : State :=
  { s with queue := s.queue.filter fun g => !(g.ring == r && g.seq == q) || g.kind == .cpl }

/-- Takes only the command's waiting reads from the movers. -/
def State.dropReads (s : State) (r : Nat) (q : U32) : State :=
  { s with queue := s.queue.filter fun g => !(g.ring == r && g.seq == q) || g.write }

/-- `n` bytes of memory. -/
def State.bytes (s : State) (a n : Nat) : List Byte := memBytes s.mem a n

/-! ### Ports in service and steering (R378) -/

/-- Transfers outstanding on port k. -/
def State.outstanding (s : State) (k : Nat) : Nat := (s.xfers.filter fun x => x.port == k).length

/-- An output outside the wrapper's WS_SAFE and block reset, which hold every output at its reset value (R369, R403). -/
def State.driving (s : State) : Bool := !s.pins.rstLow && !s.pins.outputsOff

/-- stk_k_up: a halted or HELD block drives it low once nothing is outstanding (R420, R430). -/
def State.portUp (s : State) (k : Nat) : Bool :=
  s.driving && (s.port k).up && !((s.halted || s.energy.heldFlag) && s.xfers.isEmpty)

/-- What a halted block still moves: the writes of commits that have begun, and no completion record (R430). -/
def State.haltKeeps (s : State) (g : Range) : Bool :=
  g.kind != .cpl && (match s.cmd g.ring g.seq with
    | some c => c.stage == .committing && c.commit
    | none => false)

/-- Port k is in service (R378). -/
def State.inService (s : State) (k : Nat) : Bool :=
  let p := s.port k
  decide (k < stackPorts s.build) && p.up && !p.oos && (p.reqCrd != 0 || s.outstanding k != 0)

/-- The steering entry that an address matches (R378). -/
def steerMatch (e : Steer) (a : Nat) : Bool := e.en && e.base.toNat / 2 ^ e.log2Size == a / 2 ^ e.log2Size

/-- The port of a transfer at address `a` (R378); none while no port is in service. -/
def State.steerPort (s : State) (a : Nat) : Option Nat :=
  let serving := (List.range (stackPorts s.build)).filter fun k => s.inService k
  let pick (ks : List Nat) (il : Nat) : Option Nat := ks[a / 2 ^ il % ks.length]?
  match (List.range 64).find? fun n => steerMatch (tblGet steerReset s.steer n) a with
  | none => pick serving 12
  | some n =>
    let e := tblGet steerReset s.steer n
    let ks := serving.filter fun k => decide (e.first ≤ k) && decide (k < e.first + e.count)
    if ks.isEmpty then pick serving 12 else pick ks e.log2Il

/-- A mover is masked while its function is in reset, or by its power-state pin (R383, R386). -/
def State.moverMasked (s : State) (m : Nat) : Bool := s.fnReset (moverFn m) || s.pins.mvrLow.getLsbD m

/-- Bytes `o` to `o + n - 1` of a range. -/
def Range.part (r : Range) (o n : Nat) : Range := { r with addr := addrWrap (r.addr + o), len := n, data := (r.data.drop o).take n }

/-- The transfers of a range, ascending: one for each aligned 4,096-byte block that it touches (R483). -/
def Range.pieces (r : Range) : List Range :=
  let o := r.addr % 4096
  (List.range ((o + r.len + 4095) / 4096)).map fun i => r.part (4096 * i - o) (min (o + r.len) (4096 * (i + 1)) - max o (4096 * i))

/-- A transfer in 64-byte units (R371, R483): the bytes of the range it carries, its address and its size. -/
def firstTransfer (r : Range) : Nat × Nat × Nat :=
  let n := min r.len (4096 - r.addr % 4096)
  let a := r.addr / 64 * 64
  (n, a, (r.addr + n + 63) / 64 * 64 - a)

/-- The beats of a transfer (R371). -/
def beatCount (a l : Nat) : Nat := (a + l - 1) / 512 - a / 512 + 1

/-- The transfer with which mover m requests port k: the first of its waiting ones that R378 steers there (R384). -/
def State.moverPiece (s : State) (m k : Nat) : Option Range :=
  if s.moverMasked m then none
  else (((s.queue.filter fun r => r.mover == m).map Range.pieces).flatten).find? fun r => s.steerPort (firstTransfer r).2.1 == some k

end Sys2Proof.Machine
end

