-- ==== Sys2Proof/Machine/Bodies.lean ====
section
/-! DEFINITION. The bodies of the completion records (13_command_reference.md R351, R352, R355 to R368, R484) and the
result records of strip-steps (11_strips_tenants_deadlines.md R298, R299). -/

namespace Sys2Proof.Machine

/-- A body as placed fields, with the flags that its U32 outputs raise under INT_MODE (R59). -/
structure Body where
  fields : List (Nat × Nat × Nat)
  intSat : Bool
  intWrap : Bool
  deriving DecidableEq, Repr, Inhabited

/-- Adds a U32 integer output under INT_MODE (R59). -/
def bodyU32 (mode off n : Nat) (b : Body) : Body :=
  let (v, sat, wrap) := intOut mode n
  ⟨(off, 4, v) :: b.fields, b.intSat || sat, b.intWrap || wrap⟩

/-- The common body of the four Acre commands (R80, R136, R351). PASSES counts the column passes that have ended, and F and
C_eff are those of a compute phase that has begun (R484; log 77). -/
def commonBody (mode : Nat) (w : Work) : Body :=
  let k := w.counts
  bodyU32 mode 56 k.gleanCycles
    ⟨[(32, 2, sat16 k.scaleCap), (34, 2, sat16 k.satElems), (36, 2, sat16 k.uflElems), (38, 2, sat16 k.nonfinite),
      (40, 2, sat16 k.satTiles), (42, 2, sat16 k.narrowTiles), (44, 4, min 0xFFFFF (k.satFirst.getD 0xFFFFF)),
      (48, 2, sat16 k.stones), (50, 2, sat16 k.stoneDrop), (52, 2, sat16 k.gleanTiles), (54, 2, sat16 k.fp8Tiles),
      (60, 2, sat16 k.shedTiles),
      (62, 2, flagBit (k.gleanTiles != 0 || k.fp8Tiles != 0) 1 + flagBit k.boundExceeded 2 + flagBit k.narrowMismatch 4),
      (64, 2, sat16 w.pass), (66, 1, w.f), (68, 2, if w.f = 0 then 0 else w.cEff)], false, false⟩

/-! ### Result records -/

/-- Reasons of a result record (R299). -/
inductive StepReason where
  | ok | budget | lateDrop | allBanned | badScoreParam | badBias | badHedge | badSelectParam | sheafShort | badTree
  | stripEmpty | dupStrip | posEnd | eccFault | failedPart | abortedReset | imageFault
  deriving DecidableEq, Repr, Inhabited

/-- The codes of R299. -/
def stepCode : StepReason → Nat
  | .ok => 0x00
  | .budget => 0x01
  | .lateDrop => 0x02
  | .allBanned => 0x03
  | .badScoreParam => 0x04
  | .badBias => 0x05
  | .badHedge => 0x06
  | .badSelectParam => 0x07
  | .sheafShort => 0x08
  | .badTree => 0x09
  | .stripEmpty => 0x0A
  | .dupStrip => 0x0B
  | .posEnd => 0x0C
  | .eccFault => 0x10
  | .failedPart => 0x11
  | .abortedReset => 0x12
  | .imageFault => 0x13

/-- Flags of RFLAGS (R298). -/
def rfLate : U32 := 1#32
/-- NARROW. -/
def rfNarrow : U32 := 2#32
/-- STONE_DROPPED. -/
def rfStoneDropped : U32 := 4#32
/-- STONE_OFF. -/
def rfStoneOff : U32 := 8#32
/-- SCORE_SAT. -/
def rfScoreSat : U32 := 0x10#32
/-- NUCLEUS_TRUNC. -/
def rfTrunc : U32 := 0x20#32
/-- LEDGER_FULL. -/
def rfLedgerFull : U32 := 0x40#32
/-- FOLLOWER. -/
def rfFollower : U32 := 0x80#32
/-- HEDGE_STOP. -/
def rfHedgeStop : U32 := 0x100#32
/-- BUDGET_CAP. -/
def rfBudgetCap : U32 := 0x200#32
/-- SCALE_SHIFT. -/
def rfScaleShift : U32 := 0x400#32
/-- FIRST. -/
def rfFirst : U32 := 0x800#32
/-- INT_SAT. -/
def rfIntSat : U32 := 0x1000#32
/-- INT_WRAP. -/
def rfIntWrap : U32 := 0x2000#32

/-- RFLAGS holds flag `f`. -/
def hasFlag (flags f : U32) : Bool := flags &&& f != 0

/-- The result record of a strip-step (R298). `pos` is the position the record gives, `sel` is none but for reason
OK, `accepted` and `emitted` as R275. A STRIP_EMPTY record writes DEADLINE 0, also where the strip's left-over record would give a
time: R298 names only TENANT and HOST_TAG (DESIGN CHOICE, log 55). -/
def resultBytes (p : StripStep) (pos : U32) (sel : Option Selection) (token accepted emitted : Nat) (lp : F32) : List Byte :=
  let alts := (sel.map Selection.alts).getD []
  let empty := p.reason = stepCode .stripEmpty
  padTo 256 (leBytes 1 p.reason ++ leBytes 1 alts.length ++ leBytes 2 p.strip
    ++ leBytes 4 (if p.reason = 0 then p.flags.toNat else (p.flags &&& rfFollower).toNat)
    ++ leBytes 8 (if empty then 0 else p.hostTag.toNat) ++ leBytes 4 token ++ leBytes 4 lp.toNat ++ leBytes 4 pos.toNat
    ++ leBytes 2 ((sel.map Selection.survivors).getD 0) ++ leBytes 1 accepted ++ leBytes 1 emitted
    ++ leBytes 8 p.time.toNat ++ leBytes 8 (if empty then 0 else p.deadline.toNat) ++ leBytes 2 p.idx
    ++ leBytes 1 (if empty then 0 else p.tenant) ++ zeros 5
    ++ padTo 80 (alts.map fun a => leBytes 4 a.1).flatten ++ padTo 80 (alts.map fun a => leBytes 4 a.2.toNat).flatten)

/-! ### Bodies by opcode -/

/-- SAMPLE_STEP and VERIFY_TREE (R352). A strip-step counts by the reason of its record. -/
def stepBody (mode : Nat) (w : Work) (b : Body) : Body :=
  let n (f : StripStep → Bool) := (w.steps.filter f).length
  let ok (p : StripStep) := p.reason == 0 && p.committed
  bodyU32 mode 76 ((w.steps.filter ok).map StripStep.emitted).sum
    { b with fields := b.fields ++ [(72, 2, sat16 w.steps.length), (74, 2, sat16 (n ok)), (80, 2, sat16 (n (·.reason == 1))),
        (82, 2, sat16 (n fun p => ok p && hasFlag p.flags rfLate)), (84, 2, sat16 (n fun p => ok p && hasFlag p.flags rfTrunc)),
        (86, 2, sat16 (n fun p => !ok p && p.reason != 1))] }

/-- TRAIN_STEP (R192, R352); the summaries are +0 unless the command completes with OK (R484). -/
def trainBody (mode : Nat) (ok : Bool) (w : Work) (b : Body) : Body :=
  let t := w.train
  let loss := mvResult t.lossStats
  let logit := mvResult t.logitStats
  let f (x : F32) : Nat := if ok then x.toNat else 0
  let b := bodyU32 mode 72 (t.targets.filter fun g => !g.2).length b
  let b := bodyU32 mode 100 t.dzSat b
  let b := bodyU32 mode 104 t.dzUfl b
  { b with fields := b.fields ++ [(76, 4, f loss.1), (80, 4, f loss.2), (84, 4, f logit.1), (88, 4, f logit.2),
      (92, 4, f t.logitMax), (96, 4, f (sqRoot t.dhSq)), (108, 2, sat16 t.fp8Dh), (110, 2, sat16 t.dhValid),
      (112, 2, sat16 t.gDone)] }

/-- UPDATE (R193, R356). -/
def updateBody (p : List Byte) (w : Work) : Body :=
  let k := w.counts
  let u := w.fill
  ⟨[(32, 2, sat16 k.scaleCap), (34, 2, sat16 k.satElems), (36, 2, sat16 k.uflElems), (38, 2, sat16 k.nonfinite),
    (40, 4, u.done), (44, 4, u.amax.toNat), (48, 4, u.gradSqsum.toNat), (52, 4, u.factor.toNat),
    (56, 4, (sqRoot u.updSq).toNat), (60, 4, (sqRoot u.wSq).toNat), (64, 1, flagBit (u.factor != le32 p 140) 1)], false, false⟩

/-- LOAD_HEAD (R355). -/
def loadBody (f : Field) (w : Work) : Body :=
  let k := w.counts
  ⟨[(32, 2, sat16 k.scaleCap), (34, 2, sat16 k.satElems), (36, 2, sat16 k.uflElems), (38, 2, sat16 k.nonfinite),
    (40, 2, f.base), (42, 2, f.units), (44, 1, (f.eRow % 256).toNat), (45, 1, flagBit f.stream 1), (48, 4, f.amax.toNat)],
    false, false⟩

/-- What each token of a sharded command came to, in command order: its token id, 0 where it emits none, and its reason
code (R254). A HEAD_FWD emits no token. -/
def Cmd.tokenEnds (c : Cmd) : List (Nat × Nat) :=
  if c.op = opHeadFwd then c.work.merge.codes.map fun r => (0, r)
  else c.work.steps.map fun p => (if p.reason = 0 then (p.sel.map Selection.token).getD 0 else 0, p.reason)

/-- The 8-byte words under MERGE_CRC: TOKEN, reason code and TOKEN_IDX (R254). -/
def mergeWords (es : List (Nat × Nat)) : List Byte :=
  ((List.range es.length).map fun i =>
    let (t, r) := es.getD i (0, 0)
    leBytes 8 (t % 2 ^ 20 + r * 2 ^ 24 + i % 2 ^ 16 * 2 ^ 32)).flatten

/-- SHARD_MERGE (R254, R360) over its sharded command `c`; MERGE_CRC is +0 unless the merge completed. -/
def mergeBody (ok : Bool) (c : Cmd) : Body :=
  let m := c.work.merge
  ⟨[(32, 4, if ok then (crc32c (mergeWords c.tokenEnds)).toNat else 0), (36, 4, c.work.tokens),
    (40, 4, (c.tokenEnds.filter fun e => e.2 != 0).length), (44, 4, m.sent1), (48, 4, m.sent2), (52, 4, m.recv1),
    (56, 4, m.recv2), (60, 4, c.seq.toNat), (64, 1, c.ring)], false, false⟩

/-- The body of a class command that passed every refusal point, at its end for reason `r` (R351, R352, R484). -/
def classBody (f : Field) (c : Cmd) (r : Reason) : Body :=
  let w := c.work
  let mode := pkIntMode c.run
  if c.op = opSample ∨ c.op = opVerify then stepBody mode w (commonBody mode w)
  else if c.op = opHeadFwd then
    let b := commonBody mode w
    { b with fields := b.fields ++ [(72, 8, w.outBytes)] }
  else if c.op = opTrain then trainBody mode (decide (r = .ok)) w (commonBody mode w)
  else if c.op = opUpdate then updateBody c.run w
  else if c.op = opLoadHead then loadBody f w
  else if c.op = opSowFill then ⟨[(32, 8, w.fill.done)], false, false⟩
  else ⟨[], false, false⟩

end Sys2Proof.Machine
end

