-- ==== Sys2Proof/Machine/Life.lean ====
section
/-! DEFINITION. The life of a command between its dispatch and its gate signal (12_rings_and_gates.md): gates and the
barrier (R321 to R327), the energy account (R406 to R408), how a command ends and what its end releases (R339, R379,
R433, R484), completion records (R316 to R319) and the pool (R119, R120). -/

namespace Sys2Proof.Machine

/-! ### Gates and the barrier -/

/-- A wait on value `w` is satisfied by gate value `v` (R321). -/
def gateSatisfied (v w : U32) : Bool := decide ((v - w).toNat < 2 ^ 31)

/-- Releases a packet in its wait stage whose wait gate `g` satisfies with its new value (R322). -/
def gateRelease (g : Nat) (v : U32) (c : Cmd) : Cmd :=
  if c.disp.isNone && c.stage == .waiting && !c.gateOk && pkWaitEn c.pkt && pkWaitGate c.pkt == g
      && gateSatisfied v (pkWaitValue c.pkt) then { c with gateOk := true, valueSeen := v } else c

/-- Adds to gate g and releases the waits that its new value satisfies (R321, R322). -/
def State.gateAdd (s : State) (g : Nat) (v : U32) : State :=
  let x := s.gate g + v
  { s with gates := tblSet 0 s.gates g x, cmds := s.cmds.map (gateRelease g x) }

/-- The packet that may join the barrier next: its gate wait is over and it asks for the barrier (R325). -/
def Cmd.joins (c : Cmd) : Bool :=
  c.disp.isNone && c.stage == .waiting && c.gateOk && pkBarrier c.pkt && !c.joined

/-- Steps 1 and 2 of R325: one packet at a time, and only while barrier_in is low. -/
def State.joinBarrier (s : State) : State :=
  if s.barrier.isSome || s.pins.barrierIn || !s.working then s
  else match s.cmds.find? Cmd.joins with
    | none => s
    | some c => { s with barrier := some c.ring, pins := { s.pins with barrierOut := true } }

/-- Takes ring `r` from the barrier and drives barrier_out low (R325, R327). -/
def State.leaveBarrier (s : State) (r : Nat) : State :=
  if s.barrier = some r then { s with barrier := none, pins := { s.pins with barrierOut := false } } else s

/-- The gate wait and the barrier of a packet are over (R313, R325). -/
def Cmd.released (c : Cmd) : Bool := c.disp.isNone && c.gateOk && (!pkBarrier c.pkt || c.joined)

/-! ### Energy accounts -/

/-- 1 µJ in the ledger's unit of 2^-12 fJ (R407, R408). -/
def ujUnit : Nat := 2 ^ 12 * 10 ^ 9

/-- The energy of counted events: the sum of n × COEF[c] × TRIM (R407). -/
def eventEnergy (coefs : Tbl U32) (trim : Nat) (ev : Tbl Nat) : Nat :=
  (ev.map fun e => e.2 * (tblGet 0 coefs e.1).toNat * trim).sum

/-- Accrues the events counted so far of a command's account, and S, G and the telemetry sum with it (R407, R411,
R412). -/
def State.accrue (s : State) (c : Cmd) : State × Cmd :=
  let e := eventEnergy s.energy.coefs s.energy.trim c.events
  ({ s with energy := { s.energy with
      spent := s.energy.spent + e
      genSpent := s.energy.genSpent + (if c.cls = 0 then e else 0)
      sampleAccrued := s.energy.sampleAccrued + e } },
    { c with acct := c.acct + e, events := [] })

/-- Converts a command's account through CARRY when its record is assembled; the events of the tick in progress are
accrued first, so that each is charged once (R408; log 13). -/
def State.convert (s : State) (c : Cmd) : State × Cmd :=
  let (s, c) := s.accrue c
  let total := s.energy.carry + c.acct
  let uj := total / ujUnit
  ({ s with energy := { s.energy with
      carry := total % ujUnit
      totCmd := s.energy.totCmd + BitVec.ofNat 64 uj
      totClass := if c.cls < 3 then tblModify 0 s.energy.totClass c.cls (· + BitVec.ofNat 64 uj) else s.energy.totClass } },
    { c with charge := uj })

/-! ### The end of a command -/

/-- Frees a Seedbed buffer that the command owns (R118). -/
def seedFree (r : Nat) (q : U32) (b : SeedBuf) : SeedBuf :=
  match b.owner with
  | some (r', q', _) => if r' = r ∧ q' = q then seedReset else b
  | none => b

/-- Takes the Acre and the Seedbed from a command that leaves its compute phase. -/
def State.freeAcre (s : State) (r : Nat) (q : U32) : State :=
  let mine := s.acre.run = some (r, q)
  { s with
    acre := if mine then { s.acre with run := none, held := false } else s.acre
    seed0 := seedFree r q s.seed0
    seed1 := seedFree r q s.seed1 }

/-- Ends a command: its record is assembled with reason `r` and body `b`, its account is converted, and it leaves the
barrier, the Acre and the Seedbed. It keeps its pool allocation until the record is written (R318, R408). -/
def State.finish (s : State) (c : Cmd) (r : Reason) (b : Body) : State :=
  let (s, c) := s.convert c
  let (cyc, sat, wrap) := intOut (pkIntMode c.pkt) c.cycles
  let s := if c.disp.isNone then s.leaveBarrier c.ring else s
  (s.setCmd { c with
    stage := .finished, reason := r, body := cplBody b.fields, cycles := cyc, tDone := s.timeNs
    intSat := c.intSat || b.intSat || sat, intWrap := c.intWrap || b.intWrap || wrap }).freeAcre c.ring c.seq

/-- An empty body: a command refused at a point of R339, and every control command without outputs. -/
def bodyZero : Body := ⟨[], false, false⟩

/-- Refuses or ends a command before any refusal point is passed: every body byte is zero (R352). A CTX_RESTORE gives up
its place in the order of the activation stream. -/
def State.refuse (s : State) (c : Cmd) (r : Reason) : State :=
  let s := if c.op = opCtxRestore then
    { s with streams := { s.streams with frames := s.streams.frames.filter fun e => !(e == (c.ring, c.seq)) } } else s
  (s.dropQueued c.ring c.seq).finish c r bodyZero

/-- The reason that a command's end gives its uncommitted strip-steps (R112, R379, R433, R482). -/
def stepReasonOf : Reason → StepReason
  | .abortedReset | .saved => .abortedReset
  | .granaryUe => .eccFault
  | .badScale | .badImage => .imageFault
  | _ => .failedPart

/-- Releases the reservation of a strip-step that ends without a token (R289). -/
def State.unreserve (s : State) (p : StripStep) : State :=
  if p.reserved = 0 then s
  else s.modTenant p.tenant fun t => { t with reserved := t.reserved - p.reserved }

/-- Ends the strip-steps of a command with reason `r`. `all` also replaces a reason already taken (R297, R379). -/
def failSteps (all : Bool) (r : StepReason) (ps : List StripStep) : List StripStep :=
  ps.map fun p => if p.committed || (!all && p.reason != 0) then p
    else { p with reason := stepCode r, sel := none, emitted := 0, reserved := 0 }

/-- The field effects of a fill command that ends early: LOAD_HEAD leaves its field EMPTY and frees its units, UPDATE
leaves it UPDATING with BROWS_DONE and AMAX_PART (R190, R379). -/
def State.fieldLeft (s : State) (c : Cmd) : State :=
  if c.op = opLoadHead ∧ c.started then s.modField (pkField c.run) fun _ => fieldReset
  else if c.op = opUpdate ∧ c.started ∧ !pktBit c.run 33 0 then
    s.modField (pkField c.run) fun f => if f.state = 2 ∨ f.state = 3 then
      { f with state := 3, leftOver := true, browsDone := c.work.fill.done, amaxPart := c.work.fill.amax } else f
  else s

/-- The elements of a SOW_FILL whose bytes lie below address `a` (R154, R379). -/
def elemsBelow (p : List Byte) (a : Nat) : Nat :=
  let off := (a + 2 ^ 64 - leNat p 48 8) % 2 ^ 64
  let dist := leNat p 32 1
  let n := if dist = 2 then 8 * off else if dist = 3 then off / 16 else if pktBit p 33 0 then off / 2 else off / 4
  min n (leNat p 64 8)

/-- The elements that a SOW_FILL has written: all before the first write that is still open (R358). -/
def State.fillCut (s : State) (c : Cmd) : Cmd :=
  if c.op = opSowFill then
    let n := s.ranges.foldl (fun n g => if g.ring == c.ring && g.seq == c.seq && g.kind == .fill then min n (elemsBelow c.run g.addr) else n)
      c.work.fill.asked
    { c with work := { c.work with fill := { c.work.fill with done := n } } }
  else c

/-- Ends a SHARD_MERGE that found its step: its record waits for the step's (R360). One that ends before its step does
frees the step for another merge. -/
def State.closeMerge (s : State) (m : Cmd) (r : Reason) : State :=
  match s.cmd m.work.merge.tgtRing m.work.merge.tgtSeq with
  | none => s.finish m r bodyZero
  | some c =>
    if c.work.merge.done ∨ c.stage = .committing ∨ c.stage = .finished then
      s.setCmd { m with stage := .committing, reason := r, work := { m.work with ended := true } }
    else
      (s.setCmd { c with work := { c.work with merge := { c.work.merge with active := false, round := 0 } } }).finish m r (mergeBody false c)

/-- A sharded command that has been dispatched (R257). -/
def Cmd.sharded (c : Cmd) : Bool := c.disp.isSome && isAcreOp c.op && pkShardEn c.run

/-- The SHARD_MERGE that has found command `c`. -/
def State.mergeOf (s : State) (c : Cmd) : Option Cmd :=
  s.cmds.find? fun m => m.op == opMerge && m.started && m.stage == .running
    && m.work.merge.tgtRing == c.ring && m.work.merge.tgtSeq == c.seq

/-- The reason of a SHARD_MERGE whose step ends early: with a reset's, else SHARD_FAILED (R360, R433; log 62). -/
def mergeEnd (r : Reason) : Reason := if r = .abortedReset then r else .shardFailed

/-- Ends the SHARD_MERGE of a step with the step. -/
def State.endMergeOf (s : State) (c : Cmd) (r : Reason) : State :=
  match s.mergeOf c with
  | some m => s.closeMerge m r
  | none => s

/-- The shard is the home of its group (R253): shard 0. -/
def Field.home (f : Field) : Bool := !f.shard || f.shardId == 0

/-- D of a strip, 0 where it has none (R292). -/
def deadlineOf (t : Strip) : Time :=
  if !t.firstDone then t.ttft
  else if t.itl = 0 then 0
  else BitVec.ofNat 64 (min (t.lastCommit.toNat + t.itl.toNat) (2 ^ 64 - 1))

/-- The strip-steps of a command that a reset ends before their check, as the strips stand (R284, R297). Of a list that has
not been read no strip is known (log 55). -/
def State.cutSteps (s : State) (c : Cmd) : List StripStep :=
  if (c.op = opSample ∨ c.op = opVerify) ∧ c.work.stripsKnown then
    (List.range c.work.strips.length).map fun i =>
      let w := c.work.strips.getD i 0
      let x := s.strip w
      { (default : StripStep) with
        strip := w % 4096, idx := i, tenant := x.tenant, hostTag := x.hostTag, deadline := deadlineOf x
        flags := if (s.field (pkField c.run)).home then 0 else rfFollower }
  else []

/-- The tokens of a sharded HEAD_FWD that ends early all fail (R254, R259). -/
def Cmd.failTokens (c : Cmd) (r : Reason) : Cmd :=
  if c.op = opHeadFwd ∧ pkShardEn c.run then
    { c with work := { c.work with merge := { c.work.merge with codes := List.replicate c.work.tokens (stepCode (stepReasonOf r)) } } }
  else c

/-- Ends a class command that has been dispatched and has not begun its commit, with reason `r`: a command with
admitted strip-steps still writes their records; every other ends at once (R297, R376, R379, R433, R484). The outputs of a
saved one run to their end (R87, R365). The SHARD_MERGE that has found a sharded command ends with it (R359, R360). -/
def State.endWork (s : State) (c : Cmd) (r : Reason) : State :=
  let c := (s.fillCut c).failTokens r
  let c := { c with work := { c.work with converting := false } }
  let s := if r = .saved then s.dropReads c.ring c.seq else s.dropQueued c.ring c.seq
  let s := s.fieldLeft c
  let steps := if r = .abortedReset ∧ c.work.steps.isEmpty then s.cutSteps c else c.work.steps
  if c.op = opMerge ∧ c.started then s.closeMerge c r
  else if !steps.isEmpty then
    let s := steps.foldl (fun s p => if p.committed then s else s.unreserve p) s
    let all := decide (r = .abortedReset) || decide (stepReasonOf r = .failedPart)
    ((s.setCmd { c with
      stage := .committing, reason := r
      work := { c.work with ended := true, steps := failSteps all (stepReasonOf r) steps } }).freeAcre c.ring c.seq).endMergeOf c (mergeEnd r)
  else (s.finish c r (if c.started then classBody (s.field (pkField c.run)) c r else bodyZero)).endMergeOf c (mergeEnd r)

/-- Ends any fetched, uncompleted packet that has not begun its commit (R320, R420, R433). -/
def State.endCmd (s : State) (c : Cmd) (r : Reason) : State :=
  if c.disp.isSome && isClassOp c.op then s.endWork c r else s.refuse c r

/-! ### Completion records -/

/-- The packet's signal is applied after its record (R319). -/
def Cmd.signals (c : Cmd) : Bool :=
  pkSigEn c.pkt && !(pkSigOkOnly c.pkt && c.reason != .ok)
    && !(c.reason == .badLength || c.reason == .badOpcode || c.reason == .reservedNonzero
      || c.reason == .gateTimeout || c.reason == .badGateOp)
    && !(c.raw == opGateSignal && c.disp.isSome)

/-- SIG_SKIPPED: SIG_EN = 1 and no signal was applied; a GATE_SIGNAL that was dispatched has applied its own (R316,
R361). -/
def Cmd.sigSkipped (c : Cmd) : Bool := pkSigEn c.pkt && !c.signals && !(c.raw == opGateSignal && c.disp.isSome && c.reason == .ok)

/-- PHASE of the record that would be written at CPL_TAIL (R316). -/
def cplPhase (g : Ring) : Bool := g.cplTail.toNat / 2 ^ g.log2Entries % 2 == 0

/-- The completion record of a command that has ended (R316). -/
def recordBytes (g : Ring) (c : Cmd) : List Byte :=
  cplBytes ⟨c.raw, reasonCode c.reason, c.ring, c.intSat, c.intWrap, c.preempted, c.sigSkipped, cplPhase g, c.seq, pkUserTag c.pkt,
    c.tDone, c.cycles, c.charge⟩ c.body

/-- The record as a digest takes it: T_DONE, PHASE_CYCLES, CHARGE_UJ and CFLAGS bits 2 and 7 zeroed (R445). -/
def digestRecord (c : Cmd) : List Byte :=
  cplBytes ⟨c.raw, reasonCode c.reason, c.ring, c.intSat, c.intWrap, false, c.sigSkipped, false, c.seq, pkUserTag c.pkt, 0, 0, 0⟩ c.body

/-- Inserts an output by array and address. -/
def insertOutput (o : Nat × Nat × List Byte) : List (Nat × Nat × List Byte) → List (Nat × Nat × List Byte)
  | [] => [o]
  | p :: t => if o.1 < p.1 ∨ (o.1 = p.1 ∧ o.2.1 < p.2.1) then o :: p :: t else p :: insertOutput o t

/-- The digest of an ended command: CRC-32C of its record and of its outputs, array by array in ascending address
order (R445). -/
def digestOf (c : Cmd) : U32 :=
  crc32c (digestRecord c ++ ((c.outputs.foldl (fun l o => insertOutput o l) []).map fun o => o.2.2).flatten)

/-- The block follows a primary as the secondary of a pair, or holds after the link went down (R443, R448). -/
def State.secondary (s : State) : Bool := s.pair.role && (s.pair.state == 2 || s.pair.holding)
/-- The block is the primary of a pair. -/
def State.primary (s : State) : Bool := s.pair.state == 2 && !s.pair.role

/-- Asks for a memory write of a command's output. A secondary writes nothing but its records: it holds result
records, verification records and STRIP_GET images, and keeps every output for its digest (R443, R445). `arr` orders
the output's array. -/
def State.output (s : State) (c : Cmd) (k : Traffic) (arr idx addr : Nat) (data : List Byte) : State :=
  let held := k == .result || k == .vrec || k == .stripWrite
  let g : Range := ⟨moverOf k idx, true, addrWrap addr, data.length, data, c.ring, c.seq, k, idx, 0⟩
  let s := if s.pair.state = 2 then s.modCmd c.ring c.seq fun c =>
      { c with outputs := (arr, addr, data) :: c.outputs
               heldWrites := if s.secondary && held then c.heldWrites ++ [g] else c.heldWrites } else s
  if s.secondary then s else s.ask g

/-- CPL_TAIL - CPL_HEAD has reached the ring's size (R309). -/
def cplFull (g : Ring) : Bool := (g.cplTail - g.cplHead).toNat == 2 ^ g.log2Entries

/-- The record of an ended command may be written: its writes have been answered, and on a secondary the primary's
digest has matched (R318, R376, R443). -/
def State.recordReady (s : State) (c : Cmd) : Bool :=
  c.stage == .finished && !c.recAsked && !s.writesOpen c.ring c.seq && (!s.secondary || c.matched)

/-- The records wait until the power-fail area is written (R420 step 6). -/
def State.areaOpen (s : State) : Bool :=
  s.energy.pfail && (!s.energy.pfailArea || s.ranges.any fun g => g.kind == .pfail)

/-- Hands the oldest record of ring `r` to the command mover, one at a time and in SEQ order, unless the completion
ring is full or the block is halted (R317, R318, R430). -/
def State.pumpRing (s : State) (r : Nat) : State :=
  let g := s.ring r
  match s.cmds.find? fun c => c.ring == r with
  | none => s
  | some c =>
    if s.recordReady c && !g.cplBusy && !cplFull g && !s.halted && !s.energy.heldFlag && !s.areaOpen then
      let s := s.setCmd { c with recAsked := true }
      let s := s.modRing r fun g => { g with cplBusy := true }
      s.askWrite .cpl r c.seq 0 (g.cplBase.toNat + 128 * (g.cplTail.toNat % 2 ^ g.log2Entries)) (recordBytes g c)
    else s

/-- Hands out the records of every ring with a packet. -/
def State.pump (s : State) : State := (s.cmds.map Cmd.ring).dedup.foldl State.pumpRing s

/-! ### The pool (R119, R120) -/

/-- Bytes as granules of 64 KiB, rounded up. -/
def granulesOf (bytes : Nat) : Nat := ceilDiv bytes 65536

/-- The granules and the number of the pool allocations of a command with pass size `s` over `tokens` column elements
(R119). -/
def poolNeed (op : Nat) (p : List Byte) (tokens s : Nat) : Nat × Nat :=
  let sheaf := if op = opSample ∨ op = opVerify then granulesOf (min (passCount tokens s) 2 * s * 16 * pkSheafCap p) else 0
  let operand := if isAcreOp op && pkFuseOp p != 0 then granulesOf (2 * 4 * 1024 * s) else 0
  (sheaf + operand, (if sheaf = 0 then 0 else 1) + (if operand = 0 then 0 else 1))

end Sys2Proof.Machine
end

