-- ==== Sys2Proof/Machine/Link.lean ====
section
/-! DEFINITION. What a member of a pair sends (14_ports.md R396, R397; 16_faults_spares_pairs.md R444, R445, R449). -/

namespace Sys2Proof.Machine

/-- Frame types (R396). -/
def frIdle : Nat := 0
/-- DIGEST. -/
def frDigest : Nat := 1
/-- CONTROL. -/
def frControl : Nat := 2
/-- STATE. -/
def frState : Nat := 3

/-- The 124 bytes of a frame before its CRC (R396). -/
def PairFrame.head (f : PairFrame) : List Byte :=
  leBytes 1 f.type ++ zeros 1 ++ leBytes 2 f.fseq.toNat ++ leBytes 2 f.ack.toNat ++ zeros 2 ++ padTo 116 f.payload

/-- The 128 bytes of a frame (R396). -/
def PairFrame.bytes (f : PairFrame) : List Byte := f.head ++ leBytes 4 (crc32c f.head).toNat

/-- Sends one frame: it uses a credit and is kept until an ACK covers it (R397). -/
def State.transmit (s : State) (type : Nat) (payload : List Byte) : State :=
  { s with pair := { s.pair with
      credits := s.pair.credits - 1
      unacked := s.pair.unacked ++ [PairFrame.mk s.pair.txNext s.pair.rxNext type (padTo 116 payload)]
      txNext := s.pair.txNext + 1 } }.bgEvent 13 4

/-- A frame may leave: a credit is held, fewer than 32 frames are kept, and at sag level 3 only IDLE frames are sent
(R397, R419). -/
def State.mayTransmit (s : State) (type : Nat) : Bool :=
  s.build.pairLink && !s.fnReset 8 && s.pair.credits != 0 && decide (s.pair.unacked.length < 32)
    && (decide (s.energy.level.val < 3) || type == frIdle)

/-- Sends a frame now or behind the frames that wait. -/
def State.sendPair (s : State) (type : Nat) (payload : List Byte) : State :=
  if !s.build.pairLink then s
  else if s.pair.queue.isEmpty && s.mayTransmit type then s.transmit type payload
  else { s with pair := { s.pair with queue := s.pair.queue ++ [(type, payload)] } }

/-- Sends the waiting frames that may leave, oldest first. `fuel` bounds their number. -/
def State.flushPair (s : State) : Nat → State
  | 0 => s
  | fuel + 1 => match s.pair.queue with
    | [] => s
    | (t, p) :: q =>
      if s.mayTransmit t then ({ s with pair := { s.pair with queue := q } }.transmit t p).flushPair fuel else s

/-- The version of an image in a bank, 0 where the bank is empty (R368). -/
def fwVersionOf (b : List Byte) : U32 := le32 b 4

/-- The bank that runs. -/
def State.activeFw (s : State) : List Byte := if s.flt.activeBank then s.fw.bank1 else s.fw.bank0
/-- The other bank. -/
def State.standbyFw (s : State) : List Byte := if s.flt.activeBank then s.fw.bank0 else s.fw.bank1

/-- The payload of a CONTROL frame (R449). -/
def controlPayload (s : State) (code : Nat) : List Byte :=
  padTo 116 (leBytes 1 code ++ leBytes 1 (if s.pair.role then 1 else 0) ++ zeros 2 ++ leBytes 4 glbVersion.toNat
    ++ leBytes 4 (glbBuild s.build).toNat ++ leBytes 4 (fwVersionOf s.activeFw).toNat ++ leBytes 4 (crc32c s.activeFw).toNat)

/-- The payload of a STATE frame with one entry (R449). -/
def statePayload (ring kind : Nat) (seq : U32) (time : Time) (narrow shed : Bool) (a b : Nat) : List Byte :=
  padTo 116 (leBytes 1 1 ++ zeros 3 ++ leBytes 1 ring ++ leBytes 1 kind ++ zeros 2 ++ leBytes 4 seq.toNat
    ++ leBytes 8 time.toNat ++ leBytes 1 (flagBit narrow 1 + flagBit shed 2) ++ zeros 3 ++ leBytes 4 a ++ leBytes 4 b)

/-- The payload of a DIGEST frame with one entry (R449). -/
def digestPayload (ring : Nat) (seq crc : U32) : List Byte :=
  padTo 116 (leBytes 1 1 ++ zeros 3 ++ leBytes 1 ring ++ zeros 3 ++ leBytes 4 seq.toNat ++ leBytes 4 crc.toNat)

/-- Entry kinds of a STATE frame (R449). -/
def stDispatch : Nat := 1
/-- CHECK. -/
def stCheck : Nat := 2
/-- COMMIT. -/
def stCommit : Nat := 3
/-- PROGRESS. -/
def stProgress : Nat := 4

/-- A primary tells its secondary of a step of a command (R444). -/
def State.tell (s : State) (kind : Nat) (c : Cmd) (narrow shed : Bool) (a b : Nat) : State :=
  if s.primary then s.sendPair frState (statePayload c.ring kind c.seq s.timeNs narrow shed a b) else s

/-- The primary's COMMIT entry for a command has arrived (R444). -/
def State.commitHeard (s : State) (c : Cmd) : Bool := s.pair.commits.any fun e => e.1 == c.ring && e.2.1 == c.seq

/-- A secondary takes the COMMIT entries of a command. -/
def State.takeCommit (s : State) (c : Cmd) : State :=
  if s.secondary then { s with pair := { s.pair with commits := s.pair.commits.filter fun e => !(e.1 == c.ring && e.2.1 == c.seq) } }
  else s

/-- The work of a command without strip-steps is over and its commit begins, with reason `r` so far: a primary tells it, a
secondary waits for the entry (R444). -/
def State.openCommit (s : State) (c : Cmd) (r : Reason) : State :=
  ((s.setCmd { c with stage := .committing, reason := r, commit := !s.secondary || s.commitHeard c }).takeCommit c).tell
    stCommit c false false 0 0

/-- Changes STATE; the change raises source 8 (R429). -/
def State.setPair (s : State) (st : Nat) : State :=
  if s.pair.state = st then s else ({ s with pair := { s.pair with state := st } }).raise 8

/-- The link goes down: credits and frames are discarded and the sequence numbers begin again at 0 (log 19); both
members of a pair detach, and the secondary holds (R397, R448). -/
def State.linkDown (s : State) : State :=
  let paired := s.pair.state == 2
  let s := { s with pair := { s.pair with
    up := false, down := true, credits := 0, txNext := 0, rxNext := 0, unacked := [], queue := [], hello := none
    holding := s.pair.holding || (paired && s.pair.role) } }
  if paired then s.setPair 4 else s

/-! ### Digests (R445, R446) -/

/-- Records a divergence: DIVERGED, the first command's ring and SEQ, DETACHED (R446). A secondary names the command to
its primary with a DIGEST entry of its own, and holds (log 20). -/
def State.diverge (s : State) (r : Nat) (q crc : U32) : State :=
  let s := if s.secondary then s.sendPair frDigest (digestPayload r q crc) else s
  let s := { s with pair := { s.pair with
    diverged := true
    divValid := true
    divRing := if s.pair.divValid then s.pair.divRing else r
    divSeq := if s.pair.divValid then s.pair.divSeq else q
    holding := s.pair.holding || s.pair.role } }
  (s.raise 8).setPair 4

/-- Compares the digest of an ended command with the primary's, once that has arrived; a match releases the completion
record and drops the held writes, which the primary has written; the held writes of a diverged command are never made (R443,
R446). -/
def State.compareDigest (s : State) (c : Cmd) : State :=
  if s.secondary && c.stage == .finished && !c.matched then
    match s.pair.theirs.find? fun e => e.1 == c.ring && e.2.1 == c.seq with
    | none => s
    | some e =>
      if digestOf c = e.2.2 then
        { s with pair := { s.pair with theirs := s.pair.theirs.filter fun e => !(e.1 == c.ring && e.2.1 == c.seq) } }.setCmd
          { c with matched := true, heldWrites := [], outputs := [] }
      else (s.setCmd { c with heldWrites := [], outputs := [] }).diverge c.ring c.seq (digestOf c)
  else s

/-- Compares every ended command. -/
def State.compareDigests (s : State) : State :=
  if s.secondary && s.pair.state == 2 then s.cmds.foldl State.compareDigest s else s

end Sys2Proof.Machine
end

