-- ==== Sys2Proof/Machine/Sched.lean ====
section
/-! DEFINITION. How a dispatched command becomes ready: the shape of its field, its order behind conflicting commands
(R105, R197, R283), the checks of point 3 (R339), its pass size and pool allocation (R119, R120, R486), its strip list
or descriptors (R345, R487), and its scoring lists (R202, R211, R214, R216); and what comes about by itself after a
step, `State.settle`. -/

namespace Sys2Proof.Machine

/-! ### The shape of a field -/

/-- H of a field. -/
def Field.h (f : Field) : Nat := 1024 * (f.hk + 1)

/-- Swaths of the whole head. -/
def Field.wholeN (f : Field) : Nat := ceilDiv f.v 1024

/-- The first global swath that the field owns (R245). -/
def Field.first (f : Field) : Nat := if f.shard then f.shardId * 2 ^ f.log2Span else 0

/-- The number of swaths that the field owns (R245). -/
def Field.n (f : Field) : Nat :=
  if f.shard then min f.wholeN ((f.shardId + 1) * 2 ^ f.log2Span) - f.first else f.wholeN

/-- The rows below V of owned swath `i` (R22, R348). -/
def Field.rowsOf (f : Field) (i : Nat) : Nat := min 1024 (f.v - 1024 * (f.first + i))

/-- The rows below V that the field owns: V_OWN of R348. -/
def Field.ownRows (f : Field) : Nat := ((List.range f.n).map f.rowsOf).sum

/-- The field that a command names. -/
def State.fieldOf (s : State) (c : Cmd) : Field := s.field (pkField c.run)

/-! ### Conflicts -/

/-- Whether an opcode names a field and whether it takes it exclusively (R105). -/
def fieldHold (op : Nat) (p : List Byte) : Option Bool :=
  if isAcreOp op then some false
  else if op = opLoadHead ∨ op = opEvictHead then some true
  else if op = opUpdate then some (!pktBit p 33 0)
  else none

/-- An UPDATE with RESUME = 1, which starts ahead of the commands that wait on its field (R190). -/
def isResume (op : Nat) (p : List Byte) : Bool := op == opUpdate && pktBit p 33 1

/-- Commands `e` and `c` cannot hold their field together (R105). -/
def conflicts (e c : Cmd) : Bool :=
  match fieldHold e.op e.run, fieldHold c.op c.run with
  | some x, some y => (x || y) && pkField e.run == pkField c.run
  | _, _ => false

/-- The place of a packet in the order of R105 and R197: its dispatch, or the moment from which it waits between steps 4
and 5. -/
def Cmd.place (c : Cmd) : Option Nat := if c.disp.isSome then c.disp else c.turn

/-- Packet `e` comes before packet `c`: one that has a place before one that has none; of two in one place the waiting one,
which came while the other's number was still to be given, then the one fetched first. -/
def Cmd.before (e c : Cmd) : Bool :=
  match e.place, c.place with
  | none, _ => false
  | some _, none => true
  | some x, some y => decide (x < y) || (x == y && e.disp.isNone && (c.disp.isSome || decide (e.order < c.order)))

/-- Command `e` keeps command `c` from starting: it has begun to hold the field, or it comes first; a resuming UPDATE goes
ahead of those that wait (R105, R190). -/
def Cmd.blocks (e c : Cmd) : Bool := conflicts e c && (e.started || (e.before c && !isResume c.op c.run))

/-- No unfinished command that holds the field or comes before `c` conflicts with it (R105). A command is unfinished until
its completion record is written (log 15). -/
def State.clearOfConflicts (s : State) (c : Cmd) : Bool := s.cmds.all fun e => e.order == c.order || !e.blocks c

/-- The strips that a command names: none known means that it may name any (R197, R487). -/
def Cmd.names (c : Cmd) (n : Nat) : Bool :=
  if c.op = opSample ∨ c.op = opVerify then !c.work.stripsKnown || c.work.strips.contains n
  else if c.op = opHeadFwd then pkBindEn c.run && pkBindStrip c.run == n
  else if c.op = opStripSet ∨ c.op = opStripGet then leNat c.run 32 2 % 4096 == n
  else false

/-- Command `e` precedes `c` for the ordering of strips: by dispatch, or as a STRIP_SET or STRIP_GET that waits for its
dispatch or is in its hold (R197, R283). -/
def stripBefore (e c : Cmd) : Bool := e.stage != .finished && e.before c

/-- Every earlier command that names strip `n` has committed (R197, R283). -/
def State.stripClear (s : State) (c : Cmd) (n : Nat) : Bool :=
  s.cmds.all fun e => e.order == c.order || !stripBefore e c || !e.names n

/-! ### Pass size and allocation -/

/-- Fixes the pass size from B column elements and the C_eff in force at dispatch (R486). -/
def Work.sized (w : Work) (p : List Byte) (op b : Nat) : Work :=
  { w with tokens := b, s := max 1 (passSize (pkFold p) b w.cEff (op == opTrain)) }

/-- Bytes of one entry of the dW stage (R171). -/
def stageEntry (bounded : Bool) (tokens s : Nat) : Nat :=
  let aligned := s % (16 * strandBlocks tokens) == 0
  if bounded then (if aligned then 8 else 12) else if aligned then 4 else 8

/-- W_B of R171. -/
def stageSwaths (dwStage h e n : Nat) : Nat := min n ((dwStage * 65536 - 4194304) / (1024 * h * e))

/-- W_B of a TRAIN_STEP. -/
def State.wB (s : State) (c : Cmd) : Nat :=
  let f := s.fieldOf c
  stageSwaths s.barn.dwStage f.h (stageEntry (pkBounded c.run) c.work.tokens c.work.s) f.n

/-- What a tile computes (R61): a swath's logits, a swath's dW, a hidden tile's dH. -/
inductive TileKind where
  | fwd (w : Nat)
  | dw (w : Nat)
  | dh (k : Nat)
  deriving DecidableEq, Repr, Inhabited

/-- Bytes of an element of O. -/
def fuseSize (p : List Byte) : Nat := if pkFuseBf16 p then 2 else 4

/-- The first row and the number of rows of a unit that O covers, and the length of a column of O (R485). -/
def fuseRows (f : Field) : TileKind → Nat × Nat × Nat
  | .fwd w => (1024 * (f.first + w), f.rowsOf w, f.v)
  | .dh k => (1024 * k, 1024, f.h)
  | .dw _ => (0, 0, 0)

/-- The bytes of one swath, and of all, of the dZ buffer (R168). -/
def dzBytes (c : Cmd) : Nat := c.work.s * 1024 * 9 / 16 + (if pkGradFp8 c.run = 0 then 0 else c.work.s * 1024 * 17 / 16)

/-- The sag level lets the command work: from level 1 on no fill-class work runs (R419). -/
def State.levelLets (s : State) (c : Cmd) : Bool := c.cls == 0 || decide (s.energy.level.val = 0)

/-! ### Point 3 (R339) -/

/-- A sharded command of which a merge is still awaited (R343, R359); none once the command has ended without it. -/
def Cmd.awaitsMerge (c : Cmd) : Bool :=
  (c.op == opSample || c.op == opHeadFwd) && pkShardEn c.run && c.disp.isSome && c.stage != .committing
    && c.stage != .finished && !c.work.merge.done

/-- Field state (R104, R184). -/
def fieldReason (op : Nat) (f : Field) : Option Reason :=
  if f.state = 0 then some .fieldEmpty
  else if f.state = 4 then some .fieldDamaged
  else if op = opTrain ∧ f.stream then some .fieldStreamed
  else none

/-- The combination of SHARD_EN with the field (R247). -/
def shardReason (op : Nat) (p : List Byte) (f : Field) : Option Reason :=
  if op = opVerify then (if pkShardEn p || f.shard then some .shardUnsupported else none)
  else if op = opHeadFwd ∧ pkOutMode p = 0 then (if pkShardEn p then some .badShard else none)
  else if pkShardEn p != f.shard then some .badShard else none

/-- The Barn checks (R118, R120, R171, R184). -/
def State.barnReason (s : State) (op : Nat) (p : List Byte) (f : Field) (need : Nat) : Option Reason :=
  if f.h > s.barn.seedH then some .barnTooSmall
  else if op = opTrain ∧ (!s.barn.seedTrain ∨ (pkGradAcc p ≠ 2 ∧ s.barn.dwStage < 64)) then some .barnTooSmall
  else if need > s.barn.poolSize then some .barnTooSmall
  else none

/-- Point 3 of R339 for the four Acre commands: the first reason that applies. A pair refuses stream destinations with
BAD_MODE (R443). -/
def State.startReason (s : State) (c : Cmd) : Option Reason :=
  let f := s.fieldOf c
  let p := c.run
  let dup := pkShardEn p && s.cmds.any fun e => e.order != c.order && e.awaitsMerge && (e.started || decide (e.dispOrder < c.dispOrder)) && pkStepTag e.run == pkStepTag p
  let toStream := ((c.op == opSample || c.op == opVerify) && pkResStream p) || (c.op == opHeadFwd && pkOutDest p == 1)
    || (c.op == opTrain && pkDhStream p)
  match fieldReason c.op f with
  | some r => some r
  | none => match shardReason c.op p f with
    | some r => some r
    | none =>
      if dup then some .badShard
      else match s.barnReason c.op p f c.granules with
        | some r => some r
        | none =>
          if c.op = opTrain ∧ pkGradSkip p > f.n then some .badSkip
          else if c.op = opTrain ∧ pkGradAcc p ≠ 2 ∧ s.wB c < f.n ∧ pkScratchAddr p % 4096 ≠ 0 then some .badAddr
          else if s.pair.state = 2 ∧ toStream then some .badMode
          else none

/-! ### Becoming ready -/

/-- The allocation of a dispatched command is known: that of a VERIFY_TREE from its descriptors on (R119, R487). -/
def Cmd.allocKnown (c : Cmd) : Bool := isAcreOp c.op && (c.op != opVerify || c.work.stripsKnown)

/-- A command that waits for pool space (R120). -/
def Cmd.waitsPool (c : Cmd) : Bool := c.active && c.allocKnown && !c.granted

/-- Gives a command its allocation (R119). -/
def State.grantPool (s : State) (c : Cmd) : State :=
  let s := s.setCmd { c with granted := true }
  { s with barn := { s.barn with poolFree := s.barn.poolFree - c.granules } }

/-- An allocation that no pool can hold waits for none: its command is refused at point 3 (R120). -/
def State.poolHolds (s : State) (c : Cmd) : Bool := decide (c.granules ≤ s.barn.poolSize)

/-- Grants the allocation of a command that is dispatched, when it fits and no waiting command of its class or a higher one
is before it (R119, R120). -/
def State.grantAtDispatch (s : State) (c : Cmd) : State :=
  if c.allocKnown && (c.granules == 0 || (decide (c.granules ≤ s.barn.poolFree)
      && s.cmds.all fun e => e.order == c.order || !(e.waitsPool && s.poolHolds e) || decide (c.cls < e.cls)))
  then s.grantPool c else s

/-- Learns the strips of a SAMPLE_STEP from its strip list once it has been read (R345). -/
def State.learnStrips (s : State) (c : Cmd) : State :=
  if c.op = opSample ∧ !c.work.stripsKnown ∧ !s.open c.ring c.seq .stripList then
    let b := s.bytes (pkListAddr c.run) (4 * c.work.tokens)
    s.setCmd { c with work := { c.work with
      stripsKnown := true, strips := (List.range c.work.tokens).map fun t => leNat b (4 * t) 4 } }
  else s

/-- Learns the descriptors of a VERIFY_TREE once its table has been read; B, S and the allocation follow (R266, R487). A
table that fails R267 receives no allocation and names no strip. -/
def State.learnTrees (s : State) (c : Cmd) : State :=
  if c.op = opVerify ∧ !c.work.stripsKnown ∧ !s.open c.ring c.seq .desc then
    let n := pkCount c.run
    let b := s.bytes (pkListAddr c.run) (32 * n)
    let ds := (List.range n).map (parseDesc b)
    let ok := treeTableOk (stripCount s.build) ds
    let w := { c.work with stripsKnown := true, descs := ds, descOk := ok, strips := if ok then ds.map TreeDesc.strip else [] }
    let w := w.sized c.run c.op (if ok then (ds.map TreeDesc.nodes).sum else 1)
    let (g, a) := if ok then poolNeed c.op c.run w.tokens w.s else (0, 0)
    let c := { c with work := w, granules := g, allocs := a }
    (s.setCmd c).grantAtDispatch c
  else s

/-- The memory that point 4 reads: targets or node tables (R163, R268). -/
def State.askPoint4 (s : State) (c : Cmd) : State :=
  if c.op = opTrain then s.askRead .targets c.ring c.seq 0 (pkTgtAddr c.run) (4 * c.work.tokens)
  else if c.op = opVerify ∧ c.work.descOk then
    (List.range c.work.descs.length).foldl (fun s i =>
      let d := c.work.descs.getD i default
      s.askRead .nodes c.ring c.seq i d.nodeAddr (16 * d.nodes)) s
  else s

/-- The tokens of column pass `q`: the first and how many (R486). -/
def passTokens (c : Cmd) (q : Nat) : Nat × Nat := (q * c.work.s, min c.work.s (c.work.tokens - q * c.work.s))

/-- A command has column passes left to convert, as far as they are known. -/
def Cmd.passesLeft (c : Cmd) : Bool :=
  (c.op == opVerify && !c.work.stripsKnown) || decide (c.work.convNext < passCount c.work.tokens c.work.s)

/-! ### Staging (R109) -/

/-- The swath records that a command on a stream-fed field reads, as far as they are known: one pass of a VERIFY_TREE whose
descriptors have not been read. -/
def Cmd.stageTotal (c : Cmd) (f : Field) : Nat :=
  (if c.op = opVerify ∧ !c.work.stripsKnown then 1 else passCount c.work.tokens c.work.s) * f.n

/-- The staging halves of its field that a command has in use. -/
def Cmd.halves (c : Cmd) : Nat := c.work.staged.length + (c.work.stageAsk - c.work.stageNext)

/-- A command that stages swaths of field `n`. -/
def Cmd.stages (c : Cmd) (n : Nat) : Bool := isAcreOp c.op && c.active && !c.work.ended && pkField c.run == n

/-- The halves of field `n` in use, of which it has two. -/
def State.halvesUsed (s : State) (n : Nat) : Nat := ((s.cmds.filter fun c => c.stages n).map Cmd.halves).sum

/-- The command on the Acre still has swaths of field `n` to ask for: it goes first. -/
def State.acreStages (s : State) (n : Nat) (c : Cmd) : Bool :=
  s.cmds.any fun d => d.order != c.order && s.acre.run == some (d.ring, d.seq) && d.stages n
    && decide (d.work.stageAsk < d.stageTotal (s.field n))

/-- Asks for the next swath record of a command, in command swath order, when a half of its field is free: from its
dispatch on, as soon as no earlier command that conflicts holds the field (R105, R109). -/
def State.askStage (s : State) (c : Cmd) : State :=
  let f := s.fieldOf c
  let n := pkField c.run
  let u := c.work.stageAsk
  if f.stream && f.state == 2 && c.stages n && s.clearOfConflicts c && decide (u < c.stageTotal f) && decide (s.halvesUsed n < 2)
      && !s.acreStages n c then
    (s.setCmd { c with work := { c.work with stageAsk := u + 1 } }).ask
      ⟨7 + (f.first + u % f.n) % 2, false, addrWrap (f.src + (f.first + u % f.n) * 516 * f.h), 516 * f.h, [], c.ring, c.seq, .stage, u, 0⟩
  else s

/-- The first staged swath of a command, or the first whose read is in progress. -/
def Cmd.firstStaged (c : Cmd) : Nat := match c.work.staged with
  | e :: _ => e.1
  | [] => c.work.stageNext

/-- A command that takes the Acre replaces what other commands on its field have staged: they read it again when it is
their turn (R14, R109; log 51). -/
def State.takeHalves (s : State) (c : Cmd) : State :=
  if (s.fieldOf c).stream then
    { s with
      cmds := s.cmds.map fun d => if d.order ≠ c.order ∧ d.stages (pkField c.run) then
          { d with work := { d.work with staged := [], stageNext := d.firstStaged, stageAsk := d.firstStaged } } else d
      queue := s.queue.filter fun g => !(g.kind == .stage && s.cmds.any fun d => d.order != c.order && d.stages (pkField c.run)
        && d.ring == g.ring && d.seq == g.seq) }
  else s

/-- Starts a queued Acre command once no earlier conflicting command is unfinished and its field is not being written:
point 3 refuses it or it goes on to energy admission and conversion (R105, R339). -/
def State.tryStart (s : State) (c : Cmd) : State :=
  if isAcreOp c.op && c.active && !c.started && c.stage == .queued && s.clearOfConflicts c
      && (c.op != opVerify || c.work.stripsKnown) && (s.fieldOf c).state != 1 && (s.fieldOf c).state != 3 then
    match s.startReason c with
    | some r => s.refuse c r
    | none =>
      let c := { c with started := true }
      (s.setCmd c).askPoint4 c
  else s

/-- Target word `t` as id and IGNORE (R163). -/
def targetWord (b : List Byte) (t : Nat) : Nat × Bool := (leNat b (4 * t) 4 % 2 ^ 20, (byteAt b (4 * t + 3)).getLsbD 7)

/-- A target word passes R163 for vocabulary `v`. -/
def targetOk (v : Nat) (b : List Byte) (t : Nat) : Bool :=
  let w := leNat b (4 * t) 4
  w / 2 ^ 20 % 2 ^ 11 == 0 && (decide (2 ^ 31 ≤ w) || decide (w % 2 ^ 20 < v))

/-- Point 4 of R339 as far as it comes before conversion: targets (R163) and descriptor tables (R267, R487). G_DONE begins at
GRAD_SKIP (R176). -/
def State.point4 (s : State) (c : Cmd) : State :=
  if c.started && c.stage == .queued && c.op == opVerify && !c.work.descOk then s.refuse c .badTree
  else if c.started && c.stage == .queued && c.op == opTrain && c.work.train.targets.isEmpty
      && !s.open c.ring c.seq .targets then
    let b := s.bytes (pkTgtAddr c.run) (4 * c.work.tokens)
    if (List.range c.work.tokens).all (targetOk (s.fieldOf c).v b) then
      s.setCmd { c with work := { c.work with train := { c.work.train with
        targets := (List.range c.work.tokens).map (targetWord b), gDone := pkGradSkip c.run, gAsked := pkGradSkip c.run } } }
    else s.refuse c .badTarget
  else s

/-- Item `t` of groups of the given sizes laid end to end: its group and its place in the group. -/
def locate : List Nat → Nat → Nat × Nat
  | [], t => (0, t)
  | n :: r, t => if t < n then (0, t) else let (i, j) := locate r (t - n); (i + 1, j)

/-- The strip-steps that have a token in column pass `q`, each once. -/
def Cmd.passSteps (c : Cmd) (q : Nat) : List Nat :=
  let (t0, n) := passTokens c q
  if c.op = opSample then (List.range n).map (t0 + ·)
  else if c.op = opVerify then ((List.range n).map fun j => (locate (c.work.descs.map TreeDesc.nodes) (t0 + j)).1).dedup
  else if c.op = opHeadFwd then (if n = 0 then [] else List.range c.work.strips.length)
  else []

/-- The range list of a hedge of mode `mode`: its address and bytes (R200, R211). -/
def rangeList (mode addr count : Nat) : List (Nat × Nat) :=
  if mode ≥ 3 ∧ mode ≤ 4 ∧ hedgeFieldOk mode addr count then [(addr, 8 * count)] else []

/-- The range lists that the nodes of tree `i` with a token in pass `q` name for themselves (R265). -/
def State.nodeRangeLists (s : State) (c : Cmd) (q i : Nat) : List (Nat × Nat) :=
  if c.op ≠ opVerify then []
  else
    let d := c.work.descs.getD i default
    let (t0, n) := passTokens c q
    let ns := parseNodes (s.bytes d.nodeAddr (16 * d.nodes)) d.nodes
    (((List.range n).filterMap fun j =>
      let e := locate (c.work.descs.map TreeDesc.nodes) (t0 + j)
      if e.1 = i then ns[e.2]? else none).map fun e =>
        if e.hedgeAddr = 0 then [] else rangeList (s.strip d.strip).params.hedgeMode e.hedgeAddr e.hedgeCount).flatten

/-- The bias lists, or the range lists, that column pass `q` of a command reads: address and bytes (R202, R211, R265). -/
def State.passLists (s : State) (c : Cmd) (bias : Bool) (q : Nat) : List (Nat × Nat) :=
  ((c.passSteps q).map fun i =>
    let n := c.work.strips.getD i 0
    let p := (s.strip n).params
    if n ≥ stripCount s.build ∨ !(s.strip n).valid then []
    else if bias then (if p.biasCount ≠ 0 ∧ p.biasCount ≤ 256 ∧ p.biasAddr % 8 = 0 then [(p.biasAddr, 8 * p.biasCount)] else [])
    else rangeList p.hedgeMode p.hedgeAddr p.hedgeCount ++ s.nodeRangeLists c q i).flatten

/-- The size of the bias and the range part of the scoring stage (R216). -/
def listPart (bias : Bool) : Nat := if bias then 2 ^ 21 else 2 ^ 22

/-- The traffic of a part. -/
def listTraffic (bias : Bool) : Traffic := if bias then .bias else .ranges

/-- The pass of a command whose lists are asked for next. -/
def Work.listNext (w : Work) (bias : Bool) : Nat := if bias then w.biasNext else w.rangeNext

/-- Sets the pass whose lists are asked for next. -/
def Work.setListNext (w : Work) (bias : Bool) (q : Nat) : Work := if bias then { w with biasNext := q } else { w with rangeNext := q }

/-- The bytes of a part that a command has in use: the lists asked for of its passes that are not over. -/
def State.partUsed (s : State) (bias : Bool) (c : Cmd) : Nat :=
  ((List.range (c.work.listNext bias - c.work.pass)).map fun i => ((s.passLists c bias (c.work.pass + i)).map Prod.snd).sum).sum

/-- A command that stages lists. -/
def Cmd.listing (c : Cmd) : Bool := isAcreOp c.op && c.active && c.started && c.work.listsAsked && !c.work.ended

/-- Command `e` has the parts of the scoring stage before command `c`: it is on the Acre, or comes first by class and
dispatch (log 82). -/
def State.listsBefore (s : State) (e c : Cmd) : Bool :=
  e.listing && s.acre.run != some (c.ring, c.seq)
    && (s.acre.run == some (e.ring, e.seq) || decide (e.cls < c.cls) || (e.cls == c.cls && decide (e.dispOrder < c.dispOrder)))

/-- Takes back the lists of the commands that come after `c`. -/
def State.dropLists (s : State) (bias : Bool) (c : Cmd) : State :=
  let later (d : Cmd) : Bool := d.listing && d.order != c.order && !s.listsBefore d c
  { s with
    queue := s.queue.filter fun g => !(g.kind == listTraffic bias && s.cmds.any fun d => later d && d.ring == g.ring && d.seq == g.seq)
    cmds := s.cmds.map fun d => if later d then { d with work := d.work.setListNext bias d.work.pass } else d }

/-- Stages the lists of a command in pass order, each pass as soon as its part has room for them; `fuel` bounds the passes
(R216). -/
def State.stagePart (s : State) (bias : Bool) (r : Nat) (q : U32) : Nat → State
  | 0 => s
  | fuel + 1 =>
    match s.cmd r q with
    | none => s
    | some c =>
      let p := c.work.listNext bias
      if !c.listing || decide (passCount c.work.tokens c.work.s ≤ p) then s
      else
        let ls := s.passLists c bias p
        let n := (ls.map Prod.snd).sum
        let others := s.cmds.filter fun e => e.order != c.order && e.listing
        let used := s.partUsed bias c + ((others.filter fun e => s.listsBefore e c).map (s.partUsed bias)).sum
        if listPart bias < used + n then s
        else
          let s := if n ≠ 0 ∧ listPart bias < s.partUsed bias c + (others.map (s.partUsed bias)).sum + n then s.dropLists bias c else s
          let s := s.modCmd r q fun c => { c with work := c.work.setListNext bias (p + 1) }
          (ls.foldl (fun s e => s.askRead (listTraffic bias) r q p e.1 e.2) s).stagePart bias r q fuel

/-- Stages the bias and range lists of a command (R216). -/
def State.stageParts (s : State) (c : Cmd) : State :=
  let n := passCount c.work.tokens c.work.s
  if c.listing then (s.stagePart true c.ring c.seq n).stagePart false c.ring c.seq n else s

/-- The lists of column pass `q` of a command are complete in the scoring stage (R216). -/
def State.listsComplete (s : State) (c : Cmd) (q : Nat) : Bool :=
  [true, false].all fun b => (decide (q < c.work.listNext b) || (s.passLists c b q).isEmpty) && !s.openIdx c.ring c.seq (listTraffic b) q

/-- Lets a started command stage its scoring lists once every earlier command that names its strips has committed (R197). -/
def State.stageLists (s : State) (c : Cmd) : State :=
  let strips := if c.op = opHeadFwd then (if pkBindEn c.run then [pkBindStrip c.run] else []) else c.work.strips
  if c.active && c.started && isAcreOp c.op && !c.work.listsAsked && (c.op == opTrain || c.op == opHeadFwd || c.work.stripsKnown)
      && strips.all (s.stripClear c) && !s.open c.ring c.seq .nodes then
    s.setCmd { c with work := { c.work with listsAsked := true, strips := strips } }
  else s

/-- While the Acre is out of service, every command that needs it ends (R435). -/
def State.noAcre (s : State) (c : Cmd) : State :=
  if s.acre.rowHalf = 3 ∧ isAcreOp c.op ∧ c.stage = .queued then s.endWork c .abortedReset else s

/-- What a command does by itself: each function of the list on its current form. -/
def State.advance (s : State) (r : Nat) (q : U32) : State :=
  [State.noAcre, State.learnStrips, State.learnTrees, State.askStage, State.askStage, State.tryStart, State.point4, State.stageLists, State.stageParts].foldl (fun s f =>
    match s.cmd r q with
    | some c => if c.stage = .finished then s else f s c
    | none => s) s

/-! ### The commit of G (R174, R176) -/

/-- Phase B holds dW tiles. -/
def Cmd.hasDw (c : Cmd) : Bool := c.op == opTrain && pkGradAcc c.run != 2

/-- The stage entries of hidden element `h` of swath `w`. -/
def dwEntry (c : Cmd) (w h : Nat) : List Chain := tblGet [] c.work.train.dw (w * 32768 + h)

/-- The final dW of vocabulary row `r` of swath `w` and hidden element `h`. -/
def dwFinal (c : Cmd) (w r h : Nat) : F32 :=
  (chainOutput (pkBounded c.run) ((dwEntry c w h).getD r chainZero)).bits

/-- The address and bytes of the rows of swath `w` in G: rows below V, under their global ids (R174, R175). -/
def gradRange (f : Field) (c : Cmd) (w : Nat) : Nat × Nat :=
  (pkGradAddr c.run + 4 * (1024 * (f.first + w) * f.h), 4 * f.rowsOf w * f.h)

/-- The elements of G that the commit writes for swath `w`, row by row (R174). -/
def State.gradValues (s : State) (f : Field) (c : Cmd) (w : Nat) : List Rounded :=
  let old := s.bytes (gradRange f c w).1 (gradRange f c w).2
  ((List.range (f.rowsOf w)).map fun r => (List.range f.h).map fun h =>
    let x := dwFinal c w r h
    if pkGradAcc c.run = 1 then fpAddX (le32 old (4 * (r * f.h + h))) x else ⟨x, false⟩).flatten

/-- A saturation of the addition to G flags the last dW tile of its swath (R80). -/
def Cmd.gradSat (c : Cmd) (w : Nat) : Cmd :=
  match c.work.train.dwLast.find? fun e => e.1 == w with
  | some (_, i, false) =>
    let k := c.work.counts
    { c with work := { c.work with counts := { k with
      satTiles := k.satTiles + 1, satFirst := some (min i (k.satFirst.getD i)) } } }
  | _ => c

/-- The swaths of G are written. -/
def Cmd.gradOver (c : Cmd) (f : Field) : Bool :=
  c.reason != .ok || !c.hasDw || c.work.train.gBad.isSome || decide (f.n ≤ c.work.train.gAsked)

/-- Takes the commit of G as far as it goes by itself: the write of a swath follows its read under GRAD_ACC = 1, and the
next swath follows the write's answer; a primary tells each swath (R174, R176, R444). `fuel` bounds its steps. -/
def State.gradCommit (s : State) (r : Nat) (q : U32) : Nat → State
  | 0 => s
  | fuel + 1 =>
    match s.cmd r q with
    | none => s
    | some c =>
      let f := s.fieldOf c
      let t := c.work.train
      if s.open r q .gRead || s.open r q .gWrite || !(c.stage == .committing && c.commit) || c.reason != .ok || !c.hasDw || t.gBad.isSome then s
      else
        let put (s : State) (g : Train → Train) : State := s.modCmd r q fun c => { c with work := { c.work with train := g c.work.train } }
        let s := if t.gDone < t.gAsked then (put s fun t => { t with gDone := t.gAsked }).tell stProgress c false false t.gAsked t.dhValid else s
        let w := t.gAsked
        if f.n ≤ w then s
        else if pkGradAcc c.run = 1 ∧ !t.gReading then
          ((put s fun t => { t with gReading := true }).askRead .gRead r q w (gradRange f c w).1 (gradRange f c w).2).gradCommit r q fuel
        else
          let vs := s.gradValues f c w
          let s := if vs.any Rounded.sat then s.modCmd r q (·.gradSat w) else s
          let s := put s fun t => { t with gReading := false, gAsked := w + 1 }
          (s.output c .gWrite 2 w (gradRange f c w).1 (vs.map fun v => leBytes 4 v.bits.toNat).flatten).gradCommit r q fuel

/-- A command whose commit only waits for its writes: HEAD_FWD, TRAIN_STEP, LOAD_HEAD, UPDATE, SOW_FILL. -/
def Cmd.endsByWrites (c : Cmd) : Bool :=
  c.stage == .committing && c.commit && (c.op == opHeadFwd || c.op == opTrain || c.op == opLoadHead || c.op == opUpdate || c.op == opSowFill)

/-- Completes such a command once its writes have been answered (R376, R379), and a SHARD_MERGE once the record of its
step has been written (R360). -/
def State.tryComplete (s : State) (c : Cmd) : State :=
  if c.op = opMerge ∧ c.stage = .committing then
    match s.cmd c.work.merge.tgtRing c.work.merge.tgtSeq with
    | some t =>
      if t.stage = .finished then
        s.setCmd { c with work := { c.work with merge := { c.work.merge with mbody := (mergeBody (decide (c.reason = .ok)) t).fields } } }
      else s
    | none => s.finish c c.reason ⟨c.work.merge.mbody, false, false⟩
  else if c.endsByWrites && !s.writesOpen c.ring c.seq && !s.segmentsWait c.ring c.seq && !s.open c.ring c.seq .gRead && (c.op != opTrain || c.gradOver (s.fieldOf c)) then
    let c := if c.op = opSowFill then { c with work := { c.work with fill := { c.work.fill with done := c.work.fill.asked } } } else c
    let r := if c.failed.isSome && c.reason == .ok then .badAddr else c.reason
    s.finish c r (classBody (s.fieldOf c) { c with reason := r } r)
  else s

/-- The opcodes that wait between steps 4 and 5 in the order of R105 and R283. -/
def waitsInOrder (op : Nat) : Bool := op == opEvictHead || op == opStripSet || op == opStripGet

/-- A control packet whose gate wait and barrier are over begins to wait for its dispatch at order number `n` (R314). -/
def Cmd.marked (n : Nat) (c : Cmd) : Cmd :=
  if waitsInOrder c.op && c.released && c.turn.isNone && c.stage != .finished then { c with turn := some n } else c

/-- Marks the control packets that begin to wait now. -/
def State.markTurns (s : State) : State := { s with cmds := s.cmds.map (Cmd.marked s.nextOrder) }

/-- The packets that the last step released: one joins the barrier, and control packets begin to wait for their dispatch. -/
def State.passOn (s : State) : State := s.joinBarrier.markTurns

/-- What comes about by itself after a step: the barrier is joined, dispatched commands start in dispatch order,
commands whose writes are over complete, unless a detached secondary holds them (R448), and records go to the command mover. -/
def State.settle (s : State) : State :=
  let s := s.passOn
  let s := if s.working then s.activeCmds.foldl (fun s c => s.advance c.ring c.seq) s else s
  let s := if s.pair.holding then s else s.activeCmds.foldl (fun s c =>
    let s := if c.op = opTrain then s.gradCommit c.ring c.seq (2 * (s.fieldOf c).n + 2) else s
    match s.cmd c.ring c.seq with
    | some c => s.tryComplete c
    | none => s) s
  s.compareDigests.pump

end Sys2Proof.Machine
end

