-- ==== Sys2Proof/Machine/Control.lean ====
section
/-! DEFINITION. The dispatch of a packet (12_rings_and_gates.md, step 5 of its life; R313, R314, R330, R444) and the
control commands that act on gates and order: NOP, FENCE, GATE_WAIT, GATE_SIGNAL (R361 to R363). -/

namespace Sys2Proof.Machine

/-- TIME_NS at the step, where CTRL runs (R399, R421). -/
def State.tick (s : State) (now : Time) : State := if s.awake then s.at now else s

/-- The packet that a secondary may dispatch next is the one that the primary has dispatched next (R444). -/
def State.ourTurn (s : State) (c : Cmd) : Bool :=
  if s.secondary then s.pair.dispatches.head? == some (c.ring, c.seq) else true

/-- Takes the DISPATCH entry of a dispatched packet, or sends it (R444). -/
def State.tookTurn (s : State) (c : Cmd) : State :=
  if s.secondary then { s with pair := { s.pair with dispatches := s.pair.dispatches.tail } }
  else s.tell stDispatch c false false 0 0

/-- The command processor takes dispatches: the block takes work and the function is not in reset. -/
def State.dispatching (s : State) : Bool := s.working && !s.fnReset 4

/-- A control command in its hold goes on under a power fail (R420 step 5). -/
def State.holdRuns (s : State) (c : Cmd) : Bool :=
  s.energy.pfail && s.running && !s.halted && !s.fnReset 4 && (match c.stage with
    | .hold _ => true
    | _ => false)

/-- The wait of a control command between steps 4 and 5 is over: FENCE by R362, EVICT_HEAD by R105, STRIP_SET and
STRIP_GET by R283. -/
def State.ctlWaitOver (s : State) (c : Cmd) : Bool :=
  if c.op = opFence then
    let scope := leNat c.run 32 1
    decide (scope ≥ 2) || s.cmds.all fun e => !decide (e.order < c.order) || (scope == 0 && e.ring != c.ring)
  else if c.op = opEvictHead then s.clearOfConflicts c
  else if c.op = opStripSet ∨ c.op = opStripGet then s.stripClear c (leNat c.run 32 2 % 4096)
  else true

/-- A control command that waits for its dispatch hold, or is in it. -/
def State.ctlReady (s : State) (c : Cmd) : Bool :=
  !isClassOp c.op && c.op != opCtxRestore && c.released && c.stage != .finished && s.ourTurn c && s.ctlWaitOver c

/-- The control command of ring `r` takes the command processor: no other hold is open, no fetch hold runs, and no
lower-numbered ring has one ready (R330). -/
def State.ctlFree (s : State) (c : Cmd) : Bool :=
  s.arb.fetching == 0
    && s.cmds.all fun d => d.order == c.order || !(s.ctlReady d
        && ((match d.stage with | .hold _ => true | _ => false) || (decide (d.ring < c.ring) && c.stage == .waiting)))

/-- The control command with opcode `op` that ring `r` dispatches now. -/
def State.ctlFront (s : State) (r op : Nat) : Option Cmd :=
  match s.waiting r with
  | some c => if c.op = op && (s.dispatching || s.holdRuns c) && s.ctlReady c && s.ctlFree c then some c else none
  | none => none

/-- Ends the hold of a control command with its effect in `s` (R314). -/
def State.ctlDone (s : State) (c : Cmd) (r : Reason) (b : Body) : State :=
  let s := s.tookTurn c
  let d := { c with disp := some s.nextOrder }
  (({ s with nextOrder := s.nextOrder + 1 } : State).finish d r b).settle

/-- Runs `f` on the control command that the row names, on nothing when it is not its turn. -/
def State.onCtl (s : State) (r op : Nat) (now : Time) (f : State → Cmd → State) : State :=
  let s := s.tick now
  match s.ctlFront r op with
  | some c => f s c
  | none => s

/-- NOP (R363). -/
def nopDo (s : State) (c : Cmd) : State := s.ctlDone c .ok bodyZero

/-- NOP. -/
def execNop (ring : Fin 64) (now : Time) (s : State) : Out := .next (s.keep (s.onCtl ring.val opNop now nopDo))

/-- FENCE (R362). -/
def fenceDo (s : State) (c : Cmd) : State := s.ctlDone c (if leNat c.run 32 1 ≥ 2 then .badMode else .ok) bodyZero

/-- FENCE. -/
def execFence (ring : Fin 64) (now : Time) (s : State) : Out := .next (s.keep (s.onCtl ring.val opFence now fenceDo))

/-- GATE_WAIT (R361). -/
def gateWaitDo (s : State) (c : Cmd) : State :=
  if pkWaitEn c.pkt then s.ctlDone c .ok ⟨[(32, 4, c.valueSeen.toNat)], false, false⟩ else s.ctlDone c .badGateOp bodyZero

/-- GATE_WAIT. -/
def execGateWait (ring : Fin 64) (now : Time) (s : State) : Out :=
  .next (s.keep (s.onCtl ring.val opGateWait now gateWaitDo))

/-- GATE_SIGNAL: adds at dispatch and records the value after the addition (R314, R361). -/
def gateSignalDo (s : State) (c : Cmd) : State :=
  if pkSigEn c.pkt then
    let s := s.gateAdd (pkSigGate c.pkt) (pkSigAdd c.pkt)
    s.ctlDone c .ok ⟨[(32, 4, (s.gate (pkSigGate c.pkt)).toNat)], false, false⟩
  else s.ctlDone c .badGateOp bodyZero

/-- GATE_SIGNAL. -/
def execGateSignal (ring : Fin 64) (now : Time) (s : State) : Out :=
  .next (s.keep (s.onCtl ring.val opGateSignal now gateSignalDo))

/-! ### Class commands -/

/-- The class command with opcode `op` that ring `r` dispatches now: it enters its class queue, which is no hold. -/
def State.classFront (s : State) (r op : Nat) : Option Cmd :=
  match s.waiting r with
  | some c => if c.op = op && s.dispatching && c.released && c.stage == .waiting && s.ourTurn c then some c else none
  | none => none

/-- Puts a class command into its queue (step 5), with its pool allocation where that is free (R119, R120); one that takes a frame joins the order of the stream (R342, R389). -/
def State.enqueue (s : State) (c : Cmd) : State :=
  let s := s.tookTurn c
  let c := { c with disp := some s.nextOrder, stage := .queued }
  let s := (s.setCmd c).grantAtDispatch c
  { s with
    nextOrder := s.nextOrder + 1
    streams := if isAcreOp c.op && pkStreamSrc c.run
      then { s.streams with frames := s.streams.frames ++ [(c.ring, c.seq)] } else s.streams }

/-- Runs `f` on the class command that the row dispatches. -/
def State.onClass (s : State) (r op : Nat) (now : Time) (f : State → Cmd → State) : State :=
  let s := s.tick now
  match s.classFront r op with
  | some c => f s c
  | none => s

end Sys2Proof.Machine
end

