-- ==== Sys2Proof/Machine/RingRegs.lean ====
section
/-! DEFINITION. Writes of the ring, gate and arbiter registers (12_rings_and_gates.md R305 to R311, R323, R328, R333 to
R335; 14_ports.md R384, R404). -/

namespace Sys2Proof.Machine

/-- The outputs of an APB transfer (R387, R388). -/
def State.apbOut (s : State) (data : U32) (err : Bool) : State := { s with apb := ⟨data, true, err⟩ }

/-- A write to a register that exists from READY on: before READY it is a write to an unmapped address; a halted block
ignores it (R387, R430, R454). -/
def State.regWrite (s : State) (f : State → State) : State :=
  if !s.awake then s
  else if !s.boot.ready then s.apbOut 0 true
  else if s.halted then s.apbOut 0 false
  else (f s).apbOut 0 false

/-! ### The packet being fetched (R307, R312) -/

/-- Slots between HEAD and TAIL (R305). -/
def ringAvail (g : Ring) : Nat := (g.tail - g.head).toNat

/-- The address of the slot with count `c` (R305). -/
def slotAddr (g : Ring) (c : Nat) : Nat := g.base.toNat + 64 * (c % 2 ^ g.log2Slots)

/-- Asks for slots `from` to `n - 1` of the packet whose first slot has count `q`; a packet may wrap to slot 0 (R307). -/
def State.askSlots (s : State) (r : Nat) (q : U32) (from' n : Nat) : State :=
  let g := s.ring r
  let c := (q.toNat + from') % 2 ^ g.log2Slots
  let k := min (n - from') (2 ^ g.log2Slots - c)
  let s := s.askRead .fetch r q 0 (slotAddr g c) (64 * k)
  s.askRead .fetch r q 0 (slotAddr g 0) (64 * (n - from' - k))

/-- The bytes of the `n` slots from count `q` on. -/
def State.slots (s : State) (r : Nat) (q : U32) (n : Nat) : List Byte :=
  let g := s.ring r
  ((List.range n).map fun i => s.bytes (slotAddr g (q.toNat + i)) 64).flatten

/-- LEN of the packet being fetched of ring `r`, where it is one that a packet can have; else the header slot alone is
read (R307). -/
def State.fetchLen (s : State) (r : Nat) : Nat :=
  let len := pkLen (s.slots r s.arb.fetchSeq 1)
  if len = 0 ∨ len > 16 then 1 else len

/-- The packet being fetched counts as fetched: its header slot has been read and it meets the slot condition (R312). -/
def State.fetchCounted (s : State) (r : Nat) : Bool :=
  (match s.arb.grant with
    | some (g, _) => g == r
    | none => false)
  && (s.arb.fetching == 2
    || (s.arb.fetching == 1 && !s.open r s.arb.fetchSeq .fetch && decide (s.fetchLen r ≤ ringAvail (s.ring r))))

/-- INFLIGHT of ring `r` with the packet being fetched (R312, R334). -/
def State.inflightNow (s : State) (r : Nat) : Nat := s.inflight r + (s.fetchCounted r).toNat

/-- The command processor has begun to read a packet of ring `r`. -/
def State.fetchingRing (s : State) (r : Nat) : Bool :=
  s.arb.fetching != 0 && (match s.arb.grant with
    | some (g, _) => g == r
    | none => false)

/-- Ends the read of a packet that does not count as fetched, and the grant with it. -/
def State.cancelFetch (s : State) (r : Nat) : State :=
  if s.fetchingRing r && !s.fetchCounted r then
    ({ s with arb := { s.arb with fetching := 0, beats := 0, grant := none } }.dropQueued r s.arb.fetchSeq).bgEvent 11 s.arb.beats
  else s

/-- HEAD is about to be moved by a doorbell with EN = 0: a packet that counts as fetched is read to its end and leaves HEAD as
it is set then; any other is dropped (R306, R312; log 74). -/
def State.moveHead (s : State) (r : Nat) : State :=
  if s.fetchCounted r then
    let t := { s with arb := { s.arb with fetching := 2, moved := true } }
    if s.arb.fetching = 1 then t.askSlots r s.arb.fetchSeq 1 (s.fetchLen r) else t
  else s.cancelFetch r

/-! ### The grant (R330) -/

/-- Ring `r` meets the conditions of "Ring arbitration" but for the dispatch of its previous packet; of its next packet only
what is known of its LEN. -/
def State.wants (s : State) (r : Nat) : Bool :=
  let g := s.ring r
  g.en && !g.stopped && !g.fetchFailed && decide (ringAvail g ≥ max 1 g.needSlots)
    && decide (s.inflight r < g.maxInflight) && !cplFull g && decide (s.cmds.length < 256)

/-- Ring `r` requests the command processor ("Ring arbitration"). -/
def State.requests (s : State) (r : Nat) : Bool := s.wants r && (s.waiting r).isNone

/-- A packet past the wait stage takes its dispatch before the next fetch or draw, so that its ring does not stop requesting
on its account (R330). -/
def State.atDispatch (s : State) (c : Cmd) : Bool :=
  if isClassOp c.op || c.op == opCtxRestore then c.released && s.ourTurn c else s.ctlReady c

/-- The granted ring goes on requesting. -/
def State.keepsGrant (s : State) (r : Nat) : Bool :=
  s.wants r && (match s.waiting r with
    | none => true
    | some c => s.atDispatch c)

/-- The grant ends once its ring stops requesting (R330). -/
def State.dropGrant (s : State) : State :=
  match s.arb.grant with
  | some (r, _) => if s.arb.fetching == 0 && !s.keepsGrant r then { s with arb := { s.arb with grant := none } } else s
  | none => s

/-! ### Rings -/

/-- The doorbell on a ring (R306). -/
def doorbellRing (tail : U32) (g : Ring) : Ring :=
  if !g.en then { g with head := tail, tail := tail, needSlots := 0 }
  else if (tail - g.head).toNat > 2 ^ g.log2Slots then { g with tail := tail, stopped := true, cause := 1 }
  else { g with tail := tail }

/-- A write of CMD_RING_n_TAIL (R306). -/
def doorbellDo (r : Nat) (tail : U32) (s : State) : State :=
  let s := if (s.ring r).en then s else s.moveHead r
  (s.modRing r (doorbellRing tail)).dropGrant

/-- DOORBELL. -/
def execDoorbell (ring : Fin 64) (tail : U32) (s : State) : Out :=
  .next (s.keep (s.regWrite (doorbellDo ring.val tail)))

/-- Writing 1 to STOPPED: the ring fetches from HEAD again (R311); CAUSE reads 0 again (log 17). -/
def restartRing (g : Ring) : Ring := { g with stopped := false, cause := 0 }

/-- Restarts ring `r`. -/
def restartDo (r : Nat) (s : State) : State := s.modRing r restartRing

/-- RING_RESTART. -/
def execRingRestart (ring : Fin 64) (s : State) : Out := .next (s.keep (s.regWrite (restartDo ring.val)))

/-- MAX_INFLIGHT as stored (R334). -/
def storeInflight (v : Nat) : Nat := if v = 0 then 1 else min v 16

/-- The configuration words of a ring: what a write stores, by register: 0 BASE_LO, 1 BASE_HI, 2 CFG, 3 CPL_BASE_LO,
4 CPL_BASE_HI, 5 CPL_CFG. `quiet` is EN = 0 and INFLIGHT = 0 (R308). -/
def cfgRing (quiet : Bool) (reg : Nat) (v : U32) (g : Ring) : Ring :=
  let n := v.toNat
  if reg = 2 then
    let log := n % 32
    let g := { g with
      en := v.getLsbD 31
      maxInflight := storeInflight (bitField n 20 16)
      irqLine := bitField n 10 8
      fetchFailed := g.fetchFailed && v.getLsbD 31 }
    if quiet then { g with log2Slots := if 6 ≤ log ∧ log ≤ 20 then log else 6 }
    else if log = g.log2Slots then g else { g with cfgIgnored := true }
  else if !quiet then { g with cfgIgnored := true }
  else if reg = 0 then { g with base := BitVec.ofNat 64 (g.base.toNat / 2 ^ 32 * 2 ^ 32 + n / 4096 * 4096) }
  else if reg = 1 then { g with base := BitVec.ofNat 64 (n * 2 ^ 32 + g.base.toNat % 2 ^ 32) }
  else if reg = 3 then { g with cplBase := BitVec.ofNat 64 (g.cplBase.toNat / 2 ^ 32 * 2 ^ 32 + n / 4096 * 4096) }
  else if reg = 4 then { g with cplBase := BitVec.ofNat 64 (n * 2 ^ 32 + g.cplBase.toNat % 2 ^ 32) }
  else { g with log2Entries := if 4 ≤ n % 32 ∧ n % 32 ≤ 16 then n % 32 else 4 }

/-- A write of a ring's configuration (R308). The read of a packet that does not count as fetched ends where its ring is
configured anew (log 74). -/
def ringCfgDo (r reg : Nat) (v : U32) (s : State) : State :=
  let quiet := !(s.ring r).en && s.inflightNow r == 0
  let s := if quiet then s.cancelFetch r else s
  (s.modRing r (cfgRing quiet reg v)).dropGrant

/-- RING_CFG_WRITE. -/
def execRingCfgWrite (ring : Fin 64) (reg : Fin 6) (v : U32) (s : State) : Out :=
  .next (s.keep (s.regWrite (ringCfgDo ring.val reg.val v)))

/-- A write of CPL_HEAD on a ring (R309). -/
def cplHeadRing (v : U32) (g : Ring) : Ring := { g with cplHead := v, cplTail := if g.en then g.cplTail else v }

/-- A write of CPL_HEAD: records that a full completion ring held may now be written (R318). -/
def cplHeadDo (r : Nat) (v : U32) (s : State) : State := ((s.modRing r (cplHeadRing v)).pumpRing r).dropGrant

/-- CPL_HEAD_WRITE. -/
def execCplHeadWrite (ring : Fin 64) (v : U32) (s : State) : Out :=
  .next (s.keep (s.regWrite (cplHeadDo ring.val v)))

/-- A write of GATE_g adds to the gate (R323). -/
def gateWriteDo (g : Nat) (v : U32) (s : State) : State := (s.gateAdd g v).passOn

/-- GATE_WRITE (R323). -/
def execGateWrite (gate : Fin 8192) (v : U32) (s : State) : Out := .next (s.keep (s.regWrite (gateWriteDo gate.val v)))

/-! ### Arbiters -/

/-- The bits of a ticket word that are stored (R335). -/
def tktStored (v : U32) : U32 := v &&& 0xFFC3CFFF#32

/-- Copies every shadow to its live word; losses are kept (R333). -/
def commitTickets (t : Tbl Tickets) : Tbl Tickets :=
  t.foldl (fun acc e => tblModify ticketsReset acc e.1 fun k => { k with live := k.shadow }) t

/-- A write of ARB_RING_COMMIT (R333). -/
def arbRingCommitDo (s : State) : State :=
  { s with arb := { s.arb with tickets := commitTickets s.arb.tickets, pending := false } }

/-- ARB_RING_COMMIT. -/
def execArbRingCommit (s : State) : Out := .next (s.keep (s.regWrite arbRingCommitDo))

/-- A write of ARB_RING_SEED (R328, R335): a write of 0 stores 1. -/
def arbRingSeedDo (v : U32) (s : State) : State :=
  let w := if v = 0 then 1 else v
  { s with arb := { s.arb with seed := w, l := w } }

/-- ARB_RING_SEED. -/
def execArbRingSeed (v : U32) (s : State) : Out := .next (s.keep (s.regWrite (arbRingSeedDo v)))

/-- A write of a shadow. -/
def shadowTicket (v : U32) (k : Tickets) : Tickets := { k with shadow := tktStored v }

/-- A write of ARB_RING_TKT_n (R333). -/
def arbRingTktDo (n : Nat) (v : U32) (s : State) : State :=
  { s with arb := { s.arb with tickets := tblModify ticketsReset s.arb.tickets n (shadowTicket v), pending := true } }

/-- ARB_RING_TKT_WRITE. -/
def execArbRingTktWrite (n : Fin 64) (v : U32) (s : State) : Out := .next (s.keep (s.regWrite (arbRingTktDo n.val v)))

/-- A write of ARB_MVR_COMMIT (R384). -/
def arbMvrCommitDo (s : State) : State :=
  { s with marb := { s.marb with tickets := commitTickets s.marb.tickets, pending := false } }

/-- ARB_MVR_COMMIT. -/
def execArbMvrCommit (s : State) : Out := .next (s.keep (s.regWrite arbMvrCommitDo))

/-- Loads every port's shift register from a seed (R384). -/
def State.seedPorts (s : State) (v : U32) : State :=
  (List.range 24).foldl (fun s k => s.modPort k fun p => { p with lot := portLot v k }) s

/-- A write of ARB_MVR_SEED (R384). -/
def arbMvrSeedDo (v : U32) (s : State) : State := ({ s with marb := { s.marb with seed := v } }).seedPorts v

/-- ARB_MVR_SEED. -/
def execArbMvrSeed (v : U32) (s : State) : Out := .next (s.keep (s.regWrite (arbMvrSeedDo v)))

/-- A write of ARB_MVR_TKT_m (R384). -/
def arbMvrTktDo (n : Nat) (v : U32) (s : State) : State :=
  { s with marb := { s.marb with tickets := tblModify ticketsReset s.marb.tickets n (shadowTicket v), pending := true } }

/-- ARB_MVR_TKT_WRITE. -/
def execArbMvrTktWrite (n : Fin 16) (v : U32) (s : State) : Out := .next (s.keep (s.regWrite (arbMvrTktDo n.val v)))

end Sys2Proof.Machine
end

