-- ==== Sys2Proof/Machine/Fetch.lean ====
section
/-! DEFINITION. The command processor's intake (12_rings_and_gates.md): the ring lottery (R328 to R332), the fetch and
check of packets (R307, R311, R313), the wait stage and its timeout (R324, R325), and the hold limit (R331). -/

namespace Sys2Proof.Machine

/-- A control command waits for a dispatch hold or is in one (R330). -/
def State.ctlPending (s : State) : Bool := s.cmds.any s.ctlReady

/-- The intake of packets runs (R420, R430, R448). -/
def State.fetching (s : State) : Bool := s.dispatching

/-- The ring that keeps the command processor (R330). -/
def State.keeper (s : State) : Option Nat :=
  match s.arb.grant with
  | some (r, k) => if k < tktBurst (tblGet ticketsReset s.arb.tickets r).live && s.requests r then some r else none
  | none => none

/-- The rings that request with their effective tickets, ascending (R329). `short` names the rings whose next packet does not
lie wholly before TAIL, where its LEN has not been read yet (R307; log 75). -/
def State.ringRequesters (s : State) (short : BitVec 64) : List (Nat × Nat) :=
  ((List.range 64).filter fun r => s.requests r && !(short.getLsbD r && (s.ring r).needSlots == 0)).map fun r =>
    let t := tblGet ticketsReset s.arb.tickets r
    (r, effTickets t.live t.losses)

/-- One draw with shift-register value `l` (R329, R332). -/
def State.drawRing (s : State) (short : BitVec 64) (l : U32) : State :=
  let rs := s.ringRequesters short
  match lotDraw l rs with
  | none => s
  | some w =>
    let tickets := rs.foldl (fun t e => tblModify ticketsReset t e.1 fun k =>
      { k with losses := if e.1 = w then 0 else k.losses + 1 }) s.arb.tickets
    let starved := rs.filter fun e => e.1 != w && s.arb.starveDraws != 0
      && decide ((tblGet ticketsReset tickets e.1).losses ≥ s.arb.starveDraws.toNat)
    let s := { s with arb := { s.arb with
      l := l, tickets := tickets, grant := some (w, 0)
      starve := starved.foldl (fun b e => b ||| BitVec.ofNat 64 (2 ^ e.1)) s.arb.starve } }
    if starved.isEmpty then s else s.raise 5

/-- A draw is held now: the command processor is free and no granted ring keeps it (R330). -/
def ringDrawOn (s : State) (short : BitVec 64) : Bool :=
  s.fetching && s.arb.fetching == 0 && !s.ctlPending && s.keeper.isNone && !(s.ringRequesters short).isEmpty

/-- RING_DRAW: `cycles` CTRL cycles after the shift register's last step of the model. -/
def execRingDraw (cycles : Nat) (short : BitVec 64) (s : State) : Out :=
  .next (s.keep (if ringDrawOn s short then s.drawRing short (lotAdvance cycles s.arb.l) else s))

/-! ### Fetch -/

/-- The command of a packet just fetched, in its ring's wait stage (R313). -/
def newCmd (r : Nat) (seq : U32) (p : List Byte) (order : Nat) (now : Time) (gate : U32) : Cmd :=
  let ok := !pkWaitEn p || gateSatisfied gate (pkWaitValue p)
  let c : Cmd := default
  { c with
    ring := r, seq := seq, pkt := p, raw := pkOpcode p, op := pkOpcode p, run := p, order := order, stage := .waiting
    entered := now, gateOk := ok, valueSeen := if ok then gate else 0 }

/-- The pass size and the allocation that dispatch would fix are judged later; a fetched class command starts with
its token count (R486). -/
def Cmd.prepared (c : Cmd) (cEff : Nat) : Cmd :=
  if c.op = opSample ∨ c.op = opHeadFwd ∨ c.op = opTrain then
    let w := ({ c.work with cEff := cEff }).sized c.run c.op (pkCount c.run)
    let (g, a) := poolNeed c.op c.run w.tokens w.s
    { c with work := w, granules := g, allocs := a }
  else { c with work := { c.work with cEff := cEff } }

/-- Ends the hold of a fetch: the packet counts as fetched, HEAD passes it unless its LEN is bad, and the checks of
R311, R338 and point 2 of R339 refuse it or let it wait (R307, R311, R312). -/
def State.fetched (s : State) (r n : Nat) : State :=
  let p := s.slots r s.arb.fetchSeq n
  let reason := fetchReason (stripCount s.build) s.acre.cEff p
  let c := newCmd r s.arb.fetchSeq p s.nextOrder s.timeNs (s.gate (pkWaitGate p))
  let c := c.event 11 (if reason.isNone then s.arb.beats else 0)
  let s := if reason.isNone then s else s.bgEvent 11 s.arb.beats
  let s := { s with
    nextOrder := s.nextOrder + 1
    cmds := s.cmds ++ [c]
    arb := { s.arb with fetching := 0, beats := 0, grant := s.arb.grant.map fun (e : Nat × Nat) => (e.1, e.2 + 1) } }
  let bad := reason == some .badLength
  let s := s.modRing r fun g => { g with
    head := if bad || s.arb.moved then g.head else add32 g.head n
    needSlots := 0
    stopped := g.stopped || bad
    cause := if bad then 2 else g.cause }
  (match reason with
  | some x => (s.refuse c x).settle
  | none => s.settle).dropGrant

/-- PACKET_FETCH: the hold begins by reading the header slot; then the rest of the packet is read; then it is checked.
Each invocation takes the next of these parts once its reads have been answered. -/
def State.fetchStep (s : State) (r : Nat) : State :=
  let q := if s.arb.fetching = 0 then (s.ring r).head else s.arb.fetchSeq
  if s.open r q .fetch then s
  else if s.arb.fetching = 0 then
    { s with arb := { s.arb with fetching := 1, since := s.timeNs, beats := 0, fetchSeq := q, moved := false } }.askSlots r q 0 1
  else
    let n := s.fetchLen r
    if s.arb.fetching = 2 then s.fetched r n
    else if ringAvail (s.ring r) < n then (s.cancelFetch r).modRing r fun g => { g with needSlots := n }
    else if n > 1 then { s with arb := { s.arb with fetching := 2 } }.askSlots r q 1 n
    else s.fetched r n

/-- Ring `r` holds the command processor for a fetch, or takes it now (R330). -/
def packetFetchOn (s : State) (r : Nat) : Bool :=
  s.fetching && (if s.arb.fetching = 0 then s.keeper == some r && !s.ctlPending else s.fetchingRing r)

/-- PACKET_FETCH (R311). -/
def execPacketFetch (ring : Fin 64) (now : Time) (s : State) : Out :=
  let t := s.tick now
  .next (s.keep (if packetFetchOn t ring.val then t.fetchStep ring.val else t))

/-- FETCH_RETRY (R379): the packet at HEAD is fetched again. -/
def execFetchRetry (ring : Fin 64) (now : Time) (s : State) : Out :=
  let t := s.tick now
  .next (s.keep (if t.fetching then t.modRing ring.val fun g => { g with fetchFailed := false } else t))

/-! ### Timeouts of the wait stage and of holds -/

/-- The wait or the barrier of ring `r`'s packet is still open WAIT_TIMEOUT milliseconds after it entered its wait
stage (R324). -/
def gateTimeoutOn (s : State) (r : Nat) : Option Cmd :=
  match s.waiting r with
  | some c =>
    let limit := (s.ring r).waitTimeout.toNat
    if s.dispatching && c.stage == .waiting && !c.released && limit != 0
        && decide ((s.timeNs - c.entered).toNat ≥ limit * 1000000) then some c else none
  | none => none

/-- GATE_TIMEOUT (R324, R327). -/
def execGateTimeout (ring : Fin 64) (now : Time) (s : State) : Out :=
  let t := s.tick now
  .next (s.keep (match gateTimeoutOn t ring.val with
    | some c => (t.refuse c .gateTimeout).settle
    | none => t))

/-- BARRIER_IN_LOW (R325 step 1). -/
def execBarrierInLow (s : State) : Out :=
  let t := { s with pins := { s.pins with barrierIn := false } }
  .next (s.keep (if t.awake then t.passOn else t))

/-- Stops a ring with CAUSE = HOLD (R331). -/
def stopHold (g : Ring) : Ring := { g with stopped := true, cause := 3 }

/-- A target that a cut-off CTX_SAVE asked to pause runs on. -/
def State.unpause (s : State) (c : Cmd) : State :=
  if c.op = opCtxSave then s.modCmd (leNat c.run 32 1 % 64) (le32 c.run 36) fun d =>
    { d with work := { d.work with pauseAsked := false } } else s

/-- The hold limit of ring `r` has passed since `t` (R331). -/
def State.holdOver (s : State) (r : Nat) (t : Time) : Bool :=
  let limit := (s.ring r).holdLimit.toNat
  limit != 0 && decide ((s.timeNs - t).toNat > limit * 1000)

/-- Every slot of the packet being fetched has been read, so that HEAD passes it (R307); a packet with a bad LEN stays at
HEAD (R311). -/
def State.fetchRead (s : State) (r : Nat) : Bool :=
  let len := pkLen (s.slots r s.arb.fetchSeq 1)
  s.fetchCounted r && !s.open r s.arb.fetchSeq .fetch && (s.arb.fetching == 2 || len == 1) && len != 0 && decide (len ≤ 16)

/-- Ends the fetch in progress of ring `r`: a packet that counts as fetched takes a record with reason `x` (R312). -/
def State.endFetch (s : State) (r : Nat) (x : Reason) : State :=
  let c := newCmd r s.arb.fetchSeq (s.slots r s.arb.fetchSeq 1) s.nextOrder s.timeNs 0
  let counted := s.fetchCounted r
  let past := s.fetchRead r && !s.arb.moved
  let n := s.fetchLen r
  let s := ({ s with arb := { s.arb with fetching := 0, beats := 0 } }.dropQueued r s.arb.fetchSeq).bgEvent 11 s.arb.beats
  let s := if past then s.modRing r fun g => { g with head := add32 g.head n, needSlots := 0 } else s
  if counted then { s with nextOrder := s.nextOrder + 1, cmds := s.cmds ++ [c] }.refuse c x else s

/-- CUT_OFF on a fetch hold (R331). -/
def State.cutFetch (s : State) (r : Nat) : State := (((s.endFetch r .cutOff).modRing r stopHold).dropGrant).settle

/-- CUT_OFF (R331). -/
def cutOffDo (r : Nat) (s : State) : State :=
  match s.waiting r with
  | some c =>
    (match c.stage with
    | .hold _ => if s.dispatching && s.holdOver r c.entered then
        ((((s.unpause c).refuse c .cutOff).modRing r stopHold).dropGrant).settle else s
    | _ => s)
  | none =>
    if s.fetching && s.fetchingRing r && s.holdOver r s.arb.since then s.cutFetch r else s

/-- CUT_OFF. -/
def execCutOff (ring : Fin 64) (now : Time) (s : State) : Out := .next (s.keep (cutOffDo ring.val (s.tick now)))

end Sys2Proof.Machine
end

