-- ==== Sys2Proof/Machine/Ports.lean ====
section
/-! DEFINITION. The stack ports (14_ports.md): the movers' lottery and the issue of transfers (R371 to R375, R384,
R483), errors and their consequences (R379 to R381), port reset (R382), credits (R374), probes (R385) and requester power
states (R386). -/

namespace Sys2Proof.Machine

/-! ### What a transfer needs -/

/-- Bytes `a` to `a + n - 1` and `b` to `b + m - 1` share a byte. -/
def overlaps (a n b m : Nat) : Bool := decide (a < b + m) && decide (b < a + n)

/-- The request's 64-byte units `a` to `a + l - 1` overlap the bytes of a write that is still outstanding on any port (R371,
R375). -/
def State.blocked (s : State) (a l : Nat) : Bool :=
  (s.xfers ++ s.drainWait).any fun x => x.op != 0 && overlaps a l x.range.addr x.range.len

/-- Read-buffer beats reserved on port k (R374). -/
def State.reserved (s : State) (k : Nat) : Nat :=
  ((s.xfers.filter fun x => x.port == k && x.op == 0).map (·.beats)).sum

/-- The credits, buffer space, free tag and ordering that transfer `r` needs on port k (R373 to R375). -/
def State.canIssue (s : State) (k tag : Nat) (r : Range) : Bool :=
  let (_, a, l) := firstTransfer r
  let p := s.port k
  p.reqCrd != 0 && p.wdOwed == 0 && decide (s.outstanding k < 1024)
    && !(s.xfers.any fun x => x.port == k && x.tag == tag)
    && !s.blocked a l
    && (r.write || decide (s.reserved k + beatCount a l ≤ 1024))

/-- Presents transfer `r` with operation `op` on port k: a request credit, a read's buffer beats or a write's data credits
(R373, R374). -/
def State.present (s : State) (k tag op : Nat) (r : Range) : State :=
  let (_, a, l) := firstTransfer r
  let beats := beatCount a l
  let s := s.modPort k fun p => { p with
    reqCrd := p.reqCrd - 1
    wdCrd := if r.write then p.wdCrd - min p.wdCrd beats else p.wdCrd
    wdOwed := if r.write then beats - min p.wdCrd beats else 0 }
  let s := { s with xfers := s.xfers ++ [⟨k, tag, op, a, l, beats, 0, .ok, r, s.timeNs⟩] }
  if r.write then (s.charge r 12 beats).perfAdd 14 beats else s

/-! ### The probe (R385) -/

/-- The operation of the probe on the request channel: OP 0b11 reads too (R404). -/
def PortProbe.reqOp (p : PortProbe) : Nat := if p.op = 3 then 0 else p.op

/-- The probe's word as a transfer of no command and no mover; mover 16 stands for none (log 18). -/
def State.probeRange (s : State) : Range :=
  let p := s.probe
  ⟨16, p.reqOp != 0, p.addr.toNat, 8, if p.reqOp = 0 then [] else leBytes 8 p.data.toNat, 64, 0, .probe, 0, p.tries⟩

/-- The port that a waiting probe is for: its PORT, or the one that R378 steers a reissued one to (R379, R382). -/
def State.probePort (s : State) : Option Nat :=
  if !s.probe.busy || s.probe.issued then none
  else if s.probe.steered then s.steerPort (firstTransfer s.probeRange).2.1
  else some s.probe.port

/-- The lowest tag that no transfer of port k holds: a probe's tag (R373; log 18). -/
def State.freeTag (s : State) (k : Nat) : Nat :=
  ((List.range 1024).find? fun t => !(s.xfers.any fun x => x.port == k && x.tag == t)).getD 0

/-- Issues a waiting probe at the next free request cycle of its port, ahead of every mover draw (R385). -/
def State.probeIssue (s : State) : State :=
  match s.probePort with
  | none => s
  | some k =>
    if s.canIssue k (s.freeTag k) s.probeRange then
      { s with probe := { s.probe with issued := true } }.present k (s.freeTag k) s.probe.reqOp s.probeRange
    else s

/-- Ends the probe with a response code (R385). -/
def State.probeEnd (s : State) (code : Nat) : State :=
  { s with probe := { s.probe with busy := false, issued := false, steered := false, tries := 0, code := code } }

/-- The probe's transfer is answered with OK: a read's word, which memory holds by now, replaces DATA (R385). -/
def State.probeOk (s : State) : State :=
  let p := s.probe
  { s with probe := { p with data := if p.reqOp = 0 then le64 (s.bytes p.addr.toNat 8) 0 else p.data } }.probeEnd 0

/-! ### Errors -/

/-- Records a failed transfer in the port's error registers (R379). -/
def failPort (op mover addr code : Nat) (p : Port) : Port :=
  let p := { p with rspErr := true, errCount := p.errCount + 1 }
  if p.errValid then p
  else { p with errValid := true, errCode := code, errOp := op, errMover := mover % 16, errAddr := BitVec.ofNat 64 addr }

/-- Ends the start in its stage (R452, R461). -/
def State.bootFail (s : State) (code detail : Nat) : State :=
  if s.boot.failed then s
  else { s with boot := { s.boot with failed := true, failCode := code, failDetail := detail }
                pins := { s.pins with barrierOut := false } }

/-- Marks strip-step `i` of a command as not written (R380). -/
def Cmd.stepFailed (c : Cmd) (i : Nat) : Cmd :=
  { c with work := { c.work with steps := c.work.steps.map fun p => if p.idx = i then { p with failedWrite := true } else p } }

/-- The consequence of a failed transfer for a class command (R379). -/
def State.failClass (s : State) (c : Cmd) (k : Traffic) (idx addr : Nat) : State :=
  if k = .result ∨ k = .vrec then s.setCmd (c.stepFailed idx)
  else if k = .fill then s.setCmd { c with
    stage := .committing, commit := true, reason := .badAddr, failed := some k
    work := { c.work with fill := { c.work.fill with asked := min c.work.fill.asked (elemsBelow c.run addr) } } }
  else if c.stage = .committing then
    let g := k == .gWrite || k == .gRead
    let bad := if g then some (min idx ((c.work.train.gBad).getD idx)) else c.work.train.gBad
    s.setCmd { c with failed := some k, work := { c.work with train := { c.work.train with gBad := bad } } }
  else if isAcreOp c.op && !c.work.begun then s.refuse c .badAddr
  else s.endWork c .badAddr

/-- The consequence of a failed transfer for the command or sequence that it serves (R379, R457). -/
def State.failTraffic (s : State) (g : Range) (port : Nat) : State :=
  match g.kind with
  | .fetch => { s with arb := { s.arb with fetching := 0, beats := 0, grant := none } }.modRing g.ring fun r => { r with fetchFailed := true }
  | .cpl => s.modRing g.ring fun r => { r with cplFailed := true }
  | .param => s.bootFail 0x07 port
  | .bootFw => s.bootFail 0x09 port
  | .pfail | .probe => s
  | k => match s.cmd g.ring g.seq with
    | none => s
    | some c =>
      if c.stage = .finished then s
      else if c.disp.isSome && isClassOp c.op then s.failClass c k g.idx g.addr
      else (s.unpause c).refuse c .badAddr

/-- Fails a transfer at once: a CONTAINED fault (R379, R426, R429); a failed probe ends with the code (R385). -/
def State.failXfer (s : State) (x : Xfer) (code : Nat) : State :=
  let s := s.modPort x.port (failPort x.op x.range.mover x.start code)
  let s := ((s.raise 6).raise 1).failTraffic x.range x.port
  if x.range.kind = .probe then s.probeEnd code else s

/-- Puts a transfer back: it goes before its mover's other transfers, and a probe waits again, by R378 from now on (R379,
R382). A halted block reissues only for the commits that it lets run (R430). -/
def State.again (s : State) (g : Range) : State :=
  if g.kind = .probe then { s with probe := { s.probe with issued := false, steered := true, tries := g.tries } }
  else if s.halted && !s.haltKeeps g then s
  else { s with queue := g :: s.queue }

/-- A transfer with a response code: DATA_ERR is reissued once, unless it is an add-write; every other failure fails it
(R379). -/
def State.endXfer (s : State) (x : Xfer) (code : RspCode) : State :=
  match code with
  | .ok => if x.range.kind = .probe then s.probeOk else s
  | .dataErr => if x.range.tries = 0 ∧ x.op ≠ 2 then s.again { x.range with tries := 1 } else s.failXfer x 1
  | .addrErr => s.failXfer x 2
  | .unsupported => s.failXfer x 3

/-! ### Port reset (R382) -/

/-- The writes of a reset port are reissued (R382 step 3). -/
def State.reissueWrites (s : State) (k : Nat) : State :=
  let mine := s.drainWait.filter fun x => x.port == k
  (mine.map Xfer.range).foldr (fun g s => s.again g) { s with drainWait := s.drainWait.filter fun x => x.port != k }

/-- Port reset: stk_k_up falls, credits are discarded, reads are reissued, writes are as soon as stk_k_drained is high, and
add-writes fail, with ADDR_ERR in CODE (R382; log 18). -/
def State.resetPort (s : State) (k : Nat) : State :=
  let mine := s.xfers.filter fun x => x.port == k
  let s := { s with
    xfers := s.xfers.filter fun x => x.port != k
    drainWait := s.drainWait ++ mine.filter fun (x : Xfer) => x.op == 1 }
  let s := s.modPort k fun p => { p with up := false, reqCrd := 0, wdCrd := 0, wdOwed := 0, grant := none }
  let s := ((mine.filter fun (x : Xfer) => x.op == 0).map Xfer.range).foldr (fun g s => s.again g) s
  let s := (mine.filter fun (x : Xfer) => x.op == 2).foldl (fun s x => s.failXfer x 2) s
  (if s.pins.drained.getLsbD k then s.reissueWrites k else s).probeIssue

/-- A protocol error on port k with its cause: an automatic reset of the port (R381, R426, R429). -/
def State.protoError (s : State) (k cause : Nat) : State :=
  let s := s.modPort k fun p => { p with protoErr := true, oos := true, protoCause := cause, errCount := p.errCount + 1 }
  ((s.raise 6).raise 2).resetPort k

/-! ### The end of stage 4 of the start (R452) -/

/-- Passes from AWAIT_GO to PARAMS once GO has been written and a port is in service; the parameter block is read. -/
def State.bootAdvance (s : State) : State :=
  if s.boot.stage = 4 ∧ s.boot.go ∧ !s.boot.failed ∧ (List.range (stackPorts s.build)).any (fun k => s.inService k) then
    { s with boot := { s.boot with stage := 5 } }.askRead .param 0 0 0 s.boot.paramAddr.toNat 64
  else s

/-! ### Issue (R384) -/

/-- The movers that request port k with their effective tickets, ascending (R384). -/
def State.moverRequesters (s : State) (k : Nat) : List (Nat × Nat) :=
  ((List.range 16).filter fun m => (s.moverPiece m k).isSome).map fun m =>
    (m, effTickets (tblGet ticketsReset s.marb.tickets m).live (tblGet 0 (s.port k).losses m))

/-- Draws the grantee of port k with shift-register value `l` (R384). -/
def State.drawMover (s : State) (k : Nat) (l : U32) : State :=
  let rs := s.moverRequesters k
  match lotDraw l rs with
  | none => s
  | some w =>
    let losses := rs.foldl (fun t e => tblModify 0 t e.1 fun n => if e.1 = w then 0 else n + 1) (s.port k).losses
    let starved := rs.filter fun e => e.1 != w && s.marb.starveDraws != 0
      && decide (tblGet 0 losses e.1 ≥ s.marb.starveDraws.toNat)
    let s := s.modPort k fun p => { p with lot := l, losses := losses, grant := some (w, 0) }
    let s := { s with marb := { s.marb with starve := starved.foldl (fun b e => b ||| BitVec.ofNat 16 (2 ^ e.1)) s.marb.starve } }
    if starved.isEmpty then s else s.raise 5

/-- Port k after the draw that follows a grant's end; its shift register stands until READY (R384). -/
def State.granted (s : State) (k cycles : Nat) : State :=
  let n := if s.boot.ready then cycles else 0
  match (s.port k).grant with
  | some (g, i) =>
    if i < tktBurst (tblGet ticketsReset s.marb.tickets g).live && (s.moverPiece g k).isSome then s
    else s.drawMover k (lotAdvance n (s.port k).lot)
  | none => s.drawMover k (lotAdvance n (s.port k).lot)

/-- Takes transfer `p` from the waiting ranges of its mover: what its range holds before and after it stays. -/
def cutQueue (p : Range) : List Range → List Range
  | [] => []
  | r :: t =>
    let o := (p.addr + 2 ^ 64 - r.addr) % 2 ^ 64
    if r.mover = p.mover ∧ r.write = p.write ∧ r.ring = p.ring ∧ r.seq = p.seq ∧ r.kind = p.kind ∧ r.idx = p.idx ∧ o + p.len ≤ r.len then
      ([r.part 0 o, r.part (o + p.len) (r.len - o - p.len)].filter fun r => r.len != 0) ++ t
    else r :: cutQueue p t

/-- Movers run while the block is powered and not HELD (R421). -/
def State.moving (s : State) : Bool := s.awake && decide (s.boot.stage ≥ 5) && !s.boot.failed

/-- The grant of port k ends once its mover stops requesting the port (R384). -/
def State.endGrant (s : State) (k : Nat) : State :=
  match (s.port k).grant with
  | some (g, _) => if (s.moverPiece g k).isSome then s else s.modPort k fun p => { p with grant := none }
  | none => s

/-- The grants of the movers that have stopped requesting their ports end (R384). -/
def State.endGrants (s : State) : State := (List.range 24).foldl State.endGrant s

/-- Issues transfer `r` of its mover on port k under the mover's grant (R373, R384, R483). -/
def State.issue (s : State) (k tag : Nat) (r : Range) : State :=
  let s := s.present k tag (if r.write then 1 else 0) r
  ({ s with queue := cutQueue r s.queue }.modPort k fun p => { p with grant := p.grant.map fun (e : Nat × Nat) => (e.1, e.2 + 1) }).endGrant k

/-- One request cycle of port k in which mover m has a transfer for it, `cycles` port cycles after the port's last draw: a
waiting probe comes first; else the draw that is due is held, and mover m issues if the grant is its own and it lacks nothing.
A granted mover that lacks something waits with the grant (R384, R385). -/
def issueDo (k m tag cycles : Nat) (s : State) : State :=
  let s := s.probeIssue
  match s.moverPiece m k with
  | some r =>
    if s.probePort = some k then s
    else
      let t := s.granted k cycles
      (match (t.port k).grant with
      | some (g, _) => if g = m ∧ t.canIssue k tag r then t.issue k tag r else t
      | none => t)
  | none => s

/-- MOVER_TRANSFER_ISSUE (R373). -/
def execMoverTransferIssue (mover : Fin 16) (port : Fin 24) (tag : BitVec 10) (cycles : Nat) (now : Time) (s : State) : Out :=
  let t := s.tick now
  .next (s.keep (if t.moving then issueDo port.val mover.val tag.toNat cycles t else t))

/-! ### Responses -/

/-- The transfer outstanding under a tag of a port. -/
def State.xfer (s : State) (k tag : Nat) : Option Xfer := s.xfers.find? fun x => x.port == k && x.tag == tag

/-- Removes a transfer. -/
def State.dropXfer (s : State) (x : Xfer) : State :=
  { s with xfers := s.xfers.filter fun y => !(y.port == x.port && y.tag == x.tag) }

/-- The bytes of its range that beat `i` of a transfer carries: first address and bytes, by the lanes of R371. -/
def beatBytes (x : Xfer) (i : Nat) (data : List Byte) : Nat × List Byte :=
  let block := (x.start / 512 + i) * 512
  let lo := max x.range.addr block
  let hi := min (x.range.addr + x.range.len) (block + 512)
  (lo, (List.range (hi - lo)).map fun j => byteAt data ((lo + j) % 512))

/-- Charges the read beat to the transfer's command; a ring fetch counts toward its packet (R406). -/
def State.readBeat (s : State) (g : Range) : State :=
  let s := s.perfAdd 13 1
  if g.kind = .fetch then { s with arb := { s.arb with beats := s.arb.beats + 1 } } else s.charge g 11 1

/-- A read beat in order: its code joins the transfer's, and the last beat ends the transfer (R373). -/
def State.takeBeat (s : State) (x : Xfer) (code : RspCode) : State :=
  let first := if x.code = .ok then code else x.code
  let s := s.readBeat x.range
  if x.seen + 1 = x.beats then ((s.dropXfer x).endXfer x first).settle
  else { s with xfers := s.xfers.map fun y => if y.port = x.port ∧ y.tag = x.tag then { y with seen := x.seen + 1, code := first } else y }

/-- The response of a write or an add-write ends it (R373). -/
def State.takeAck (s : State) (x : Xfer) (code : RspCode) : State := ((s.dropXfer x).endXfer x code).settle

/-- Memory after a read beat: an OK beat brings the bytes of its range (R373; log 4). -/
def beatMem (m : List Host.Cell) (x : Xfer) (code : RspCode) (data : List Byte) : List Host.Cell :=
  if code = .ok then let (a, b) := beatBytes x x.seen data; memWriteBytes m a b else m

/-- Memory after the response of a write or an add-write: an OK one is visible to every later read (R372, R375). -/
def ackMem (m : List Host.Cell) (x : Xfer) (code : RspCode) : List Host.Cell :=
  let a := x.range.addr
  if code ≠ .ok then m
  else if x.op = 2 then memWriteBytes m a (leBytes 8 ((leNat (memBytes m a 8) 0 8 + leNat x.range.data 0 8) % 2 ^ 64))
  else memWriteBytes m a x.range.data

/-- Port k takes responses: stk_k_up is high, which a HELD or halted block keeps it until nothing is outstanding (R382, R420,
R430). -/
def State.portLive (s : State) (k : Nat) : Bool := s.powered && decide (k < stackPorts s.build) && s.portUp k

/-- TRANSFER_TIMEOUT (R381): TIMEOUT_US of TIME_NS have passed since the transfer's request; 0 is no limit. -/
def execTransferTimeout (port : Fin 24) (tag : BitVec 10) (now : Time) (s : State) : Out :=
  let t := s.tick now
  .next (s.keep (match t.xfer port.val tag.toNat with
    | some x =>
      let limit := (t.port port.val).timeoutUs.toNat
      if t.portLive port.val && limit != 0 && decide ((t.timeNs - x.issued).toNat > limit * 1000) then t.protoError port.val 5 else t
    | none => t))

/-! ### Credits -/

/-- REQ_CREDIT_RETURN (R374, R381). -/
def execReqCreditReturn (port : Fin 24) (now : Time) (s : State) : Out :=
  let t := s.tick now
  .next (s.keep (if !t.portLive port.val then t
    else if (t.port port.val).reqCrd ≥ 1024 then t.protoError port.val 1
    else ((t.modPort port.val fun p => { p with reqCrd := p.reqCrd + 1 }).probeIssue).bootAdvance))

/-- A write-data credit: a beat that waits for one takes it at once (R374). -/
def takeWdCredit (p : Port) : Port := if p.wdOwed = 0 then { p with wdCrd := p.wdCrd + 1 } else { p with wdOwed := p.wdOwed - 1 }

/-- WD_CREDIT_RETURN (R374, R381). -/
def execWdCreditReturn (port : Fin 24) (now : Time) (s : State) : Out :=
  let t := s.tick now
  .next (s.keep (if !t.portLive port.val then t
    else if (t.port port.val).wdCrd ≥ 4096 then t.protoError port.val 1
    else (t.modPort port.val takeWdCredit).probeIssue))

/-! ### Port reset and power states -/

/-- Bit `n` of an input word as level `high` leaves it. -/
def setPin {w : Nat} (x : BitVec w) (n : Nat) (high : Bool) : BitVec w :=
  if high then x ||| BitVec.ofNat w (2 ^ n) else x &&& ~~~ BitVec.ofNat w (2 ^ n)

/-- STK_PORT_RESET: stk_k_rst_n goes low, which resets the port and holds it, or high again (R370, R382). -/
def execStkPortReset (port : Fin 24) (low : Bool) (now : Time) (s : State) : Out :=
  let t := s.tick now
  let t := { t with pins := { t.pins with stkLow := setPin t.pins.stkLow port.val low } }
  .next (s.keep (if low && t.awake && decide (port.val < stackPorts t.build) then t.resetPort port.val else t))

/-- STK_DRAINED: the level of stk_k_drained; as it goes high, the writes of a reset port are reissued (R382 step 3). -/
def execStkDrained (port : Fin 24) (high : Bool) (s : State) : Out :=
  let t := { s with pins := { s.pins with drained := setPin s.pins.drained port.val high } }
  .next (s.keep (if high && t.awake then (t.reissueWrites port.val).probeIssue else t))

/-- Elzan's side of port k may be raised: from stage 4 on, out of reset, OOS = 0 (R370, R382 step 5, R452, R453). -/
def stkUpOn (s : State) (k : Nat) : Bool :=
  s.awake && !s.halted && decide (s.boot.stage ≥ 4) && !s.boot.failed && decide (k < stackPorts s.build)
    && !(s.port k).up && !(s.port k).oos && !s.flt.portHold.getLsbD k && !s.pins.stkLow.getLsbD k

/-- STK_UP: the port starts without credits (R374, R382). -/
def execStkUp (port : Fin 24) (s : State) : Out :=
  .next (s.keep (if stkUpOn s port.val then s.modPort port.val fun p => { p with up := true, reqCrd := 0, wdCrd := 0, wdOwed := 0 } else s))

/-- PORT_OOS_WRITE: PRT_k_CTL (R382, R404). Ports at or above STACK_PORTS ignore it. -/
def oosPort (v : U32) (p : Port) : Port := { p with oos := v.getLsbD 31, timeoutUs := v.setWidth 16 }

/-- A write of PRT_k_CTL (R404). -/
def portCtlDo (k : Nat) (v : U32) (s : State) : State :=
  if k < stackPorts s.build then (s.modPort k (oosPort v)).endGrants else s

/-- PORT_OOS_WRITE. -/
def execPortOosWrite (port : Fin 24) (v : U32) (s : State) : Out := .next (s.keep (s.regWrite (portCtlDo port.val v)))

/-- MOVER_POWER_DOWN (R386): a masked mover stops requesting (R384). -/
def execMoverPowerDown (mover : Fin 16) (s : State) : Out :=
  let t := { s with pins := { s.pins with mvrLow := setPin s.pins.mvrLow mover.val true } }
  .next (s.keep (if t.powered then t.endGrants else t))

/-- MOVER_POWER_UP (R386). -/
def execMoverPowerUp (mover : Fin 16) (s : State) : Out :=
  .next (s.keep { s with pins := { s.pins with mvrLow := setPin s.pins.mvrLow mover.val false } })

/-! ### PRT_PROBE_CTL (R385, R404) -/

/-- PRT_PROBE_CTL as written: OP, PORT, and GO. Writes while BUSY are ignored. -/
def probeGoDo (v : U32) (s : State) : State :=
  if s.probe.busy then s
  else
    let s := { s with probe := { s.probe with op := bitField v.toNat 11 10, port := bitField v.toNat 9 5 } }
    if !v.getLsbD 0 then s
    else if s.inService s.probe.port then
      { s with probe := { s.probe with busy := true, issued := false, steered := false, tries := 0 } }.probeIssue
    else s.probeEnd 2

/-- PRT_PROBE_GO. -/
def execPrtProbeGo (v : U32) (now : Time) (s : State) : Out := .next (s.keep ((s.tick now).regWrite (probeGoDo v)))

/-- The code of a response (14_ports.md, signals of a stack port). -/
def rspCodeNat : RspCode → Nat
  | .ok => 0
  | .dataErr => 1
  | .addrErr => 2
  | .unsupported => 3

end Sys2Proof.Machine
end

