-- ==== Sys2Proof/Machine/Resets.lean ====
section
/-! DEFINITION. Per-function resets (16_faults_spares_pairs.md R432 to R435; 05_stone_path.md R135;
12_rings_and_gates.md R320; 15_energy_and_supply.md R423) and the effective width of the Acre (03_acre.md R89 to R92,
R427). -/

namespace Sys2Proof.Machine

/-! ### Which commands a reset ends (R433) -/

/-- The compute phase of a command has begun and not ended (R15). -/
def Cmd.inPhase (c : Cmd) : Bool := isAcreOp c.op && c.active && c.stage != .committing && c.work.begun && !c.work.ended

/-- The phase has begun and the commit has not. -/
def Cmd.beforeCommit (c : Cmd) : Bool := isAcreOp c.op && c.active && c.work.begun && !c.commit

/-- A commit is in progress (R434). -/
def Cmd.inCommit (c : Cmd) : Bool := isAcreOp c.op && c.stage == .committing && c.commit

/-- A fill that has begun its Harrow work and has not ended. -/
def Cmd.filling (c : Cmd) : Bool :=
  c.active && c.started && (c.op == opLoadHead || c.op == opUpdate || c.op == opSowFill)

/-- A command whose conversion has begun and whose phase has not ended. -/
def Cmd.converted (c : Cmd) : Bool :=
  isAcreOp c.op && c.active && c.stage != .committing && !c.work.ended
    && (c.work.converting || c.work.convNext != 0 || c.work.begun)

/-- A command whose output goes to the result stream. -/
def Cmd.streams (c : Cmd) : Bool :=
  ((c.op == opSample || c.op == opVerify) && pkResStream c.run) || (c.op == opHeadFwd && pkOutDest c.run == 1)
    || (c.op == opTrain && pkDhStream c.run)

/-- A sharded TRAIN_STEP that waits in its exchange (R262). -/
def Cmd.exchanging (c : Cmd) : Bool := c.op == opTrain && c.active && c.work.merge.active && !c.work.merge.done

/-- The reason with which a reset of function `n` ends a command, if it does (R433). A commit that has begun runs to
its end (R434). -/
def resetEnds (n : Nat) (c : Cmd) : Option Reason :=
  let live := c.stage != .finished && (c.stage != .committing || isAcreOp c.op && !c.commit)
  let ends : Bool := match n with
    | 0 => c.inPhase
    | 1 => c.beforeCommit || c.op == opMerge && c.active && live
    | 2 => c.converted || c.filling
    | 3 => c.beforeCommit && pkStoneThr c.run != 0
    | 4 => live || c.filling
    | 5 => isAcreOp c.op && c.active && live && pkStreamSrc c.run && !c.work.frameDone
    | 6 => c.streams && c.active && live
    | 7 => c.beforeCommit && pkShardEn c.run || c.op == opMerge && c.active && live
    | 9 => c.op == opEnergySet && (match c.stage with | .hold _ => true | _ => false)
    | _ => false
  if !ends then none else if n = 7 ∧ c.exchanging then some .shardFailed else some .abortedReset

/-- The working state that a reset of function `n` clears (R432 step 5). -/
def State.clearFn (s : State) (n : Nat) : State :=
  match n with
  | 0 => { s with acre := { s.acre with run := none, held := false } }
  | 2 => { s with seed0 := seedReset, seed1 := seedReset }
  | 4 => { s with arb := { s.arb with fetching := 0, beats := 0 } }
  | 7 => { s with shard := { s.shard with early := [], out := [] } }
  | 8 => s.linkDown
  | _ => s

/-- A fetch in progress under a command processor reset: a packet that counts as fetched ends with ABORTED_RESET; the arbiter
keeps its grant (R312, R320). -/
def State.abortFetch (s : State) : State :=
  match s.arb.grant with
  | some (r, _) => if s.arb.fetching = 0 then s else s.endFetch r .abortedReset
  | none => s

/-- The reset of function `n` takes effect, unless it is in reset already (R432 steps 1, 2, 3 and 5). -/
def State.fnNow (s : State) (n : Nat) : State :=
  if s.fnReset n then s
  else
    let s := if n = 0 then s.flushPhase else s
    let s := { s with flt := { s.flt with inReset := s.flt.inReset ||| BitVec.ofNat 10 (2 ^ n) } }
    let s := if n = 4 then s.abortFetch else s
    let s := s.cmds.foldl (fun s c => match resetEnds n c with
      | none => s
      | some r => match s.cmds.find? (fun d => d.order == c.order) with
        | some d => if d.stage = .finished then s else (s.unpause d).endCmd d r
        | none => s) s
    (s.clearFn n).settle

/-- Starts the reset of function `n`; that of the command processor waits for the commits in progress (R434). -/
def State.fnStart (s : State) (n : Nat) : State :=
  if n = 4 ∧ s.cmds.any Cmd.inCommit then { s with flt := { s.flt with cpDue := true } } else s.fnNow n

/-- A reset of the command processor that waited takes effect once no commit is in progress (R434). -/
def State.afterCommit (s : State) : State :=
  if s.flt.cpDue && !s.cmds.any Cmd.inCommit then { s with flt := { s.flt with cpDue := false } }.fnNow 4 else s

/-- An automatic reset raises source 2 (R429). -/
def State.fnAuto (s : State) (n : Nat) : State := (s.fnStart n).raise 2

/-! ### The effective width (R90 to R92, R435) -/

/-- EN, UNREP and the line of a spare word (R91). -/
def spareUnrep (w : U32) : Bool := w.getLsbD 30

/-- The column groups of the build without an unrepaired column. -/
def State.usableCols (s : State) : Nat := ((List.range (colGroups s.build)).filter fun g => !spareUnrep (tblGet 0 s.acre.spareCol g)).length

/-- A half of the rows holds an unrepaired group: groups `a` to `a + 7`. -/
def State.badRows (s : State) (a : Nat) : Bool := (List.range 8).any fun i => spareUnrep (tblGet 0 s.acre.spareRow (a + i))

/-- ROW_HALF by R90. -/
def State.rowHalfNow (s : State) : Nat :=
  if s.usableCols = 0 then 3
  else if s.badRows 0 then (if s.badRows 8 then 3 else 2) else if s.badRows 8 then 1 else 0

/-- REPLACE_REQUEST is due (R435). -/
def State.replaceDue (s : State) : Bool :=
  (List.range (colGroups s.build)).any (fun g => spareUnrep (tblGet 0 s.acre.spareCol g))
    || (List.range 16).any (fun g => spareUnrep (tblGet 0 s.acre.spareRow g))
    || (List.range (bankGroups s.build)).any (fun g => spareUnrep (tblGet 0 s.granary.spare g))
    || s.granary.oos || s.rowHalfNow == 3

/-- Sets REPLACE_REQUEST when it is due; its rise raises source 4 (R429, R435). -/
def State.checkReplace (s : State) : State :=
  if s.replaceDue && !s.flt.replace then ({ s with flt := { s.flt with replace := true } }).raise 4 else s

/-- C_EFF, ROW_HALF and SAG_HALF as the spare maps and the sag level give them now (R90). -/
def State.applyWidth (s : State) : State :=
  let half := decide (s.energy.level.val = 3)
  { s with acre := { s.acre with cEff := effectiveCols s.usableCols half, rowHalf := s.rowHalfNow, sagHalf := half } }

/-- Sets a bit of a spare word. -/
def setBit (w : U32) (i : Nat) : U32 := w ||| BitVec.ofNat 32 (2 ^ i)

/-- Takes a shadow of 8 granules for a bank of group `g` (R115); a ninth, or one that the pool cannot supply, takes the
Granary out of service and damages every field. -/
def State.giveShadow (s : State) (g : Nat) : State :=
  let mark (i : Nat) (s : State) : State := { s with granary := { s.granary with spare := tblModify 0 s.granary.spare g (setBit · i) } }
  let s := mark 30 s
  if s.granary.shadows < 8 ∧ 8 ≤ s.barn.poolFree then
    mark 29 { s with
      granary := { s.granary with shadows := s.granary.shadows + 1 }
      barn := { s.barn with poolFree := s.barn.poolFree - 8 } }
  else { s with
    granary := { s.granary with oos := true }
    fields := s.fields.map fun (e : Nat × Field) => (e.1, if e.2.state = 0 then e.2 else { e.2 with state := 4 }) }

/-- A bank of group `g` becomes unrepaired while the Granary runs: a Granary that is out of service takes no shadow. -/
def State.takeShadow (s : State) (g : Nat) : State :=
  if s.granary.oos then { s with granary := { s.granary with spare := tblModify 0 s.granary.spare g (setBit · 30) } }
  else s.giveShadow g

/-- A bank whose copy has ended switches to its group's spare; MIGRATING clears with the group's last copy (R114). -/
def switchBank (g : Granary) (b : Nat) : Granary :=
  let n := b / 64
  let w := tblGet 0 g.spare n
  let w := if !w.getLsbD 31 && w.toNat % 64 == b % 64 then setBit w 31 else w
  { g with spare := tblSet 0 g.spare n (if g.moving.any fun m => m / 64 == n then w else w &&& ~~~ 0x10000000#32) }

/-- Switches every bank that waits for the boundary. -/
def State.switchBanks (s : State) : State :=
  { s with granary := { s.granary.due.foldl switchBank s.granary with due := [] } }

/-- Applies a changed map at a boundary between two commands on the Acre: while no command is on it (R92). An Acre out of
service is held in reset (R435). -/
def State.refreshWidth (s : State) : State :=
  let s := s.checkReplace
  let s := if s.acre.run.isSome then s else s.applyWidth.switchBanks
  if s.rowHalfNow = 3 then s.fnStart 0 else s

/-! ### Release (R432 step 6) -/

/-- A reset source of function `n` is active: its pin, its HOLD bit, or an Acre out of service. -/
def State.fnHeld (s : State) (n : Nat) : Bool :=
  s.pins.fnLow.getLsbD n || s.flt.hold.getLsbD n || (n == 0 && s.rowHalfNow == 3)

/-- The function that an uncorrectable error of R426 resets, by REGION of FLT_UE_INFO. -/
def ueFn (region : Nat) : Option Nat :=
  if region = 3 ∨ region = 4 then some 2
  else if region = 5 ∨ region = 7 ∨ region = 12 then some 1
  else if region = 6 ∨ region = 8 then some 0
  else if region = 9 then some 3
  else none

/-- FN_RST_ASSERT (R426, R432). -/
def fnRstAssertDo (n : Nat) (src : ResetSource) (s : State) : State :=
  match src with
  | .pin => { s with pins := { s.pins with fnLow := s.pins.fnLow ||| BitVec.ofNat 10 (2 ^ n) } }.fnStart n
  | .auto region word => if ueFn region = some n then (s.ueInfo region word).fnAuto n else s

/-- FN_RST_ASSERT. -/
def execFnRstAssert (fn : Fin 10) (src : ResetSource) (now : Time) (s : State) : Out :=
  let t := s.tick now
  .next (s.keep (if t.awake && t.boot.ready then fnRstAssertDo fn.val src t
    else match src with
      | .pin => { t with pins := { t.pins with fnLow := t.pins.fnLow ||| BitVec.ofNat 10 (2 ^ fn.val) } }
      | .auto _ _ => t))

/-- The function has left its reset (R432 step 6). -/
def State.fnDone (s : State) (n : Nat) : State :=
  { s with flt := { s.flt with inReset := s.flt.inReset &&& ~~~ BitVec.ofNat 10 (2 ^ n) } }

end Sys2Proof.Machine
end

