-- ==== Sys2Proof/Machine/Pair.lean ====
section
/-! DEFINITION. The pair: what arrives on the link (14_ports.md R396, R397) and what it does (16_faults_spares_pairs.md
R441 to R449), with the writes of PAIR_CTL (R441, R447, R448, R451). -/

namespace Sys2Proof.Machine

/-- Frames that wait leave, at most as many as a link holds. -/
def State.flushLink (s : State) : State := s.flushPair 64

/-- The link takes frames. -/
def State.linked (s : State) : Bool := s.powered && s.build.pairLink && !s.fnReset 8 && !s.energy.heldFlag

/-- The frames that an ACK covers are dropped: those before FSEQ `ack` among the last 2^15 (R396, R397). -/
def State.acked (s : State) (ack : U16) : State :=
  { s with pair := { s.pair with unacked := s.pair.unacked.filter fun f => decide ((f.fseq - ack).toNat < 2 ^ 15) } }

/-- Takes a frame or a later entry of the frame taken last: whether it is accepted, after its ACK; its buffer is freed at once,
and its credit returned (R397 rules 1 and 2). -/
def State.receive (s : State) (h : FrameHdr) : State × Bool :=
  let s := if h.idx = 0 then { s with pair := { s.pair with returned := s.pair.returned + 1 } }.bgEvent 13 4 else s
  if !h.crcOk then ({ s with pair := { s.pair with crcErr := s.pair.crcErr + 1 } }, false)
  else if h.idx = 0 then
    let s := (s.acked h.ack).flushLink
    if h.fseq = s.pair.rxNext then ({ s with pair := { s.pair with rxNext := s.pair.rxNext + 1 } }, true)
    else (s, false)
  else (s, h.fseq + 1 == s.pair.rxNext)

/-- Runs `f` on an accepted frame. -/
def State.onFrame (s : State) (h : FrameHdr) (f : State → State) : State :=
  if !s.linked then s
  else match s.receive h with
    | (s, true) => f s
    | (s, false) => s

/-! ### Taking over and detaching -/

/-- The primary's DIGEST for a command has arrived. -/
def State.digested (s : State) (c : Cmd) : Bool := c.matched || s.pair.theirs.any fun e => e.1 == c.ring && e.2.1 == c.seq

/-- The primary's last PROGRESS of a command. -/
def State.progressOf (s : State) (c : Cmd) : Option (Nat × Nat) :=
  (s.pair.progress.find? fun e => e.1 == c.ring && e.2.1 == c.seq).map fun e => e.2.2

/-- A command that writes result records or a strip image (R447 step 2). -/
def Cmd.stepped (c : Cmd) : Bool := c.op == opSample || c.op == opVerify || c.op == opStripGet

/-- A TRAIN_STEP that accumulates G (R174). -/
def Cmd.accumulates (c : Cmd) : Bool := c.op == opTrain && pkGradAcc c.run == 1

/-- The progress counts of an aborted command (R447 step 3). -/
def Cmd.withProgress (c : Cmd) (p : Nat × Nat) : Cmd :=
  let w := c.work
  if c.op = opTrain then { c with work := { w with train := { w.train with gDone := p.1, dhValid := p.2 } } }
  else if c.op = opUpdate then { c with work := { w with fill := { w.fill with done := p.1 } } }
  else if c.op = opSowFill then
    let n := p.1 + 2 ^ 32 * p.2
    { c with work := { w with fill := { w.fill with done := n, asked := n } } }
  else c

/-- Ends a command that its member cannot vouch for with ABORTED_RESET (R447, R448). -/
def State.abandon (s : State) (c : Cmd) (p : Nat × Nat) : State :=
  let c := { c.withProgress p with heldWrites := [], outputs := [] }
  if c.stage = .finished then
    if c.recAsked then s
    else
      let b := if isClassOp c.op && c.started then classBody (s.fieldOf c) c .abortedReset else bodyZero
      s.setCmd { c with reason := .abortedReset, body := cplBody b.fields }
  else ((s.setCmd c).unpause c).endCmd c .abortedReset

/-- Asks for the writes that a command held back. -/
def State.releaseHeld (s : State) (c : Cmd) : State :=
  let s := s.setCmd { c with heldWrites := [], outputs := [] }
  c.heldWrites.foldl State.ask s

/-- Every output of an accumulating TRAIN_STEP is written by the new server; what the primary wrote is rewritten. -/
def State.releaseOutputs (s : State) (c : Cmd) : State :=
  let s := s.setCmd { c with heldWrites := [], outputs := [] }
  c.outputs.reverse.foldl (fun s o => s.askWrite .gWrite c.ring c.seq 0 o.2.1 o.2.2) s

/-- The take-over of one dispatched command (R447 steps 2 and 3). -/
def State.inherit (s : State) (c : Cmd) : State :=
  if s.digested c then s.setCmd { c with matched := true, heldWrites := [], outputs := [] }
  else if c.stepped then s.releaseHeld c
  else if c.accumulates && (s.progressOf c).isNone then s.releaseOutputs c
  else s.abandon c ((s.progressOf c).getD (0, 0))

/-- Runs `f` on every dispatched command, in fetch order. -/
def State.eachDispatched (s : State) (f : State → Cmd → State) : State :=
  s.cmds.foldl (fun s c => match s.cmds.find? (fun d => d.order == c.order) with
    | some d => if d.disp.isSome then f s d else s
    | none => s) s

/-- The entries of the primary are of no more use. -/
def State.dropEntries (s : State) : State :=
  { s with pair := { s.pair with dispatches := [], checks := [], commits := [], progress := [], theirs := [] } }

/-- A command whose commit waited for the primary's entry begins it by itself (R447). -/
def Cmd.ownCommit (c : Cmd) : Cmd := if c.stage == .committing && c.work.steps.isEmpty then { c with commit := true } else c

/-- The secondary takes over (R447). -/
def takeoverDo (s : State) : State :=
  if !s.secondary then s
  else
    let s := s.eachDispatched State.inherit
    let s := { s with
      cmds := s.cmds.map Cmd.ownCommit
      pair := { s.pair with holding := false } }.dropEntries
    (s.setPair 5).settle

/-- DETACH: a secondary ends its held commands with ABORTED_RESET; a member of a pair tells its partner; each serves
alone (R448; log 20). -/
def detachDo (s : State) : State :=
  let s := if s.pair.state = 2 then s.sendPair frControl (controlPayload s 3) else s
  if s.secondary then
    let s := s.eachDispatched fun s c => s.abandon c (0, 0)
    let s := { s with pair := { s.pair with holding := false } }.dropEntries
    (s.setPair 4).settle
  else if s.pair.state = 2 then (s.setPair 4).settle
  else s

/-- A HELLO of the partner against this member: the pair is formed or refused (R441). -/
def State.compareHello (s : State) (h : Bool × U32 × U32 × U32 × U32) : State :=
  let (role, version, build, fwVersion, fwCrc) := h
  let bad := flagBit (build != glbBuild s.build) 1 + flagBit (version != glbVersion) 2
    + flagBit (fwVersion != fwVersionOf s.activeFw || fwCrc != crc32c s.activeFw) 4
  let s := { s with pair := { s.pair with mismatch := bad, hello := none } }
  if bad = 0 ∧ role ≠ s.pair.role then (s.setPair 2).dropEntries else s.setPair 3

/-- A write of PAIR_CTL (R441, R451): DETACH, then TAKEOVER, then EN, ROLE and AUTO. With EN = 1 and every ring disabled
a member outside a pair sends HELLO, and compares the partner's where that has come already. -/
def pairCtlDo (v : U32) (s : State) : State :=
  if !s.build.pairLink then s
  else
    let s := if v.getLsbD 1 then detachDo s else s
    let s := if v.getLsbD 0 then takeoverDo s else s
    let s := { s with pair := { s.pair with en := v.getLsbD 31, role := v.getLsbD 30, auto := v.getLsbD 29 } }
    let idle := (List.range 64).all fun r => !(s.ring r).en
    if v.getLsbD 31 && !v.getLsbD 1 && !v.getLsbD 0 && idle && s.pair.state != 2 then
      let s := (({ s with pair := { s.pair with mismatch := 0 } }).setPair 1).sendPair frControl (controlPayload s 1)
      match s.pair.hello with
      | some h => s.compareHello h
      | none => s
    else s

/-- PAIR_EN: a write of PAIR_CTL without DETACH and TAKEOVER (R441). -/
def execPairEn (v : U32) (s : State) : Out :=
  .next (s.keep (s.regWrite (pairCtlDo (v &&& ~~~ 3#32))))

/-- DETACH: a write of PAIR_CTL with DETACH = 1 (R448). -/
def execDetach (v : U32) (now : Time) (s : State) : Out :=
  .next (s.keep ((s.tick now).regWrite (pairCtlDo ((v &&& ~~~ 3#32) ||| 2#32))))

/-- TAKEOVER: a write of PAIR_CTL with TAKEOVER = 1 (R447). -/
def execTakeover (v : U32) (now : Time) (s : State) : Out :=
  .next (s.keep ((s.tick now).regWrite (pairCtlDo ((v &&& ~~~ 3#32) ||| 1#32))))

/-! ### Control frames -/

/-- A HELLO: compared while forming, kept until this member's own EN where it comes before (R441). -/
def helloDo (role : Bool) (version build fwVersion fwCrc : U32) (s : State) : State :=
  let h := (role, version, build, fwVersion, fwCrc)
  if s.pair.state = 1 then s.compareHello h
  else if s.pair.state = 2 then s
  else { s with pair := { s.pair with hello := some h } }

/-- PAIR_HELLO. -/
def execPairHello (h : FrameHdr) (role : Bool) (version build fwVersion fwCrc : U32) (s : State) : Out :=
  .next (s.keep (s.onFrame h (helloDo role version build fwVersion fwCrc)))

/-- A FAILING frame: PARTNER_FAILING, and with AUTO a secondary takes over (R447). -/
def failingDo (s : State) : State :=
  let s := ({ s with pair := { s.pair with failing := true } }).raise 8
  if s.pair.auto then takeoverDo s else s

/-- PAIR_FAILING. -/
def execPairFailing (h : FrameHdr) (now : Time) (s : State) : Out :=
  .next (s.keep ((s.tick now).onFrame h failingDo))

/-- A CONTROL frame with code DETACH: a member of a pair becomes DETACHED; a secondary holds (R448; log 20). -/
def detachFrameDo (s : State) : State :=
  if s.pair.state = 2 then ({ s with pair := { s.pair with holding := s.pair.role } }).setPair 4 else s

/-- PAIR_DETACH_FRAME. -/
def execPairDetachFrame (h : FrameHdr) (s : State) : Out := .next (s.keep (s.onFrame h detachFrameDo))

/-! ### Digests and state entries -/

/-- A DIGEST entry: a secondary compares it with its own; to a primary it names a diverged command (R446; log 20). -/
def digestDo (e : DigestEntry) (s : State) : State :=
  if s.secondary then
    let s := { s with pair := { s.pair with
      theirs := s.pair.theirs ++ [(e.ring.val, e.seq, e.crc)]
      progress := s.pair.progress.filter fun p => !(p.1 == e.ring.val && p.2.1 == e.seq) } }
    s.settle
  else if s.primary then s.diverge e.ring.val e.seq e.crc
  else s

/-- PAIR_DIGEST. -/
def execPairDigest (h : FrameHdr) (entry : DigestEntry) (now : Time) (s : State) : Out :=
  .next (s.keep ((s.tick now).onFrame h (digestDo entry)))

/-- Runs `f` on a STATE entry that a following secondary receives (R444). -/
def State.onEntry (s : State) (h : FrameHdr) (f : State → State) : State :=
  s.onFrame h fun s => if s.secondary && s.pair.state == 2 then f s else s

/-- PAIR_STATE_DISPATCH (R444 point 1). -/
def execPairStateDispatch (h : FrameHdr) (entry : StateEntry) (now : Time) (s : State) : Out :=
  .next (s.keep ((s.tick now).onEntry h fun s =>
    { s with pair := { s.pair with dispatches := s.pair.dispatches ++ [(entry.ring.val, entry.seq)] } }.settle))

/-- PAIR_STATE_CHECK (R444 point 2). -/
def execPairStateCheck (h : FrameHdr) (entry : StateEntry) (s : State) : Out :=
  .next (s.keep (s.onEntry h fun s =>
    { s with pair := { s.pair with
      checks := s.pair.checks ++ [(entry.ring.val, entry.seq, entry.time, entry.narrow, entry.shed)] } }))

/-- A COMMIT entry: a command without strip-steps whose work is over begins its commit; for any other the entry is kept. -/
def commitEntryDo (e : StateEntry) (s : State) : State :=
  let kept := { s with pair := { s.pair with commits := s.pair.commits ++ [(e.ring.val, e.seq, e.time)] } }
  match s.cmd e.ring.val e.seq with
  | some c => if c.stage == .committing && c.work.steps.isEmpty then (s.setCmd { c with commit := true }).settle else kept
  | none => kept

/-- PAIR_STATE_COMMIT (R444 point 3). -/
def execPairStateCommit (h : FrameHdr) (entry : StateEntry) (s : State) : Out := .next (s.keep (s.onEntry h (commitEntryDo entry)))

/-- PAIR_STATE_PROGRESS (R444 point 4): the last entry of a command stands. -/
def execPairStateProgress (h : FrameHdr) (entry : StateEntry) (s : State) : Out :=
  .next (s.keep (s.onEntry h fun s =>
    { s with pair := { s.pair with
      progress := (entry.ring.val, entry.seq, entry.progA.toNat, entry.progB.toNat)
        :: s.pair.progress.filter fun p => !(p.1 == entry.ring.val && p.2.1 == entry.seq) } }))

/-! ### The link -/

/-- PAIR_IDLE: the frame carries nothing but its ACK; a frame of a TYPE that no table names takes its place in the sequence
and is discarded in the same way (R396, R397; log 76). -/
def execPairIdle (h : FrameHdr) (_type : Byte) (s : State) : Out := .next (s.keep (s.onFrame h fun s => s))

/-- PAIR_CREDIT: a credit comes back, 32 at most; the first one brings the link up, and 32 credits go to the partner (R397
rule 1). -/
def execPairCredit (s : State) : Out :=
  .next (s.keep (if s.linked then
    { s with pair := { s.pair with
        credits := min 32 (s.pair.credits + 1), up := true
        returned := s.pair.returned + (if s.pair.up then 0 else 32) } }.flushLink else s))

/-- The uncovered frames that a resend may send, oldest first: as many as there are credits, at sag level 3 only IDLE frames
(R397, R419). -/
def State.resendable (s : State) : List PairFrame :=
  (s.pair.unacked.filter fun f => decide (s.energy.level.val < 3) || f.type == frIdle).take s.pair.credits

/-- Sends the resendable frames again, each with the ACK of now and against a credit; REPLAYS counts the resend (log 21). -/
def pairResendDo (s : State) : State :=
  let fs := s.resendable
  { s with pair := { s.pair with
    replays := s.pair.replays + 1
    credits := s.pair.credits - fs.length
    unacked := s.pair.unacked.map fun f => if fs.contains f then { f with ack := s.pair.rxNext } else f } }.bgEvent 13 (4 * fs.length)

/-- PAIR_RESEND (R397 rule 3). -/
def execPairResend (s : State) : Out :=
  .next (s.keep (if s.linked && s.pair.up && !s.resendable.isEmpty then pairResendDo s else s))

/-- PAIR_IDLE_SEND (R397 rule 4). -/
def execPairIdleSend (s : State) : Out :=
  .next (s.keep (if s.linked && s.pair.up && s.mayTransmit frIdle then s.transmit frIdle [] else s))

/-- PAIR_LINK_DOWN (R397 rule 5, R448). -/
def execPairLinkDown (s : State) : Out := .next (s.keep (if s.linked && s.pair.up then s.linkDown else s))

end Sys2Proof.Machine
end

