-- ==== Sys2Proof/Machine/Tenants.lean ====
section
/-! DEFINITION. Tenant budgets (11_strips_tenants_deadlines.md R286 to R291, R304). -/

namespace Sys2Proof.Machine

/-- The window that holds time `t` for windows of `w` microseconds (R287). -/
def windowOf (t : Time) (w : U32) : Nat := t.toNat / (w.toNat * 1000)

/-- REMAIN after `k` turns from `x`: each turn makes REFILL + min(REMAIN, 0) of it (R287). -/
def afterTurns (k refill : Nat) (x : Int) : Int :=
  if k = 0 then x else refill + min (min x 0 + (k - 1 : Nat) * refill) 0

/-- `k` turns of a tenant's window at time `t`, into window `w`; they are kept while reservations are open (R287, R289). -/
def turnWindow (t k w : Nat) (n : Tenant) : Tenant :=
  { n with
    remain := afterTurns k n.refill n.remain, window := w
    past := if n.reserved = 0 then [] else ⟨t, n.remain, k, n.refill⟩ :: n.past }

/-- Turns the window of a tenant, once for each window entered, when `t` lies in a later one (R287). -/
def turnAt (t : Time) (n : Tenant) : Tenant :=
  let w := windowOf t n.windowUs
  if n.windowUs = 0 then n
  else if n.window < w then turnWindow ((n.window + 1) * (n.windowUs.toNat * 1000)) (w - n.window) w n else n

/-- TENANT_WINDOW_TURN (R287). -/
def execTenantWindowTurn (n : Fin 256) (now : Time) (s : State) : Out :=
  let t := s.tick now
  .next (s.keep (if t.running && !t.halted then t.modTenant n.val (turnAt t.timeNs) else t))

/-- A write of WINDOW_US at time `t` (R287): a new non-zero length applies and turns the window at once. -/
def writeWindow (t : Time) (v : U32) (n : Tenant) : Tenant :=
  let n := { n with windowUs := v }
  if v = 0 then n else turnWindow t.toNat 1 (windowOf t v) n

/-- TEN_WINDOW_WRITE (R287). -/
def execTenWindowWrite (n : Fin 256) (v : U32) (now : Time) (s : State) : Out :=
  .next (s.keep ((s.tick now).regWrite fun s => s.modTenant n.val (writeWindow s.timeNs v)))

/-- The ends of the S32 range. -/
def satS32 (x : Int) : Int := max (-(2 ^ 31 : Int)) (min (2 ^ 31 - 1 : Int) x)

/-- A write of ADJ (R290). -/
def writeAdj (v : U32) (n : Tenant) : Tenant := { n with remain := satS32 (n.remain + v.toInt) }

/-- TEN_ADJ (R290). -/
def execTenAdj (n : Fin 256) (v : U32) (s : State) : Out :=
  .next (s.keep (s.regWrite fun s => s.modTenant n.val (writeAdj v)))

/-- The available budget of a tenant: REMAIN - RESERVED (R288). -/
def Tenant.available (n : Tenant) : Int := n.remain - n.reserved

/-- A change `d` of REMAIN carried through turns that came after it, oldest first: the turns with it, and the change that is
left. -/
def carryTurns (d : Int) : List Turn → List Turn × Int
  | [] => ([], d)
  | x :: r =>
    let d' := afterTurns x.count x.refill (x.before + d) - afterTurns x.count x.refill x.before
    let (l, e) := carryTurns d' r
    ({ x with before := x.before + d } :: l, e)

/-- The debit of a commit of `k` tokens at time `t`, against reservation `r`: `counted` says that the tenant had
EN = 1 at the check. It falls in the window that holds `t`, though the window may have turned since (R289, R290). -/
def debit (t : Time) (k r : Nat) (counted : Bool) (n : Tenant) : Tenant :=
  let n := turnAt t n
  let later := n.past.takeWhile fun x => decide (t.toNat < x.since)
  let (l, d) := carryTurns (if counted then -(k : Int) else 0) later.reverse
  let reserved := n.reserved - r
  { n with
    remain := n.remain + d
    reserved := reserved
    committed := add32 n.committed k
    past := if reserved = 0 then [] else l.reverse ++ n.past.drop later.length }

end Sys2Proof.Machine
end

