-- ==== Sys2Proof/Machine/EnergyCmd.lean ====
section
/-! DEFINITION. The energy ledger, the planner and its reports (15_energy_and_supply.md R406 to R417, R423), ENERGY_SET
(13_command_reference.md R367), and the end of a per-function reset (R423, R432). -/

namespace Sys2Proof.Machine

/-! ### Events that a command's fields fix (R409, R414) -/

/-- The operand events of one tile of `cols` columns over contraction length `k`: block products, strand boundaries,
drained values. -/
def tileEvents (k cols : Nat) : List (Nat × Nat) :=
  [(0, 1024 * cols * (kPadOf k / 16)), (3, 1024 * cols * 64), (7, 1024 * cols)]

/-- Granary words of 256 bits that a tile reads for 1,024 rows of contraction length `k`. -/
def tileWords (k : Nat) : Nat := 1024 * k / 64

/-- The beats of `len` bytes at address `a` on a stack port (R371, R483). -/
def beatsOf (a len : Nat) : Nat := if len = 0 then 0 else beatCount (a / 64 * 64) (a % 64 + len)

/-- Counts every event of a list `n` times. -/
def evTimes (n : Nat) (l : List (Nat × Nat)) : List (Nat × Nat) := l.map fun (e : Nat × Nat) => (e.1, n * e.2)

/-- The bytes that a command's hidden states occupy. -/
def hidBytes (p : List Byte) (tokens h : Nat) : Nat := tokens * h * (if pkSrcBf16 p then 2 else 4)

/-- The shape of the field that a LOAD_HEAD describes (13_command_reference.md, LOAD_HEAD). -/
def packetField (p : List Byte) : Field :=
  { fieldReset with
    v := leNat p 36 4 + 1, hk := leNat p 40 1, rot := pktBit p 33 2, shard := pktBit p 33 5
    log2Span := leNat p 44 1, qM1 := leNat p 42 1, shardId := leNat p 43 1, src := leNat p 48 8, rotKey := le64 p 56 }

/-- The read beats of the drain operand O of a command whose forward or dH phase has `units` units (R84, R414, R485): for each
token and unit, or for each tile, whose width follows from the C_eff in force at dispatch. -/
def fuseBeats (c : Cmd) (units : List (Nat × Nat × Nat)) : Nat :=
  let p := c.run
  let n := fuseSize p
  let w := c.work
  let width := w.cEff / chooseFold (pkFold p) w.s w.cEff (c.op == opTrain)
  let tiles := (List.range (passCount w.tokens (max 1 w.s))).map fun q =>
    (List.range (ceilDiv w.s (max 1 width))).map fun j => (q * w.s + j * width, min width ((passTokens c q).2 - j * width))
  if pkFuseOp p = 0 then 0
  else if pkFuseShape p = 0 then
    ((List.range w.tokens).map fun t => (units.map fun u => beatsOf (pkFuseAddr p + n * (t * u.2.2 + u.1)) (n * u.2.1)).sum).sum
  else if pkFuseShape p = 1 then tiles.flatten.length * (units.map fun u => beatsOf (pkFuseAddr p + n * u.1) (n * u.2.1)).sum
  else units.length * (tiles.flatten.map fun e => beatsOf (pkFuseAddr p + n * e.1) (n * e.2)).sum

/-- The units of a TRAIN_STEP's dH phase, or of a forward phase, as `fuseRows` gives them. -/
def fuseUnits (f : Field) (train : Bool) : List (Nat × Nat × Nat) :=
  if train then (List.range (f.h / 1024)).map fun k => fuseRows f (.dh k) else (List.range f.n).map fun w => fuseRows f (.fwd w)

/-- The read and write beats of the dZ buffer, and of the dW stage where it overflows into the scratch region (R168, R171,
R414). -/
def State.trainBeats (s : State) (f : Field) (c : Cmd) : List (Nat × Nat) :=
  let p := c.run
  let passes := passCount c.work.tokens (max 1 c.work.s)
  let dz := beatsOf (pkDzAddr p) (f.n * dzBytes c)
  let w0 := s.wB c
  let bytes := (f.n - w0) * f.h * 1024 * stageEntry (pkBounded p) c.work.tokens c.work.s
  let dw := if pkGradAcc p = 2 then 0 else beatsOf (pkScratchAddr p) bytes
  [(12, passes * (dz + dw)), (11, passes * dz + (passes - 1) * dw)]

/-- The event counts that the fields of a fill-class command fix (R414). -/
def State.fixedEvents (s : State) (f : Field) (c : Cmd) : List (Nat × Nat) :=
  let p := c.run
  let t := c.work.tokens
  let n := f.n
  let h := f.h
  let own := f.ownRows
  let hid := if pkStreamSrc p then [] else [(11, beatsOf (pkHidAddr p) (hidBytes p t h))]
  let passes := passCount t (max 1 c.work.s)
  let fwd := evTimes (passes * n) (tileEvents h c.work.s ++ [(4, tileWords h)])
  let fuse := [(11, fuseBeats c (fuseUnits f (c.op == opTrain)))]
  if c.op = opSample then
    fwd ++ hid ++ fuse ++ [(10, t * h), (11, beatsOf (pkListAddr p) (4 * t))] ++ (if pkResStream p then [] else [(12, beatsOf (pkResAddr p) (256 * t))])
  else if c.op = opHeadFwd then
    let size := if pkOutMode p = 1 then 16 * t else t * own * (if pkOutFmt p = 1 then 2 else 4)
    fwd ++ hid ++ fuse ++ [(10, t * h)] ++ (if pkOutDest p = 1 then [] else [(12, beatsOf (pkOutAddr p) size)])
  else if c.op = opTrain then
    let g := if pkGradAcc p = 2 then []
      else [(0, n * 1024 * h * ceilDiv t 16), (3, n * 1024 * h * 64), (7, passes * n * 1024 * h)] ++ [(12, beatsOf (pkGradAddr p) (4 * own * h))]
        ++ (if pkGradAcc p = 1 then [(11, beatsOf (pkGradAddr p) (4 * own * h))] else [])
    let dh := evTimes (passes * (h / 1024)) (tileEvents (1024 * n) c.work.s ++ [(4, tileWords (1024 * n))])
    let out := if pkDhStream p then [] else [(12, beatsOf (pkDhAddr p) (t * h * (if pkDhBf16 p then 2 else 4)))]
    evTimes 2 fwd ++ g ++ dh ++ hid ++ fuse ++ out ++ s.trainBeats f c
      ++ [(10, 2 * t * h), (11, beatsOf (pkTgtAddr p) (4 * t)), (12, beatsOf (pkLossAddr p) (8 * t))]
  else if c.op = opUpdate then
    if pktBit p 33 0 then [(11, beatsOf (leNat p 40 8) (4 * own * h))]
    else
      let rd := if pktBit p 33 2 then 5 else 4
      [(14, own * h), (10, own * h), (11, rd * beatsOf 0 (4 * own * h)), (12, 3 * beatsOf 0 (4 * own * h))]
  else if c.op = opLoadHead then
    let g := packetField p
    let fmt := leNat p 33 1 % 4
    if fmt = 0 then [(11, beatsOf (leNat p 48 8) (g.n * 516 * g.h))]
    else
      let reads := if fpIsZero (le32 p 72) then 2 else 1
      let elems := g.ownRows * g.h
      [(10, reads * elems), (11, reads * beatsOf (leNat p 48 8) (elems * (if fmt = 1 then 4 else 2)))]
  else if c.op = opSowFill then
    let n := leNat p 64 8
    let dist := leNat p 32 1
    let bytes := if dist = 2 then ceilDiv n 8 else if dist = 3 then 16 * n else if pktBit p 33 0 then 2 * n else 4 * n
    [(10, n), (12, beatsOf (leNat p 48 8) bytes)]
  else []

/-- The projection P in microjoules, rounded up (R414). -/
def State.projection (s : State) (c : Cmd) : Nat :=
  ceilDiv (eventEnergy s.energy.coefs s.energy.trim (s.fixedEvents (s.fieldOf c) c)) ujUnit

/-! ### The ledger -/

/-- REMAIN of the epoch in 2^-12 fJ (R412). -/
def Energy.remain (e : Energy) : Int := (e.allow * ujUnit : Nat) + e.deficit - e.spent

/-- Accrues the events of every account at the end of a tick (R407). -/
def State.accrueAll (s : State) : State :=
  s.cmds.foldl (fun s c => match s.cmds.find? (fun d => d.order == c.order) with
    | some d => let (t, d) := s.accrue d; t.setCmd d
    | none => s) s

/-- Accrues the events of BG and converts it (R407, R408). -/
def State.accrueBg (s : State) : State :=
  let e := eventEnergy s.energy.coefs s.energy.trim s.energy.bgEvents
  let total := s.energy.carry + s.energy.bgAcct + e
  { s with energy := { s.energy with
      bgEvents := [], bgAcct := 0, carry := total % ujUnit
      totBg := s.energy.totBg + BitVec.ofNat 64 (total / ujUnit)
      spent := s.energy.spent + e
      sampleAccrued := s.energy.sampleAccrued + e } }

/-- TRIM as it was set last (R411, R423). -/
def Energy.trimSet (e : Energy) : Nat := e.trimNext.getD e.trim

/-- The next tick begins, under the TRIM that the last sample set (R411). -/
def nextTick (e : Energy) : Energy := { e with tick := e.tick + 1, trim := e.trimSet, trimNext := none }

/-- Counts `n` corrected Barn reads (R111, R429). -/
def State.barnCe (s : State) (n : Nat) : State :=
  ({ s with flt := { s.flt with ceBarn := s.flt.ceBarn + BitVec.ofNat 16 n } }).corrected n

/-- LEDGER_TICK (R407, R408): `bg` carries the counts of the static classes and of work that no other row shows, `barn` the
Barn accesses of commands, `ce` the corrected Barn reads outside tiles (R111, R406, R409; log 42). -/
def ledgerTickDo (bg : List TickCount) (barn : List BarnUse) (ce : Nat) (s : State) : State :=
  let s := bg.foldl (fun s e => s.bgEvent e.1 e.2) (s.barnCe ce)
  let s := barn.foldl (fun s e => s.event e.ring.val e.seq 6 e.n) s
  let s := s.accrueAll.accrueBg
  { s with energy := nextTick s.energy }

/-- The tick in progress is over (R407). -/
def State.tickOver (s : State) : Bool := decide (s.energy.tick < tickOf s.timeNs)

/-- LEDGER_TICK: one row for each tick, once TIME_NS has reached its end. -/
def execLedgerTick (now : Time) (bg : List TickCount) (barn : List BarnUse) (barnCe : Nat) (s : State) : Out :=
  let t := s.tick now
  .next (s.keep (if t.running && !t.halted && t.tickOver then ledgerTickDo bg barn barnCe t else t))

/-! ### The planner (R415, R416) -/

/-- O: the projections of admitted fill-class commands still to be charged, in 2^-12 fJ (R415). -/
def State.owed (s : State) : Nat :=
  (s.cmds.map fun c => if c.admitted && (c.cls == 1 || c.cls == 2) then c.proj * ujUnit - c.acct else 0).sum

/-- The condition of R415 for projection `p`. -/
def State.fits (s : State) (p : Nat) : Bool :=
  decide ((p * ujUnit + s.owed : Nat) ≤ s.energy.remain - ((s.energy.reserve * ujUnit - s.energy.genSpent : Nat) : Int))

/-- The planner decides now: it runs, no sag level stops admission, its function is not in reset (R419, R420, R423). -/
def State.planning (s : State) : Bool := s.working && decide (s.energy.level.val = 0) && !s.fnReset 9

/-- A deferred command that stands before `c`: dispatched earlier, of the same or a lower class number (R416). -/
def State.deferredBefore (s : State) (c : Cmd) : Bool :=
  s.cmds.any fun d => d.order != c.order && d.isDeferred && decide (d.dispOrder < c.dispOrder) && decide (d.cls ≤ c.cls)

/-- The decision on a command whose projection is `p` (R415, R416): `big` says that no epoch can hold it. -/
def State.decideOn (s : State) (first : Bool) (c : Cmd) (p : Nat) (big : Bool) : State :=
  if !s.energy.planEn then s.setCmd { c with proj := p, admitted := true, deferred := false }
  else if big then
    if first && s.owed == 0 then
      let s := s.setCmd { c with proj := p, admitted := true, deferred := false }
      { s with energy := { s.energy with oversize := s.energy.oversize + 1 } }
    else s.setCmd { c with proj := p, deferred := true }
  else if s.fits p then s.setCmd { c with proj := p, admitted := true, deferred := false }
  else s.setCmd { c with proj := p, deferred := true }

/-- Considers one fill-class command (R415, R416): `first` says that an epoch turns and nothing is considered ahead. -/
def State.consider (s : State) (first : Bool) (c : Cmd) : State :=
  let p := s.projection c
  State.decideOn { s with energy := { s.energy with lastProj := BitVec.ofNat 32 (sat32 p) } } first c p
    (decide ((s.energy.allow : Int) - s.energy.reserve < p))

/-- Inserts by class, then dispatch order. -/
def insertByClass (c : Cmd) : List Cmd → List Cmd
  | [] => [c]
  | d :: t => if c.cls < d.cls ∨ (c.cls = d.cls ∧ c.dispOrder < d.dispOrder) then c :: d :: t else d :: insertByClass c t

/-- Reconsiders the deferred commands in class order and dispatch order (R416). -/
def State.reconsider (turn : Bool) (s : State) : State :=
  if !s.planning then s
  else ((((s.cmds.filter Cmd.isDeferred).foldr insertByClass []).foldl (fun (acc : State × Bool) c =>
      let s := acc.1
      match s.cmds.find? (fun d => d.order == c.order) with
      | some d => if s.deferredBefore d then acc else (s.consider (turn && acc.2) d, false)
      | none => acc) (s, true)).1).settle

/-- The fill-class command may be considered now: dispatched, with its shape known where the Acre runs it. -/
def Cmd.admittable (c : Cmd) : Bool :=
  c.active && (c.cls == 1 || c.cls == 2) && !c.admitted && !c.deferred && c.stage == .queued && (!isAcreOp c.op || c.started)

/-- The first consideration of a command (R415): one behind a deferred command is deferred with it (R416). -/
def energyAdmitDo (r : Nat) (q : U32) (s : State) : State :=
  match s.cmd r q with
  | some c =>
    if s.planning && c.admittable then
      if s.energy.planEn && s.deferredBefore c then s.setCmd { c with deferred := true } else (s.consider false c).settle
    else s
  | none => s

/-- ENERGY_ADMIT. -/
def execEnergyAdmit (ring : Fin 64) (seq : U32) (s : State) : Out := .next (s.keep (energyAdmitDo ring.val seq s))

/-! ### Epochs and reports (R412, R413, R417) -/

/-- The epoch that holds time `t`. -/
def epochOf (t : Time) (us : Nat) : Nat := t.toNat / (us * 1000)

/-- The reports of the ending epoch (R417). -/
def epochReports (e : Energy) : Energy :=
  let uj := e.spent / ujUnit
  { e with
    tpj := if uj = 0 then 0 else BitVec.ofNat 32 (sat32 (e.epochServed * 256 * 10 ^ 6 / uj))
    tpkwh := if uj = 0 then 0 else BitVec.ofNat 64 (e.epochTrained * 36 * 10 ^ 11 / uj) }

/-- Values that wait for the turn (R367). -/
def applyNext (e : Energy) : Energy :=
  match e.next with
  | none => e
  | some n => { e with
      next := none
      allow := n.allow.getD e.allow
      reserve := n.reserve.getD e.reserve
      epochUs := n.epochUs.getD e.epochUs
      coefs := match n.coefs with
        | none => e.coefs
        | some l => (List.range l.length).foldl (fun t i => tblSet 0 t i (l.getD i 0)) e.coefs }

/-- The turn of an epoch at time `t` (R412, R413). -/
def turnEpoch (t : Time) (e : Energy) : Energy :=
  let e := epochReports e
  let left := min e.remain 0
  let e := applyNext e
  { e with deficit := left, spent := 0, genSpent := 0, epochServed := 0, epochTrained := 0, epoch := epochOf t e.epochUs }

/-- EPOCH_TURN (R412): TIME_NS has entered a later epoch. -/
def execEpochTurn (now : Time) (s : State) : Out :=
  let t := s.tick now
  .next (s.keep (if t.running && !t.halted && decide (t.energy.epoch < epochOf t.timeNs t.energy.epochUs) then
    State.reconsider true { t with energy := turnEpoch t.timeNs t.energy } else t))

/-! ### Telemetry (R411) -/

/-- The integer nearest to a finite FP32, ties to even; 0 below zero. -/
def fpRoundNat (x : F32) : Nat :=
  if fpNeg x then 0 else if 0 ≤ fpPow x then fpSig x * 2 ^ (fpPow x).toNat else shiftRoundEven (fpSig x) (-fpPow x).toNat

/-- The new TRIM from measured and modelled energy in 2^-12 fJ (R411; log 22). -/
def trimOf (trim gain measured modelled : Nat) : Nat :=
  let d := fpSub (fpDiv (fpOfNat measured) (fpOfNat modelled)) fpOne
  let x := fpMul (fpOfNat trim) (fpAdd fpOne (fpScale d (-(gain : Int))))
  max 0x0800 (min 0x2000 (fpRoundNat x))

/-- A telemetry sample: the new TRIM applies from the next tick (R411). -/
def telemetryDo (mw : Nat) (s : State) : State :=
  let e := s.energy
  let dt := (s.timeNs - e.lastSample).toNat
  let trim := if e.trimEn && decide (0 < e.sampleAccrued) && decide (dt ≤ 1000000)
    then trimOf e.trimSet e.gain (mw * dt * 1000 * 4096) e.sampleAccrued else e.trimSet
  { s with energy := { e with trimNext := some trim, samples := e.samples + 1, lastSample := s.timeNs, sampleAccrued := 0 } }

/-- TELEMETRY_SAMPLE. -/
def execTelemetrySample (mw : BitVec 24) (now : Time) (s : State) : Out :=
  let t := s.tick now
  .next (s.keep (if t.running && !t.halted then telemetryDo mw.toNat t else t))

/-! ### ENERGY_SET (R367) -/

/-- The fields that an ENERGY_SET carries. -/
def energyFields (p : List Byte) (coefs : List U32) : EnergyNext :=
  ⟨if pktBit p 32 0 then some (leNat p 40 8) else none, if pktBit p 32 1 then some (leNat p 48 8) else none,
    if pktBit p 32 2 then some (leNat p 56 4) else none, if pktBit p 32 3 then some coefs else none⟩

/-- Every value is in range against the values in force at the hold (R367, R489). -/
def energyOk (e : Energy) (p : List Byte) : Bool :=
  let n := energyFields p []
  let allow := n.allow.getD e.allow
  (match n.reserve with
    | some r => decide (r ≤ allow)
    | none => true)
    && (match n.epochUs with
      | some u => decide (10 ≤ u) && decide (u ≤ 1000000)
      | none => true)
    && (!pktBit p 32 3 || (decide (1 ≤ leNat p 60 2) && decide (leNat p 60 2 ≤ 256)))

/-- The body: allowance, reserve and epoch length in force, and COEF_LOADED (R367). -/
def energyBody (e : Energy) (n : Nat) : Body :=
  ⟨[(32, 8, e.allow), (40, 8, e.reserve), (48, 4, e.epochUs), (52, 2, n)], false, false⟩

/-- The end of an ENERGY_SET's hold with the coefficients read. -/
def State.energyApply (s : State) (c : Cmd) (coefs : List U32) : State :=
  let p := c.run
  let n := energyFields p coefs
  let loaded := (n.coefs.map List.length).getD 0
  if pktBit p 32 4 then
    let s := { s with energy := { s.energy with next := some n } }
    s.ctlDone c .ok (energyBody s.energy loaded)
  else
    let keep := s.energy.next
    let e := { s.energy with next := some n }
    let e := if pktBit p 32 2 then { turnEpoch s.timeNs e with next := keep } else { applyNext e with next := keep }
    let s := { s with energy := e }
    (s.ctlDone c .ok (energyBody s.energy loaded)).reconsider (pktBit p 32 2)

/-- ENERGY_SET: its hold checks the values and, with LOAD_COEF, reads the coefficients; the next invocation ends it. -/
def energySetDo (s : State) (c : Cmd) : State :=
  let p := c.run
  if s.fnReset 9 then s
  else match c.stage with
  | .hold _ =>
    if s.open c.ring c.seq .coef then s
    else
      let n := leNat p 60 2
      let b := s.bytes (leNat p 64 8) (4 * n)
      s.energyApply c ((List.range n).map fun i => le32 b (4 * i))
  | _ =>
    if !energyOk s.energy p then s.ctlDone c .badEnergy (energyBody s.energy 0)
    else if pktBit p 32 3 then
      (s.setCmd { c with stage := .hold 0, entered := s.timeNs }).askRead .coef c.ring c.seq 0 (leNat p 64 8) (4 * leNat p 60 2)
    else s.energyApply c []

/-- ENERGY_SET. -/
def execEnergySet (ring : Fin 64) (now : Time) (s : State) : Out :=
  .next (s.keep (s.onCtl ring.val opEnergySet now energySetDo))

/-! ### The end of a per-function reset (R423, R432 step 6) -/

/-- FN_RESET_DONE: every source is released; the function takes new work, and the energy planner reconsiders. -/
def fnResetDoneDo (n : Nat) (s : State) : State :=
  if s.fnReset n && !s.fnHeld n then
    let s := s.fnDone n
    if n = 9 then (s.settle).reconsider false else s.settle
  else s

/-- FN_RESET_DONE. -/
def execFnResetDone (fn : Fin 10) (now : Time) (s : State) : Out :=
  let t := s.tick now
  .next (s.keep (if t.awake && t.boot.ready then fnResetDoneDo fn.val t else t))

end Sys2Proof.Machine
end

