-- ==== Sys2Proof/Machine/Flags.lean ====
section
/-! DEFINITION. Status that is computed from the state: the interrupt outputs (12_rings_and_gates.md R319;
16_faults_spares_pairs.md R429; 14_ports.md R398), mvr_idle (R386), and the live status fields of the register map
(18_register_map.md). -/

namespace Sys2Proof.Machine

/-- The interrupt line of fault source i (R450). -/
def State.sourceLine (s : State) (i : Nat) : Nat := bitField s.flt.route.toNat (3 * i + 2) (3 * i)

/-- A source assigned to line n and enabled is pending; FATAL is always enabled (R398, R429). -/
def State.irq (s : State) (n : Nat) : Bool :=
  s.driving && ((List.range 10).any (fun i => s.flt.pend.getLsbD i && (s.flt.irqEn.getLsbD i || i == 3) && s.sourceLine i == n)
    || (List.range 64).any (fun r => s.cplPend.getLsbD r && (s.ring r).irqLine == n))

/-- mvr_idle[m]: the mover has no transfer outstanding; a write that waits for its port's drain is (R382, R386). -/
def State.mvrIdle (s : State) (m : Nat) : Bool := !s.driving || !(s.xfers ++ s.drainWait).any fun x => x.range.mover == m

/-- barrier_out (R325). -/
def State.barrierOut (s : State) : Bool := s.driving && s.pins.barrierOut

/-- The command on the Acre (R474). -/
def State.onAcre (s : State) : Option Cmd :=
  match s.acre.run with
  | none => none
  | some (r, q) => s.cmd r q

/-- Commands paused at a headland (R474). -/
def State.pausedCount (s : State) : Nat :=
  (s.cmds.filter fun c => c.inPhase && s.acre.run != some (c.ring, c.seq)).length

/-- An activation frame is in progress: beats of it are still to be converted (R389, R404). -/
def State.actOpen (s : State) : Bool := s.cmds.any fun c => c.active && !c.work.ended && c.work.frame.isSome && c.passesLeft

/-- The command whose work runs on the Harrow lanes; a fill that a sag level stops does not (R419, R476). -/
def State.onHarrow (s : State) : Option Cmd :=
  match s.cmds.find? (fun c => c.active && c.work.converting) with
  | some c => some c
  | none => s.cmds.find? fun c => c.filling && c.stage == .running && s.levelLets c && !s.fnReset 2

/-- Commands that wait for the Harrow: with column passes left to convert and none in progress, or a fill that has not begun
(R476). -/
def State.harrowQueue (s : State) : Nat :=
  (s.cmds.filter fun c => c.active
    && (if isAcreOp c.op then c.started && (c.stage == .queued || c.stage == .running) && !c.work.ended && !c.work.converting && c.passesLeft
      else c.stage == .queued && (c.op == opLoadHead || c.op == opUpdate || c.op == opSowFill))).length

/-- A command of a secondary that awaits an entry of the primary: DISPATCH, CHECK, COMMIT or DIGEST (R444, R446, R451). -/
def State.awaitsEntry (s : State) (c : Cmd) : Bool :=
  match c.stage with
  | .finished => !c.matched
  | .committing => !c.commit && !s.commitHeard c
  | _ => (c.released && !s.pair.dispatches.contains (c.ring, c.seq))
    || (isAcreOp c.op && c.active && !c.work.begun && !s.pair.checks.any fun e => e.1 == c.ring && e.2.1 == c.seq)

/-- LAG (R451). -/
def State.lag (s : State) : Nat := if s.secondary then (s.cmds.filter s.awaitsEntry).length else 0

/-- Units that no field holds (R116). -/
def State.freeUnits (s : State) : Nat := granaryUnits s.build - (s.fields.map fun e => e.2.units).sum

end Sys2Proof.Machine
end

