-- ==== Sys2Proof/Machine/Regs.lean ====
section
/-! DEFINITION. The register window (18_register_map.md R466 to R479): its addresses, what every register reads, and what
every register does when written; the control-port commands that are no family's own (R387, R469, R478, R454, R157, R229,
R92, R116, R432). -/

namespace Sys2Proof.Machine

/-- The registers of the window (R472). `hi` tells the _HI half of a pair; `o` is the word of a block. -/
inductive Reg where
  | version | build | status | start | paramAddr (hi : Bool) | fwAddr (hi : Bool) | fwLen | bist | time (hi : Bool)
  | ring (n o : Nat) | cplPend (i : Nat) | cmdStatus
  | acrStatus | acrRun | acrRunSeq | acrWidth | spareCol (n : Nat) | spareRow (n : Nat)
  | grnStatus | grnScrub | grnCe | grnUe | field (n o : Nat) | spareBank (g : Nat) | brnPool | brnAllocs | brnLayout
  | scoreSat | stripRefused | ledgerFull | fnArg | fnCtl | fnOut | nucleusTrunc | verifyStrips | verifyAccepted | verifyShift
  | stpStatus | stpCommits | stpRecords | stpLate | stpDropped
  | sowKey (n : Nat) | sowCtr (n : Nat) | sowOut (n : Nat) | sowCtl
  | hrwStatus | ttSel | ttData | nonfinite | scaleCap | satElems | uflElems
  | stnStatus | gleanTiles | gleanCyc | stnDropped
  | arbCtl | arbCommit | arbSeed | arbStarve (i : Nat) | arbTkt (n : Nat)
  | mvrCtl | mvrCommit | mvrSeed | mvrStarve | mvrTkt (n : Nat)
  | port (k o : Nat) | streamStatus | probeAddr (hi : Bool) | probeData (hi : Bool) | probeCtl | steer (n o : Nat)
  | nrgCtl | nrgStatus | nrgEpoch | nrgLastProj | nrgTotal (n : Nat) (hi : Bool) | nrgTpj | nrgTrim
  | pfailAddr (hi : Bool) | pfailSize | coef (n : Nat)
  | fltStatus | irqEn | irqRoute | fltReset | fltPortReset | resetStatus | fltCe | ueInfo | parity | stripLost | replace | fltFw
  | pairCtl | pairStatus | pairDiverge | pairDivSeq | linkStatus | linkCrc
  | shdTimeout | shdStatus | shdSent | shdRecv | shdBad | shdFailed | shdField (n : Nat)
  | gate (n : Nat) | tenant (n o : Nat) | perfCtl | snapTime (hi : Bool) | perf (n : Nat) (hi : Bool)
  deriving DecidableEq, Repr

/-- Word `a` lies in the array of `n` words from `base`, both in words. -/
def inWords (a base n : Nat) : Bool := decide (base ≤ a) && decide (a < base + n)

/-- Global, ring and command registers outside the arrays, by byte offset (R472). -/
def regGlobal : List (Nat × Reg) :=
  [(0x0000, .version), (0x0004, .build), (0x0008, .status), (0x000C, .start), (0x0010, .paramAddr false),
   (0x0014, .paramAddr true), (0x0018, .fwAddr false), (0x001C, .fwAddr true), (0x0020, .fwLen), (0x0024, .bist),
   (0x0030, .time false), (0x0034, .time true), (0x2000, .cplPend 0), (0x2004, .cplPend 1), (0x2008, .cmdStatus)]

/-- Acre, Granary and Barn registers outside the arrays, by byte offset (R472). -/
def regUnits : List (Nat × Reg) :=
  [(0x4000, .acrStatus), (0x4004, .acrRun), (0x4008, .acrRunSeq), (0x4010, .acrWidth), (0x5000, .grnStatus),
   (0x5004, .grnScrub), (0x5008, .grnCe), (0x500C, .grnUe), (0x5800, .brnPool), (0x5804, .brnAllocs), (0x5808, .brnLayout)]

/-- Winnower, strip and Sower registers outside the arrays, by byte offset (R472). -/
def regWin : List (Nat × Reg) :=
  [(0x6000, .scoreSat), (0x6004, .stripRefused), (0x6008, .ledgerFull), (0x6010, .fnArg), (0x6014, .fnCtl),
   (0x6018, .fnOut), (0x6020, .nucleusTrunc), (0x6030, .verifyStrips), (0x6034, .verifyAccepted), (0x6038, .verifyShift),
   (0x6800, .stpStatus), (0x6804, .stpCommits), (0x6808, .stpRecords), (0x680C, .stpLate), (0x6810, .stpDropped),
   (0x6C30, .sowCtl)]

/-- Harrow and stone path registers outside the arrays, by byte offset (R472). -/
def regHarrow : List (Nat × Reg) :=
  [(0x7000, .hrwStatus), (0x7010, .ttSel), (0x7014, .ttData), (0x7020, .nonfinite), (0x7024, .scaleCap),
   (0x7028, .satElems), (0x702C, .uflElems), (0x7400, .stnStatus), (0x7404, .gleanTiles), (0x7408, .gleanCyc),
   (0x740C, .stnDropped)]

/-- Arbiter and port registers outside the arrays, by byte offset (R472). -/
def regPorts : List (Nat × Reg) :=
  [(0x8000, .arbCtl), (0x8004, .arbCommit), (0x8008, .arbSeed), (0x8010, .arbStarve 0), (0x8014, .arbStarve 1),
   (0x8200, .mvrCtl), (0x8204, .mvrCommit), (0x8208, .mvrSeed), (0x820C, .mvrStarve), (0x8A00, .streamStatus),
   (0x8A20, .probeAddr false), (0x8A24, .probeAddr true), (0x8A28, .probeData false), (0x8A2C, .probeData true),
   (0x8A30, .probeCtl)]

/-- Energy registers outside the arrays, by byte offset (R472). -/
def regEnergy : List (Nat × Reg) :=
  [(0x9000, .nrgCtl), (0x9004, .nrgStatus), (0x9008, .nrgEpoch), (0x900C, .nrgLastProj), (0x9070, .nrgTpj),
   (0x9080, .nrgTrim), (0x9088, .pfailAddr false), (0x908C, .pfailAddr true), (0x9090, .pfailSize)]

/-- Fault registers outside the arrays, by byte offset (R472). -/
def regFault : List (Nat × Reg) :=
  [(0xA000, .fltStatus), (0xA004, .irqEn), (0xA008, .irqRoute), (0xA010, .fltReset), (0xA014, .fltPortReset),
   (0xA018, .resetStatus), (0xA020, .fltCe), (0xA024, .ueInfo), (0xA02C, .parity), (0xA030, .stripLost), (0xA034, .replace),
   (0xA040, .fltFw)]

/-- Pair, shard and performance registers outside the arrays, by byte offset (R472). -/
def regLast : List (Nat × Reg) :=
  [(0xB000, .pairCtl), (0xB004, .pairStatus), (0xB008, .pairDiverge), (0xB00C, .pairDivSeq), (0xB400, .linkStatus),
   (0xB404, .linkCrc), (0xB800, .shdTimeout), (0xB804, .shdStatus), (0xB808, .shdSent), (0xB80C, .shdRecv),
   (0xB810, .shdBad), (0xB814, .shdFailed), (0xC000, .perfCtl), (0xC008, .snapTime false), (0xC00C, .snapTime true)]

/-- The named registers outside the arrays (R472). -/
def regPlain : List (Nat × Reg) :=
  [regGlobal, regUnits, regWin, regHarrow, regPorts, regEnergy, regFault, regLast].flatten

/-- The 64-bit energy values in the order of their offsets from 0x9010 in double words: ALLOW, RESERVE, REMAIN, TOTAL,
CMD, BG, CLASS_0 to 2, (0x9058 unmapped), SERVED, TRAINED, (TPJ), TPKWH. -/
def nrgPair (i : Nat) : Option Nat := if i ≤ 8 then some i else if i = 10 ∨ i = 11 ∨ i = 13 then some i else none

/-- The arrays of the window, by word address (R472). -/
def regArray (w : Nat) : Option Reg :=
  if inWords w 0x400 1024 then if w % 16 < 12 then some (.ring (w / 16 - 0x40) (w % 16)) else none
  else if inWords w 0x1040 16 then some (.spareCol (w - 0x1040))
  else if inWords w 0x1050 16 then some (.spareRow (w - 0x1050))
  else if inWords w 0x1410 32 then some (.field ((w - 0x1410) / 4) (w % 4))
  else if inWords w 0x1440 64 then some (.spareBank (w - 0x1440))
  else if inWords w 0x1B00 2 then some (.sowKey (w - 0x1B00))
  else if inWords w 0x1B04 4 then some (.sowCtr (w - 0x1B04))
  else if inWords w 0x1B08 4 then some (.sowOut (w - 0x1B08))
  else if inWords w 0x2040 64 then some (.arbTkt (w - 0x2040))
  else if inWords w 0x2090 16 then some (.mvrTkt (w - 0x2090))
  else if inWords w 0x2100 384 then if w % 16 < 7 then some (.port (w / 16 - 0x210) (w % 16)) else none
  else if inWords w 0x2300 256 then if w % 4 < 3 then some (.steer (w / 4 - 0x8C0) (w % 4)) else none
  else if inWords w 0x2404 28 then (nrgPair ((w - 0x2404) / 2)).map fun i => .nrgTotal i (w % 2 == 1)
  else if inWords w 0x2500 256 then some (.coef (w - 0x2500))
  else if inWords w 0x2E10 8 then some (.shdField (w - 0x2E10))
  else if inWords w 0x3040 44 then some (.perf ((w - 0x3040) / 2) (w % 2 == 1))
  else if inWords w 0x4000 8192 then some (.gate (w - 0x4000))
  else if inWords w 0x8000 2048 then some (.tenant ((w - 0x8000) / 8) (w % 8))
  else none

/-- The register at a byte address; none where the window is unmapped or the address is not
aligned (R387, R466). -/
def regOf (a : BitVec 20) : Option Reg :=
  match regPlain.find? fun e => e.1 == a.toNat with
  | some e => some e.2
  | none => if a.toNat % 4 = 0 then regArray (a.toNat / 4) else none

/-- The registers that answer before READY (R454). -/
def isBootReg : Reg → Bool
  | .version | .build | .status | .start | .paramAddr _ | .fwAddr _ | .fwLen | .bist => true
  | _ => false

/-- The test and fault registers, which a halted block still writes (R430; log 23). -/
def isFaultReg : Reg → Bool
  | .fltStatus | .irqEn | .irqRoute | .fltReset | .fltPortReset | .resetStatus | .fltCe | .ueInfo | .parity | .stripLost
  | .replace | .fltFw => true
  | _ => false

/-! ### Reading -/

/-- Half of a 64-bit value. -/
def half (hi : Bool) (v : Nat) : Nat := if hi then v / 2 ^ 32 % 2 ^ 32 else v % 2 ^ 32

/-- The words of a ring's block (R334). -/
def State.ringWord (s : State) (n o : Nat) : Nat :=
  let g := s.ring n
  match o with
  | 0 => half false g.base.toNat
  | 1 => half true g.base.toNat
  | 2 => flagBit g.en (2 ^ 31) + g.maxInflight * 2 ^ 16 + g.irqLine * 2 ^ 8 + g.log2Slots
  | 3 => g.tail.toNat
  | 4 => g.head.toNat
  | 5 => flagBit g.stopped (2 ^ 31) + g.cause * 2 ^ 28 + flagBit g.cfgIgnored (2 ^ 27)
      + flagBit (s.cmds.any fun c => c.ring == n && c.inWait) (2 ^ 26) + flagBit (s.barrier == some n) (2 ^ 25) + s.inflightNow n
  | 6 => g.waitTimeout.toNat * 2 ^ 16 + g.holdLimit.toNat
  | 7 => half false g.cplBase.toNat
  | 8 => half true g.cplBase.toNat
  | 9 => g.log2Entries
  | 10 => g.cplTail.toNat
  | _ => g.cplHead.toNat

/-- The words of a field descriptor (R106). -/
def fieldWord (f : Field) (o : Nat) : Nat :=
  match o with
  | 0 => f.state * 2 ^ 29 + flagBit f.stream (2 ^ 28) + flagBit f.rot (2 ^ 27) + f.hk * 2 ^ 20 + (f.v - 1)
  | 1 => f.units * 2 ^ 16 + f.base
  | 2 => (f.eRow % 256).toNat
  | _ => f.amax.toNat

/-- The words of a port's block (R404); a port that the build lacks reads as zero. -/
def State.portWord (s : State) (k o : Nat) : Nat :=
  if k ≥ stackPorts s.build then 0
  else
    let p := s.port k
    match o with
    | 0 => flagBit (s.portUp k) (2 ^ 31) + flagBit (s.inService k) (2 ^ 30) + flagBit (s.pins.drained.getLsbD k) (2 ^ 29)
        + flagBit p.protoErr (2 ^ 28) + flagBit p.rspErr (2 ^ 27) + s.outstanding k
    | 1 => p.wdCrd * 2 ^ 16 + p.reqCrd
    | 2 => flagBit p.errValid (2 ^ 31) + p.errCode * 2 ^ 29 + p.errOp * 2 ^ 27 + p.errMover * 2 ^ 23 + p.protoCause * 2 ^ 20
    | 3 => half false p.errAddr.toNat
    | 4 => half true p.errAddr.toNat
    | 5 => flagBit p.oos (2 ^ 31) + p.timeoutUs.toNat
    | _ => p.errCount.toNat

/-- The words of a steering entry (R404). -/
def steerWord (e : Steer) (o : Nat) : Nat :=
  match o with
  | 0 => half false e.base.toNat
  | 1 => half true e.base.toNat
  | _ => flagBit e.en (2 ^ 31) + e.log2Size * 2 ^ 24 + e.log2Il * 2 ^ 16 + e.first * 2 ^ 8 + e.count

/-- The 64-bit energy values (R424). REMAIN is in microjoules, rounded down, as two's complement. -/
def State.nrgValue (s : State) (i : Nat) : Nat :=
  let e := s.energy
  match i with
  | 0 => e.allow
  | 1 => e.reserve
  | 2 => ((e.remain / (ujUnit : Int)) % 2 ^ 64).toNat
  | 3 => (e.totCmd + e.totBg).toNat
  | 4 => e.totCmd.toNat
  | 5 => e.totBg.toNat
  | 6 => (tblGet 0 e.totClass 0).toNat
  | 7 => (tblGet 0 e.totClass 1).toNat
  | 8 => (tblGet 0 e.totClass 2).toNat
  | 10 => e.served.toNat
  | 11 => e.trained.toNat
  | _ => e.tpkwh.toNat

/-- The words of a tenant (R304). -/
def tenantWord (n : Tenant) (o : Nat) : Nat :=
  match o with
  | 0 => flagBit n.en (2 ^ 31)
  | 1 => n.refill
  | 2 => n.windowUs.toNat
  | 3 => (n.remain % 2 ^ 32).toNat
  | 4 => n.reserved % 2 ^ 32
  | 5 => 0
  | 6 => n.committed.toNat
  | _ => n.late.toNat * 2 ^ 16 + n.budget.toNat

/-- A performance counter as it reads: the snapshot while one is valid (R478). -/
def State.perfValue (s : State) (n : Nat) : Nat :=
  (tblGet 0 (if s.perf.snapValid then s.perf.snap else s.perf.counters) n).toNat

/-- Bits of FLT_REPLACE below REPLACE_REQUEST (R450). -/
def State.replaceBits (s : State) : Nat :=
  flagBit (s.granary.oos || s.rowHalfNow == 3) 8
    + flagBit ((List.range (bankGroups s.build)).any fun g => spareUnrep (tblGet 0 s.granary.spare g)) 4
    + flagBit ((List.range 16).any fun g => spareUnrep (tblGet 0 s.acre.spareRow g)) 2
    + flagBit ((List.range (colGroups s.build)).any fun g => spareUnrep (tblGet 0 s.acre.spareCol g)) 1

/-- The class and bits of a work in progress: its class, 3 where there is none. -/
def clsBits (c : Option Cmd) : Nat := (c.map Cmd.cls).getD 3

/-- The value of a register without its latch (R472). PENDING of SHD_STATUS counts a sharded command until its merge is done,
also once its SHARD_MERGE has claimed it: R263 leaves that open (DESIGN CHOICE, log 60). -/
def State.regValue (s : State) : Reg → Nat
  | .version => glbVersion.toNat
  | .build => (glbBuild s.build).toNat
  | .status => flagBit s.boot.ready (2 ^ 31) + flagBit s.boot.failed (2 ^ 30) + s.boot.stage * 2 ^ 20 + s.boot.failCode * 2 ^ 8
      + s.boot.failDetail
  | .start => 0
  | .paramAddr hi => half hi s.boot.paramAddr.toNat
  | .fwAddr hi => half hi s.boot.fwAddr.toNat
  | .fwLen => s.boot.fwLen.toNat
  | .bist => s.boot.bist.toNat
  | .time hi => half hi s.timeNs.toNat
  | .ring n o => s.ringWord n o
  | .cplPend i => half (i == 1) s.cplPend.toNat
  | .cmdStatus => s.cmds.length + ((List.range 64).any s.fetchCounted).toNat
  | .acrStatus =>
    flagBit (s.acre.run.isSome && !s.acre.held && !s.halted) (2 ^ 31) + flagBit s.acre.held (2 ^ 30) + flagBit s.acre.clkHalf (2 ^ 29)
      + flagBit s.acre.narrow (2 ^ 28) + clsBits s.onAcre * 2 ^ 26 + min 255 s.pausedCount
  | .acrRun => match s.onAcre with
    | none => 0
    | some c => 2 ^ 31 + c.ring * 2 ^ 8 + c.raw
  | .acrRunSeq => match s.onAcre with
    | none => 0
    | some c => c.seq.toNat
  | .acrWidth => flagBit s.acre.sagHalf (2 ^ 14) + s.acre.rowHalf * 2 ^ 12 + s.acre.cEff
  | .spareCol n => if n < colGroups s.build then (tblGet 0 s.acre.spareCol n).toNat else 0
  | .spareRow n => (tblGet 0 s.acre.spareRow n).toNat
  | .grnStatus => s.granary.shadows * 2 ^ 16 + flagBit s.granary.mapIgnored (2 ^ 14) + flagBit s.granary.oos (2 ^ 13) + s.freeUnits
  | .grnScrub => flagBit s.granary.scrubEn (2 ^ 31) + s.granary.ceLimit * 2 ^ 16 + s.granary.passes.toNat
  | .grnCe => s.granary.ceCount.toNat
  | .grnUe => flagBit s.granary.ueValid (2 ^ 31) + s.granary.ueBank * 2 ^ 14 + s.granary.ueWord
  | .field n o => fieldWord (s.field n) o
  | .spareBank g => if g < bankGroups s.build then (tblGet 0 s.granary.spare g).toNat else 0
  | .brnPool => s.barn.poolSize * 2 ^ 16 + s.barn.poolFree
  | .brnAllocs => (s.cmds.filter fun c => c.waitsPool && s.poolHolds c).length * 2 ^ 16
      + ((s.cmds.filter fun c => c.granted).map Cmd.allocs).sum + s.granary.shadows
  | .brnLayout => flagBit s.barn.seedTrain (2 ^ 31) + (s.barn.seedH / 1024 - 1) * 2 ^ 16 + s.barn.dwStage
  | .scoreSat => s.win.scoreSat.toNat
  | .stripRefused => s.win.refused.toNat
  | .ledgerFull => s.win.ledgerFull.toNat
  | .fnArg => s.win.fnArg.toNat
  | .fnCtl => flagBit s.win.fnBusy 8 + flagBit s.win.fnDomErr 4 + flagBit s.win.fnSel 2
  | .fnOut => s.win.fnOut.toNat
  | .nucleusTrunc => s.win.nucleusTrunc.toNat
  | .verifyStrips => s.win.verifyStrips.toNat
  | .verifyAccepted => s.win.verifyAccepted.toNat
  | .verifyShift => s.win.verifyShift.toNat
  | .stpStatus => (s.strips.filter fun e => e.2.valid).length
  | .stpCommits => s.totals.commits.toNat
  | .stpRecords => s.totals.records.toNat
  | .stpLate => s.totals.late.toNat
  | .stpDropped => s.totals.dropped.toNat
  | .sowKey n => (tblGet 0 s.win.sowKey n).toNat
  | .sowCtr n => (tblGet 0 s.win.sowCtr n).toNat
  | .sowOut n => (tblGet 0 s.win.sowOut n).toNat
  | .sowCtl => flagBit s.win.sowBusy 2
  | .hrwStatus => flagBit s.onHarrow.isSome (2 ^ 31)
      + flagBit ((s.onHarrow.map fun c => isAcreOp c.op && pkStreamSrc c.run).getD false) (2 ^ 30)
      + clsBits s.onHarrow * 2 ^ 28 + min 255 s.harrowQueue
  | .ttSel => s.ttSel
  | .ttData => (tblGet fpZero s.tensors s.ttSel).toNat
  | .nonfinite => s.totals.nonfinite.toNat
  | .scaleCap => s.totals.scaleCap.toNat
  | .satElems => s.totals.satElems.toNat
  | .uflElems => s.totals.uflElems.toNat
  | .stnStatus => flagBit s.acre.shed 1
  | .gleanTiles => s.totals.gleanTiles.toNat
  | .gleanCyc => s.totals.gleanCyc.toNat
  | .stnDropped => s.totals.stoneDropped.toNat
  | .arbCtl => flagBit s.arb.pending (2 ^ 31) + s.arb.starveDraws.toNat
  | .arbCommit => 0
  | .arbSeed => s.arb.seed.toNat
  | .arbStarve i => half (i == 1) s.arb.starve.toNat
  | .arbTkt n => (tblGet ticketsReset s.arb.tickets n).shadow.toNat
  | .mvrCtl => flagBit s.marb.pending (2 ^ 31) + s.marb.starveDraws.toNat
  | .mvrCommit => 0
  | .mvrSeed => s.marb.seed.toNat
  | .mvrStarve => s.marb.starve.toNat
  | .mvrTkt n => (tblGet ticketsReset s.marb.tickets n).shadow.toNat
  | .port k o => s.portWord k o
  | .streamStatus => s.streams.frameErr.toNat * 2 ^ 16 + flagBit (s.streams.resHeld && s.acre.held) 2 + flagBit s.actOpen 1
  | .probeAddr hi => half hi s.probe.addr.toNat
  | .probeData hi => half hi s.probe.data.toNat
  | .probeCtl => s.probe.code * 2 ^ 12 + s.probe.op * 2 ^ 10 + s.probe.port * 2 ^ 5 + flagBit s.probe.busy 2
  | .steer n o => steerWord (tblGet steerReset s.steer n) o
  | .nrgCtl => flagBit s.energy.planEn (2 ^ 31) + flagBit s.energy.trimEn (2 ^ 30) + s.energy.gain * 2 ^ 16 + s.energy.exitHoldUs.toNat
  | .nrgStatus => s.energy.level.val * 2 ^ 30 + flagBit s.energy.pfail (2 ^ 29) + flagBit s.energy.heldFlag (2 ^ 28)
      + s.energy.oversize.toNat * 2 ^ 16 + (s.cmds.filter Cmd.isDeferred).length
  | .nrgEpoch => s.energy.epochUs
  | .nrgLastProj => s.energy.lastProj.toNat
  | .nrgTotal i hi => half hi (s.nrgValue i)
  | .nrgTpj => s.energy.tpj.toNat
  | .nrgTrim => s.energy.samples.toNat * 2 ^ 16 + s.energy.trimSet
  | .pfailAddr hi => half hi s.energy.pfailAddr.toNat
  | .pfailSize => s.energy.pfailKib.toNat
  | .coef n => (tblGet 0 s.energy.coefs n).toNat
  | .fltStatus => flagBit s.flt.ledgerLost (2 ^ 31) + flagBit s.flt.fwLost (2 ^ 30) + s.flt.pend.toNat
  | .irqEn => s.flt.irqEn.toNat
  | .irqRoute => s.flt.route.toNat
  | .fltReset => s.flt.hold.toNat
  | .fltPortReset => s.flt.portHold.toNat
  | .resetStatus => s.flt.inReset.toNat
  | .fltCe => s.flt.ceBarn.toNat * 2 ^ 16 + s.flt.ceAcc.toNat
  | .ueInfo => flagBit s.flt.ueValid (2 ^ 31) + s.flt.ueRegion * 2 ^ 27 + s.flt.ueWord.toNat
  | .parity => flagBit s.flt.parValid (2 ^ 31) + flagBit s.flt.parRow (2 ^ 30) + s.flt.parCount.toNat * 2 ^ 14 + s.flt.parLine
  | .stripLost => flagBit s.flt.lostValid (2 ^ 31) + s.flt.lostCount.toNat * 2 ^ 16 + s.flt.lostStrip.toNat
  | .replace => flagBit s.flt.replace (2 ^ 31) + s.replaceBits
  | .fltFw => flagBit s.flt.standbyValid (2 ^ 31) + flagBit s.flt.activeBank (2 ^ 30) + s.flt.switches.toNat
  | .pairCtl => if s.build.pairLink then flagBit s.pair.en (2 ^ 31) + flagBit s.pair.role (2 ^ 30) + flagBit s.pair.auto (2 ^ 29) else 0
  | .pairStatus =>
    if s.build.pairLink then s.pair.state * 2 ^ 29 + flagBit s.pair.diverged (2 ^ 28) + flagBit s.pair.failing (2 ^ 27)
      + s.pair.mismatch * 2 ^ 24 + s.lag else 0
  | .pairDiverge => if s.build.pairLink then flagBit s.pair.divValid (2 ^ 31) + s.pair.divRing else 0
  | .pairDivSeq => if s.build.pairLink then s.pair.divSeq.toNat else 0
  | .linkStatus => if s.build.pairLink then flagBit s.pair.up (2 ^ 31) + flagBit s.pair.down (2 ^ 30) + s.pair.replays.toNat else 0
  | .linkCrc => if s.build.pairLink then s.pair.crcErr.toNat else 0
  | .shdTimeout => s.shard.timeoutUs.toNat
  | .shdStatus => (s.cmds.filter Cmd.awaitsMerge).length * 2 ^ 16 + s.shard.early.length
  | .shdSent => s.shard.sent.toNat
  | .shdRecv => s.shard.recv.toNat
  | .shdBad => s.shard.bad.toNat
  | .shdFailed => s.shard.mismatch.toNat * 2 ^ 16 + s.shard.merges.toNat
  | .shdField n =>
    let f := s.field n
    if f.shard then 2 ^ 31 + f.log2Span * 2 ^ 16 + f.qM1 * 2 ^ 8 + f.shardId else 0
  | .gate n => (s.gate n).toNat
  | .tenant n o => tenantWord (s.tenant n) o
  | .perfCtl => flagBit s.perf.snapValid (2 ^ 31)
  | .snapTime hi => half hi s.perf.snapTime.toNat
  | .perf n hi => half hi (s.perfValue n)

/-- The register that a read of this one latches (R469). -/
def latchPartner : Reg → Option Reg
  | .time false => some (.time true)
  | .acrRun => some .acrRunSeq
  | .nrgTotal i false => some (.nrgTotal i true)
  | .snapTime false => some (.snapTime true)
  | .perf n false => some (.perf n true)
  | _ => none

/-- A register that reads its latch (R469). -/
def isLatched : Reg → Bool
  | .time hi | .nrgTotal _ hi | .snapTime hi | .perf _ hi => hi
  | .acrRunSeq => true
  | _ => false

/-- A register as an APB read returns it. -/
def State.regRead (s : State) (a : BitVec 20) (r : Reg) : U32 :=
  if isLatched r then tblGet 0 s.latches a.toNat else BitVec.ofNat 32 (s.regValue r)

/-- An APB read of a mapped register: a _LO register latches its partner, which stands in the next word (R469). -/
def readDo (a : BitVec 20) (r : Reg) (s : State) : State :=
  let v := s.regRead a r
  let s := match latchPartner r with
    | some q => { s with latches := tblSet 0 s.latches (a.toNat + 4) (BitVec.ofNat 32 (s.regValue q)) }
    | none => s
  s.apbOut v false

/-- LO_READ_LATCH: an APB read (R387, R454, R469); a HELD or halted block answers it too (R421, R430). -/
def execLoReadLatch (addr : BitVec 20) (now : Time) (s : State) : Out :=
  let t := s.tick now
  .next (s.keep (
    if !t.powered then t
    else match regOf addr with
      | none => t.apbOut 0 true
      | some r => if t.boot.ready || isBootReg r then readDo addr r t else t.apbOut 0 true))

/-! ### Writing -/

/-- A half of an address register, its low `k` bits reading as zero. -/
def setHalf (hi : Bool) (k : Nat) (v : U32) (old : U64) : U64 :=
  if hi then BitVec.ofNat 64 (v.toNat * 2 ^ 32 + old.toNat % 2 ^ 32)
  else BitVec.ofNat 64 (old.toNat / 2 ^ 32 * 2 ^ 32 + v.toNat / 2 ^ k * 2 ^ k)

/-- Clears the W1C bits of `w` that `v` writes as 1. -/
def w1c {n : Nat} (w : BitVec n) (v : Nat) : BitVec n := w &&& ~~~ BitVec.ofNat n v

/-- GO is written: a second GO has no effect (R454). -/
def goDo (s : State) : State :=
  if s.boot.go then s else ({ s with boot := { s.boot with go := true } }).bootAdvance

/-- GO. -/
def execGo (s : State) : Out := .next (s.keep (if s.powered && !s.energy.heldFlag then (goDo s).apbOut 0 false else s))

/-- A spare word of the Acre as a write leaves it: EN and the line are written, UNREP is kept (R91, R92). -/
def spareWrite (v old : U32) : U32 := (v &&& 0x8000003F#32) ||| (old &&& 0x40000000#32)

/-- A write of ACR_SPARE_COL_n or ACR_SPARE_ROW_n (R91, R92, R470). -/
def acrSpareDo (row : Bool) (n : Nat) (v : U32) (s : State) : State :=
  if row then ({ s with acre := { s.acre with spareRow := tblModify 0 s.acre.spareRow n (spareWrite v) } }).refreshWidth
  else if n < colGroups s.build then
    ({ s with acre := { s.acre with spareCol := tblModify 0 s.acre.spareCol n (spareWrite v) } }).refreshWidth
  else s

/-- ACR_SPARE_WRITE. -/
def execAcrSpareWrite (row : Bool) (n : Fin 16) (v : U32) (s : State) : Out := .next (s.keep (s.regWrite (acrSpareDo row n.val v)))

/-- A write of GRN_SPARE_BANK_g (R116): only while every field is EMPTY; UNREP, SHADOW and MIGRATING are kept. A
bank that the write takes from the spare may migrate again (R114). -/
def grnSpareDo (g : Nat) (v : U32) (s : State) : State :=
  if g ≥ bankGroups s.build then s
  else if (List.range 8).all fun i => (s.field i).state == 0 then
    let old := tblGet 0 s.granary.spare g
    let unmapped := (old.getLsbD 31 || old.getLsbD 28) && (v.toNat % 64 != old.toNat % 64 || (old.getLsbD 31 && !v.getLsbD 31))
    { s with granary := { s.granary with
        moved := if unmapped then s.granary.moved.erase (64 * g + old.toNat % 64) else s.granary.moved
        spare := tblSet 0 s.granary.spare g ((v &&& 0x8000003F#32) ||| (old &&& 0x70000000#32)) } }
  else { s with granary := { s.granary with mapIgnored := true } }

/-- GRN_SPARE_BANK_WRITE. -/
def execGrnSpareBankWrite (g : Fin 64) (v : U32) (s : State) : Out := .next (s.keep (s.regWrite (grnSpareDo g.val v)))

/-- A write of FLT_RESET or FLT_PORT_RESET: newly set bits start resets (R432, R450). -/
def fltResetDo (port : Bool) (v : U32) (s : State) : State :=
  if port then
    let set := (List.range (stackPorts s.build)).filter fun k => v.getLsbD k && !s.flt.portHold.getLsbD k
    let s := { s with flt := { s.flt with portHold := v.setWidth 24 } }
    set.foldl State.resetPort s
  else
    let set := (List.range 10).filter fun n => v.getLsbD n && !s.flt.hold.getLsbD n
    let s := { s with flt := { s.flt with hold := v.setWidth 10 } }
    set.foldl State.fnStart s

/-- FLT_RESET_WRITE: a fault register, so a halted block takes it too (R430). -/
def execFltResetWrite (port : Bool) (v : U32) (now : Time) (s : State) : Out :=
  let t := s.tick now
  .next (s.keep (if !t.awake then t else if !t.boot.ready then t.apbOut 0 true else (fltResetDo port v t).apbOut 0 false))

/-- A write of SNAP, with or without RELEASE (R478). -/
def perfSnapDo (s : State) : State :=
  { s with perf := { s.perf with snap := s.perf.counters, snapTime := s.timeNs, snapValid := true } }

/-- A write of PERF_CTL (R478). -/
def perfCtlDo (snap release : Bool) (s : State) : State :=
  let s := if release then { s with perf := { s.perf with snapValid := false } } else s
  if snap then perfSnapDo s else s

/-- PERF_SNAP. -/
def execPerfSnap (release : Bool) (now : Time) (s : State) : Out :=
  .next (s.keep ((s.tick now).regWrite (perfCtlDo true release)))

/-- PERF_RELEASE. -/
def execPerfRelease (s : State) : Out := .next (s.keep (s.regWrite (perfCtlDo false true)))

/-- A write of SOW_PROBE_CTL (R157). -/
def sowGoDo (v : U32) (s : State) : State :=
  if v.getLsbD 0 && !s.win.sowBusy then { s with win := { s.win with sowBusy := true } } else s

/-- SOW_PROBE_GO. -/
def execSowProbeGo (s : State) : Out := .next (s.keep (s.regWrite (sowGoDo 1)))

/-- The Sower probe's result: mix of the probe's key and counter (R139, R157). -/
def sowDoneDo (s : State) : State :=
  if !s.win.sowBusy then s
  else
    let k := s.win.sowKey
    let c := s.win.sowCtr
    let o := sowMix (tblGet 0 k 0) (tblGet 0 k 1) ⟨tblGet 0 c 0, tblGet 0 c 1, tblGet 0 c 2, tblGet 0 c 3⟩
    let put (t : Tbl U32) (e : Nat × U32) := tblSet 0 t e.1 e.2
    { s with win := { s.win with
      sowBusy := false, sowOut := [(0, o.x0), (1, o.x1), (2, o.x2), (3, o.x3)].foldl put s.win.sowOut } }

/-- SOW_PROBE_DONE. -/
def execSowProbeDone (s : State) : Out := .next (s.keep (if s.running then sowDoneDo s else s))

/-- A write of WIN_FN_CTL (R229). -/
def fnCtlDo (v : U32) (s : State) : State :=
  if s.win.fnBusy then s else { s with win := { s.win with fnSel := v.getLsbD 1, fnBusy := v.getLsbD 0 } }

/-- WIN_FN_GO. -/
def execWinFnGo (v : U32) (s : State) : Out := .next (s.keep (s.regWrite (fnCtlDo v)))

/-- An argument outside the domain of exp or ln (R229). -/
def fnDomErr (ln : Bool) (x : F32) : Bool :=
  if ln then !fpPosFinite x else !fpFinite x || fpPosFinite x

/-- The function probe's result (R218, R220, R229). -/
def fnDoneDo (s : State) : State :=
  if !s.win.fnBusy then s
  else
    let x := s.win.fnArg
    let bad := fnDomErr s.win.fnSel x
    let y := if bad then fpZero else if s.win.fnSel then lnFn x else expFn x
    { s with win := { s.win with fnBusy := false, fnDomErr := bad, fnOut := y } }

/-- WIN_FN_DONE. -/
def execWinFnDone (s : State) : Out := .next (s.keep (if s.running then fnDoneDo s else s))

/-- A write of a ring's block (R306, R308, R309, R311, R334). -/
def ringWordDo (n o : Nat) (v : U32) (s : State) : State :=
  match o with
  | 0 => ringCfgDo n 0 v s
  | 1 => ringCfgDo n 1 v s
  | 2 => ringCfgDo n 2 v s
  | 3 => doorbellDo n v s
  | 5 =>
    let s := if v.getLsbD 27 then s.modRing n fun g => { g with cfgIgnored := false } else s
    if v.getLsbD 31 then restartDo n s else s
  | 6 => s.modRing n fun g => { g with waitTimeout := (v >>> 16).setWidth 16, holdLimit := v.setWidth 16 }
  | 7 => ringCfgDo n 3 v s
  | 8 => ringCfgDo n 4 v s
  | 9 => ringCfgDo n 5 v s
  | 11 => cplHeadDo n v s
  | _ => s

/-- A write of a port's block (R404). -/
def portWordDo (k o : Nat) (v : U32) (s : State) : State :=
  if k ≥ stackPorts s.build then s
  else match o with
  | 0 => s.modPort k fun p => { p with protoErr := p.protoErr && !v.getLsbD 28, rspErr := p.rspErr && !v.getLsbD 27 }
  | 2 => s.modPort k fun p => { p with errValid := p.errValid && !v.getLsbD 31 }
  | 5 => portCtlDo k v s
  | _ => s

/-- LOG2_SIZE, LOG2_IL and PORT_COUNT as stored (R404). -/
def steerCfg (v : U32) (e : Steer) : Steer :=
  let n := v.toNat
  let size := bitField n 29 24
  let il := bitField n 20 16
  let cnt := n % 32
  { e with
    en := v.getLsbD 31
    log2Size := if 12 ≤ size then size else 12
    log2Il := if 12 ≤ il ∧ il ≤ 22 then il else 12
    first := bitField n 12 8
    count := if cnt = 0 then 1 else min cnt 24 }

/-- A write of a steering entry (R404). -/
def steerWordDo (n o : Nat) (v : U32) (s : State) : State :=
  { s with steer := tblModify steerReset s.steer n fun e => match o with
    | 0 => { e with base := setHalf false 12 v e.base }
    | 1 => { e with base := setHalf true 0 v e.base }
    | _ => steerCfg v e }.endGrants

/-- A write of a tenant's block (R287, R290, R304). -/
def tenantWordDo (n o : Nat) (v : U32) (s : State) : State :=
  match o with
  | 0 => s.modTenant n fun t => { t with en := v.getLsbD 31 }
  | 1 => s.modTenant n fun t => { t with refill := v.toNat % 2 ^ 31 }
  | 2 => s.modTenant n (writeWindow s.timeNs v)
  | 5 => s.modTenant n (writeAdj v)
  | _ => s

/-- A write of a word of the probe's address or data; ignored while BUSY (R385). -/
def probeWordDo (data hi : Bool) (v : U32) (s : State) : State :=
  if s.probe.busy then s
  else if data then { s with probe := { s.probe with data := setHalf hi 0 v s.probe.data } }
  else { s with probe := { s.probe with addr := setHalf hi 3 v s.probe.addr } }

/-- A write of a boot register (R454): addresses and length until GO has been written. -/
def bootWriteDo (r : Reg) (v : U32) (s : State) : State :=
  let set (b : Boot) : State := if s.boot.go then s else { s with boot := b }
  match r with
  | .start => if v.getLsbD 0 then goDo s else s
  | .paramAddr hi => set { s.boot with paramAddr := setHalf hi 12 v s.boot.paramAddr }
  | .fwAddr hi => set { s.boot with fwAddr := setHalf hi 12 v s.boot.fwAddr }
  | .fwLen => set { s.boot with fwLen := v }
  | _ => s

/-- What a write of `v` to a register does; a write to a read-only register does nothing (R11, R387). -/
def regWriteDo (r : Reg) (v : U32) (s : State) : State :=
  let n := v.toNat
  match r with
  | .start | .paramAddr _ | .fwAddr _ | .fwLen => bootWriteDo r v s
  | .ring k o => ringWordDo k o v s
  | .cplPend i => { s with cplPend := w1c s.cplPend (if i = 1 then n * 2 ^ 32 else n) }
  | .spareCol k => acrSpareDo false k v s
  | .spareRow k => acrSpareDo true k v s
  | .grnStatus => { s with granary := { s.granary with mapIgnored := s.granary.mapIgnored && !v.getLsbD 14 } }
  | .grnScrub => { s with granary := { s.granary with scrubEn := v.getLsbD 31, ceLimit := bitField n 23 16 } }
  | .grnUe => { s with granary := { s.granary with ueValid := s.granary.ueValid && !v.getLsbD 31 } }
  | .spareBank g => grnSpareDo g v s
  | .fnArg => if s.win.fnBusy then s else { s with win := { s.win with fnArg := v } }
  | .fnCtl => fnCtlDo v s
  | .sowKey k => if s.win.sowBusy then s else { s with win := { s.win with sowKey := tblSet 0 s.win.sowKey k v } }
  | .sowCtr k => if s.win.sowBusy then s else { s with win := { s.win with sowCtr := tblSet 0 s.win.sowCtr k v } }
  | .sowCtl => sowGoDo v s
  | .ttSel => { s with ttSel := n % 256 }
  | .arbCtl => { s with arb := { s.arb with starveDraws := v.setWidth 16 } }
  | .arbCommit => if v.getLsbD 0 then arbRingCommitDo s else s
  | .arbSeed => arbRingSeedDo v s
  | .arbStarve i => { s with arb := { s.arb with starve := w1c s.arb.starve (if i = 1 then n * 2 ^ 32 else n) } }
  | .arbTkt k => arbRingTktDo k v s
  | .mvrCtl => { s with marb := { s.marb with starveDraws := v.setWidth 16 } }
  | .mvrCommit => if v.getLsbD 0 then arbMvrCommitDo s else s
  | .mvrSeed => arbMvrSeedDo v s
  | .mvrStarve => { s with marb := { s.marb with starve := w1c s.marb.starve n } }
  | .mvrTkt k => arbMvrTktDo k v s
  | .port k o => portWordDo k o v s
  | .probeAddr hi => probeWordDo false hi v s
  | .probeData hi => probeWordDo true hi v s
  | .probeCtl => probeGoDo v s
  | .steer k o => steerWordDo k o v s
  | .nrgCtl => { s with energy := { s.energy with
      planEn := v.getLsbD 31, trimEn := v.getLsbD 30, gain := bitField n 19 16, exitHoldUs := v.setWidth 16 } }
  | .pfailAddr hi => { s with energy := { s.energy with pfailAddr := setHalf hi 12 v s.energy.pfailAddr } }
  | .pfailSize => { s with energy := { s.energy with pfailKib := v } }
  | .fltStatus => { s with flt := { s.flt with pend := w1c s.flt.pend n } }
  | .irqEn => { s with flt := { s.flt with irqEn := v.setWidth 10 ||| 8#10 } }
  | .irqRoute => { s with flt := { s.flt with route := v.setWidth 30 } }
  | .fltReset => fltResetDo false v s
  | .fltPortReset => fltResetDo true v s
  | .ueInfo => { s with flt := { s.flt with ueValid := s.flt.ueValid && !v.getLsbD 31 } }
  | .parity => { s with flt := { s.flt with parValid := s.flt.parValid && !v.getLsbD 31 } }
  | .stripLost => { s with flt := { s.flt with lostValid := s.flt.lostValid && !v.getLsbD 31 } }
  | .pairCtl => pairCtlDo v s
  | .pairStatus => if s.build.pairLink then { s with pair := { s.pair with
      diverged := s.pair.diverged && !v.getLsbD 28, failing := s.pair.failing && !v.getLsbD 27 } } else s
  | .pairDiverge => { s with pair := { s.pair with divValid := s.pair.divValid && !v.getLsbD 31 } }
  | .linkStatus => { s with pair := { s.pair with down := s.pair.down && !v.getLsbD 30 } }
  | .shdTimeout => { s with shard := { s.shard with timeoutUs := v } }
  | .gate g => gateWriteDo g v s
  | .tenant k o => tenantWordDo k o v s
  | .perfCtl => perfCtlDo (v.getLsbD 0) (v.getLsbD 1) s
  | _ => s

/-- REGISTER_WRITE: an APB write of any address (R387, R421, R430, R454). -/
def execRegisterWrite (addr : BitVec 20) (data : U32) (strb : BitVec 4) (now : Time) (s : State) : Out :=
  let t := s.tick now
  .next (s.keep (
    if !t.awake then t
    else match regOf addr with
      | none => t.apbOut 0 true
      | some r =>
        if strb ≠ 15 then t.apbOut 0 true
        else if !t.boot.ready then if isBootReg r then (bootWriteDo r data t).apbOut 0 false else t.apbOut 0 true
        else if t.halted && !isFaultReg r then t.apbOut 0 false
        else (regWriteDo r data t).apbOut 0 false))

end Sys2Proof.Machine
end

