-- ==== Sys2Proof/Machine/Startup.lean ====
section
/-! DEFINITION. Start-up (17_startup.md R452 to R464; 14_ports.md R369), the sag levels that READY applies and that
rise and fall afterwards (15_energy_and_supply.md R418, R419; 14_ports.md R400), and the time fault (R399). -/

namespace Sys2Proof.Machine

/-! ### Sag levels -/

/-- What a level in force imposes: half clock, narrow accumulation and stone shed from the next headland, which waits for
the next command while PAIRED (R444), and the width at the next boundary (R90, R96, R419). -/
def State.levelEffects (s : State) : State :=
  let l := s.energy.level.val
  ({ s with acre := { s.acre with
      clkHalf := decide (2 ≤ l)
      narrow := if s.acre.run.isNone ∨ s.pair.state ≠ 2 then decide (2 ≤ l) else s.acre.narrow
      shed := if s.acre.run.isNone ∨ s.pair.state ≠ 2 then decide (2 ≤ l) else s.acre.shed } }).refreshWidth

/-- Changes the level in force; a change raises source 7 (R418, R429). -/
def State.setLevel (s : State) (l : SagLevel) : State :=
  if s.energy.level = l then s
  else (({ s with energy := { s.energy with level := l } }).levelEffects).raise 7

/-- The input is recognised at `n` (R400): a rise takes effect at once; from below the level in force the hold of
EXIT_HOLD_US is counted (R418). -/
def sagInput (n : BitVec 3) (s : State) : State :=
  let old := s.pins.sag
  let l := sagLevelOf n
  let s := { s with pins := { s.pins with sagN := n } }
  if !s.running then s
  else
    let since := if l.val < s.energy.level.val
      then (if old.val < s.energy.level.val then s.energy.belowSince else some s.timeNs) else none
    (({ s with energy := { s.energy with belowSince := since } }).setLevel (if s.energy.level.val < l.val then l else s.energy.level)).settle

/-- SAG_LEVEL_RISE: sag_n is recognised at `sagN`; a level that is no rise only records the input (log 24). -/
def execSagLevelRise (sagN : BitVec 3) (now : Time) (s : State) : Out := .next (s.keep (sagInput sagN (s.tick now)))

/-- The hold of EXIT_HOLD_US below the level in force has passed (R418). -/
def sagFallOn (s : State) : Bool :=
  s.running && decide (s.pins.sag.val < s.energy.level.val)
    && (match s.energy.belowSince with
      | some t => decide ((s.timeNs - t).toNat ≥ s.energy.exitHoldUs.toNat * 1000)
      | none => false)

/-- One step down (R418); frames that level 3 held leave (R419). -/
def sagFallDo (s : State) : State :=
  let l : SagLevel := ⟨s.energy.level.val - 1, by omega⟩
  let s := s.setLevel l
  let s := { s with energy := { s.energy with belowSince := if s.pins.sag.val < l.val then some s.timeNs else none } }
  s.flushLink.settle

/-- SAG_LEVEL_FALL. -/
def execSagLevelFall (now : Time) (s : State) : Out :=
  let t := s.tick now
  .next (s.keep (if sagFallOn t then sagFallDo t else t))

/-- TIME_FAULT: the input is below TIME_NS, which stands; source 9 is pending, and source 0 for the CORRECTED fault
(R399, R426, R429). -/
def execTimeFault (input : Time) (s : State) : Out :=
  .next (s.keep (if s.running && decide (input < s.timeNs) then (s.raise 9).raise 0 else s))

/-! ### rst_n and the PLLs -/

/-- The block with rst_n low: every register and memory of it at reset, its outputs at their reset values; the levels at
its pins and the memory behind its ports are not its own (R369). -/
def resetDo (s : State) : State :=
  { State.ofBuild s.build s.mem with
    pending := s.pending
    freeCtr := s.freeCtr
    images := s.images
    pins := { s.pins with rstLow := true, barrierOut := false, wrapper := .bypass }
    tap := s.tap }

/-- RST_N_ASSERT (R369). -/
def execRstNAssert (s : State) : Out := .next (s.keep (resetDo s))

/-- RST_N_RELEASE (R452 stage 1). -/
def execRstNRelease (s : State) : Out := .next (s.keep { s with pins := { s.pins with rstLow := false } })

/-- The start is in stage `n` and has not failed. -/
def State.inStage (s : State) (n : Nat) : Bool := s.powered && s.boot.stage == n && !s.boot.failed

/-- PLL_B_LOCK. -/
def execPllBLock (s : State) : Out :=
  .next (s.keep (if s.inStage 1 then { s with boot := { s.boot with stage := 2 } } else s))

/-- PLL_A_LOCK. -/
def execPllALock (s : State) : Out :=
  .next (s.keep (if s.inStage 2 then { s with boot := { s.boot with stage := 3 } } else s))

/-! ### Self-test (R455, R456) -/

/-- One failed line or bank of a group: the first that the spare can take is mapped to it, another leaves UNREP. `dead`
lists the groups whose spare has failed. -/
def mapLine (dead : List Nat) (t : Tbl U32) (e : Nat × Nat) : Tbl U32 :=
  let w := tblGet 0 t e.1
  tblSet 0 t e.1 (if w.getLsbD 31 || dead.contains e.1 then w ||| 0x40000000#32
    else w ||| 0x80000000#32 ||| BitVec.ofNat 32 (e.2 % 64))

/-- The entries of a map with EN. -/
def mappedCount (t : Tbl U32) : Nat := (t.filter fun e => e.2.getLsbD 31).length

/-- Banks of the list that their group's spare does not cover. -/
def uncovered (t : Tbl U32) (l : List (Nat × Nat)) : List (Nat × Nat) :=
  l.filter fun e => !((tblGet 0 t e.1).getLsbD 31 && (tblGet 0 t e.1).toNat % 64 == e.2 % 64)

/-- The results of a self-test that passes (R455): the maps, C_EFF and ROW_HALF, GLB_BIST, REPLACE_REQUEST. -/
def selfTestApply (r : SelfTest) (s : State) : State :=
  let cols := (r.cols.filter fun e => decide (e.1 < colGroups s.build)).foldl (mapLine r.colSpares) []
  let rows := (r.rows.filter fun e => decide (e.1 < 16)).foldl (mapLine r.rowSpares) []
  let banks := r.banks.filter fun e => decide (e.1 < bankGroups s.build)
  let spare := banks.foldl (mapLine r.bankSpares) []
  let s := { s with
    acre := { s.acre with spareCol := cols, spareRow := rows, deadCol := r.colSpares, deadRow := r.rowSpares }
    granary := { s.granary with
      spare := spare, oos := decide ((uncovered spare banks).length > 8), moved := banks.map fun (e : Nat × Nat) => 64 * e.1 + e.2 % 64 } }
  let s := s.applyWidth
  let s := { s with flt := { s.flt with replace := s.replaceDue } }
  let lines := mappedCount cols + mappedCount rows
  { s with boot := { s.boot with
      stage := 4
      bist := BitVec.ofNat 32 (mappedCount spare * 2 ^ 16 + lines * 2 ^ 8 + flagBit s.granary.oos 8
        + flagBit (s.acre.rowHalf == 3) 4 + flagBit r.sramRepaired 2 + 1) } }

/-- SELF_TEST_DONE (R455, R456). -/
def selfTestDo (r : SelfTest) (s : State) : State :=
  match r.stop with
  | .pass => (selfTestApply r s).bootAdvance
  | .unrepairable region => s.bootFail 0x03 region
  | .logicFail unit => s.bootFail 0x04 unit

/-- SELF_TEST_DONE. -/
def execSelfTestDone (result : SelfTest) (s : State) : Out :=
  .next (s.keep (if s.inStage 3 then selfTestDo result s else s))

/-! ### The parameter block (R458, R459) -/

/-- The first check of R459 that a parameter block fails, 0 when it passes. -/
def paramCheck (b : Build) (p : List Byte) : Nat :=
  let h := leNat p 8 4
  let dw := leNat p 16 4
  let range := h % 1024 == 0 && decide (1024 ≤ h) && decide (h ≤ 32768) && decide (leNat p 12 1 ≤ 1) && decide (dw ≤ 4096)
  if leNat p 0 4 ≠ 0x50424C45 then 1
  else if leNat p 4 2 ≠ 3 then 2
  else if le32 p 60 ≠ crc32c (p.take 60) then 3
  else if !range then 4
  else if barnGranules b < fixedGranules b h (leNat p 12 1 == 1) dw + 256 then 5
  else if !(zeroRange p 6 2 && zeroRange p 13 3 && zeroRange p 20 40) then 6
  else 0

/-- The accepted block divides the Barn and allocates the shadows (R115, R117, R475). -/
def paramsApply (p : List Byte) (s : State) : State :=
  let h := leNat p 8 4
  let train := leNat p 12 1 == 1
  let pool := barnGranules s.build - fixedGranules s.build h train (leNat p 16 4)
  let s := { s with barn := ⟨h, train, leNat p 16 4, pool, pool⟩ }
  let bare := uncovered s.granary.spare (s.granary.moved.map fun (b : Nat) => (b / 64, b))
  let s := bare.foldl (fun (s : State) (e : Nat × Nat) => s.giveShadow e.1) s
  let s := { s with flt := { s.flt with replace := s.replaceDue } }
  { s with boot := { s.boot with stage := 6 } }

/-- The firmware read begins, unless FW_LEN is out of range (R460 check 1). -/
def askFirmware (s : State) : State :=
  let n := s.boot.fwLen.toNat
  if n = 0 ∨ n > 2 ^ 20 then s.bootFail 0x0A 0 else s.askRead .bootFw 0 0 0 s.boot.fwAddr.toNat n

/-- PARAMS_READ (R459): the read of the block has been answered. -/
def paramsReadDo (s : State) : State :=
  if s.inStage 5 && !s.open 0 0 .param then
    let p := s.bytes s.boot.paramAddr.toNat 64
    let k := paramCheck s.build p
    if k = 0 then askFirmware (paramsApply p s) else s.bootFail 0x08 k
  else s

/-- PARAMS_READ. -/
def execParamsRead (now : Time) (s : State) : Out := .next (s.keep (paramsReadDo (s.tick now)))

/-! ### Firmware (R460) -/

/-- What the authentication of an image finds. -/
inductive FwCheck where
  | ok | size | sig | version
  deriving DecidableEq, Repr

/-- The checks of R460 on an image of `len` bytes. -/
def fwCheck (img : List Byte) (len : Nat) : FwCheck :=
  if len = 0 ∨ len > 2 ^ 20 ∨ len ≠ 512 + leNat img 8 4 then .size
  else if leNat img 0 4 ≠ 0x46574C45 ∨ !zeroRange img 12 20 ∨ !zeroRange img 128 384
      ∨ !signatureOk (img.take 32 ++ img.drop 512) ((img.drop 32).take 48) ((img.drop 80).take 48) then .sig
  else if leNat img 4 4 / 2 ^ 16 ≠ glbVersion.toNat / 2 ^ 16 then .version
  else .ok

/-- Stage 7 begins once the image is accepted and fn_rst_n[4] is high (R462). -/
def State.stage7 (s : State) : State :=
  if s.inStage 6 && s.boot.fwRead && !s.pins.fnLow.getLsbD 4 then { s with boot := { s.boot with stage := 7 } } else s

/-- FIRMWARE_READ: the image becomes the active one in bank 0 (R460). -/
def firmwareReadDo (s : State) : State :=
  if s.inStage 6 && !s.boot.fwRead && !s.open 0 0 .bootFw then
    let n := s.boot.fwLen.toNat
    let img := s.bytes s.boot.fwAddr.toNat n
    match fwCheck img n with
    | .ok => { s with fw := { s.fw with bank0 := img }, boot := { s.boot with fwRead := true } }.stage7
    | .size => s.bootFail 0x0A 0
    | .sig => s.bootFail 0x0B 0
    | .version => s.bootFail 0x0C 0
  else s

/-- FIRMWARE_READ. -/
def execFirmwareRead (now : Time) (s : State) : Out := .next (s.keep (firmwareReadDo (s.tick now)))

/-- The tenants as READY finds them: each in the window that holds `t` (R287, R304). -/
def tenantsAt (t : Time) : Tbl Tenant :=
  (List.range 256).foldl (fun m n => tblSet tenantReset m n { tenantReset with window := windowOf t tenantReset.windowUs }) []

/-- READY (R452, R462): reset inputs held low keep their functions in reset, an Acre out of service is held, and the sag
level at the pins applies at once. -/
def fwReadyDo (s : State) : State :=
  let s := { s with boot := { s.boot with stage := 8, ready := true } }
  let s := { s with energy := { s.energy with
    epoch := epochOf s.timeNs s.energy.epochUs, lastSample := s.timeNs, tick := tickOf s.timeNs } }
  let s := { s with flt := { s.flt with inReset := s.pins.fnLow }, tenants := tenantsAt s.timeNs }
  let s := if s.pins.sag.val = 0 then s else s.setLevel s.pins.sag
  s.refreshWidth

/-- FN_RST_RELEASE: the function's pin goes high; its reset sequence runs once every source is released (R370, R432), and
stage 7 begins where only fn_rst_n[4] kept it (R462). -/
def execFnRstRelease (fn : Fin 10) (s : State) : Out :=
  .next (s.keep { s with pins := { s.pins with fnLow := s.pins.fnLow &&& ~~~ BitVec.ofNat 10 (2 ^ fn.val) } }.stage7)

/-- FW_READY: stage 7 does not begin while fn_rst_n[4] is low (R462). -/
def execFwReady (now : Time) (s : State) : Out :=
  let t := s.tick now
  .next (s.keep (if t.inStage 7 && !t.pins.fnLow.getLsbD 4 then fwReadyDo t else t))

/-- START_STAGE_TIMEOUT (R452, R461). Stage 4 has a timeout only after GO; stage 7 has none while fn_rst_n[4] is low. -/
def stageTimeoutDo (port : Nat) (s : State) : State :=
  if !s.powered ∨ s.boot.failed then s
  else match s.boot.stage with
  | 1 => s.bootFail 0x01 0
  | 2 => s.bootFail 0x02 0
  | 3 => s.bootFail 0x05 0
  | 4 => if s.boot.go then s.bootFail 0x06 0 else s
  | 5 => s.bootFail 0x07 port
  | 6 => if s.boot.fwRead then s else s.bootFail 0x09 port
  | 7 => if s.pins.fnLow.getLsbD 4 then s else s.bootFail 0x0D 0
  | _ => s

/-- START_STAGE_TIMEOUT. -/
def execStartStageTimeout (port : Fin 24) (s : State) : Out := .next (s.keep (stageTimeoutDo port.val s))

end Sys2Proof.Machine
end

