-- ==== Sys2Proof/Machine/Faults.lean ====
section
/-! DEFINITION. Faults that the block's own memories meet (04_granary.md R111 to R115; 16_faults_spares_pairs.md R426 to
R431), and the test access and supplies that take it out of operation (01_architecture.md R21; 14_ports.md R370, R402,
R403). -/

namespace Sys2Proof.Machine

/-! ### Granary -/

/-- Bank `b` is served by its group's spare, or is or will be served by a spare or shadow that a migration fills (R114, R115). -/
def Granary.served (g : Granary) (b : Nat) : Bool :=
  let w := tblGet 0 g.spare (b / 64)
  g.moved.contains b || (w.getLsbD 31 && w.toNat % 64 == b % 64)

/-- A bank that needs its group's spare takes it, or a shadow where the spare is in use (R114, R115). The manual keeps no
record of a spare bank that failed its own self-test: one whose EN is 0 is unused here and takes the bank (DESIGN CHOICE,
log 80). -/
def State.migrate (s : State) (b : Nat) : State :=
  if s.granary.served b then s
  else
    let g := b / 64
    let s := { s with granary := { s.granary with moved := s.granary.moved ++ [b] } }
    let w := tblGet 0 s.granary.spare g
    let copy (s : State) : State := { s with granary := { s.granary with
      moving := s.granary.moving ++ [b], spare := tblModify 0 s.granary.spare g (setBit · 28) } }
    if !w.getLsbD 31 && !w.getLsbD 28 then
      let s := copy s
      { s with granary := { s.granary with
        spare := tblModify 0 s.granary.spare g fun w => (w &&& ~~~ 0x3F#32) ||| BitVec.ofNat 32 (b % 64) } }
    else
      let s := s.takeShadow g
      (if s.granary.oos then s else copy s).checkReplace

/-- A corrected read of bank `b` (R111, R114, R429). -/
def State.granaryCe (s : State) (b : Nat) : State :=
  let s := ({ s with granary := { s.granary with
    ceCount := s.granary.ceCount + 1, bankCe := tblModify 0 s.granary.bankCe b (· + 1) } }).corrected 1
  if tblGet 0 s.granary.bankCe b ≥ s.granary.ceLimit then s.migrate b else s

/-- Corrected reads of the scale store: counted with the Granary's, of no bank (R111, R116). -/
def State.scaleCe (s : State) (n : Nat) : State :=
  ({ s with granary := { s.granary with ceCount := s.granary.ceCount + BitVec.ofNat 32 n } }).corrected n

/-- An uncorrectable Granary or scale-store read: GRN_ECC_UE and a CONTAINED fault (R112, R113, R426). -/
def State.weightUe (s : State) (b w : Nat) : State :=
  (if s.granary.ueValid then s
    else { s with granary := { s.granary with ueValid := true, ueBank := b, ueWord := w } }).raise 1

/-- An uncorrectable read of a bank, which migrates (R114). -/
def State.granaryUe (s : State) (b w : Nat) : State := (s.weightUe b w).migrate b

/-- Marks a field DAMAGED (R112, R113). -/
def damageField (f : Field) : Field := if f.state = 0 then f else { f with state := 4 }

/-- Marks the field that owns a word DAMAGED (R113; log 25). -/
def State.damageOwner (s : State) (b w : Nat) : State :=
  let u := Config.unitOfWord b w
  { s with fields := s.fields.map fun (e : Nat × Field) =>
      (e.1, if e.2.base ≤ u ∧ u < e.2.base + e.2.units then damageField e.2 else e.2) }

/-- Banks of the build. -/
def bankCount (b : Build) : Nat := 64 * bankGroups b

/-- The position of the scrubber after a read of bank `b`: each bank's words in ascending order; the pass is over, and
PASSES counts it, when every word of every bank has been read (R113, R116). -/
def Granary.scrubPast (g : Granary) (words b : Nat) : Granary :=
  if g.scrubbed + 1 = words then { g with scrubbed := 0, scanned := [], passes := g.passes + 1 }
  else { g with scrubbed := g.scrubbed + 1, scanned := tblModify 0 g.scanned b (· + 1) }

/-- One scrub read and the write-back of a corrected word. A write-back that another claimant's write supersedes is dropped
(R113). Both are work of no command: their events go to BG (R406, R409). -/
def scrubDo (b w : Nat) (found : ScrubRead) (superseded : Bool) (s : State) : State :=
  let s := (s.perfAdd 21 1).bgEvent 4 1
  let s := { s with granary := s.granary.scrubPast (bankCount s.build * bankWords s.build) b }
  match found with
  | .clean => s
  | .corrected => (if superseded then s else s.bgEvent 5 1).granaryCe b
  | .uncorrectable => (s.damageOwner b w).granaryUe b w

/-- The scrubber runs in the free slots of frames, on the next word of a bank; at sag level 3 and above it rests (R113, R419).
A poisoned word reads as uncorrectable (R114). -/
def scrubOn (s : State) (b w : Nat) (found : ScrubRead) : Bool :=
  s.running && !s.halted && s.granary.scrubEn && decide (s.energy.level.val < 3)
    && decide (b < bankCount s.build) && decide (w < bankWords s.build) && w == tblGet 0 s.granary.scanned b
    && (found == .uncorrectable || !s.granary.poison.contains (b, w))

/-- SCRUB_STEP. -/
def execScrubStep (bank word : Nat) (found : ScrubRead) (superseded : Bool) (s : State) : Out :=
  .next (s.keep (if scrubOn s bank word found then scrubDo bank word found superseded s else s))

/-- MIGRATION_COPY_DONE: the oldest copy of group `g` ends; its bank switches at the next boundary. The copy has corrected
`n` words; those of `poisoned`, found uncorrectable, stay so at their new place until LOAD_HEAD rewrites them (R111, R114).
Its reads and writes are charged to BG (R406, R409). -/
def migrationCopyDo (g n : Nat) (poisoned : List Nat) (s : State) : State :=
  match s.granary.moving.find? fun b => b / 64 == g with
  | none => s
  | some b =>
    let words := bankWords s.build
    let s := ({ s with granary := { s.granary with
      ceCount := s.granary.ceCount + BitVec.ofNat 32 n
      moving := s.granary.moving.erase b, due := s.granary.due ++ [b]
      poison := s.granary.poison ++ (poisoned.filter fun w => decide (w < words) && !s.granary.poison.contains (b, w)).map fun w => (b, w) } }).corrected n
    ((s.bgEvent 4 words).bgEvent 5 words).refreshWidth

/-- MIGRATION_COPY_DONE: migration stops at sag level 3 (R419). -/
def execMigrationCopyDone (g : Fin 64) (corrected : Nat) (poisoned : List Nat) (s : State) : Out :=
  .next (s.keep (if s.running && !s.halted && decide (s.energy.level.val < 3) then migrationCopyDo g.val corrected poisoned s else s))

/-! ### FATAL faults (R430, R431) -/

/-- A segment of the result stream that a halted block still sends: of a commit that has begun or is over (R430). -/
def State.haltSends (s : State) (g : Segment) : Bool :=
  match s.cmd g.ring g.seq with
  | some c => c.stage == .finished || (c.stage == .committing && c.commit)
  | none => true

/-- The halt of R430: source 3, barrier_out low, FAILING to a partner; a compute phase stops where it stands, and what waits
at the movers and in the output queue stays only where it is of a commit that has begun. -/
def State.halt (s : State) : State :=
  let s := (s.raise 3).flushPhase
  let s := { s with
    queue := s.queue.filter s.haltKeeps
    streams := { s.streams with queue := s.streams.queue.filter s.haltSends } }
  let s := { s with pins := { s.pins with barrierOut := false } }
  if s.pair.state = 2 then s.sendPair frControl (controlPayload s 2) else s

/-- LEDGER_LOST. -/
def ledgerLostDo (word : Nat) (s : State) : State :=
  let s := (s.ueInfo 10 word).halt
  { s with flt := { s.flt with ledgerLost := true } }

/-- LEDGER_LOST: an uncorrectable error in CTRL ledger state (R426, R430). -/
def execLedgerLost (word : Nat) (now : Time) (s : State) : Out :=
  let t := s.tick now
  .next (s.keep (if t.running && !t.flt.ledgerLost then ledgerLostDo word t else t))

/-- The active firmware bank reads uncorrectable (R431). -/
def fwBankDo (word : Nat) (s : State) : State :=
  let s := s.ueInfo 11 word
  if s.flt.standbyValid then
    let s := s.fnAuto 4
    { s with flt := { s.flt with
        activeBank := !s.flt.activeBank, standbyValid := false, switches := s.flt.switches + 1 } }
  else { s.halt with flt := { s.halt.flt with fwLost := true } }

/-- FW_BANK_UE. -/
def execFwBankUe (word : Nat) (now : Time) (s : State) : Out :=
  let t := s.tick now
  .next (s.keep (if t.running && !t.halted then fwBankDo word t else t))

/-! ### Strips (R428) -/

/-- A strip-step of strip `n` that is checked and not committed takes ABORTED_RESET (R428). -/
def loseStep (n : Nat) (p : StripStep) : StripStep :=
  if p.strip = n ∧ p.reason = 0 ∧ !p.committed ∧ !p.asked then
    { p with reason := stepCode .abortedReset, sel := none, emitted := 0, reserved := 0 } else p

/-- The strip-steps of every command lose strip `n` and their reservations. -/
def State.loseSteps (s : State) (n : Nat) : State :=
  s.cmds.foldl (fun s c => match s.cmds.find? (fun d => d.order == c.order) with
    | none => s
    | some d =>
      let s := d.work.steps.foldl (fun s p => if loseStep n p = p then s else s.unreserve p) s
      s.setCmd { d with work := { d.work with steps := d.work.steps.map (loseStep n) } }) s

/-- A strip record (region 0) or its ledger (region 1) reads uncorrectable. -/
def stripLostDo (n : Nat) (ledger : Bool) (word : Nat) (s : State) : State :=
  let s := (s.ueInfo (if ledger then 1 else 0) word).raise 1
  let s := s.modStrip n fun t => { t with valid := false }
  let s := { s with flt := { s.flt with
    lostValid := true
    lostCount := s.flt.lostCount + 1
    lostStrip := if s.flt.lostValid then s.flt.lostStrip else BitVec.ofNat 12 n } }
  s.loseSteps n

/-- STRIP_LOST. -/
def execStripLost (strip : BitVec 12) (ledger : Bool) (word : Nat) (now : Time) (s : State) : Out :=
  let t := s.tick now
  .next (s.keep (if t.running && !t.halted && decide (strip.toNat < stripCount t.build)
    then stripLostDo strip.toNat ledger word t else t))

/-! ### Test access and supplies -/

/-- APB_INTERFACE_RESET: presetn resets the interface and no register (R370). -/
def execApbInterfaceReset (s : State) : Out := .next (s.keep { s with apb := ⟨0, false, false⟩ })

/-- Memory as a block that is out of operation leaves it: open, in canonical form (log 5). -/
def openMem (n : Nat) : List Host.Cell := (undefinedState n).mem.foldl (fun m c => memWrite m c.1 c.2) []

/-- Takes the block out of operation under wrapper instruction `w`: its functional state is open until the next rst_n; the
TAP and the levels at the pins are not part of it. WS_SAFE drives every output to its reset value (R402, R403; log 5). -/
def State.lose (s : State) (w : WrapperIns) : State :=
  let u := undefinedState s.freeCtr
  { u with
    outOfOp := true
    freeCtr := s.freeCtr + 1
    images := s.images
    tap := s.tap
    apb := if w = .safe then ⟨0, false, false⟩ else u.apb
    pins := { s.pins with wrapper := w, barrierOut := w != .safe && s.pins.barrierOut } }

/-- WRAPPER_INSTRUCTION_UPDATE (R403): WS_BYPASS lets the ports behave as stated; it brings no block back into operation. -/
def execWrapperInstructionUpdate (ins : WrapperIns) (s : State) : Out :=
  .next (if ins = .bypass then s.keep { s with pins := { s.pins with wrapper := .bypass } }
    else s.keepMem (openMem s.freeCtr) (s.lose ins))

/-- The state of an island whose supply is removed is open (R21; log 5, log 26): `u` is the open state. -/
def loseIsland (island : Island) (u s : State) : State :=
  match island with
  | .acre => { s with
      acre := u.acre, granary := u.granary, fields := u.fields, barn := u.barn, seed0 := u.seed0, seed1 := u.seed1
      strips := u.strips, tensors := u.tensors }
  | .winnow => { s with win := u.win }
  | .harrow => { s with ttSel := u.ttSel, totals := u.totals }
  | .ctrl => { u with
      acre := s.acre, granary := s.granary, fields := s.fields, barn := s.barn, seed0 := s.seed0, seed1 := s.seed1
      strips := s.strips, tensors := s.tensors, win := s.win, ttSel := s.ttSel, totals := s.totals, ports := s.ports
      xfers := s.xfers, drainWait := s.drainWait, streams := s.streams, shard := s.shard, pair := s.pair, pins := s.pins
      tap := s.tap, images := s.images, outOfOp := s.outOfOp, freeCtr := s.freeCtr }
  | .link => { s with streams := u.streams, shard := u.shard, pair := u.pair }
  | .port k => { s with ports := tblSet portReset s.ports k (u.port k) }

/-- SUPPLY_REMOVED. -/
def execSupplyRemoved (island : Island) (s : State) : Out :=
  .next (s.keep { loseIsland island (undefinedState s.freeCtr) s with freeCtr := s.freeCtr + 1 })

end Sys2Proof.Machine
end

