-- ==== Sys2Proof/Machine/Commit.lean ====
section
/-! DEFINITION. The completion record's response (12_rings_and_gates.md R318, R319, R376, R379) and what follows it: the
pool (R119), the signal and the interrupt (R319), the counters (R194, R479), the digest (16_faults_spares_pairs.md R445)
and the planner (15_energy_and_supply.md R416). -/

namespace Sys2Proof.Machine

/-- The command of ring `r` whose record has been handed to the command mover. -/
def State.recorded (s : State) (r : Nat) : Option Cmd :=
  match s.cmds.find? fun c => c.ring == r with
  | some c => if c.recAsked && c.stage == .finished then some c else none
  | none => none

/-- The record's write has been answered with OK: nothing of it is open and it did not fail. -/
def completionWrittenOn (s : State) (r : Nat) : Option Cmd :=
  let g := s.ring r
  if s.running && !s.halted && g.cplBusy && !g.cplFailed then
    match s.recorded r with
    | some c => if s.open r c.seq .cpl then none else some c
    | none => none
  else none

/-- Frees the allocation of a command whose record is written (R119). -/
def State.freePool (s : State) (c : Cmd) : State :=
  if c.granted then { s with barn := { s.barn with poolFree := s.barn.poolFree + c.granules } } else s

/-- Removes a packet from the fetched, uncompleted ones; the tag of a sharded command is kept (R257). -/
def State.dropCmd (s : State) (c : Cmd) : State :=
  let gone := if c.sharded && !s.shard.gone.contains (pkStepTag c.run) then pkStepTag c.run :: s.shard.gone else s.shard.gone
  { s with cmds := s.cmds.filter fun d => d.order != c.order, shard := { s.shard with gone := gone } }

/-- Sets the ring's bit in CMD_CPL_PEND when the packet asks for it (R319). -/
def State.markIrq (s : State) (c : Cmd) : State :=
  if pkIrq c.pkt then { s with cplPend := s.cplPend ||| BitVec.ofNat 64 (2 ^ c.ring) } else s

/-- The tokens that a completed TRAIN_STEP trained (R194, R417). -/
def State.countTrained (s : State) (c : Cmd) : State :=
  if c.op = opTrain ∧ c.reason = .ok then
    let n := (c.work.train.targets.filter fun g => !g.2).length
    { s with energy := { s.energy with
        trained := s.energy.trained + BitVec.ofNat 64 n, epochTrained := s.energy.epochTrained + n } }
  else s

/-- The counter of a completion record: its class, or control for a restored command that has not run (R479, R481). -/
def Cmd.perfClass (c : Cmd) : Nat := if c.raw = opCtxRestore ∧ !c.work.begun then 8 else 5 + c.cls

/-- The effect of a written record, in the order of R319. -/
def completionDo (c : Cmd) (s : State) : State :=
  let s := s.modRing c.ring fun g => { g with cplTail := g.cplTail + 1, cplBusy := false }
  let s := if s.primary then s.sendPair frDigest (digestPayload c.ring c.seq (digestOf c)) else s
  let s := (s.freePool c).dropCmd c
  let s := if c.signals then s.gateAdd (pkSigGate c.pkt) (pkSigAdd c.pkt) else s
  let s := (s.markIrq c).countTrained c
  let s := s.perfAdd c.perfClass 1
  let s := if c.reason = .ok then s else s.perfAdd 9 1
  let s := s.settle.dropGrant
  if c.cls = 1 ∨ c.cls = 2 then s.reconsider false else s

/-- COMPLETION_WRITTEN. -/
def execCompletionWritten (ring : Fin 64) (now : Time) (s : State) : Out :=
  let t := s.tick now
  .next (s.keep (match completionWrittenOn t ring.val with
    | some c => completionDo c t
    | none => t))

/-- The failed record is written again (R379). -/
def cplRetryDo (r : Nat) (s : State) : State :=
  let g := s.ring r
  if s.running && !s.halted && g.cplBusy && g.cplFailed then
    match s.recorded r with
    | some c =>
      let s := s.modRing r fun g => { g with cplFailed := false }
      s.askWrite .cpl r c.seq 0 (g.cplBase.toNat + 128 * (g.cplTail.toNat % 2 ^ g.log2Entries)) (recordBytes g c)
    | none => s
  else s

/-- CPL_WRITE_RETRY. -/
def execCplWriteRetry (ring : Fin 64) (now : Time) (s : State) : Out :=
  .next (s.keep (cplRetryDo ring.val (s.tick now)))

end Sys2Proof.Machine
end

