-- ==== Sys2Proof/Machine/Strips.lean ====
section
/-! DEFINITION. The strip record (11_strips_tenants_deadlines.md R279) and the commands that install, change, release and
export a strip (R281 to R283; 13_command_reference.md R357). -/

namespace Sys2Proof.Machine

/-! ### The record (R279) -/

/-- The host's scoring and selection fields of a record image, with POS `pos`. -/
def parseParams (b : List Byte) (pos : U32) : StripParams where
  biasAddr := leNat b 64 8
  biasCount := leNat b 56 2
  penEn := pktBit b 3 4
  ledgerUpd := pktBit b 3 3
  repPos := le32 b 40
  repNeg := le32 b 44
  presPen := le32 b 48
  freqPen := le32 b 52
  hedgeMode := leNat b 3 1 % 8
  hedgeAddr := leNat b 72 8
  hedgeCount := leNat b 60 2
  invTemp := le32 b 28
  topK := leNat b 6 2
  minP := le32 b 32
  topP := le32 b 36
  altCount := leNat b 5 1
  seed := le64 b 8
  sowTag := le32 b 16
  pos := pos

/-- The fields that the host keeps, over strip `t`. -/
def setParams (b : List Byte) (t : Strip) : Strip :=
  { t with
    dropLate := pktBit b 3 6
    tenant := leNat b 4 1
    params := parseParams b t.params.pos
    ledgerAddr := le64 b 80
    hostTag := le64 b 88
    ttft := le64 b 96
    itl := le32 b 104 }

/-- The strip that an INSTALL makes of an image and a ledger (R281). -/
def installStrip (b : List Byte) (l : Ledger) : Strip :=
  let t := setParams b stripReset
  { t with
    valid := true
    firstDone := pktBit b 3 5
    params := parseParams b (le32 b 20)
    amax := le32 b 24
    lateCount := le32 b 108
    firstCommit := le64 b 112
    lastCommit := le64 b 120
    committed := le32 b 128
    ledger := l }

/-- SFLAGS (R279). -/
def stripFlags (t : Strip) : Nat :=
  flagBit t.valid (2 ^ 31) + flagBit t.dropLate (2 ^ 30) + flagBit t.firstDone (2 ^ 29) + flagBit t.params.penEn (2 ^ 28)
    + flagBit t.params.ledgerUpd (2 ^ 27) + t.params.hedgeMode % 8 * 2 ^ 24

/-- The 256-byte image of a strip, with LEDGER_ADDR `a` (R279, R282). -/
def stripImage (t : Strip) (a : U64) : List Byte :=
  let p := t.params
  padTo 256 (leBytes 4 (stripFlags t) ++ leBytes 1 t.tenant ++ leBytes 1 p.altCount ++ leBytes 2 p.topK
    ++ leBytes 8 p.seed.toNat ++ leBytes 4 p.sowTag.toNat ++ leBytes 4 p.pos.toNat ++ leBytes 4 t.amax.toNat
    ++ leBytes 4 p.invTemp.toNat ++ leBytes 4 p.minP.toNat ++ leBytes 4 p.topP.toNat ++ leBytes 4 p.repPos.toNat
    ++ leBytes 4 p.repNeg.toNat ++ leBytes 4 p.presPen.toNat ++ leBytes 4 p.freqPen.toNat ++ leBytes 2 p.biasCount
    ++ leBytes 2 t.ledger.length ++ leBytes 2 p.hedgeCount ++ zeros 2 ++ leBytes 8 p.biasAddr ++ leBytes 8 p.hedgeAddr
    ++ leBytes 8 a.toNat ++ leBytes 8 t.hostTag.toNat ++ leBytes 8 t.ttft.toNat ++ leBytes 4 t.itl.toNat
    ++ leBytes 4 t.lateCount.toNat ++ leBytes 8 t.firstCommit.toNat ++ leBytes 8 t.lastCommit.toNat
    ++ leBytes 4 t.committed.toNat)

/-- The reserved fields of an image are zero (R279, R281 check 1). -/
def imageReservedOk (b : List Byte) : Bool := zeroRange b 0 3 && zeroRange b 62 2 && zeroRange b 132 124

/-! ### The packets (R357) -/

/-- STRIP. -/
def pkStrip (p : List Byte) : Nat := leNat p 32 2 % 4096
/-- MODE of STRIP_SET. -/
def pkStripMode (p : List Byte) : Nat := leNat p 34 1
/-- IMAGE_ADDR. -/
def pkImageAddr (p : List Byte) : Nat := leNat p 40 8
/-- LEDGER_ADDR of STRIP_GET. -/
def pkLedgerAddr (p : List Byte) : Nat := leNat p 48 8

/-- The body: STRIP, POS, LEDGER_LEN and VALID after the command (R357; log 27). -/
def stripBody (s : State) (n : Nat) : Body :=
  if n < stripCount s.build then
    let t := s.strip n
    ⟨[(32, 2, n), (36, 4, t.params.pos.toNat), (40, 2, t.ledger.length), (42, 1, flagBit t.valid 1)], false, false⟩
  else ⟨[(32, 2, n)], false, false⟩

/-- Ends the hold of a STRIP_SET or STRIP_GET. -/
def State.stripDone (s : State) (c : Cmd) (r : Reason) : State := s.ctlDone c r (stripBody s (pkStrip c.run))

/-- Enters part `k` of a dispatch hold (R331): the hold's time counts from part 0. -/
def State.holdPart (s : State) (c : Cmd) (k : Nat) : State :=
  s.setCmd { c with stage := .hold k, entered := if k = 0 then s.timeNs else c.entered }

/-! ### STRIP_SET (R281) -/

/-- The control command of the row is a STRIP_SET whose MODE satisfies `f`. -/
def State.onStripSet (s : State) (r : Nat) (now : Time) (f : Nat → Bool) (g : State → Cmd → State) : State :=
  s.onCtl r opStripSet now fun s c => if f (pkStripMode c.run) then g s c else s

/-- The image has been read: the checks of INSTALL that come before the ledger, then the ledger's read (R281, R210). -/
def installImage (s : State) (c : Cmd) : State :=
  let b := s.bytes (pkImageAddr c.run) 256
  let n := leNat b 58 2
  let a := leNat b 80 8
  if !imageReservedOk b then s.stripDone c .badStripRecord
  else if n = 0 then (s.modStrip (pkStrip c.run) fun _ => installStrip b []).stripDone c .ok
  else if a % 4 ≠ 0 ∨ n > 2048 then s.stripDone c .badLedger
  else (s.holdPart c 1).askRead .stripRead c.ring c.seq 1 a (4 * n)

/-- The ledger has been read (R210, R281). -/
def installLedger (s : State) (c : Cmd) : State :=
  let b := s.bytes (pkImageAddr c.run) 256
  let n := leNat b 58 2
  match parseLedger (s.bytes (leNat b 80 8) (4 * n)) n with
  | some l => (s.modStrip (pkStrip c.run) fun _ => installStrip b l).stripDone c .ok
  | none => s.stripDone c .badLedger

/-- STRIP_SET in MODE 0, and in a mode that does not exist (R357). -/
def stripInstallDo (s : State) (c : Cmd) : State :=
  if pkStrip c.run ≥ stripCount s.build then s.stripDone c .badStrip
  else if pkStripMode c.run ≠ 0 then s.stripDone c .badMode
  else match c.stage with
  | .hold k => if s.open c.ring c.seq .stripRead then s else if k = 0 then installImage s c else installLedger s c
  | _ => (s.holdPart c 0).askRead .stripRead c.ring c.seq 0 (pkImageAddr c.run) 256

/-- STRIP_SET_INSTALL. -/
def execStripSetInstall (ring : Fin 64) (now : Time) (s : State) : Out :=
  .next (s.keep (s.onStripSet ring.val now (fun m => m != 1 && m != 2) stripInstallDo))

/-- STRIP_SET in MODE 1. -/
def stripParamsDo (s : State) (c : Cmd) : State :=
  let n := pkStrip c.run
  if n ≥ stripCount s.build then s.stripDone c .badStrip
  else if !(s.strip n).valid then s.stripDone c .stripEmpty
  else match c.stage with
  | .hold _ =>
    if s.open c.ring c.seq .stripRead then s
    else (s.modStrip n (setParams (s.bytes (pkImageAddr c.run) 256))).stripDone c .ok
  | _ => (s.holdPart c 0).askRead .stripRead c.ring c.seq 0 (pkImageAddr c.run) 256

/-- STRIP_SET_PARAMS. -/
def execStripSetParams (ring : Fin 64) (now : Time) (s : State) : Out :=
  .next (s.keep (s.onStripSet ring.val now (· == 1) stripParamsDo))

/-- STRIP_SET in MODE 2: VALID = 0, the rest of the record stays (R281, R357). -/
def stripReleaseDo (s : State) (c : Cmd) : State :=
  let n := pkStrip c.run
  if n ≥ stripCount s.build then s.stripDone c .badStrip
  else (s.modStrip n fun t => { t with valid := false }).stripDone c .ok

/-- STRIP_SET_RELEASE. -/
def execStripSetRelease (ring : Fin 64) (now : Time) (s : State) : Out :=
  .next (s.keep (s.onStripSet ring.val now (· == 2) stripReleaseDo))

/-! ### STRIP_GET (R282) -/

/-- STRIP_GET: its hold writes the image and the ledger; once both are answered it releases the strip if asked. -/
def stripGetDo (s : State) (c : Cmd) : State :=
  let n := pkStrip c.run
  if n ≥ stripCount s.build then s.stripDone c .badStrip
  else if !(s.strip n).valid then s.stripDone c .stripEmpty
  else match c.stage with
  | .hold _ =>
    if s.writesOpen c.ring c.seq then s
    else if pktBit c.run 34 0 then (s.modStrip n fun t => { t with valid := false }).stripDone c .ok
    else s.stripDone c .ok
  | _ =>
    let s := s.holdPart c 0
    let t := s.strip n
    let s := s.output c .stripWrite 0 0 (pkImageAddr c.run) (stripImage t (le64 c.run 48))
    s.output c .stripWrite 1 1 (pkLedgerAddr c.run) (ledgerBytes t.ledger)

/-- STRIP_GET. -/
def execStripGet (ring : Fin 64) (now : Time) (s : State) : Out :=
  .next (s.keep (s.onCtl ring.val opStripGet now stripGetDo))

end Sys2Proof.Machine
end

