-- ==== Sys2Proof/Machine/Harrow.lean ====
section
/-! DEFINITION. Whose turn it is on the Harrow (11_strips_tenants_deadlines.md R302; 15_energy_and_supply.md R419), the
Seedbed's two buffers (04_granary.md R118), and the counts of its conversions (02_number_formats.md R45, R48, R55;
18_register_map.md R476). -/

namespace Sys2Proof.Machine

/-! ### Seedbed -/

/-- The buffer that holds pass `p` of a command. -/
def State.seedOf (s : State) (r : Nat) (q : U32) (p : Nat) : Option SeedBuf :=
  if s.seed0.owner = some (r, q, p) then some s.seed0
  else if s.seed1.owner = some (r, q, p) then some s.seed1 else none

/-- The buffer of pass `q` of a command: its passes alternate, and a command's first goes into the buffer after the one begun
last (R118; log 28). -/
def State.seedSlot (s : State) (c : Cmd) (q : Nat) : Nat := (c.work.seedBase.getD (s.seedTurn + q) + q) % 2

/-- That buffer is free: the Acre has finished every tile that reads its previous contents (R118). -/
def State.seedFree (s : State) (c : Cmd) (q : Nat) : Bool :=
  (if s.seedSlot c q = 0 then s.seed0 else s.seed1).owner.isNone

/-- Begins the buffer of pass `q` of a command with contents `b`. -/
def State.seedTake (s : State) (c : Cmd) (q : Nat) (b : SeedBuf) : State :=
  let i := s.seedSlot c q
  let s := s.modCmd c.ring c.seq fun d => { d with work := { d.work with seedBase := some ((i + q) % 2) } }
  let s := if i = 0 then { s with seed0 := b } else { s with seed1 := b }
  { s with seedTurn := (i + 1) % 2 }

/-- Replaces the buffer of the same owner. -/
def State.seedPut (s : State) (b : SeedBuf) : State :=
  if s.seed0.owner = b.owner then { s with seed0 := b }
  else if s.seed1.owner = b.owner then { s with seed1 := b } else s

/-- Frees the buffer of pass `p` of a command. -/
def State.seedDrop (s : State) (r : Nat) (q : U32) (p : Nat) : State :=
  if s.seed0.owner = some (r, q, p) then { s with seed0 := seedReset }
  else if s.seed1.owner = some (r, q, p) then { s with seed1 := seedReset } else s

/-! ### Turns (R302) -/

/-- The command has passed its energy admission: the planner never defers class 0 (R415). -/
def Cmd.isAdmitted (c : Cmd) : Bool := c.cls == 0 || c.admitted

/-- The memory that a command's conversion waits for has been read: targets, node tables and strip lists. -/
def State.readyToConvert (s : State) (c : Cmd) : Bool :=
  c.work.listsAsked && !s.open c.ring c.seq .targets && !s.open c.ring c.seq .nodes
    && (!pkStreamSrc c.run || c.work.frame.isSome)

/-- Stream-sourced commands are converted one after another in dispatch order (R342). -/
def State.streamNext (s : State) (c : Cmd) : Bool :=
  !pkStreamSrc c.run || s.cmds.all fun e => e.order == c.order
    || !(isAcreOp e.op && e.active && pkStreamSrc e.run && !e.work.ended && e.passesLeft && decide (e.dispOrder < c.dispOrder))

/-- The Harrow may begin the command's next column pass (R118, R160, R197, R342). -/
def State.convertible (s : State) (c : Cmd) : Bool :=
  isAcreOp c.op && c.active && (c.stage == .queued || c.stage == .running) && c.started && c.isAdmitted
    && s.levelLets c && !c.work.converting && !c.work.pauseAsked && c.work.seeds.isEmpty && decide (c.work.convNext < passCount c.work.tokens c.work.s)
    && s.seedFree c c.work.convNext && s.streamNext c && s.readyToConvert c

/-- No read of the command is open. -/
def State.readsDone (s : State) (c : Cmd) : Bool := s.ranges.all fun g => g.write || !(g.ring == c.ring && g.seq == c.seq)

/-- An UPDATE other than a resuming one waits for a field that is being written or was left UPDATING (R104, R190). -/
def State.fieldFree (s : State) (c : Cmd) : Bool :=
  c.op != opUpdate || isResume c.op c.run || ((s.fieldOf c).state != 1 && (s.fieldOf c).state != 3)

/-- A fill that starts or goes on: admitted, in the order of its field (R105, R155, R191, R415, R419). -/
def State.fillable (s : State) (c : Cmd) : Bool :=
  (c.op == opLoadHead || c.op == opUpdate || c.op == opSowFill) && c.active && c.isAdmitted && s.levelLets c
    && (if c.started then c.stage == .running else c.stage == .queued && s.clearOfConflicts c && s.fieldFree c)

/-- Command `d` comes before `c` on the Harrow: by class, then by dispatch (R302). -/
def harrowBefore (d c : Cmd) : Bool := decide (d.cls < c.cls) || (d.cls == c.cls && decide (d.dispOrder < c.dispOrder))

/-- The Harrow is free for `c`: no conversion is in progress and no command that could use it now comes before `c`. -/
def State.harrowTurn (s : State) (c : Cmd) : Bool :=
  s.working && !s.fnReset 2
    && s.cmds.all fun d => d.order == c.order
      || (!(d.active && d.work.converting) && !(harrowBefore d c && (s.convertible d || (s.fillable d && s.readsDone d))))

/-! ### Counts -/

/-- Adds the counts of a conversion, and the non-finite inputs it replaced, to the totals (R476). -/
def State.countQuant (s : State) (q : QCount) (nonfinite : Nat) : State :=
  { s with totals := { s.totals with
      nonfinite := add32 s.totals.nonfinite nonfinite
      scaleCap := add32 s.totals.scaleCap q.cap
      satElems := add32 s.totals.satElems q.sat
      uflElems := add32 s.totals.uflElems q.ufl } }

/-- Adds the counts of a conversion to a command's own (R45, R48, R52, R54). -/
def Cmd.countQuant (c : Cmd) (q : QCount) (nonfinite : Nat) : Cmd :=
  let k := c.work.counts
  { c with work := { c.work with counts := { k with
      scaleCap := k.scaleCap + q.cap, satElems := k.satElems + q.sat, uflElems := k.uflElems + q.ufl
      nonfinite := k.nonfinite + nonfinite } } }

/-- `n` elements pass the Harrow lanes for a command: event class 10 and PERF_HARROW_ELEMS (R409, R479). -/
def State.harrowElems (s : State) (c : Cmd) (n : Nat) : State := (s.event c.ring c.seq 10 n).perfAdd 17 n

/-! ### Vectors -/

/-- `n` elements of a source array from its bytes: FP32, or BF16 widened (R54 step 1). -/
def sourceElems (bf16 : Bool) (b : List Byte) (n : Nat) : List F32 :=
  (List.range n).map fun i => if bf16 then fpOfBf16 (le16 b (2 * i)) else le32 b (4 * i)

/-- Steps 2 and 3 of R54 on one row: replaced, rotated where the field is, with the NONFINITE count of R52. -/
def preparedRow (rot : Bool) (key : U64) (xs : List F32) : List F32 × Nat :=
  let (ys, n) := replaceNonFinite xs
  if rot then let (zs, m) := rotateRow (rotSign key) ys; (zs, n + m) else (ys, n)

end Sys2Proof.Machine
end

