-- ==== Sys2Proof/Machine/Fields.lean ====
section
/-! DEFINITION. Fields (04_granary.md R102 to R110): placement, LOAD_HEAD (R42, R52 to R54, R108; 13_command_reference.md
R353, R354) and EVICT_HEAD (R106, R355). -/

namespace Sys2Proof.Machine

/-! ### Placement (R102, R103, R109) -/

/-- The units from `a` to `a + n - 1` are free. -/
def State.unitsFree (s : State) (a n : Nat) : Bool :=
  decide (a + n ≤ granaryUnits s.build)
    && s.fields.all fun e => e.2.units == 0 || decide (e.2.base + e.2.units ≤ a) || decide (a + n ≤ e.2.base)

/-- The lowest-numbered run of `n` free units: a run begins at unit 0 or where a field ends. -/
def State.lowestRun (s : State) (n : Nat) : Option Nat :=
  (0 :: s.fields.map fun e => e.2.base + e.2.units).foldl (fun b a =>
    if s.unitsFree a n then some (match b with
      | some x => min x a
      | none => a) else b) none

/-- Places `n` units, or tells why they cannot be placed (R103). -/
def State.placeUnits (s : State) (n : Nat) : Except Reason Nat :=
  match s.lowestRun n with
  | some a => .ok a
  | none => if s.freeUnits < n then .error .granaryFull else .error .granaryFragmented

/-! ### The packet (R353) -/

/-- SRC_FMT. -/
def pkLoadFmt (p : List Byte) : Nat := leNat p 33 1 % 4
/-- E_ROW, two's complement. -/
def pkERow (p : List Byte) : Int := (le32 p 41 &&& 0xFF#32).toNat - (if pktBit p 41 7 then 256 else 0)
/-- AMAX of LOAD_HEAD. -/
def pkLoadAmax (p : List Byte) : F32 := le32 p 72
/-- V_M1. -/
def pkVM1 (p : List Byte) : Nat := leNat p 36 4

/-- The shard fields satisfy R245. -/
def shardFieldsOk (f : Field) : Bool :=
  !f.shard || (decide (f.log2Span ≤ 10) && decide (f.qM1 < 64) && decide (f.shardId ≤ f.qM1)
    && decide (f.qM1 * 2 ^ f.log2Span < f.wholeN) && decide (f.wholeN ≤ (f.qM1 + 1) * 2 ^ f.log2Span))

/-- Checks 1 to 5 of R354: the first reason that applies. -/
def State.loadReason (s : State) (p : List Byte) : Option Reason :=
  let fmt := pkLoadFmt p
  if (s.field (pkField p)).state ≠ 0 then some .fieldInUse
  else if s.granary.oos then some .granaryOos
  else if leNat p 40 1 > 31 ∨ pkVM1 p < 1023 ∨ pkVM1 p > 1048575 then some .badShape
  else if fmt = 3 ∨ (pktBit p 33 3 ∧ fmt ≠ 0) ∨ !fpNonNegFinite (pkLoadAmax p) ∨ (fmt = 0 ∧ pkERow p < -126) then some .badSource
  else if !shardFieldsOk (packetField p) then some .badShard
  else none

/-- Check 6 of R354: the units and whether the field is stream-fed. -/
def State.loadPlace (s : State) (p : List Byte) : Except Reason (Nat × Nat × Bool) :=
  let f := packetField p
  let whole := f.n * (f.hk + 1)
  let staging := 2 * (f.hk + 1)
  if pktBit p 33 3 ∨ (pkLoadFmt p = 0 ∧ s.freeUnits < whole) then
    match s.placeUnits staging with
    | .ok a => .ok (a, staging, true)
    | .error e => .error e
  else match s.placeUnits whole with
    | .ok a => .ok (a, whole, false)
    | .error e => .error e

/-! ### The units of work -/

/-- Bytes of an array element. -/
def loadElem (p : List Byte) : Nat := if pkLoadFmt p = 2 then 2 else 4

/-- The vocabulary rows of block row `k` of the owned swaths that lie below V (R102). -/
def browRows (f : Field) (k : Nat) : Nat := min 16 (f.v - min f.v (1024 * f.first + 16 * k))

/-- The first global row of block row `k`. -/
def browFirst (f : Field) (k : Nat) : Nat := 1024 * f.first + 16 * k

/-- The units of a LOAD_HEAD: swath records of an image, block rows of an array. -/
def loadUnits (f : Field) (p : List Byte) : Nat := if pkLoadFmt p = 0 then f.n else 64 * f.n

/-- Asks for the source of unit `k` with index `i`. -/
def State.askUnit (s : State) (c : Cmd) (f : Field) (k i : Nat) : State :=
  let p := c.run
  if pkLoadFmt p = 0 then s.askRead .loadSrc c.ring c.seq i (leNat p 48 8 + (f.first + k) * 516 * f.h) (516 * f.h)
  else s.askRead .loadSrc c.ring c.seq i (leNat p 48 8 + browFirst f k * f.h * loadElem p) (browRows f k * f.h * loadElem p)

/-- The FP32 rows of block row `k` of an array, prepared by R54, with the NONFINITE count. -/
def State.arrayRows (s : State) (p : List Byte) (f : Field) (k : Nat) : List (List F32) × Nat :=
  let sz := loadElem p
  (List.range (browRows f k)).foldl (fun (a : List (List F32) × Nat) i =>
    let b := s.bytes (leNat p 48 8 + (browFirst f k + i) * f.h * sz) (f.h * sz)
    let (xs, n) := preparedRow f.rot f.rotKey (sourceElems (pkLoadFmt p == 2) b f.h)
    (a.1 ++ [xs], a.2 + n)) ([], 0)

/-- The largest magnitude of rows (R38). -/
def rowsMax (rows : List (List F32)) (m : F32) : F32 := rows.foldl (fun m r => fpMax m (maxAbs r)) m

/-- The stochastic draw of weight (v, h), where the command rounds so (R144 SUB 4). -/
def weightDraw (on : Bool) (seed : U64) (id v h : Nat) : Option Nat :=
  if on then some (srDraw seed 4 id (v * 32768 + h)) else none

/-- A block row converted: its blocks and counts (R43, R46, R47). `v0` is its first vocabulary id. -/
def convertBrow (e : Int) (draw : Nat → Nat → Option Nat) (v0 h : Nat) (rows : List (List F32)) : List Blk × QCount :=
  (List.range (h / 16)).foldl (fun (a : List Blk × QCount) j =>
    let xs := (rows.map fun r => block16 j r).flatten
    let (codes, sc, q) := quantBlock .e2m1 e false (fun i => draw (v0 + i / 16) (16 * j + i % 16)) xs
    (a.1 ++ [⟨codes ++ zeros (256 - codes.length), sc⟩], qCountAdd a.2 q)) ([], qCountZero)

/-- Block (i', j) of an image's swath record (R35, R107). -/
def recordBlock (b : List Byte) (h i j : Nat) : Blk :=
  let k := i * (h / 16) + j
  let bytes := (b.drop (128 * k)).take 128
  ⟨(List.range 256).map (nibbleAt bytes), byteAt b (512 * h + k)⟩

/-- The block rows of a swath record. -/
def recordRows (b : List Byte) (h : Nat) : List (List Blk) :=
  (List.range 64).map fun i => (List.range (h / 16)).map (recordBlock b h i)

/-- A record holds a scale fault (R108). -/
def hasScaleFault (rows : List (List Blk)) : Bool := rows.any fun r => r.any fun b => scaleFault b.scale

/-- A record of a swath with `n` rows below V holds a row fault (R108). -/
def hasRowFault (n : Nat) (rows : List (List Blk)) : Bool :=
  (List.range 64).any fun i =>
    let good := n - 16 * i
    (rows.getD i []).any fun b =>
      (good == 0 && b.scale != 0) || (decide (good < 16) && (b.codes.drop (16 * good)).any fun c => codeInt .e2m1 c != 0)

/-- The largest decoded magnitude of blocks (R42). -/
def blocksMax (e : Int) (rows : List (List Blk)) (m : F32) : F32 :=
  rows.foldl (fun m r => r.foldl (fun m b =>
    let top := b.codes.foldl (fun a c => max a (codeInt .e2m1 c).natAbs) 0
    let (sm, sq) := scaleSplit b.scale
    fpMax m (fpRound false (top * sm) (-1 + sq + e)).bits) m) m

/-- Adds block row `k` to the owned swaths of a field. -/
def addBrow (k : Nat) (b : List Blk) (f : Field) : Field :=
  { f with swaths := (List.range (max f.swaths.length (k / 64 + 1))).map fun w =>
      let sw := f.swaths.getD w []
      if w = k / 64 then sw ++ [b] else sw }

/-! ### LOAD_HEAD -/

/-- The field is complete: READY, unless an error has damaged it (R104, R113). -/
def fieldReady (amax : F32) (f : Field) : Field :=
  { f with amax := amax, state := if f.state = 4 then 4 else 2 }

/-- LOAD_HEAD has rewritten every word of its field: none of them is poisoned any more (R114; log 25). -/
def State.unpoison (s : State) (f : Field) : State :=
  { s with granary := { s.granary with poison := s.granary.poison.filter fun e =>
      let u := Config.unitOfWord e.1 e.2
      !(decide (f.base ≤ u) && decide (u < f.base + f.units)) } }

/-- Ends a LOAD_HEAD that has done its work; its record follows at once, as it wrote no memory (R354). -/
def State.loadDone (s : State) (c : Cmd) (amax : F32) : State :=
  let s := if (s.fieldOf c).stream then s else s.unpoison (s.fieldOf c)
  let s := s.modField (pkField c.run) (fieldReady amax)
  s.openCommit c c.reason

/-- Asks for the sources of every block row, with indices from `i`. -/
def State.askBrows (s : State) (c : Cmd) (f : Field) (i : Nat) : State :=
  (List.range (64 * f.n)).foldl (fun s k => s.askUnit c f k (i + k)) s

/-- The start of a LOAD_HEAD (R354): a refusal leaves the field as it was. -/
def State.loadStart (s : State) (c : Cmd) : State :=
  let p := c.run
  match s.loadReason p with
  | some r => s.refuse c r
  | none => match s.loadPlace p with
    | .error r => s.refuse c r
    | .ok (base, units, stream) =>
      let m := pkLoadAmax p
      let fmt := pkLoadFmt p
      let f : Field := { packetField p with
        state := 1, stream := stream, base := base, units := units
        eRow := if fmt = 0 then pkERow p else globalExp .e2m1 m }
      let s := s.modField (pkField p) fun _ => f
      let c := { c with started := true, stage := .running, work := { c.work with
        fill := { c.work.fill with m := m, gathered := fmt = 0 || !fpIsZero m, base := base, units := units } } }
      let s := s.setCmd c
      if stream then s.loadDone c (if fpIsZero m then fpZero else m)
      else if fmt = 0 then s.askUnit c f 0 0
      else s.askBrows c f 0

/-- Swath record `k` of an image as it has been read. -/
def State.recordRead (s : State) (c : Cmd) (f : Field) (k : Nat) : List (List Blk) :=
  recordRows (s.bytes (leNat c.run 48 8 + (f.first + k) * 516 * f.h) (516 * f.h)) f.h

/-- The fault of swath record `k` with block rows `rows` (R108). -/
def recordFault (f : Field) (k : Nat) (rows : List (List Blk)) : Option Reason :=
  if hasScaleFault rows then some .badScale else if hasRowFault (f.rowsOf k) rows then some .badImage else none

/-- Swath record `k` of an image, read without a fault, is written (R42, R108). -/
def State.loadRecord (s : State) (c : Cmd) (k : Nat) : State :=
  let p := c.run
  let f := s.fieldOf c
  let rows := s.recordRead c f k
  let s := s.modField (pkField p) fun f => { f with swaths := f.swaths ++ [rows] }
  let s := s.event c.ring c.seq 5 (tileWords f.h)
  let u := c.work.fill
  let amax := if fpIsZero (pkLoadAmax p) then blocksMax f.eRow rows u.amax else pkLoadAmax p
  s.modCmd c.ring c.seq fun c => { c with work := { c.work with fill := { u with done := k + 1, amax := amax } } }

/-- Block row `k` of an array in its gathering read (R42). -/
def State.gatherBrow (s : State) (c : Cmd) (k : Nat) : State :=
  let f := s.fieldOf c
  let (rows, _) := s.arrayRows c.run f k
  let s := s.harrowElems c (browRows f k * f.h)
  s.modCmd c.ring c.seq fun c => { c with work := { c.work with
    fill := { c.work.fill with done := k + 1, amax := rowsMax rows c.work.fill.amax } } }

/-- Block row `k` of an array converted (R54). -/
def State.convertRow (s : State) (c : Cmd) (k : Nat) : State :=
  let p := c.run
  let f := s.fieldOf c
  let (rows, n) := s.arrayRows p f k
  let (blks, q) := convertBrow f.eRow (weightDraw (pktBit p 33 4) (le64 p 64) (leNat p 34 2)) (browFirst f k) f.h rows
  let s := (s.harrowElems c (browRows f k * f.h)).event c.ring c.seq 5 (f.h / 4)
  let s := (s.countQuant q n).modField (pkField p) (addBrow k blks)
  s.modCmd c.ring c.seq fun c =>
    let c := c.countQuant q n
    { c with work := { c.work with fill := { c.work.fill with done := k + 1, amax := rowsMax rows c.work.fill.amax } } }

/-- The gathering read is over: M is the maximum found, and the source is read again (R42). -/
def State.gatherDone (s : State) (c : Cmd) : State :=
  let u := c.work.fill
  let s := s.modField (pkField c.run) fun f => { f with eRow := globalExp .e2m1 u.amax }
  let c := { c with work := { c.work with fill := { u with gathered := true, m := u.amax, amax := fpZero, done := 0 } } }
  (s.setCmd c).askBrows c (s.fieldOf c) (64 * (s.fieldOf c).n)

/-- A unit of a LOAD_HEAD on field `f` is done: the next record is asked for, the array is read again, or the field is complete. -/
def State.loadOn (s : State) (f : Field) (d : Cmd) : State :=
  if d.work.fill.done < loadUnits f d.run then
    if pkLoadFmt d.run = 0 then s.askUnit d f d.work.fill.done d.work.fill.done else s
  else if d.work.fill.gathered then s.loadDone d d.work.fill.amax
  else s.gatherDone d

/-- The next unit of a running LOAD_HEAD, once its source has been read; a faulty record ends it (R108). -/
def State.loadUnit (s : State) (r : Nat) (q : U32) : State :=
  match s.cmd r q with
  | none => s
  | some c =>
    if c.op ≠ opLoadHead ∨ c.stage ≠ .running then s
    else
      let p := c.run
      let f := s.fieldOf c
      let u := c.work.fill
      let second := pkLoadFmt p != 0 && u.gathered && fpIsZero (pkLoadAmax p)
      if s.openIdx r q .loadSrc (u.done + if second then loadUnits f p else 0) then s
      else
        let t := if pkLoadFmt p = 0 then s.loadRecord c u.done
          else if u.gathered then s.convertRow c u.done else s.gatherBrow c u.done
        match (if pkLoadFmt p = 0 then recordFault f u.done (s.recordRead c f u.done) else none) with
        | some e => s.endWork c e
        | none => match t.cmd r q with
          | none => t
          | some d => t.loadOn f d

/-- Repeats a step `n` times. -/
def times (f : State → State) : Nat → State → State
  | 0, s => s
  | n + 1, s => times f n (f s)

/-- The row has ended the command: what it held goes on. -/
def State.fillOver (s : State) (c : Cmd) : State :=
  if s.cmds.any fun d => d.order == c.order && d.stage == .running then s else s.settle

/-- Runs `start` and up to `n` units of a fill whose turn it is; a unit does nothing once the command has ended. -/
def State.onFill (s : State) (r : Nat) (q : U32) (op : Nat) (ok : List Byte → Bool) (n : Nat) (start : State → Cmd → State) (unit : State → State) : State :=
  match s.cmd r q with
  | some c =>
    if c.op = op ∧ ok c.run ∧ s.fillable c ∧ s.harrowTurn c then
      (times unit n (if c.started then s else start s c)).fillOver c
    else s
  | none => s

/-- A fill row: dispatches the packet with SEQ `q` where ring `r` has it in front; otherwise works on the dispatched
command with that SEQ. `ok` tells whether a packet is the row's. -/
def State.fillRow (s : State) (r : Nat) (q : U32) (op : Nat) (ok : List Byte → Bool) (n : Nat) (start : State → Cmd → State)
    (unit : State → State) : State :=
  match s.classFront r op with
  | some c =>
    if c.seq = q then (if ok c.run then (s.enqueue (c.prepared s.acre.cEff)).settle else s) else s.onFill r q op ok n start unit
  | none => s.onFill r q op ok n start unit

/-- LOAD_HEAD: dispatch, start, or the next `n` units (R354; R419: it stops only between units). -/
def loadHeadDo (r : Nat) (q : U32) (n : Nat) (s : State) : State :=
  s.fillRow r q opLoadHead (fun _ => true) n State.loadStart (fun s => s.loadUnit r q)

/-- LOAD_HEAD. -/
def execLoadHead (ring : Fin 64) (seq : U32) (n : Nat) (now : Time) (s : State) : Out :=
  .next (s.keep (loadHeadDo ring.val seq n (s.tick now)))

/-! ### EVICT_HEAD (R106, R355) -/

/-- EVICT_HEAD: the field becomes EMPTY and its units are freed. -/
def evictHeadDo (s : State) (c : Cmd) : State :=
  let f := s.fieldOf c
  if f.state = 0 then s.ctlDone c .fieldEmpty bodyZero
  else (s.modField (pkField c.run) fun _ => fieldReset).ctlDone c .ok ⟨[(32, 2, f.units)], false, false⟩

/-- EVICT_HEAD. -/
def execEvictHead (ring : Fin 64) (now : Time) (s : State) : Out :=
  .next (s.keep (s.onCtl ring.val opEvictHead now evictHeadDo))

end Sys2Proof.Machine
end

