-- ==== Sys2Proof/Machine/Update.lean ====
section
/-! DEFINITION. UPDATE (07_training_passes.md R185 to R191, R193; 13_command_reference.md R356): the step of one element,
the pass that gathers GRAD_SQSUM, and the block rows. -/

namespace Sys2Proof.Machine

/-! ### The packet (R356) -/

/-- MODE: 1 computes GRAD_SQSUM only. -/
def pkUpdMode1 (p : List Byte) : Bool := pktBit p 33 0
/-- RESUME. -/
def pkUpdResume (p : List Byte) : Bool := pktBit p 33 1
/-- CLIP_EN. -/
def pkClipEn (p : List Byte) : Bool := pktBit p 33 2
/-- GRAD_MUL. -/
def pkGradMul (p : List Byte) : F32 := le32 p 140

/-- The hyperparameters of an update (R185). -/
structure Hyper where
  lr : F32
  beta1 : F32
  beta2 : F32
  omb1 : F32
  omb2 : F32
  eps : F32
  wd : F32
  bc1 : F32
  bc2 : F32
  deriving DecidableEq, Repr

/-- The hyperparameters of a packet. -/
def pkHyper (p : List Byte) : Hyper :=
  ⟨le32 p 104, le32 p 108, le32 p 112, le32 p 116, le32 p 120, le32 p 124, le32 p 128, le32 p 132, le32 p 136⟩

/-- A moment decay in [0, 1) (R189). -/
def betaOk (b : F32) : Bool := fpNonNegFinite b && fpLt b fpOne

/-- The checks of R189; with MODE = 1 they cover GRAD_MUL alone (R356). -/
def hyperOk (p : List Byte) : Bool :=
  let h := pkHyper p
  fpFinite (pkGradMul p)
    && (pkUpdMode1 p
      || (betaOk h.beta1 && betaOk h.beta2 && fpPosFinite h.eps
        && [h.lr, h.omb1, h.omb2, h.wd, h.bc1, h.bc2, le32 p 144].all fpFinite
        && (!pkClipEn p || fpPosFinite (le32 p 144))))

/-- The checks at the start, in their order (R356). -/
def updReason (f : Field) (p : List Byte) : Option Reason :=
  if f.state = 0 then some .fieldEmpty
  else if f.state = 4 then some .fieldDamaged
  else if f.stream then some .fieldStreamed
  else if pkUpdResume p ∧ ¬ (f.state = 3 ∧ f.leftOver) then some .badResume
  else if !hyperOk p then some .badHyper
  else none

/-! ### One element (R186, R189) -/

/-- What one element's update gives. -/
structure Updated where
  w : F32
  m1 : F32
  m2 : F32
  /-- The element took part: G, w, m1 and m2 were finite. -/
  live : Bool
  /-- The value that is quantised. -/
  q : F32
  deriving DecidableEq, Repr

/-- The step of R186 with gradient factor `c`; an element with a non-finite input is left as R189 says. -/
def updElem (h : Hyper) (c g w m1 m2 : F32) : Updated :=
  if fpFinite g && fpFinite w && fpFinite m1 && fpFinite m2 then
    let g := fpMul g c
    let m1' := fpAdd (fpMul h.beta1 m1) (fpMul h.omb1 g)
    let m2' := fpAdd (fpMul h.beta2 m2) (fpMul h.omb2 (fpMul g g))
    let den := fpAdd (fpSqrt (fpMul m2' h.bc2)) h.eps
    let u := fpDiv (fpMul m1' h.bc1) den
    let u := fpAdd u (fpMul h.wd w)
    let w' := fpSub w (fpMul h.lr u)
    ⟨w', m1', m2', true, w'⟩
  else ⟨w, m1, m2, false, if fpFinite w then w else fpZero⟩

/-- The gradient factor of R187 from GRAD_SQSUM. -/
def clipFactor (gradMul clipNorm sqsum : F32) : F32 :=
  let n := fpSqrt sqsum
  if fpLe n clipNorm then gradMul else fpMul gradMul (fpDiv clipNorm n)

/-! ### Block rows -/

/-- The block rows of a field with a row below V: those that UPDATE processes and BROWS_DONE counts (R186, R190). Block rows
that lie wholly at or beyond V are padding of the last record, hold no element with v < V, and are not counted (log 47). -/
def Field.brows (f : Field) : Nat := ceilDiv f.ownRows 16

/-- The address of block row `k` of an array at `base` (R185). -/
def browAddr (f : Field) (base k : Nat) : Nat := base + 4 * (browFirst f k * f.h)

/-- The bytes of block row `k` of an array. -/
def browBytes (f : Field) (k : Nat) : Nat := 4 * (browRows f k * f.h)

/-- Reads block row `k` of an array. -/
def State.browWords (s : State) (f : Field) (base k : Nat) : List F32 :=
  sourceElems false (s.bytes (browAddr f base k) (browBytes f k)) (browRows f k * f.h)

/-- Asks for block row `k` of G, the masters and the moments. -/
def State.askBrow (s : State) (c : Cmd) (f : Field) (k : Nat) : State :=
  (List.range 4).foldl (fun s i =>
    s.askRead .updRead c.ring c.seq (f.brows + k) (browAddr f (leNat c.run (40 + 8 * i) 8) k) (browBytes f k)) s

/-- Asks for block row `k` of G in the gathering read. -/
def State.askGrad (s : State) (c : Cmd) (f : Field) (k : Nat) : State :=
  s.askRead .updRead c.ring c.seq k (browAddr f (leNat c.run 40 8) k) (browBytes f k)

/-- Changes the fill of a command. -/
def State.modFill (s : State) (c : Cmd) (g : Fill → Fill) : State :=
  s.modCmd c.ring c.seq fun c => { c with work := { c.work with fill := g c.work.fill } }

/-- The leaf index of the first element of block row `k` (R187). -/
def browLeaf (f : Field) (k : Nat) : Nat := browFirst f k * f.h

/-- The sum of squares grown by the values of one block row; `xs` gives none for an element left out. -/
def sqRow (leaf : Nat) (xs : List (Option F32)) (st : SqStack) : SqStack :=
  (xs.foldl (fun (a : SqStack × Nat) x => (match x with
    | some v => sqPush a.1 a.2 v
    | none => a.1, a.2 + 1)) (st, leaf)).1

/-- Block row `k` of the gathering read (R187; log 29). -/
def State.gatherGrad (s : State) (c : Cmd) (f : Field) (k : Nat) : State :=
  let gs := s.browWords f (leNat c.run 40 8) k
  let mul := pkGradMul c.run
  s.modFill c fun u =>
    let sq := sqRow (browLeaf f k) (gs.map fun g => if fpFinite g then some (fpMul g mul) else none) u.gradSq
    { u with asked := k + 1, gradSq := sq, gradSqsum := sqRoot sq }

/-- One block row of the update; with the first one the writes begin and the field is UPDATING (R104): outputs asked, blocks requantised, sums grown (R186 to R189). -/
def State.updateBrow (s : State) (c : Cmd) (f : Field) (k : Nat) : State :=
  let p := c.run
  let u := c.work.fill
  let gs := s.browWords f (leNat p 40 8) k
  let ws := s.browWords f (leNat p 48 8) k
  let ms := s.browWords f (leNat p 56 8) k
  let vs := s.browWords f (leNat p 64 8) k
  let out := (List.range gs.length).map fun i => updElem (pkHyper p) u.factor (gs.getD i 0) (ws.getD i 0) (ms.getD i 0) (vs.getD i 0)
  let rows := (List.range (browRows f k)).map fun i => ((out.map Updated.q).drop (i * f.h)).take f.h
  let (blks, q) := convertBrow (globalExp .e2m1 u.m) (weightDraw (pktBit p 33 3) (le64 p 96) (leNat p 34 2)) (browFirst f k) f.h rows
  let bad := (out.filter fun o => !o.live).length
  let leaf := browLeaf f k
  let upd := (List.range out.length).map fun i =>
    let o := out.getD i ⟨0, 0, 0, false, 0⟩
    if o.live then some (fpSub o.w (ws.getD i 0)) else none
  let grad := (List.range out.length).map fun i =>
    if (out.getD i ⟨0, 0, 0, false, 0⟩).live then some (fpMul (gs.getD i 0) (pkGradMul p)) else none
  let sq := if pkClipEn p then u.gradSq else sqRow leaf grad u.gradSq
  let u' := { u with
    asked := k + 1
    gradSq := sq, gradSqsum := sqRoot sq
    updSq := sqRow leaf upd u.updSq
    wSq := sqRow leaf (out.map fun o => if o.live then some o.w else none) u.wSq
    rowMax := out.foldl (fun m o => if o.live then fpMax m (fpAbs o.w) else m) fpZero }
  let bytes (g : Updated → F32) : List Byte := (out.map fun o => leBytes 4 (g o).toNat).flatten
  let s := s.output c .updWrite 1 k (browAddr f (leNat p 72 8) k) (bytes Updated.w)
  let s := s.output c .updWrite 2 k (browAddr f (leNat p 80 8) k) (bytes Updated.m1)
  let s := s.output c .updWrite 3 k (browAddr f (leNat p 88 8) k) (bytes Updated.m2)
  let s := ((s.harrowElems c out.length).event c.ring c.seq 14 out.length).event c.ring c.seq 5 (f.h / 4)
  let s := (s.countQuant q bad).modField (pkField p) fun f =>
    { f with state := if f.state = 2 then 3 else f.state, swaths := (List.range f.swaths.length).map fun w =>
        let sw := f.swaths.getD w []
        if w = k / 64 then sw.set (k % 64) blks else sw }
  s.modCmd c.ring c.seq fun c =>
    let c := c.countQuant q bad
    { c with work := { c.work with fill := u' } }

/-- The last block row is written: the descriptor takes E_ROW and AMAX, the field is READY (R188). -/
def State.updateDone (s : State) (c : Cmd) : State :=
  let u := c.work.fill
  let s := s.modField (pkField c.run) fun f =>
    fieldReady u.amax { f with eRow := globalExp .e2m1 u.m, leftOver := false, browsDone := 0, amaxPart := fpZero }
  s.openCommit c c.reason

/-- A block row's writes have been answered: it counts as done (R186, R190, R444). -/
def State.browDone (s : State) (c : Cmd) (f : Field) : State :=
  let u := { c.work.fill with done := c.work.fill.asked, amax := fpMax c.work.fill.amax c.work.fill.rowMax, rowMax := fpZero }
  let c := { c with work := { c.work with fill := u } }
  let s := (s.setCmd c).tell stProgress c false false u.done 0
  if u.done < f.brows then s.askBrow c f u.done else s.updateDone c

/-- The gathering read is over: MODE = 1 ends, an update takes its factor and begins its rows (R187). -/
def State.gradDone (s : State) (c : Cmd) (f : Field) : State :=
  let p := c.run
  let u := c.work.fill
  if pkUpdMode1 p then s.openCommit { c with work := { c.work with fill := { u with asked := 0 } } } c.reason
  else
    let c := { c with work := { c.work with fill := { u with
      gathered := true, asked := u.done, factor := clipFactor (pkGradMul p) (le32 p 144) u.gradSqsum } } }
    let s := s.modField (pkField p) fun f => { f with leftOver := false }
    if u.done < f.brows then (s.setCmd c).askBrow c f u.done else (s.setCmd c).updateDone c

/-- The next unit of a running UPDATE. -/
def State.updateUnit (s : State) (r : Nat) (q : U32) : State :=
  match s.cmd r q with
  | none => s
  | some c =>
    if c.op ≠ opUpdate ∨ c.stage ≠ .running then s
    else
      let f := s.fieldOf c
      let u := c.work.fill
      if !u.gathered then
        if u.asked < f.brows then (if s.openIdx r q .updRead u.asked then s else s.gatherGrad c f u.asked) else s.gradDone c f
      else if u.done < u.asked then (if s.writesOpen r q then s else s.browDone c f)
      else if s.openIdx r q .updRead (f.brows + u.done) then s
      else s.updateBrow c f u.done

/-- The start of an UPDATE (R187, R188, R190, R356). -/
def State.updateStart (s : State) (c : Cmd) : State :=
  let p := c.run
  let f := s.fieldOf c
  match updReason f p with
  | some r => s.refuse c r
  | none =>
    let first := pkUpdMode1 p || pkClipEn p
    let resume := pkUpdResume p
    let u := { c.work.fill with
      m := f.amax, factor := pkGradMul p, gathered := !first
      done := if resume then f.browsDone else 0
      asked := if first then 0 else if resume then f.browsDone else 0
      amax := if resume then f.amaxPart else fpZero }
    let c := { c with started := true, stage := .running, work := { c.work with fill := u } }
    let s := s.setCmd c
    let s := if first then s else s.modField (pkField p) fun f => { f with leftOver := false }
    if first then (List.range f.brows).foldl (fun s k => s.askGrad c f k) s
    else if u.done < f.brows then s.askBrow c f u.done
    else s.updateDone c

/-- A row of UPDATE whose packets satisfy `ok`. -/
def updateDo (ok : List Byte → Bool) (r : Nat) (q : U32) (n : Nat) (s : State) : State :=
  s.fillRow r q opUpdate ok n State.updateStart fun s => s.updateUnit r q

/-- UPDATE with MODE = 0 and RESUME = 0. -/
def execUpdate (ring : Fin 64) (seq : U32) (n : Nat) (now : Time) (s : State) : Out :=
  .next (s.keep (updateDo (fun p => !pkUpdMode1 p && !pkUpdResume p) ring.val seq n (s.tick now)))

/-- UPDATE with MODE = 1 (R187): it runs over the block rows whose reads are answered. -/
def execUpdateSqsum (ring : Fin 64) (seq : U32) (now : Time) (s : State) : Out :=
  .next (s.keep (updateDo (fun p => pkUpdMode1 p) ring.val seq 65537 (s.tick now)))

/-- UPDATE with MODE = 0 and RESUME = 1 (R190). -/
def execUpdateResume (ring : Fin 64) (seq : U32) (n : Nat) (now : Time) (s : State) : Out :=
  .next (s.keep (updateDo (fun p => !pkUpdMode1 p && pkUpdResume p) ring.val seq n (s.tick now)))

end Sys2Proof.Machine
end

