-- ==== Sys2Proof/Machine/Fill.lean ====
section
/-! DEFINITION. SOW_FILL (06_sower.md R154, R155; 13_command_reference.md R358): chunks of 65,536 elements. -/

namespace Sys2Proof.Machine

/-- Elements of a chunk (R155). -/
def fillChunk : Nat := 65536

/-- COUNT. -/
def pkFillCount (p : List Byte) : Nat := leNat p 64 8

/-- Bytes before element `m` of the destination (R154). -/
def fillOffset (p : List Byte) (m : Nat) : Nat :=
  let dist := leNat p 32 1
  if dist = 2 then m / 8 else if dist = 3 then 16 * m else if pktBit p 33 0 then 2 * m else 4 * m

/-- The bytes of `n` elements from element `m` on. -/
def pkFillBytes (p : List Byte) (m n : Nat) : List Byte :=
  fillBytes (le64 p 40) (leNat p 32 1) (leNat p 33 1) (leNat p 36 4) (leNat p 80 2) (le32 p 72) (le32 p 76) (leNat p 56 8)
    (pkFillCount p) m n

/-- One chunk is generated and its write asked for. -/
def State.fillNext (s : State) (c : Cmd) : State :=
  let p := c.run
  let m := c.work.fill.done
  let n := min fillChunk (pkFillCount p - m)
  let s := s.output c .fill 0 m (leNat p 48 8 + fillOffset p m) (pkFillBytes p m n)
  let s := s.harrowElems c n
  s.modFill c fun u => { u with asked := m + n }

/-- A chunk's writes have been answered (R444: PROGRESS carries ELEMS_WRITTEN, low word and high word). -/
def State.fillDone (s : State) (c : Cmd) : State :=
  let u := { c.work.fill with done := c.work.fill.asked }
  let c := { c with work := { c.work with fill := u } }
  let s := (s.setCmd c).tell stProgress c false false (u.done % 2 ^ 32) (u.done / 2 ^ 32)
  if u.done = pkFillCount c.run then s.openCommit c c.reason else s

/-- The next unit of a running SOW_FILL. -/
def State.fillUnit (s : State) (r : Nat) (q : U32) : State :=
  match s.cmd r q with
  | none => s
  | some c =>
    if c.op ≠ opSowFill ∨ c.stage ≠ .running then s
    else if c.work.fill.asked = c.work.fill.done then s.fillNext c
    else if s.writesOpen r q then s else s.fillDone c

/-- The start of a SOW_FILL: every check was made at fetch. -/
def State.fillStart (s : State) (c : Cmd) : State := s.setCmd { c with started := true, stage := .running }

/-- SOW_FILL: dispatch, start, or the next `n` units. -/
def sowFillDo (r : Nat) (q : U32) (n : Nat) (s : State) : State :=
  s.fillRow r q opSowFill (fun _ => true) n State.fillStart fun s => s.fillUnit r q

/-- SOW_FILL. -/
def execSowFill (ring : Fin 64) (seq : U32) (n : Nat) (now : Time) (s : State) : Out :=
  .next (s.keep (sowFillDo ring.val seq n (s.tick now)))

end Sys2Proof.Machine
end

