-- ==== Sys2Proof/Machine/Firmware.lean ====
section
/-! DEFINITION. FW_SWAP (13_command_reference.md R368; 17_startup.md R460; 16_faults_spares_pairs.md R431, R440). -/

namespace Sys2Proof.Machine

/-- FW_ADDR. -/
def pkFwAddr (p : List Byte) : Nat := leNat p 32 8
/-- FW_LEN. -/
def pkFwLen (p : List Byte) : Nat := leNat p 40 4
/-- ACTION. -/
def pkFwAction (p : List Byte) : Nat := leNat p 44 1

/-- The body: both banks after the command (R368). -/
def fwBody (s : State) : Body :=
  ⟨[(32, 1, flagBit s.flt.activeBank 1), (33, 1, flagBit s.flt.standbyValid 1), (36, 4, (fwVersionOf s.activeFw).toNat),
    (40, 4, if s.flt.standbyValid then (fwVersionOf s.standbyFw).toNat else 0)], false, false⟩

/-- Ends the hold of a FW_SWAP. -/
def State.fwDone (s : State) (c : Cmd) (r : Reason) : State := s.ctlDone c r (fwBody s)

/-- The standby bank takes an image, valid or not; a bank without one is empty (R368). -/
def State.setStandby (s : State) (img : List Byte) (valid : Bool) : State :=
  { s with
    fw := if s.flt.activeBank then { s.fw with bank0 := img } else { s.fw with bank1 := img }
    flt := { s.flt with standbyValid := valid } }

/-- The standby bank becomes the active one, between two holds (R368, R431). -/
def State.switchFw (s : State) : State :=
  { s with flt := { s.flt with activeBank := !s.flt.activeBank, switches := s.flt.switches + 1 } }

/-- A failed load leaves the standby bank empty (R368). -/
def State.loadFailed (s : State) (c : Cmd) (r : Reason) : State := (s.setStandby [] false).fwDone c r

/-- The load of FW_SWAP: its hold reads the image and authenticates it; `next` follows a load that passes. -/
def State.loadFw (s : State) (c : Cmd) (next : State → State) : State :=
  let n := pkFwLen c.run
  if n = 0 ∨ n > 2 ^ 20 then s.loadFailed c .fwTooLarge
  else match c.stage with
  | .hold _ =>
    if s.open c.ring c.seq .firmware then s
    else
      let img := s.bytes (pkFwAddr c.run) n
      match fwCheck img n with
      | .ok => next (s.setStandby img true)
      | .size => s.loadFailed c .badFwSig
      | .sig => s.loadFailed c .badFwSig
      | .version => s.loadFailed c .fwVersion
  | _ => (s.holdPart c 0).askRead .firmware c.ring c.seq 0 (pkFwAddr c.run) n

/-- The control command of the row is a FW_SWAP whose ACTION satisfies `ok`. -/
def State.onFwSwap (s : State) (r : Nat) (now : Time) (ok : Nat → Bool) (f : State → Cmd → State) : State :=
  s.onCtl r opFwSwap now fun s c => if ok (pkFwAction c.run) then f s c else s

/-- FW_SWAP with ACTION 0; an ACTION that does not exist is refused here (R368). -/
def fwLoadDo (s : State) (c : Cmd) : State :=
  if pkFwAction c.run ≥ 3 then s.fwDone c .badMode else s.loadFw c fun s => s.fwDone c .ok

/-- FW_SWAP_LOAD. -/
def execFwSwapLoad (ring : Fin 64) (now : Time) (s : State) : Out :=
  .next (s.keep (s.onFwSwap ring.val now (fun a => a != 1 && a != 2) fwLoadDo))

/-- FW_SWAP with ACTION 1. -/
def fwSwitchDo (s : State) (c : Cmd) : State :=
  if s.flt.standbyValid then s.switchFw.fwDone c .ok else s.fwDone c .noStandby

/-- FW_SWAP_SWITCH. -/
def execFwSwapSwitch (ring : Fin 64) (now : Time) (s : State) : Out :=
  .next (s.keep (s.onFwSwap ring.val now (· == 1) fwSwitchDo))

/-- FW_SWAP with ACTION 2. -/
def fwLoadSwitchDo (s : State) (c : Cmd) : State := s.loadFw c fun s => s.switchFw.fwDone c .ok

/-- FW_SWAP_LOAD_SWITCH. -/
def execFwSwapLoadSwitch (ring : Fin 64) (now : Time) (s : State) : Out :=
  .next (s.keep (s.onFwSwap ring.val now (· == 2) fwLoadSwitchDo))

end Sys2Proof.Machine
end

