-- ==== Sys2Proof/Machine/Shard.lean ====
section
/-! DEFINITION. Shard records (09_selection_and_sampling.md R255 to R257, R262): their layout, the checks that a record
passes when it arrives, and the early buffer. -/

namespace Sys2Proof.Machine

/-! ### The layout (R255, R256) -/

/-- REC_TYPE: 1 and 2 for the rounds, 3 for an abort. -/
def recType (b : List Byte) : Nat := leNat b 0 1
/-- SRC. -/
def recSrc (b : List Byte) : Nat := leNat b 1 1
/-- DST. -/
def recDst (b : List Byte) : Nat := leNat b 2 1
/-- LAST. -/
def recLast (b : List Byte) : Bool := pktBit b 3 0
/-- SEQ. -/
def recSeq (b : List Byte) : Nat := leNat b 4 2 + 65536 * leNat b 20 2
/-- COUNT. -/
def recCount (b : List Byte) : Nat := leNat b 6 2
/-- STEP_TAG. -/
def recTag (b : List Byte) : U64 := le64 b 8
/-- TOKEN_IDX. -/
def recToken (b : List Byte) : Nat := leNat b 16 2
/-- PASS. -/
def recPass (b : List Byte) : Nat := leNat b 18 2

/-- The CRC of a record: over bytes 0 to 27 and 32 to 255 (R255). -/
def recCrc (b : List Byte) : U32 := crc32c (b.take 28 ++ b.drop 32)

/-- A record with a known type and its own CRC (R257). -/
def recordSound (b : List Byte) : Bool :=
  (recType b == 1 || recType b == 2 || recType b == 3) && recCrc b == le32 b 28

/-- The header fields of a record to send. -/
structure RecHead where
  type : Nat
  src : Nat
  dst : Nat
  last : Bool
  seq : Nat
  count : Nat
  tag : U64
  token : Nat
  pass : Nat

/-- A record of 256 bytes (R255, R256). -/
def recordBytes256 (h : RecHead) (payload : List Byte) : List Byte :=
  let a := leBytes 1 h.type ++ leBytes 1 h.src ++ leBytes 1 h.dst ++ leBytes 1 (flagBit h.last 1) ++ leBytes 2 h.seq
    ++ leBytes 2 h.count ++ leBytes 8 h.tag.toNat ++ leBytes 2 h.token ++ leBytes 2 h.pass ++ leBytes 2 (h.seq / 65536) ++ zeros 6
  let p := padTo 224 payload
  a ++ leBytes 4 (crc32c (a ++ p)).toNat ++ p

/-! ### Acceptance (R257) -/

/-- A sharded command that still takes records: one that awaits its merge, or a TRAIN_STEP that has not ended. -/
def Cmd.takesRecords (c : Cmd) : Bool :=
  c.awaitsMerge
    || (c.op == opTrain && pkShardEn c.run && c.active && c.stage != .committing && !c.work.ended)

/-- The pending command that a STEP_TAG names. -/
def State.tagged (s : State) (tag : U64) : Option Cmd :=
  s.cmds.find? fun c => c.takesRecords && pkStepTag c.run == tag

/-- A command with the tag has been dispatched and has ended (R257, R260; log 78). -/
def State.taggedEnded (s : State) (tag : U64) : Bool :=
  s.shard.gone.contains tag || s.cmds.any fun c => c.sharded && !c.takesRecords && pkStepTag c.run == tag

/-- A record for command `c` on field `f` that is discarded: for another shard, or a duplicate; one of a pass that is
over is a duplicate too (R257, R262). -/
def Cmd.discards (c : Cmd) (f : Field) (b : List Byte) : Bool :=
  (f.shard && recDst b != f.shardId)
    || (recType b != 3
      && ((c.op == opTrain && decide (recPass b < c.work.pass))
        || c.work.merge.got.any fun e => e.1 == recSrc b && e.2.1 == recType b && e.2.2.1 == recSeq b && recPass e.2.2.2.2 == recPass b))

/-- Takes a record into a command's allocation, or discards and counts it. -/
def State.takeRecord (s : State) (c : Cmd) (b : List Byte) : State :=
  if c.discards (s.fieldOf c) b then { s with shard := { s.shard with bad := s.shard.bad + 1 } }
  else s.modCmd c.ring c.seq fun c =>
    let m := c.work.merge
    let m := if recType b = 3 then { m with aborted := true }
      else { m with
        got := m.got ++ [(recSrc b, recType b, recSeq b, recLast b, b)]
        recv1 := m.recv1 + (if recType b = 1 then 1 else 0)
        recv2 := m.recv2 + (if recType b = 2 then 1 else 0) }
    { c with work := { c.work with merge := m } }

/-- The early records of a sharded command that has just been dispatched move into its allocation (R257). -/
def State.takeEarly (s : State) (c : Cmd) : State :=
  if isAcreOp c.op && pkShardEn c.run then
    let mine (b : List Byte) : Bool := recTag b == pkStepTag c.run
    let t := { s with shard := { s.shard with early := s.shard.early.filter fun b => !mine b } }
    (s.shard.early.filter mine).foldl (fun s b => match s.cmd c.ring c.seq with
      | some c => s.takeRecord c b
      | none => s) t
  else s

end Sys2Proof.Machine
end

