-- ==== Sys2Proof/Machine/Serve.lean ====
section
/-! DEFINITION. The dispatch of the four Acre commands (12_rings_and_gates.md step 5; 13_command_reference.md R342, R345,
R487; 03_acre.md R486) and the pool's grant to a command that waits for it (04_granary.md R119, R120). -/

namespace Sys2Proof.Machine

/-- Dispatches a SAMPLE_STEP: it enters its class queue and its strip list is read (R345). -/
def sampleDo (s : State) (c : Cmd) : State :=
  (((s.enqueue (c.prepared s.acre.cEff)).takeEarly c).askRead .stripList c.ring c.seq 0 (pkListAddr c.run) (4 * pkCount c.run)).settle

/-- SAMPLE_STEP. -/
def execSampleStep (ring : Fin 64) (now : Time) (s : State) : Out :=
  .next (s.keep (s.onClass ring.val opSample now sampleDo))

/-- Dispatches a VERIFY_TREE: its descriptor table is read once (R266, R487). -/
def verifyDo (s : State) (c : Cmd) : State :=
  ((s.enqueue (c.prepared s.acre.cEff)).askRead .desc c.ring c.seq 0 (pkListAddr c.run) (32 * pkCount c.run)).settle

/-- VERIFY_TREE. -/
def execVerifyTree (ring : Fin 64) (now : Time) (s : State) : Out :=
  .next (s.keep (s.onClass ring.val opVerify now verifyDo))

/-- Dispatches a HEAD_FWD or a TRAIN_STEP. -/
def queueDo (s : State) (c : Cmd) : State := ((s.enqueue (c.prepared s.acre.cEff)).takeEarly c).settle

/-- HEAD_FWD. -/
def execHeadFwd (ring : Fin 64) (now : Time) (s : State) : Out :=
  .next (s.keep (s.onClass ring.val opHeadFwd now queueDo))

/-- TRAIN_STEP. -/
def execTrainStep (ring : Fin 64) (now : Time) (s : State) : Out :=
  .next (s.keep (s.onClass ring.val opTrain now queueDo))

/-- The command that the pool serves next: of the highest class that waits, the one dispatched first (R120). -/
def State.poolHead (s : State) : Option Cmd := ((s.cmds.filter fun c => c.waitsPool && s.poolHolds c).foldr insertByClass []).head?

/-- POOL_GRANT (R120). -/
def poolGrantDo (s : State) : State :=
  match s.poolHead with
  | some c => if c.granules ≤ s.barn.poolFree then (s.grantPool c).settle else s
  | none => s

/-- POOL_GRANT. -/
def execPoolGrant (s : State) : Out := .next (s.keep (if s.working then poolGrantDo s else s))

end Sys2Proof.Machine
end

