-- ==== Sys2Proof/Machine/Convert.lean ====
section
/-! DEFINITION. The conversion of hidden states (02_number_formats.md R38 to R41, R54; 04_granary.md R118;
05_stone_path.md R122 to R125; 07_training_passes.md R160) and the frames of the activation stream (14_ports.md R389,
R390, R490; 13_command_reference.md R342). -/

namespace Sys2Proof.Machine

/-! ### Running maxima (R39) -/

/-- AMAX of the strip that strip word `w` names. Where the word names no strip, or the strip holds no record, M has never
been set (R37; log 30). -/
def State.stripAmax (s : State) (w : Nat) : F32 :=
  if w < stripCount s.build ∧ (s.strip w).valid then (s.strip w).amax else fpZero

/-- The M that converts token `t` of a command (R39, R41, R160). -/
def State.convertM (s : State) (c : Cmd) (t : Nat) : F32 :=
  let p := c.run
  if c.op = opSample then s.stripAmax (c.work.strips.getD t 0)
  else if c.op = opVerify then s.stripAmax (c.work.strips.getD (locate (c.work.descs.map TreeDesc.nodes) t).1 0)
  else if c.op = opHeadFwd then (if pkBindEn p then s.stripAmax (pkBindStrip p) else fpZero)
  else if fpIsZero (pkAmaxSeed p) then c.work.train.amaxBefore else pkAmaxSeed p

/-! ### The source (R342) -/

/-- Bytes of an element of the hidden states. -/
def srcSize (p : List Byte) : Nat := if pkSrcBf16 p then 2 else 4

/-- The hidden state of token `t`, prepared by steps 1 to 3 of R54, with the NONFINITE count. -/
def State.tokenRow (s : State) (c : Cmd) (f : Field) (t : Nat) : List F32 × Nat :=
  let n := f.h * srcSize c.run
  let b := match c.work.frame with
    | some b => (b.drop (t * n)).take n
    | none => s.bytes (pkHidAddr c.run + t * n) n
  preparedRow f.rot f.rotKey (sourceElems (pkSrcBf16 c.run) b f.h)

/-! ### One pass -/

/-- What a pass's conversion gives: operands, stones and sums over its tokens. -/
structure Converted where
  hid : List Opd
  tok : List Opd
  stones : List Stone
  amax : List F32
  drop : List Nat
  /-- Residuals dropped from the token-blocked copy (R124). -/
  tokDrop : Nat
  quant : QCount
  nonfinite : Nat
  deriving Repr

/-- The stochastic draw of an activation element in the copy with SUB value `sub` (R144). -/
def actDraw (c : Cmd) (sub t h : Nat) : Option Nat :=
  if c.op = opTrain ∧ pkRnd c.run % 2 = 1 then
    some (srDraw (pkTrainSeed c.run) sub (pkTensorId c.run) (t * 32768 + h)) else none

/-- Converts token `t`, column `col` of its pass (R54 steps 4 to 8), onto what the pass has so far. -/
def State.convertToken (s : State) (c : Cmd) (a : Converted) (t col : Nat) (row : List F32 × Nat) : Converted :=
  let xs := row.1
  let thr := pkStoneThr c.run
  let (v, q) := quantVec .e2m1 (globalExp .e2m1 (s.convertM c t)) (pkSecond c.run) (actDraw c 0 t) xs
  let found := tokenStones thr v xs
  { a with
    hid := a.hid ++ [opdOfQVec v]
    stones := a.stones ++ (found.take 256).map fun (e : Nat × U16) => ⟨BitVec.ofNat 10 col, BitVec.ofNat 15 e.1, e.2⟩
    amax := a.amax ++ [maxAbs xs]
    drop := a.drop ++ [if thr = 0 then clippedCount v xs else found.length - 256]
    quant := qCountAdd a.quant q
    nonfinite := a.nonfinite + row.2 }

/-- The token-blocked copy of hidden index `h` over the pass's rows, whose first token is `t0` (R36, R54). -/
def State.convertIndex (s : State) (c : Cmd) (t0 : Nat) (rows : List (List F32)) (a : Converted) (h : Nat) : Converted :=
  let xs := rows.map fun r => r.getD h 0
  let (v, q) := quantVec .e2m1 (globalExp .e2m1 (s.convertM c t0)) (pkSecond c.run) (fun i => actDraw c 1 (t0 + i) h) xs
  { a with
    tok := a.tok ++ [opdOfQVec v]
    tokDrop := a.tokDrop + clippedCount v xs
    quant := qCountAdd a.quant q }

/-- Converts column pass `q` of a command. -/
def State.convertPass (s : State) (c : Cmd) (q : Nat) : Converted :=
  let f := s.fieldOf c
  let (t0, n) := passTokens c q
  let rows := (List.range n).map fun i => s.tokenRow c f (t0 + i)
  let a := (List.range n).foldl (fun a i => s.convertToken c a (t0 + i) i (rows.getD i ([], 0)))
    (⟨[], [], [], [], [], 0, qCountZero, 0⟩ : Converted)
  if c.op = opTrain then (List.range f.h).foldl (s.convertIndex c t0 (rows.map Prod.fst)) a else a

/-! ### HARROW_CONVERT -/

/-- What the first pass of a TRAIN_STEP does to its tensor table entry: an entry that reads uncorrectable is never set,
and AMAX_SEED overwrites it (R160, R426). -/
def State.seedTensor (s : State) (c : Cmd) (ue : Bool) : State :=
  let id := pkTensorId c.run
  let s := if ue then (({ s with tensors := tblSet 0 s.tensors id 0 }).ueInfo 2 id).raise 1 else s
  let s := s.modCmd c.ring c.seq fun c =>
    { c with work := { c.work with train := { c.work.train with amaxBefore := tblGet 0 s.tensors id } } }
  if fpIsZero (pkAmaxSeed c.run) then s else { s with tensors := tblSet 0 s.tensors id (pkAmaxSeed c.run) }

/-- The frame of a command is found malformed (R390). -/
def State.frameMalformed (s : State) (r : Nat) (q : U32) : State :=
  let s := { s with streams := { s.streams with frameErr := s.streams.frameErr + 1 } }
  match s.cmd r q with
  | some c => (if c.work.begun then s.endWork c .badCount else s.refuse c .badCount).settle
  | none => s

/-- The Harrow begins the next column pass of a command: its Seedbed buffer is taken and the hidden states are read
(R118, R342). -/
def harrowConvertDo (c : Cmd) (ttUe : Bool) (s : State) : State :=
  let q := c.work.convNext
  let (t0, n) := passTokens c q
  let bytes := (s.fieldOf c).h * srcSize c.run
  let s := if c.op = opTrain ∧ q = 0 then s.seedTensor c ttUe else s
  let s := s.modCmd c.ring c.seq fun c => { c with work := { c.work with converting := true } }
  let s := s.seedTake c q { seedReset with owner := some (c.ring, c.seq, q) }
  if c.work.frame.isSome then s else s.askRead .hidden c.ring c.seq q (pkHidAddr c.run + t0 * bytes) (n * bytes)

/-- The command of the row may convert its next pass. -/
def harrowConvertOn (r : Nat) (q : U32) (s : State) : Option Cmd :=
  match s.cmd r q with
  | some c => if s.convertible c && s.harrowTurn c then some c else none
  | none => none

/-- HARROW_CONVERT; a frame that is malformed in the pass ends the command there (R390). -/
def execHarrowConvert (ring : Fin 64) (seq : U32) (ttUe : Bool) (s : State) : Out :=
  .next (s.keep (match harrowConvertOn ring.val seq s with
    | some c => if c.work.frameBad = some c.work.convNext then s.frameMalformed c.ring c.seq else harrowConvertDo c ttUe s
    | none => s))

/-! ### CONVERSION_DONE -/

/-- The counts of a pass's conversion in the command's own record (R136). -/
def Cmd.tookPass (c : Cmd) (a : Converted) : Cmd :=
  let c := c.countQuant a.quant a.nonfinite
  let w := c.work
  { c with work := { w with
      converting := false
      convNext := w.convNext + 1
      amaxTok := w.amaxTok ++ a.amax
      dropTok := w.dropTok ++ a.drop
      counts := { w.counts with
        stones := w.counts.stones + a.stones.length
        stoneDrop := w.counts.stoneDrop + a.drop.sum + a.tokDrop }
      train := { w.train with amaxGathered := a.amax.foldl fpMax w.train.amaxGathered } } }

/-- The pass whose reads have been answered is converted and its buffer is complete; the last pass of a TRAIN_STEP stores
the gathered maximum (R54 step 9, R160). -/
def conversionDoneDo (c : Cmd) (s : State) : State :=
  let q := c.work.convNext
  let a := s.convertPass c q
  let d := c.tookPass a
  let s := s.countQuant a.quant a.nonfinite
  let s := { s with totals := { s.totals with stoneDropped := add32 s.totals.stoneDropped (a.drop.sum + a.tokDrop) } }
  let s := (s.setCmd d).seedPut ⟨some (c.ring, c.seq, q), true, a.hid, a.tok, a.stones⟩
  let s := s.harrowElems c (a.hid.length * (s.fieldOf c).h * (if c.op = opTrain then 2 else 1))
  let s := if c.op = opTrain ∧ d.work.convNext = passCount d.work.tokens d.work.s
    then { s with tensors := tblSet 0 s.tensors (pkTensorId c.run) d.work.train.amaxGathered } else s
  s.settle

/-- The command converts a pass and its hidden states have been read. -/
def conversionDoneOn (r : Nat) (q : U32) (s : State) : Option Cmd :=
  match s.cmd r q with
  | some c => if s.working && !s.fnReset 2 && c.active && c.work.converting && !s.open r q .hidden then some c else none
  | none => none

/-- CONVERSION_DONE. -/
def execConversionDone (ring : Fin 64) (seq : U32) (s : State) : Out :=
  .next (s.keep (match conversionDoneOn ring.val seq s with
    | some c => conversionDoneDo c s
    | none => s))

/-! ### ACT_FRAME -/

/-- The first token that a command takes from the stream: a restored one skips the tokens converted before the save
(R438). -/
def Cmd.streamFirst (c : Cmd) : Nat := min c.work.tokens (c.work.convNext * c.work.s)

/-- The command at the head of the stream has ended, so that its frame is discarded (R490). -/
def Cmd.frameLost (c : Cmd) : Bool := !c.active || c.stage == .committing || c.work.ended

/-- Elzan would take the frame of `c` now: the Harrow would convert it (R389). -/
def State.takesFrame (s : State) (c : Cmd) : Bool :=
  let d := { c with work := { c.work with frame := some [] } }
  s.convertible d && s.harrowTurn d

/-- Counts the beats of a frame against a command, or against BG (R406, R409, R479). -/
def State.frameBeats (s : State) (c : Option Cmd) (n : Nat) : State :=
  let s := s.perfAdd 15 (ceilDiv n 256)
  match c with
  | some c => s.event c.ring c.seq 13 (ceilDiv n 256)
  | none => s.bgEvent 13 (ceilDiv n 256)

/-- The pass at which a frame of `n` bytes is found malformed: that of its first beat with a low act_tkeep bit, of its last
beat where act_tlast comes early, or of the beat that should have carried act_tlast (R390). -/
def Cmd.frameFault (c : Cmd) (row n : Nat) (badKeep : Option Nat) : Option Nat :=
  let skip := c.streamFirst * row
  let want := c.work.tokens * row - skip
  let at' (i : Nat) : Nat := (skip + i) / (c.work.s * row)
  let keep := (badKeep.filter fun b => decide (256 * b < min n want)).map fun b => at' (256 * b)
  let last := if n = want then none else some (at' (min n want - 1))
  match keep, last with
  | some a, some b => some (min a b)
  | some a, none => some a
  | none, b => b

/-- The frame at the head is taken, discarded or found malformed (R390, R490); `badKeep` is its first beat with a low act_tkeep
bit. -/
def actFrameDo (bytes : List Byte) (badKeep : Option Nat) (s : State) : State :=
  match s.streams.frames with
  | [] => s
  | (r, q) :: rest =>
    let pop (s : State) : State := { s with streams := { s.streams with frames := rest } }
    match s.cmd r q with
    | none => (pop s).frameBeats none bytes.length
    | some c =>
      if c.frameLost then (pop s).frameBeats none bytes.length
      else if !s.takesFrame c then s
      else
        let row := (s.fieldOf c).h * srcSize c.run
        let skip := c.streamFirst * row
        let s := (pop s).frameBeats (some c) bytes.length
        let bad := c.frameFault row bytes.length badKeep
        if bad = some c.work.convNext then s.frameMalformed r q
        else s.modCmd r q fun c =>
          { c with work := { c.work with frame := some (zeros skip ++ bytes), frameDone := true, frameBad := bad } }

/-- ACT_FRAME. -/
def execActFrame (bytes : List Byte) (badKeep : Option Nat) (now : Time) (s : State) : Out :=
  let t := s.tick now
  .next (s.keep (if t.running && !t.halted && !t.fnReset 5 then actFrameDo bytes badKeep t else t))

end Sys2Proof.Machine
end

