-- ==== Sys2Proof/Machine/Check.lean ====
section
/-! DEFINITION. The checks before the compute phase: strip-steps at T_CHECK (11_strips_tenants_deadlines.md R284, R285,
R288, R292, R295; 08_scoring.md R201; 09_selection_and_sampling.md R233; 10_tree_verification.md R268, R271) and the
bound strip of a HEAD_FWD (13_command_reference.md R349). -/

namespace Sys2Proof.Machine

/-! ### Deadlines (R292, R293) -/

/-- A time later than D (R293, R295). -/
def isLate (time d : Time) : Bool := d != 0 && decide (d < time)

/-! ### Lists (R202, R211) -/

/-- The bias list of a strip, as memory holds it at the check (log 83); none where it fails R202. -/
def State.readBias (s : State) (p : StripParams) : Option (List (Nat × F32)) :=
  if p.biasCount = 0 then some [] else parseBias (s.bytes p.biasAddr (8 * p.biasCount)) p.biasCount

/-- A range list of hedge mode `mode`; none where it fails R211. -/
def State.readRanges (s : State) (mode addr count : Nat) : Option (List (Nat × Nat)) :=
  if mode < 3 then some [] else parseRanges (s.bytes addr (8 * count)) count

/-- The lists of strip `t`, with ledger `l`. -/
def State.readLists (s : State) (p : StripParams) (l : Ledger) : ScoreLists :=
  ⟨(s.readBias p).getD [], (s.readRanges p.hedgeMode p.hedgeAddr p.hedgeCount).getD [], l⟩

/-- The checks of R201, in table order. -/
def State.scoreReason (s : State) (p : StripParams) : Option StepReason :=
  if !scoreParamOk p then some .badScoreParam
  else if (s.readBias p).isNone then some .badBias
  else if (s.readRanges p.hedgeMode p.hedgeAddr p.hedgeCount).isNone then some .badHedge
  else none

/-- The checks of R233, in table order. -/
def selectReason (p : StripParams) (ks : Nat) : Option StepReason :=
  if !selectParamOk p then some .badSelectParam else if !sheafOk p ks then some .sheafShort else none

/-! ### Trees -/

/-- The nodes of a tree, as memory holds them at T_CHECK: of the read at point 4 no copy is kept, and bytes that another transfer
has changed since are seen, which R268 leaves open (DESIGN CHOICE, log 83). -/
def State.treeNodes (s : State) (d : TreeDesc) : List Node := parseNodes (s.bytes d.nodeAddr (16 * d.nodes)) d.nodes

/-- The ranges of a node's own hedge, or the strip's (R265, R269); none where they fail R211. -/
def State.nodeRanges (s : State) (p : StripParams) (e : Node) : Option (List (Nat × Nat)) :=
  if e.hedgeAddr = 0 then s.readRanges p.hedgeMode p.hedgeAddr p.hedgeCount
  else s.readRanges p.hedgeMode e.hedgeAddr e.hedgeCount

/-- A tree passes R268 for vocabulary `v`. -/
def State.treeOk (s : State) (v : Nat) (p : StripParams) (ns : List Node) : Bool :=
  nodesOk v p.hedgeMode ns && ns.all fun e => (s.nodeRanges p e).isSome

/-- The ledger that node `n` is scored with: the strip's, with the draft tokens of its path counted in (R206). -/
def nodeLedger (mode : Nat) (p : StripParams) (l : Ledger) (ns : List Node) (n : Nat) : Ledger :=
  if p.ledgerUpd then (nodePath ns ns.length n).foldl (fun l i => (ledgerAdd mode l (nodeAt ns i).token).1) l else l

/-- The lists of every node of a tree (R206, R269). -/
def State.nodeListsOf (s : State) (mode : Nat) (p : StripParams) (l : Ledger) (ns : List Node) : List ScoreLists :=
  (List.range ns.length).map fun n =>
    ⟨(s.readBias p).getD [], (s.nodeRanges p (nodeAt ns n)).getD [], nodeLedger mode p l ns n⟩

/-! ### One strip-step (R285) -/

/-- The strip word of strip-step `i`. -/
def Cmd.stepWord (c : Cmd) (i : Nat) : Nat := c.work.strips.getD i 0

/-- Checks 1 to 5 of R285 on strip-step `i` at time `t`. -/
def State.stepReason (s : State) (c : Cmd) (t : Time) (i : Nat) : Option StepReason :=
  let w := c.stepWord i
  let x := s.strip w
  let p := x.params
  let tree := s.treeNodes (c.work.descs.getD i default)
  if w ≥ stripCount s.build ∨ !x.valid then some .stripEmpty
  else if (List.range i).any fun j => c.stepWord j % 4096 == w then some .dupStrip
  else match s.scoreReason p with
    | some r => some r
    | none => match selectReason p (pkSheafCap c.run) with
      | some r => some r
      | none =>
        if c.op = opVerify ∧ !s.treeOk (s.fieldOf c).v p tree then some .badTree
        else if p.pos = 0xFFFFFFFF then some .posEnd
        else if (s.fieldOf c).home ∧ x.dropLate ∧ isLate t (deadlineOf x) then some .lateDrop
        else none

/-- E_CAP of a strip-step over the available budget `r` of its tenant, none where the budget does not limit it (R271,
R299). -/
def emissionCap (c : Cmd) (p : StripParams) (ns : List Node) (r : Option Nat) : Nat :=
  let n := if c.op = opVerify then min (treeLevels ns) (0xFFFFFFFF - p.pos.toNat) else 1
  match r with
  | some k => min n k
  | none => n

/-- The strip-step before its check: the record as it stands. -/
def State.newStep (s : State) (c : Cmd) (i : Nat) : StripStep :=
  let w := c.stepWord i
  let x := s.strip w
  let ns := if c.op = opVerify then s.treeNodes (c.work.descs.getD i default) else []
  { (default : StripStep) with
    strip := w % 4096, idx := i, params := x.params, lists := s.readLists x.params x.ledger, tenant := x.tenant
    hostTag := x.hostTag, deadline := deadlineOf x, flags := if (s.fieldOf c).home then 0 else rfFollower
    nodes := ns, nodeLists := s.nodeListsOf (pkIntMode c.run) x.params x.ledger ns }

/-- Counts a strip-step that ends with a reason at its check (R229, R303, R304). -/
def State.countSkip (s : State) (r : StepReason) (tenant : Nat) : State :=
  match r with
  | .budget => s.modTenant tenant fun t => { t with budget := t.budget + 1 }
  | .lateDrop => { s with totals := { s.totals with dropped := s.totals.dropped + 1 } }
  | .badScoreParam | .badBias | .badHedge | .badSelectParam | .sheafShort | .badTree | .allBanned =>
    { s with win := { s.win with refused := s.win.refused + 1 } }
  | _ => s

/-- Check 6 of R285 and the reservation of R288 for strip-step `p`, which has passed checks 1 to 5. -/
def State.reserve (s : State) (c : Cmd) (t : Time) (p : StripStep) : State × StripStep :=
  let s := s.modTenant p.tenant (turnAt t)
  let x := s.tenant p.tenant
  if !(s.fieldOf c).home ∨ !x.en then (s, { p with cap := emissionCap c p.params p.nodes none })
  else if x.available < 1 then (s.countSkip .budget p.tenant, { p with reason := stepCode .budget })
  else
    let n := emissionCap c p.params p.nodes (some x.available.toNat)
    (s.modTenant p.tenant fun x => { x with reserved := x.reserved + n }, { p with cap := n, reserved := n, counted := true })

/-- Checks strip-step `i` at time `t` (R285). -/
def State.checkStep (s : State) (c : Cmd) (t : Time) (i : Nat) : State × StripStep :=
  let p := s.newStep c i
  match s.stepReason c t i with
  | some r => (s.countSkip r p.tenant, { p with reason := stepCode r })
  | none => s.reserve c t p

/-- The number of strip-steps of a command (R284). -/
def Cmd.stepCount (c : Cmd) : Nat :=
  if c.op = opSample then c.work.tokens else if c.op = opVerify then c.work.descs.length else 0

/-- Checks every strip-step of a command in command order (R285). -/
def State.checkSteps (s : State) (c : Cmd) (t : Time) : State × List StripStep :=
  (List.range c.stepCount).foldl (fun (a : State × List StripStep) i =>
    let (s, p) := a.1.checkStep c t i
    (s, a.2 ++ [p])) (s, [])

/-! ### The bound strip of HEAD_FWD (R349) -/

/-- Point 4 of R339 for HEAD_FWD. -/
def State.bindReason (s : State) (c : Cmd) : Option Reason :=
  if c.op ≠ opHeadFwd ∨ !pkBindEn c.run then none
  else
    let n := pkBindStrip c.run
    if n ≥ stripCount s.build then some .badStrip
    else if !(s.strip n).valid then some .stripEmpty
    else if (s.scoreReason (s.strip n).params).isSome then some .badStripParam
    else none

/-- Parameters and lists of the bound strip. -/
def State.bindLists (s : State) (c : Cmd) : Option (StripParams × ScoreLists) :=
  if c.op = opHeadFwd ∧ pkBindEn c.run then
    let x := s.strip (pkBindStrip c.run)
    some (x.params, s.readLists x.params x.ledger)
  else none

end Sys2Proof.Machine
end

