-- ==== Sys2Proof/Machine/Place.lean ====
section
/-! DEFINITION. Where a command stands among its tiles (03_acre.md R61, R62, R81, R87, R88, R486; 07_training_passes.md
R158, R159): the phases of a pass, the tiles of a phase and the columns of a tile; and the inputs that a tile waits for
(01_architecture.md R17; 03_acre.md R84; 07_training_passes.md R181; 14_ports.md R392). -/

namespace Sys2Proof.Machine

/-- The units of a phase on field `f`: each is one swath of forward tiles, one swath of dW tiles or one hidden tile
(R158). -/
def Cmd.unitCount (c : Cmd) (f : Field) : Nat :=
  if c.work.phase = 3 then f.h / 1024 else if c.work.phase = 2 ∧ c.hasDw then 2 * f.n else f.n

/-- The unit that the command's next tile belongs to (R158): in phase B the forward tile of swath w comes before the dW
tiles of swath w - 1. -/
def Cmd.unit (c : Cmd) (f : Field) : TileKind :=
  let t := c.work.tile
  if c.work.phase = 3 then .dh t
  else if c.work.phase = 2 ∧ c.hasDw then
    (if t = 0 then .fwd 0
     else if t + 1 = 2 * f.n then .dw (f.n - 1)
     else if t % 2 = 1 then .fwd ((t + 1) / 2) else .dw (t / 2 - 1))
  else .fwd t

/-- The tokens of the pass in progress. -/
def Cmd.passSizeNow (c : Cmd) : Nat := (passTokens c c.work.pass).2

/-- Column elements of a unit: hidden elements for dW, the S columns of the pass otherwise. -/
def Cmd.unitCols (c : Cmd) (f : Field) : TileKind → Nat
  | .dw _ => f.h
  | _ => c.work.s

/-- Logical columns of a tile: C_eff for dW (R159), C_eff / F otherwise (R61). -/
def Cmd.tileWidth (c : Cmd) : TileKind → Nat
  | .dw _ => c.work.cEff
  | _ => c.work.cEff / c.work.f

/-- Columns of the next tile: a tile stopped inside ends where it ended when it began (R87, R439). -/
def Cmd.tileCols (c : Cmd) (k : TileKind) : Nat :=
  let w := c.tileWidth k
  if c.work.tileEnd > c.work.sub then min w (c.work.tileEnd - c.work.sub) else w

/-- The columns of the next tile that hold something: the others receive zero operands and are discarded (R62). -/
def Cmd.liveCols (c : Cmd) (f : Field) (k : TileKind) : Nat :=
  let n := match k with
    | .dw _ => f.h
    | _ => c.passSizeNow
  min (c.tileCols k) (n - c.work.sub)

/-- The contraction length of a tile on field `f` (R61, R66, R175). -/
def Cmd.tileK (c : Cmd) (f : Field) : TileKind → Nat
  | .fwd _ => f.h
  | .dh _ => 1024 * f.n
  | .dw _ => c.work.tokens

/-- Index of the swath record that a forward tile of a stream-fed field reads, in command swath order. -/
def Cmd.stageUnit (c : Cmd) (f : Field) (w : Nat) : Nat := c.work.pass * f.n + w

/-- A forward phase or a dH phase drains through the fused operation (R83): the forward drain of serving commands, the dH
drain of TRAIN_STEP. -/
def Cmd.fuses (c : Cmd) (k : TileKind) : Bool :=
  pkFuseOp c.run != 0 && (match k with
    | .fwd _ => c.op != opTrain
    | .dh _ => true
    | .dw _ => false)

/-! ### What a tile needs -/

/-- Asks for the slice of O of the next tile (R84, R485). -/
def State.askFuse (s : State) (c : Cmd) (f : Field) (k : TileKind) : State :=
  let p := c.run
  let n := fuseSize p
  let (r0, rows, len) := fuseRows f k
  let t0 := c.work.pass * c.work.s + c.work.sub
  let cols := c.liveCols f k
  if !c.fuses k then s
  else if pkFuseShape p = 0 then
    (List.range cols).foldl (fun s i =>
      s.askRead .fuse c.ring c.seq c.work.index (pkFuseAddr p + n * ((t0 + i) * len + r0)) (n * rows)) s
  else if pkFuseShape p = 1 then s.askRead .fuse c.ring c.seq c.work.index (pkFuseAddr p + n * r0) (n * rows)
  else s.askRead .fuse c.ring c.seq c.work.index (pkFuseAddr p + n * t0) (n * cols)

/-- The element of O for row `r` of a unit and token `t`, as memory holds it at the drain: no copy of the staged slice is kept,
and what a later response changes in its bytes is seen, which R84 leaves open (DESIGN CHOICE, log 83). -/
def State.fuseElem (s : State) (c : Cmd) (f : Field) (k : TileKind) (r t : Nat) : F32 :=
  let p := c.run
  let n := fuseSize p
  let (r0, _, len) := fuseRows f k
  let i := if pkFuseShape p = 0 then t * len + r0 + r else if pkFuseShape p = 1 then r0 + r else t
  let b := s.bytes (pkFuseAddr p + n * i) n
  if pkFuseBf16 p then fpOfBf16 (le16 b 0) else le32 b 0

/-- The stage of swath `w` lies in the scratch region (R171). -/
def State.inScratch (s : State) (c : Cmd) (w : Nat) : Bool := decide (s.wB c ≤ w)

/-- The address and bytes of the stage entries of `cols` hidden elements from `h` on of swath `w` in the scratch region
(R171; the layout is the model's, log 31). -/
def State.scratchRange (s : State) (c : Cmd) (f : Field) (w h cols : Nat) : Nat × Nat :=
  let e := stageEntry (pkBounded c.run) c.work.tokens c.work.s
  (pkScratchAddr c.run + ((w - s.wB c) * f.h + h) * 1024 * e, cols * 1024 * e)

/-- How a token is scored: the strip's parameters, its lists, the address of its hedge bitmap and its place below the
strip's POS (R195, R269). -/
structure TokCtx where
  params : StripParams
  lists : ScoreLists
  bitmap : Nat
  depth : Nat
  deriving Repr

/-- What the drain does with a token's values: nothing (its strip-step has a reason, R201), or scores them, bound or
not. -/
inductive TokUse where
  | discard
  | unbound
  | bound (x : TokCtx)
  deriving Repr

/-- The use of token `t` of a command. -/
def Cmd.tokUse (c : Cmd) (t : Nat) : TokUse :=
  if c.op = opSample then
    let p := c.work.steps.getD t default
    if p.reason ≠ 0 then .discard else .bound ⟨p.params, p.lists, p.params.hedgeAddr, 0⟩
  else if c.op = opVerify then
    let (i, j) := locate (c.work.descs.map TreeDesc.nodes) t
    let p := c.work.steps.getD i default
    let e := nodeAt p.nodes j
    if p.reason ≠ 0 then .discard
    else .bound ⟨p.params, p.nodeLists.getD j default, if e.hedgeAddr = 0 then p.params.hedgeAddr else e.hedgeAddr, nodeDepth p.nodes j⟩
  else match c.work.bound with
    | some (p, l) => .bound ⟨p, l, p.hedgeAddr, 0⟩
    | none => .unbound

/-- The bitmap slice of a token in global swath `g`, where its hedge is a bitmap (R211). -/
def TokUse.slice (g : Nat) : TokUse → Option Nat
  | .bound x => if x.params.hedgeMode = 1 ∨ x.params.hedgeMode = 2 then some (x.bitmap + 128 * g) else none
  | _ => none

/-- Asks for the bitmap slices of the next 16 swaths that the command drains, counted from swath `w` of the pass in progress,
one of 128 bytes per token per swath (R216). -/
def State.askSlices (s : State) (c : Cmd) (f : Field) (w : Nat) : State :=
  if c.op = opTrain then s
  else
    let u := c.stageUnit f w
    let a := max u c.work.sliceNext
    let b := min (u + 16) (passCount c.work.tokens c.work.s * f.n)
    let s := s.modCmd c.ring c.seq fun c => { c with work := { c.work with sliceNext := max b c.work.sliceNext } }
    (List.range (b - a)).foldl (fun s i =>
      let (t0, n) := passTokens c ((a + i) / f.n)
      (List.range n).foldl (fun s j => match (c.tokUse (t0 + j)).slice (f.first + (a + i) % f.n) with
        | some x => s.askRead .bitmap c.ring c.seq (a + i) x 128
        | none => s) s) s

/-- Asks for what the next tile reads from memory: its slice of O, the stage entries of a dW tile after pass 0, and the
dZ buffer at the first dH tile (R84, R168, R181); for a forward tile of strips, bitmap slices ahead (R216). -/
def State.askTile (s : State) (c : Cmd) : State :=
  let f := s.fieldOf c
  let k := c.unit f
  let s := s.askFuse c f k
  match k with
  | .dw w =>
    if c.work.pass ≠ 0 ∧ s.inScratch c w then
      let (a, n) := s.scratchRange c f w c.work.sub (c.tileCols k)
      s.askRead .dwRead c.ring c.seq c.work.index a n
    else s
  | .dh _ => if c.work.tile = 0 ∧ c.work.sub = 0 then s.askRead .dzRead c.ring c.seq c.work.index (pkDzAddr c.run) (f.n * dzBytes c) else s
  | .fwd w => s.askSlices c f w

/-- Bytes of drained values that wait to leave: segments of the result stream, and writes that no port has taken
(R392). -/
def State.outputQueued (s : State) : Nat := (s.streams.queue.map fun g => g.data.length).sum + s.drainedQueued

/-- Bytes that a tile drains to memory or the stream: raw logits, dZ, dH, and dW entries that overflow into the scratch region
(R168, R171, R392). -/
def State.tileOutput (s : State) (c : Cmd) (f : Field) (k : TileKind) : Nat :=
  match k with
  | .fwd w =>
    if c.op = opHeadFwd ∧ pkOutMode c.run = 0 then c.liveCols f k * f.rowsOf w * (if pkOutFmt c.run = 1 then 2 else 4)
    else if c.op = opTrain ∧ c.work.phase = 2 then c.liveCols f k * dzBytes c / c.work.s else 0
  | .dh _ => c.liveCols f k * 1024 * (if pkDhBf16 c.run then 2 else 4)
  | .dw w => if s.inScratch c w then (s.scratchRange c f w c.work.sub (c.liveCols f k)).2 else 0

/-- The output of the next tile fits into the free space of the output queue (R392); one larger than all of it waits for an
empty queue (log 79). -/
def State.outputFits (s : State) (c : Cmd) : Bool :=
  let f := s.fieldOf c
  let n := s.tileOutput c f (c.unit f)
  n == 0 || s.outputQueued == 0 || decide (s.outputQueued + n ≤ 2 ^ 23)

/-- The Seedbed buffer of the pass in progress is complete (R118). -/
def State.seedReady (s : State) (c : Cmd) : Bool :=
  match s.seedOf c.ring c.seq c.work.pass with
  | some b => b.complete
  | none => false

/-- Every input of the next tile is present (R17, R84, R118, R181, R216, R262, R392). -/
def State.tileReady (s : State) (c : Cmd) : Bool :=
  let f := s.fieldOf c
  let k := c.unit f
  let r := c.ring
  let q := c.seq
  !s.open r q .fuse && s.outputFits c
    && (match k with
      | .fwd w => s.seedReady c && s.listsComplete c c.work.pass && !s.openIdx r q .bitmap (c.stageUnit f w)
          && (!f.stream || c.work.staged.any fun e => e.1 == c.stageUnit f w)
          && (c.work.phase != 2 || !pkShardEn c.run || c.work.train.exchanged)
      | .dw w => s.seedReady c && !s.open r q .dwRead && c.work.train.dz.any fun e => e.swath == w
      | .dh _ => !s.open r q .dzRead)

/-- The command has computed its last tile: only the end of its compute phase is left. -/
def Cmd.tilesDone (c : Cmd) : Bool := decide (passCount c.work.tokens c.work.s ≤ c.work.pass)

end Sys2Proof.Machine
end

