-- ==== Sys2Proof/Machine/Choose.lean ====
section
/-! DEFINITION. Which command the Acre takes at a headland (11_strips_tenants_deadlines.md R301; 03_acre.md R92, R486;
15_energy_and_supply.md R419; 16_faults_spares_pairs.md R444) and the start of a compute phase. -/

namespace Sys2Proof.Machine

/-! ### Ready commands (R301) -/

/-- The functions that a compute phase needs are out of reset (R432, R435). -/
def State.acreUsable (s : State) (c : Cmd) : Bool :=
  s.working && !s.fnReset 0 && !s.fnReset 1 && (pkStoneThr c.run == 0 || !s.fnReset 3) && s.acre.rowHalf != 3

/-- The memory that a compute phase reads before it begins has been read, and its first operand is complete. -/
def State.readyToBegin (s : State) (c : Cmd) : Bool :=
  let r := c.ring
  let q := c.seq
  c.work.listsAsked && s.listsComplete c c.work.pass && !s.open r q .nodes && !s.open r q .targets
    && c.work.seeds.isEmpty && (c.tilesDone || s.seedReady c)

/-- A secondary begins commands in the order of the CHECK entries (R444). -/
def State.checkTurn (s : State) (c : Cmd) : Bool :=
  !s.secondary || (match s.pair.checks with
    | [] => false
    | e :: _ => e.1 == c.ring && e.2.1 == c.seq)

/-- At sag level 3 a generation command that would add to a full queue of DIGEST frames waits (R419). -/
def State.digestRoom (s : State) (c : Cmd) : Bool :=
  !s.primary || c.cls != 0 || decide (s.energy.level.val < 3) || decide ((s.pair.queue.filter fun e => e.1 == frDigest).length < 1024)

/-- The command may take the Acre now (R301). -/
def State.ready (s : State) (c : Cmd) : Bool :=
  isAcreOp c.op && c.active && c.started && c.granted && c.isAdmitted && s.levelLets c && !c.work.pauseAsked && !c.work.ended
    && (c.stage == .queued || c.stage == .running) && s.acreUsable c
    && (c.work.begun || (s.readyToBegin c && s.checkTurn c && s.digestRoom c))

/-- The ready command of the lowest class, the first dispatched of them (R301). -/
def State.bestReady (s : State) : Option Cmd := ((s.cmds.filter s.ready).foldr insertByClass []).head?

/-- A ready command has a lower class number than `c` (R301). -/
def State.outranked (s : State) (c : Cmd) : Bool := s.cmds.any fun d => s.ready d && decide (d.cls < c.cls)

/-! ### The start of a compute phase -/

/-- T_CHECK, narrow accumulation and stone shed of a command that begins: its own, or the primary's (R285, R444). -/
def State.checkEntry (s : State) : Time × Bool × Bool :=
  let shed := decide (2 ≤ s.energy.level.val)
  if s.secondary then
    (match s.pair.checks with
    | e :: _ => e.2.2
    | [] => (s.timeNs, shed, shed))
  else (s.timeNs, shed, shed)

/-- The command takes the Acre for the first time: F and C_eff are chosen, T_CHECK is taken, its strip-steps are checked
(R285, R486). A restored TRAIN_STEP in phase A or B that runs narrow at another C_eff sets NARROW_MISMATCH (R161). -/
def State.beginPhase (s : State) (c : Cmd) : State :=
  let (t, narrow, shed) := s.checkEntry
  let s := if s.secondary then { s with pair := { s.pair with checks := s.pair.checks.tail } } else s
  let f := s.fieldOf c
  let (s, steps) := s.checkSteps c t
  let w := c.work
  let long := c.op == opTrain && pkBounded c.run && decide (64 < f.n)
  let mixed := c.op == opTrain && pkNarrow c.run && (w.phase == 1 || w.phase == 2) && w.cEff != s.acre.cEff
  let c := { c with
    stage := .running
    work := { w with
      begun := true, tCheck := t, steps := steps, bound := s.bindLists c
      cEff := s.acre.cEff, rowHalf := s.acre.rowHalf, f := chooseFold (pkFold c.run) w.s s.acre.cEff (c.op == opTrain)
      phase := if c.op = opTrain ∧ w.phase = 0 then 1 else w.phase
      train := if c.op = opTrain ∧ w.phase = 0 then { w.train with gDone := pkGradSkip c.run, gAsked := pkGradSkip c.run } else w.train
      narrow := narrow, shed := shed
      counts := { w.counts with
        boundExceeded := w.counts.boundExceeded || long, narrowMismatch := w.counts.narrowMismatch || mixed } } }
  let s := s.setCmd c
  let s := { s with acre := { s.acre with run := some (c.ring, c.seq), held := false } }
  let s := (s.perfAdd 10 steps.length).tell stCheck c narrow shed 0 0
  if c.tilesDone then s else s.askTile c

/-- The Acre takes `c`, new or paused, at a boundary between two commands: a changed map applies, though a paused command
goes on under the one it began with (R92), and the staging halves of its field are `c`'s (R109). A new command first meets the
last checks of point 4 (R339, R349). -/
def State.takeAcre (s : State) (c : Cmd) : State :=
  let s := s.refreshWidth
  if s.acre.rowHalf = 3 ∨ s.fnReset 0 then s
  else
    let s := s.takeHalves c
    if c.work.begun then { s with acre := { s.acre with run := some (c.ring, c.seq), held := false } }.settle
    else match s.bindReason c with
      | some r => (s.refuse c r).settle
      | none => (s.beginPhase c).settle

/-- The command on the Acre pauses at the headland; `priority` says that R301 pauses it. -/
def State.pauseRun (s : State) (c : Cmd) (priority : Bool) : State :=
  let s := { s with acre := { s.acre with run := none, held := false } }
  if priority then (s.setCmd { c with preempted := true }).perfAdd 4 1 else s

/-- The headland at which the Acre compares the ready commands with the running one (R301, R419). -/
def acreSelectDo (s : State) : State :=
  let choose (s : State) : State := match s.bestReady with
    | some c => s.takeAcre c
    | none => s
  match s.onAcre with
  | none => choose s
  | some c =>
    if c.tilesDone ∨ c.work.pauseAsked then s
    else if !s.levelLets c then choose (s.pauseRun c false)
    else if s.outranked c then choose (s.pauseRun c true)
    else s

/-- ACRE_SELECT. -/
def execAcreSelect (now : Time) (s : State) : Out :=
  let t := s.tick now
  .next (s.keep (if t.working then acreSelectDo t else t))

end Sys2Proof.Machine
end

