-- ==== Sys2Proof/Machine/Tile.lean ====
section
/-! DEFINITION. The outputs of one tile (03_acre.md R61 to R88; 05_stone_path.md R126 to R134; 07_training_passes.md R172,
R173, R177, R178): operands, chains, stones, the value that leaves the drain, and the tile's ACRE cycles. -/

namespace Sys2Proof.Machine

/-! ### Row operands (R61, R98) -/

/-- The blocks of swath `w` of the pass in progress: the field's own, or the staged record (R109). -/
def swathRows (c : Cmd) (f : Field) (w : Nat) : List (List Blk) :=
  if f.stream then ((c.work.staged.find? fun e => e.1 == c.stageUnit f w).map Prod.snd).getD [] else f.swaths.getD w []

/-- The operand of vocabulary row `r` of a swath: its row of every 16 × 16 block. -/
def forwardRow (e : Int) (rows : List (List Blk)) (r : Nat) : Opd :=
  ⟨.e2m1, (rows.getD (r / 16) []).map fun b => ⟨(b.codes.drop (16 * (r % 16))).take 16, b.scale⟩, e⟩

/-- The operand of hidden element `h`: its column of every block of the owned swaths, in ascending row order. -/
def transposedRow (f : Field) (h : Nat) : Opd :=
  ⟨.e2m1, (f.swaths.map fun rows => (List.range 64).map fun i =>
      let b := (rows.getD i []).getD (h / 16) blkZero
      (⟨(List.range 16).map fun r => byteAt b.codes (16 * r + h % 16), b.scale⟩ : Blk)).flatten, f.eRow⟩

/-! ### Which tile, in which mode -/

/-- Narrow accumulation and stone shed of the next tile: as the sag level imposes, or while PAIRED as fixed for the command
(R419, R444); a tile stopped inside goes on as it began (R133); no fill-class command takes them. -/
def State.shedding (s : State) (c : Cmd) : Bool × Bool :=
  if c.cls ≠ 0 then (false, false)
  else if s.pair.state = 2 ∨ c.work.strand ≠ 0 then (c.work.narrow, c.work.shed) else (s.acre.narrow, s.acre.shed)

/-- The accumulation mode of the next tile (R72, R76, R79, R161). -/
def State.tileMode (s : State) (c : Cmd) : AccMode := ⟨pkBounded c.run, pkNarrow c.run || (s.shedding c).1⟩

/-- The dW unit of a swath, or the dH unit of a pass, runs in FP8 (R178). -/
def unitFp8 (p : List Byte) (nz sat span : Nat) : Bool :=
  pkGradFp8 p != 0
    && ((pkSatThr p != 0 && decide (sat * 65536 > pkSatThr p * nz))
      || (pkUflThr p != 0 && decide (span * 65536 > pkUflThr p * nz)))

/-- The tile runs in FP8 (R131, R178). -/
def Cmd.tileFp8 (c : Cmd) : TileKind → Bool
  | .fwd _ => false
  | .dh _ => let (nz, sat, span) := c.work.train.dhUnit; unitFp8 c.run nz sat span
  | .dw w => match c.work.train.dz.find? fun e => e.swath == w with
    | some e => unitFp8 c.run e.nz e.sat e.span
    | none => false

/-! ### Operands of a tile -/

/-- The column operands of a tile's live columns. -/
def State.tileColumns (s : State) (c : Cmd) (f : Field) (k : TileKind) : List Opd :=
  let b := (s.seedOf c.ring c.seq c.work.pass).getD seedReset
  let all := match k with
    | .fwd _ => b.hid
    | .dw _ => b.tok
    | .dh _ => if c.tileFp8 k then c.work.train.dzVoc8 else c.work.train.dzVoc
  (all.drop c.work.sub).take (c.liveCols f k)

/-- The row operands of a tile (R61, R166, R177). -/
def tileRows (c : Cmd) (f : Field) (k : TileKind) : List Opd :=
  match k with
  | .fwd w => let rows := swathRows c f w; (List.range 1024).map (forwardRow f.eRow rows)
  | .dh k => (List.range 1024).map fun r => transposedRow f (1024 * k + r)
  | .dw w => match c.work.train.dz.find? fun e => e.swath == w with
    | some e => if c.tileFp8 k then e.tok8 else e.tok
    | none => []

/-! ### Chains (R66, R67, R87, R172) -/

/-- The first block of the pass in the contraction of a dW tile, the blocks it holds, and the blocks of a strand (R66,
R172). -/
def dwBlocks (c : Cmd) : Nat × Nat × Nat :=
  (c.work.pass * c.work.s / 16, ceilDiv c.passSizeNow 16, strandBlocks c.work.tokens)

/-- The strand at which the blocks of the pass end: 64 but for dW (R87, R172). -/
def Cmd.strandEnd (c : Cmd) : TileKind → Nat
  | .dw _ => let (k0, n, b) := dwBlocks c; ceilDiv (k0 + n) b
  | _ => 64

/-- One dW output over the blocks `k` to `k + n - 1` of the command, of which the pass holds those from `k0` (R172, R173). -/
def dwChain (m : AccMode) (b k0 k n : Nat) (r c : Opd) (stars : List (Option Int)) (x : Chain) : Chain :=
  let ps := opdTerms r c (k - k0) n
  if m.narrow && c.fmt == .e2m1 && r.fmt == .e2m1 then chainNarrow m.bounded b n k ps stars x
  else chainWide m.bounded b k ps x

/-- The chains of a dW tile's live columns, column by column, run up to strand `s1`. -/
def dwChains (c : Cmd) (m : AccMode) (w s1 : Nat) (rows cols : List Opd) : List (List Chain) :=
  let (k0, n, b) := dwBlocks c
  let k := max k0 (c.work.strand * b)
  let len := min (k0 + n) (s1 * b) - k
  let stars := rows.map fun r => if m.narrow then opdStars r cols (k - k0) len else []
  (List.range cols.length).map fun i =>
    let prev := dwEntry c w (c.work.sub + i)
    (List.range rows.length).map fun r =>
      let x := prev.getD r chainZero
      dwChain m b k0 k len (rows.getD r default) (cols.getD i default) (stars.getD r [])
        { x with sat := x.sat && c.work.strand != 0 }

/-- The chains of the next tile, column by column, run from its first strand up to strand `s1`. -/
def State.chainsTo (s : State) (c : Cmd) (f : Field) (k : TileKind) (s1 : Nat) : List (List Chain) :=
  let rows := tileRows c f k
  let cols := s.tileColumns c f k
  match k with
  | .dw w => dwChains c (s.tileMode c) w s1 rows cols
  | _ => tileChains (s.tileMode c) (c.tileK f k) c.work.strand s1 rows cols
      fun i r => (c.work.chains.getD i []).getD r chainZero

/-! ### Cycles (R88, R93, R131) -/

/-- ACRE cycles of the next tile without its stone hold, in E2M1 or FP8. -/
def Cmd.tileCycles (c : Cmd) (f : Field) (k : TileKind) (fp8 : Bool) : Nat :=
  let w := c.work
  let fold := match k with
    | .dw _ => 1
    | _ => w.f
  if w.strand = 0 then
    (match k with
    | .dw _ => tileTime (16 * ceilDiv c.passSizeNow 16) w.cEff 1 w.rowHalf fp8
    | _ => tileTime (kPadOf (c.tileK f k)) w.cEff w.f w.rowHalf fp8)
  else
    let len := 16 * strandBlocks (c.tileK f k)
    ceilDiv (c.strandEnd k - w.strand) fold * max (if fp8 then len else len / 4) (w.cEff / 64)

/-! ### Stones (R126 to R130, R133, R134) -/

/-- The stone entries of a forward tile: those of the pass whose COL lies in its columns, counted from its first
(R486). -/
def State.tileStones (s : State) (c : Cmd) (f : Field) (k : TileKind) : List Stone :=
  match k with
  | .fwd _ =>
    let b := (s.seedOf c.ring c.seq c.work.pass).getD seedReset
    let n := c.liveCols f k
    (b.stones.filter fun e => decide (c.work.sub ≤ e.col.toNat) && decide (e.col.toNat < c.work.sub + n)).map fun e =>
      { e with col := e.col - BitVec.ofNat 10 c.work.sub }
  | _ => []

/-- Z of one output of a tile. -/
def stoneZ (c : Cmd) (row : Opd) (es : List Stone) (i r : Nat) : Rounded :=
  stoneAcc row (es.filter fun e => e.col.toNat == i) ((c.work.zs.getD i []).getD r ⟨fpZero, false⟩)

/-! ### The drained values (R82, R83) -/

/-- What a tile drains, column by column, with its saturation. -/
structure Drained where
  vals : List (List F32)
  sat : Bool
  /-- Non-finite elements of O that were replaced (R83). -/
  nonfinite : Nat
  deriving Repr

/-- One value through steps 1 to 3 of R82. -/
def drainValue (c : Cmd) (ch : Chain) (z : Option Rounded) (o : Option F32) : Rounded :=
  let y := chainOutput (pkBounded c.run) ch
  let y : Rounded := match z with
    | some z => let r := fpAddX y.bits z.bits; ⟨r.bits, y.sat || z.sat || r.sat⟩
    | none => y
  match o with
  | some o => let r := fuseApply (pkFuseOp c.run) y.bits o; ⟨r.bits, y.sat || r.sat⟩
  | none => y

/-- The values of a forward or dH tile from its chains; `es` are the stones that reach Z, none where the path is off or
shed (R126, R133). NONFINITE counts a non-finite element of O once for every output of every tile that it is applied to, a broadcast
one (FUSE_SHAPE 1 or 2) several times: R83 leaves the multiplicity open (DESIGN CHOICE, log 56). -/
def State.drainTile (s : State) (c : Cmd) (f : Field) (k : TileKind) (chains : List (List Chain)) (es : Option (List Stone)) : Drained :=
  let rows := tileRows c f k
  let (_, live, _) := fuseRows f k
  let t0 := c.work.pass * c.work.s + c.work.sub
  let o (i r : Nat) : Option F32 := if c.fuses k && decide (r < live) then some (s.fuseElem c f k r (t0 + i)) else none
  let out := (List.range chains.length).map fun i =>
    let col := chains.getD i []
    (List.range col.length).map fun r =>
      drainValue c (col.getD r chainZero) (es.map fun es => stoneZ c (rows.getD r default) es i r) (o i r)
  { vals := out.map fun col => col.map Rounded.bits
    sat := out.any fun col => col.any Rounded.sat
    nonfinite := ((List.range chains.length).map fun i => ((List.range live).filter fun r => match o i r with
      | some x => !fpFinite x
      | none => false).length).sum }

/-- Every value of a tile that met an uncorrectable error is open (R112; log 32). -/
def Drained.faulty (d : Drained) (n : Nat) : Drained :=
  { d with vals := (List.range d.vals.length).map fun i =>
      (List.range (d.vals.getD i []).length).map fun r => Config.freeWord (n + 1024 * i + r) }

end Sys2Proof.Machine
end

