-- ==== Sys2Proof/Machine/Drain.lean ====
section
/-! DEFINITION. What the Winnower makes of a forward tile of a serving command (08_scoring.md R195 to R228;
09_selection_and_sampling.md R235 to R240; 10_tree_verification.md R269) and where raw logits go
(13_command_reference.md R348; 14_ports.md R391). -/

namespace Sys2Proof.Machine

/-- The scored rows of a token in one swath: id, scored logit, validity and how many stages saturated (R198, R212). -/
def State.scoreRows (s : State) (f : Field) (w : Nat) (u : TokUse) (vals : List F32) : List (Nat × F32 × Bool × Nat) :=
  match u with
  | .discard => []
  | .unbound => (List.range (f.rowsOf w)).map fun r => (r, fpPlusZero (vals.getD r 0), true, 0)
  | .bound x =>
    let g := f.first + w
    let slice := ((TokUse.bound x).slice g).elim [] fun a => s.bytes a 128
    (List.range (f.rowsOf w)).map fun r =>
      let v := 1024 * g + r
      let (y, n) := scoreRow x.params x.lists v (vals.getD r 0)
      (r, y, hedgeAllows x.params.hedgeMode x.lists.ranges slice v, n)

/-- The rows of a list that a Thresher of capacity `ks` takes into its buffer (R238). -/
def threshTaken (ks : Nat) (ids : List Cand) (t : Thresher) : Nat :=
  (ids.foldl (fun (a : Thresher × Nat) c =>
    (thresherPush ks a.1 c, if (a.1.thr.map fun h => candBetter h c).getD false then a.2 else a.2 + 1)) (t, 0)).2

/-- The Gumbel noise of a strip in plain sampling, which competes as rows drain (R235, R269). -/
def plainNoise (x : TokCtx) : Option (Nat → F32) :=
  if isGreedy x.params ∨ isTruncated x.params then none
  else some (gumbelNoise x.params.seed x.params.sowTag (x.params.pos + BitVec.ofNat 32 x.depth))

/-- What one token's drain gives: its accumulator, saturated stages, and rows taken into its sheaf buffer. -/
structure Fed where
  acc : TokAcc
  sat : Nat
  taken : Nat
  deriving Repr

/-- Feeds the scored rows of one token and swath (R198 to R240). -/
def feedToken (f : Field) (w ks : Nat) (u : TokUse) (rows : List (Nat × F32 × Bool × Nat)) (a : TokAcc) : Fed :=
  let valid := (rows.filter fun (e : Nat × F32 × Bool × Nat) => e.2.2.1).map fun (e : Nat × F32 × Bool × Nat) => (e.1, e.2.1)
  let sat := (rows.map fun (e : Nat × F32 × Bool × Nat) => e.2.2.2).sum
  let (k, noise) := match u with
    | .bound x => (if needsSheaf x.params then ks else 0, plainNoise x)
    | _ => (0, none)
  let g := f.first + w
  let ids : List Cand := valid.map fun (e : Nat × F32) => (e.2, 1024 * g + e.1)
  ⟨{ tokFeed g k noise valid a with satCount := a.satCount + sat }, sat, if k = 0 then 0 else threshTaken k ids a.sheaf⟩

/-- The bytes of a row of raw logits (R33, R348). -/
def rawBytes (bf16 : Bool) (xs : List F32) : List Byte :=
  (xs.map fun x => if bf16 then leBytes 2 (bf16Of x).toNat else leBytes 4 x.toNat).flatten

/-- Queues a segment on the result stream (R391, R392). -/
def State.pushSegment (s : State) (c : Cmd) (kind : Nat) (last : Bool) (data : List Byte) : State :=
  { s with streams := { s.streams with queue := s.streams.queue ++ [⟨c.ring, c.seq, kind, last, data⟩] } }

/-- Writes or sends the raw logits of token `t` in swath `w` (R348). -/
def State.rawOut (s : State) (c : Cmd) (f : Field) (w t : Nat) (xs : List F32) : State :=
  let p := c.run
  let bf16 := pkOutFmt p == 1
  let data := rawBytes bf16 xs
  let s := s.modCmd c.ring c.seq fun c => { c with work := { c.work with outBytes := c.work.outBytes + data.length } }
  if pkOutDest p = 1 then s.pushSegment c (if bf16 then 2 else 1) (decide (t + 1 = c.work.tokens ∧ w + 1 = f.n)) data
  else s.output c .logits 0 t (pkOutAddr p + (if bf16 then 2 else 4) * (t * f.ownRows + 1024 * w)) data

/-- The accumulator of column `j` of the pass. -/
def Cmd.tokAcc (c : Cmd) (j : Nat) : TokAcc := c.work.toks.getD j tokAccZero

/-- Replaces the accumulator of column `j`. -/
def Cmd.setTok (c : Cmd) (j : Nat) (a : TokAcc) : Cmd :=
  { c with work := { c.work with toks := (List.range (max c.work.toks.length (j + 1))).map fun i => if i = j then a else c.tokAcc i } }

/-- Drains one token of a serving tile: column `j` of the pass, token `t`. -/
def State.drainToken (s : State) (c : Cmd) (f : Field) (w j : Nat) (narrow off : Bool) (vals : List F32) : State :=
  let t := c.work.pass * c.work.s + j
  let u := c.tokUse t
  let rows := s.scoreRows f w u vals
  let s := match u with
    | .discard => s
    | _ => if c.op = opHeadFwd ∧ pkOutMode c.run = 0 then s.rawOut c f w t (rows.map fun (e : Nat × F32 × Bool × Nat) => e.2.1) else s
  match s.cmd c.ring c.seq with
  | none => s
  | some c =>
    let a := c.tokAcc j
    let fed := feedToken f w (pkSheafCap c.run) u rows a
    let fed := if c.op = opHeadFwd then { fed with taken := 0 } else fed
    let s := s.setCmd (c.setTok j { fed.acc with narrow := a.narrow || narrow, stoneOff := a.stoneOff || off })
    let s := { s with win := { s.win with scoreSat := add32 s.win.scoreSat fed.sat } }
    (s.event c.ring c.seq 8 fed.taken).perfAdd 18 fed.taken

/-- The swath lies at or after the first faulty staged one, so that its values are discarded (R482). -/
def Cmd.afterFault (c : Cmd) (f : Field) (w : Nat) : Bool :=
  match c.work.badSwath with
  | some (u, _) => decide (u ≤ c.stageUnit f w)
  | none => false

/-- Drains a forward tile of a serving command, column by column (R81). -/
def State.drainServe (s : State) (c : Cmd) (f : Field) (w : Nat) (narrow off : Bool) (d : Drained) : State :=
  if c.afterFault f w then s
  else (List.range d.vals.length).foldl (fun s i =>
    match s.cmd c.ring c.seq with
    | some c => s.drainToken c f w (c.work.sub + i) narrow off (d.vals.getD i [])
    | none => s) s

end Sys2Proof.Machine
end

