-- ==== Sys2Proof/Machine/Grad.lean ====
section
/-! DEFINITION. What a TRAIN_STEP makes of its tiles (07_training_passes.md R158 to R180, R182, R192): statistics and loss
of phase A, dZ and dW of phase B, dH of phase C, and the ends of the phases. -/

namespace Sys2Proof.Machine

/-- Changes what a TRAIN_STEP keeps. -/
def Cmd.modTrain (c : Cmd) (g : Train → Train) : Cmd := { c with work := { c.work with train := g c.work.train } }

/-- Changes what the TRAIN_STEP of ring `r` keeps. -/
def State.modTrain (s : State) (c : Cmd) (g : Train → Train) : State := s.modCmd c.ring c.seq fun c => c.modTrain g

/-- IGNORE of token `t`. -/
def Cmd.ignored (c : Cmd) (t : Nat) : Bool := (c.work.train.targets.getD t (0, true)).2

/-- The target id of token `t`. -/
def Cmd.target (c : Cmd) (t : Nat) : Nat := (c.work.train.targets.getD t (0, true)).1

/-! ### Phase A (R164, R165, R192) -/

/-- Feeds the logits of token `t`, column `j`, in swath `w`: statistics, target logit and the logit tree. -/
def Cmd.statToken (c : Cmd) (f : Field) (w j : Nat) (vals : List F32) : Cmd :=
  let t := c.work.pass * c.work.s + j
  let g := f.first + w
  let rows := (List.range (f.rowsOf w)).map fun r => (r, vals.getD r 0)
  let a := c.tokAcc j
  let b := tokFeed g 0 none rows a
  let y := c.target t
  c.setTok j { b with
    target := if y / 1024 = g ∧ y % 1024 < f.rowsOf w then some (vals.getD (y % 1024) 0) else a.target
    stats := rows.foldl (fun st e => treePush mvMerge st (1024 * g + e.1) (mvLeaf e.2)) a.stats }

/-- Drains a forward tile of phase A. -/
def Cmd.drainStats (c : Cmd) (f : Field) (w : Nat) (d : Drained) : Cmd :=
  (List.range d.vals.length).foldl (fun c i => c.statToken f w (c.work.sub + i) (d.vals.getD i [])) c

/-- loss and lse of token `t` from its root and target logit (R165). -/
def lossOf (ignored : Bool) (r : MZ) (xy : F32) : F32 × F32 :=
  let lse := fpAdd r.m (lnFn r.z)
  (if ignored then fpZero else fpSub lse xy, lse)

/-- The end of phase A over the pass's roots and target logits: losses and their statistics (R165, R192). -/
def Cmd.tookStats (c : Cmd) (roots : List (MZ × F32)) : Cmd :=
  let t0 := c.work.pass * c.work.s
  let ls := (List.range roots.length).map fun i =>
    let (r, y) := roots.getD i default
    lossOf (c.ignored (t0 + i)) r y
  c.modTrain fun t => { t with
    mz := roots.map Prod.fst
    losses := t.losses ++ ls
    lossStats := (List.range ls.length).foldl (fun st i =>
      if c.ignored (t0 + i) then st else treePush mvMerge st (t0 + i) (mvLeaf (ls.getD i default).1)) t.lossStats }

/-- The roots and target logits that phase A leaves for the tokens of the pass. -/
def Cmd.passRoots (c : Cmd) : List (Option MZ × Option F32) :=
  c.work.toks.map fun a => (tokRoot a, a.target)

/-- The larger of a maximum so far and the m of a root. -/
def largerM (a : Option F32) (r : Option MZ) : Option F32 :=
  match a, r with
  | some m, some r => some (if fpLt m r.m then r.m else m)
  | none, some r => some r.m
  | a, none => a

/-- The logit tree and LOGIT_MAX grow by the tokens of the pass, over the rows of the block's own field (R192, R262). -/
def Cmd.tookLogits (c : Cmd) : Cmd :=
  let t0 := c.work.pass * c.work.s
  let max := c.work.toks.foldl (fun m a => largerM m (tokRoot a)) (if c.work.pass = 0 then none else some c.work.train.logitMax)
  c.modTrain fun t => { t with
    logitMax := max.getD fpZero
    logitStats := (List.range c.work.toks.length).foldl (fun st i =>
      match treeRoot mvMerge (c.tokAcc i).stats with
      | some x => treePush mvMerge st (t0 + i) x
      | none => st) t.logitStats }

/-! ### dZ (R165, R166, R177, R178) -/

/-- One dZ value of a token with root (m, z), reciprocal `rz` and target `y` (R165). In a pass with NARROW_MISMATCH a logit of
phase B can exceed m: R218 states exp for arguments up to 0 only, and the same formula is run (DESIGN CHOICE, log 84). -/
def dzValue (r : MZ) (rz scale : F32) (y v : Nat) (x : F32) : F32 :=
  let p := fpMul (expFn (fpSub x r.m)) rz
  let p := if v = y then fpSub p fpOne else p
  fpMul p scale

/-- The 1,024 dZ values of token `t`, column `j`, in swath `w`; +0 for an ignored token and for rows at or beyond V. -/
def Cmd.dzRow (c : Cmd) (f : Field) (w j : Nat) (vals : List F32) : List F32 :=
  let t := c.work.pass * c.work.s + j
  let r := c.work.train.mz.getD j default
  let rz := fpDiv fpOne r.z
  (List.range 1024).map fun i =>
    if c.ignored t ∨ i ≥ f.rowsOf w then fpZero
    else dzValue r rz (pkLossScale c.run) (c.target t) (1024 * (f.first + w) + i) (vals.getD i 0)

/-- The FP8 format that GRAD_FP8 names (R177). -/
def fp8Fmt (p : List Byte) : ElemFmt := if pkGradFp8 p = 2 then .e5m2 else .e4m3

/-- The stochastic draw of dZ element (t, v) in the copy with SUB value `sub` (R144, R166). -/
def dzDraw (p : List Byte) (sub t v : Nat) : Option Nat :=
  if pkRnd p / 2 % 2 = 1 then some (srDraw (pkTrainSeed p) sub (pkTensorId p) (t * 2 ^ 20 + v)) else none

/-- Underflowed elements of a quantised vector that count toward SPAN (R178). -/
def spanCount (span : Nat) (q : QVec) (xs : List F32) : Nat :=
  ((List.range xs.length).filter fun i =>
    let x := xs.getD i 0
    let r := blockRef false (block16 (i / 16) xs)
    !fpIsZero x && codeInt q.fmt (q.codes.getD i 0) == 0
      && (span == 0 || scaledLe (fpSig r) (fpPow r - span) (fpSig x) (fpPow x))).length

/-- One dZ vector converted to E2M1 and, with GRAD_FP8, to FP8; with its NZ, SAT and SPAN. -/
structure DzVec where
  low : QVec
  high : Option QVec
  quant : QCount
  cap8 : Nat
  nz : Nat
  span : Nat
  deriving Repr

/-- Converts a dZ vector; `idx i` gives the token and id of element `i` (R166, R177). -/
def dzConvert (p : List Byte) (sub : Nat) (idx : Nat → Nat × Nat) (xs : List F32) : DzVec :=
  let draw (i : Nat) : Option Nat := dzDraw p sub (idx i).1 (idx i).2
  let (v, q) := quantVec .e2m1 (globalExp .e2m1 (pkLossScale p)) false draw xs
  let (h, n) := if pkGradFp8 p = 0 then (none, 0)
    else let (u, k) := quantVec (fp8Fmt p) (globalExp (fp8Fmt p) (pkLossScale p)) false draw xs; (some u, k.cap)
  ⟨v, h, q, n, (xs.filter fun x => !fpIsZero x).length, spanCount (pkUflSpan p) v xs⟩

/-- Appends a converted run to an operand. -/
def opdAppend (o : Opd) (v : QVec) : Opd := let n := opdOfQVec v; { n with blocks := o.blocks ++ n.blocks }

/-- An operand without blocks. -/
def opdEmpty : Opd := ⟨.e2m1, [], 0⟩

/-- The counts of converted dZ vectors. -/
def Cmd.countDz (c : Cmd) (ds : List DzVec) : Cmd :=
  let q := ds.foldl (fun q d => qCountAdd q d.quant) qCountZero
  let c := c.modTrain fun t => { t with dzSat := t.dzSat + q.sat, dzUfl := t.dzUfl + q.ufl }
  let k := c.work.counts
  { c with work := { c.work with counts := { k with scaleCap := k.scaleCap + q.cap + (ds.map DzVec.cap8).sum } } }

/-- Both copies of the dZ of a tile of phase B, whose rows are `rows`, one a token (R166). -/
def Cmd.tookDz (c : Cmd) (f : Field) (w : Nat) (rows : List (List F32)) : Cmd :=
  let p := c.run
  let j0 := c.work.sub
  let t0 := c.work.pass * c.work.s + j0
  let v0 := 1024 * (f.first + w)
  let voc := (List.range rows.length).map fun i => dzConvert p 2 (fun k => (t0 + i, v0 + k)) (rows.getD i [])
  let tok := (List.range 1024).map fun r => dzConvert p 3 (fun i => (t0 + i, v0 + r)) (rows.map fun x => x.getD r 0)
  let grow (l : List Opd) (get : DzVec → Option QVec) : List Opd :=
    (List.range (max l.length (j0 + voc.length))).map fun i =>
      let o := l.getD i opdEmpty
      if j0 ≤ i then (match voc[i - j0]? with
        | some d => (match get d with
          | some v => opdAppend o v
          | none => o)
        | none => o) else o
  let c := c.countDz (voc ++ tok)
  c.modTrain fun t =>
    let old := (t.dz.find? fun e => e.swath == w).getD ⟨w, [], [], 0, 0, 0⟩
    let ext (l : List Opd) (get : DzVec → Option QVec) : List Opd := (List.range 1024).map fun r =>
      match tok[r]? with
      | some d => (match get d with
        | some v => opdAppend (l.getD r opdEmpty) v
        | none => l.getD r opdEmpty)
      | none => l.getD r opdEmpty
    let new : DzSwath := ⟨w, ext old.tok fun d => some d.low, ext old.tok8 DzVec.high, old.nz + (tok.map DzVec.nz).sum,
      old.sat + (tok.map fun d => d.quant.sat).sum, old.span + (tok.map DzVec.span).sum⟩
    let (nz, sat, span) := t.dhUnit
    { t with
      dzVoc := grow t.dzVoc fun d => some d.low
      dzVoc8 := grow t.dzVoc8 DzVec.high
      dhUnit := (nz + (voc.map DzVec.nz).sum, sat + (voc.map fun d => d.quant.sat).sum, span + (voc.map DzVec.span).sum)
      dz := if c.hasDw then (t.dz.filter fun e => e.swath != w) ++ [new] else [] }

/-- Bytes of the model's own layout, fresh at each use (log 31). -/
def State.privateRun (s : State) (n : Nat) : State × List Byte :=
  ({ s with freeCtr := s.freeCtr + 1 }, padTo n (Config.privateBytes s.freeCtr))

/-- Writes to a region of Elzan's own layout; a secondary writes none (R443). -/
def State.privateWrite (s : State) (c : Cmd) (k : Traffic) (a n : Nat) : State :=
  if s.secondary then s
  else let (s, b) := s.privateRun n; s.askWrite k c.ring c.seq c.work.index a b

/-- Drains a forward tile of phase B: dZ is formed, converted and written to the dZ buffer (R158, R168). Its
scale-capped blocks count in the Harrow's totals as in the record (R476). -/
def State.drainDz (s : State) (c : Cmd) (f : Field) (w : Nat) (d : Drained) : State :=
  let rows := (List.range d.vals.length).map fun i => c.dzRow f w (c.work.sub + i) (d.vals.getD i [])
  let x := c.tookDz f w rows
  let s := s.setCmd x
  let s := { s with totals := { s.totals with
    scaleCap := add32 s.totals.scaleCap (x.work.counts.scaleCap - c.work.counts.scaleCap) } }
  let n := dzBytes c
  s.privateWrite c .dzWrite (pkDzAddr c.run + w * n + c.work.sub * n / c.work.s) (d.vals.length * n / c.work.s)

/-! ### dW (R171, R172) -/

/-- Stores the chains of a dW tile; in the last pass the last strand is closed (R172). -/
def Cmd.tookDw (c : Cmd) (w : Nat) (chains : List (List Chain)) : Cmd :=
  let last := decide (c.work.pass + 1 = passCount c.work.tokens c.work.s)
  let close (x : Chain) : Chain := if last then chainBoundary (pkBounded c.run) x else x
  c.modTrain fun t => { t with
    dw := (List.range chains.length).foldl (fun m i => tblSet [] m (w * 32768 + c.work.sub + i) ((chains.getD i []).map close)) t.dw }

/-- The chains of a dW tile saturated somewhere, the closing boundary included (R80). -/
def dwSaturated (c : Cmd) (chains : List (List Chain)) : Bool :=
  let last := decide (c.work.pass + 1 = passCount c.work.tokens c.work.s)
  chains.any fun col => col.any fun x =>
    if last then (chainOutput (pkBounded c.run) (chainBoundary (pkBounded c.run) x)).sat else x.sat

/-- Drains a dW tile: its entries go to the stage (R171, R172). -/
def State.drainDw (s : State) (c : Cmd) (f : Field) (w : Nat) (chains : List (List Chain)) : State :=
  let s := s.setCmd (c.tookDw w chains)
  if s.inScratch c w then
    let (a, n) := s.scratchRange c f w c.work.sub chains.length
    s.privateWrite c .dwWrite a n
  else s

/-! ### dH (R169, R182) -/

/-- Sends one token's dH of a hidden tile. -/
def State.dhOut (s : State) (c : Cmd) (f : Field) (k t : Nat) (xs : List F32) : State :=
  let p := c.run
  let bf16 := pkDhBf16 p
  let data := rawBytes bf16 xs
  if pkDhStream p then
    s.pushSegment c (if bf16 then 5 else 4) (decide (t + 1 = c.work.tokens ∧ 1024 * (k + 1) = f.h)) data
  else s.output c .dh 1 t (pkDhAddr p + (if bf16 then 2 else 4) * (t * f.h + 1024 * k)) data

/-- Drains a dH tile; after an uncorrectable error no dH leaves (R182). -/
def State.drainDh (s : State) (c : Cmd) (f : Field) (k : Nat) (d : Drained) : State :=
  let s := s.modTrain c fun t => { t with
    dhRows := (List.range (max t.dhRows.length (c.work.sub + d.vals.length))).map fun j =>
      let row := t.dhRows.getD j []
      if c.work.sub ≤ j then row ++ d.vals.getD (j - c.work.sub) [] else row }
  if c.work.ue then s
  else (List.range d.vals.length).foldl (fun s i =>
    s.dhOut c f k (c.work.pass * c.work.s + c.work.sub + i) (d.vals.getD i [])) s

/-- The leaves of DH_SQSUM of the pass: tokens with IGNORE = 0 (R192). -/
def Cmd.tookDh (c : Cmd) (f : Field) : Cmd :=
  let t0 := c.work.pass * c.work.s
  c.modTrain fun t => { t with
    dhSq := (List.range t.dhRows.length).foldl (fun st j =>
      if c.ignored (t0 + j) then st
      else sqRow ((t0 + j) * f.h) ((t.dhRows.getD j []).map some) st) t.dhSq
    dhRows := [] }

end Sys2Proof.Machine
end

