-- ==== Sys2Proof/Machine/Acre.lean ====
section
/-! DEFINITION. The tiles of the command on the Acre: what a tile counts, costs and drains (03_acre.md R80, R81, R93 to
R95; 05_stone_path.md R128 to R134; 07_training_passes.md R180, R181; 15_energy_and_supply.md R409), the faults that it
meets (04_granary.md R111, R112; 16_faults_spares_pairs.md R427), and how the command moves on to its next tile, phase
and pass (03_acre.md R62, R486; 07_training_passes.md R158). -/

namespace Sys2Proof.Machine

/-! ### Faults that a tile meets -/

/-- Physical working lines: columns or rows (R91). -/
def State.workLines (s : State) (row : Bool) : Nat := if row then 1024 else acreCols s.build.cols

/-- A physical line exists: spares are numbered after working lines (R450). -/
def State.lineExists (s : State) (row : Bool) (line : Nat) : Bool := decide (line < s.workLines row + s.workLines row / 64)

/-- A spare word after a line of its group, or the spare itself, has failed; `dead` says that the spare had failed before
(R427). -/
def retireWord (dead spare : Bool) (line : Nat) (w : U32) : U32 :=
  if spare then (if w.getLsbD 31 then setBit w 30 else w)
  else if w.getLsbD 31 || dead then setBit w 30
  else (w &&& 0x40000000#32) ||| 0x80000000#32 ||| BitVec.ofNat 32 (line % 64)

/-- Retires a line (R427). -/
def State.retireLine (s : State) (row : Bool) (line : Nat) : State :=
  let n := s.workLines row
  let spare := decide (n ≤ line)
  let g := if spare then line - n else line / 64
  let a := s.acre
  let dead := if row then a.deadRow else a.deadCol
  let f := retireWord (dead.contains g) spare line
  let dead := if spare && !dead.contains g then dead ++ [g] else dead
  let a := if row then { a with spareRow := tblModify 0 a.spareRow g f, deadRow := dead }
    else { a with spareCol := tblModify 0 a.spareCol g f, deadCol := dead }
  ({ s with acre := a }).refreshWidth

/-- A parity error on an operand line: recorded, the Acre is reset, the line is retired (R427). -/
def State.parityError (s : State) (row : Bool) (line : Nat) : State :=
  let s := { s with flt := { s.flt with parValid := true, parRow := row, parCount := s.flt.parCount + 1, parLine := line } }
  (s.fnAuto 0).retireLine row line

/-- The corrected reads of a tile (R111). -/
def State.correctedReads (s : State) (ce : Corrected) : State :=
  let s := ce.banks.foldl (fun s b => if b < bankCount s.build then s.granaryCe b else s) s
  let s := s.scaleCe ce.scale
  ({ s with flt := { s.flt with
    ceBarn := s.flt.ceBarn + BitVec.ofNat 16 ce.barn, ceAcc := s.flt.ceAcc + BitVec.ofNat 16 ce.acc } }).corrected (ce.barn + ce.acc)

/-- An uncorrectable read of a tile of command `c`, in the Granary, whose bank then migrates, or in the scale store (R112,
R114). -/
def State.tileUe (s : State) (c : Cmd) (store : Bool) (bank word : Nat) : State :=
  let s := s.modField (pkField c.run) damageField
  (if store then s.weightUe bank word else s.granaryUe bank word).modCmd c.ring c.seq fun c =>
    { c with work := { c.work with ue := true } }

/-! ### What a tile counts -/

/-- What a tile ran as and what it met. -/
structure TileRun where
  narrow : Bool
  shed : Bool
  fp8 : Bool
  sat : Bool
  /-- Cycles of the tile, of its stone hold, and those that FP8 adds. -/
  cycles : Nat
  hold : Nat
  extra : Nat
  /-- Stone entries applied, entries lost to the shed path, and elements of O replaced. -/
  applied : Nat
  dropped : Nat
  nonfinite : Nat
  deriving Repr

/-- The counts of a tile in its command's record (R79, R80, R83, R130, R131, R133, R136). -/
def Cmd.countTile (c : Cmd) (r : TileRun) : Cmd :=
  let k := c.work.counts
  let first := if r.sat then some (k.satFirst.getD c.work.index) else k.satFirst
  let held := if r.hold = 0 then 0 else 1
  let k := { k with
    satTiles := k.satTiles + r.sat.toNat
    satFirst := first
    narrowTiles := k.narrowTiles + r.narrow.toNat
    shedTiles := k.shedTiles + r.shed.toNat
    fp8Tiles := k.fp8Tiles + r.fp8.toNat
    gleanTiles := k.gleanTiles + held
    gleanCycles := k.gleanCycles + r.hold + r.extra
    stoneDrop := k.stoneDrop + r.dropped
    nonfinite := k.nonfinite + r.nonfinite }
  { c with cycles := c.cycles + r.cycles + r.hold, work := { c.work with counts := k } }

/-- The residuals that a tile with the path shed drops, by token (R133, R137). -/
def Cmd.shedStones (c : Cmd) (es : List Stone) : Cmd :=
  let t0 := c.work.pass * c.work.s + c.work.sub
  let drop := (List.range c.work.dropTok.length).map fun t =>
    c.work.dropTok.getD t 0 + (es.filter fun e => t0 + e.col.toNat == t).length
  { c with work := { c.work with dropTok := drop } }

/-- The blocks of the contraction that the next tile runs: the first and the one after the last (R66, R87, R172). -/
def Cmd.tileBlocks (c : Cmd) (f : Field) (k : TileKind) : Nat × Nat :=
  match k with
  | .dw _ => let (k0, n, b) := dwBlocks c; (max k0 (c.work.strand * b), k0 + n)
  | _ => let b := strandBlocks (c.tileK f k); (c.work.strand * b, 64 * b)

/-- The strand boundaries of the next tile, with the one that closes a dW output in the last pass (R67, R172). -/
def Cmd.tileBoundaries (c : Cmd) (f : Field) (k : TileKind) : Nat :=
  let (a, z) := c.tileBlocks f k
  match k with
  | .dw _ =>
    let (_, _, b) := dwBlocks c
    z / b - a / b + (if c.work.pass + 1 = passCount c.work.tokens c.work.s ∧ z % b ≠ 0 then 1 else 0)
  | _ => 64 - c.work.strand

/-- The Granary words that the next tile reads. -/
def Cmd.tileReads (c : Cmd) (f : Field) (k : TileKind) : Nat :=
  match k with
  | .dw _ => 0
  | _ => tileWords (c.tileK f k) * (64 - c.work.strand) / 64

/-- 256-bit Granary words that the stone tap reads for one stone entry in one tile: the column of its hidden index lies in 64
blocks of four words (R35, R98, R127; log 43). -/
def tapWords : Nat := 256

/-- The swath record that a forward tile reads is faulty: it is never used in a computation (R482). -/
def Cmd.faultyRecord (c : Cmd) (f : Field) : TileKind → Bool
  | .fwd w => f.stream && (let rows := swathRows c f w; hasScaleFault rows || hasRowFault (f.rowsOf w) rows)
  | _ => false

/-- The events of a tile (R409). -/
def Cmd.chargeTile (c : Cmd) (f : Field) (k : TileKind) (r : TileRun) : Cmd :=
  let w := c.tileWidth k
  let (a, z) := c.tileBlocks f k
  ((((c.event (if r.fp8 then 1 else if r.narrow then 2 else 0) (1024 * w * (z - a))).event 3 (1024 * w * c.tileBoundaries f k)).event 4
    (c.tileReads f k + tapWords * r.applied)).event 7 (1024 * w)).event 9 r.applied

/-- The block's own totals of a tile (R138, R476, R479). -/
def State.totalTile (s : State) (r : TileRun) : State :=
  let t := s.totals
  { s with totals := { t with
      nonfinite := add32 t.nonfinite r.nonfinite
      gleanTiles := add32 t.gleanTiles (if r.hold = 0 then 0 else 1)
      gleanCyc := add32 t.gleanCyc (r.hold + r.extra)
      stoneDropped := add32 t.stoneDropped r.dropped } }.phaseCycles (r.cycles + r.hold)

/-- The last dW tile of a swath so far, with its SAT flag (R80). -/
def Cmd.noteDw (c : Cmd) (k : TileKind) (sat : Bool) : Cmd :=
  match k with
  | .dw w => c.modTrain fun t => { t with dwLast := (w, c.work.index, sat) :: t.dwLast.filter fun e => e.1 != w }
  | _ => c

/-! ### One tile -/

/-- Drains a finished tile to its destination (R61, R81). -/
def State.drainUnit (s : State) (c : Cmd) (f : Field) (k : TileKind) (r : TileRun) (chains : List (List Chain)) (d : Drained) : State :=
  match k with
  | .fwd w =>
    if c.op = opTrain then (if c.work.phase = 1 then s.setCmd (c.drainStats f w d) else s.drainDz c f w d)
    else s.drainServe c f w r.narrow r.shed d
  | .dw w => s.drainDw c f w chains
  | .dh h => s.drainDh c f h d

/-- A tile of the forward pass. -/
def TileKind.forward : TileKind → Bool
  | .fwd _ => true
  | _ => false

/-- The next tile of `c` runs and drains; `bad` says that it met an uncorrectable read. One whose swath record is faulty takes
its time and drains nothing (R482). -/
def State.runTile (s : State) (c : Cmd) (bad : Bool) : State :=
  let f := s.fieldOf c
  let k := c.unit f
  let fp8 := c.tileFp8 k
  let shed := (s.shedding c).2 && k.forward
  let es := (s.tileStones c f k).drop c.work.stoneNext
  let on := k.forward && pkStoneThr c.run != 0 && !shed
  let chains := if c.faultyRecord f k then [] else s.chainsTo c f k (c.strandEnd k)
  let d : Drained := match k with
    | .dw _ => ⟨[], dwSaturated c chains, 0⟩
    | _ => s.drainTile c f k chains (if on then some es else none)
  let t := c.tileCycles f k fp8
  let r : TileRun := {
    narrow := (s.tileMode c).narrow && !fp8, shed := shed, fp8 := fp8, sat := d.sat, cycles := t
    hold := if on then gleanHold (stoneExcess t 0 16 (es.map fun e => e.col.toNat)) else 0
    extra := if fp8 then t - c.tileCycles f k false else 0
    applied := if on then es.length else 0, dropped := if shed then es.length else 0, nonfinite := d.nonfinite }
  let s := if bad then { s with freeCtr := s.freeCtr + 1024 * chains.length } else s
  let d := if bad then d.faulty (s.freeCtr - 1024 * chains.length) else d
  let c := ((if shed then c.shedStones es else c).noteDw k d.sat).chargeTile f k r
  let c := c.countTile r
  ((s.totalTile r).setCmd c).drainUnit c f k r chains d

/-! ### The next tile -/

/-- Adds closing cycles to the compute phase of a command (R94, R180). -/
def State.spend (s : State) (c : Cmd) (n : Nat) : State :=
  (s.modCmd c.ring c.seq fun c => { c with cycles := c.cycles + n }).phaseCycles n

/-- Past the columns of the tile just drained; `listed` is the length of its stone list (R87, R134, R486). -/
def Cmd.pastTile (c : Cmd) (cols listed : Nat) : Cmd :=
  let w := c.work
  let w := { w with sub := w.sub + cols, index := w.index + 1 }
  let w := if w.tileEnd ≤ w.sub then { w with strand := 0, tileEnd := 0, chains := [], zs := [], stoneNext := 0 }
    else { w with chains := w.chains.drop cols, zs := w.zs.drop cols, stoneNext := w.stoneNext - listed }
  { c with work := w }

/-- Past a finished unit: its staged record and its dZ are of no more use (R109, R158, R181). -/
def Cmd.pastUnit (c : Cmd) (f : Field) (k : TileKind) : Cmd :=
  let w := { c.work with tile := c.work.tile + 1, sub := 0 }
  match k with
  | .fwd u => { c with work := { w with staged := w.staged.filter fun e => e.1 != c.stageUnit f u } }
  | .dw u => { c with work := { w with train := { w.train with dz := w.train.dz.filter fun e => e.swath != u } } }
  | .dh _ => { c with work := w }

/-- t_tail of a serving command (R94, R277). -/
def Cmd.tail (c : Cmd) : Nat :=
  if c.op = opHeadFwd then (if pkOutMode c.run = 0 then 0 else 512) else 512 + pkSheafCap c.run / 8

/-- The cycles that close a serving command's compute phase (R94, R486). -/
def Cmd.closing (c : Cmd) (f : Field) : Nat :=
  let w := c.work
  let t := f.n * (tileTime (kPadOf f.h) w.cEff w.f w.rowHalf false * subTiles w.s w.f w.cEff)
  fillDrain w.cEff w.f + c.tail + (passCount w.tokens w.s - 1) * (c.tail - t)

/-- The end of a serving pass: its tokens' results are kept and its Seedbed buffer is free (R118, R249). -/
def State.endServe (s : State) (c : Cmd) (f : Field) : State :=
  let w := c.work
  let c := { c with work := { w with pass := w.pass + 1, tile := 0, results := w.results ++ w.toks, toks := [] } }
  let s := (s.setCmd c).seedDrop c.ring c.seq w.pass
  if c.tilesDone then s.spend c (c.closing f) else s

/-- The end of phase A; a sharded command exchanges its statistics before phase B (R158, R180, R262). -/
def State.endPhaseA (s : State) (c : Cmd) : State :=
  let c := c.tookLogits
  let c := if pkShardEn c.run then c
    else c.tookStats (c.passRoots.map fun (e : Option MZ × Option F32) => (e.1.getD default, e.2.getD fpZero))
  let c := { c with work := { c.work with phase := 2, tile := 0 } }
  (s.setCmd c).spend c (fillDrain c.work.cEff c.work.f + 512)

/-- The end of phase B (R180). -/
def State.endPhaseB (s : State) (c : Cmd) : State :=
  let c := { c with work := { c.work with phase := 3, tile := 0 } }
  (s.setCmd c).spend c (80 + c.work.cEff)

/-- The end of phase C and of its pass (R180, R182, R192). -/
def State.endPhaseC (s : State) (c : Cmd) (f : Field) : State :=
  let q := c.work.pass
  let fp8 := c.tileFp8 (.dh 0)
  let c := (c.tookDh f).modTrain fun t => { t with
    dhValid := t.dhValid + (if c.work.ue then 0 else 1), fp8Dh := t.fp8Dh + fp8.toNat
    dzVoc := [], dzVoc8 := [], dhUnit := (0, 0, 0), dz := [], mz := [], exchanged := false }
  let c := { c with work := { c.work with pass := q + 1, phase := 1, tile := 0, toks := [] } }
  let s := (s.setCmd c).seedDrop c.ring c.seq q
  s.spend c (fillDrain c.work.cEff c.work.f + (if c.tilesDone then 512 else 0))

/-- The end of a phase of `c`. -/
def State.endPhase (s : State) (c : Cmd) (f : Field) : State :=
  match c.work.phase with
  | 0 => s.endServe c f
  | 1 => s.endPhaseA c
  | 2 => s.endPhaseB c
  | _ => s.endPhaseC c f

/-- Moves a command past the tile that it has just drained, and asks for what its next tile reads; the half that a finished
unit leaves free is filled as the state settles (R109). -/
def State.nextTile (s : State) (c : Cmd) : State :=
  let f := s.fieldOf c
  let k := c.unit f
  let d := c.pastTile (c.tileCols k) (s.tileStones c f k).length
  let s :=
    if d.work.sub < d.unitCols f k then s.setCmd d
    else
      let d := d.pastUnit f k
      let s := s.setCmd d
      if d.work.tile < d.unitCount f then s else s.endPhase d f
  match s.cmd c.ring c.seq with
  | some c => if c.tilesDone then s else s.askTile c
  | none => s

/-- Moves a command past its tile, in its form after the drain. -/
def State.afterTile (s : State) (c : Cmd) : State :=
  match s.cmd c.ring c.seq with
  | some c => s.nextTile c
  | none => s

/-! ### ACRE_TILE -/

/-- The command whose next tile the Acre runs: no ready command outranks it and nothing makes it wait (R301, R419). -/
def State.tileOn (s : State) : Option Cmd :=
  match s.onAcre with
  | none => none
  | some c =>
    if s.acreUsable c && s.levelLets c && !c.work.pauseAsked && !c.work.ended && !c.tilesDone && !s.acre.held && !s.outranked c
    then some c else none

/-- A fault that the block can meet: a bank and a word, or a line, that exist; dW tiles read no Granary and no scale store
(R100). The operand of a scale-store error carries what GRN_ECC_UE shows, a bank and a word of the Granary's range: the
manual gives none (DESIGN CHOICE, log 80). -/
def State.faultFits (s : State) (k : TileKind) : TileFault → Bool
  | .none => true
  | .granary b w | .scaleStore b w => decide (b < bankCount s.build) && decide (w < bankWords s.build) && (match k with
    | .dw _ => false
    | _ => true)
  | .parity row line => s.lineExists row line

/-- The tile of `c` completes after an uncorrectable read (R112). -/
def State.tileAfterUe (s : State) (c : Cmd) : State :=
  match s.cmd c.ring c.seq with
  | some c => ((s.runTile c true).afterTile c).settle
  | none => s

/-- The tile of `c` (R93): held at its headland while an input is missing (R17, R181), else run and drained. -/
def acreTileDo (fault : TileFault) (ce : Corrected) (c : Cmd) (s : State) : State :=
  if !s.faultFits (c.unit (s.fieldOf c)) fault then s
  else if !s.tileReady c then
    { s with acre := { s.acre with held := true }, streams := { s.streams with resHeld := !s.outputFits c } }
  else
    let s := s.correctedReads ce
    match fault with
    | .parity row line => s.parityError row line
    | .granary b w => (s.tileUe c false b w).tileAfterUe c
    | .scaleStore b w => (s.tileUe c true b w).tileAfterUe c
    | .none => ((s.runTile c false).afterTile c).settle
/-- ACRE_TILE. -/
def execAcreTile (fault : TileFault) (ce : Corrected) (now : Time) (s : State) : Out :=
  let t := s.tick now
  .next (s.keep (match t.tileOn with
    | some c => acreTileDo fault ce c t
    | none => t))

/-! ### TILE_HOLD_RELEASE -/

/-- The held tile's inputs are present (R17). -/
def tileReleaseDo (s : State) : State :=
  match s.onAcre with
  | some c =>
    if s.running && s.acre.held && s.tileReady c then
      { s with acre := { s.acre with held := false }, streams := { s.streams with resHeld := false } }
    else s
  | none => s

/-- TILE_HOLD_RELEASE: the cycles of the hold are those that the clock has run since it began (R479). -/
def execTileHoldRelease (now : Time) (s : State) : Out := .next (s.keep (tileReleaseDo (s.tick now)))

/-! ### STAGING_SWATH (R109, R482) -/

/-- The next swath record of a stream-fed field has been read into its staging half. -/
def stagingOn (s : State) (r : Nat) (q : U32) : Option Cmd :=
  match s.cmd r q with
  | some c =>
    let u := c.work.stageNext
    let f := s.fieldOf c
    if s.working && !s.fnReset 0 && isAcreOp c.op && c.active && f.stream && !c.work.ended
        && decide (u < c.work.stageAsk) && !s.openIdx r q .stage u
    then some c else none
  | none => none

/-- Stages the record and checks it. -/
def stagingDo (c : Cmd) (s : State) : State :=
  let f := s.fieldOf c
  let u := c.work.stageNext
  let w := u % f.n
  let rows := recordRows (s.bytes (f.src + (f.first + w) * 516 * f.h) (516 * f.h)) f.h
  let scale := hasScaleFault rows
  let bad := if scale || hasRowFault (f.rowsOf w) rows then some (u, scale) else none
  (s.modCmd c.ring c.seq fun c => { c with work := { c.work with
    staged := c.work.staged ++ [(u, rows)], stageNext := u + 1, badSwath := if c.work.badSwath.isSome then c.work.badSwath else bad } }).event
    c.ring c.seq 5 (tileWords f.h)

/-- STAGING_SWATH. -/
def execStagingSwath (ring : Fin 64) (seq : U32) (s : State) : Out :=
  .next (s.keep (match stagingOn s ring.val seq with
    | some c => stagingDo c s
    | none => s))

end Sys2Proof.Machine
end

