-- ==== Sys2Proof/Machine/Results.lean ====
section
/-! DEFINITION. The end of a compute phase and the commit (01_architecture.md R15; 08_scoring.md R208, R213, R228;
09_selection_and_sampling.md R244; 10_tree_verification.md R270 to R276; 11_strips_tenants_deadlines.md R289 to R298;
14_ports.md R380, R391): what every strip-step emits, the records it writes, what a written record applies, and the
result stream. -/

namespace Sys2Proof.Machine

/-! ### What a token selects -/

/-- The accumulator of token `t` of a command whose phase has ended. -/
def Cmd.result (c : Cmd) (t : Nat) : TokAcc := c.work.results.getD t tokAccZero

/-- The sheaf of a token, best first, and OVER (R239). -/
def Cmd.sheafOf (c : Cmd) (a : TokAcc) : List Cand × Bool :=
  if pkSheafCap c.run = 0 then ([], false) else thresherFinish (pkSheafCap c.run) a.sheaf

/-- The noise of a token `depth` places below its strip's POS (R142, R269). -/
def stepNoise (p : StripParams) (depth : Nat) : Nat → F32 := gumbelNoise p.seed p.sowTag (p.pos + BitVec.ofNat 32 depth)

/-- What a token selects by itself; none where no row of it is valid (R213, R234, R235, R241). -/
def Cmd.selectLocal (c : Cmd) (p : StripParams) (depth : Nat) (a : TokAcc) : Option Selection :=
  (tokRoot a).map fun r =>
    let (sheaf, full) := c.sheafOf a
    selectToken p (stepNoise p depth) r a.greedy a.noisy sheaf full

/-- Flags that token `t` gathered (R79, R137, R199). -/
def Cmd.tokenFlags (c : Cmd) (t : Nat) : U32 :=
  let a := c.result t
  (if a.narrow then rfNarrow else 0) ||| (if c.work.dropTok.getD t 0 = 0 then 0 else rfStoneDropped)
    ||| (if a.stoneOff then rfStoneOff else 0) ||| (if a.satCount = 0 then 0 else rfScoreSat)

/-- A strip-step takes its selection: one emitted token. -/
def StripStep.take (p : StripStep) (x : Selection) (flags : U32) (amax : F32) : StripStep :=
  { p with
    sel := some x, emitted := 1, amax := amax
    flags := p.flags ||| flags ||| (if x.trunc then rfTrunc else 0) }

/-- The end of a strip-step of a SAMPLE_STEP; a sharded one selects in its merge (R213, R250). -/
def Cmd.endSample (c : Cmd) (p : StripStep) : StripStep :=
  match c.selectLocal p.params 0 (c.result p.idx) with
  | none => { p with reason := stepCode .allBanned, reserved := 0 }
  | some x => if pkShardEn c.run then p else p.take x (c.tokenFlags p.idx) (c.work.amaxTok.getD p.idx fpZero)

/-- The first column element of tree `i`. -/
def Cmd.treeBase (c : Cmd) (i : Nat) : Nat := ((c.work.descs.take i).map TreeDesc.nodes).sum

/-- SCALE_SHIFT of a walk: some emitted depth d ≥ 1 used another global exponent than its predecessor's maximum gives; `m`
is the maximum that converted the nodes (R273). -/
def Cmd.scaleShift (c : Cmd) (base : Nat) (path : List Nat) (m : F32) : Bool :=
  path.dropLast.any fun n => globalExp .e2m1 (c.work.amaxTok.getD (base + n) fpZero) != globalExp .e2m1 m

/-- The end of a strip-step of a VERIFY_TREE whose nodes were converted with `m`: its walk (R270, R271, R273, R275). -/
def Cmd.endTree (c : Cmd) (m : F32) (p : StripStep) : StripStep :=
  let base := c.treeBase p.idx
  let sel (n : Nat) : Option Selection := c.selectLocal p.params (nodeDepth p.nodes n) (c.result (base + n))
  let w := walkTree p.nodes (fun n => (sel n).map fun x => (x.token, x.logprob)) p.cap p.counted
  match w.path.getLast? with
  | none => { p with reason := stepCode .allBanned, reserved := 0 }
  | some n =>
    let shift := c.scaleShift base w.path m
    let flags := w.path.foldl (fun (f : U32) n => f ||| c.tokenFlags (base + n)) 0
    let p := p.take ((sel n).getD default) flags (c.work.amaxTok.getD (base + n) fpZero)
    { p with
      walk := w, emitted := w.path.length
      flags := p.flags ||| (if w.hedgeStop then rfHedgeStop else 0) ||| (if w.budgetCap then rfBudgetCap else 0)
        ||| (if shift then rfScaleShift else 0) }

/-- The end of a strip-step in the compute phase: a reason that it has stands; a fault of the command ends it; else it
selects (R112, R285, R482). -/
def State.endStep (s : State) (c : Cmd) (p : StripStep) : StripStep :=
  if p.reason ≠ 0 then p
  else if c.work.ue then { p with reason := stepCode .eccFault, reserved := 0 }
  else if c.work.badSwath.isSome then { p with reason := stepCode .imageFault, reserved := 0 }
  else if c.op = opVerify then c.endTree (s.strip p.strip).amax p
  else c.endSample p

/-- Ends every strip-step of a command: those that emit nothing release their reservation (R289), and ALL_BANNED is
counted (R229). -/
def State.endSteps (s : State) (c : Cmd) : State × List StripStep :=
  c.work.steps.foldl (fun (a : State × List StripStep) p =>
    let q := a.1.endStep c p
    let s := if p.reason = 0 ∧ q.reason ≠ 0 then a.1.unreserve p else a.1
    let s := if p.reason = 0 ∧ q.reason = stepCode .allBanned then s.countSkip .allBanned p.tenant else s
    (s, a.2 ++ [q])) (s, [])

/-! ### HEAD_FWD statistics (R228, R348) -/

/-- The statistics record of a root. -/
def statsRecord (r : Option MZ) : List Byte :=
  match r with
  | none => zeros 16
  | some r => leBytes 4 r.m.toNat ++ leBytes 4 r.z.toNat ++ leBytes 4 (lnFn r.z).toNat ++ zeros 4

/-- Writes the records of every token of a HEAD_FWD with statistics, or sends them pass by pass (R348, R391). -/
def State.writeStats (s : State) (c : Cmd) (roots : List (Option MZ)) : State :=
  let recs := roots.map statsRecord
  let s := s.modCmd c.ring c.seq fun c => { c with work := { c.work with outBytes := c.work.outBytes + 16 * recs.length } }
  if pkOutDest c.run = 1 then
    let n := passCount c.work.tokens c.work.s
    (List.range n).foldl (fun s q =>
      s.pushSegment c 3 (decide (q + 1 = n)) ((recs.drop (q * c.work.s)).take c.work.s).flatten) s
  else s.output c .stats 0 0 (pkOutAddr c.run) recs.flatten

/-! ### COMPUTE_PHASE_END -/

/-- The reason of a command whose phase met a fault (R112, R482). -/
def Cmd.faultReason (c : Cmd) : Reason :=
  if c.work.ue then .granaryUe
  else match c.work.badSwath with
    | some (_, scale) => if scale then .badScale else .badImage
    | none => .ok

/-- The loss records of a TRAIN_STEP (R167). -/
def Cmd.lossBytes (c : Cmd) : List Byte :=
  (c.work.train.losses.map fun (e : F32 × F32) => leBytes 4 e.1.toNat ++ leBytes 4 e.2.toNat).flatten

/-- The end of a TRAIN_STEP's phase: its losses are written and G follows, unless a fault ended it (R167, R174, R182). -/
def State.endTrain (s : State) (c : Cmd) : State :=
  let r := c.faultReason
  let s := s.openCommit c r
  if r = .ok then s.output c .loss 0 0 (pkLossAddr c.run) c.lossBytes else s

/-- The end of a HEAD_FWD's phase; a sharded one waits for its merge (R228, R249, R482). -/
def State.endHead (s : State) (c : Cmd) : State :=
  if pkShardEn c.run then s.setCmd { c with reason := c.faultReason }
  else
    let s := s.openCommit c c.faultReason
    if pkOutMode c.run = 1 ∧ c.work.badSwath.isNone then s.writeStats c (c.work.results.map tokRoot) else s

/-- The end of the phase of a command with strip-steps; a sharded one waits for its merge (R249). -/
def State.endServing (s : State) (c : Cmd) : State :=
  let (s, ps) := s.endSteps c
  s.setCmd { c with
    stage := if pkShardEn c.run then c.stage else .committing
    reason := c.faultReason, work := { c.work with steps := ps } }

/-- The compute phase of the command on the Acre ends: it leaves the Acre and the Seedbed, and what a boundary between
two commands lets take effect does (R15, R92, R444). -/
def computePhaseEndDo (c : Cmd) (s : State) : State :=
  let s := s.freeAcre c.ring c.seq
  let c := { c with work := { c.work with ended := true } }
  let s := if c.op = opTrain then s.endTrain c else if c.op = opHeadFwd then s.endHead c else s.endServing c
  s.levelEffects.settle.afterCommit

/-- The command on the Acre has computed its last tile. -/
def computePhaseEndOn (s : State) : Option Cmd :=
  match s.onAcre with
  | some c => if s.working && !s.fnReset 1 && c.work.begun && !c.work.ended && c.tilesDone then some c else none
  | none => none

/-- COMPUTE_PHASE_END. -/
def execComputePhaseEnd (now : Time) (s : State) : Out :=
  let t := s.tick now
  .next (s.keep (match computePhaseEndOn t with
    | some c => computePhaseEndDo c t
    | none => t))

/-! ### STRIP_COMMIT -/

/-- The ledger updates of a strip-step's tokens in emission order, with their flags and the insertions refused (R208,
R209). -/
def ledgerApply (mode : Nat) (l : Ledger) (ts : List Nat) : Ledger × LedgerFlags × Nat :=
  ts.foldl (fun (a : Ledger × LedgerFlags × Nat) t =>
    let (l, f) := ledgerAdd mode a.1 t
    (l, ⟨a.2.1.sat || f.sat, a.2.1.wrap || f.wrap, a.2.1.full || f.full⟩, a.2.2 + f.full.toNat)) (l, ⟨false, false, false⟩, 0)

/-- The tokens that a strip-step emits (R270). -/
def StripStep.tokens (p : StripStep) (op : Nat) : List Nat :=
  if op = opVerify then p.walk.tokens else match p.sel with
    | some x => [x.token]
    | none => []

/-- The ledger after the strip-step's tokens, where its strip keeps one (R208). -/
def State.ledgerAfter (s : State) (c : Cmd) (p : StripStep) : Ledger × LedgerFlags × Nat :=
  let l := (s.strip p.strip).ledger
  if p.params.ledgerUpd then ledgerApply (pkIntMode c.run) l (p.tokens c.op) else (l, ⟨false, false, false⟩, 0)

/-- Tokens that earlier strip-steps of the command emit into the same strip. -/
def Cmd.emittedBefore (c : Cmd) (p : StripStep) : Nat :=
  ((c.work.steps.filter fun q => q.strip == p.strip && q.reason == 0 && decide (q.idx < p.idx)).map StripStep.emitted).sum

/-- POS of a record: the position of its last token, or the strip's; open where the strip does not exist (R298). For a repeated
strip (R285) the strip's POS is taken after the emission of its earlier strip-step of the command, though the strip holds
the old one until that step commits: the manual leaves open which (DESIGN CHOICE, log 55). -/
def State.recordPos (s : State) (c : Cmd) (p : StripStep) : U32 :=
  if c.stepWord p.idx ≥ stripCount s.build then Config.freeWord (s.freeCtr + p.idx)
  else if p.reason = 0 then p.params.pos + BitVec.ofNat 32 (p.emitted - 1)
  else (s.strip p.strip).params.pos + BitVec.ofNat 32 (c.emittedBefore p)

/-- COMMITTED and LATE_COUNT of strip `t` after the strip-step's commit, with the flags that they raise (R59, R280). -/
def StripStep.counts (p : StripStep) (mode : Nat) (t : Strip) : (Nat × Nat) × Bool × Bool :=
  let (a, aSat, aWrap) := intOut mode (t.committed.toNat + p.emitted)
  let (b, bSat, bWrap) := intOut mode (t.lateCount.toNat + (hasFlag p.flags rfLate).toNat)
  ((a, b), aSat || bSat, aWrap || bWrap)

/-- The record of strip-step `p` at commit time `t` (R293, R296, R298). -/
def State.stepRecord (s : State) (c : Cmd) (t : Time) (p : StripStep) : StripStep :=
  if p.reason ≠ 0 then
    let p := { p with time := t }
    { p with asked := true, record := resultBytes p (s.recordPos c p) none 0 0 0 fpZero }
  else
    let (_, f, _) := s.ledgerAfter c p
    let p := { p with flags := p.flags ||| (if isLate t p.deadline then rfLate else 0) }
    let (_, sat, wrap) := p.counts (pkIntMode c.run) (s.strip p.strip)
    let flags := p.flags ||| (if f.full then rfLedgerFull else 0)
      ||| (if f.sat || sat then rfIntSat else 0) ||| (if f.wrap || wrap then rfIntWrap else 0)
      ||| (if (s.strip p.strip).firstDone then 0 else rfFirst)
    let p := { p with time := t, flags := flags, asked := true }
    let x := p.sel.getD default
    { p with
      record := resultBytes p (s.recordPos c p) p.sel x.token p.walk.accepted p.emitted x.logprob
      vrec := if c.op = opVerify then vrecBytes p.walk (hasFlag p.flags rfScaleShift) p.params.pos else [] }

/-- Writes or sends the records of a strip-step (R274, R297, R391). -/
def State.writeRecord (s : State) (c : Cmd) (p : StripStep) : State :=
  let s := if p.vrec.isEmpty then s
    else s.output c .vrec (2 * p.idx) p.idx (c.work.descs.getD p.idx default).vrecAddr p.vrec
  if pkResStream c.run then s.pushSegment c 0 (decide (p.idx + 1 = c.work.steps.length)) p.record
  else s.output c .result (2 * p.idx + 1) p.idx (pkResAddr c.run + 256 * p.idx) p.record

/-- Times that never fall, from `t` on (R294). -/
def timesRise : Time → List Time → Bool
  | _, [] => true
  | t, x :: r => decide (t ≤ x) && timesRise x r

/-- The commit times of a command's strip-steps: as the row gives them, one for all while PAIRED, and the primary's on a
secondary (R294, R444); none where they cannot be. -/
def State.commitTimes (s : State) (c : Cmd) (times : List Time) : Option (List Time) :=
  if times.length ≠ c.work.steps.length || !timesRise s.timeNs times then none
  else if s.secondary then
    (s.pair.commits.find? fun e => e.1 == c.ring && e.2.1 == c.seq).map fun e => times.map fun _ => e.2.2
  else if s.pair.state = 2 then some (times.map fun _ => times.headD s.timeNs)
  else some times

/-- The command's strip-steps have ended and their commit has not begun. -/
def stripCommitOn (s : State) (r : Nat) (q : U32) (times : List Time) : Option (Cmd × List Time) :=
  match s.cmd r q with
  | some c =>
    if s.running && !s.halted && !s.pair.holding && c.stage == .committing && !c.work.steps.isEmpty
        && c.work.steps.all fun p => !p.asked then
      (s.commitTimes c times).map fun ts => (c, ts)
    else none
  | none => none

/-- Windows turn before a commit at a later time (R287, R289). -/
def State.turnTenants (s : State) (ps : List StripStep) (ts : List Time) : State :=
  ps.foldl (fun s p => if p.reason = 0 then s.modTenant p.tenant (turnAt (ts.getD p.idx s.timeNs)) else s) s

/-- Begins the commit: each strip-step takes its time and its records are asked for, in order (R294, R297). -/
def stripCommitDo (c : Cmd) (ts : List Time) (s : State) : State :=
  let s := (s.turnTenants c.work.steps ts).at (ts.getLastD s.timeNs)
  let steps := c.work.steps.map fun p => s.stepRecord c (ts.getD p.idx s.timeNs) p
  let s := { s with freeCtr := s.freeCtr + steps.length }.takeCommit c
  let c := { c with commit := true, work := { c.work with steps := steps } }
  let s := (s.setCmd c).tell stCommit c false false 0 0
  (steps.foldl (fun s p => s.writeRecord c p) s).settle

/-- STRIP_COMMIT. -/
def execStripCommit (ring : Fin 64) (seq : U32) (times : List Time) (s : State) : Out :=
  .next (s.keep (match stripCommitOn s ring.val seq times with
    | some (c, ts) => stripCommitDo c ts s
    | none => s))

/-! ### RESULT_RECORDS_WRITTEN -/

/-- Steps 3 to 5 of R296 on a strip (R208, R276, R280): POS, AMAX, timestamps and counts. -/
def commitStrip (mode : Nat) (p : StripStep) (l : Ledger) (t : Strip) : Strip :=
  let ((committed, late), _) := p.counts mode t
  { t with
    ledger := l
    params := { t.params with pos := t.params.pos + BitVec.ofNat 32 p.emitted }
    amax := p.amax
    firstCommit := if t.firstDone then t.firstCommit else p.time
    firstDone := true
    lastCommit := p.time
    committed := BitVec.ofNat 32 committed
    lateCount := BitVec.ofNat 32 late }

/-- The Winnower's counts of a committed strip-step (R229, R263, R278). -/
def countWin (op full : Nat) (p : StripStep) (w : Win) : Win :=
  let tree := op = opVerify
  { w with
    ledgerFull := add32 w.ledgerFull full
    nucleusTrunc := if hasFlag p.flags rfTrunc then w.nucleusTrunc + 1 else w.nucleusTrunc
    verifyStrips := if tree then w.verifyStrips + 1 else w.verifyStrips
    verifyAccepted := if tree then add32 w.verifyAccepted p.walk.accepted else w.verifyAccepted
    verifyShift := if tree ∧ hasFlag p.flags rfScaleShift then w.verifyShift + 1 else w.verifyShift }

/-- Steps 3 to 6 of R296: what a strip-step with a written record applies. -/
def State.commitStep (s : State) (c : Cmd) (p : StripStep) : State :=
  let (l, _, full) := s.ledgerAfter c p
  let home := (s.fieldOf c).home
  let late := hasFlag p.flags rfLate
  let s := s.modStrip p.strip (commitStrip (pkIntMode c.run) p l)
  let s := { s with
    win := countWin c.op full p s.win
    totals := { s.totals with
      commits := add32 s.totals.commits p.emitted, late := if late then s.totals.late + 1 else s.totals.late } }
  let s := if home then
      let s := s.modTenant p.tenant fun t =>
        { debit p.time p.emitted p.reserved p.counted t with late := if late then t.late + 1 else t.late }
      { s with energy := { s.energy with
        served := s.energy.served + BitVec.ofNat 64 p.emitted, epochServed := s.energy.epochServed + p.emitted } }
    else s
  (s.perfAdd 11 1).perfAdd 12 p.emitted

/-- Ends a strip-step whose records have been answered (R296, R380). -/
def State.closeStep (s : State) (c : Cmd) (p : StripStep) : State × StripStep :=
  if p.failedWrite then (if p.reason = 0 then s.unreserve p else s, { p with reserved := 0 })
  else
    let s := { s with totals := { s.totals with records := s.totals.records + 1 } }
    if p.reason = 0 then (s.commitStep c p, { p with committed := true, reserved := 0 }) else (s, p)

/-- The records of a command's strip-steps have been asked for and all are written: their writes answered, or their segments in
the output queue (R380, R392). A halted block lets a commit
that has begun run to its end (R430). -/
def resultRecordsOn (s : State) (r : Nat) (q : U32) : Option Cmd :=
  match s.cmd r q with
  | some c =>
    if s.running && !s.pair.holding && c.stage == .committing && !c.work.steps.isEmpty && c.work.steps.all StripStep.asked
        && !s.writesOpen r q && !s.segmentsWait r q then some c else none
  | none => none

/-- Applies the commits in order and ends the command (R296, R297, R380). -/
def resultRecordsDo (c : Cmd) (s : State) : State :=
  let (s, steps) := c.work.steps.foldl (fun (a : State × List StripStep) p =>
    let (s, p) := a.1.closeStep c p
    (s, a.2 ++ [p])) (s, [])
  let done := steps.filter fun p => p.committed
  let c := { c with
    work := { c.work with steps := steps }
    intSat := c.intSat || done.any fun p => hasFlag p.flags rfIntSat
    intWrap := c.intWrap || done.any fun p => hasFlag p.flags rfIntWrap }
  let r := if c.reason = .ok ∧ steps.any StripStep.failedWrite then .badAddr else c.reason
  (s.finish c r (classBody (s.fieldOf c) c r)).settle.afterCommit

/-- RESULT_RECORDS_WRITTEN. -/
def execResultRecordsWritten (ring : Fin 64) (seq : U32) (now : Time) (s : State) : Out :=
  let t := s.tick now
  .next (s.keep (match resultRecordsOn t ring.val seq with
    | some c => resultRecordsDo c t
    | none => t))

/-! ### RES_SEGMENT_SEND (R391, R392) -/

/-- The output queue sends its oldest segment. -/
def resSegmentDo (s : State) : State :=
  match s.streams.queue with
  | [] => s
  | g :: rest =>
    let n := ceilDiv g.data.length 64
    (({ s with streams := { s.streams with queue := rest } }).perfAdd 16 n).event g.ring g.seq 13 n

/-- RES_SEGMENT_SEND. What leaves the queue makes room for segments behind it, which may be the last thing that a command
waits for (R380, R392). -/
def execResSegmentSend (now : Time) (s : State) : Out :=
  let t := s.tick now
  .next (s.keep (if t.running && !t.fnReset 6 then (resSegmentDo t).settle else t))

end Sys2Proof.Machine
end

