-- ==== Sys2Proof/Machine/Merge.lean ====
section
/-! DEFINITION. The merge of shards (09_selection_and_sampling.md R249 to R262; 13_command_reference.md R359, R360;
14_ports.md R393): SHARD_MERGE, the two rounds, what a merged step selects, its failures, and the exchange of a sharded
TRAIN_STEP. The exchange is kept with the sharded command. -/

namespace Sys2Proof.Machine

/-! ### Round-1 entries (R256) -/

/-- A round-1 entry. -/
structure Entry where
  token : Nat
  fail : Bool
  empty : Bool
  thrValid : Bool
  winValid : Bool
  narrow : Bool
  dropped : Bool
  stoneOff : Bool
  scoreSat : Bool
  owned : Bool
  tag : U32
  pos : U32
  m : F32
  z : F32
  y : F32
  id : Nat
  thrX : F32
  thrId : Nat
  valid : Nat
  deriving DecidableEq, Repr, Inhabited

/-- TFLAGS of an entry. -/
def Entry.flags (e : Entry) : Nat :=
  flagBit e.fail 1 + flagBit e.empty 2 + flagBit e.thrValid 4 + flagBit e.winValid 8 + flagBit e.narrow 16
    + flagBit e.dropped 32 + flagBit e.stoneOff 64 + flagBit e.scoreSat 128 + flagBit e.owned 256

/-- The 40 bytes of an entry. -/
def Entry.bytes (e : Entry) : List Byte :=
  leBytes 2 e.token ++ leBytes 2 e.flags ++ leBytes 4 e.tag.toNat ++ leBytes 4 e.pos.toNat ++ leBytes 4 e.m.toNat
    ++ leBytes 4 e.z.toNat ++ leBytes 4 e.y.toNat ++ leBytes 4 e.id ++ leBytes 4 e.thrX.toNat ++ leBytes 4 e.thrId
    ++ leBytes 4 e.valid

/-- The entry in the 40 bytes from offset `o`. -/
def parseEntry (b : List Byte) (o : Nat) : Entry :=
  let t (i : Nat) : Bool := (leNat b (o + 2) 2).testBit i
  { token := leNat b o 2, fail := t 0, empty := t 1, thrValid := t 2, winValid := t 3, narrow := t 4, dropped := t 5
    stoneOff := t 6, scoreSat := t 7, owned := t 8, tag := le32 b (o + 4), pos := le32 b (o + 8), m := le32 b (o + 12)
    z := le32 b (o + 16), y := le32 b (o + 20), id := leNat b (o + 24) 4 % 2 ^ 20, thrX := le32 b (o + 28)
    thrId := leNat b (o + 32) 4 % 2 ^ 20, valid := leNat b (o + 36) 4 }

/-- The entries of a round-1 record. -/
def recEntries (b : List Byte) : List Entry := (List.range (min 5 (recCount b))).map fun i => parseEntry b (32 + 40 * i)

/-- The sheaf entries of a round-2 record (R237, R256). -/
def recCands (b : List Byte) : List Cand :=
  (List.range (min 28 (recCount b))).map fun i => (le32 b (32 + 8 * i), leNat b (36 + 8 * i) 4 % 2 ^ 20)

/-- The root of a token as an entry carries it. -/
def Entry.root (e : Entry) : Option MZ := if e.empty then none else some ⟨e.m, e.z⟩

/-- The tokens that the exchange covers: every token of a step, the tokens of the pass of a TRAIN_STEP. -/
def Cmd.exchangeTokens (c : Cmd) : List Nat :=
  if c.op = opTrain then (List.range c.passSizeNow).map fun i => c.work.pass * c.work.s + i
  else List.range c.work.tokens

/-- The accumulator of a token of the exchange. -/
def Cmd.exchangeAcc (c : Cmd) (t : Nat) : TokAcc :=
  if c.op = opTrain then c.tokAcc (t - c.work.pass * c.work.s) else c.result t

/-- Parameters of the strip that a token is bound to, if any. -/
def Cmd.exchangeParams (c : Cmd) (t : Nat) : Option StripParams :=
  if c.op = opSample then some (c.work.steps.getD t default).params
  else if c.op = opHeadFwd then c.work.bound.map Prod.fst
  else none

/-- The local threshold: the worst entry of a full local sheaf (R251). -/
def Cmd.threshold (c : Cmd) (a : TokAcc) : Option Cand :=
  let (l, _) := c.sheafOf a
  if l.length = pkSheafCap c.run then l.getLast? else none

/-- The local winner of a SAMPLE_STEP's token (R249). -/
def localWinner (p : StripParams) (a : TokAcc) : Option Cand :=
  if isGreedy p then a.greedy else if isTruncated p then none else a.noisy.map Prod.fst

/-- The own entry of token `t` (R249, R256, R259, R262). GB_VALID tells a local winner; a TRAIN_STEP has none and sends it 0
beside its target's GB_Y and GB_ID (DESIGN CHOICE; log 62). -/
def Cmd.ownEntry (c : Cmd) (t : Nat) : Entry :=
  let a := c.exchangeAcc t
  let p := c.exchangeParams t
  let failed := if c.op = opSample then (c.work.steps.getD t default).reason != 0 else c.work.ue || c.work.badSwath.isSome
  let root := tokRoot a
  let thr := if c.op = opSample then c.threshold a else none
  let win := if c.op = opSample then (match p with
      | some p => localWinner p a
      | none => none) else none
  { token := t, fail := failed, empty := root.isNone, thrValid := thr.isSome, winValid := win.isSome, narrow := a.narrow
    dropped := c.work.dropTok.getD t 0 != 0, stoneOff := a.stoneOff, scoreSat := a.satCount != 0
    owned := c.op == opTrain && a.target.isSome
    tag := (p.map StripParams.sowTag).getD 0, pos := (p.map StripParams.pos).getD 0
    m := (root.map MZ.m).getD 0, z := (root.map MZ.z).getD 0
    y := if c.op = opTrain then a.target.getD 0 else (win.map Prod.fst).getD 0
    id := if c.op = opTrain then c.target t else (win.map Prod.snd).getD 0
    thrX := (thr.map Prod.fst).getD 0, thrId := (thr.map Prod.snd).getD 0, valid := a.valid }

/-! ### Sending (R250, R255, R393) -/

/-- The other shards of the group. -/
def Field.peers (f : Field) : List Nat := (List.range (f.qM1 + 1)).filter (· != f.shardId)

/-- The records that carry `units` payloads of (count, token, bytes) to shard `dst`, in ascending SEQ. -/
def roundRecords (f : Field) (c : Cmd) (round dst : Nat) (units : List (Nat × Nat × List Byte)) : List (List Byte) :=
  (List.range units.length).map fun i =>
    let (n, t, b) := units.getD i (0, 0, [])
    recordBytes256 ⟨round, f.shardId, dst, decide (i + 1 = units.length), i, n, pkStepTag c.run, t,
      if c.op = opTrain then c.work.pass else 0⟩ b

/-- A row that sends shard records begins: the records of earlier rows have left (R393). -/
def State.clearOut (s : State) : State := { s with shard := { s.shard with out := [] } }

/-- Sends a round to every peer, behind what the row has sent before: the records of `units`. A shard port in reset sends
nothing (R369), and neither does a secondary (R443). -/
def State.sendRound (s : State) (c : Cmd) (round : Nat) (units : List (Nat × Nat × List Byte)) : State :=
  if s.fnReset 7 then s else
  let f := s.fieldOf c
  let out := (f.peers.map fun d => (roundRecords f c round d units).map fun b => (pkField c.run, b)).flatten
  let n := out.length
  let s := s.modCmd c.ring c.seq fun c =>
    let m := c.work.merge
    let m := if round = 1 then { m with sent1 := m.sent1 + n } else if round = 2 then { m with sent2 := m.sent2 + n } else m
    { c with work := { c.work with merge := m } }
  if s.secondary then s
  else ({ s with shard := { s.shard with out := s.shard.out ++ out, sent := add32 s.shard.sent n } }).event c.ring c.seq 13 (4 * n)

/-- Cuts a list into runs of `k`. `fuel` bounds their number. -/
def chunks {α : Type} (k : Nat) : Nat → List α → List (List α)
  | 0, _ => []
  | fuel + 1, l => if l.isEmpty then [] else l.take k :: chunks k fuel (l.drop k)

/-- The payloads of round 1: five entries a record (R256). -/
def Cmd.units1 (c : Cmd) : List (Nat × Nat × List Byte) :=
  let es := c.exchangeTokens.map c.ownEntry
  (chunks 5 es.length es).map fun l => (l.length, 0, (l.map Entry.bytes).flatten)

/-- The local sheaf entries that τ is not better than, in sheaf order (R250). -/
def Cmd.sentCands (c : Cmd) (t : Nat) (tau : Option Cand) : List Cand :=
  (c.sheafOf (c.exchangeAcc t)).1.filter fun e => !((tau.map fun h => candBetter h e).getD false)

/-- A token of a SAMPLE_STEP that needs a sheaf (R232). -/
def Cmd.sheafToken (c : Cmd) (t : Nat) : Bool :=
  c.op == opSample && pkSheafCap c.run != 0 && (match c.exchangeParams t with
    | some p => needsSheaf p
    | none => false)

/-- The payloads of round 2: for each token that needs a sheaf at least one record, else a single empty record. -/
def Cmd.units2 (c : Cmd) (tau : Nat → Option Cand) : List (Nat × Nat × List Byte) :=
  let us := ((c.exchangeTokens.filter c.sheafToken).map fun t =>
    let es := c.sentCands t (tau t)
    let cs := if es.isEmpty then [[]] else chunks 28 es.length es
    cs.map fun (l : List Cand) =>
      (l.length, t, (l.map fun e => leBytes 4 e.1.toNat ++ leBytes 4 (e.2 % 2 ^ 20)).flatten)).flatten
  if us.isEmpty then [(0, 0, [])] else us

/-- Sends an abort record to every peer, unless the level forbids it or the step has been aborted before (R256, R260,
R419). -/
def State.sendAbort (s : State) (c : Cmd) : State :=
  if s.energy.level.val < 3 ∧ !c.work.merge.aborted then s.sendRound c 3 [(0, 0, [])] else s

/-! ### Receiving -/

/-- The records of a round that shard `src` has sent in the exchange in progress. -/
def Cmd.roundOf (c : Cmd) (round src : Nat) : List (List Byte) :=
  (c.work.merge.got.filter fun e => e.1 == src && e.2.1 == round
    && (c.op != opTrain || recPass e.2.2.2.2 == c.work.pass)).map fun e => e.2.2.2.2

/-- A peer's round is complete: SEQ 0 to the record marked LAST have all arrived (R250). -/
def roundComplete (rs : List (List Byte)) : Bool :=
  rs.any fun b => recLast b && (List.range (recSeq b + 1)).all fun i => rs.any fun r => recSeq r == i

/-- The round is complete from every peer. -/
def Cmd.roundDone (c : Cmd) (f : Field) (round : Nat) : Bool := f.peers.all fun d => roundComplete (c.roundOf round d)

/-- The entry of shard `d` for token `t`; a peer that sends none has failed it (log 62). -/
def Cmd.entryOf (c : Cmd) (f : Field) (t d : Nat) : Entry :=
  let own := c.ownEntry t
  if d = f.shardId then own
  else ((((c.roundOf 1 d).map recEntries).flatten.find? fun e => e.token == t % 2 ^ 16).getD
    { (default : Entry) with fail := true, empty := true, tag := own.tag, pos := own.pos })

/-- The entries of every shard for token `t`, in ascending shard id. -/
def Cmd.entries (c : Cmd) (f : Field) (t : Nat) : List (Nat × Entry) :=
  (List.range (f.qM1 + 1)).map fun d => (d, c.entryOf f t d)

/-! ### What a merged token holds (R250 step 3) -/

/-- The global root from the shard pairs, by the levels of R224 above the span. -/
def globalRoot (es : List (Nat × Entry)) : Option MZ :=
  treeOf mzMerge (es.filterMap fun (e : Nat × Entry) => e.2.root.map fun r => (e.1, r))

/-- τ: the best of the local thresholds. -/
def globalTau (es : List (Nat × Entry)) : Option Cand :=
  es.foldl (fun b (e : Nat × Entry) => if e.2.thrValid then candBest b (some (e.2.thrX, e.2.thrId)) else b) none

/-- The best local winner. -/
def globalWinner (es : List (Nat × Entry)) : Option Cand :=
  es.foldl (fun b (e : Nat × Entry) => if e.2.winValid then candBest b (some (e.2.y, e.2.id)) else b) none

/-- The merged sheaf of token `t` (R250 step 5). -/
def Cmd.mergedSheaf (c : Cmd) (f : Field) (t : Nat) (tau : Option Cand) : List Cand :=
  let theirs := (f.peers.map fun d => ((c.roundOf 2 d).filter fun b => recToken b == t % 2 ^ 16).map recCands).flatten.flatten
  let all := c.sentCands t tau ++ theirs
  (thresherFinish (pkSheafCap c.run) (all.foldl (thresherPush (pkSheafCap c.run)) thresherZero)).1

/-- A scored logit x with fp32_add(x, G) = y for a winner of which only y has been received: the one x that fits where there
is one, open among those that fit where rounding has made several one y (R235, R250, R256; log 62). -/
def logitOf (free : Nat) (g y : F32) : F32 :=
  let fits (x : F32) : Bool := fpAdd x g == y
  let x := fpSub y g
  if fits (Config.freeWord free) then Config.freeWord free else ([x, x + 1, x - 1].find? fits).getD x

/-- The scored logit of the winner of plain sampling: held by the shard whose winner it is, or by the merged sheaf; the
entry of another shard carries y, from which the token's own noise leads back to it (R235, R250 step 6; log 62). -/
def Cmd.winnerLogit (c : Cmd) (p : StripParams) (t free : Nat) (sheaf : List Cand) (w : Cand) : F32 :=
  match (c.exchangeAcc t).noisy.filter fun v => v.1.2 == w.2, sheaf.find? fun e => e.2 == w.2 with
  | some v, _ => v.2
  | none, some e => e.1
  | none, none => logitOf free (stepNoise p 0 w.2) w.1

/-- The selection of token `t` from the global root and sheaf (R250 step 6). -/
def Cmd.selectMerged (c : Cmd) (f : Field) (t free : Nat) (p : StripParams) (r : MZ) (es : List (Nat × Entry)) : Selection :=
  let sheaf := if c.sheafToken t then c.mergedSheaf f t (globalTau es) else []
  let full := decide ((es.map fun e => e.2.valid).sum > pkSheafCap c.run)
  let win := globalWinner es
  selectToken p (stepNoise p 0) r win (win.map fun w => (w, c.winnerLogit p t free sheaf w)) sheaf full

/-- The flags of a merged token: the OR of what all shards report (R253). -/
def mergedFlags (es : List (Nat × Entry)) : U32 :=
  es.foldl (fun (f : U32) (e : Nat × Entry) => f ||| (if e.2.narrow then rfNarrow else 0)
    ||| (if e.2.dropped then rfStoneDropped else 0) ||| (if e.2.stoneOff then rfStoneOff else 0)
    ||| (if e.2.scoreSat then rfScoreSat else 0)) 0

/-- A round-1 entry of a peer differs from the own strip's SOW_TAG or POS (R259). -/
def mismatched (own : Nat) (p : StripParams) (es : List (Nat × Entry)) : Bool :=
  es.any fun (e : Nat × Entry) => e.1 != own && (e.2.tag != p.sowTag || e.2.pos != p.pos)

/-- `n` tokens failed by a mismatch (R259, R263). -/
def State.countMismatch (s : State) (n : Nat) : State :=
  { s with shard := { s.shard with mismatch := s.shard.mismatch + BitVec.ofNat 16 n } }

/-- Merges strip-step `p`: a reason of its own stands, a mismatch or a peer's FAIL fails it, else it selects (R250,
R259). -/
def State.mergeStep (s : State) (c : Cmd) (f : Field) (p : StripStep) : State × StripStep :=
  let es := c.entries f p.idx
  if p.reason ≠ 0 then (s, p)
  else if mismatched f.shardId p.params es then
    ((s.countMismatch 1).unreserve p,
      { p with reason := stepCode .failedPart, reserved := 0 })
  else if es.any fun (e : Nat × Entry) => e.2.fail then (s.unreserve p, { p with reason := stepCode .failedPart, reserved := 0 })
  else match globalRoot es with
    | none => ((s.countSkip .allBanned p.tenant).unreserve p, { p with reason := stepCode .allBanned, reserved := 0 })
    | some r =>
      (s, p.take (c.selectMerged f p.idx (s.freeCtr + p.idx) p.params r es) (mergedFlags es) (c.work.amaxTok.getD p.idx fpZero))

/-! ### The end of a merge -/

/-- The step or the TRAIN_STEP ends with SHARD_FAILED (R259, R260, R262). -/
def State.endShards (s : State) (c : Cmd) : State :=
  match s.cmd c.ring c.seq with
  | none => s
  | some c =>
    let c := { c with work := { c.work with merge := { c.work.merge with done := true } } }
    (s.setCmd c).endWork c .shardFailed

/-- As `endShards`, by an abort or a timeout, which MERGES counts (R259, R263). -/
def State.failShards (s : State) (c : Cmd) : State :=
  ({ s with shard := { s.shard with merges := s.shard.merges + 1 } }).endShards c

/-- The exchange of a SAMPLE_STEP is over: its strip-steps select and its commit begins (R250 steps 6 and 7). -/
def State.endSampleMerge (s : State) (c : Cmd) (f : Field) : State :=
  let (s, ps) := c.work.steps.foldl (fun (a : State × List StripStep) p =>
    let (s, p) := a.1.mergeStep c f p
    (s, a.2 ++ [p])) (s, [])
  ({ s with freeCtr := s.freeCtr + ps.length }).setCmd { c with stage := .committing, work := { c.work with steps := ps } }

/-- Token `t` of a strip-bound HEAD_FWD fails by a mismatch (R259). -/
def Cmd.headMismatch (c : Cmd) (f : Field) (t : Nat) : Bool :=
  match c.exchangeParams t with
  | some p => !(c.ownEntry t).fail && mismatched f.shardId p (c.entries f t)
  | none => false

/-- The root of token `t` of a HEAD_FWD: open where a shard failed the token. -/
def Cmd.headRoot (c : Cmd) (f : Field) (t free : Nat) : Option MZ :=
  let es := c.entries f t
  if c.headMismatch f t || es.any fun (e : Nat × Entry) => e.2.fail then some ⟨Config.freeWord free, Config.freeWord (free + 1)⟩ else globalRoot es

/-- The reason code of token `t` of a sharded HEAD_FWD whose exchange is over: an empty root is none (R228, R254, R259). -/
def Cmd.headCode (c : Cmd) (f : Field) (t : Nat) : Nat :=
  if c.work.ue then stepCode .eccFault
  else if c.work.badSwath.isSome then stepCode .imageFault
  else if c.headMismatch f t || (c.entries f t).any fun (e : Nat × Entry) => e.2.fail then stepCode .failedPart
  else 0

/-- The exchange of a HEAD_FWD is over: its records hold the global statistics and its commit begins (R259, R261, R444). -/
def State.endHeadMerge (s : State) (c : Cmd) (f : Field) : State :=
  let ts := List.range c.work.tokens
  let roots := ts.map fun t => c.headRoot f t (s.freeCtr + 2 * t)
  let c := { c with work := { c.work with merge := { c.work.merge with codes := ts.map (c.headCode f) } } }
  let s := ({ s with freeCtr := s.freeCtr + 2 * c.work.tokens }).countMismatch (ts.filter (c.headMismatch f)).length
  let s := s.openCommit c c.reason
  if c.work.badSwath.isSome then s else s.writeStats c roots

/-- The target logit of token `t`: from the shard that owns the target (R262). -/
def targetLogit (es : List (Nat × Entry)) : F32 := ((es.find? fun (e : Nat × Entry) => e.2.owned).map fun e => e.2.y).getD fpZero

/-- The exchange of a TRAIN_STEP's pass is over: phase B goes on with the global statistics, unless a shard failed a
token (R259, R262). -/
def State.endTrainExchange (s : State) (c : Cmd) (f : Field) : State :=
  let es := c.exchangeTokens.map (c.entries f)
  if es.any fun l => l.any fun (e : Nat × Entry) => e.2.fail then s.endShards c
  else
    let c := c.tookStats (es.map fun l => ((globalRoot l).getD default, targetLogit l))
    let m := { c.work.merge with active := false, round := 0, got := c.work.merge.got.filter fun e => decide (c.work.pass < recPass e.2.2.2.2) }
    s.setCmd { c with work := { c.work with merge := m, train := { c.work.train with exchanged := true } } }

/-- Both rounds are complete. -/
def State.endExchange (s : State) (c : Cmd) (f : Field) : State :=
  if c.op = opTrain then s.endTrainExchange c f
  else
    let c := { c with work := { c.work with merge := { c.work.merge with done := true } } }
    let s := s.setCmd c
    (if c.op = opSample then s.endSampleMerge c f else s.endHeadMerge c f).endMergeOf c .ok

/-- Takes an exchange as far as the records at hand allow: an abort ends it; a complete round 1 sends round 2; a complete
round 2 ends it (R250, R260). `fuel` bounds its steps. -/
def State.pumpMerge (s : State) (r : Nat) (q : U32) : Nat → State
  | 0 => s
  | fuel + 1 =>
    match s.cmd r q with
    | none => s
    | some c =>
      let f := s.fieldOf c
      let m := c.work.merge
      if !m.active || m.done || c.stage == .committing || c.stage == .finished then s
      else if m.aborted then (if c.op = opTrain ∨ c.work.ended then s.failShards c else s)
      else if m.round = 2 ∧ c.roundDone f 1 then
        let s := s.sendRound c 2 (c.units2 fun t => globalTau (c.entries f t))
        (s.modCmd r q fun c => { c with work := { c.work with merge := { c.work.merge with round := 3 } } }).pumpMerge r q fuel
      else if m.round = 3 ∧ c.roundDone f 2 then s.endExchange c f
      else s

/-- Runs an exchange on. -/
def State.runMerge (s : State) (c : Cmd) : State := (s.pumpMerge c.ring c.seq 3).settle

/-! ### SHARD_MERGE (R359) -/

/-- The sharded command that a SHARD_MERGE names: dispatched, awaiting its merge, found by no other. -/
def State.mergeTarget (s : State) (m : Cmd) : Option Cmd :=
  s.cmds.find? fun c => c.awaitsMerge && !c.work.merge.active && pkField c.run == pkField m.run && pkStepTag c.run == le64 m.run 40

/-- The merge claims its step; with ABORT it sends an abort record and the step ends once its compute phase has. -/
def State.claim (s : State) (m c : Cmd) : State :=
  let abort := pktBit m.run 33 0
  let s := s.setCmd { m with
    started := true, stage := .running
    work := { m.work with merge := { m.work.merge with tgtRing := c.ring, tgtSeq := c.seq } } }
  let s := s.modCmd c.ring c.seq fun c =>
    { c with work := { c.work with merge := { c.work.merge with active := true, aborted := c.work.merge.aborted || abort } } }
  if abort then s.clearOut.sendAbort c else s.clearOut

/-- Dispatches a SHARD_MERGE: it finds its step, or completes with NO_STEP and sends nothing. -/
def shardMergeDo (s : State) (m : Cmd) : State :=
  let s := s.enqueue m
  match s.cmd m.ring m.seq with
  | none => s
  | some m =>
    match s.mergeTarget m with
    | none => (s.finish m .noStep bodyZero).settle
    | some c => (s.claim m c).settle

/-- SHARD_MERGE. -/
def execShardMerge (ring : Fin 64) (now : Time) (s : State) : Out :=
  .next (s.keep (s.onClass ring.val opMerge now shardMergeDo))

/-! ### MERGE_START (R250 step 1, R262) -/

/-- The sharded command whose exchange a SHARD_MERGE of the given ring and SEQ starts, or the TRAIN_STEP itself after
phase A of a pass. -/
def State.exchangeOf (s : State) (r : Nat) (q : U32) : Option Cmd :=
  match s.cmd r q with
  | none => none
  | some c =>
    if c.op = opMerge then (if c.started && c.stage == .running then s.cmd c.work.merge.tgtRing c.work.merge.tgtSeq else none)
    else if c.op = opTrain && pkShardEn c.run && c.active && c.stage == .running then some c else none

/-- The exchange may begin: the compute phase has ended, or phase A of a TRAIN_STEP's pass has. -/
def Cmd.mayExchange (c : Cmd) : Bool :=
  decide (c.work.merge.round ≤ 1) && !c.work.merge.done
    && (if c.op = opTrain then c.work.begun && c.work.phase == 2 && c.work.tile == 0 && c.work.sub == 0 && !c.work.train.exchanged
        else c.work.ended && c.stage != .committing && c.stage != .finished)

/-- Round 1 is sent and the round timeout runs; at sag level 3 nothing is sent and the exchange waits (R250, R259, R419).
A step that was aborted ends instead (R260). -/
def mergeStartDo (c : Cmd) (s : State) : State :=
  let m := c.work.merge
  let start := if m.round = 0 then s.timeNs else m.start
  let send := decide (s.energy.level.val < 3) && !m.aborted
  let m := { m with active := true, start := start, round := if send then 2 else 1 }
  let c := { c with work := { c.work with merge := m } }
  let s := s.setCmd c
  (if send then s.sendRound c 1 c.units1 else s).runMerge c

/-- MERGE_START. -/
def execMergeStart (ring : Fin 64) (seq : U32) (now : Time) (s : State) : Out :=
  let t := s.tick now
  .next (s.keep (if t.running && !t.halted && !t.fnReset 1 && !t.fnReset 7 then
    (match t.exchangeOf ring.val seq with
    | some c => if c.mayExchange then mergeStartDo c t.clearOut else t
    | none => t) else t))

/-! ### SHARD_RECORD (R257) -/

/-- A frame arrives: one of other than 4 beats is no record; a record is refused, taken into its step, or kept early (R257,
R394). -/
def shardRecordDo (b : List Byte) (s : State) : State :=
  let took (s : State) : State := { s with shard := { s.shard with recv := s.shard.recv + 1 } }
  let bad (s : State) : State := { s with shard := { s.shard with bad := s.shard.bad + 1 } }
  if b.length ≠ 256 ∨ !recordSound b then (bad s).bgEvent 13 (ceilDiv b.length 64)
  else match s.tagged (recTag b) with
  | some c =>
    let s := s.event c.ring c.seq 13 4
    if c.discards (s.fieldOf c) b then bad s else ((took s).takeRecord c b).runMerge c
  | none =>
    if s.taggedEnded (recTag b) then (bad s).bgEvent 13 4
    else (took { s with shard := { s.shard with early := s.shard.early ++ [b] } }).bgEvent 13 4

/-- The shard port takes frames: shd_i_tready is low while the early buffer is full (R257, R394, R419, R433). -/
def shardRecordOn (s : State) : Bool :=
  s.running && !s.halted && !s.fnReset 7 && decide (s.energy.level.val < 3) && decide (s.shard.early.length < 256)

/-- SHARD_RECORD. -/
def execShardRecord (bytes : List Byte) (now : Time) (s : State) : Out :=
  let t := s.tick now
  .next (s.keep (if shardRecordOn t then shardRecordDo bytes t.clearOut else t))

/-! ### SHARD_TIMEOUT (R259) -/

/-- A round is incomplete SHD_TIMEOUT microseconds after step 1. -/
def shardTimeoutOn (s : State) (r : Nat) (q : U32) : Option Cmd :=
  match s.exchangeOf r q with
  | some c =>
    let m := c.work.merge
    if s.running && !s.halted && m.active && !m.done && m.round != 0 && s.shard.timeoutUs != 0
        && decide ((s.timeNs - m.start).toNat ≥ s.shard.timeoutUs.toNat * 1000) then some c else none
  | none => none

/-- SHARD_TIMEOUT: an abort record is sent and the step fails. -/
def execShardTimeout (ring : Fin 64) (seq : U32) (now : Time) (s : State) : Out :=
  let t := s.tick now
  .next (s.keep (match shardTimeoutOn t ring.val seq with
    | some c => ((t.clearOut.sendAbort c).failShards c).settle
    | none => t))

end Sys2Proof.Machine
end

