-- ==== Sys2Proof/Machine/Context.lean ====
section
/-! DEFINITION. Context images (03_acre.md R87, R88; 05_stone_path.md R134; 13_command_reference.md R364 to R366;
16_faults_spares_pairs.md R437 to R439; 07_training_passes.md R161, R179): CTX_SAVE, the pause points of its target, and
CTX_RESTORE. The sections of an image are Elzan's own: the model keeps the command that it holds beside its bytes (log 8). -/

namespace Sys2Proof.Machine

/-! ### The packets (R364) -/

/-- TGT_RING. -/
def pkTgtRing (p : List Byte) : Nat := leNat p 32 1 % 64
/-- TGT_SEQ. -/
def pkTgtSeq (p : List Byte) : U32 := le32 p 36
/-- CTX_ADDR. -/
def pkCtxAddr (p : List Byte) : Nat := leNat p 40 8
/-- CTX_SIZE. -/
def pkCtxSize (p : List Byte) : Nat := leNat p 48 8

/-! ### The image (R437) -/

/-- IMAGE_BYTES of the n-th image. -/
def imageBytes (n : Nat) : Nat := 512 + (Config.ctxSections n).length

/-- The tiles of the phase before the next one (R437). -/
def Cmd.tileIndex (c : Cmd) (f : Field) : Nat :=
  ((List.range c.work.tile).map fun i =>
      let k := ({ c with work := { c.work with tile := i } }).unit f
      ceilDiv (c.unitCols f k) (c.tileWidth k)).sum
    + c.work.sub / c.tileWidth (c.unit f)

/-- The compute phase has not begun, in this run of the command or before a save (R437 CXFLAGS). -/
def Cmd.notBegun (c : Cmd) : Bool :=
  !c.work.begun && c.work.phase == 0 && c.work.pass == 0 && c.work.tile == 0 && c.work.sub == 0 && c.work.strand == 0

/-- The first token whose hidden state is not converted. -/
def Cmd.resumeToken (c : Cmd) : Nat := min c.work.tokens (c.work.convNext * c.work.s)

/-- CXFLAGS. -/
def State.imageFlags (s : State) (c : Cmd) (f : Field) : Nat :=
  let k := c.unit f
  flagBit (!c.notBegun && (s.tileMode c).narrow && !c.tileFp8 k) 1 + flagBit (!c.notBegun && (s.shedding c).2) 2
    + flagBit (c.work.strand == 0) 4 + flagBit c.notBegun 8

/-- The tensor table entry before the command (R437). -/
def State.amaxBeforeNow (s : State) (c : Cmd) : F32 :=
  if c.op ≠ opTrain then 0
  else if c.work.convNext = 0 ∧ !c.work.converting then tblGet 0 s.tensors (pkTensorId c.run)
  else c.work.train.amaxBefore

/-- Bytes 8 to 511 of the header. -/
def State.imageHeader (s : State) (c : Cmd) (size : Nat) : List Byte :=
  let f := s.fieldOf c
  let w := c.work
  let phase := if c.op = opTrain then max 1 w.phase else 0
  let head := leBytes 8 size ++ leBytes 1 c.op ++ leBytes 1 phase ++ leBytes 1 w.strand ++ leBytes 1 (s.imageFlags c f)
    ++ leBytes 4 w.pass ++ leBytes 4 w.s ++ leBytes 4 (c.tileIndex f) ++ leBytes 4 w.stoneNext ++ leBytes 4 c.resumeToken
  let field := leBytes 4 (f.v - 1) ++ leBytes 1 f.hk ++ leBytes 1 (flagBit f.rot 1) ++ leBytes 1 (f.eRow % 256).toNat
    ++ leBytes 1 (pkField c.run) ++ leBytes 4 (crc32c (leBytes 8 f.rotKey.toNat)).toNat
  let amax := leBytes 4 (s.amaxBeforeNow c).toNat ++ leBytes 4 (if c.op = opTrain then w.train.amaxGathered else 0).toNat
  padTo 248 (head ++ field ++ amax ++ leBytes 2 w.cEff ++ leBytes 1 w.f) ++ padTo 256 c.run

/-- The n-th image of a command (R437). -/
def State.imageOf (s : State) (c : Cmd) (n : Nat) : List Byte :=
  let body := s.imageHeader c (imageBytes n) ++ Config.ctxSections n
  leBytes 4 glbVersion.toNat ++ leBytes 4 (crc32c body).toNat ++ body

/-- The complete Seedbed contents of a command, by pass. -/
def State.seedsOf (s : State) (c : Cmd) : List SeedBuf :=
  let own := [s.seed0, s.seed1].filter fun b => b.complete && (match b.owner with
    | some (r, q, _) => r == c.ring && q == c.seq
    | none => false)
  let passOf (b : SeedBuf) : Nat := (b.owner.map fun e => e.2.2).getD 0
  let all := own ++ c.work.seeds
  match all with
  | [a, b] => if passOf b < passOf a then [b, a] else [a, b]
  | l => l

/-- A command as a save finds it: one that waits for its dispatch has its pass size from the C_eff in force. -/
def State.savedForm (s : State) (c : Cmd) : Cmd := if c.disp.isNone then c.prepared s.acre.cEff else c

/-- Forms the n-th image of a command and keeps what it holds. -/
def State.formImage (s : State) (c : Cmd) (n : Nat) : State × List Byte :=
  let c := s.savedForm c
  let b := s.imageOf c n
  ({ s with images := ⟨b, c, s.seedsOf c⟩ :: s.images.filter fun e => e.bytes != b }, b)

/-! ### CTX_SAVE (R365) -/

/-- A command that a save can take: fetched, not completed, its commit not begun. A HEAD_FWD whose merge runs has begun
its commit. -/
def Cmd.savable (c : Cmd) : Bool :=
  (c.op == opHeadFwd || c.op == opTrain) && c.stage != .committing && c.stage != .finished
    && !(c.op == opHeadFwd && c.work.merge.active)

/-- The target of a CTX_SAVE. -/
def State.ctxTarget (s : State) (c : Cmd) : Option Cmd :=
  match s.cmd (pkTgtRing c.run) (pkTgtSeq c.run) with
  | some d => if d.savable then some d else none
  | none => none

/-- The body of the record. -/
def ctxBody (c : Cmd) (size : Nat) : Body :=
  ⟨[(32, 8, size), (40, 1, pkTgtRing c.run), (44, 4, (pkTgtSeq c.run).toNat)], false, false⟩

/-- The target stands at a pause point and takes no further step; the image is written. It keeps the Acre until it ends with
SAVED (R14). -/
def State.saveImage (s : State) (c d : Cmd) : State :=
  let n := c.work.fill.base
  let s := s.modCmd d.ring d.seq fun d => { d with work := { d.work with pauseAsked := true } }
  let (s, b) := s.formImage d n
  (s.holdPart c 1).output c .ctxWrite 0 0 (pkCtxAddr c.run) b

/-- CTX_SAVE: its hold finds the target, asks it to pause, and once the image is written ends it with SAVED. -/
def ctxSaveDo (s : State) (c : Cmd) : State :=
  match c.stage with
  | .hold 0 => (match s.ctxTarget c with
    | some _ => s
    | none => s.ctlDone c .noContext (ctxBody c (imageBytes c.work.fill.base)))
  | .hold _ =>
    if s.writesOpen c.ring c.seq || s.writesOpen (pkTgtRing c.run) (pkTgtSeq c.run) then s
    else match s.ctxTarget c with
      | some d => (s.endCmd d .saved).ctlDone c .ok (ctxBody c (imageBytes c.work.fill.base))
      | none => s.ctlDone c .noContext (ctxBody c (imageBytes c.work.fill.base))
  | _ =>
    match s.ctxTarget c with
    | none => s.ctlDone c .noContext (ctxBody c 0)
    | some d =>
      let n := s.freeCtr
      let s := { s with freeCtr := n + 1 }
      let c := { c with work := { c.work with fill := { c.work.fill with base := n } } }
      if pkCtxSize c.run < imageBytes n then s.ctlDone c .ctxTooSmall (ctxBody c (imageBytes n))
      else
        let c := { c with stage := .hold 0, entered := s.timeNs }
        let s := s.setCmd c
        if d.work.begun ∧ !d.work.ended then
          s.modCmd d.ring d.seq fun d => { d with work := { d.work with pauseAsked := true } }
        else s.saveImage c d

/-- CTX_SAVE. -/
def execCtxSave (ring : Fin 64) (now : Time) (s : State) : Out :=
  .next (s.keep (s.onCtl ring.val opCtxSave now ctxSaveDo))

/-! ### CTX_PAUSE_REACHED (R87, R134) -/

/-- Stone entries issued before cycle `t` of a tile (R128). -/
def stonesIssued (t : Nat) : Nat → Nat → List Nat → Nat
  | _, _, [] => 0
  | k, used, c :: r =>
    let (k, used) := if used = 16 then (k + 1, 0) else (k, used)
    let (k, used) := if k < c + 1 then (c + 1, 0) else (k, used)
    if k < t then stonesIssued t k (used + 1) r + 1 else 0

/-- The strand at which the next tile starts (R87, R172). -/
def Cmd.strandStart (c : Cmd) (f : Field) (k : TileKind) : Nat :=
  match k with
  | .dw _ => (c.tileBlocks f k).1 / (dwBlocks c).2.2
  | _ => c.work.strand

/-- The strands of one slot: F, and 1 for dW (R69, R159). -/
def Cmd.slotStrands (c : Cmd) : TileKind → Nat
  | .dw _ => 1
  | _ => c.work.f

/-- Strand `p` is a slot end inside the next tile (R69, R87, R88). -/
def Cmd.slotEnd (c : Cmd) (f : Field) (k : TileKind) (p : Nat) : Bool :=
  let a := c.strandStart f k
  decide (a < p) && decide (p < c.strandEnd k) && (p - a) % c.slotStrands k == 0

/-- ACRE cycles from the start of the next tile to strand `p`, in E2M1 or FP8 (R88). -/
def Cmd.partCycles (c : Cmd) (f : Field) (k : TileKind) (fp8 : Bool) (p : Nat) : Nat :=
  let len := 16 * strandBlocks (c.tileK f k)
  ceilDiv (p - c.strandStart f k) (c.slotStrands k) * max (if fp8 then len else len / 4) (c.work.cEff / 64)

/-- Z of the outputs of a tile with `es` applied, column by column (R134). -/
def Cmd.stoneParts (c : Cmd) (f : Field) (k : TileKind) (es : List Stone) (cols : Nat) : List (List Rounded) :=
  let rows := tileRows c f k
  (List.range cols).map fun i => (List.range 1024).map fun r => stoneZ c (rows.getD r default) es i r

/-- Runs the next tile of `c` up to strand `p` and stops inside it (R87, R134); the part of an FP8 glean pass that lies before it
is counted now (R131, R136, R138). -/
def State.stopInside (s : State) (c : Cmd) (p : Nat) : State :=
  let f := s.fieldOf c
  let k := c.unit f
  let fp8 := c.tileFp8 k
  let t := c.partCycles f k fp8 p
  let extra := if fp8 then t - c.partCycles f k false p else 0
  let void := c.faultyRecord f k
  let chains := if void then [] else s.chainsTo c f k p
  let mode := s.shedding c
  let on := k.forward && pkStoneThr c.run != 0 && !mode.2
  let es := (s.tileStones c f k).drop c.work.stoneNext
  let es := if on then es.take (stonesIssued t 0 16 (es.map fun e => e.col.toNat)) else []
  let (a, _) := c.tileBlocks f k
  let n := (match k with
    | .dw _ => p * (dwBlocks c).2.2
    | _ => p * strandBlocks (c.tileK f k)) - a
  let cls := if fp8 then 1 else if (s.tileMode c).narrow then 2 else 0
  let w := c.tileWidth k
  let c := (((c.event cls (1024 * w * n)).event 3 (1024 * w * (p - c.strandStart f k))).event 4
    (match k with
    | .dw _ => 0
    | _ => tileWords (c.tileK f k) * (p - c.work.strand) / 64 + tapWords * es.length)).event 9 es.length
  let zs := if on then c.stoneParts f k es chains.length else c.work.zs
  let c := match k with
    | .dw u => c.modTrain fun x => { x with
      dw := (List.range chains.length).foldl (fun m i => tblSet [] m (u * 32768 + c.work.sub + i) (chains.getD i [])) x.dw }
    | _ => { c with work := { c.work with chains := chains } }
  let g := c.work.counts
  let s := { s with totals := { s.totals with gleanCyc := add32 s.totals.gleanCyc extra } }
  (s.setCmd { c with
    cycles := c.cycles + t
    work := { c.work with
      counts := { g with gleanCycles := g.gleanCycles + extra }
      strand := p, tileEnd := c.work.sub + c.tileCols k, zs := zs, stoneNext := c.work.stoneNext + es.length
      narrow := mode.1, shed := mode.2 } }).phaseCycles t

/-- The command on the Acre may stop at `strand`, a slot end of the tile that it runs (R69, R87). -/
def State.stopsAt (s : State) (d : Cmd) (strand : Nat) : Bool :=
  let f := s.fieldOf d
  s.acre.run == some (d.ring, d.seq) && s.acreUsable d && s.levelLets d && !s.acre.held && !d.tilesDone && s.tileReady d
    && d.slotEnd f (d.unit f) strand

/-- The CTX_SAVE that waits for this target to pause. -/
def State.saverOf (s : State) (d : Cmd) : Option Cmd :=
  s.cmds.find? fun c => c.op == opCtxSave && c.stage == .hold 0 && pkTgtRing c.run == d.ring && pkTgtSeq c.run == d.seq

/-- The target that may pause at `strand`: 0 where it stands, at a headland or off the Acre; another at a slot end of the
tile that it runs. -/
def ctxPauseOn (s : State) (r : Nat) (q : U32) (strand : Nat) : Option (Cmd × Cmd) :=
  match s.cmd r q with
  | some d =>
    if s.running && !s.halted && d.savable && d.work.begun && d.work.pauseAsked
        && (strand == 0 || s.stopsAt d strand)
    then (s.saverOf d).map fun c => (c, d) else none
  | none => none

/-- CTX_PAUSE_REACHED. -/
def ctxPauseDo (c d : Cmd) (strand : Nat) (s : State) : State :=
  let s := if strand = 0 then s else s.stopInside d strand
  match s.cmd d.ring d.seq with
  | some d => s.saveImage c d
  | none => s

/-- CTX_PAUSE_REACHED. -/
def execCtxPauseReached (ring : Fin 64) (seq : U32) (strand : Fin 64) (now : Time) (s : State) : Out :=
  let t := s.tick now
  .next (s.keep (match ctxPauseOn t ring.val seq strand.val with
    | some (c, d) => ctxPauseDo c d strand.val t
    | none => t))

/-! ### CTX_RESTORE (R366, R438, R439) -/

/-- IMAGE_BYTES of an image in memory. -/
def imgBytes (b : List Byte) : Nat := leNat b 8 8
/-- OPCODE. -/
def imgOp (b : List Byte) : Nat := leNat b 16 1
/-- PASS_TOKENS. -/
def imgTokens (b : List Byte) : Nat := leNat b 24 4
/-- RESUME_TOKEN. -/
def imgResume (b : List Byte) : Nat := leNat b 36 4
/-- PACKET. -/
def imgPacket (b : List Byte) : List Byte := (b.drop 256).take 256
/-- CXFLAGS bit 3: the compute phase has not begun. -/
def imgNotBegun (b : List Byte) : Bool := pktBit b 19 3

/-- The check value and the version of an image (R366). -/
def imageSound (b : List Byte) (size : Nat) : Bool :=
  decide (512 ≤ imgBytes b) && decide (imgBytes b ≤ size) && decide (b.length = imgBytes b)
    && le32 b 4 == crc32c (b.drop 8) && (leNat b 0 4) / 256 == glbVersion.toNat / 256
    && (imgOp b == opHeadFwd || imgOp b == opTrain)

/-- The field is READY as the image records it (R366, R438). -/
def fieldMatches (b : List Byte) (f : Field) : Bool :=
  f.state == 2 && leNat b 40 4 == f.v - 1 && leNat b 44 1 == f.hk && leNat b 45 1 == flagBit f.rot 1
    && leNat b 46 1 == (f.eRow % 256).toNat && le32 b 48 == crc32c (leBytes 8 f.rotKey.toNat)

/-- The first reason that refuses a restore (R366, R179). -/
def State.restoreReason (s : State) (b : List Byte) (size : Nat) : Option Reason :=
  if !imageSound b size then some .badContext
  else if !fieldMatches b (s.field (leNat b 47 1 % 8)) then some .badContext
  else if imgOp b = opTrain ∧ pkGradFp8 (imgPacket b) ≠ 0 ∧ s.acre.cEff < imgTokens b then some .restoreGeometry
  else none

/-- A restored command still takes a frame of the activation stream (R438). -/
def imageFrame (b : List Byte) : Bool := pkStreamSrc (imgPacket b) && decide (imgResume b < pkCount (imgPacket b))

/-- The command that an image holds: as this block wrote it, or open (log 8). -/
def State.imageHolds (s : State) (b : List Byte) : CtxImage := (s.images.find? fun e => e.bytes == b).getD (ctxDecode b)

/-- The work of a restored command (R438, R439). -/
def restoredWork (b : List Byte) (x : CtxImage) (f : Field) (r : Nat) (q : U32) : Work :=
  let w := x.cmd.work
  let s := imgTokens b
  { w with
    tokens := pkCount (imgPacket b), s := s, f := leNat b 62 1, cEff := leNat b 60 2, listsAsked := false
    biasNext := leNat b 20 4, rangeNext := leNat b 20 4, sliceNext := leNat b 20 4 * f.n + w.tile, frame := none, frameBad := none
    frameDone := !imageFrame b
    convNext := ceilDiv (imgResume b) s, converting := false, begun := false, ended := false
    pass := leNat b 20 4, strand := leNat b 18 1, stoneNext := leNat b 32 4
    phase := if imgNotBegun b ∨ imgOp b ≠ opTrain then 0 else leNat b 17 1
    steps := [], bound := none, staged := [], stageNext := leNat b 20 4 * f.n + w.tile, stageAsk := leNat b 20 4 * f.n + w.tile, seedBase := none
    seeds := x.seed.map fun e => { e with owner := e.owner.map fun o => (r, q, o.2.2) }
    badAddr := false, pauseAsked := false, merge := default
    train := { w.train with
      targets := [], amaxBefore := le32 b 52, amaxGathered := le32 b 56 } }

/-- The restored command takes the place of the CTX_RESTORE: its class, its packet, its work. A TRAIN_STEP writes its
tensor table entry back: AMAX_BEFORE, or the gathered maximum where nothing is left to convert (R160, R438). -/
def State.takeImage (s : State) (c : Cmd) (b : List Byte) : State :=
  let p := imgPacket b
  let f := s.field (leNat b 47 1 % 8)
  let w := restoredWork b (s.imageHolds b) f c.ring c.seq
  let (g, a) := poolNeed (imgOp b) p w.tokens w.s
  let d := { c with op := imgOp b, run := p, work := w, granules := g, allocs := a }
  let s := if imageFrame b then s
    else { s with streams := { s.streams with frames := s.streams.frames.filter fun e => !(e == (c.ring, c.seq)) } }
  let s := if imgOp b = opTrain then
    { s with tensors := tblSet 0 s.tensors (pkTensorId p) (if imgResume b < w.tokens then le32 b 52 else le32 b 56) } else s
  (((s.setCmd d).grantAtDispatch d).takeEarly d).settle

/-- Refuses a restore; the frame of a stream-sourced image is still discarded when it comes (R490). -/
def State.refuseImage (s : State) (c : Cmd) (b : List Byte) (r : Reason) : State :=
  let fr := s.streams.frames
  let t := s.refuse c r
  ((if imageFrame b then { t with streams := { t.streams with frames := fr } } else t)).settle

/-- A dispatched CTX_RESTORE whose reads have been answered takes its next part: the header has been read, then the whole
image. -/
def restorePart (s : State) (c : Cmd) : State :=
  let a := pkCtxAddr c.run
  let size := pkCtxSize c.run
  let head := s.bytes a (min size 512)
  let n := imgBytes head
  if c.work.fill.asked = 0 ∧ 512 < n ∧ n ≤ size then
    (s.modCmd c.ring c.seq fun c => { c with work := { c.work with fill := { c.work.fill with asked := 1 } } }).askRead
      .ctxRead c.ring c.seq 1 (a + 512) (n - 512)
  else
    let b := if n ≤ size then s.bytes a n else head
    match s.restoreReason b size with
    | some r => s.refuseImage c b r
    | none => s.takeImage c b

/-- The pass of a buffer's contents. -/
def SeedBuf.pass (b : SeedBuf) : Nat := (b.owner.map fun o => o.2.2).getD 0

/-- The Seedbed contents of a restored command that may take their buffer. -/
def State.seedWaits (s : State) (c : Cmd) : Bool :=
  isAcreOp c.op && c.active && c.started && !c.work.seeds.isEmpty && c.isAdmitted && s.levelLets c && !c.work.pauseAsked
    && !s.fnReset 2 && s.seedFree c (c.work.seeds.headD seedReset).pass

/-- The oldest Seedbed contents of a restored command go into their buffer. -/
def State.seedLoad (s : State) (c : Cmd) : State :=
  match c.work.seeds with
  | [] => s
  | b :: rest => ((s.modCmd c.ring c.seq fun c => { c with work := { c.work with seeds := rest } }).seedTake c b.pass b).settle

/-- CTX_RESTORE at its dispatch: it joins the order of the activation stream, and its header is read (R366, R438). -/
def ctxRestoreDo (s : State) (c : Cmd) : State :=
  let s := s.enqueue c
  (({ s with streams := { s.streams with frames := s.streams.frames ++ [(c.ring, c.seq)] } }).askRead .ctxRead c.ring c.seq 0
    (pkCtxAddr c.run) (min (pkCtxSize c.run) 512)).settle

/-- The CTX_RESTORE of ring `r` that goes on: dispatched, its reads answered. -/
def State.restoring (s : State) (r : Nat) : Option Cmd :=
  s.cmds.find? fun c => c.ring == r && c.active && c.op == opCtxRestore && !s.open r c.seq .ctxRead

/-- The restored command of ring `r` whose Seedbed contents find their buffer free. -/
def State.seeding (s : State) (r : Nat) : Option Cmd := s.cmds.find? fun c => c.ring == r && s.seedWaits c

/-- CTX_RESTORE on ring `r`: a restore under way goes on, else the ring's packet is dispatched. -/
def ctxRestoreStep (s : State) (r : Nat) : State :=
  match (if s.working ∧ !s.fnReset 4 then s.restoring r else none) with
  | some c => restorePart s c
  | none =>
    match (if s.working then s.seeding r else none) with
    | some c => s.seedLoad c
    | none =>
      match s.classFront r opCtxRestore with
      | some c => ctxRestoreDo s c
      | none => s

/-- CTX_RESTORE. -/
def execCtxRestore (ring : Fin 64) (now : Time) (s : State) : Out := .next (s.keep (ctxRestoreStep (s.tick now) ring.val))

end Sys2Proof.Machine
end

