-- ==== Sys2Proof/Machine/Supply.lean ====
section
/-! DEFINITION. The power-fail hold (15_energy_and_supply.md R420 to R422; 17_startup.md R462): POWER_FAIL_HOLD and
HELD. -/

namespace Sys2Proof.Machine

/-! ### The area (R422) -/

/-- The bytes of the area. -/
def State.areaSize (s : State) : Nat := s.energy.pfailKib.toNat * 1024

/-- The bytes of header, strips and ledgers. -/
def areaFixed (b : Build) : Nat := 4096 + stripCount b * 8448

/-- The area holds more than its header. -/
def State.areaFull (s : State) : Bool := decide (areaFixed s.build ≤ s.areaSize)

/-- The next multiple of 4,096. -/
def align4k (n : Nat) : Nat := (n + 4095) / 4096 * 4096

/-- A directory entry. -/
def dirEntry (e : Nat × U32 × Nat) : List Byte := leBytes 1 e.1 ++ zeros 3 ++ leBytes 4 e.2.1.toNat ++ leBytes 8 e.2.2

/-- The 4,096 bytes of the header. -/
def State.areaHeader (s : State) : List Byte :=
  let e := s.energy
  padTo 64 (leBytes 4 glbVersion.toNat ++ leBytes 4 (if s.areaFull then stripCount s.build else 0) ++ leBytes 8 s.timeNs.toNat
    ++ leBytes 8 (e.totCmd + e.totBg).toNat ++ leBytes 8 e.served.toNat ++ leBytes 8 e.trained.toNat
    ++ leBytes 4 e.pfailCtx.length ++ leBytes 4 e.pfailDropped)
  ++ ((List.range 256).map fun n => leBytes 4 ((s.tenant n).remain % 2 ^ 32).toNat).flatten
  ++ padTo 1024 (e.pfailCtx.map dirEntry).flatten ++ zeros 1984

/-- The address of the ledger of strip `n` in the area. -/
def State.areaLedger (s : State) (n : Nat) : Nat :=
  addrWrap (s.energy.pfailAddr.toNat + 4096 + stripCount s.build * 256 + 8192 * n)

/-- Strip images, then ledgers. -/
def State.areaStrips (s : State) : List Byte :=
  let ns := List.range (stripCount s.build)
  (ns.map fun n => if (s.strip n).valid then stripImage (s.strip n) (BitVec.ofNat 64 (s.areaLedger n)) else zeros 256).flatten
    ++ (ns.map fun n => padTo 8192 (ledgerBytes (s.strip n).ledger)).flatten

/-- Asks for a write of the area at offset `off` for the command of ring `r`; ring 64 stands for none. -/
def State.askArea (s : State) (r : Nat) (q : U32) (off : Nat) (b : List Byte) : State :=
  s.askWrite .pfail r q 0 (s.energy.pfailAddr.toNat + off) b

/-- Step 6: strips, ledgers and header; an area too small for them receives what it holds of the header (R420, R422). -/
def State.writeArea (s : State) : State :=
  let s := { s with energy := { s.energy with pfailArea := true } }
  let s := if s.areaFull then s.askArea 64 0 4096 s.areaStrips else s
  s.askArea 64 0 0 (s.areaHeader.take s.areaSize)

/-! ### Steps 1 to 5 (R420) -/

/-- Step 3 on one command: its image goes into the area while there is room; `off` is where the next one begins. -/
def State.pfailSave (s : State) (c : Cmd) (off : Nat) : State × Nat :=
  let n := s.freeCtr
  let len := imageBytes n
  let s := { s with freeCtr := n + 1 }
  if s.areaFull ∧ off + len ≤ s.areaSize ∧ s.energy.pfailCtx.length < 64 then
    let (s, b) := s.formImage c n
    let s := s.endCmd c .saved
    let s := { s with energy := { s.energy with pfailCtx := s.energy.pfailCtx ++ [(c.ring, c.seq, off)] } }
    (s.askArea c.ring c.seq off b, align4k (off + len))
  else ({ s.endCmd c .abortedReset with energy := { s.energy with pfailDropped := s.energy.pfailDropped + 1 } }, off)

/-- The commands to save, in dispatch order; those that wait for their dispatch follow in fetch order. -/
def State.pfailSavable (s : State) : List Cmd :=
  s.activeCmds.filter Cmd.savable ++ s.cmds.filter fun c => c.disp.isNone && c.savable

/-- Steps 4 and 5 on one command: a commit that has begun and a control command in its hold run on. -/
def State.pfailEnd (s : State) (c : Cmd) : State :=
  match c.stage with
  | .finished => s
  | .hold _ => s
  | .committing => if !c.work.steps.isEmpty && c.work.steps.all fun p => !p.asked then s.endWork c .abortedReset else s
  | _ => s.endCmd c .abortedReset

/-- Step 2: the Acre stops at its next pause point, slot end `strand` of the tile that it runs, or the headland where it stands
(R87). -/
def State.pfailStop (s : State) (strand : Nat) : State :=
  match s.onAcre with
  | some c => if s.stopsAt c strand then s.stopInside c strand else s
  | none => s

/-- Steps 1 to 5; source 7 is pending (R429). -/
def State.pfailBegin (s : State) (strand : Nat) : State :=
  let s := s.pfailStop strand
  let s := ({ s with energy := { s.energy with pfail := true } }).raise 7
  let s := s.abortFetch
  let s := match s.barrier with
    | some r => s.leaveBarrier r
    | none => s
  let s := (s.pfailSavable.foldl (fun (a : State × Nat) c => match a.1.cmd c.ring c.seq with
    | some c => a.1.pfailSave c a.2
    | none => a) (s, areaFixed s.build)).1
  s.cmds.foldl (fun s c => match s.cmds.find? fun d => d.order == c.order with
    | some c => s.pfailEnd c
    | none => s) s

/-- Commits and holds are over: every command has ended, but for merges that wait for their step's record (R360). -/
def State.pfailIdle (s : State) : Bool :=
  s.cmds.all fun c => c.stage == .finished || (c.op == opMerge && c.stage == .committing)

/-- POWER_FAIL_HOLD: before READY it ends the start; then steps 1 to 5, and step 6 as soon as commits and holds are over,
in this row or when it comes again. -/
def powerFailDo (strand : Nat) (s : State) : State :=
  if !s.boot.ready then s.bootFail 0x0E s.boot.stage
  else
    let s := if s.energy.pfail then s else s.pfailBegin strand
    (if s.energy.pfailArea || !s.pfailIdle then s else s.writeArea).settle

/-- POWER_FAIL_HOLD. -/
def execPowerFailHold (strand : Fin 64) (now : Time) (s : State) : Out :=
  let t := s.tick now
  let t := { t with pins := { t.pins with pfailLow := true } }
  .next (s.keep (if t.awake then powerFailDo strand.val t else t))

/-! ### HELD (R420 step 7) -/

/-- No record of ring `c.ring` can be written now: `c` is not its oldest, waits for something else, or finds its
completion ring full. -/
def State.recordStuck (s : State) (c : Cmd) : Bool :=
  !s.recordReady c || cplFull (s.ring c.ring) || s.cmds.any fun d => d.ring == c.ring && decide (d.order < c.order)

/-- The area and the records are written. -/
def heldOn (s : State) : Bool :=
  s.running && s.energy.pfail && s.energy.pfailArea && s.ranges.all (fun g => !g.write)
    && (s.halted || s.cmds.all fun c => !(s.ring c.ring).cplBusy && s.recordStuck c)

/-- HELD. -/
def execHeld (now : Time) (s : State) : Out :=
  let t := s.tick now
  .next (s.keep (if heldOn t then { t with energy := { t.energy with heldFlag := true } } else t))

end Sys2Proof.Machine
end

