-- ==== Sys2Proof/Machine/Barrier.lean ====
section
/-! DEFINITION. The release of the barrier (12_rings_and_gates.md R325 to R327): BARRIER_IN_HIGH dispatches the packet at
the barrier. -/

namespace Sys2Proof.Machine

/-- The dispatch of a STRIP_SET. -/
def stripSetDo (s : State) (c : Cmd) : State :=
  match pkStripMode c.run with
  | 1 => stripParamsDo s c
  | 2 => stripReleaseDo s c
  | _ => stripInstallDo s c

/-- The dispatch of a FW_SWAP. -/
def fwSwapDo (s : State) (c : Cmd) : State :=
  match pkFwAction c.run with
  | 1 => fwSwitchDo s c
  | 2 => fwLoadSwitchDo s c
  | _ => fwLoadDo s c

/-- The dispatch of a fill. -/
def fillDispatch (s : State) (c : Cmd) : State := (s.enqueue (c.prepared s.acre.cEff)).settle

/-- What the dispatch of a control command does, by opcode. -/
def ctlAction (op : Nat) : State → Cmd → State :=
  match op with
  | 0x00 => nopDo
  | 0x01 => fenceDo
  | 0x02 => gateWaitDo
  | 0x03 => gateSignalDo
  | 0x09 => evictHeadDo
  | 0x0C => stripSetDo
  | 0x0D => stripGetDo
  | 0x20 => ctxSaveDo
  | 0x28 => energySetDo
  | _ => fwSwapDo

/-- What the dispatch of a class command or a CTX_RESTORE does, by opcode. -/
def classAction (op : Nat) : State → Cmd → State :=
  match op with
  | 0x10 => sampleDo
  | 0x11 => verifyDo
  | 0x12 => queueDo
  | 0x13 => shardMergeDo
  | 0x18 => queueDo
  | 0x21 => ctxRestoreDo
  | _ => fillDispatch

/-- Dispatches the released packet of ring `r`, if it can be dispatched now. -/
def State.dispatchNow (s : State) (r : Nat) : State :=
  match s.waiting r with
  | none => s
  | some c =>
    if isClassOp c.op || c.op == opCtxRestore then
      (match s.classFront r c.op with
      | some c => classAction c.op s c
      | none => s)
    else
      match s.ctlFront r c.op with
      | some c => ctlAction c.op s c
      | none => s

/-- barrier_in is high: the packet at the barrier is released and dispatched (R325 step 4). -/
def barrierHighDo (s : State) : State :=
  match s.barrier with
  | none => s
  | some r =>
    let s := match s.waiting r with
      | some c => s.setCmd { c with joined := true }
      | none => s
    ((s.leaveBarrier r).markTurns).dispatchNow r

/-- BARRIER_IN_HIGH. -/
def execBarrierInHigh (now : Time) (s : State) : Out :=
  let t := s.tick now
  let t := { t with pins := { t.pins with barrierIn := true } }
  .next (s.keep (if t.awake then barrierHighDo t else t))

end Sys2Proof.Machine
end

