-- ==== Sys2Proof/Machine/Responses.lean ====
section
/-! DEFINITION. The rows that bring a response on a stack port (14_ports.md R373, R379 to R381, R385): the answer ends its
transfer, what waited for it goes on, a reset of the command processor that waited for a commit takes effect
(16_faults_spares_pairs.md R434), and a waiting probe takes the request cycle. -/

namespace Sys2Proof.Machine

/-- What follows a response. -/
def State.answered (s : State) : State := s.afterCommit.probeIssue

/-- READ_RESPONSE (R373). -/
def execReadResponse (port : Fin 24) (tag : BitVec 10) (beat : BitVec 3) (last : Bool) (code : RspCode) (data : List Byte)
    (now : Time) (s : State) : Out :=
  let t := s.tick now
  if !t.portLive port.val then .next (s.keep t)
  else match t.xfer port.val tag.toNat with
    | none => .next (s.keep (t.protoError port.val 2))
    | some x =>
      if x.op ≠ 0 ∨ beat.toNat ≠ x.seen ∨ last ≠ decide (x.seen + 1 = x.beats) then .next (s.keep (t.protoError port.val 3))
      else
        let m := beatMem s.mem x code data
        .next (s.keepMem m ({ t with mem := m }.takeBeat x code).answered)

/-- WRITE_RESPONSE (R373). -/
def execWriteResponse (port : Fin 24) (tag : BitVec 10) (beat : BitVec 3) (last : Bool) (code : RspCode) (now : Time)
    (s : State) : Out :=
  let t := s.tick now
  if !t.portLive port.val then .next (s.keep t)
  else match t.xfer port.val tag.toNat with
    | none => .next (s.keep (t.protoError port.val 2))
    | some x =>
      if x.op = 0 ∨ beat ≠ 0 ∨ last = false then .next (s.keep (t.protoError port.val 4))
      else
        let m := ackMem s.mem x code
        .next (s.keepMem m ({ t with mem := m }.takeAck x code).answered)

/-- The probe's transfer. -/
def State.probeXfer (s : State) : Option Xfer := s.xfers.find? fun x => x.range.kind == .probe

/-- Memory after the probe's response: a read's word, or the word as written or added (R372, R385). -/
def probeMem (m : List Host.Cell) (x : Xfer) (code : RspCode) (data : U64) : List Host.Cell :=
  if x.op = 0 then (if code = .ok then memWriteBytes m x.range.addr (leBytes 8 data.toNat) else m) else ackMem m x code

/-- The probe is on its way and its port takes responses. -/
def prtProbeResponseOn (s : State) : Option Xfer :=
  match s.probeXfer with
  | some x => if s.portLive x.port then some x else none
  | none => none

/-- PRT_PROBE_RESPONSE (R385): the probe's own response, in the form that R373 gives it. -/
def execPrtProbeResponse (code : RspCode) (data : U64) (now : Time) (s : State) : Out :=
  let t := s.tick now
  match prtProbeResponseOn t with
  | none => .next (s.keep t)
  | some x =>
    let m := probeMem s.mem x code data
    let t := { t with mem := m }
    .next (s.keepMem m (if x.op = 0 then t.takeBeat x code else t.takeAck x code).answered)

end Sys2Proof.Machine
end

