-- ==== Sys2Proof/Machine/TestAccess.lean ====
section
/-! DEFINITION. The TAP (14_ports.md R402): its controller, its instruction register and data registers, and the self-test
instruments of its IJTAG network. -/

namespace Sys2Proof.Machine

/-- The state of the IEEE 1149.1 controller after a rising edge of tck with tms. -/
def TapState.next (t : TapState) (tms : Bool) : TapState :=
  match t, tms with
  | .reset, true => .reset
  | .reset, false => .idle
  | .idle, true | .updateDr, true | .updateIr, true => .selectDr
  | .idle, false | .updateDr, false | .updateIr, false => .idle
  | .selectDr, true => .selectIr
  | .selectDr, false => .captureDr
  | .captureDr, true | .shiftDr, true => .exit1Dr
  | .captureDr, false | .shiftDr, false | .exit2Dr, false => .shiftDr
  | .exit1Dr, true | .exit2Dr, true => .updateDr
  | .exit1Dr, false | .pauseDr, false => .pauseDr
  | .pauseDr, true => .exit2Dr
  | .selectIr, true => .reset
  | .selectIr, false => .captureIr
  | .captureIr, true | .shiftIr, true => .exit1Ir
  | .captureIr, false | .shiftIr, false | .exit2Ir, false => .shiftIr
  | .exit1Ir, true | .exit2Ir, true => .updateIr
  | .exit1Ir, false | .pauseIr, false => .pauseIr
  | .pauseIr, true => .exit2Ir

/-- The bits of a register, the one that leaves first in front. -/
def bitsOf (n w : Nat) : List Bool := (List.range n).map fun i => w / 2 ^ i % 2 == 1

/-- The number that bits spell, the first of them in bit 0. -/
def ofBits (l : List Bool) : Nat := l.foldr (fun b n => 2 * n + b.toNat) 0

/-- What the data register of instruction `ir` holds when it is captured: BLOCK_ID, BUILD_ID, the IJTAG network, whose
readback of the spare maps lies in an order of its own, or the bit of BYPASS, as which every other code acts (R402; log 81). -/
def State.tapData (s : State) (ir : Byte) : List Bool :=
  if ir = 0x01 then bitsOf 32 glbVersion.toNat
  else if ir = 0x02 then bitsOf 32 (glbBuild s.build).toNat
  else if ir = 0x10 then Config.ijtagNetwork s.acre.spareCol s.acre.spareRow s.granary.spare
  else [false]

/-- One cycle of tck: the controller captures or shifts in the state that it stands in and moves on; the instruction is
updated, and tdo driven while a register is shifted, after the falling edge (R402). -/
def State.tapClock (s : State) (tms tdi : Bool) : Tap :=
  let t := s.tap
  let shift := match t.state with
    | .captureDr => s.tapData t.ir
    | .captureIr => bitsOf 8 1
    | .shiftDr | .shiftIr => t.shift.tail ++ [tdi]
    | _ => t.shift
  let state := t.state.next tms
  { state := state, shift := shift
    ir := match state with
      | .reset => 0xFF
      | .updateIr => BitVec.ofNat 8 (ofBits shift)
      | _ => t.ir
    tdo := match state with
      | .shiftDr | .shiftIr => shift.headD false
      | _ => false }

/-- IJTAG_SELF_TEST_INSTRUMENT (R402, R403): the TAP is reset or clocked; an instrument of the selected IJTAG network runs
and takes the block out of operation. -/
def execIjtagSelfTestInstrument (ev : TapEvent) (s : State) : Out :=
  .next (match ev with
    | .trst => s.keep { s with tap := tapReset }
    | .clock tms tdi => s.keep { s with tap := s.tapClock tms tdi }
    | .run => if s.tap.ir = 0x10 then s.keepMem (openMem s.freeCtr) (s.lose s.pins.wrapper) else s.keep s)

end Sys2Proof.Machine
end

