-- ==== Sys2Proof/Machine/Dispatch.lean ====
section
/-! DEFINITION. One arm per command: the meaning of each row of the opcode table. -/

namespace Sys2Proof.Machine

/-- The effect of a command on everything but the queue. -/
def exec (i : Instr) (s : State) : Host.Outcome State Fault Refusal :=
  match i with
  | .nop ring now => Sys2Proof.Machine.execNop ring now s
  | .fence ring now => Sys2Proof.Machine.execFence ring now s
  | .gateWait ring now => Sys2Proof.Machine.execGateWait ring now s
  | .gateSignal ring now => Sys2Proof.Machine.execGateSignal ring now s
  | .loadHead ring seq n now => Sys2Proof.Machine.execLoadHead ring seq n now s
  | .evictHead ring now => Sys2Proof.Machine.execEvictHead ring now s
  | .stripSetInstall ring now => Sys2Proof.Machine.execStripSetInstall ring now s
  | .stripSetParams ring now => Sys2Proof.Machine.execStripSetParams ring now s
  | .stripSetRelease ring now => Sys2Proof.Machine.execStripSetRelease ring now s
  | .stripGet ring now => Sys2Proof.Machine.execStripGet ring now s
  | .sampleStep ring now => Sys2Proof.Machine.execSampleStep ring now s
  | .verifyTree ring now => Sys2Proof.Machine.execVerifyTree ring now s
  | .headFwd ring now => Sys2Proof.Machine.execHeadFwd ring now s
  | .shardMerge ring now => Sys2Proof.Machine.execShardMerge ring now s
  | .trainStep ring now => Sys2Proof.Machine.execTrainStep ring now s
  | .update ring seq n now => Sys2Proof.Machine.execUpdate ring seq n now s
  | .updateSqsum ring seq now => Sys2Proof.Machine.execUpdateSqsum ring seq now s
  | .updateResume ring seq n now => Sys2Proof.Machine.execUpdateResume ring seq n now s
  | .sowFill ring seq n now => Sys2Proof.Machine.execSowFill ring seq n now s
  | .ctxSave ring now => Sys2Proof.Machine.execCtxSave ring now s
  | .ctxRestore ring now => Sys2Proof.Machine.execCtxRestore ring now s
  | .energySet ring now => Sys2Proof.Machine.execEnergySet ring now s
  | .fwSwapLoad ring now => Sys2Proof.Machine.execFwSwapLoad ring now s
  | .fwSwapSwitch ring now => Sys2Proof.Machine.execFwSwapSwitch ring now s
  | .fwSwapLoadSwitch ring now => Sys2Proof.Machine.execFwSwapLoadSwitch ring now s
  | .doorbell ring tail => Sys2Proof.Machine.execDoorbell ring tail s
  | .ringRestart ring => Sys2Proof.Machine.execRingRestart ring s
  | .ringCfgWrite ring reg v => Sys2Proof.Machine.execRingCfgWrite ring reg v s
  | .cplHeadWrite ring v => Sys2Proof.Machine.execCplHeadWrite ring v s
  | .gateWrite gate v => Sys2Proof.Machine.execGateWrite gate v s
  | .arbRingCommit => Sys2Proof.Machine.execArbRingCommit s
  | .arbRingSeed v => Sys2Proof.Machine.execArbRingSeed v s
  | .arbRingTktWrite n v => Sys2Proof.Machine.execArbRingTktWrite n v s
  | .arbMvrCommit => Sys2Proof.Machine.execArbMvrCommit s
  | .arbMvrSeed v => Sys2Proof.Machine.execArbMvrSeed v s
  | .arbMvrTktWrite n v => Sys2Proof.Machine.execArbMvrTktWrite n v s
  | .sowProbeGo => Sys2Proof.Machine.execSowProbeGo s
  | .sowProbeDone => Sys2Proof.Machine.execSowProbeDone s
  | .winFnGo v => Sys2Proof.Machine.execWinFnGo v s
  | .winFnDone => Sys2Proof.Machine.execWinFnDone s
  | .prtProbeGo v now => Sys2Proof.Machine.execPrtProbeGo v now s
  | .prtProbeResponse code data now => Sys2Proof.Machine.execPrtProbeResponse code data now s
  | .portOosWrite port v => Sys2Proof.Machine.execPortOosWrite port v s
  | .tenAdj n v => Sys2Proof.Machine.execTenAdj n v s
  | .tenWindowWrite n v now => Sys2Proof.Machine.execTenWindowWrite n v now s
  | .grnSpareBankWrite g v => Sys2Proof.Machine.execGrnSpareBankWrite g v s
  | .acrSpareWrite row n v => Sys2Proof.Machine.execAcrSpareWrite row n v s
  | .fltResetWrite port v now => Sys2Proof.Machine.execFltResetWrite port v now s
  | .pairEn v => Sys2Proof.Machine.execPairEn v s
  | .detach v now => Sys2Proof.Machine.execDetach v now s
  | .takeover v now => Sys2Proof.Machine.execTakeover v now s
  | .perfSnap release now => Sys2Proof.Machine.execPerfSnap release now s
  | .perfRelease => Sys2Proof.Machine.execPerfRelease s
  | .go => Sys2Proof.Machine.execGo s
  | .loReadLatch addr now => Sys2Proof.Machine.execLoReadLatch addr now s
  | .registerWrite addr data strb now => Sys2Proof.Machine.execRegisterWrite addr data strb now s
  | .rstNAssert => Sys2Proof.Machine.execRstNAssert s
  | .rstNRelease => Sys2Proof.Machine.execRstNRelease s
  | .pllBLock => Sys2Proof.Machine.execPllBLock s
  | .pllALock => Sys2Proof.Machine.execPllALock s
  | .selfTestDone result => Sys2Proof.Machine.execSelfTestDone result s
  | .paramsRead now => Sys2Proof.Machine.execParamsRead now s
  | .firmwareRead now => Sys2Proof.Machine.execFirmwareRead now s
  | .fwReady now => Sys2Proof.Machine.execFwReady now s
  | .startStageTimeout port => Sys2Proof.Machine.execStartStageTimeout port s
  | .fnRstAssert fn src now => Sys2Proof.Machine.execFnRstAssert fn src now s
  | .fnRstRelease fn => Sys2Proof.Machine.execFnRstRelease fn s
  | .fnResetDone fn now => Sys2Proof.Machine.execFnResetDone fn now s
  | .stkPortReset port low now => Sys2Proof.Machine.execStkPortReset port low now s
  | .stkDrained port high => Sys2Proof.Machine.execStkDrained port high s
  | .stkUp port => Sys2Proof.Machine.execStkUp port s
  | .reqCreditReturn port now => Sys2Proof.Machine.execReqCreditReturn port now s
  | .wdCreditReturn port now => Sys2Proof.Machine.execWdCreditReturn port now s
  | .readResponse port tag beat last code data now => Sys2Proof.Machine.execReadResponse port tag beat last code data now s
  | .writeResponse port tag beat last code now => Sys2Proof.Machine.execWriteResponse port tag beat last code now s
  | .transferTimeout port tag now => Sys2Proof.Machine.execTransferTimeout port tag now s
  | .moverTransferIssue mover port tag cycles now => Sys2Proof.Machine.execMoverTransferIssue mover port tag cycles now s
  | .moverPowerDown mover => Sys2Proof.Machine.execMoverPowerDown mover s
  | .moverPowerUp mover => Sys2Proof.Machine.execMoverPowerUp mover s
  | .fetchRetry ring now => Sys2Proof.Machine.execFetchRetry ring now s
  | .cplWriteRetry ring now => Sys2Proof.Machine.execCplWriteRetry ring now s
  | .ringDraw cycles short => Sys2Proof.Machine.execRingDraw cycles short s
  | .packetFetch ring now => Sys2Proof.Machine.execPacketFetch ring now s
  | .gateTimeout ring now => Sys2Proof.Machine.execGateTimeout ring now s
  | .barrierInHigh now => Sys2Proof.Machine.execBarrierInHigh now s
  | .cutOff ring now => Sys2Proof.Machine.execCutOff ring now s
  | .energyAdmit ring seq => Sys2Proof.Machine.execEnergyAdmit ring seq s
  | .poolGrant => Sys2Proof.Machine.execPoolGrant s
  | .harrowConvert ring seq ttUe => Sys2Proof.Machine.execHarrowConvert ring seq ttUe s
  | .conversionDone ring seq => Sys2Proof.Machine.execConversionDone ring seq s
  | .actFrame bytes badKeep now => Sys2Proof.Machine.execActFrame bytes badKeep now s
  | .acreSelect now => Sys2Proof.Machine.execAcreSelect now s
  | .acreTile fault ce now => Sys2Proof.Machine.execAcreTile fault ce now s
  | .tileHoldRelease now => Sys2Proof.Machine.execTileHoldRelease now s
  | .stagingSwath ring seq => Sys2Proof.Machine.execStagingSwath ring seq s
  | .computePhaseEnd now => Sys2Proof.Machine.execComputePhaseEnd now s
  | .stripCommit ring seq times => Sys2Proof.Machine.execStripCommit ring seq times s
  | .resultRecordsWritten ring seq now => Sys2Proof.Machine.execResultRecordsWritten ring seq now s
  | .completionWritten ring now => Sys2Proof.Machine.execCompletionWritten ring now s
  | .ctxPauseReached ring seq strand now => Sys2Proof.Machine.execCtxPauseReached ring seq strand now s
  | .mergeStart ring seq now => Sys2Proof.Machine.execMergeStart ring seq now s
  | .shardRecord bytes now => Sys2Proof.Machine.execShardRecord bytes now s
  | .shardTimeout ring seq now => Sys2Proof.Machine.execShardTimeout ring seq now s
  | .resSegmentSend now => Sys2Proof.Machine.execResSegmentSend now s
  | .scrubStep bank word found superseded => Sys2Proof.Machine.execScrubStep bank word found superseded s
  | .migrationCopyDone g corrected poisoned => Sys2Proof.Machine.execMigrationCopyDone g corrected poisoned s
  | .ledgerLost word now => Sys2Proof.Machine.execLedgerLost word now s
  | .fwBankUe word now => Sys2Proof.Machine.execFwBankUe word now s
  | .stripLost strip ledger word now => Sys2Proof.Machine.execStripLost strip ledger word now s
  | .tenantWindowTurn n now => Sys2Proof.Machine.execTenantWindowTurn n now s
  | .ledgerTick now bg barn barnCe => Sys2Proof.Machine.execLedgerTick now bg barn barnCe s
  | .epochTurn now => Sys2Proof.Machine.execEpochTurn now s
  | .telemetrySample mw now => Sys2Proof.Machine.execTelemetrySample mw now s
  | .sagLevelRise sagN now => Sys2Proof.Machine.execSagLevelRise sagN now s
  | .sagLevelFall now => Sys2Proof.Machine.execSagLevelFall now s
  | .powerFailHold strand now => Sys2Proof.Machine.execPowerFailHold strand now s
  | .held now => Sys2Proof.Machine.execHeld now s
  | .timeFault input => Sys2Proof.Machine.execTimeFault input s
  | .pairHello h role version build fwVersion fwCrc => Sys2Proof.Machine.execPairHello h role version build fwVersion fwCrc s
  | .pairFailing h now => Sys2Proof.Machine.execPairFailing h now s
  | .pairDetachFrame h => Sys2Proof.Machine.execPairDetachFrame h s
  | .pairDigest h entry now => Sys2Proof.Machine.execPairDigest h entry now s
  | .pairStateDispatch h entry now => Sys2Proof.Machine.execPairStateDispatch h entry now s
  | .pairStateCheck h entry => Sys2Proof.Machine.execPairStateCheck h entry s
  | .pairStateCommit h entry => Sys2Proof.Machine.execPairStateCommit h entry s
  | .pairStateProgress h entry => Sys2Proof.Machine.execPairStateProgress h entry s
  | .pairIdle h type => Sys2Proof.Machine.execPairIdle h type s
  | .pairCredit => Sys2Proof.Machine.execPairCredit s
  | .pairResend => Sys2Proof.Machine.execPairResend s
  | .pairIdleSend => Sys2Proof.Machine.execPairIdleSend s
  | .pairLinkDown => Sys2Proof.Machine.execPairLinkDown s
  | .barrierInLow => Sys2Proof.Machine.execBarrierInLow s
  | .apbInterfaceReset => Sys2Proof.Machine.execApbInterfaceReset s
  | .wrapperInstructionUpdate ins => Sys2Proof.Machine.execWrapperInstructionUpdate ins s
  | .ijtagSelfTestInstrument ev => Sys2Proof.Machine.execIjtagSelfTestInstrument ev s
  | .supplyRemoved island => Sys2Proof.Machine.execSupplyRemoved island s

end Sys2Proof.Machine
end

