-- ==== Sys2Proof/Safety.lean ====
section
/-! DEFINITION. The terms in which statements about Elzan are made: when the block takes register writes and runs, what a
command's end records, what stands still while dispatched commands advance by themselves, and the invariant of the
memory. -/

namespace Sys2Proof.Machine

/-- The block answers a write of a register that exists from READY on by performing it: it is powered, not HELD, READY
and not halted (14_ports.md R387; 15_energy_and_supply.md R421; 16_faults_spares_pairs.md R430; 17_startup.md R454). -/
def State.serves (s : State) : Prop := s.awake = true ∧ s.boot.ready = true ∧ s.halted = false

/-- READY and not halted. -/
def State.live (s : State) : Prop := s.running = true ∧ s.halted = false

/-- The APB transfer is answered without PSLVERR, with PRDATA 0 (R387). -/
def apbDone : Apb := ⟨0, true, false⟩

/-- The APB transfer is answered with PSLVERR (R387). -/
def apbErr : Apb := ⟨0, true, true⟩

/-- The packet with fetch order `o` is among the fetched, uncompleted ones, and every packet with that order has the
property `P`. In a state that a run reaches a fetch order names one packet. -/
def State.holds (s : State) (o : Nat) (P : Cmd → Prop) : Prop :=
  (∃ d ∈ s.cmds, d.order = o) ∧ ∀ d ∈ s.cmds, d.order = o → P d

/-- A packet has ended with reason `r` and the body `b` of its completion record (12_rings_and_gates.md R316 to R318). -/
def Cmd.endedWith (r : Reason) (b : List Byte) (d : Cmd) : Prop := d.stage = .finished ∧ d.reason = r ∧ d.body = b

/-- A packet has been dispatched with dispatch order `n` (R313). -/
def Cmd.dispatchedAs (n : Nat) (d : Cmd) : Prop := d.disp = some n

/-- What stands still while dispatched commands advance by themselves (`State.settle`): the state with everything that
may move then set to fixed values. What may move is the commands and what their start and end touch: the barrier, the
command on the Acre, the Seedbed, the pool's free granules, the frames awaited, the movers' queues, the rings' records in
progress, the tenants' reservations, the energy accounts, the pair and the pending interrupt sources. -/
def State.still (s : State) : State :=
  { s with
    cmds := [], barrier := none, queue := [], rings := [], tenants := [], seed0 := seedReset, seed1 := seedReset
    pins := { s.pins with barrierOut := false }
    acre := { s.acre with run := none, held := false }
    barn := { s.barn with poolFree := 0 }
    streams := { s.streams with frames := [] }
    flt := { s.flt with pend := 0 }
    pair := (State.ofBuild s.build []).pair
    energy := { s.energy with
      spent := 0, genSpent := 0, sampleAccrued := 0, carry := 0, totCmd := 0, totClass := [], bgEvents := [] } }

/-- The block is no member of a pair and does not hold for one: it is on its own (R441, R448). -/
def State.solo (s : State) : Prop := s.pair.state ≠ 2 ∧ s.pair.holding = false

/-- A ring without the mark of a record in progress. -/
def State.ringStill (s : State) (r : Nat) : Ring := { s.ring r with cplBusy := false }

/-- A tenant without what is reserved of it. -/
def State.tenantStill (s : State) (n : Nat) : Tenant := { s.tenant n with reserved := 0 }

/-- The two states differ in nothing that stands still. -/
def State.sameStill (s t : State) : Prop :=
  t.still = s.still ∧ (∀ r, t.ringStill r = s.ringStill r) ∧ ∀ n, t.tenantStill n = s.tenantStill n

/-- The invariant of the memory behind the stack ports: its canonical form. -/
def State.memOk (s : State) : Prop := Memory.wf s.mem = true

/-- A byte of memory as the block sees it. -/
def State.byte (s : State) (a : Nat) : Byte := memRead s.mem a

/-- The rows that take the block out of operation (R402, R403). -/
def leavesOperation : Instr → Bool
  | .wrapperInstructionUpdate ins => ins != .bypass
  | .ijtagSelfTestInstrument ev => ev == .run
  | _ => false

/-- The rows that act on a block out of operation: rst_n, the wrapper, the TAP and the supplies (R402, R403). -/
def reachesLostBlock : Instr → Bool
  | .rstNAssert | .wrapperInstructionUpdate .. | .ijtagSelfTestInstrument .. | .supplyRemoved .. => true
  | _ => false

/-- `t` is the block `s` out of operation under wrapper instruction `ins`: its functional state is open (R403; log 5), and
what is no part of it stays: the TAP, the commands that wait, the levels at its inputs. -/
def State.outOfOperation (s : State) (ins : WrapperIns) (t : State) : Prop :=
  t = { undefinedState s.freeCtr with
    build := s.build, pending := s.pending, freeCtr := s.freeCtr + 1, outOfOp := true, images := s.images, tap := s.tap
    apb := t.apb, pins := t.pins, mem := t.mem } ∧
  t.pins = { s.pins with wrapper := ins, barrierOut := t.pins.barrierOut }

/-- The rows that bring the answer of a transfer to memory, or take the block out of operation (R372, R373, R385, R402,
R403; log 4, log 5): every other row leaves memory as it was. -/
def bringsMemory : Instr → Bool
  | .readResponse .. | .writeResponse .. | .prtProbeResponse .. => true
  | i => leavesOperation i

/-- The rows that write one register which exists from READY on, none of them a fault register (R387, R430, R454). -/
def isReadyWrite : Instr → Bool
  | .doorbell .. | .ringRestart .. | .ringCfgWrite .. | .cplHeadWrite .. | .gateWrite .. | .arbRingCommit | .arbRingSeed ..
  | .arbRingTktWrite .. | .arbMvrCommit | .arbMvrSeed .. | .arbMvrTktWrite .. | .sowProbeGo | .winFnGo .. | .prtProbeGo ..
  | .portOosWrite .. | .tenAdj .. | .tenWindowWrite .. | .grnSpareBankWrite .. | .acrSpareWrite .. | .pairEn .. | .detach ..
  | .takeover .. | .perfSnap .. | .perfRelease => true
  | _ => false

/-- The grant of the command processor after a step that reads no packet: it ends once its ring has stopped requesting
(R330). -/
def grantGoesOn (u t : State) : Prop :=
  t.arb.grant = match u.arb.grant with
    | some e => if u.arb.fetching = 0 ∧ t.keepsGrant e.1 = false then none else some e
    | none => none

/-- A port with the grant of another. -/
def Port.withGrant (p q : Port) : Port := { p with grant := q.grant }

/-- The grants of the ports after a step that issues nothing: a grant ends once its mover has stopped requesting its port
(R384). -/
def grantsGoOn (u t : State) : Prop :=
  ∀ k, (t.port k).grant = match (u.port k).grant with
    | some e => if k < 24 ∧ (t.moverPiece e.1 k).isNone then none else some e
    | none => none

/-- What a reset of port `k` gives back to the movers at once (R382 step 3): its reads, and while stk_k_drained is high its
writes and those that have waited for it. -/
def State.givenBack (s : State) (k : Nat) : List Range :=
  (if s.pins.drained.getLsbD k then
    ((s.drainWait.filter fun x => x.port == k) ++ s.xfers.filter fun x => x.port == k && x.op == 1).map Xfer.range else []) ++
  (s.xfers.filter fun x => x.port == k && x.op == 0).map Xfer.range

/-- `v` is `s` with port `k` reset (R382 steps 1 to 3), no add-write being outstanding on it: reads go back to the front of
their movers, writes do or wait for stk_k_drained, a probe waits again, and nothing else moves. A halted block reissues for
the commits alone that it lets run (R430). -/
def portTakenDown (s v : State) (k : Nat) : Prop :=
  v.xfers = s.xfers.filter (fun x => x.port != k) ∧
  v.queue = (s.givenBack k).filter (fun g => g.kind != .probe && (!s.halted || s.haltKeeps g)) ++ s.queue ∧
  v.drainWait = (if s.pins.drained.getLsbD k then s.drainWait.filter fun x => x.port != k
    else s.drainWait ++ s.xfers.filter fun x => x.port == k && x.op == 1) ∧
  (∀ j, j ≠ k → v.port j = s.port j) ∧
  v.port k = { s.port k with up := false, reqCrd := 0, wdCrd := 0, wdOwed := 0, grant := none } ∧
  ((∀ g ∈ s.givenBack k, g.kind ≠ .probe) → v.probe = s.probe) ∧
  (∀ g, (s.givenBack k).filter (fun g => g.kind == .probe) = [g] →
    v.probe = { s.probe with issued := false, steered := true, tries := g.tries }) ∧
  v = { s with xfers := v.xfers, queue := v.queue, drainWait := v.drainWait, ports := v.ports, probe := v.probe }

/-- A protocol error on port `k` with its cause (R381, R382): PROTO_CAUSE, PROTO_ERR, OOS, the count, the port interrupt
and the reset of the port. That it is a fault of class FUNCTION too is read from R426 and R429 (log 33). -/
def protocolError (s t : State) (k cause : Nat) : Prop :=
  ∃ w : State, t = w.resetPort k ∧ (t.port k).up = false ∧ (∀ j, j ≠ k → w.port j = s.port j) ∧
    w.port k = { s.port k with protoErr := true, oos := true, protoCause := cause, errCount := (s.port k).errCount + 1 } ∧
    w = { s with ports := w.ports, flt := { s.flt with pend := s.flt.pend ||| 68#10 } }

/-- Transfer `x` of `v`, no longer outstanding, has failed with `code`, and `w` is what the block is then (R379, R385). A first
DATA_ERR of any but an add-write puts its range back at the front of its mover's queue, and a probe's waits again; in a halted
block only where R430 lets its commit run. Any other failure sets RSP_ERR, counts, records code, operation, mover and address
while VALID is 0, and raises the port interrupt; a probe ends with the code. -/
def transferFailed (v w : State) (x : Xfer) (code : RspCode) : Prop :=
  let again := { x.range with tries := 1 }
  let p := v.port x.port
  (code = .dataErr → x.range.tries = 0 → x.op ≠ 2 →
    (x.range.kind = .probe → w = { v with probe := { v.probe with issued := false, steered := true, tries := 1 } }) ∧
    (x.range.kind ≠ .probe → (v.halted = true ∧ v.haltKeeps again = false → w = v) ∧
      (v.halted = false ∨ v.haltKeeps again = true → w = { v with queue := again :: v.queue }))) ∧
  (code ≠ .dataErr ∨ x.range.tries ≠ 0 ∨ x.op = 2 →
    w.xfers = v.xfers ∧ (∀ j, j ≠ x.port → w.port j = v.port j) ∧ w.flt.pend.getLsbD 6 = true ∧
    (p.errValid = true → w.port x.port = { p with rspErr := true, errCount := p.errCount + 1 }) ∧
    (p.errValid = false → w.port x.port = { p with
      rspErr := true, errCount := p.errCount + 1, errValid := true, errCode := rspCodeNat code
      errOp := x.op, errMover := x.range.mover % 16, errAddr := BitVec.ofNat 64 x.start }) ∧
    (x.range.kind = .probe → w.probe = { v.probe with busy := false, issued := false, steered := false, tries := 0, code := rspCodeNat code }))

/-- The end of the packet takes effect in one step: it has no strip-steps whose records are still to be written, known from
its check or from its strips, and it is no SHARD_MERGE that has found its step (R297, R360). -/
def Cmd.endsAtOnce (c : Cmd) : Prop :=
  ¬ (c.op = opMerge ∧ c.started = true) ∧
  ¬ (c.disp.isSome = true ∧ isClassOp c.op = true ∧
    (c.work.steps ≠ [] ∨ (c.op = opSample ∨ c.op = opVerify) ∧ c.work.stripsKnown = true ∧ c.work.strips ≠ []))

/-- What a per-function reset keeps (R432 step 5): the spare maps, the Harrow tensor table, the strip table, the tenant
table but for reservations that ended, and the registers. PERF_ACRE_PHASE counts what the Acre has run (R480), and the HEAD of
a ring passes a packet whose fetch ends after it has been read (R307). -/
def keptByReset (s t : State) : Prop :=
  t.acre.spareCol = s.acre.spareCol ∧ t.acre.spareRow = s.acre.spareRow ∧ t.granary = s.granary ∧ t.tensors = s.tensors ∧
  t.ttSel = s.ttSel ∧ t.strips = s.strips ∧
  (∀ n, t.tenantStill n = s.tenantStill n) ∧
  (∀ r, t.ringStill r = { s.ringStill r with head := (t.ring r).head, needSlots := (t.ring r).needSlots }) ∧ t.gates = s.gates ∧ t.cplPend = s.cplPend ∧ t.arb.tickets = s.arb.tickets ∧
  t.marb = s.marb ∧ t.steer = s.steer ∧ t.ports = s.ports ∧ t.win = s.win ∧ t.totals = s.totals ∧ t.latches = s.latches ∧
  (∀ k, k ≠ 0 → tblGet 0 t.perf.counters k = tblGet 0 s.perf.counters k) ∧
  t.perf = { s.perf with counters := t.perf.counters, acrePool := t.perf.acrePool } ∧ t.boot = s.boot

/-- The registers of the window whose every field is read-only (R11, R472). -/
def isReadOnly : Reg → Bool
  | .version | .build | .status | .bist | .time _ | .cmdStatus | .acrStatus | .acrRun | .acrRunSeq | .acrWidth | .grnCe
  | .field .. | .brnPool | .brnAllocs | .brnLayout | .scoreSat | .stripRefused | .ledgerFull | .fnOut | .nucleusTrunc
  | .verifyStrips | .verifyAccepted | .verifyShift | .stpStatus | .stpCommits | .stpRecords | .stpLate | .stpDropped | .sowOut _
  | .hrwStatus | .ttData | .nonfinite | .scaleCap | .satElems | .uflElems | .stnStatus | .gleanTiles | .gleanCyc | .stnDropped
  | .streamStatus | .nrgStatus | .nrgEpoch | .nrgLastProj | .nrgTotal .. | .nrgTpj | .nrgTrim | .coef _ | .resetStatus
  | .fltCe | .replace | .fltFw | .pairDivSeq | .linkCrc | .shdStatus | .shdSent | .shdRecv | .shdBad | .shdFailed | .shdField _
  | .snapTime _ | .perf .. => true
  | _ => false

/-- A control command takes effect at the end of its hold (R313, R314): its packet is dispatched as the next and has ended
with reason `r` and the body fields `b`, as (offset in the record, size, value); beside that nothing differs from `u` that
stands still. -/
def ctlEnded (u t : State) (c : Cmd) (r : Reason) (b : List (Nat × Nat × Nat)) : Prop :=
  (t.holds c.order fun d => d.endedWith r (cplBody b) ∧ d.dispatchedAs u.nextOrder) ∧
  { u with nextOrder := u.nextOrder + 1 }.sameStill t ∧ (u.solo → t.pair = u.pair)

/-- A class command enters its class queue (R313, step 5 of a packet's life): it is dispatched as the next packet; beside
that nothing differs from `u` that stands still. -/
def classQueued (u t : State) (c : Cmd) : Prop :=
  (t.holds c.order fun d => d.dispatchedAs u.nextOrder ∧ d.pkt = c.pkt ∧ d.run = c.run) ∧
  { u with nextOrder := u.nextOrder + 1 }.sameStill t ∧ (u.solo → t.pair = u.pair)

/-- A hold goes on (R314, R331): the packet is in part `k` of it, nothing has taken effect, and the ranges of the command,
`l`, wait at the movers behind the others. -/
def holdGoesOn (u t : State) (c : Cmd) (k : Nat) (l : List Range) : Prop :=
  (t.holds c.order fun d => d.stage = .hold k ∧ d.pkt = c.pkt ∧ d.run = c.run ∧ d.disp = none) ∧
  t = { u with cmds := t.cmds, queue := u.queue ++ l }

/-- The range of a command's read of `n` bytes at `a` (R383, R483). -/
def readRange (k : Traffic) (c : Cmd) (idx a n : Nat) : Range := ⟨moverOf k idx, false, a % 2 ^ 64, n, [], c.ring, c.seq, k, idx, 0⟩

/-- The range of a command's write of the bytes `b` at `a`. -/
def writeRange (k : Traffic) (c : Cmd) (idx a : Nat) (b : List Byte) : Range :=
  ⟨moverOf k idx, true, a % 2 ^ 64, b.length, b, c.ring, c.seq, k, idx, 0⟩

/-- A STRIP_SET or STRIP_GET of an existing strip ends its hold (R281 to R283, R357): the strip has become what `f` makes of
it, and the body tells the strip as it is then. -/
def stripEnded (u t : State) (c : Cmd) (r : Reason) (f : Strip → Strip) : Prop :=
  let n := pkStrip c.run
  ctlEnded { u with strips := t.strips } t c r
    [(32, 2, n), (36, 4, (t.strip n).params.pos.toNat), (40, 2, (t.strip n).ledger.length), (42, 1, flagBit (t.strip n).valid 1)] ∧
  t.strip n = f (u.strip n) ∧ ∀ m, m ≠ n → t.strip m = u.strip m

/-- A FW_SWAP ends its hold with banks `fw`, active bank `a`, standby bank valid or not (`v`) and `w` switches made (R368). -/
def fwEnded (u t : State) (c : Cmd) (r : Reason) (fw : Fw) (a v : Bool) (w : U16) : Prop :=
  ctlEnded { u with fw := fw, flt := { u.flt with activeBank := a, standbyValid := v, switches := w } } t c r
    [(32, 1, flagBit a 1), (33, 1, flagBit v 1), (36, 4, (fwVersionOf t.activeFw).toNat),
      (40, 4, if v then (fwVersionOf t.standbyFw).toNat else 0)]

/-- `v` is `u` with class command `c` in its queue and the ranges `l` asked for: dispatched as the next packet, in the order of
the activation stream where it takes a frame, with the early shard records of its step, and with its pool allocation where
that is free and no command of its class or a higher one waits (R119, R120, R257, R313, R342, R389). -/
def entersQueue (u v : State) (c : Cmd) (l : List Range) : Prop :=
  let fr := if isAcreOp c.op && pkStreamSrc c.run || c.op == opCtxRestore then u.streams.frames ++ [(c.ring, c.seq)] else u.streams.frames
  let er := if isAcreOp c.op && c.op != opVerify && pkShardEn c.run then u.shard.early.filter (fun b => recTag b != pkStepTag c.run) else u.shard.early
  (v.holds c.order fun d => d.dispatchedAs u.nextOrder ∧ d.stage = .queued ∧ d.pkt = c.pkt ∧ d.run = c.run ∧
    (c.granted = false → v.barn.poolFree = u.barn.poolFree - (if d.granted then d.granules else 0)) ∧
    (isAcreOp c.op = true → c.op ≠ opVerify → d.granules ≤ u.barn.poolFree →
      (∀ e ∈ u.cmds, e.order ≠ c.order → e.waitsPool = true → c.cls < e.cls) → d.granted = true)) ∧
  v = { u with
    barn := { u.barn with poolFree := v.barn.poolFree }, cmds := v.cmds, nextOrder := u.nextOrder + 1, queue := u.queue ++ l
    streams := { u.streams with frames := fr }, shard := { u.shard with early := er, bad := v.shard.bad } }

/-- Fetch orders name packets: no two packets have the same, and the next packet's is new. -/
def State.ordersOk (s : State) : Prop := (s.cmds.map Cmd.order).Nodup ∧ ∀ c ∈ s.cmds, c.order < s.nextOrder

/-- No other packet has the ring and the SEQ of `c`. -/
def State.named (s : State) (c : Cmd) : Prop := c ∈ s.cmds ∧ ∀ d ∈ s.cmds, d.ring = c.ring → d.seq = c.seq → d = c

/-- The rows after which the state of the command processor is open (R21, R402, R403; log 5, log 26). -/
def leavesOpen : Instr → Bool
  | .supplyRemoved .ctrl => true
  | i => leavesOperation i

/-- `s` after an accepted frame, before what the frame says (R396, R397): its ACK has dropped the frames that it covers, the
next FSEQ is awaited, its buffer's credit returns, and BG is charged 4 events of class 13. -/
def State.tookFrame (s : State) (h : FrameHdr) : State :=
  { s with
    pair := { s.pair with
      unacked := s.pair.unacked.filter fun f => decide ((f.fseq - h.ack).toNat < 2 ^ 15)
      rxNext := s.pair.rxNext + 1, returned := s.pair.returned + 1 }
    energy := { s.energy with bgEvents := evAdd s.energy.bgEvents 13 4 } }

end Sys2Proof.Machine
end

