-- ==== Sys2Proof/Certificates/Slice0/Obligations.lean ====
section
/-! DEFINITION. The statements for the provers, family by family: the queue and the memory, the rings and their lottery, the
stack ports and movers, the registers and resets, the start, a packet's life and the commands by family, the energy ledger,
the pair. A statement about a next state has the form "the row answers this state". -/

section

open Sys2Proof Sys2Proof.Machine

/-! ### The block as a whole -/

/-- A step is `exec` of the command at the front of the queue on the state with the queue's rest; on an empty queue the
block idles (the model's choice, log 16). -/
def Obligations.StepRunsFront : Prop :=
  (∀ (c : Instr) (rest : List Instr) (s : State), s.pending = c :: rest → step s = exec c { s with pending := rest }) ∧
  (∀ s : State, s.pending = [] → step s = .next s)

/-- Every command answers a next state, in every state: none faults and none is refused. It leaves the commands that wait
and the build as they were, and memory too unless it is one of the five rows that bring memory (log 4, log 5). -/
def Obligations.EveryCommandAnswers : Prop :=
  ∀ (c : Instr) (s : State), ∃ t, exec c s = .next t ∧ t.pending = s.pending ∧ t.build = s.build ∧
    (bringsMemory c = false → t.mem = s.mem)

/-- Every step keeps the memory behind the stack ports in its canonical form. -/
def Obligations.StepKeepsMemoryForm : Prop :=
  ∀ s t : State, s.memOk → step s = .next t → t.memOk

/-- A byte of memory changes only by the answer of a transfer or probe that covers it, all with code OK: a beat of an
outstanding read, the response of an outstanding write or add-write, the response of the probe; or by a block that a wrapper
instruction or a self-test instrument takes out of operation. -/
def Obligations.MemoryChangesOnlyByResponses : Prop :=
  ∀ (c : Instr) (s t : State) (a : Nat), exec c s = .next t → t.byte a ≠ s.byte a →
    (∃ k tag beat last data now x, c = .readResponse k tag beat last .ok data now ∧ s.xfer k.val tag.toNat = some x ∧ x.op = 0 ∧
      ∃ j < (beatBytes x x.seen data).2.length, addrWrap a = addrWrap ((beatBytes x x.seen data).1 + j)) ∨
    (∃ k tag beat last now x, c = .writeResponse k tag beat last .ok now ∧ s.xfer k.val tag.toNat = some x ∧ x.op ≠ 0 ∧
      ∃ j < if x.op = 2 then 8 else x.range.data.length, addrWrap a = addrWrap (x.range.addr + j)) ∨
    (∃ data now x, c = .prtProbeResponse .ok data now ∧ s.probeXfer = some x ∧
      ∃ j < if x.op = 0 ∨ x.op = 2 then 8 else x.range.data.length, addrWrap a = addrWrap (x.range.addr + j)) ∨
    leavesOperation c = true

/-- The state while rst_n is low: no command waits, memory lists nothing, and every register reads as the tables of R472
say for the maximum configuration. -/
def Obligations.ResetRegisters : Prop :=
  State.reset.pending = [] ∧ State.reset.memOk ∧ State.reset.mem = [] ∧
  ∀ (a : BitVec 20) (r : Reg), regOf a = some r →
    State.reset.regRead a r = match r with
      | .version => 0x00030200 | .build => 0x02B60000 | .status => 0x00100000
      | .ring _ 2 => 0x00080006 | .ring _ 6 => 0x00000064 | .ring _ 9 => 0x00000004
      | .acrStatus => 0x0C000000 | .acrWidth => 0x00000400 | .grnStatus => 0x00001000 | .grnScrub => 0x80100000
      | .hrwStatus => 0x30000000 | .arbCtl => 0x00000400 | .arbSeed => 1 | .arbTkt _ => 0x10000101
      | .mvrCtl => 0x00000400 | .mvrSeed => 1 | .mvrTkt _ => 0x10000101 | .port _ 5 => 0x000003E8
      | .steer _ 2 => 0x0C0C0001 | .nrgCtl => 0x00040064 | .nrgEpoch => 0x000003E8 | .nrgTrim => 0x00001000
      | .irqEn => 0x00000008 | .pairCtl => 0x20000000 | .shdTimeout => 0x000003E8 | .tenant _ 2 => 0x000003E8
      | _ => 0

/-- Every row that writes a register which exists from READY on: before READY it is answered with PSLVERR and does
nothing; a halted block answers it and ignores it; a block that is unpowered or HELD does nothing. -/
def Obligations.WritesNeedReady : Prop :=
  ∀ (c : Instr) (s : State), isReadyWrite c = true →
    (s.awake = false → exec c s = .next s) ∧
    (s.awake = true → s.boot.ready = false →
      ∃ v, (v = s ∨ ∃ now, v = s.tick now) ∧ exec c s = .next { v with apb := apbErr }) ∧
    (s.awake = true → s.boot.ready = true → s.halted = true →
      ∃ v, (v = s ∨ ∃ now, v = s.tick now) ∧ exec c s = .next { v with apb := apbDone })

/-! ### Rings, gates and the two lotteries -/

/-- R306: the doorbell. A ring with EN = 0 takes the written value as HEAD and TAIL and is empty; a ring whose TAIL then
runs more than its slots ahead of HEAD stops with CAUSE = DOORBELL and requests nothing; every other ring takes TAIL. A
granted ring that stops requesting gives the command processor up (R330). That a packet which counts as fetched is read to
its end where EN = 0 moves HEAD, and any other is dropped, is the model's choice (log 74). -/
def Obligations.RingDoorbell : Prop :=
  ∀ (r : Fin 64) (v : U32) (s : State), s.serves →
    ∃ t, exec (.doorbell r v) s = .next t ∧
      t = { s with rings := t.rings, arb := t.arb, queue := t.queue, energy := { s.energy with bgEvents := t.energy.bgEvents }, apb := apbDone } ∧
      (∀ k, k ≠ r.val → t.ring k = s.ring k) ∧
      ((s.ring r.val).en = true ∨ s.fetchingRing r.val = false →
        t = { s with rings := t.rings, arb := { s.arb with grant := t.arb.grant }, apb := apbDone } ∧ grantGoesOn s t) ∧
      ((s.ring r.val).en = false → s.fetchingRing r.val = true →
        (s.fetchCounted r.val = true → t.arb = { s.arb with fetching := 2, moved := true } ∧ t.energy = s.energy ∧
          t.queue = if s.arb.fetching = 1 then (s.askSlots r.val s.arb.fetchSeq 1 (s.fetchLen r.val)).queue else s.queue) ∧
        (s.fetchCounted r.val = false → t.arb = { s.arb with fetching := 0, beats := 0, grant := none } ∧
          t.queue = s.queue.filter fun g => !(g.ring == r.val && g.seq == s.arb.fetchSeq) || g.kind == .cpl)) ∧
      ((s.ring r.val).en = false →
        t.ring r.val = { s.ring r.val with head := v, tail := v, needSlots := 0 } ∧ ringAvail (t.ring r.val) = 0) ∧
      ((s.ring r.val).en = true → (v.toNat + 2 ^ 32 - (s.ring r.val).head.toNat) % 2 ^ 32 > 2 ^ (s.ring r.val).log2Slots →
        t.ring r.val = { s.ring r.val with tail := v, stopped := true, cause := 1 } ∧ t.requests r.val = false) ∧
      ((s.ring r.val).en = true → (v.toNat + 2 ^ 32 - (s.ring r.val).head.toNat) % 2 ^ 32 ≤ 2 ^ (s.ring r.val).log2Slots →
        t.ring r.val = { s.ring r.val with tail := v })

/-- Writing 1 to STOPPED restarts a ring at HEAD; that CAUSE reads 0 again is the model's choice (log 17). -/
def Obligations.RingRestarts : Prop :=
  ∀ (r : Fin 64) (s : State), s.serves →
    ∃ t, exec (.ringRestart r) s = .next t ∧ t = { s with rings := t.rings, apb := apbDone } ∧
      (∀ k, k ≠ r.val → t.ring k = s.ring k) ∧ t.ring r.val = { s.ring r.val with stopped := false, cause := 0 }

/-- The configuration words of a ring (R308, R334): with EN = 0 and INFLIGHT = 0, the packet being fetched counted (R312), all
of them are stored, with their ranges; at any other time CFG takes effect in EN, MAX_INFLIGHT and IRQ_LINE, every other part is
ignored, and CFG_IGNORED tells of it. A ring that stops requesting gives its grant up (R330); that the fetch of a packet which
does not count as fetched ends where its ring is configured anew is the model's choice (log 74). -/
def Obligations.RingConfiguration : Prop :=
  ∀ (r : Fin 64) (reg : Fin 6) (v : U32) (s : State), s.serves →
    ∃ t, exec (.ringCfgWrite r reg v) s = .next t ∧
      t = { s with rings := t.rings, arb := t.arb, queue := t.queue, energy := { s.energy with bgEvents := t.energy.bgEvents }, apb := apbDone } ∧
      (∀ k, k ≠ r.val → t.ring k = s.ring k) ∧
      (let g := s.ring r.val
       let quiet := g.en = false ∧ s.inflightNow r.val = 0
       (quiet → s.fetchingRing r.val = true → t.arb = { s.arb with fetching := 0, beats := 0, grant := none } ∧
         t.queue = s.queue.filter fun g => !(g.ring == r.val && g.seq == s.arb.fetchSeq) || g.kind == .cpl) ∧
       (¬ quiet ∨ s.fetchingRing r.val = false →
         t = { s with rings := t.rings, arb := { s.arb with grant := t.arb.grant }, apb := apbDone } ∧ grantGoesOn s t) ∧
       (reg.val ≠ 2 → ¬ quiet → t.ring r.val = { g with cfgIgnored := true }) ∧
       (reg.val = 2 → t.ring r.val = { g with
         en := v.getLsbD 31
         maxInflight := if bitField v.toNat 20 16 = 0 then 1 else min (bitField v.toNat 20 16) 16
         irqLine := bitField v.toNat 10 8
         log2Slots := (t.ring r.val).log2Slots
         cfgIgnored := (t.ring r.val).cfgIgnored
         fetchFailed := g.fetchFailed && v.getLsbD 31 } ∧
         (quiet → (t.ring r.val).cfgIgnored = g.cfgIgnored ∧
           (t.ring r.val).log2Slots = if 6 ≤ v.toNat % 32 ∧ v.toNat % 32 ≤ 20 then v.toNat % 32 else 6) ∧
         (¬ quiet → (t.ring r.val).log2Slots = g.log2Slots ∧
           (t.ring r.val).cfgIgnored = (g.cfgIgnored || decide (v.toNat % 32 ≠ g.log2Slots)))) ∧
       (quiet → (reg.val = 0 → t.ring r.val = { g with base := BitVec.ofNat 64 (g.base.toNat / 2 ^ 32 * 2 ^ 32 + v.toNat / 4096 * 4096) }) ∧
         (reg.val = 1 → t.ring r.val = { g with base := BitVec.ofNat 64 (v.toNat * 2 ^ 32 + g.base.toNat % 2 ^ 32) }) ∧
         (reg.val = 3 → t.ring r.val = { g with cplBase := BitVec.ofNat 64 (g.cplBase.toNat / 2 ^ 32 * 2 ^ 32 + v.toNat / 4096 * 4096) }) ∧
         (reg.val = 4 → t.ring r.val = { g with cplBase := BitVec.ofNat 64 (v.toNat * 2 ^ 32 + g.cplBase.toNat % 2 ^ 32) }) ∧
         (reg.val = 5 → t.ring r.val = { g with log2Entries := if 4 ≤ v.toNat % 32 ∧ v.toNat % 32 ≤ 16 then v.toNat % 32 else 4 })))

/-- A write of CPL_HEAD stores it, and CPL_TAIL too while EN = 0 (R309). A record that the full ring held back may leave, and
a granted ring that stops requesting gives the command processor up (R330); nothing else moves. -/
def Obligations.CompletionHead : Prop :=
  ∀ (r : Fin 64) (v : U32) (s : State), s.serves →
    ∃ t, exec (.cplHeadWrite r v) s = .next t ∧ t.apb = apbDone ∧
      t = { s with rings := t.rings, cmds := t.cmds, queue := t.queue, arb := { s.arb with grant := t.arb.grant }, apb := t.apb } ∧
      grantGoesOn s t ∧
      (∀ k, k ≠ r.val → t.ring k = s.ring k) ∧
      t.ring r.val = { s.ring r.val with cplHead := v, cplTail := if (s.ring r.val).en then (s.ring r.val).cplTail else v
                                         cplBusy := (t.ring r.val).cplBusy } ∧
      ((s.ring r.val).cplBusy = true → (t.ring r.val).cplBusy = true ∧ t.cmds = s.cmds ∧ t.queue = s.queue)

/-- A write of GATE_g adds to VALUE modulo 2^32, and every wait on the gate that the new value satisfies is released with
it; no other gate and no other wait changes (R321 to R323). The barrier may then be raised (R325), and control packets that begin
to wait for their dispatch take their place in its order (log 15). -/
def Obligations.GateWriteAdds : Prop :=
  ∀ (g : Fin 8192) (v : U32) (s : State), s.serves →
    ∃ t, exec (.gateWrite g v) s = .next t ∧
      t = { s with gates := t.gates, cmds := t.cmds, barrier := t.barrier, pins := { s.pins with barrierOut := t.pins.barrierOut }
                   apb := apbDone } ∧
      t.gate g.val = s.gate g.val + v ∧ (∀ k, k ≠ g.val → t.gate k = s.gate k) ∧
      t.cmds = (s.cmds.map fun c =>
        if c.disp = none ∧ c.stage = .waiting ∧ c.gateOk = false ∧ pkWaitEn c.pkt = true ∧ pkWaitGate c.pkt = g.val ∧
            ((s.gate g.val + v).toNat + 2 ^ 32 - (pkWaitValue c.pkt).toNat) % 2 ^ 32 < 2 ^ 31
        then { c with gateOk := true, valueSeen := s.gate g.val + v } else c).map (Cmd.marked s.nextOrder)

/-- R333: writes of ARB_RING_TKT_n go to the shadow and reads return it; COMMIT copies all 64 shadows to the live words,
clears PENDING and keeps LOSSES. -/
def Obligations.RingTickets : Prop :=
  (∀ (n : Fin 64) (v : U32) (s : State), s.serves →
    ∃ t, exec (.arbRingTktWrite n v) s = .next t ∧
      t = { s with arb := { s.arb with tickets := t.arb.tickets, pending := true }, apb := apbDone } ∧
      (let k := tblGet ticketsReset t.arb.tickets n.val
       k = { tblGet ticketsReset s.arb.tickets n.val with shadow := v &&& 0xFFC3CFFF#32 } ∧
       t.regValue (.arbTkt n.val) = k.shadow.toNat) ∧
      ∀ m, m ≠ n.val → tblGet ticketsReset t.arb.tickets m = tblGet ticketsReset s.arb.tickets m) ∧
  (∀ s : State, s.serves →
    ∃ t, exec .arbRingCommit s = .next t ∧
      t = { s with arb := { s.arb with tickets := t.arb.tickets, pending := false }, apb := apbDone } ∧
      ∀ m, let k := tblGet ticketsReset s.arb.tickets m
        tblGet ticketsReset t.arb.tickets m = { k with live := k.shadow })

/-- The mover shadows work as the ring shadows do (R384). -/
def Obligations.MoverTickets : Prop :=
  (∀ (n : Fin 16) (v : U32) (s : State), s.serves →
    ∃ t, exec (.arbMvrTktWrite n v) s = .next t ∧
      t = { s with marb := { s.marb with tickets := t.marb.tickets, pending := true }, apb := apbDone } ∧
      tblGet ticketsReset t.marb.tickets n.val
        = { tblGet ticketsReset s.marb.tickets n.val with shadow := v &&& 0xFFC3CFFF#32 } ∧
      ∀ m, m ≠ n.val → tblGet ticketsReset t.marb.tickets m = tblGet ticketsReset s.marb.tickets m) ∧
  (∀ s : State, s.serves →
    ∃ t, exec .arbMvrCommit s = .next t ∧
      t = { s with marb := { s.marb with tickets := t.marb.tickets, pending := false }, apb := apbDone } ∧
      ∀ m, let k := tblGet ticketsReset s.marb.tickets m
        tblGet ticketsReset t.marb.tickets m = { k with live := k.shadow })

/-- The seeds: a write of ARB_RING_SEED loads L, 0 storing 1 (R328, R335); a write of ARB_MVR_SEED loads every port's L with
the seed xor (k × 0x0101_0101), or 1 where that is 0 (R384). -/
def Obligations.LotterySeeds : Prop :=
  (∀ (v : U32) (s : State), s.serves →
    exec (.arbRingSeed v) s = .next { s with
      arb := { s.arb with seed := if v = 0 then 1 else v, l := if v = 0 then 1 else v }, apb := apbDone }) ∧
  (∀ (v : U32) (s : State), s.serves →
    ∃ t, exec (.arbMvrSeed v) s = .next t ∧ t = { s with marb := { s.marb with seed := v }, ports := t.ports, apb := apbDone } ∧
      (∀ k < 24, t.port k = { s.port k with
        lot := if v ^^^ BitVec.ofNat 32 (k * 0x01010101) = 0 then 1 else v ^^^ BitVec.ofNat 32 (k * 0x01010101) }) ∧
      ∀ k ≥ 24, t.port k = s.port k)

/-- R329: a ring draw. Over the requesting rings, the draw grants the one whose interval contains x = (L[31:16] × Σ) >> 16,
or the lowest-numbered one when Σ = 0; its LOSSES returns to 0, and every other requesting ring adds 1. `short` names the rings
whose next packet does not lie wholly before TAIL while its LEN has not been read: they do not request (R307; log 75). -/
def Obligations.RingDrawGrants : Prop :=
  ∀ (n : Nat) (short : BitVec 64) (s : State), ringDrawOn s short = true →
    (let asks := fun r => s.requests r = true ∧ ¬ (short.getLsbD r = true ∧ (s.ring r).needSlots = 0)
     let rs := s.ringRequesters short
     let sigma := (rs.map Prod.snd).sum
     let l := lotAdvance n s.arb.l
     let x := (l.toNat / 2 ^ 16) * sigma / 2 ^ 16
     (∀ r, r ∈ rs.map Prod.fst ↔ r < 64 ∧ asks r) ∧
     ∃ w t, exec (.ringDraw n short) s = .next t ∧ asks w ∧ w < 64 ∧ t.arb.grant = some (w, 0) ∧ t.arb.l = l ∧
      (sigma = 0 → ∀ r < w, ¬ asks r) ∧
      (sigma ≠ 0 → ((rs.filter fun e => e.1 < w).map Prod.snd).sum ≤ x ∧ x < ((rs.filter fun e => e.1 ≤ w).map Prod.snd).sum) ∧
      (∀ r, r < 64 → let k := tblGet ticketsReset s.arb.tickets r
        (r = w → tblGet ticketsReset t.arb.tickets r = { k with losses := 0 }) ∧
        (r ≠ w → asks r → tblGet ticketsReset t.arb.tickets r = { k with losses := k.losses + 1 }) ∧
        (r ≠ w → ¬ asks r → tblGet ticketsReset t.arb.tickets r = k)) ∧
      t = { s with arb := { s.arb with l := t.arb.l, tickets := t.arb.tickets, grant := t.arb.grant, starve := t.arb.starve }
                   flt := { s.flt with pend := t.flt.pend } })

/-- A ring that loses STARVE_DRAWS draws in a row sets its bit of ARB_RING_STARVE and raises the arbiter interrupt; with
STARVE_DRAWS = 0 none does (R332). -/
def Obligations.StarvedRingsRaise : Prop :=
  ∀ (n : Nat) (short : BitVec 64) (s t : State), ringDrawOn s short = true → exec (.ringDraw n short) s = .next t →
    (let starved := fun r => s.requests r = true ∧ ¬ (short.getLsbD r = true ∧ (s.ring r).needSlots = 0) ∧
        t.arb.grant ≠ some (r, 0) ∧ s.arb.starveDraws ≠ 0 ∧
        (tblGet ticketsReset s.arb.tickets r).losses + 1 ≥ s.arb.starveDraws.toNat
     (∀ r < 64, t.arb.starve.getLsbD r = (s.arb.starve.getLsbD r || decide (starved r))) ∧
     ((∃ r < 64, starved r) → t.flt.pend = s.flt.pend ||| 32#10) ∧ ((¬ ∃ r < 64, starved r) → t.flt.pend = s.flt.pend))

/-- The lottery source never stops: from a value other than 0 it never reaches 0 (R328). -/
def Obligations.LotterySourceNeverZero : Prop :=
  ∀ (n : Nat) (l : U32), l ≠ 0 → lotAdvance n l ≠ 0

/-! ### Stack ports and movers -/

/-- PRT_k_CTL holds OOS and TIMEOUT_US on a port that the build has, and ignores writes on another (R404, R470); the level
of mvr_pwr_n[m] is what masks mover m, and no other (R386), whatever the block does. A grant whose mover stops requesting its
port ends (R384). -/
def Obligations.PortAndMoverControl : Prop :=
  (∀ (k : Fin 24) (v : U32) (s : State), s.serves →
    ∃ t, exec (.portOosWrite k v) s = .next t ∧ t = { s with ports := t.ports, apb := apbDone } ∧
      (∀ j, j ≠ k.val → (t.port j).withGrant (s.port j) = s.port j) ∧
      (t.port k.val).withGrant (s.port k.val) = (if k.val < stackPorts s.build
        then { s.port k.val with oos := v.getLsbD 31, timeoutUs := v.setWidth 16 } else s.port k.val) ∧
      (k.val < stackPorts s.build → grantsGoOn s t) ∧ (stackPorts s.build ≤ k.val → t.ports = s.ports)) ∧
  (∀ (m : Fin 16) (s : State),
    (∃ t, exec (.moverPowerDown m) s = .next t ∧ t = { s with ports := t.ports, pins := { s.pins with mvrLow := t.pins.mvrLow } } ∧
      (∀ j, (t.port j).withGrant (s.port j) = s.port j) ∧ (s.powered = true → grantsGoOn s t) ∧
      (s.powered = false → t.ports = s.ports) ∧ t.moverMasked m.val = true ∧ ∀ j < 16, j ≠ m.val → t.moverMasked j = s.moverMasked j) ∧
    (∃ t, exec (.moverPowerUp m) s = .next t ∧ t = { s with pins := { s.pins with mvrLow := t.pins.mvrLow } } ∧
      t.moverMasked m.val = s.fnReset (moverFn m.val) ∧ ∀ j < 16, j ≠ m.val → t.moverMasked j = s.moverMasked j))

/-- A returned credit is held, up to 1,024 request credits and 4,096 write-data credits (R374); a beat that waits for a
write-data credit uses it at once (R373). Either may let a waiting probe issue (R385; `State.probeIssue`, which the statement on
probes describes), and a request credit lets stage 4 of the start end (R452). -/
def Obligations.CreditReturns : Prop :=
  (∀ (k : Fin 24) (now : Time) (s : State), s.portLive k.val = true → (s.port k.val).wdCrd < 4096 →
    ∃ v : State, exec (.wdCreditReturn k now) s = .next v.probeIssue ∧ v = { s.tick now with ports := v.ports } ∧
      (∀ j, j ≠ k.val → v.port j = s.port j) ∧
      v.port k.val = if (s.port k.val).wdOwed = 0 then { s.port k.val with wdCrd := (s.port k.val).wdCrd + 1 }
        else { s.port k.val with wdOwed := (s.port k.val).wdOwed - 1 }) ∧
  (∀ (k : Fin 24) (now : Time) (s : State), s.portLive k.val = true → (s.port k.val).reqCrd < 1024 →
    ∃ v t : State, exec (.reqCreditReturn k now) s = .next t ∧ v = { s.tick now with ports := v.ports } ∧
      (∀ j, j ≠ k.val → v.port j = s.port j) ∧ v.port k.val = { s.port k.val with reqCrd := (s.port k.val).reqCrd + 1 } ∧
      t = { v.probeIssue with boot := t.boot, queue := t.queue } ∧
      (s.boot.stage = 4 → s.boot.go = true → s.boot.failed = false → (s.port k.val).oos = false → t.boot.stage = 5) ∧
      (s.boot.stage ≠ 4 → t = v.probeIssue))

/-- R381: what a protocol error is, and what it does: for every transfer, a probe's among them. -/
def Obligations.ProtocolErrors : Prop :=
  ∀ (k : Fin 24) (tag : BitVec 10) (now : Time) (s : State), s.portLive k.val = true →
    (let u := s.tick now
     (1024 ≤ (s.port k.val).reqCrd → ∃ t, exec (.reqCreditReturn k now) s = .next t ∧ protocolError u t k.val 1) ∧
     (4096 ≤ (s.port k.val).wdCrd → ∃ t, exec (.wdCreditReturn k now) s = .next t ∧ protocolError u t k.val 1) ∧
     (∀ beat last code data, s.xfer k.val tag.toNat = none →
      (∃ t, exec (.readResponse k tag beat last code data now) s = .next t ∧ protocolError u t k.val 2) ∧
      (∃ t, exec (.writeResponse k tag beat last code now) s = .next t ∧ protocolError u t k.val 2)) ∧
     (∀ x beat last code data, s.xfer k.val tag.toNat = some x →
      x.op ≠ 0 ∨ beat.toNat ≠ x.seen ∨ (last = true ↔ x.seen + 1 ≠ x.beats) →
      ∃ t, exec (.readResponse k tag beat last code data now) s = .next t ∧ protocolError u t k.val 3) ∧
     (∀ x beat last code, s.xfer k.val tag.toNat = some x → x.op = 0 ∨ beat ≠ 0 ∨ last = false →
      ∃ t, exec (.writeResponse k tag beat last code now) s = .next t ∧ protocolError u t k.val 4) ∧
     (∀ x, s.xfer k.val tag.toNat = some x → (s.port k.val).timeoutUs ≠ 0 →
      (u.timeNs - x.issued).toNat > (s.port k.val).timeoutUs.toNat * 1000 →
      ∃ t, exec (.transferTimeout k tag now) s = .next t ∧ protocolError u t k.val 5))

/-- A port reset by stk_k_rst_n, which holds the port while it is low, the level of stk_k_drained, and the rise of stk_k_up
(R370, R374, R382). Of the transfers outstanding on the port, reads go back to their movers and writes do or wait for
stk_k_drained; a probe's add-write fails, with CODE = 0b10 (log 18). -/
def Obligations.PortResets : Prop :=
  (∀ (k : Fin 24) (now : Time) (s : State), s.awake = true → k.val < stackPorts s.build →
    (let u := s.tick now
     let w := { u with pins := { u.pins with stkLow := u.pins.stkLow ||| BitVec.ofNat 24 (2 ^ k.val) } }
     ((∀ x ∈ s.xfers, x.port = k.val → x.op ≠ 2) →
       ∃ v : State, exec (.stkPortReset k true now) s = .next v.probeIssue ∧ portTakenDown w v k.val) ∧
     ∃ t, exec (.stkPortReset k true now) s = .next t ∧ (∀ j, (t.port j).up = if j = k.val then false else (s.port j).up) ∧
       ∀ x ∈ s.xfers, x.port = k.val → x.op = 2 → x.range.kind = .probe → (∀ y ∈ s.xfers, y ≠ x → y.range.kind ≠ .probe ∧ (y.port = k.val → y.op ≠ 2)) →
         (∀ y ∈ s.drainWait, y.range.kind ≠ .probe) → (s.xfers.filter fun y => y.port == k.val && y.op == 2) = [x] →
         t.probe = { s.probe with busy := false, issued := false, steered := false, tries := 0, code := 2 } ∧
         (t.port k.val).rspErr = true ∧ (t.port k.val).errCount = (s.port k.val).errCount + 1 ∧ t.flt.pend.getLsbD 6 = true)) ∧
  (∀ (k : Fin 24) (now : Time) (s : State),
    (let u := s.tick now
     exec (.stkPortReset k false now) s = .next { u with pins := { u.pins with stkLow := u.pins.stkLow &&& ~~~ BitVec.ofNat 24 (2 ^ k.val) } })) ∧
  (∀ (k : Fin 24) (s : State),
    (let l := fun high => if high then s.pins.drained ||| BitVec.ofNat 24 (2 ^ k.val) else s.pins.drained &&& ~~~ BitVec.ofNat 24 (2 ^ k.val)
     (s.awake = false → ∀ high, exec (.stkDrained k high) s = .next { s with pins := { s.pins with drained := l high } }) ∧
     exec (.stkDrained k false) s = .next { s with pins := { s.pins with drained := l false } } ∧
     (s.awake = true → ∃ v : State, exec (.stkDrained k true) s = .next v.probeIssue ∧
       (let mine := (s.drainWait.filter fun x => x.port == k.val).map Xfer.range
        v = { s with
          pins := { s.pins with drained := l true }
          drainWait := s.drainWait.filter fun x => x.port != k.val
          queue := mine.filter (fun g => g.kind != .probe && (!s.halted || s.haltKeeps g)) ++ s.queue, probe := v.probe } ∧
        ((∀ g ∈ mine, g.kind ≠ .probe) → v.probe = s.probe) ∧
        (∀ g, mine.filter (fun g => g.kind == .probe) = [g] → v.probe = { s.probe with issued := false, steered := true, tries := g.tries }))))) ∧
  (∀ (k : Fin 24) (s : State), stkUpOn s k.val = true →
    s.pins.stkLow.getLsbD k.val = false ∧
    ∃ t, exec (.stkUp k) s = .next t ∧ t = { s with ports := t.ports } ∧ (∀ j, j ≠ k.val → t.port j = s.port j) ∧
      t.port k.val = { s.port k.val with up := true, reqCrd := 0, wdCrd := 0, wdOwed := 0 } ∧ t.inService k.val = decide (s.outstanding k.val ≠ 0))

/-- A read response beat in its order (R373, R379): the bytes of its range that an OK beat carries stand in memory by the
byte lanes of R371, and no others change; the beat counts in PERF_RD_BEATS, and toward its packet where it is a ring's; its
code joins the transfer's. Before the last beat the transfer goes on; at the last one with code OK it is over, and what waited
for it goes on by itself, a probe's with the word that it read in DATA (R385). After every response a function reset that
waited for a commit, and then a waiting probe, follow (`State.answered`; R385, R434). -/
def Obligations.ReadBeats : Prop :=
  ∀ (k : Fin 24) (tag : BitVec 10) (beat : BitVec 3) (last : Bool) (code : RspCode) (data : List Byte) (now : Time)
    (s : State) (x : Xfer), s.portLive k.val = true → s.xfer k.val tag.toNat = some x → x.op = 0 → beat.toNat = x.seen →
    (last = true ↔ x.seen + 1 = x.beats) →
    (let u := s.tick now
     let first := if x.code = .ok then code else x.code
     ∃ w t : State, exec (.readResponse k tag beat last code data now) s = .next t ∧
      (let carried := fun a => x.range.addr ≤ a ∧ a < x.range.addr + x.range.len ∧ a / 512 = x.start / 512 + x.seen
       (code = .ok → ∀ a, carried a → t.byte a = data.getD (a % 512) 0) ∧
       (∀ a, (∀ b, carried b → addrWrap a ≠ addrWrap b) → t.byte a = s.byte a) ∧ (code ≠ .ok → t.mem = s.mem)) ∧
      w = { u with
        mem := t.mem, perf := w.perf, cmds := w.cmds, xfers := w.xfers
        arb := { u.arb with beats := u.arb.beats + if x.range.kind = .fetch then 1 else 0 }
        energy := { u.energy with bgEvents := w.energy.bgEvents } } ∧
      (s.boot.ready = true → tblGet 0 w.perf.counters 13 = tblGet 0 u.perf.counters 13 + 1) ∧
      (last = false → t = w.answered ∧ w.xfers = s.xfers.map fun y => if y.port = k.val ∧ y.tag = tag.toNat
        then { y with seen := x.seen + 1, code := first } else y) ∧
      (last = true → first = .ok → w.xfers = (s.xfers.filter fun y => !(y.port == k.val && y.tag == tag.toNat)) ∧
        (x.range.kind ≠ .probe → t = w.settle.answered) ∧ (x.range.kind = .probe → t = w.probeOk.settle.answered)))

/-- The one response beat of a write or an add-write with code OK (R372, R373): its bytes stand in memory, or the sum of the
64-bit word there and its own, modulo 2^64; no other byte changes, and the transfer is over. Nothing else happens but what then
comes about by itself. -/
def Obligations.WriteResponses : Prop :=
  ∀ (k : Fin 24) (tag : BitVec 10) (now : Time) (s : State) (x : Xfer),
    s.portLive k.val = true → s.xfer k.val tag.toNat = some x → x.op ≠ 0 →
    ∃ w t : State, exec (.writeResponse k tag 0 true .ok now) s = .next t ∧
      w = { s.tick now with mem := t.mem, xfers := s.xfers.filter fun y => !(y.port == k.val && y.tag == tag.toNat) } ∧
      (x.range.kind ≠ .probe → t = w.settle.answered) ∧ (x.range.kind = .probe → t = w.probeOk.settle.answered) ∧
      (let bytes := if x.op = 2 then leBytes 8 ((leNat (s.bytes x.range.addr 8) 0 8 + leNat x.range.data 0 8) % 2 ^ 64) else x.range.data
       (bytes.length ≤ 4096 → ∀ i < bytes.length, t.byte (x.range.addr + i) = bytes.getD i 0) ∧
       ∀ a, (∀ i < bytes.length, addrWrap a ≠ addrWrap (x.range.addr + i)) → t.byte a = s.byte a)

/-- A failed transfer (R379), by a write's response or a read's last beat: the transfer is over, memory stays, and what a
failure does (`transferFailed`) is done; then what waited for it goes on by itself. -/
def Obligations.FailedTransfers : Prop :=
  ∀ (k : Fin 24) (tag : BitVec 10) (code : RspCode) (now : Time) (s : State) (x : Xfer),
    s.portLive k.val = true → s.xfer k.val tag.toNat = some x → code ≠ .ok →
    (let ended := fun t : State => ∃ v w : State, t = w.settle.answered ∧ t.mem = s.mem ∧ transferFailed v w x code ∧
      v = { s.tick now with
        xfers := s.xfers.filter fun y => !(y.port == k.val && y.tag == tag.toNat)
        perf := v.perf, cmds := v.cmds, arb := v.arb, energy := v.energy }
     (x.op ≠ 0 → ∃ t, exec (.writeResponse k tag 0 true code now) s = .next t ∧ ended t) ∧
     (∀ beat c data, x.op = 0 → beat.toNat = x.seen → x.seen + 1 = x.beats → (if x.code = .ok then c else x.code) = code → c ≠ .ok →
       ∃ t, exec (.readResponse k tag beat true c data now) s = .next t ∧ ended t))

/-- R371 and R483: the transfer that a mover cuts off the front of a range of bytes. -/
def Obligations.TransferShape : Prop :=
  ∀ r : Range, 0 < r.len →
    (let n := (firstTransfer r).1
     let a := (firstTransfer r).2.1
     let l := (firstTransfer r).2.2
     a % 64 = 0 ∧ l % 64 = 0 ∧ 64 ≤ l ∧ l ≤ 4096 ∧ a / 4096 = (a + l - 1) / 4096 ∧
     a ≤ r.addr ∧ r.addr < a + 64 ∧ r.addr + n ≤ a + l ∧ a + l < r.addr + n + 64 ∧
     0 < n ∧ n ≤ r.len ∧ (n = r.len ∨ (r.addr + n) % 4096 = 0) ∧
     1 ≤ beatCount a l ∧ beatCount a l ≤ 8 ∧
     ∀ b, r.addr ≤ b → b < r.addr + n → b / 512 - a / 512 < beatCount a l)

/-- The issue of a transfer (R373 to R375, R384, R385, R483). In a request cycle of port k a probe that waits for it goes
first, and while it waits no mover issues; then a draw that is due is held. Mover m, if the grant is its own, sends its first
waiting transfer for the port: a request credit and, of a write, write-data credits are used, the grant counts it, and ends if
the mover requests the port no longer. A mover that lacks something waits. What a transfer needs is R373's credit and tag,
R374's buffer space and limit, and R375's order behind writes that overlap it. -/
def Obligations.MoverIssues : Prop :=
  (∀ (m : Fin 16) (port : Fin 24) (tag : BitVec 10) (cycles : Nat) (now : Time) (s : State), s.moving = true →
    (let k := port.val
     let row := exec (.moverTransferIssue m port tag cycles now) s
     let u := (s.tick now).probeIssue
     let g := u.granted k cycles
     (u.moverPiece m.val k = none → row = .next u) ∧
     ∀ r, u.moverPiece m.val k = some r →
      (u.probePort = some k → row = .next u) ∧
      (u.probePort ≠ some k → (∀ j, (g.port k).grant ≠ some (m.val, j)) ∨ g.canIssue k tag.toNat r = false → row = .next g) ∧
      (∀ j, u.probePort ≠ some k → (g.port k).grant = some (m.val, j) → g.canIssue k tag.toNat r = true →
       (let a := (firstTransfer r).2.1
        let l := (firstTransfer r).2.2
        let b := beatCount a l
        ∃ t, row = .next t ∧
          t.xfers = u.xfers ++ [⟨k, tag.toNat, if r.write then 1 else 0, a, l, b, 0, .ok, r, u.timeNs⟩] ∧
          t.queue = cutQueue r u.queue ∧
          t.port k = { g.port k with
            reqCrd := (g.port k).reqCrd - 1
            wdCrd := if r.write then (g.port k).wdCrd - min (g.port k).wdCrd b else (g.port k).wdCrd
            wdOwed := if r.write then b - min (g.port k).wdCrd b else 0
            grant := if (t.moverPiece m.val k).isSome then some (m.val, j + 1) else none } ∧
          (∀ i, i ≠ k → t.port i = g.port i) ∧
          (r.write = false → t = { g with xfers := t.xfers, queue := t.queue, ports := t.ports }) ∧
          (r.write = true → t = { g with
            xfers := t.xfers, queue := t.queue, ports := t.ports, cmds := t.cmds, perf := t.perf
            energy := { g.energy with bgEvents := t.energy.bgEvents } }))))) ∧
  (∀ (s : State) (k tag : Nat) (r : Range), s.canIssue k tag r = true ↔
    (s.port k).reqCrd ≠ 0 ∧ (s.port k).wdOwed = 0 ∧ s.outstanding k < 1024 ∧ (∀ x ∈ s.xfers, ¬ (x.port = k ∧ x.tag = tag)) ∧
    (∀ x ∈ s.xfers ++ s.drainWait, x.op ≠ 0 → ¬ ((firstTransfer r).2.1 < x.range.addr + x.range.len ∧
      x.range.addr < (firstTransfer r).2.1 + (firstTransfer r).2.2)) ∧
    (r.write = true ∨ s.reserved k + beatCount (firstTransfer r).2.1 (firstTransfer r).2.2 ≤ 1024))

/-- The draw before a grant (R384). A mover that still holds the port keeps it. Where no mover holds it, or the holder has
spent its burst or requests the port no longer, the port's lottery draws among the movers that request it, by the rule of
R329 with the port's own LOSSES and shift register, which stands until READY: the winner is the one whose interval of tickets
contains x, its LOSSES return to 0, every other requester's grow by 1, and one that has lost STARVE_DRAWS draws in a row is
marked and raises the arbiter interrupt (R332). -/
def Obligations.MoverDraw : Prop :=
  ∀ (s : State) (k cycles m : Nat), m < 16 → (s.moverPiece m k).isSome = true →
    (let burst := fun g => tktBurst (tblGet ticketsReset s.marb.tickets g).live
     let rs := s.moverRequesters k
     let asks := fun j => j < 16 ∧ (s.moverPiece j k).isSome = true
     let sigma := (rs.map Prod.snd).sum
     let l := lotAdvance (if s.boot.ready then cycles else 0) (s.port k).lot
     let x := (l.toNat / 2 ^ 16) * sigma / 2 ^ 16
     let t := s.granted k cycles
     (∀ j n, (j, n) ∈ rs ↔ asks j ∧ n = effTickets (tblGet ticketsReset s.marb.tickets j).live (tblGet 0 (s.port k).losses j)) ∧
     (∀ g n, (s.port k).grant = some (g, n) → n < burst g → (s.moverPiece g k).isSome = true → t = s) ∧
     ((∀ g n, (s.port k).grant = some (g, n) → burst g ≤ n ∨ s.moverPiece g k = none) → ∃ w, asks w ∧
       (sigma = 0 → ∀ j < w, ¬ asks j) ∧
       (sigma ≠ 0 → ((rs.filter fun e => e.1 < w).map Prod.snd).sum ≤ x ∧ x < ((rs.filter fun e => e.1 ≤ w).map Prod.snd).sum) ∧
       t.port k = { s.port k with lot := l, grant := some (w, 0), losses := (t.port k).losses } ∧
       tblGet 0 (t.port k).losses w = 0 ∧
       (∀ j, j ≠ w → asks j → tblGet 0 (t.port k).losses j = tblGet 0 (s.port k).losses j + 1) ∧
       (∀ j, ¬ asks j → tblGet 0 (t.port k).losses j = tblGet 0 (s.port k).losses j) ∧
       (∀ i, i ≠ k → t.port i = s.port i) ∧
       (let starved := fun j => asks j ∧ j ≠ w ∧ s.marb.starveDraws ≠ 0 ∧ tblGet 0 (s.port k).losses j + 1 ≥ s.marb.starveDraws.toNat
        (∀ j < 16, t.marb.starve.getLsbD j = (s.marb.starve.getLsbD j || decide (starved j))) ∧
        ((∃ j, starved j) → t.flt.pend = s.flt.pend ||| 32#10) ∧ ((¬ ∃ j, starved j) → t.flt.pend = s.flt.pend)) ∧
       t = { s with ports := t.ports, marb := { s.marb with starve := t.marb.starve }, flt := { s.flt with pend := t.flt.pend } }))

/-- The probe (R372, R385, R404). GO on a port in service sets BUSY and issues at once where the port lacks nothing that a
transfer needs, ahead of every mover; on a port not in service it ends with CODE 0b10; writes while BUSY do nothing. Its OK
response brings the word that a read read, also to DATA, writes the word, or adds to it; it records CODE and clears BUSY. A
failure is one of a transfer, and ends the probe or lets it wait to be issued again. -/
def Obligations.Probes : Prop :=
  (∀ (v : U32) (now : Time) (s : State), s.serves →
    (let u := s.tick now
     ∃ t, exec (.prtProbeGo v now) s = .next t ∧
      (s.probe.busy = true → t = { u with apb := apbDone }) ∧
      (s.probe.busy = false →
        (let p := { s.probe with op := bitField v.toNat 11 10, port := bitField v.toNat 9 5 }
         let q := { p with busy := true, issued := false, steered := false, tries := 0 }
         let w := { u with probe := q }
         let k := p.port
         let tag := w.freeTag k
         (v.getLsbD 0 = false → t = { u with apb := apbDone, probe := p }) ∧
         (v.getLsbD 0 = true → u.inService k = false → t = { u with
           apb := apbDone, probe := { p with busy := false, issued := false, steered := false, tries := 0, code := 2 } }) ∧
         (v.getLsbD 0 = true → u.inService k = true → w.canIssue k tag w.probeRange = false → t = { w with apb := apbDone }) ∧
         (v.getLsbD 0 = true → u.inService k = true → w.canIssue k tag w.probeRange = true →
           (let a := (firstTransfer w.probeRange).2.1
            let l := (firstTransfer w.probeRange).2.2
            t.probe = { q with issued := true } ∧
            t.xfers = s.xfers ++ [⟨k, tag, q.reqOp, a, l, beatCount a l, 0, .ok, w.probeRange, u.timeNs⟩] ∧
            (t.port k).reqCrd = (s.port k).reqCrd - 1 ∧ (∀ j, j ≠ k → t.port j = s.port j) ∧
            t = { u with
              apb := apbDone, probe := t.probe, xfers := t.xfers, ports := t.ports, perf := t.perf, cmds := t.cmds, energy := t.energy })))))) ∧
  (∀ (code : RspCode) (data : U64) (now : Time) (s : State) (x : Xfer), s.probeXfer = some x → s.portLive x.port = true →
    x.code = .ok → x.seen + 1 = x.beats → x.op = s.probe.reqOp → x.range.addr = s.probe.addr.toNat →
    (x.op ≠ 0 → x.range.data = leBytes 8 s.probe.data.toNat) →
    (let a := s.probe.addr.toNat
     let word := if x.op = 0 then data.toNat
       else if x.op = 2 then (leNat (s.bytes a 8) 0 8 + s.probe.data.toNat) % 2 ^ 64 else s.probe.data.toNat
     ∃ v w t : State, exec (.prtProbeResponse code data now) s = .next t ∧ t = w.settle.answered ∧
      v = { s.tick now with
        mem := t.mem, xfers := s.xfers.filter fun y => !(y.port == x.port && y.tag == x.tag)
        perf := v.perf, cmds := v.cmds, arb := v.arb, energy := v.energy } ∧
      (code ≠ .ok → t.mem = s.mem ∧ transferFailed v w x code) ∧
      (code = .ok →
        w = { v with probe := { s.probe with
          busy := false, issued := false, steered := false, tries := 0, code := 0, data := if x.op = 0 then data else s.probe.data } } ∧
        (∀ i < 8, t.byte (a + i) = (leBytes 8 word).getD i 0) ∧
        (∀ b, (∀ i < 8, addrWrap b ≠ addrWrap (a + i)) → t.byte b = s.byte b))))

/-! ### Registers of tenants, spares, resets, probes and the pair -/

/-- A tenant's budget: ADJ adds its signed value and saturates (R290); a write of WINDOW_US turns the window at once, and
TENANT_WINDOW_TURN turns it once for each window entered since, REMAIN becoming REFILL + min(REMAIN, 0) at each turn (R287).
What REMAIN was before a turn is kept while reservations are open, because a commit's debit falls in the window that holds its
time (R289). -/
def Obligations.TenantRegisters : Prop :=
  (∀ (n : Fin 256) (v : U32) (s : State), s.serves →
    ∃ t, exec (.tenAdj n v) s = .next t ∧ t = { s with tenants := t.tenants, apb := apbDone } ∧
      (∀ j, j ≠ n.val → t.tenant j = s.tenant j) ∧
      t.tenant n.val = { s.tenant n.val with
        remain := max (-2 ^ 31) (min (2 ^ 31 - 1) ((s.tenant n.val).remain + v.toInt)) }) ∧
  (∀ (n : Fin 256) (v : U32) (now : Time) (s : State), s.serves →
    (let u := s.tick now
     let x := s.tenant n.val
     ∃ t, exec (.tenWindowWrite n v now) s = .next t ∧ t = { u with tenants := t.tenants, apb := apbDone } ∧
      (∀ j, j ≠ n.val → t.tenant j = s.tenant j) ∧
      (v = 0 → t.tenant n.val = { x with windowUs := 0 }) ∧
      (v ≠ 0 → t.tenant n.val = { x with
        windowUs := v, window := u.timeNs.toNat / (v.toNat * 1000), remain := x.refill + min x.remain 0
        past := if x.reserved = 0 then [] else ⟨u.timeNs.toNat, x.remain, 1, x.refill⟩ :: x.past }))) ∧
  (∀ (n : Fin 256) (now : Time) (s : State), s.live →
    (let u := s.tick now
     let x := s.tenant n.val
     let w := x.windowUs.toNat * 1000
     let k := u.timeNs.toNat / w
     ∃ t, exec (.tenantWindowTurn n now) s = .next t ∧ t = { u with tenants := t.tenants } ∧
      (∀ j, j ≠ n.val → t.tenant j = s.tenant j) ∧
      (x.windowUs ≠ 0 → x.window < k → t.tenant n.val = { x with
        remain := (fun r : Int => x.refill + min r 0)^[k - x.window] x.remain, window := k
        past := if x.reserved = 0 then [] else ⟨(x.window + 1) * w, x.remain, k - x.window, x.refill⟩ :: x.past }) ∧
      (x.windowUs = 0 ∨ k ≤ x.window → t.tenant n.val = x)))

/-- The spare maps. GRN_SPARE_BANK_g takes EN and BANK while every field is EMPTY and sets MAP_WRITE_IGNORED otherwise
(R116); a bank that the host un-maps may migrate again (R114). ACR_SPARE_COL_n and ACR_SPARE_ROW_n take EN and the line, at
once in the register; the width in force follows at a boundary between two commands on the Acre, at once while none is on it
(R90 to R92). An Acre out of service stands in reset (R435). -/
def Obligations.SpareMaps : Prop :=
  (∀ (g : Fin 64) (v : U32) (s : State), s.serves →
    (let old := tblGet 0 s.granary.spare g.val
     ∃ t, exec (.grnSpareBankWrite g v) s = .next t ∧
      t = { s with
        apb := apbDone
        granary := { s.granary with spare := t.granary.spare, mapIgnored := t.granary.mapIgnored, moved := t.granary.moved } } ∧
      (∀ j, j ≠ g.val → tblGet 0 t.granary.spare j = tblGet 0 s.granary.spare j) ∧
      (bankGroups s.build ≤ g.val → t.granary = s.granary) ∧
      (g.val < bankGroups s.build → (∀ i < 8, (s.field i).state = 0) →
        t.granary.mapIgnored = s.granary.mapIgnored ∧
        tblGet 0 t.granary.spare g.val = (v &&& 0x8000003F#32) ||| (old &&& 0x70000000#32) ∧
        (old.getLsbD 31 = true → v.getLsbD 31 = false → t.granary.moved = s.granary.moved.erase (64 * g.val + old.toNat % 64)) ∧
        (old.getLsbD 31 = false → old.getLsbD 28 = false → t.granary.moved = s.granary.moved)) ∧
      (g.val < bankGroups s.build → (∃ i < 8, (s.field i).state ≠ 0) →
        t.granary = { s.granary with mapIgnored := true }))) ∧
  (∀ (row : Bool) (n : Fin 16) (v : U32) (s : State), s.serves → (s.rowHalfNow = 3 → s.fnReset 0 = true) →
    ∃ t, exec (.acrSpareWrite row n v) s = .next t ∧
      t = { s with acre := t.acre, granary := t.granary, flt := { s.flt with pend := t.flt.pend, replace := t.flt.replace }, apb := apbDone } ∧
      (let word := fun (u : State) (r : Bool) (j : Nat) => tblGet 0 (if r then u.acre.spareRow else u.acre.spareCol) j
       word t row n.val = (if row = true ∨ n.val < colGroups s.build
         then (v &&& 0x8000003F#32) ||| (word s row n.val &&& 0x40000000#32) else word s row n.val) ∧
       ∀ r j, ¬ (r = row ∧ j = n.val) → word t r j = word s r j) ∧
      (s.acre.run.isSome = true → t.acre.cEff = s.acre.cEff ∧ t.acre.rowHalf = s.acre.rowHalf) ∧
      (s.acre.run = none → row = true ∨ n.val < colGroups s.build → t.acre.rowHalf = s.rowHalfNow ∧
        t.acre.cEff = effectiveCols s.usableCols (decide (s.energy.level.val = 3))))

/-- Per-function resets (R426, R432 to R434). A pin, or an uncorrectable error in a region of R426, which is recorded in
FLT_UE_INFO and raises source 2, starts the reset of its function: IN_RESET is set, the commands of R433 end, and what R432
step 5 names stays; that of the command processor waits until no commit is in progress. The reset ends when every source is
released. A bit newly set in FLT_RESET or FLT_PORT_RESET starts a reset. The last clause is the table of R433 over what the
model knows of a command. -/
def Obligations.FunctionResets : Prop :=
  (∀ (fn : Fin 10) (src : ResetSource) (now : Time) (s : State), s.running = true → s.fnReset fn.val = false →
    (s.cmds.map Cmd.order).Nodup → (∀ c ∈ s.cmds, c.order < s.nextOrder) →
    (let ueFn := fun region : Nat => if region = 3 ∨ region = 4 then some 2 else if region = 5 ∨ region = 7 ∨ region = 12 then some 1
       else if region = 6 ∨ region = 8 then some 0 else if region = 9 then some 3 else none
     let waits := fn.val = 4 ∧ ∃ c ∈ s.cmds, isAcreOp c.op = true ∧ c.stage = .committing ∧ c.commit = true
     ∃ t, exec (.fnRstAssert fn src now) s = .next t ∧
      (src = .pin → t.pins.fnLow = s.pins.fnLow ||| BitVec.ofNat 10 (2 ^ fn.val)) ∧
      (∀ region word, src = .auto region word → t.pins.fnLow = s.pins.fnLow ∧
        (ueFn region ≠ some fn.val → t = s.tick now) ∧
        (ueFn region = some fn.val → t.flt.pend.getLsbD 2 = true ∧
          (s.flt.ueValid = false → t.flt.ueValid = true ∧ t.flt.ueRegion = region ∧ t.flt.ueWord = BitVec.ofNat 25 word))) ∧
      (src = .pin ∨ (∃ region word, src = .auto region word ∧ ueFn region = some fn.val) →
        keptByReset (s.tick now) t ∧
        (waits → t = { s.tick now with pins := t.pins, flt := { s.flt with cpDue := true } }) ∧
        (¬ waits → (∀ m < 10, t.fnReset m = (s.fnReset m || decide (m = fn.val))) ∧
          ∀ c ∈ s.cmds, ∀ r, resetEnds fn.val c = some r → c.endsAtOnce → t.holds c.order fun d => d.stage = .finished ∧ d.reason = r)))) ∧
  (∀ s : State, s.flt.cpDue = true → (∀ c ∈ s.cmds, c.inCommit = false) → s.fnReset 4 = false → s.afterCommit.fnReset 4 = true) ∧
  (∀ (fn : Fin 10) (src : ResetSource) (now : Time) (s : State), s.running = false →
    exec (.fnRstAssert fn src now) s = .next (if src = .pin
      then { s.tick now with pins := { s.pins with fnLow := s.pins.fnLow ||| BitVec.ofNat 10 (2 ^ fn.val) } } else s.tick now)) ∧
  (∀ (fn : Fin 10) (s : State),
    exec (.fnRstRelease fn) s = .next { s with
      pins := { s.pins with fnLow := s.pins.fnLow &&& ~~~ BitVec.ofNat 10 (2 ^ fn.val) }
      boot := if s.inStage 6 = true ∧ s.boot.fwRead = true ∧ (fn.val = 4 ∨ s.pins.fnLow.getLsbD 4 = false)
        then { s.boot with stage := 7 } else s.boot }) ∧
  (∀ (fn : Fin 10) (now : Time) (s : State), s.running = true → s.fnReset fn.val = true →
    ∃ t, exec (.fnResetDone fn now) s = .next t ∧
      (s.pins.fnLow.getLsbD fn.val = true ∨ s.flt.hold.getLsbD fn.val = true ∨ (fn.val = 0 ∧ s.rowHalfNow = 3) → t = s.tick now) ∧
      (s.fnHeld fn.val = false → fn.val ≠ 9 →
        { s.tick now with flt := { s.flt with inReset := s.flt.inReset &&& ~~~ BitVec.ofNat 10 (2 ^ fn.val) } }.sameStill t) ∧
      (s.fnHeld fn.val = false → ∀ m < 10, t.fnReset m = (s.fnReset m && decide (m ≠ fn.val)))) ∧
  (∀ (v : U32) (now : Time) (s : State), s.running = true →
    (∃ t, exec (.fltResetWrite false v now) s = .next t ∧ t.apb = apbDone ∧ t.flt.hold = v.setWidth 10 ∧ keptByReset (s.tick now) t ∧
      (∀ n < 10, n ≠ 4 → t.fnReset n = (s.fnReset n || (v.getLsbD n && !s.flt.hold.getLsbD n)))) ∧
    (∃ t, exec (.fltResetWrite true v now) s = .next t ∧ t.apb = apbDone ∧ t.flt.portHold = v.setWidth 24 ∧
      (∀ k < 24, (t.port k).up = if k < stackPorts s.build ∧ v.getLsbD k = true ∧ s.flt.portHold.getLsbD k = false
        then false else (s.port k).up))) ∧
  (∀ (n : Nat) (c : Cmd), n < 10 →
    (let acre := isAcreOp c.op = true ∧ c.disp.isSome = true ∧ c.stage ≠ .finished
     let active := c.disp.isSome = true ∧ c.stage ≠ .finished
     let begun := acre ∧ c.work.begun = true
     let notCommitted := c.stage ≠ .finished ∧ (c.stage = .committing → isAcreOp c.op = true ∧ c.commit = false)
     let fill := active ∧ c.started = true ∧ (c.op = opLoadHead ∨ c.op = opUpdate ∨ c.op = opSowFill)
     let merging := c.op = opMerge ∧ active ∧ notCommitted
     (resetEnds n c).isSome = true ↔
      (n = 0 ∧ begun ∧ c.stage ≠ .committing ∧ c.work.ended = false) ∨
      (n = 1 ∧ (begun ∧ c.commit = false ∨ merging)) ∨
      (n = 2 ∧ (acre ∧ c.stage ≠ .committing ∧ c.work.ended = false ∧
        (c.work.converting = true ∨ c.work.convNext ≠ 0 ∨ c.work.begun = true) ∨ fill)) ∨
      (n = 3 ∧ begun ∧ c.commit = false ∧ pkStoneThr c.run ≠ 0) ∨
      (n = 4 ∧ (notCommitted ∨ fill)) ∨
      (n = 5 ∧ acre ∧ notCommitted ∧ pkStreamSrc c.run = true ∧ c.work.frameDone = false) ∨
      (n = 6 ∧ active ∧ notCommitted ∧ ((c.op = opSample ∨ c.op = opVerify) ∧ pkResStream c.run = true ∨
        c.op = opHeadFwd ∧ pkOutDest c.run = 1 ∨ c.op = opTrain ∧ pkDhStream c.run = true)) ∨
      (n = 7 ∧ (begun ∧ c.commit = false ∧ pkShardEn c.run = true ∨ merging)) ∨
      (n = 9 ∧ c.op = opEnergySet ∧ ∃ k, c.stage = .hold k)))

/-- The Sower probe (R157) and the Winnower's function probe (R229): GO sets BUSY and is ignored while BUSY is 1; the end of
the evaluation writes the outputs and clears BUSY. -/
def Obligations.FunctionProbes : Prop :=
  (∀ s : State, s.serves → exec .sowProbeGo s = .next { s with win := { s.win with sowBusy := true }, apb := apbDone }) ∧
  (∀ s : State, s.running = true → s.win.sowBusy = true →
    ∃ t, exec .sowProbeDone s = .next t ∧ t = { s with win := { s.win with sowBusy := false, sowOut := t.win.sowOut } } ∧
      (let o := sowMix (tblGet 0 s.win.sowKey 0) (tblGet 0 s.win.sowKey 1)
         ⟨tblGet 0 s.win.sowCtr 0, tblGet 0 s.win.sowCtr 1, tblGet 0 s.win.sowCtr 2, tblGet 0 s.win.sowCtr 3⟩
       tblGet 0 t.win.sowOut 0 = o.x0 ∧ tblGet 0 t.win.sowOut 1 = o.x1 ∧ tblGet 0 t.win.sowOut 2 = o.x2 ∧ tblGet 0 t.win.sowOut 3 = o.x3)) ∧
  (∀ (v : U32) (s : State), s.serves → exec (.winFnGo v) s = .next { s with
    apb := apbDone, win := if s.win.fnBusy then s.win else { s.win with fnSel := v.getLsbD 1, fnBusy := v.getLsbD 0 } }) ∧
  (∀ s : State, s.running = true → s.win.fnBusy = true →
    ∃ t, exec .winFnDone s = .next t ∧
      t = { s with win := { s.win with fnBusy := false, fnDomErr := t.win.fnDomErr, fnOut := t.win.fnOut } } ∧
      (s.win.fnSel = false → fpFinite s.win.fnArg = true → fpPosFinite s.win.fnArg = false →
        t.win.fnDomErr = false ∧ t.win.fnOut = expFn s.win.fnArg) ∧
      (s.win.fnSel = false → fpFinite s.win.fnArg = false ∨ fpPosFinite s.win.fnArg = true →
        t.win.fnDomErr = true ∧ t.win.fnOut = 0) ∧
      (s.win.fnSel = true → fpPosFinite s.win.fnArg = true → t.win.fnDomErr = false ∧ t.win.fnOut = lnFn s.win.fnArg) ∧
      (s.win.fnSel = true → fpPosFinite s.win.fnArg = false → t.win.fnDomErr = true ∧ t.win.fnOut = 0))

/-- Snapshots (R478) and reads (R387, R469): SNAP copies every counter and TIME_NS and sets SNAP_VALID, with or without
RELEASE; RELEASE alone clears it; while it is 1 the counters read their snapshot. A read of a _LO register latches its
partner, which then reads the latched value; a read of an unmapped address is answered with PSLVERR. -/
def Obligations.SnapshotsAndReads : Prop :=
  (∀ (release : Bool) (now : Time) (s : State), s.serves →
    (let u := s.tick now
     exec (.perfSnap release now) s = .next { u with
      apb := apbDone, perf := { u.perf with snap := u.perf.counters, snapTime := u.timeNs, snapValid := true } })) ∧
  (∀ s : State, s.serves → exec .perfRelease s = .next { s with perf := { s.perf with snapValid := false }, apb := apbDone }) ∧
  (∀ (s : State) (n : Nat) (hi : Bool), s.perf.snapValid = true → s.regValue (.perf n hi) = half hi (tblGet 0 s.perf.snap n).toNat) ∧
  (∀ (a : BitVec 20) (now : Time) (s : State), s.powered = true →
    (let u := s.tick now
     (regOf a = none → exec (.loReadLatch a now) s = .next { u with apb := apbErr }) ∧
     (∀ r, regOf a = some r → s.boot.ready = true ∨ isBootReg r = true →
      ∃ t, exec (.loReadLatch a now) s = .next t ∧ t = { u with apb := t.apb, latches := t.latches } ∧
        t.apb = ⟨if isLatched r then tblGet 0 s.latches a.toNat else BitVec.ofNat 32 (u.regValue r), true, false⟩ ∧
        (latchPartner r = none → t.latches = s.latches) ∧
        (∀ q, latchPartner r = some q → tblGet 0 t.latches (a.toNat + 4) = BitVec.ofNat 32 (u.regValue q) ∧
          ∀ b, b ≠ a.toNat + 4 → tblGet 0 t.latches b = tblGet 0 s.latches b)) ∧
     (∀ r, regOf a = some r → s.boot.ready = false → isBootReg r = false → exec (.loReadLatch a now) s = .next { u with apb := apbErr })))

/-- A write over the control port of any address. An unmapped address, a strobe other than all ones, and before READY every
register but those of R454 are answered with PSLVERR; a halted block takes writes of its fault registers alone, and a read-only
register keeps its value (R11, R387, R430, R454). The registers that a row of their own writes are written as by that row. Every
other register reads back what was written, in the bits that R334, R335, R404, R424, R450 and their like make RW, and loses the
W1C bits that the write holds as 1; nothing else changes, but that a new steering may end a mover's grant (R384). Of the boot
registers, the addresses and the length are written until GO (R454); probe registers are not written while their BUSY is 1
(R157, R229, R385). -/
def Obligations.RegisterWrites : Prop :=
  ∀ (a : BitVec 20) (v : U32) (now : Time) (s : State), s.awake = true →
    (let u := s.tick now
     let n := v.toNat
     let done := fun (strb : BitVec 4) (t : State) => exec (.registerWrite a v strb now) s = .next t
     (regOf a = none → ∀ strb, done strb { u with apb := apbErr }) ∧
     (∀ strb, strb ≠ 15 → done strb { u with apb := apbErr }) ∧
     ∀ r, regOf a = some r →
      (s.boot.ready = false → isBootReg r = false → done 15 { u with apb := apbErr }) ∧
      (s.boot.ready = true → s.halted = true ∧ isFaultReg r = false ∨ isReadOnly r = true → done 15 { u with apb := apbDone }) ∧
      ((s.boot.ready = true → s.halted = false) →
        (r = .start → v.getLsbD 0 = true → exec (.registerWrite a v 15 now) s = exec .go u) ∧
        (r = .start → v.getLsbD 0 = false → done 15 { u with apb := apbDone }) ∧
        (∀ hi, r = .paramAddr hi ∨ r = .fwAddr hi ∨ r = .fwLen → s.boot.go = true → done 15 { u with apb := apbDone }) ∧
        (∀ hi, s.boot.go = false → (r = .paramAddr hi → ∃ b, done 15 { u with boot := { s.boot with paramAddr := b }, apb := apbDone } ∧
          half hi b.toNat = (if hi then n else n / 4096 * 4096) ∧ half (!hi) b.toNat = half (!hi) s.boot.paramAddr.toNat) ∧
          (r = .fwAddr hi → ∃ b, done 15 { u with boot := { s.boot with fwAddr := b }, apb := apbDone } ∧
          half hi b.toNat = (if hi then n else n / 4096 * 4096) ∧ half (!hi) b.toNat = half (!hi) s.boot.fwAddr.toNat)) ∧
        (r = .fwLen → s.boot.go = false → done 15 { u with boot := { s.boot with fwLen := v }, apb := apbDone })) ∧
      (s.boot.ready = true →
        (r = .fltStatus → done 15 { u with apb := apbDone, flt := { s.flt with pend := s.flt.pend &&& ~~~ v.setWidth 10 } }) ∧
        (r = .irqEn → done 15 { u with apb := apbDone, flt := { s.flt with irqEn := v.setWidth 10 ||| 8#10 } }) ∧
        (r = .irqRoute → done 15 { u with apb := apbDone, flt := { s.flt with route := v.setWidth 30 } }) ∧
        (r = .ueInfo → done 15 { u with apb := apbDone, flt := { s.flt with ueValid := s.flt.ueValid && !v.getLsbD 31 } }) ∧
        (r = .parity → done 15 { u with apb := apbDone, flt := { s.flt with parValid := s.flt.parValid && !v.getLsbD 31 } }) ∧
        (r = .stripLost → done 15 { u with apb := apbDone, flt := { s.flt with lostValid := s.flt.lostValid && !v.getLsbD 31 } })) ∧
      (s.serves →
        (let asRow := fun (i : Instr) (w : State) => exec (.registerWrite a v 15 now) s = exec i w
         (∀ g : Fin 8192, r = .gate g.val → asRow (.gateWrite g v) u) ∧
         (∀ k : Fin 256, (r = .tenant k.val 5 → asRow (.tenAdj k v) u) ∧ (r = .tenant k.val 2 → asRow (.tenWindowWrite k v now) s)) ∧
         (∀ k : Fin 64, (r = .ring k.val 3 → asRow (.doorbell k v) u) ∧ (r = .ring k.val 11 → asRow (.cplHeadWrite k v) u) ∧
          (∀ e ∈ [((0 : Nat), (0 : Fin 6)), (1, 1), (2, 2), (7, 3), (8, 4), (9, 5)], r = .ring k.val e.1 → asRow (.ringCfgWrite k e.2 v) u) ∧
          (r = .arbTkt k.val → asRow (.arbRingTktWrite k v) u) ∧ (r = .spareBank k.val → asRow (.grnSpareBankWrite k v) u)) ∧
         (∀ k : Fin 16, (r = .arbSeed → asRow (.arbRingSeed v) u) ∧ (r = .mvrSeed → asRow (.arbMvrSeed v) u) ∧
          (r = .mvrTkt k.val → asRow (.arbMvrTktWrite k v) u) ∧ (r = .spareCol k.val → asRow (.acrSpareWrite false k v) u) ∧
          (r = .spareRow k.val → asRow (.acrSpareWrite true k v) u)) ∧
         (∀ k : Fin 24, k.val < stackPorts s.build → r = .port k.val 5 → asRow (.portOosWrite k v) u) ∧
         (r = .arbCommit → v.getLsbD 0 = true → asRow .arbRingCommit u) ∧ (r = .mvrCommit → v.getLsbD 0 = true → asRow .arbMvrCommit u) ∧
         (r = .sowCtl → v.getLsbD 0 = true → asRow .sowProbeGo u) ∧ (r = .fnCtl → asRow (.winFnGo v) u) ∧
         (r = .probeCtl → asRow (.prtProbeGo v now) s) ∧ (r = .fltReset → asRow (.fltResetWrite false v now) s) ∧
         (r = .fltPortReset → asRow (.fltResetWrite true v now) s))) ∧
      (s.serves → ∃ t, done 15 t ∧
        (∀ k, r = .ring k 6 → t = { u with rings := t.rings, apb := apbDone } ∧ (∀ j, j ≠ k → t.ring j = s.ring j) ∧
          t.ring k = { s.ring k with waitTimeout := (v >>> 16).setWidth 16, holdLimit := v.setWidth 16 } ∧ t.regValue r = n) ∧
        (∀ k, r = .ring k 5 → t = { u with rings := t.rings, apb := apbDone } ∧ (∀ j, j ≠ k → t.ring j = s.ring j) ∧
          t.ring k = { s.ring k with
            cfgIgnored := (s.ring k).cfgIgnored && !v.getLsbD 27, stopped := (s.ring k).stopped && !v.getLsbD 31
            cause := if v.getLsbD 31 then 0 else (s.ring k).cause }) ∧
        (∀ i : Fin 2, r = .cplPend i.val → t = { u with cplPend := t.cplPend, apb := apbDone } ∧
          ∀ j < 64, t.cplPend.getLsbD j = (s.cplPend.getLsbD j && !(decide (j / 32 = i.val) && v.getLsbD (j % 32)))) ∧
        (∀ i : Fin 2, r = .arbStarve i.val → t = { u with arb := { s.arb with starve := t.arb.starve }, apb := apbDone } ∧
          ∀ j < 64, t.arb.starve.getLsbD j = (s.arb.starve.getLsbD j && !(decide (j / 32 = i.val) && v.getLsbD (j % 32)))) ∧
        (r = .mvrStarve → t = { u with marb := { s.marb with starve := s.marb.starve &&& ~~~ v.setWidth 16 }, apb := apbDone }) ∧
        (r = .arbCtl → t = { u with arb := { s.arb with starveDraws := v.setWidth 16 }, apb := apbDone }) ∧
        (r = .mvrCtl → t = { u with marb := { s.marb with starveDraws := v.setWidth 16 }, apb := apbDone }) ∧
        (r = .grnStatus → t = { u with granary := { s.granary with mapIgnored := s.granary.mapIgnored && !v.getLsbD 14 }, apb := apbDone }) ∧
        (r = .grnUe → t = { u with granary := { s.granary with ueValid := s.granary.ueValid && !v.getLsbD 31 }, apb := apbDone }) ∧
        (r = .grnScrub → t = { u with granary := { s.granary with scrubEn := t.granary.scrubEn, ceLimit := t.granary.ceLimit }, apb := apbDone } ∧
          t.regValue r = n / 2 ^ 31 * 2 ^ 31 + n / 2 ^ 16 % 2 ^ 8 * 2 ^ 16 + s.granary.passes.toNat) ∧
        (r = .fnArg → t = { u with win := if s.win.fnBusy then s.win else { s.win with fnArg := v }, apb := apbDone }) ∧
        (∀ k, r = .sowKey k → t = { u with win := { s.win with sowKey := t.win.sowKey }, apb := apbDone } ∧
          ∀ j, tblGet 0 t.win.sowKey j = if j = k ∧ s.win.sowBusy = false then v else tblGet 0 s.win.sowKey j) ∧
        (∀ k, r = .sowCtr k → t = { u with win := { s.win with sowCtr := t.win.sowCtr }, apb := apbDone } ∧
          ∀ j, tblGet 0 t.win.sowCtr j = if j = k ∧ s.win.sowBusy = false then v else tblGet 0 s.win.sowCtr j) ∧
        (r = .ttSel → t = { u with ttSel := n % 256, apb := apbDone }) ∧
        (∀ k : Fin 24, k.val < stackPorts s.build → r = .port k.val 0 ∨ r = .port k.val 2 →
          t = { u with ports := t.ports, apb := apbDone } ∧ (∀ j, j ≠ k.val → t.port j = s.port j) ∧
          (r = .port k.val 0 → t.port k.val = { s.port k.val with
            protoErr := (s.port k.val).protoErr && !v.getLsbD 28, rspErr := (s.port k.val).rspErr && !v.getLsbD 27 }) ∧
          (r = .port k.val 2 → t.port k.val = { s.port k.val with errValid := (s.port k.val).errValid && !v.getLsbD 31 })) ∧
        (∀ hi, (r = .probeAddr hi ∨ r = .probeData hi → s.probe.busy = true → t = { u with apb := apbDone }) ∧
          (r = .probeAddr hi → s.probe.busy = false → t = { u with probe := { s.probe with addr := t.probe.addr }, apb := apbDone } ∧
            t.regValue r = (if hi then n else n / 8 * 8) ∧ t.regValue (.probeAddr (!hi)) = s.regValue (.probeAddr (!hi))) ∧
          (r = .probeData hi → s.probe.busy = false → t = { u with probe := { s.probe with data := t.probe.data }, apb := apbDone } ∧
            t.regValue r = n ∧ t.regValue (.probeData (!hi)) = s.regValue (.probeData (!hi)))) ∧
        (∀ k o, r = .steer k o → t = { u with steer := t.steer, ports := t.ports, apb := apbDone } ∧ grantsGoOn s t ∧
          (∀ j, (t.port j).withGrant (s.port j) = s.port j) ∧ (∀ j, j ≠ k → tblGet steerReset t.steer j = tblGet steerReset s.steer j) ∧
          (let e := tblGet steerReset s.steer k
           let e' := tblGet steerReset t.steer k
           let size := n / 2 ^ 24 % 64
           let il := n / 2 ^ 16 % 32
           let count := n % 32
           (o ≤ 1 → e' = { e with base := e'.base } ∧ t.regValue r = (if o = 0 then n / 4096 * 4096 else n) ∧
             t.regValue (.steer k (1 - o)) = s.regValue (.steer k (1 - o))) ∧
           (o = 2 → e' = { e with
             en := v.getLsbD 31, log2Size := if 12 ≤ size then size else 12, log2Il := if 12 ≤ il ∧ il ≤ 22 then il else 12
             first := n / 2 ^ 8 % 32, count := if count = 0 then 1 else if 24 < count then 24 else count }))) ∧
        (r = .nrgCtl → t = { u with
          energy := { s.energy with
            planEn := t.energy.planEn, trimEn := t.energy.trimEn, gain := t.energy.gain, exitHoldUs := t.energy.exitHoldUs }
          apb := apbDone } ∧ t.regValue r = n / 2 ^ 30 * 2 ^ 30 + n % 2 ^ 20) ∧
        (∀ hi, r = .pfailAddr hi → t = { u with energy := { s.energy with pfailAddr := t.energy.pfailAddr }, apb := apbDone } ∧
          t.regValue r = (if hi then n else n / 4096 * 4096) ∧ t.regValue (.pfailAddr (!hi)) = s.regValue (.pfailAddr (!hi))) ∧
        (r = .pfailSize → t = { u with energy := { s.energy with pfailKib := v }, apb := apbDone }) ∧
        (r = .shdTimeout → t = { u with shard := { s.shard with timeoutUs := v }, apb := apbDone }) ∧
        (r = .pairStatus → t = { u with apb := apbDone, pair := if s.build.pairLink = true then { s.pair with
          diverged := s.pair.diverged && !v.getLsbD 28, failing := s.pair.failing && !v.getLsbD 27 } else s.pair }) ∧
        (r = .pairDiverge → t = { u with pair := { s.pair with divValid := s.pair.divValid && !v.getLsbD 31 }, apb := apbDone }) ∧
        (r = .linkStatus → t = { u with pair := { s.pair with down := s.pair.down && !v.getLsbD 30 }, apb := apbDone }) ∧
        (∀ k o, r = .tenant k o → o ≤ 1 → t = { u with tenants := t.tenants, apb := apbDone } ∧ (∀ j, j ≠ k → t.tenant j = s.tenant j) ∧
          t.tenant k = (if o = 0 then { s.tenant k with en := v.getLsbD 31 } else { s.tenant k with refill := n % 2 ^ 31 })) ∧
        (r = .perfCtl → t = { u with perf := t.perf, apb := apbDone } ∧
          t.perf = { u.perf with snap := t.perf.snap, snapTime := t.perf.snapTime, snapValid := t.perf.snapValid } ∧
          (v.getLsbD 0 = true → t.perf.snap = u.perf.counters ∧ t.perf.snapTime = u.timeNs ∧ t.perf.snapValid = true) ∧
          (v.getLsbD 0 = false → t.perf.snap = u.perf.snap ∧ t.perf.snapTime = u.perf.snapTime ∧
            t.perf.snapValid = (u.perf.snapValid && !v.getLsbD 1)))))

/-- Writes of PAIR_CTL. EN, ROLE and AUTO are stored; EN with every ring disabled, outside a pair, sends HELLO and waits in
FORMING for the partner's, or compares one that has come already: PAIRED where all is equal and the roles differ, else REFUSED
with MISMATCH (R441). TAKEOVER ends the following of a secondary: TAKEN_OVER, and a command that it cannot vouch for ends with
ABORTED_RESET (R447). DETACH ends a pair: DETACHED, the secondary ends its commands (R448). A build without the link ignores
them (R443, R470). -/
def Obligations.PairControl : Prop :=
  (∀ (v : U32) (s : State), s.serves → s.build.pairLink = true →
    (let begins := v.getLsbD 31 = true ∧ (∀ r < 64, (s.ring r).en = false) ∧ s.pair.state ≠ 2
     ∃ t, exec (.pairEn v) s = .next t ∧
      t.pair.en = v.getLsbD 31 ∧ t.pair.role = v.getLsbD 30 ∧ t.pair.auto = v.getLsbD 29 ∧
      t = { s with
        pair := t.pair, apb := apbDone, flt := { s.flt with pend := t.flt.pend }
        energy := { s.energy with bgEvents := t.energy.bgEvents } } ∧
      (begins → t.pair.unacked.length + t.pair.queue.length = s.pair.unacked.length + s.pair.queue.length + 1 ∧ t.pair.hello = none ∧
        (s.pair.hello = none → t.pair.state = 1 ∧ t.pair.mismatch = 0) ∧
        (∀ role version build fwVersion fwCrc, s.pair.hello = some (role, version, build, fwVersion, fwCrc) →
          (let m1 := build ≠ glbBuild s.build
           let m2 := version ≠ glbVersion
           let m4 := ¬ (fwVersion = fwVersionOf s.activeFw ∧ fwCrc = crc32c s.activeFw)
           t.pair.state = (if ¬ m1 ∧ ¬ m2 ∧ ¬ m4 ∧ role ≠ v.getLsbD 30 then 2 else 3) ∧
           t.pair.mismatch.testBit 0 = decide m1 ∧ t.pair.mismatch.testBit 1 = decide m2 ∧ t.pair.mismatch.testBit 2 = decide m4 ∧
           t.pair.mismatch < 8))) ∧
      (¬ begins → t.pair = { s.pair with en := v.getLsbD 31, role := v.getLsbD 30, auto := v.getLsbD 29 }))) ∧
  (∀ (v : U32) (now : Time) (s : State), s.serves → s.build.pairLink = true → s.secondary = true → (s.cmds.map Cmd.order).Nodup →
    (∃ t, exec (.takeover v now) s = .next t ∧ t.pair.state = 5 ∧ t.pair.holding = false ∧ t.secondary = false ∧
      ∀ c ∈ s.cmds, c.disp.isSome = true → c.stage ≠ .finished → c.endsAtOnce → s.digested c = false → c.stepped = false →
        ¬ (c.accumulates = true ∧ s.progressOf c = none) → t.holds c.order fun d => d.stage = .finished ∧ d.reason = .abortedReset) ∧
    (∃ t, exec (.detach v now) s = .next t ∧ t.pair.state = 4 ∧ t.pair.holding = false ∧ t.secondary = false ∧
      ∀ c ∈ s.cmds, c.disp.isSome = true → c.stage ≠ .finished → c.endsAtOnce →
        t.holds c.order fun d => d.stage = .finished ∧ d.reason = .abortedReset)) ∧
  (∀ (v : U32) (now : Time) (s : State), s.serves → s.build.pairLink = true → s.primary = true → s.pair.holding = false →
    ∃ t, exec (.detach v now) s = .next t ∧ t.pair.state = 4) ∧
  (∀ (v : U32) (now : Time) (s : State), s.serves → s.build.pairLink = false →
    exec (.pairEn v) s = .next { s with apb := apbDone } ∧
    exec (.takeover v now) s = .next { s.tick now with apb := apbDone } ∧ exec (.detach v now) s = .next { s.tick now with apb := apbDone })

/-! ### Start-up -/

/-- rst_n low puts every register and memory of the block at reset and leaves the memory behind its ports, the TAP and the
levels at its inputs (R369; log 1); its release begins the start. The locks of PLL B and PLL A end stages 1 and 2 (R452). GO is
kept, a second GO has no effect (R454), and stage 4 ends once GO is written and a port is in service (R452). A wrapper
instruction other than WS_BYPASS, and a self-test instrument of the selected IJTAG network, take the block out of operation: its
functional state is the model's free value (log 5) until the next rst_n, and every row but rst_n and those of the wrapper, the
TAP and the supplies moves at most the levels at the pins and the bus; WS_SAFE drives every output to its reset value (R402,
R403). The TAP itself runs in and out of operation (R402). -/
def Obligations.StartBegins : Prop :=
  (∀ s : State, exec .rstNAssert s = .next { State.ofBuild s.build s.mem with
    pending := s.pending, freeCtr := s.freeCtr, images := s.images, tap := s.tap
    pins := { s.pins with rstLow := true, barrierOut := false, wrapper := .bypass } }) ∧
  (∀ s : State, exec .rstNRelease s = .next { s with pins := { s.pins with rstLow := false } }) ∧
  (∀ s : State, s.inStage 1 = true → exec .pllBLock s = .next { s with boot := { s.boot with stage := 2 } }) ∧
  (∀ s : State, s.inStage 2 = true → exec .pllALock s = .next { s with boot := { s.boot with stage := 3 } }) ∧
  (∀ s : State, s.inStage 1 = false → exec .pllBLock s = .next s) ∧
  (∀ s : State, s.inStage 2 = false → exec .pllALock s = .next s) ∧
  (∀ s : State, s.awake = true →
    ∃ t, exec .go s = .next t ∧ t = { s with boot := t.boot, queue := t.queue, apb := apbDone } ∧
      (s.boot.go = true → t.boot = s.boot ∧ t.queue = s.queue) ∧
      (s.boot.go = false → s.boot.stage = 4 → s.boot.failed = false → (∃ k < stackPorts s.build, s.inService k = true) →
        t.boot = { s.boot with go := true, stage := 5 } ∧
        ∃ r : Range, t.queue = s.queue ++ [r] ∧ r.kind = .param ∧ r.write = false ∧ r.addr = s.boot.paramAddr.toNat ∧ r.len = 64) ∧
      (s.boot.go = false → ¬ (s.boot.stage = 4 ∧ s.boot.failed = false ∧ ∃ k < stackPorts s.build, s.inService k = true) →
        t.boot = { s.boot with go := true } ∧ t.queue = s.queue)) ∧
  (∀ (ins : WrapperIns) (s : State), ∃ t, exec (.wrapperInstructionUpdate ins) s = .next t ∧
    (ins = .bypass → t = { s with pins := { s.pins with wrapper := .bypass } }) ∧
    (ins ≠ .bypass → s.outOfOperation ins t) ∧
    (ins = .safe → t.apb = ⟨0, false, false⟩ ∧ t.barrierOut = false ∧ (∀ n, t.irq n = false) ∧ (∀ m, t.mvrIdle m = true) ∧
      ∀ k, t.portUp k = false)) ∧
  (∀ (ev : TapEvent) (s : State), ∃ t, exec (.ijtagSelfTestInstrument ev) s = .next t ∧
    (ev = .trst → t = { s with tap := ⟨.reset, 0xFF, [], false⟩ }) ∧
    (∀ tms tdi, ev = .clock tms tdi → t = { s with tap := t.tap } ∧ t.tap.state = s.tap.state.next tms ∧
      (s.tap.state = .captureDr → s.tap.ir = 0x01 → t.tap.shift = bitsOf 32 glbVersion.toNat) ∧
      (s.tap.state = .captureDr → s.tap.ir = 0x02 → t.tap.shift = bitsOf 32 (glbBuild s.build).toNat) ∧
      (s.tap.state = .captureDr → s.tap.ir ≠ 0x01 → s.tap.ir ≠ 0x02 → s.tap.ir ≠ 0x10 → t.tap.shift = [false]) ∧
      (s.tap.state = .shiftDr ∨ s.tap.state = .shiftIr → t.tap.shift = s.tap.shift.tail ++ [tdi]) ∧
      (t.tap.state = .shiftDr ∨ t.tap.state = .shiftIr → t.tap.tdo = t.tap.shift.headD false) ∧
      (t.tap.state = .updateIr → t.tap.ir = BitVec.ofNat 8 (ofBits t.tap.shift)) ∧
      (t.tap.state ≠ .updateIr → t.tap.state ≠ .reset → t.tap.ir = s.tap.ir) ∧ (t.tap.state = .reset → t.tap.ir = 0xFF)) ∧
    (ev = .run → s.tap.ir ≠ 0x10 → t = s) ∧
    (ev = .run → s.tap.ir = 0x10 → s.outOfOperation s.pins.wrapper t)) ∧
  (∀ (i : Instr) (s : State), s.outOfOp = true → reachesLostBlock i = false →
    ∃ t, exec i s = .next t ∧ t = { s with pins := t.pins, apb := t.apb }) ∧
  (∀ s : State, (State.ofBuild s.build s.mem).outOfOp = false)

/-- The end of self-test (R455, R461): every failed Acre line and Granary bank goes into the word of its group, EN and its
number where the group's spare can take it, UNREP where not; each group whose own spare failed is remembered, the banks to be
replaced are the failed ones, and more than eight that no spare covers take the Granary out of service (R115). C_EFF and ROW_HALF
follow (R90), REPLACE_REQUEST (R435), and GLB_BIST counts the banks and the lines mapped. A failure that nothing repairs stops the
start in stage 3. -/
def Obligations.SelfTestEnds : Prop :=
  ∀ (r : SelfTest) (s : State), s.inStage 3 = true →
    (let word := fun (dead : Bool) (l : List (Nat × Nat)) => match l with
       | [] => (0 : U32)
       | x :: rest => if dead then 0x40000000
         else 0x80000000#32 ||| BitVec.ofNat 32 (x.2 % 64) ||| (if rest = [] then 0 else 0x40000000#32);
     let banks := r.banks.filter fun e => decide (e.1 < bankGroups s.build);
     let mapped := fun (t : Tbl U32) (n : Nat) => ((List.range n).filter fun g => (tblGet 0 t g).getLsbD 31).length;
     (r.stop = .pass → ∃ t, exec (.selfTestDone r) s = .next t ∧
       t = { s with acre := t.acre, granary := t.granary, flt := { s.flt with replace := t.flt.replace }, boot := t.boot, queue := t.queue } ∧
       (∀ g < colGroups s.build, tblGet 0 t.acre.spareCol g = word (r.colSpares.contains g) (r.cols.filter fun e => e.1 == g)) ∧
       (∀ g < 16, tblGet 0 t.acre.spareRow g = word (r.rowSpares.contains g) (r.rows.filter fun e => e.1 == g)) ∧
       (∀ g < bankGroups s.build, tblGet 0 t.granary.spare g = word (r.bankSpares.contains g) (r.banks.filter fun e => e.1 == g)) ∧
       t.acre.deadCol = r.colSpares ∧ t.acre.deadRow = r.rowSpares ∧
       t.granary = { s.granary with spare := t.granary.spare, oos := t.granary.oos, moved := banks.map fun e => 64 * e.1 + e.2 % 64 } ∧
       (t.granary.oos = true ↔ 8 < (banks.filter fun e =>
         !((tblGet 0 t.granary.spare e.1).getLsbD 31 && (tblGet 0 t.granary.spare e.1).toNat % 64 == e.2 % 64)).length) ∧
       t.acre.cEff = effectiveCols t.usableCols (decide (s.energy.level.val = 3)) ∧ t.acre.rowHalf = t.rowHalfNow ∧
       t.flt.replace = t.replaceDue ∧ t.boot.failed = false ∧ (t.boot.stage = 4 ∨ t.boot.stage = 5) ∧
       (s.boot.go = false → t.boot.stage = 4) ∧ t.boot.bist = BitVec.ofNat 32 (
         mapped t.granary.spare (bankGroups s.build) * 2 ^ 16 +
         (mapped t.acre.spareCol (colGroups s.build) + mapped t.acre.spareRow 16) * 2 ^ 8 +
         (if t.granary.oos = true then 8 else 0) + (if t.acre.rowHalf = 3 then 4 else 0) + (if r.sramRepaired = true then 2 else 0) + 1)) ∧
     (∀ region, r.stop = .unrepairable region → exec (.selfTestDone r) s = .next { s with
       pins := { s.pins with barrierOut := false }, boot := { s.boot with failed := true, failCode := 3, failDetail := region } }) ∧
     (∀ unit, r.stop = .logicFail unit → exec (.selfTestDone r) s = .next { s with
       pins := { s.pins with barrierOut := false }, boot := { s.boot with failed := true, failCode := 4, failDetail := unit } }))

/-- The parameter block, once its read is answered: R459 takes the first failed check, and the start ends with PARAM_BAD; an
accepted block divides the Barn (R117, R475). The failed banks that no spare covers are shadowed in their order, as far as the pool
and the limit of eight allow: UNREP is set in the group of each, SHADOW in the group of each that is shadowed, and one bank more
takes the Granary out of service (R115). The firmware is then read, unless FW_LEN is out of range (R460). -/
def Obligations.ParameterBlock : Prop :=
  ∀ (now : Time) (s : State), s.inStage 5 = true → s.awake = true → s.open 0 0 .param = false →
    (let p := s.bytes s.boot.paramAddr.toNat 64;
     let h := leNat p 8 4;
     let dw := leNat p 16 4;
     let bad := fun k : Nat => ∃ t, exec (.paramsRead now) s = .next t ∧ t = { s.tick now with
       pins := { s.pins with barrierOut := false }, boot := { s.boot with failed := true, failCode := 8, failDetail := k } };
     let c1 := leNat p 0 4 = 0x50424C45;
     let c2 := leNat p 4 2 = 3;
     let c3 := le32 p 60 = crc32c (p.take 60);
     let c4 := h % 1024 = 0 ∧ 1024 ≤ h ∧ h ≤ 32768 ∧ leNat p 12 1 ≤ 1 ∧ dw ≤ 4096;
     let c5 := fixedGranules s.build h (leNat p 12 1 == 1) dw + 256 ≤ barnGranules s.build;
     let c6 := zeroRange p 6 2 = true ∧ zeroRange p 13 3 = true ∧ zeroRange p 20 40 = true;
     let bare := (s.granary.moved.filter fun b =>
       !((tblGet 0 s.granary.spare (b / 64)).getLsbD 31 && (tblGet 0 s.granary.spare (b / 64)).toNat % 64 == b % 64)).map (· / 64);
     (¬ c1 → bad 1) ∧ (c1 → ¬ c2 → bad 2) ∧ (c1 → c2 → ¬ c3 → bad 3) ∧ (c1 → c2 → c3 → ¬ c4 → bad 4) ∧
     (c1 → c2 → c3 → c4 → ¬ c5 → bad 5) ∧ (c1 → c2 → c3 → c4 → c5 → ¬ c6 → bad 6) ∧
     (c1 → c2 → c3 → c4 → c5 → c6 → ∃ t, exec (.paramsRead now) s = .next t ∧
       t = { s.tick now with
         granary := { s.granary with spare := t.granary.spare, shadows := t.granary.shadows, oos := t.granary.oos }, fields := t.fields
         barn := t.barn, flt := { s.flt with replace := t.flt.replace }, boot := t.boot, queue := t.queue
         pins := { s.pins with barrierOut := t.pins.barrierOut } } ∧
       t.barn.seedH = h ∧ t.barn.seedTrain = (leNat p 12 1 == 1) ∧ t.barn.dwStage = dw ∧
       t.barn.poolSize = barnGranules s.build - fixedGranules s.build h (leNat p 12 1 == 1) dw ∧
       t.barn.poolFree + 8 * (t.granary.shadows - s.granary.shadows) = t.barn.poolSize ∧
       t.granary.shadows = s.granary.shadows + min bare.length (min (8 - s.granary.shadows) (t.barn.poolSize / 8)) ∧
       (∀ g, tblGet 0 t.granary.spare g = tblGet 0 s.granary.spare g ||| (if g ∈ bare then 0x40000000 else 0) |||
         (if g ∈ bare.take (t.granary.shadows - s.granary.shadows) then 0x20000000 else 0)) ∧
       (t.granary.oos = true ↔ s.granary.oos = true ∨ t.granary.shadows - s.granary.shadows < bare.length) ∧
       (bare.length = t.granary.shadows - s.granary.shadows → t.fields = s.fields) ∧
       (t.granary.shadows - s.granary.shadows < bare.length → ∀ f, (t.field f).state = if (s.field f).state = 0 then 0 else 4) ∧
       t.flt.replace = t.replaceDue ∧ t.boot.stage = 6 ∧
       (1 ≤ s.boot.fwLen.toNat → s.boot.fwLen.toNat ≤ 2 ^ 20 → t.boot = { s.boot with stage := 6 } ∧ t.pins = s.pins ∧
         ∃ r : Range, t.queue = s.queue ++ [r] ∧ r.kind = .bootFw ∧ r.write = false ∧ r.addr = s.boot.fwAddr.toNat ∧ r.len = s.boot.fwLen.toNat) ∧
       (s.boot.fwLen = 0 ∨ 2 ^ 20 < s.boot.fwLen.toNat → t.queue = s.queue ∧
         t.boot = { s.boot with stage := 6, failed := true, failCode := 10, failDetail := 0 })))

/-- The firmware image, once its read is answered (R460): its size, its magic, reserved bytes and signature, its MAJOR, in
that order; an image that passes becomes bank 0, and stage 7 begins with it where fn_rst_n[4] is high, or else when it goes high.
The key the signature is checked with is the model's free value (log 7). READY follows when the firmware reports it: inputs held
low keep their functions in reset, the tenants and the meter begin at TIME_NS, and the sag level at the pins applies (R452,
R462). -/
def Obligations.FirmwareAndReady : Prop :=
  (∀ (now : Time) (s : State), s.inStage 6 = true → s.boot.fwRead = false → s.open 0 0 .bootFw = false →
    ∃ t, exec (.firmwareRead now) s = .next t ∧
      (let n := s.boot.fwLen.toNat;
       let img := s.bytes s.boot.fwAddr.toNat n;
       let size := 1 ≤ n ∧ n ≤ 2 ^ 20 ∧ n = 512 + leNat img 8 4;
       let sound := leNat img 0 4 = 0x46574C45 ∧ zeroRange img 12 20 = true ∧ zeroRange img 128 384 = true ∧
         signatureOk (img.take 32 ++ img.drop 512) ((img.drop 32).take 48) ((img.drop 80).take 48) = true;
       let major := leNat img 4 4 / 2 ^ 16 = 3;
       let failed := fun k : Nat => t = { s.tick now with
         pins := { s.pins with barrierOut := false }, boot := { s.boot with failed := true, failCode := k, failDetail := 0 } };
       (¬ size → failed 10) ∧ (size → ¬ sound → failed 11) ∧ (size → sound → ¬ major → failed 12) ∧
       (size → sound → major → t = { s.tick now with
         fw := { s.fw with bank0 := img }
         boot := { s.boot with fwRead := true, stage := if s.pins.fnLow.getLsbD 4 = true then 6 else 7 } }))) ∧
  (∀ (now : Time) (s : State), s.inStage 6 = true → s.boot.fwRead = true → exec (.firmwareRead now) s = .next (s.tick now)) ∧
  (∀ (now : Time) (s : State), s.inStage 7 = true → s.pins.fnLow.getLsbD 4 = true → exec (.fwReady now) s = .next (s.tick now)) ∧
  (∀ (now : Time) (s : State), s.inStage 7 = true → s.pins.fnLow.getLsbD 4 = false → s.rowHalfNow ≠ 3 →
    ∃ t, exec (.fwReady now) s = .next t ∧
      t = { s.tick now with
        boot := { s.boot with stage := 8, ready := true }, acre := t.acre, granary := t.granary, tenants := tenantsAt t.timeNs
        energy := { s.energy with
          level := if s.pins.sag.val = 0 then s.energy.level else s.pins.sag, epoch := epochOf t.timeNs s.energy.epochUs
          lastSample := t.timeNs, tick := tickOf t.timeNs }
        flt := { s.flt with inReset := s.pins.fnLow, pend := t.flt.pend, replace := t.flt.replace } })

/-- R452: the timeout of a stage stops the start in it, sets FAILED and writes the failure code given, with the port of a boot
read in FAIL_DETAIL (R461). Stage 4 has none before GO, stage 6 none once the image is read, stage 7 none while fn_rst_n[4] is low
(R462), and READY none. -/
def Obligations.StageTimeouts : Prop :=
  ∀ (port : Fin 24) (s : State), s.powered = true → s.boot.failed = false →
    (let failed := fun k d : Nat => exec (.startStageTimeout port) s = .next { s with
       pins := { s.pins with barrierOut := false }, boot := { s.boot with failed := true, failCode := k, failDetail := d } };
     (s.boot.stage = 1 → failed 1 0) ∧ (s.boot.stage = 2 → failed 2 0) ∧ (s.boot.stage = 3 → failed 5 0) ∧
     (s.boot.stage = 4 → s.boot.go = true → failed 6 0) ∧ (s.boot.stage = 5 → failed 7 port.val) ∧
     (s.boot.stage = 6 → s.boot.fwRead = false → failed 9 port.val) ∧
     (s.boot.stage = 7 → s.pins.fnLow.getLsbD 4 = false → failed 13 0) ∧
     (s.boot.stage = 4 ∧ s.boot.go = false ∨ s.boot.stage = 6 ∧ s.boot.fwRead = true ∨
         s.boot.stage = 7 ∧ s.pins.fnLow.getLsbD 4 = true ∨ s.boot.stage = 8 →
       exec (.startStageTimeout port) s = .next s))

/-! ### Packets and control commands -/

/-- A packet's fetch (R307, R311 to R313, R330, R379). The header slot is read, then the rest; a packet that the slot condition
does not let be fetched ends the grant and is asked for again with its LEN known; HEAD passes a packet once every slot is read,
unless a doorbell has moved HEAD since (R306; log 74); it waits in its ring's wait stage, or is refused by the first check it fails;
a bad LEN stops the ring at it. The grant goes on while its ring goes on requesting. A failed fetch is made again; a failed record
is written again. That the fetch asks for its header first is the model's cut of the hold. -/
def Obligations.PacketFetches : Prop :=
  (∀ (ring : Fin 64) (now : Time) (s : State),
    (let u := s.tick now;
     let g := u.ring ring.val;
     let q := u.arb.fetchSeq;
     let p := u.slots ring.val q 1;
     let n := if pkLen p = 0 ∨ 16 < pkLen p then 1 else pkLen p;
     packetFetchOn u ring.val = true → u.open ring.val (if u.arb.fetching = 0 then g.head else q) .fetch = false →
     ∃ t, exec (.packetFetch ring now) s = .next t ∧
       (u.arb.fetching = 0 → t = { u with
         arb := { u.arb with fetching := 1, since := u.timeNs, beats := 0, fetchSeq := g.head, moved := false }
         queue := u.queue ++ [⟨0, false, (g.base.toNat + 64 * (g.head.toNat % 2 ^ g.log2Slots)) % 2 ^ 64, 64, [], ring.val, g.head, .fetch, 0, 0⟩] }) ∧
       (u.arb.fetching = 1 → (g.tail - g.head).toNat < n →
         t = { u with rings := t.rings, arb := t.arb, queue := t.queue, energy := { u.energy with bgEvents := t.energy.bgEvents } } ∧
         t.arb = { u.arb with fetching := 0, beats := 0, grant := none } ∧
         t.ring ring.val = { g with needSlots := n } ∧ ∀ r, r ≠ ring.val → t.ring r = u.ring r) ∧
       (u.arb.fetching = 1 → n ≤ (g.tail - g.head).toNat → 1 < n →
         t = { u with arb := { u.arb with fetching := 2 }, queue := t.queue } ∧ ∃ l : List Range, t.queue = u.queue ++ l ∧
           (l.map Range.len).sum = 64 * (n - 1) ∧ ∀ x ∈ l, x.write = false ∧ x.kind = .fetch ∧ x.ring = ring.val ∧ x.seq = q) ∧
       (u.arb.fetching = 1 ∧ n ≤ (g.tail - g.head).toNat ∧ n = 1 ∨ u.arb.fetching = 2 → (∀ d ∈ u.cmds, d.order < u.nextOrder) →
         (let b := u.slots ring.val q n;
          let reason := fetchReason (stripCount u.build) u.acre.cEff b;
          { u with nextOrder := u.nextOrder + 1, arb := t.arb }.still = t.still ∧ (∀ m, t.tenantStill m = u.tenantStill m) ∧
          t.arb = { u.arb with fetching := 0, beats := 0, grant := t.arb.grant } ∧
          (∀ e, u.arb.grant = some e → t.arb.grant = if t.keepsGrant e.1 = true then some (e.1, e.2 + 1) else none) ∧
          (∀ r, r ≠ ring.val → t.ringStill r = u.ringStill r) ∧
          t.ringStill ring.val = { u.ringStill ring.val with
            needSlots := 0, head := if reason = some .badLength ∨ u.arb.moved = true then g.head else g.head + BitVec.ofNat 32 n
            stopped := g.stopped || decide (reason = some .badLength), cause := if reason = some .badLength then 2 else g.cause } ∧
          (∀ x, reason = some x → t.holds u.nextOrder fun d => d.endedWith x (cplBody []) ∧ d.ring = ring.val ∧ d.seq = q ∧ d.pkt = b) ∧
          (reason = none → t.holds u.nextOrder fun d => d.ring = ring.val ∧ d.seq = q ∧ d.pkt = b ∧ d.disp = none))))) ∧
  (∀ (ring : Fin 64) (now : Time) (s : State), s.dispatching = true →
    ∃ t, exec (.fetchRetry ring now) s = .next t ∧ t = { s.tick now with rings := t.rings } ∧
      t.ring ring.val = { s.ring ring.val with fetchFailed := false } ∧ ∀ r, r ≠ ring.val → t.ring r = s.ring r) ∧
  (∀ (ring : Fin 64) (now : Time) (s : State) (c : Cmd), s.live → (s.ring ring.val).cplBusy = true → (s.ring ring.val).cplFailed = true →
    s.recorded ring.val = some c →
    ∃ t, exec (.cplWriteRetry ring now) s = .next t ∧ t = { s.tick now with rings := t.rings, queue := t.queue } ∧
      t.ring ring.val = { s.ring ring.val with cplFailed := false } ∧ (∀ r, r ≠ ring.val → t.ring r = s.ring r) ∧
      t.queue = s.queue ++ [⟨0, true, ((s.ring ring.val).cplBase.toNat + 128 * ((s.ring ring.val).cplTail.toNat % 2 ^ (s.ring ring.val).log2Entries)) % 2 ^ 64,
        128, recordBytes (s.ring ring.val) c, ring.val, c.seq, .cpl, 0, 0⟩])

/-- Timeouts and the barrier (R324 to R327, R330, R331): a wait that lasts too long ends with GATE_TIMEOUT, a hold that lasts too
long with CUT_OFF, which stops its ring and with it the grant; a fetch that is cut off gives its packet a record where it counts as
fetched, and HEAD passes it where all of it was read (R307, R312). barrier_in low lets the next packet join; its rise drives
barrier_out low, takes the packet from the barrier and dispatches it as the packet's own row would, if it can be now. Either makes the control packets that it releases wait in order (R314). -/
def Obligations.WaitsAndBarrier : Prop :=
  (∀ (ring : Fin 64) (now : Time) (s : State) (c : Cmd), gateTimeoutOn (s.tick now) ring.val = some c →
    ∃ t, exec (.gateTimeout ring now) s = .next t ∧ (s.tick now).sameStill t ∧ t.holds c.order (Cmd.endedWith .gateTimeout (cplBody []))) ∧
  (∀ (ring : Fin 64) (now : Time) (s : State) (c : Cmd) (k : Nat), s.dispatching = true → s.waiting ring.val = some c → c.stage = .hold k →
    (s.tick now).holdOver ring.val c.entered = true →
    ∃ t, exec (.cutOff ring now) s = .next t ∧ t.holds c.order (Cmd.endedWith .cutOff (cplBody [])) ∧
      t.still = { s.tick now with arb := t.arb }.still ∧ (∀ m, t.tenantStill m = s.tenantStill m) ∧
      t.arb = { s.arb with grant := t.arb.grant } ∧
      (∀ j, s.arb.grant = some (ring.val, j) → s.arb.fetching = 0 → t.arb.grant = none) ∧
      t.ringStill ring.val = { s.ringStill ring.val with stopped := true, cause := 3 } ∧ ∀ r, r ≠ ring.val → t.ringStill r = s.ringStill r) ∧
  (∀ (ring : Fin 64) (now : Time) (s : State) (j : Nat), s.dispatching = true → s.waiting ring.val = none → s.arb.grant = some (ring.val, j) →
    s.arb.fetching ≠ 0 → (s.tick now).holdOver ring.val s.arb.since = true → (∀ d ∈ s.cmds, d.order < s.nextOrder) →
    (let past := s.fetchRead ring.val && !s.arb.moved;
     ∃ t, exec (.cutOff ring now) s = .next t ∧ t.arb = { s.arb with fetching := 0, beats := 0, grant := none } ∧
      t.ringStill ring.val = { s.ringStill ring.val with
        stopped := true, cause := 3, needSlots := if past then 0 else (s.ring ring.val).needSlots
        head := if past then (s.ring ring.val).head + BitVec.ofNat 32 (s.fetchLen ring.val) else (s.ring ring.val).head } ∧
      (∀ r, r ≠ ring.val → t.ringStill r = s.ringStill r) ∧ (∀ m, t.tenantStill m = s.tenantStill m) ∧
      { s.tick now with arb := t.arb, nextOrder := t.nextOrder }.still = t.still ∧
      (s.fetchCounted ring.val = false → t.nextOrder = s.nextOrder) ∧
      (s.fetchCounted ring.val = true → t.nextOrder = s.nextOrder + 1 ∧
        t.holds s.nextOrder fun d => d.endedWith .cutOff (cplBody []) ∧ d.ring = ring.val ∧ d.seq = s.arb.fetchSeq))) ∧
  (∀ s : State, s.awake = true →
    ∃ t, exec .barrierInLow s = .next t ∧
      t = { s with
        barrier := t.barrier, cmds := s.cmds.map (Cmd.marked s.nextOrder)
        pins := { s.pins with barrierIn := false, barrierOut := t.pins.barrierOut } } ∧
      (s.barrier.isSome = true → t.barrier = s.barrier ∧ t.pins.barrierOut = s.pins.barrierOut) ∧
      (s.barrier = none → s.working = true → ∀ c, s.cmds.find? Cmd.joins = some c → t.barrier = some c.ring ∧ t.pins.barrierOut = true)) ∧
  (∀ (now : Time) (s : State), s.awake = true → s.barrier = none →
    exec (.barrierInHigh now) s = .next { s.tick now with pins := { s.pins with barrierIn := true } }) ∧
  (∀ (now : Time) (s : State) (ring : Fin 64) (c : Cmd), s.awake = true → s.ordersOk → s.barrier = some ring.val →
    s.waiting ring.val = some c →
    (let v := { s.tick now with
       barrier := none, pins := { s.pins with barrierIn := true, barrierOut := false }
       cmds := (s.cmds.map fun d => if d.order = c.order then { c with joined := true } else d).map (Cmd.marked s.nextOrder) };
     (∃ t, exec (.barrierInHigh now) s = .next t) ∧
     (v.ctlFront ring.val c.op = none → v.classFront ring.val c.op = none → exec (.barrierInHigh now) s = .next v) ∧
     (∀ e ∈ [(opNop, Instr.nop ring now), (opFence, .fence ring now), (opGateWait, .gateWait ring now), (opGateSignal, .gateSignal ring now),
         (opEvictHead, .evictHead ring now), (opStripGet, .stripGet ring now), (opEnergySet, .energySet ring now), (opCtxSave, .ctxSave ring now),
         (opSample, .sampleStep ring now), (opVerify, .verifyTree ring now), (opHeadFwd, .headFwd ring now),
         (opTrain, .trainStep ring now), (opMerge, .shardMerge ring now)],
       c.op = e.1 → exec (.barrierInHigh now) s = exec e.2 v) ∧
     (c.op = opCtxRestore → v.restoring ring.val = none → v.seeding ring.val = none → exec (.barrierInHigh now) s = exec (.ctxRestore ring now) v)))

/-- NOP, FENCE, GATE_WAIT and GATE_SIGNAL, once dispatched (R314, R361 to R363): what each records, and the one gate that
GATE_SIGNAL adds to. -/
def Obligations.GateCommands : Prop :=
  ∀ (ring : Fin 64) (now : Time) (s : State) (c : Cmd),
    (let u := s.tick now
     (u.ctlFront ring.val opNop = some c → ∃ t, exec (.nop ring now) s = .next t ∧ ctlEnded u t c .ok []) ∧
     (u.ctlFront ring.val opFence = some c → ∃ t, exec (.fence ring now) s = .next t ∧
       ctlEnded u t c (if leNat c.run 32 1 < 2 then .ok else .badMode) []) ∧
     (u.ctlFront ring.val opGateWait = some c → ∃ t, exec (.gateWait ring now) s = .next t ∧
       (pkWaitEn c.pkt = true → ctlEnded u t c .ok [(32, 4, c.valueSeen.toNat)]) ∧
       (pkWaitEn c.pkt = false → ctlEnded u t c .badGateOp [])) ∧
     (u.ctlFront ring.val opGateSignal = some c → ∃ t, exec (.gateSignal ring now) s = .next t ∧
       (pkSigEn c.pkt = true →
         ctlEnded { u with gates := t.gates } t c .ok [(32, 4, (u.gate (pkSigGate c.pkt) + pkSigAdd c.pkt).toNat)] ∧
         (∀ j, j ≠ pkSigGate c.pkt → t.gate j = u.gate j) ∧ t.gate (pkSigGate c.pkt) = u.gate (pkSigGate c.pkt) + pkSigAdd c.pkt) ∧
       (pkSigEn c.pkt = false → ctlEnded u t c .badGateOp [])))

/-- STRIP_SET and STRIP_GET, once dispatched (R281 to R283, R331, R357): INSTALL reads the image and its ledger and copies them,
PARAMS copies the host's fields, RELEASE clears VALID, a refusal changes no strip; STRIP_GET writes the record and the ledger and
releases the strip when asked. The body on a refusal is the model's reading (log 27). -/
def Obligations.StripCommands : Prop :=
  (∀ (ring : Fin 64) (now : Time) (s : State) (c : Cmd),
    (let u := s.tick now
     let n := pkStrip c.run
     let m := pkStripMode c.run
     let img := u.bytes (pkImageAddr c.run) 256
     let len := leNat img 58 2
     let a := leNat img 80 8
     let row : Instr := if m = 1 then .stripSetParams ring now else if m = 2 then .stripSetRelease ring now else .stripSetInstall ring now
     u.ctlFront ring.val opStripSet = some c → ∃ t, exec row s = .next t ∧
      (stripCount u.build ≤ n → ctlEnded u t c .badStrip [(32, 2, n)]) ∧
      (n < stripCount u.build →
        (2 < m → stripEnded u t c .badMode id) ∧
        (m = 2 → stripEnded u t c .ok fun x => { x with valid := false }) ∧
        (m = 1 → (u.strip n).valid = false → stripEnded u t c .stripEmpty id) ∧
        (m = 0 ∨ m = 1 ∧ (u.strip n).valid = true → c.stage = .waiting →
          holdGoesOn u t c 0 [readRange .stripRead c 0 (pkImageAddr c.run) 256]) ∧
        (m = 0 ∨ m = 1 ∧ (u.strip n).valid = true → ∀ k, c.stage = .hold k → u.open c.ring c.seq .stripRead = true → t = u) ∧
        (∀ k, c.stage = .hold k → u.open c.ring c.seq .stripRead = false →
          (m = 1 → (u.strip n).valid = true → stripEnded u t c .ok (setParams img)) ∧
          (m = 0 → k = 0 → imageReservedOk img = false → stripEnded u t c .badStripRecord id) ∧
          (m = 0 → k = 0 → imageReservedOk img = true → len = 0 → stripEnded u t c .ok fun _ => installStrip img []) ∧
          (m = 0 → k = 0 → imageReservedOk img = true → len ≠ 0 → a % 4 ≠ 0 ∨ 2048 < len → stripEnded u t c .badLedger id) ∧
          (m = 0 → k = 0 → imageReservedOk img = true → len ≠ 0 → a % 4 = 0 → len ≤ 2048 →
            holdGoesOn u t c 1 [readRange .stripRead c 1 a (4 * len)]) ∧
          (m = 0 → k ≠ 0 → ∀ l, parseLedger (u.bytes a (4 * len)) len = some l → stripEnded u t c .ok fun _ => installStrip img l) ∧
          (m = 0 → k ≠ 0 → parseLedger (u.bytes a (4 * len)) len = none → stripEnded u t c .badLedger id))))) ∧
  (∀ (ring : Fin 64) (now : Time) (s : State) (c : Cmd),
    (let u := s.tick now
     let n := pkStrip c.run
     let x := u.strip n
     u.ctlFront ring.val opStripGet = some c → ∃ t, exec (.stripGet ring now) s = .next t ∧
      (stripCount u.build ≤ n → ctlEnded u t c .badStrip [(32, 2, n)]) ∧
      (n < stripCount u.build →
        (x.valid = false → stripEnded u t c .stripEmpty id) ∧
        (x.valid = true → c.stage = .waiting → u.solo →
          holdGoesOn u t c 0 (writeRange .stripWrite c 0 (pkImageAddr c.run) (stripImage x (le64 c.run 48)) ::
            if x.ledger = [] then [] else [writeRange .stripWrite c 1 (pkLedgerAddr c.run) (ledgerBytes x.ledger)])) ∧
        (x.valid = true → ∀ k, c.stage = .hold k → u.writesOpen c.ring c.seq = true → t = u) ∧
        (x.valid = true → ∀ k, c.stage = .hold k → u.writesOpen c.ring c.seq = false →
          stripEnded u t c .ok fun y => { y with valid := y.valid && !pktBit c.run 34 0 }))))

/-- The image that STRIP_GET writes serves as an INSTALL image without change (R279, R281, R282): 256 bytes with its reserved
fields zero, from which INSTALL makes the same strip, with LEDGER_ADDR the packet's; and the ledger that it writes is read back
as it was, where its tokens rise. -/
def Obligations.StripImageRoundTrip : Prop :=
  ∀ (t : Strip) (a : U64), t.valid = true → t.tenant < 2 ^ 8 → t.params.altCount < 2 ^ 8 → t.params.topK < 2 ^ 16 →
    t.params.biasCount < 2 ^ 16 → t.params.hedgeCount < 2 ^ 16 → t.params.hedgeMode < 8 → t.params.biasAddr < 2 ^ 64 →
    t.params.hedgeAddr < 2 ^ 64 → t.ledger.length < 2 ^ 16 → t.ledger.Pairwise (fun p q => p.1 < q.1) →
    (∀ p ∈ t.ledger, p.1 < 2 ^ 20 ∧ p.2 < 2 ^ 12) →
    (stripImage t a).length = 256 ∧ imageReservedOk (stripImage t a) = true ∧ leNat (stripImage t a) 58 2 = t.ledger.length ∧
    parseLedger (ledgerBytes t.ledger) t.ledger.length = some t.ledger ∧
    installStrip (stripImage t a) t.ledger = { t with ledgerAddr := a }

/-- EVICT_HEAD and FW_SWAP, once dispatched (R106, R355, R368, R460): EVICT_HEAD empties its field and tells the units freed;
FW_SWAP loads, switches or does both, and a failed load leaves the standby bank empty. The key of the signature is
free (log 7). -/
def Obligations.EvictAndFirmware : Prop :=
  (∀ (ring : Fin 64) (now : Time) (s : State) (c : Cmd),
    (let u := s.tick now
     let f := u.field (pkField c.run)
     u.ctlFront ring.val opEvictHead = some c → ∃ t, exec (.evictHead ring now) s = .next t ∧
      (f.state = 0 → ctlEnded u t c .fieldEmpty []) ∧
      (f.state ≠ 0 → ctlEnded { u with fields := t.fields } t c .ok [(32, 2, f.units)] ∧ t.field (pkField c.run) = fieldReset ∧
        ∀ n, n ≠ pkField c.run → t.field n = u.field n))) ∧
  (∀ (ring : Fin 64) (now : Time) (s : State) (c : Cmd),
    (let u := s.tick now
     let m := pkFwAction c.run
     let n := pkFwLen c.run
     let img := u.bytes (pkFwAddr c.run) n
     let a := u.flt.activeBank
     let bank (b : List Byte) : Fw := if a then { u.fw with bank0 := b } else { u.fw with bank1 := b }
     let row : Instr := if m = 1 then .fwSwapSwitch ring now else if m = 2 then .fwSwapLoadSwitch ring now else .fwSwapLoad ring now
     u.ctlFront ring.val opFwSwap = some c → ∃ t, exec row s = .next t ∧
      (2 < m → fwEnded u t c .badMode u.fw a u.flt.standbyValid u.flt.switches) ∧
      (m = 1 → u.flt.standbyValid = true → fwEnded u t c .ok u.fw (!a) true (u.flt.switches + 1)) ∧
      (m = 1 → u.flt.standbyValid = false → fwEnded u t c .noStandby u.fw a false u.flt.switches) ∧
      (m = 0 ∨ m = 2 →
        (n = 0 ∨ 2 ^ 20 < n → fwEnded u t c .fwTooLarge (bank []) a false u.flt.switches) ∧
        (n ≠ 0 → n ≤ 2 ^ 20 →
          (c.stage = .waiting → holdGoesOn u t c 0 [readRange .firmware c 0 (pkFwAddr c.run) n]) ∧
          (∀ k, c.stage = .hold k → u.open c.ring c.seq .firmware = true → t = u) ∧
          (∀ k, c.stage = .hold k → u.open c.ring c.seq .firmware = false →
            (fwCheck img n = .size ∨ fwCheck img n = .sig → fwEnded u t c .badFwSig (bank []) a false u.flt.switches) ∧
            (fwCheck img n = .version → fwEnded u t c .fwVersion (bank []) a false u.flt.switches) ∧
            (fwCheck img n = .ok → m = 0 → fwEnded u t c .ok (bank img) a true u.flt.switches) ∧
            (fwCheck img n = .ok → m = 2 → fwEnded u t c .ok (bank img) (!a) true (u.flt.switches + 1)))))))

/-- ENERGY_SET, once dispatched (R314, R367, R423): a value out of range changes nothing and the body
tells the values in force; with LOAD_COEF the hold reads the coefficients; the values wait for the next epoch, or take effect at
the end of the hold, a new epoch length by a turn of the epoch. -/
def Obligations.EnergySetting : Prop :=
  ∀ (ring : Fin 64) (now : Time) (s : State) (c : Cmd),
    (let u := s.tick now
     let e := u.energy
     let p := c.run
     let n := leNat p 60 2
     let allow := if pktBit p 32 0 then leNat p 40 8 else e.allow
     let reserve := if pktBit p 32 1 then leNat p 48 8 else e.reserve
     let us := if pktBit p 32 2 then leNat p 56 4 else e.epochUs
     let inRange := (pktBit p 32 1 = true → leNat p 48 8 ≤ allow) ∧ (pktBit p 32 2 = true → 10 ≤ us ∧ us ≤ 1000000) ∧
       (pktBit p 32 3 = true → 1 ≤ n ∧ n ≤ 256)
     let coef (i : Nat) : U32 := le32 (u.bytes (leNat p 64 8) (4 * n)) (4 * i)
     u.ctlFront ring.val opEnergySet = some c → s.ordersOk → ∃ t, exec (.energySet ring now) s = .next t ∧
      (u.fnReset 9 = true → t = u) ∧
      (u.fnReset 9 = false →
        (c.stage = .waiting → ¬ inRange → 
          ctlEnded u t c .badEnergy [(32, 8, e.allow), (40, 8, e.reserve), (48, 4, e.epochUs), (52, 2, 0)]) ∧
        (c.stage = .waiting → inRange → pktBit p 32 3 = true → holdGoesOn u t c 0 [readRange .coef c 0 (leNat p 64 8) (4 * n)]) ∧
        (∀ k, c.stage = .hold k → u.open c.ring c.seq .coef = true → t = u) ∧
        ((c.stage = .waiting ∧ inRange ∧ pktBit p 32 3 = false) ∨
            (∃ k, c.stage = .hold k) ∧ pktBit p 32 3 = true ∧ u.open c.ring c.seq .coef = false →
          (pktBit p 32 4 = true →
            ctlEnded { u with energy := { e with next := t.energy.next } } t c .ok [(32, 8, e.allow), (40, 8, e.reserve), (48, 4, e.epochUs),
              (52, 2, if pktBit p 32 3 then n else 0)] ∧
            ∃ x : EnergyNext, t.energy.next = some x ∧ x.allow = (if pktBit p 32 0 then some allow else none) ∧
              x.reserve = (if pktBit p 32 1 then some reserve else none) ∧ x.epochUs = (if pktBit p 32 2 then some us else none) ∧
              x.coefs = if pktBit p 32 3 then some ((List.range n).map coef) else none) ∧
          (pktBit p 32 4 = false →
            t.holds c.order (fun d => d.endedWith .ok (cplBody [(32, 8, allow), (40, 8, reserve), (48, 4, us), (52, 2, if pktBit p 32 3 then n else 0)])
              ∧ d.dispatchedAs u.nextOrder) ∧
            { u with nextOrder := u.nextOrder + 1, energy := t.energy }.sameStill t ∧
            t.energy.allow = allow ∧ t.energy.reserve = reserve ∧ t.energy.epochUs = us ∧ t.energy.next = e.next ∧
            t.energy.planEn = e.planEn ∧ t.energy.trim = e.trim ∧ t.energy.level = e.level ∧ t.energy.served = e.served ∧
            (∀ i, tblGet 0 t.energy.coefs i = if pktBit p 32 3 = true ∧ i < n then coef i else tblGet 0 e.coefs i) ∧
            (pktBit p 32 2 = false → t.energy.epoch = e.epoch ∧ t.energy.deficit = e.deficit) ∧
            (pktBit p 32 2 = true → t.energy.epoch = u.timeNs.toNat / (us * 1000) ∧ t.energy.deficit = min e.remain 0)))))

/-! ### Commands of a class, saves and fills -/

/-- The class commands at their dispatch (R256, R257, R260, R313, R342, R345, R359, R369, R389, R487): each enters its class queue
and asks for its strip list or descriptors; a SHARD_MERGE claims its step or completes with NO_STEP, and one with ABORT sends its
abort record to each peer, which a step aborted before, sag level 3 or a shard port in reset holds back. -/
def Obligations.ClassCommands : Prop :=
  ∀ (ring : Fin 64) (now : Time) (s : State) (c : Cmd),
    (let u := s.tick now
     let enters (i : Instr) (l : List Range) : Prop := ∃ t, exec i s = .next t ∧ classQueued { u with shard := t.shard } t c ∧
       (u.solo → ∃ v : State, t = v.settle ∧ entersQueue u v c (l.filter fun r => r.len != 0))
     (u.classFront ring.val opSample = some c → enters (.sampleStep ring now) [readRange .stripList c 0 (pkListAddr c.run) (4 * pkCount c.run)]) ∧
     (u.classFront ring.val opVerify = some c → enters (.verifyTree ring now) [readRange .desc c 0 (pkListAddr c.run) (32 * pkCount c.run)]) ∧
     (u.classFront ring.val opHeadFwd = some c → enters (.headFwd ring now) []) ∧
     (u.classFront ring.val opTrain = some c → enters (.trainStep ring now) []) ∧
     (u.classFront ring.val opMerge = some c → u.ordersOk → u.named c → ∃ t, exec (.shardMerge ring now) s = .next t ∧
       (u.mergeTarget c = none → t.holds c.order (fun d => d.endedWith .noStep (cplBody []) ∧ d.dispatchedAs u.nextOrder) ∧
         { u with nextOrder := u.nextOrder + 1 }.sameStill t) ∧
       (∀ d, u.mergeTarget c = some d → u.named d → u.solo → ∃ v : State, t = v.settle ∧
         (v.holds c.order fun x => x.stage = .running ∧ x.dispatchedAs u.nextOrder ∧ x.work.merge.tgtRing = d.ring ∧ x.work.merge.tgtSeq = d.seq) ∧
         (v.holds d.order fun x => x.work.merge.active = true ∧ x.work.merge.aborted = (d.work.merge.aborted || pktBit c.run 33 0)) ∧
         v.shard.out = (if pktBit c.run 33 0 = true ∧ u.energy.level.val < 3 ∧ d.work.merge.aborted = false ∧ u.fnReset 7 = false then
           ((u.fieldOf d).peers.map fun p => (roundRecords (u.fieldOf d) d 3 p [(0, 0, [])]).map fun b => (pkField d.run, b)).flatten else []) ∧
         v = { u with
           cmds := v.cmds, nextOrder := u.nextOrder + 1
           shard := { u.shard with out := v.shard.out, sent := add32 u.shard.sent v.shard.out.length } })))

/-- Contexts (R365, R366, R438): CTX_SAVE finds its target, tells the size, asks the target to pause or writes its image, and ends
it with SAVED; CTX_RESTORE reads an image and takes the place of the saved command, or is refused by the first check that fails.
The sections of an image are the model's own (log 8). -/
def Obligations.ContextCommands : Prop :=
  (∀ (ring : Fin 64) (now : Time) (s : State) (c : Cmd),
    (let u := s.tick now
     let body (n : Nat) := [(32, 8, n), (40, 1, pkTgtRing c.run), (44, 4, (pkTgtSeq c.run).toNat)]
     let kept := imageBytes c.work.fill.base
     let new := imageBytes u.freeCtr
     u.ctlFront ring.val opCtxSave = some c → u.ordersOk → u.named c → ∃ t, exec (.ctxSave ring now) s = .next t ∧
      (u.ctxTarget c = none → c.stage = .waiting → ctlEnded u t c .noContext (body 0)) ∧
      (u.ctxTarget c = none → c.stage = .hold 0 → ctlEnded u t c .noContext (body kept)) ∧
      (∀ d, u.ctxTarget c = some d → u.named d → d.work.steps = [] →
        (c.stage = .waiting → pkCtxSize c.run < new → ctlEnded { u with freeCtr := u.freeCtr + 1 } t c .ctxTooSmall (body new)) ∧
        (c.stage = .waiting → new ≤ pkCtxSize c.run → d.work.begun = true → d.work.ended = false →
          t = { u with freeCtr := u.freeCtr + 1, cmds := t.cmds } ∧ (t.holds c.order fun x => x.stage = .hold 0 ∧ x.work.fill.base = u.freeCtr) ∧
          t.holds d.order fun x => x.work.pauseAsked = true) ∧
        (c.stage = .waiting → new ≤ pkCtxSize c.run → d.work.begun = false ∨ d.work.ended = true → u.solo →
          ∃ b : List Byte, t = { u with
            freeCtr := u.freeCtr + 1, cmds := t.cmds, images := t.images
            queue := u.queue ++ [writeRange .ctxWrite c 0 (pkCtxAddr c.run) b] } ∧
          (t.holds c.order fun x => x.stage = .hold 1 ∧ x.work.fill.base = u.freeCtr) ∧ leNat b 8 8 = new % 2 ^ 64 ∧ leNat b 16 1 = d.op % 256 ∧
          le32 b 4 = crc32c (b.drop 8) ∧ (∃ e ∈ t.images, e.bytes = b) ∧
          t.holds d.order fun x => x.work.pauseAsked = true) ∧
        (c.stage = .hold 0 → t = u) ∧
        (c.stage = .hold 1 → u.writesOpen c.ring c.seq = true ∨ u.writesOpen (pkTgtRing c.run) (pkTgtSeq c.run) = true → t = u) ∧
        (c.stage = .hold 1 → u.writesOpen c.ring c.seq = false → u.writesOpen (pkTgtRing c.run) (pkTgtSeq c.run) = false → d.disp.isSome = true →
          (t.holds c.order fun x => x.endedWith .ok (cplBody (body kept)) ∧ x.dispatchedAs u.nextOrder) ∧
          t.holds d.order fun x => x.stage = .finished ∧ x.reason = .saved)))) ∧
  (∀ (ring : Fin 64) (now : Time) (s : State) (c : Cmd),
    (let u := s.tick now
     let a := pkCtxAddr c.run
     let size := pkCtxSize c.run
     let head := u.bytes a (min size 512)
     let n := imgBytes head
     let b := if n ≤ size then u.bytes a n else head
     (u.classFront ring.val opCtxRestore = some c → u.restoring ring.val = none → u.seeding ring.val = none → ∃ t, exec (.ctxRestore ring now) s = .next t ∧
       classQueued { u with streams := t.streams } t c ∧
       (u.solo → ∃ v : State, t = v.settle ∧ entersQueue u v c ([readRange .ctxRead c 0 a (min size 512)].filter fun r => r.len != 0))) ∧
     (u.restoring ring.val = some c → u.working = true → u.fnReset 4 = false → u.named c → ∃ t, exec (.ctxRestore ring now) s = .next t ∧
       (c.work.fill.asked = 0 ∧ 512 < n ∧ n ≤ size → t = { u with cmds := t.cmds, queue := u.queue ++ [readRange .ctxRead c 1 (a + 512) (n - 512)] }) ∧
       (¬ (c.work.fill.asked = 0 ∧ 512 < n ∧ n ≤ size) →
         (∀ r, u.restoreReason b size = some r → t.holds c.order fun x => x.endedWith r (cplBody [])) ∧
         (u.restoreReason b size = none → ∃ v : State, t = v.settle ∧ v.holds c.order fun x =>
           x.op = imgOp b ∧ x.run = imgPacket b ∧ x.seq = c.seq ∧ x.pkt = c.pkt ∧ x.disp = c.disp ∧ x.work.tokens = pkCount (imgPacket b) ∧
           x.work.pass = leNat b 20 4 ∧ x.work.s = imgTokens b)))))

/-- The fill commands (R31, R42, R54, R85, R104 to R109, R154, R155, R186 to R190, R354, R356, R358): dispatch, the refusals at the
start, the units of their work and their ends. LOAD_HEAD: a swath record or a faulty one, a block row of an array gathered or
converted, a stream-fed field. UPDATE: the gathering of GRAD_SQSUM with CLIP_EN or MODE = 1 and its end, a block row, its answer.
SOW_FILL: a chunk, its answer. An ending command writes the descriptor and begins its commit, whose record `classBody` gives. How
many units a row runs is the model's cut (log 34). -/
def Obligations.FillCommands : Prop :=
  ∀ (ring : Fin 64) (seq : U32) (n : Nat) (now : Time) (s : State) (c : Cmd),
    (let u := s.tick now
     let p := c.run
     let f := u.fieldOf c
     let w := c.work.fill
     let i := pkField p
     let goes (a : Instr) (P : State → Prop) : Prop := ∃ t, exec a s = .next t ∧ P t
     let ends (a : Instr) (P : State → Prop) : Prop := ∃ v : State, exec a s = .next v.settle ∧ P v
     let onlyField (t : State) (g : Field) : Prop := t.field i = g ∧ ∀ k, k ≠ i → t.field k = u.field k
     let queued (a : Instr) : Prop := goes a fun t => classQueued u t c
     let load (k : Nat) := Instr.loadHead ring seq k now
     let upd (k : Nat) : Instr := if pkUpdMode1 p then .updateSqsum ring seq now else if pkUpdResume p then .updateResume ring seq k now
       else .update ring seq k now
     let fill (k : Nat) := Instr.sowFill ring seq k now
     let record (g : Field) (k idx : Nat) : Range := readRange .loadSrc c idx (leNat p 48 8 + (g.first + k) * 516 * g.h) (516 * g.h)
     let rowsRead (g : Field) (idx : Nat) : List Range := ((List.range (64 * g.n)).map fun k =>
       readRange .loadSrc c (idx + k) (leNat p 48 8 + browFirst g k * g.h * loadElem p) (browRows g k * g.h * loadElem p)).filter fun r => r.len != 0
     let brow (k : Nat) : List Range := ((List.range 4).map fun j =>
       readRange .updRead c (f.brows + k) (browAddr f (leNat p (40 + 8 * j) 8) k) (browBytes f k)).filter fun r => r.len != 0
     let begins (d : Cmd) : Prop := d.stage = .committing ∧ d.reason = c.reason ∧ d.commit = true
     -- dispatch
     (c.seq = seq →
       (u.classFront ring.val opLoadHead = some c → queued (load n)) ∧ (u.classFront ring.val opUpdate = some c → queued (upd n)) ∧
       (u.classFront ring.val opSowFill = some c → queued (fill n))) ∧
     -- the packet is dispatched, and it is its turn on the Harrow
     (c.ring = ring.val → c.seq = seq → u.named c → u.ordersOk → u.solo → u.classFront ring.val c.op = none → u.fillable c = true → u.harrowTurn c = true →
       (c.op = opLoadHead → c.started = false →
         (∀ r, u.loadReason p = some r ∨ (u.loadReason p = none ∧ u.loadPlace p = .error r) →
           goes (load n) fun t => u.sameStill t ∧ t.holds c.order (Cmd.endedWith r (cplBody []))) ∧
         (∀ base units stream, u.loadReason p = none → u.loadPlace p = .ok (base, units, stream) →
           (let m := pkLoadAmax p
            let g : Field := { packetField p with
              state := 1, stream := stream, base := base, units := units, eRow := if pkLoadFmt p = 0 then pkERow p else globalExp .e2m1 m }
            (stream = false → goes (load 0) fun t =>
              t = { u with
                cmds := t.cmds, fields := t.fields
                queue := u.queue ++ (if pkLoadFmt p = 0 then [record g 0 0].filter fun r => r.len != 0 else rowsRead g 0) } ∧
              onlyField t g ∧ t.holds c.order fun d => d.stage = .running ∧ d.started = true ∧ d.work.fill.m = m ∧
                d.work.fill.gathered = (pkLoadFmt p = 0 || !fpIsZero m)) ∧
            (stream = true → ends (load 0) fun v =>
              v = { u with cmds := v.cmds, fields := v.fields } ∧
              onlyField v { g with state := 2, amax := if fpIsZero m then fpZero else m } ∧
              v.holds c.order fun d => begins d ∧ classBody (v.field i) d .ok = loadBody (v.field i) c.work)))) ∧
       (c.op = opLoadHead → c.started = true → pkLoadFmt p = 0 → w.gathered = true → u.openIdx ring.val seq .loadSrc w.done = false → w.done < f.n →
         (let rows := recordRows (u.bytes (leNat p 48 8 + (f.first + w.done) * 516 * f.h) (516 * f.h)) f.h
          let amax := if fpIsZero (pkLoadAmax p) then blocksMax f.eRow rows w.amax else pkLoadAmax p
          (hasScaleFault rows = true ∨ hasRowFault (f.rowsOf w.done) rows = true → c.work.steps = [] → u.mergeOf c = none → ends (load 1) fun v => onlyField v fieldReset ∧
            v.holds c.order fun d => d.stage = .finished ∧ d.reason = if hasScaleFault rows then .badScale else .badImage) ∧
          (hasScaleFault rows = false → hasRowFault (f.rowsOf w.done) rows = false →
            (w.done + 1 < f.n → goes (load 1) fun t =>
              t = { u with cmds := t.cmds, fields := t.fields, queue := u.queue ++ [record f (w.done + 1) (w.done + 1)].filter fun r => r.len != 0 } ∧
              onlyField t { f with swaths := f.swaths ++ [rows] } ∧
              t.holds c.order fun d => d.stage = .running ∧ d.work.fill.done = w.done + 1 ∧ d.work.fill.amax = amax) ∧
            (w.done + 1 = f.n → ends (load 1) fun v =>
              v = { u with cmds := v.cmds, fields := v.fields, granary := { u.granary with poison := v.granary.poison } } ∧
              onlyField v { f with swaths := f.swaths ++ [rows], amax := amax, state := if f.state = 4 then 4 else 2 } ∧
              v.holds c.order fun d => begins d ∧ classBody (v.field i) d .ok = loadBody (v.field i) c.work)))) ∧
       (c.op = opLoadHead → c.started = true → pkLoadFmt p ≠ 0 → w.done < 64 * f.n →
         u.openIdx ring.val seq .loadSrc (w.done + if w.gathered && fpIsZero (pkLoadAmax p) then 64 * f.n else 0) = false →
         (let (rows, bad) := u.arrayRows p f w.done
          let (blks, q) := convertBrow f.eRow (weightDraw (pktBit p 33 4) (le64 p 64) (leNat p 34 2)) (browFirst f w.done) f.h rows
          (w.gathered = false → w.done + 1 < 64 * f.n → goes (load 1) fun t => t = { u with cmds := t.cmds, perf := t.perf } ∧
            t.holds c.order fun d => d.stage = .running ∧ d.work.fill.done = w.done + 1 ∧ d.work.fill.amax = rowsMax rows w.amax) ∧
          (w.gathered = false → w.done + 1 = 64 * f.n → goes (load 1) fun t =>
            t = { u with cmds := t.cmds, fields := t.fields, queue := u.queue ++ rowsRead f (64 * f.n), perf := t.perf } ∧
            onlyField t { f with eRow := globalExp .e2m1 (rowsMax rows w.amax) } ∧
            t.holds c.order fun d => d.stage = .running ∧ d.work.fill.done = 0 ∧ d.work.fill.gathered = true ∧
              d.work.fill.m = rowsMax rows w.amax ∧ d.work.fill.amax = fpZero) ∧
          (w.gathered = true → w.done + 1 < 64 * f.n → goes (load 1) fun t =>
            t = { u with cmds := t.cmds, fields := t.fields, perf := t.perf, totals := t.totals } ∧ t.totals = (u.countQuant q bad).totals ∧
            onlyField t (addBrow w.done blks f) ∧
            t.holds c.order fun d => d.stage = .running ∧ d.work.fill.done = w.done + 1 ∧ d.work.counts = (c.countQuant q bad).work.counts ∧
              d.work.fill.amax = rowsMax rows w.amax) ∧
          (w.gathered = true → w.done + 1 = 64 * f.n → ends (load 1) fun v =>
            v = { u with
              cmds := v.cmds, fields := v.fields, perf := v.perf, totals := v.totals
              granary := { u.granary with poison := v.granary.poison } } ∧ v.totals = (u.countQuant q bad).totals ∧
            onlyField v { addBrow w.done blks f with amax := rowsMax rows w.amax, state := if f.state = 4 then 4 else 2 } ∧
            v.holds c.order fun d => begins d ∧ d.work.counts = (c.countQuant q bad).work.counts ∧
              classBody (v.field i) d .ok = loadBody (v.field i) d.work))) ∧
       (c.op = opUpdate → c.started = false →
         (∀ r, updReason f p = some r → goes (upd n) fun t => u.sameStill t ∧ t.holds c.order (Cmd.endedWith r (cplBody []))) ∧
         (updReason f p = none → pkUpdMode1 p = false → pkClipEn p = false →
           (let k := if pkUpdResume p then f.browsDone else 0
            k < f.brows → goes (upd 0) fun t => t = { u with cmds := t.cmds, fields := t.fields, queue := u.queue ++ brow k } ∧
              onlyField t { f with leftOver := false } ∧
              t.holds c.order fun d => d.stage = .running ∧ d.work.fill.done = k ∧ d.work.fill.factor = pkGradMul p ∧ d.work.fill.gathered = true)) ∧
         (updReason f p = none → pkUpdMode1 p = false → pkClipEn p = true → goes (upd 0) fun t =>
           t = { u with
             cmds := t.cmds
             queue := u.queue ++ ((List.range f.brows).map fun k =>
               readRange .updRead c k (browAddr f (leNat p 40 8) k) (browBytes f k)).filter fun r => r.len != 0 } ∧
           t.holds c.order fun d => d.stage = .running ∧ d.work.fill.asked = 0 ∧ d.work.fill.gathered = false)) ∧
       (c.op = opUpdate → c.started = true → pkUpdMode1 p = false → w.gathered = false → w.asked < f.brows →
         u.openIdx ring.val seq .updRead w.asked = false →
         (let sq := sqRow (browLeaf f w.asked) ((u.browWords f (leNat p 40 8) w.asked).map fun g =>
            if fpFinite g then some (fpMul g (pkGradMul p)) else none) w.gradSq
          goes (upd 1) fun t => t = { u with cmds := t.cmds } ∧ t.holds c.order fun d => d.stage = .running ∧
            d.work.fill.asked = w.asked + 1 ∧ d.work.fill.gradSq = sq ∧ d.work.fill.gradSqsum = sqRoot sq)) ∧
       (c.op = opUpdate → c.started = true → pkUpdMode1 p = false → w.gathered = false → f.brows ≤ w.asked → w.done < f.brows →
         goes (upd 1) fun t => t = { u with cmds := t.cmds, fields := t.fields, queue := u.queue ++ brow w.done } ∧
           onlyField t { f with leftOver := false } ∧ t.holds c.order fun d => d.stage = .running ∧ d.work.fill.gathered = true ∧
             d.work.fill.asked = w.done ∧ d.work.fill.factor = clipFactor (pkGradMul p) (le32 p 144) w.gradSqsum) ∧
       (c.op = opUpdate → c.started = true → pkUpdMode1 p = true → w.gathered = false → f.brows ≤ w.asked →
         ends (upd n) fun v => v = { u with cmds := v.cmds } ∧
           v.holds c.order fun d => begins d ∧ d.work.fill.gradSqsum = w.gradSqsum ∧ classBody f d .ok = updateBody p d.work) ∧
       (c.op = opUpdate → c.started = true → pkUpdMode1 p = false → w.gathered = true → w.asked = w.done →
         u.openIdx ring.val seq .updRead (f.brows + w.done) = false → browBytes f w.done ≠ 0 →
         (let out := (List.range (browRows f w.done * f.h)).map fun i => updElem (pkHyper p) w.factor ((u.browWords f (leNat p 40 8) w.done).getD i 0)
            ((u.browWords f (leNat p 48 8) w.done).getD i 0) ((u.browWords f (leNat p 56 8) w.done).getD i 0)
            ((u.browWords f (leNat p 64 8) w.done).getD i 0)
          let bytes (g : Updated → F32) : List Byte := (out.map fun o => leBytes 4 (g o).toNat).flatten
          goes (upd 1) fun t =>
            t.queue = u.queue ++ [writeRange .updWrite c w.done (browAddr f (leNat p 72 8) w.done) (bytes Updated.w),
              writeRange .updWrite c w.done (browAddr f (leNat p 80 8) w.done) (bytes Updated.m1),
              writeRange .updWrite c w.done (browAddr f (leNat p 88 8) w.done) (bytes Updated.m2)] ∧
            t = { u with cmds := t.cmds, fields := t.fields, queue := t.queue, totals := t.totals, perf := t.perf } ∧
            onlyField t { f with state := if f.state = 2 then 3 else f.state, swaths := (t.field i).swaths } ∧
            t.holds c.order fun d => d.stage = .running ∧ d.work.fill.asked = w.done + 1)) ∧
       (c.op = opUpdate → c.started = true → pkUpdMode1 p = false → w.gathered = true → w.done < w.asked → u.writesOpen ring.val seq = false →
         (let amax := fpMax w.amax w.rowMax
          (w.asked < f.brows → goes (upd 1) fun t => t = { u with cmds := t.cmds, queue := u.queue ++ brow w.asked } ∧
            t.holds c.order fun d => d.stage = .running ∧ d.work.fill.done = w.asked ∧ d.work.fill.amax = amax) ∧
          (f.brows ≤ w.asked → ends (upd 1) fun v => v = { u with cmds := v.cmds, fields := v.fields } ∧
            onlyField v { f with
              eRow := globalExp .e2m1 w.m, amax := amax, state := if f.state = 4 then 4 else 2
              leftOver := false, browsDone := 0, amaxPart := fpZero } ∧
            v.holds c.order fun d => begins d ∧ d.work.fill.done = w.asked ∧ d.work.fill.amax = amax ∧
              classBody (v.field i) d .ok = updateBody p d.work))) ∧
       (c.op = opSowFill → c.started = false → goes (fill 0) fun t => t = { u with cmds := t.cmds } ∧
         t.holds c.order fun d => d.stage = .running ∧ d.started = true) ∧
       (c.op = opSowFill → c.started = true → w.asked = w.done →
         (let k := min 65536 (pkFillCount p - w.done)
          pkFillBytes p w.done k ≠ [] → goes (fill 1) fun t => t = { u with cmds := t.cmds, queue := t.queue, perf := t.perf } ∧
            t.queue = u.queue ++ [writeRange .fill c w.done (leNat p 48 8 + fillOffset p w.done) (pkFillBytes p w.done k)] ∧
            t.holds c.order fun d => d.stage = .running ∧ d.work.fill.asked = w.done + k)) ∧
       (c.op = opSowFill → c.started = true → w.asked ≠ w.done → u.writesOpen ring.val seq = false →
         (w.asked ≠ pkFillCount p → goes (fill 1) fun t => t = { u with cmds := t.cmds } ∧
           t.holds c.order fun d => d.stage = .running ∧ d.work.fill.done = w.asked) ∧
         (w.asked = pkFillCount p → ends (fill 1) fun v => v = { u with cmds := v.cmds } ∧
           v.holds c.order fun d => begins d ∧ classBody f d .ok = ⟨[(32, 8, pkFillCount p)], false, false⟩))))

/-! ### Records, the pair, faults, the supplies and energy -/

/-- The records of the block: a completion record (R316), 128 bytes, the header at its offsets, the body from 32 on; the result
record of a strip-step that commits (R298), 256 bytes; the verification record of a tree (R274), 512 bytes. -/
def Obligations.RecordFormat : Prop :=
  (∀ (g : Ring) (c : Cmd), c.raw < 2 ^ 8 → c.ring < 2 ^ 6 → c.body.length = 96 →
    (let b := recordBytes g c
     b.length = 128 ∧ leNat b 0 1 = c.raw ∧ leNat b 1 1 = reasonCode c.reason ∧ leNat b 2 1 = c.ring ∧
     pktBit b 3 0 = c.intSat ∧ pktBit b 3 1 = c.intWrap ∧ pktBit b 3 2 = c.preempted ∧ pktBit b 3 3 = c.sigSkipped ∧
     pktBit b 3 4 = false ∧ pktBit b 3 5 = false ∧ pktBit b 3 6 = false ∧ pktBit b 3 7 = !g.cplTail.getLsbD g.log2Entries ∧
     le32 b 4 = c.seq ∧ le64 b 8 = pkUserTag c.pkt ∧ le64 b 16 = c.tDone ∧ leNat b 24 4 = c.cycles % 2 ^ 32 ∧
     leNat b 28 4 = (if 2 ^ 32 ≤ c.charge then 2 ^ 32 - 1 else c.charge) ∧ b.drop 32 = c.body)) ∧
  (∀ (p : StripStep) (pos : U32) (x : Selection) (token accepted emitted : Nat) (lp : F32), p.reason = 0 →
    (let b := resultBytes p pos (some x) token accepted emitted lp
     b.length = 256 ∧ leNat b 0 1 = 0 ∧ leNat b 1 1 = x.alts.length % 2 ^ 8 ∧ leNat b 2 2 = p.strip % 2 ^ 16 ∧ le32 b 4 = p.flags ∧
     le64 b 8 = p.hostTag ∧ leNat b 16 4 = token % 2 ^ 32 ∧ le32 b 20 = lp ∧ le32 b 24 = pos ∧ leNat b 28 2 = x.survivors % 2 ^ 16 ∧
     leNat b 30 1 = accepted % 2 ^ 8 ∧ leNat b 31 1 = emitted % 2 ^ 8 ∧ le64 b 32 = p.time ∧ le64 b 40 = p.deadline ∧
     leNat b 48 2 = p.idx % 2 ^ 16 ∧ leNat b 50 1 = p.tenant % 2 ^ 8 ∧ leNat b 51 5 = 0 ∧
     (∀ j, j < 20 → leNat b (56 + 4 * j) 4 = (x.alts.getD j (0, fpZero)).1 % 2 ^ 32 ∧ le32 b (136 + 4 * j) = (x.alts.getD j (0, fpZero)).2) ∧
     b.drop 216 = zeros 40)) ∧
  (∀ (w : Walk) (shift : Bool) (pos : U32), w.path.length ≤ 32 →
    (let b := vrecBytes w shift pos
     b.length = 512 ∧ leNat b 0 1 = w.accepted % 2 ^ 8 ∧ leNat b 1 1 = w.path.length ∧ leNat b 3 1 = 0 ∧ le32 b 4 = pos ∧ le64 b 8 = 0 ∧
     pktBit b 2 0 = w.hedgeStop ∧ pktBit b 2 1 = w.budgetCap ∧ pktBit b 2 2 = shift ∧ leNat b 2 1 < 8 ∧
     (∀ n, n < 256 → pktBit b (16 + n / 8) (n % 8) = (n != 0 && w.path.contains n)) ∧
     (∀ k, k < 32 → leNat b (48 + k) 1 = w.path.getD k 0 % 2 ^ 8 ∧ leNat b (80 + 4 * k) 4 = w.tokens.getD k 0 % 2 ^ 32 ∧
       le32 b (208 + 4 * k) = w.lps.getD k fpZero) ∧
     b.drop 336 = zeros 176))

/-- What a written record brings about (R119, R257, R313, R317 to R319, R481): CPL_TAIL advances, the packet leaves, its allocation
returns to the pool (in `v`, before what waited goes on and may take it again), its signal is applied unless R319 excepts it, its
ring's interrupt bit is set, and the record is counted. -/
def Obligations.CompletionWritten : Prop :=
  ∀ (ring : Fin 64) (now : Time) (s : State) (c : Cmd),
    (let u := s.tick now
     let g := pkSigGate c.pkt
     let signals := pkSigEn c.pkt && !(pkSigOkOnly c.pkt && c.reason != .ok) &&
       !([Reason.badLength, .badOpcode, .reservedNonzero, .gateTimeout, .badGateOp].contains c.reason) && !(c.raw == opGateSignal && c.disp.isSome)
     completionWrittenOn u ring.val = some c → u.ordersOk → u.solo →
     ∃ t, exec (.completionWritten ring now) s = .next t ∧ t.ringStill ring.val = { u.ringStill ring.val with cplTail := (u.ring ring.val).cplTail + 1 } ∧
       (∀ r, r ≠ ring.val → t.ringStill r = u.ringStill r) ∧ (∀ d ∈ t.cmds, d.order ≠ c.order) ∧
       (∀ d ∈ u.cmds, d.order ≠ c.order → ∃ x ∈ t.cmds, x.order = d.order ∧ x.pkt = d.pkt) ∧
       t.gate g = (if signals then u.gate g + pkSigAdd c.pkt else u.gate g) ∧ (∀ j, j ≠ g → t.gate j = u.gate j) ∧
       t.cplPend = (if pkIrq c.pkt then u.cplPend ||| BitVec.ofNat 64 (2 ^ ring.val) else u.cplPend) ∧
       t.fields = u.fields ∧ t.strips = u.strips ∧ (∀ n, t.tenantStill n = u.tenantStill n) ∧ t.tensors = u.tensors ∧ t.ports = u.ports ∧ t.flt.inReset = u.flt.inReset ∧
       t.energy.allow = u.energy.allow ∧ t.mem = u.mem ∧
       -- the pool, the counters and the tag of a sharded command, before what waited goes on
       (∃ v : State, t = (if c.cls = 1 ∨ c.cls = 2 then v.settle.dropGrant.reconsider false else v.settle.dropGrant) ∧
         v.barn = (if c.granted then { u.barn with poolFree := u.barn.poolFree + c.granules } else u.barn) ∧
         v.cmds.map Cmd.order = (u.cmds.filter fun d => d.order != c.order).map Cmd.order ∧
         v.perf = (let n := if c.raw = opCtxRestore ∧ c.work.begun = false then 8 else 5 + c.cls
           if c.reason = .ok then (u.perfAdd n 1).perf else ((u.perfAdd n 1).perfAdd 9 1).perf) ∧
         (c.sharded = true → pkStepTag c.run ∈ v.shard.gone)))

/-- The pair link (R396, R397, R419, R441, R444, R446 to R449): the bytes of a frame, what each frame does to a member whose link
takes it, in order and with no frame waiting, and what the link does by itself. What divergence and detaching leave, the FSEQs
after a link that went down, the count of REPLAYS and a frame of another TYPE are readings of the model (log 19, log 20, log 21,
log 76). -/
def Obligations.PairFrames : Prop :=
  (∀ f : PairFrame, f.type < 256 → f.payload.length = 116 → f.bytes.length = 128 ∧ leNat f.bytes 0 1 = f.type ∧ leNat f.bytes 1 1 = 0 ∧
    leNat f.bytes 2 2 = f.fseq.toNat ∧ leNat f.bytes 4 2 = f.ack.toNat ∧ leNat f.bytes 6 2 = 0 ∧ (f.bytes.drop 8).take 116 = f.payload ∧
    le32 f.bytes 124 = crc32c (f.bytes.take 124)) ∧
  (∀ (s : State) (now : Time) (h : FrameHdr) (ty : Byte), s.linked = true → s.pair.queue = [] →
    (let back (x : State) : State := { x with
       pair := { x.pair with returned := x.pair.returned + 1 }, energy := { x.energy with bgEvents := evAdd x.energy.bgEvents 13 4 } }
     (h.crcOk = false → h.idx = 0 → exec (.pairIdle h ty) s = .next (back { s with pair := { s.pair with crcErr := s.pair.crcErr + 1 } })) ∧
     (h.crcOk = true → h.idx = 0 → h.fseq ≠ s.pair.rxNext → exec (.pairIdle h ty) s = .next (back { s with pair :=
       { s.pair with unacked := s.pair.unacked.filter fun f => decide ((f.fseq - h.ack).toNat < 2 ^ 15) } }))) ∧
    -- accepted: the frame itself, or a later entry of the frame taken last
    (h.crcOk = true → (h.idx = 0 ∧ h.fseq = s.pair.rxNext ∨ h.idx ≠ 0 ∧ h.fseq + 1 = s.pair.rxNext) →
      (let v := if h.idx = 0 then s.tookFrame h else s
       let u := if h.idx = 0 then (s.tick now).tookFrame h else s.tick now
       let kept (p : Pair) : Pair := { p with dispatches := [], checks := [], commits := [], progress := [], theirs := [] }
       -- control frames
       exec (.pairIdle h ty) s = .next v ∧
       (∀ (role : Bool) (version build fwVersion fwCrc : U32),
         (let differs := (if build = glbBuild s.build then 0 else 1) + (if version = glbVersion then 0 else 2) +
            (if fwVersion = fwVersionOf s.activeFw ∧ fwCrc = crc32c s.activeFw then 0 else 4)
          let hello := exec (.pairHello h role version build fwVersion fwCrc) s
          (s.pair.state = 2 → hello = .next v) ∧
          (s.pair.state ≠ 1 → s.pair.state ≠ 2 → hello = .next { v with
            pair := { v.pair with hello := some (role, version, build, fwVersion, fwCrc) } }) ∧
          (s.pair.state = 1 → differs = 0 → role ≠ s.pair.role → hello = .next { v with
            pair := kept { v.pair with mismatch := 0, hello := none, state := 2 }, flt := { v.flt with pend := v.flt.pend ||| 0x100 } }) ∧
          (s.pair.state = 1 → differs ≠ 0 ∨ role = s.pair.role → hello = .next { v with
            pair := { v.pair with mismatch := differs, hello := none, state := 3 }, flt := { v.flt with pend := v.flt.pend ||| 0x100 } }))) ∧
       (s.pair.auto = false ∨ s.secondary = false → exec (.pairFailing h now) s = .next { u with
         pair := { u.pair with failing := true }, flt := { u.flt with pend := u.flt.pend ||| 0x100 } }) ∧
       (s.pair.auto = true → s.secondary = true → ∃ t, exec (.pairFailing h now) s = .next t ∧ t.pair.state = 5 ∧
         t.pair.failing = true ∧ t.pair.holding = false ∧ t.flt.pend.getLsbD 8 = true) ∧
       exec (.pairDetachFrame h) s = .next (if s.pair.state = 2 then { v with
         pair := { v.pair with holding := s.pair.role, state := 4 }, flt := { v.flt with pend := v.flt.pend ||| 0x100 } } else v) ∧
       -- a DIGEST entry
       (∀ e : DigestEntry,
         (s.primary = true → exec (.pairDigest h e now) s = .next { u with
           pair := { u.pair with
             diverged := true, divValid := true, divRing := if s.pair.divValid then s.pair.divRing else e.ring.val
             divSeq := if s.pair.divValid then s.pair.divSeq else e.seq, state := 4 }
           flt := { u.flt with pend := u.flt.pend ||| 0x100 } }) ∧
         (s.secondary = true → exec (.pairDigest h e now) s = .next { u with pair := { u.pair with
           theirs := s.pair.theirs ++ [(e.ring.val, e.seq, e.crc)]
           progress := s.pair.progress.filter fun p => !(p.1 == e.ring.val && p.2.1 == e.seq) } }.settle)) ∧
       -- a STATE entry
       (∀ e : StateEntry, s.secondary = true → s.pair.state = 2 →
         exec (.pairStateDispatch h e now) s =
           .next { u with pair := { u.pair with dispatches := s.pair.dispatches ++ [(e.ring.val, e.seq)] } }.settle ∧
         exec (.pairStateCheck h e) s = .next { v with pair := { v.pair with
           checks := s.pair.checks ++ [(e.ring.val, e.seq, e.time, e.narrow, e.shed)] } } ∧
         (let waits (c : Cmd) : Prop := s.cmd e.ring.val e.seq = some c ∧ c.stage = .committing ∧ c.work.steps = []
          (∀ c, waits c → exec (.pairStateCommit h e) s = .next (v.setCmd { c with commit := true }).settle) ∧
          ((∀ c, ¬ waits c) → exec (.pairStateCommit h e) s = .next { v with pair := { v.pair with
            commits := s.pair.commits ++ [(e.ring.val, e.seq, e.time)] } })) ∧
         exec (.pairStateProgress h e) s = .next { v with pair := { v.pair with
           progress := (e.ring.val, e.seq, e.progA.toNat, e.progB.toNat) ::
             s.pair.progress.filter fun p => !(p.1 == e.ring.val && p.2.1 == e.seq) } })))) ∧
  -- the link
  (∀ s : State, s.linked = true →
    (s.pair.queue = [] → exec .pairCredit s = .next { s with pair := { s.pair with
      credits := min 32 (s.pair.credits + 1), up := true, returned := s.pair.returned + if s.pair.up then 0 else 32 } }) ∧
    (let fs := (s.pair.unacked.filter fun f => decide (s.energy.level.val < 3) || f.type == 0).take s.pair.credits
     s.pair.up = true → fs ≠ [] → exec .pairResend s = .next { s with
      pair := { s.pair with
        replays := s.pair.replays + 1, credits := s.pair.credits - fs.length
        unacked := s.pair.unacked.map fun f => if fs.contains f then { f with ack := s.pair.rxNext } else f }
      energy := { s.energy with bgEvents := evAdd s.energy.bgEvents 13 (4 * fs.length) } }) ∧
    (s.pair.up = true → s.pair.credits ≠ 0 → s.pair.unacked.length < 32 → exec .pairIdleSend s = .next { s with
      pair := { s.pair with
        credits := s.pair.credits - 1, txNext := s.pair.txNext + 1
        unacked := s.pair.unacked ++ [⟨s.pair.txNext, s.pair.rxNext, 0, zeros 116⟩] }
      energy := { s.energy with bgEvents := evAdd s.energy.bgEvents 13 4 } }) ∧
    (s.pair.up = true → exec .pairLinkDown s = .next (
      let p := { s.pair with
        up := false, down := true, credits := 0, txNext := 0, rxNext := 0, unacked := [], queue := [], hello := none
        holding := s.pair.holding || (s.pair.state == 2 && s.pair.role) }
      if s.pair.state = 2 then { s with pair := { p with state := 4 }, flt := { s.flt with pend := s.flt.pend ||| 0x100 } }
      else { s with pair := p })))

/-- The block's own faults, the sag input, the power-fail hold and the supplies (R21, R111 to R114, R370, R399, R400, R409,
R418 to R421, R426 to R431, R462): each event's effect, with what it leaves alone. Which field owns a word, what a lost supply
leaves, the source of a time fault and the banks that a scrub read may come from are readings of the model (log 25, log 26,
log 80). -/
def Obligations.FaultsAndSupply : Prop :=
  ∀ (s : State) (now : Time),
    (let u := s.tick now
     let first (f : Flt) (region word : Nat) : Flt :=
       if f.ueValid then f else { f with ueValid := true, ueRegion := region, ueWord := BitVec.ofNat 25 word }
     let counted (n : Nat) : Flt := { s.flt with
       corrected := (s.flt.corrected + n) % 2 ^ 16, pend := if 2 ^ 16 ≤ s.flt.corrected + n then s.flt.pend ||| 1 else s.flt.pend }
     -- a scrub read: each bank's words in ascending order
     (∀ (b w : Nat) (f : ScrubRead) (sup : Bool),
       (let step := exec (.scrubStep b w f sup) s
        (s.granary.scrubEn = false ∨ s.energy.level.val = 3 ∨ w ≠ tblGet 0 s.granary.scanned b → step = .next s) ∧
        (s.live → s.granary.scrubEn = true → s.energy.level.val < 3 → b < bankCount s.build → w < bankWords s.build →
          w = tblGet 0 s.granary.scanned b → f = .uncorrectable ∨ (b, w) ∉ s.granary.poison →
          (let n := s.granary.scrubbed + 1
           let g := if n = bankCount s.build * bankWords s.build then { s.granary with scrubbed := 0, scanned := [], passes := s.granary.passes + 1 }
             else { s.granary with scrubbed := n, scanned := tblModify 0 s.granary.scanned b (· + 1) }
           let perf := { s.perf with counters := tblModify 0 s.perf.counters 21 (· + 1) }
           let read := { s.energy with bgEvents := evAdd s.energy.bgEvents 4 1 }
           let back := if sup then read else { read with bgEvents := evAdd read.bgEvents 5 1 }
           let ce := tblModify 0 s.granary.bankCe b (· + 1)
           let damage (e : Nat × Field) : Nat × Field :=
             if e.2.base ≤ Config.unitOfWord b w ∧ Config.unitOfWord b w < e.2.base + e.2.units ∧ e.2.state ≠ 0 then (e.1, { e.2 with state := 4 }) else e
           let worse : Granary := if g.ueValid then g else { g with ueValid := true, ueBank := b, ueWord := w }
           (f = .clean → step = .next { s with perf := perf, granary := g, energy := read }) ∧
           (f = .corrected → tblGet 0 s.granary.bankCe b + 1 < s.granary.ceLimit →
             step = .next { s with perf := perf, flt := counted 1, energy := back, granary := { g with ceCount := g.ceCount + 1, bankCe := ce } }) ∧
           (f = .corrected → s.granary.ceLimit ≤ tblGet 0 s.granary.bankCe b + 1 → s.granary.served b = false →
             (let x := tblGet 0 s.granary.spare (b / 64)
              x.getLsbD 31 = false → x.getLsbD 28 = false → ∃ t, step = .next t ∧
                t = { s with perf := perf, flt := counted 1, energy := back, granary := { g with
                  ceCount := g.ceCount + 1, bankCe := ce, moved := g.moved ++ [b], moving := g.moving ++ [b], spare := t.granary.spare } } ∧
                tblGet 0 t.granary.spare (b / 64) = ((x ||| 0x10000000) &&& ~~~ 0x3F#32) ||| BitVec.ofNat 32 (b % 64) ∧
                ∀ k, k ≠ b / 64 → tblGet 0 t.granary.spare k = tblGet 0 s.granary.spare k)) ∧
           (f = .uncorrectable → s.granary.served b = true → step = .next { s with
             perf := perf, granary := worse, energy := read, flt := { s.flt with pend := s.flt.pend ||| 2 }, fields := s.fields.map damage }) ∧
           (f = .uncorrectable → ∃ t, step = .next t ∧ t.flt.pend.getLsbD 1 = true ∧ t.granary.served b = true ∧
             t.granary.ueValid = true ∧ t.granary.ueBank = worse.ueBank ∧ t.granary.ueWord = worse.ueWord ∧
             t = { s with
               perf := perf, granary := t.granary, energy := read, fields := t.fields, flt := t.flt
               barn := { s.barn with poolFree := t.barn.poolFree } }))))) ∧
     -- the end of a migration copy, which has corrected `n` words and found those of `bad` uncorrectable
     (∀ (g : Fin 64) (n : Nat) (bad : List Nat) (b : Nat), s.live → s.energy.level.val < 3 →
       s.granary.moving.find? (fun b => b / 64 == g.val) = some b → s.rowHalfNow ≠ 3 → s.replaceDue = false ∨ s.flt.replace = true →
       (let words := bankWords s.build
        let energy := { s.energy with bgEvents := evAdd (evAdd s.energy.bgEvents 4 words) 5 words }
        let copied := { s.granary with
          ceCount := s.granary.ceCount + BitVec.ofNat 32 n, moving := s.granary.moving.erase b
          poison := s.granary.poison ++ (bad.filter fun w => decide (w < words) && !s.granary.poison.contains (b, w)).map fun w => (b, w) }
        (s.acre.run.isSome = true → exec (.migrationCopyDone g n bad) s = .next { s with
          granary := { copied with due := s.granary.due ++ [b] }, flt := counted n, energy := energy }) ∧
        (s.acre.run = none → s.granary.due = [] → (∀ m ∈ s.granary.moving.erase b, m / 64 ≠ g.val) →
          (let x := tblGet 0 s.granary.spare g.val
           ∃ t, exec (.migrationCopyDone g n bad) s = .next t ∧
             t = { s with granary := { copied with spare := t.granary.spare }, acre := t.acre, flt := counted n, energy := energy } ∧
             tblGet 0 t.granary.spare g.val =
               (if x.getLsbD 31 = false ∧ x.toNat % 64 = b % 64 then x ||| 0x80000000 else x) &&& ~~~ 0x10000000#32)))) ∧
     -- faults that halt, or switch the firmware bank: only what a begun commit writes still leaves
     (∀ word : Nat,
       (let sends (r : Nat) (q : U32) : Bool := match u.cmd r q with
          | some c => c.stage == .committing && c.commit
          | none => false
        let ended (r : Nat) (q : U32) : Bool := match u.cmd r q with
          | some c => c.stage == .finished
          | none => true
        let halts (a : Instr) (f : Flt) : Prop := ∃ t, exec a s = .next t ∧
          t = { u with
            flt := f, pins := { s.pins with barrierOut := false }, queue := t.queue, cmds := t.cmds, perf := t.perf
            streams := { s.streams with queue := t.streams.queue } } ∧
          (s.acre.run = none → t.cmds = s.cmds ∧ t.perf = u.perf ∧
            t.queue = s.queue.filter (fun g => g.kind != .cpl && sends g.ring g.seq) ∧
            t.streams.queue = s.streams.queue.filter fun g => sends g.ring g.seq || ended g.ring g.seq)
        (u.running = true → s.flt.ledgerLost = false → s.pair.state ≠ 2 →
          halts (.ledgerLost word now) { first s.flt 10 word with ledgerLost := true, pend := s.flt.pend ||| 8 }) ∧
        (u.live → s.flt.standbyValid = false → s.pair.state ≠ 2 →
          halts (.fwBankUe word now) { first s.flt 11 word with fwLost := true, pend := s.flt.pend ||| 8 }) ∧
        (u.live → s.flt.standbyValid = true → ∃ t, exec (.fwBankUe word now) s = .next t ∧ t.flt.activeBank = !s.flt.activeBank ∧
          t.flt.standbyValid = false ∧ t.flt.switches = s.flt.switches + 1 ∧ t.flt.fwLost = s.flt.fwLost ∧ t.flt.pend.getLsbD 2 = true ∧
          t.flt.inReset = (if u.cmds.any Cmd.inCommit then s.flt.inReset else s.flt.inReset ||| 0x10) ∧
          t.flt.ueRegion = (first s.flt 11 word).ueRegion ∧ t.fw = s.fw ∧ keptByReset u t))) ∧
     -- a strip that is lost
     (∀ (strip : BitVec 12) (ledger : Bool) (word : Nat), u.live → u.ordersOk → strip.toNat < stripCount s.build →
       (let n := strip.toNat
        let lost (p : StripStep) : StripStep :=
          if p.strip = n ∧ p.reason = 0 ∧ p.committed = false ∧ p.asked = false then
            { p with reason := stepCode .abortedReset, sel := none, emitted := 0, reserved := 0 } else p
        ∃ t, exec (.stripLost strip ledger word now) s = .next t ∧ t.strip n = { s.strip n with valid := false } ∧
          (∀ k, k ≠ n → t.strip k = s.strip k) ∧
          t.cmds = u.cmds.map (fun c => { c with work := { c.work with steps := c.work.steps.map lost } }) ∧
          t = { u with
            strips := t.strips, cmds := t.cmds, tenants := t.tenants
            flt := { first s.flt (if ledger then 1 else 0) word with
              pend := s.flt.pend ||| 2, lostValid := true, lostCount := s.flt.lostCount + 1
              lostStrip := if s.flt.lostValid then s.flt.lostStrip else strip } })) ∧
     -- time and sag: the level at the pins is the largest i with sag_n[i - 1] low
     (∀ input : Time, s.running = true → input < s.timeNs →
       exec (.timeFault input) s = .next { s with flt := { s.flt with pend := s.flt.pend ||| 0x201 } }) ∧
     (∀ n : BitVec 3,
       (let l : SagLevel := if n.getLsbD 2 = false then 3 else if n.getLsbD 1 = false then 2 else if n.getLsbD 0 = false then 1 else 0
        (u.running = false → exec (.sagLevelRise n now) s = .next { u with pins := { s.pins with sagN := n } }) ∧
        (u.running = true → s.rowHalfNow ≠ 3 →
          (s.energy.level.val < l.val → ∃ t v : State, exec (.sagLevelRise n now) s = .next t ∧ t = v.settle ∧
            v.energy = { s.energy with level := l, belowSince := none } ∧
            v.pins = { s.pins with sagN := n } ∧ v.flt.pend.getLsbD 7 = true ∧ v.acre.clkHalf = decide (2 ≤ l.val) ∧
            (s.acre.run = none ∨ s.pair.state ≠ 2 → v.acre.narrow = decide (2 ≤ l.val) ∧ v.acre.shed = decide (2 ≤ l.val)) ∧
            (s.acre.run.isSome = true → v.acre.cEff = s.acre.cEff ∧ v.acre.sagHalf = s.acre.sagHalf) ∧
            (s.acre.run = none → v.acre.cEff = effectiveCols s.usableCols (decide (l.val = 3)) ∧ v.acre.sagHalf = decide (l.val = 3)) ∧
            v = { u with energy := v.energy, pins := v.pins, acre := v.acre, flt := v.flt, granary := v.granary }) ∧
          (l.val ≤ s.energy.level.val → exec (.sagLevelRise n now) s = .next { u with
            pins := { s.pins with sagN := n }
            energy := { s.energy with belowSince := if l.val < s.energy.level.val then
              (if s.pins.sag.val < s.energy.level.val then s.energy.belowSince else some u.timeNs) else none } }.settle)))) ∧
     (∀ since : Time, u.running = true → s.rowHalfNow ≠ 3 → s.pair.queue = [] → s.pins.sag.val < s.energy.level.val →
       s.energy.belowSince = some since → s.energy.exitHoldUs.toNat * 1000 ≤ (u.timeNs - since).toNat →
       ∃ t v : State, exec (.sagLevelFall now) s = .next t ∧ t = v.settle ∧ v.energy.level.val + 1 = s.energy.level.val ∧
         v.energy = { s.energy with level := v.energy.level, belowSince := if s.pins.sag = v.energy.level then none else some u.timeNs } ∧
         v.flt.pend.getLsbD 7 = true ∧ v.acre.clkHalf = decide (2 ≤ v.energy.level.val) ∧
         v = { u with energy := v.energy, acre := v.acre, flt := v.flt, granary := v.granary }) ∧
     -- the power-fail hold
     (∀ strand : Fin 64,
       (u.awake = false → exec (.powerFailHold strand now) s = .next { u with pins := { s.pins with pfailLow := true } }) ∧
       (u.awake = true → s.boot.ready = false → s.boot.failed = false → exec (.powerFailHold strand now) s = .next { u with
         pins := { s.pins with pfailLow := true, barrierOut := false }
         boot := { s.boot with failed := true, failCode := 0x0E, failDetail := s.boot.stage } }) ∧
       (u.awake = true → s.boot.ready = true → ∃ t, exec (.powerFailHold strand now) s = .next t ∧ t.energy.pfail = true ∧ t.pins.pfailLow = true ∧
         (s.energy.pfail = false → t.flt.pend.getLsbD 7 = true ∧ ∀ c : Cmd, u.ordersOk → u.named c → c.stage = .waiting → c.disp = none → c.savable = false →
           t.holds c.order fun d => d.stage = .finished ∧ d.reason = .abortedReset))) ∧
     (u.running = true → s.energy.pfail = true → s.energy.pfailArea = true → (∀ g ∈ s.ranges, g.write = false) →
       s.halted = true ∨ (∀ c ∈ s.cmds, (s.ring c.ring).cplBusy = false ∧ (s.recordReady c = false ∨ cplFull (s.ring c.ring) = true)) →
       exec (.held now) s = .next { u with energy := { s.energy with heldFlag := true } }) ∧
     -- supplies and presetn
     exec .apbInterfaceReset s = .next { s with apb := ⟨0, false, false⟩ } ∧
     (∀ island : Island, ∃ t, exec (.supplyRemoved island) s = .next t ∧ t.freeCtr = s.freeCtr + 1 ∧ t.pending = s.pending ∧
       t.build = s.build ∧ t.mem = s.mem ∧
       (island = .winnow → t = { s with freeCtr := t.freeCtr, win := t.win }) ∧
       (island = .harrow → t = { s with freeCtr := t.freeCtr, ttSel := t.ttSel, totals := t.totals }) ∧
       (island = .link → t = { s with freeCtr := t.freeCtr, streams := t.streams, shard := t.shard, pair := t.pair }) ∧
       (island = .acre → t = { s with
         freeCtr := t.freeCtr, acre := t.acre, granary := t.granary, fields := t.fields, barn := t.barn
         seed0 := t.seed0, seed1 := t.seed1, strips := t.strips, tensors := t.tensors }) ∧
       (∀ k, island = .port k → t = { s with freeCtr := t.freeCtr, ports := t.ports } ∧ ∀ j, j ≠ k → t.port j = s.port j) ∧
       (island = .ctrl → t.strips = s.strips ∧ t.fields = s.fields ∧ t.granary = s.granary ∧ t.tensors = s.tensors ∧ t.ports = s.ports ∧
         t.pair = s.pair ∧ t.win = s.win ∧ t.pins = s.pins ∧ t.tap = s.tap)))

/-- The energy ledger and the planner (R406 to R408, R411, R412, R415 to R417), the pool (R120) and the counters of time (R479,
R480): an admission, a pool grant, the end of a tick, what TIME_NS counts as it passes, the turn of an epoch, a telemetry
sample. The arithmetic of TRIM is a reading of the model (log 22), and so is what a tick's row carries (log 42). -/
def Obligations.EnergyAccounting : Prop :=
  ∀ (s : State) (now : Time),
    (let u := s.tick now
     let e := s.energy
     let owed := (s.cmds.map fun c => if c.admitted && (c.cls == 1 || c.cls == 2) then c.proj * ujUnit - c.acct else 0).sum
     -- admission
     (∀ (ring : Fin 64) (seq : U32) (c : Cmd), s.planning = true → s.ordersOk → s.named c → c.ring = ring.val → c.seq = seq → c.admittable = true →
       (let p := s.projection c
        let behind := e.planEn = true ∧ ∃ d ∈ s.cmds, d.order ≠ c.order ∧ d.isDeferred = true ∧ d.dispOrder < c.dispOrder ∧ d.cls ≤ c.cls
        let room := (p : Int) ≤ (e.allow : Int) - e.reserve ∧
          ((p * ujUnit + owed : Nat) : Int) ≤ ((e.allow * ujUnit : Nat) : Int) + e.deficit - e.spent - ((e.reserve * ujUnit - e.genSpent : Nat) : Int)
        (behind → ∃ t, exec (.energyAdmit ring seq) s = .next t ∧ t = { s with cmds := t.cmds } ∧
          t.holds c.order fun d => d = { c with deferred := true }) ∧
        (¬ behind → ∃ t v : State, exec (.energyAdmit ring seq) s = .next t ∧ t = v.settle ∧
          v = { s with cmds := v.cmds, energy := { e with lastProj := BitVec.ofNat 32 (if 2 ^ 32 ≤ p then 2 ^ 32 - 1 else p) } } ∧
          (∀ d ∈ s.cmds, d.order ≠ c.order → d ∈ v.cmds) ∧
          (e.planEn = false ∨ room → v.holds c.order fun d => d = { c with proj := p, admitted := true, deferred := false }) ∧
          (e.planEn = true → ¬ room → v.holds c.order fun d => d = { c with proj := p, deferred := true })))) ∧
     -- the pool
     (∀ c ∈ s.cmds, s.working = true → s.ordersOk → c.waitsPool = true →
       c.granules ≤ s.barn.poolSize →
       (∀ d ∈ s.cmds, d.waitsPool = true → d.granules ≤ s.barn.poolSize → d.order ≠ c.order → c.cls < d.cls ∨ (c.cls = d.cls ∧ c.dispOrder < d.dispOrder)) →
       (c.granules ≤ s.barn.poolFree → ∃ t v : State, exec .poolGrant s = .next t ∧ t = v.settle ∧
         v = { s with cmds := v.cmds, barn := { s.barn with poolFree := s.barn.poolFree - c.granules } } ∧
         (∀ d ∈ s.cmds, d.order ≠ c.order → d ∈ v.cmds) ∧ v.holds c.order fun d => d = { c with granted := true }) ∧
       (s.barn.poolFree < c.granules → exec .poolGrant s = .next s)) ∧
     -- the end of a tick
     (∀ (bg : List TickCount) (barn : List BarnUse) (n : Nat), u.live → u.ordersOk → (∀ c ∈ s.cmds, s.named c) →
       (u.tickOver = false → exec (.ledgerTick now bg barn n) s = .next u) ∧
       (u.tickOver = true →
         (let ev (l : Tbl Nat) : Nat := (l.map fun x => x.2 * (tblGet 0 e.coefs x.1).toNat * e.trim).sum
          let mine (c : Cmd) (x : BarnUse) : Bool := x.ring.val == c.ring && x.seq == c.seq && c.stage != .finished
          let used (c : Cmd) : Tbl Nat := (barn.filter (mine c)).foldl (fun t x => evAdd t 6 x.n) c.events
          let stray := barn.filter fun x => !s.cmds.any fun c => mine c x
          let back := ev (stray.foldl (fun t x => evAdd t 6 x.n) (bg.foldl (fun b x => evAdd b x.1 x.2) e.bgEvents))
          let all := (s.cmds.map fun c => ev (used c)).sum
          let gen := (s.cmds.map fun c => if c.cls = 0 then ev (used c) else 0).sum
          let total := e.carry + e.bgAcct + back
          exec (.ledgerTick now bg barn n) s = .next { u with
            cmds := s.cmds.map fun c => { c with acct := c.acct + ev (used c), events := [] }
            energy := { e with
              spent := e.spent + all + back, genSpent := e.genSpent + gen, sampleAccrued := e.sampleAccrued + all + back
              bgEvents := [], bgAcct := 0, carry := total % ujUnit, totBg := e.totBg + BitVec.ofNat 64 (total / ujUnit)
              tick := e.tick + 1, trim := e.trimNext.getD e.trim, trimNext := none }
            flt := { s.flt with
              ceBarn := s.flt.ceBarn + BitVec.ofNat 16 n, corrected := (s.flt.corrected + n) % 2 ^ 16
              pend := if 2 ^ 16 ≤ s.flt.corrected + n then s.flt.pend ||| 1 else s.flt.pend } }))) ∧
     -- the performance counters, as TIME_NS passes from `a` to `b`
     (s.awake = true → s.boot.ready = true → s.timeNs ≤ now →
       (let a := s.timeNs.toNat
        let b := now.toNat
        let was (k : Nat) := tblGet 0 s.perf.counters k
        let counts (k : Nat) := tblGet 0 u.perf.counters k
        let micros := BitVec.ofNat 64 (if a < b then (b - 1) / 1000 + 1 - a / 1000 else 0)
        let cycles : Int := ((s.perf.acreFrac + (b - a) * (if s.halted then 0 else if s.acre.clkHalf then 7 else 14)) / 20 : Nat)
        let owner := if s.fnReset 0 then 2 else if s.acre.held then 1 else 3
        (∀ k, k ≠ owner → k ≠ 19 → k ≠ 20 → counts k = was k) ∧
        (s.phaseCounts = true → counts owner = was owner ∧ u.perf.acrePool = s.perf.acrePool + cycles) ∧
        (s.phaseCounts = false → counts owner = was owner + BitVec.ofNat 64 (s.perf.acrePool + cycles).toNat ∧
          u.perf.acrePool = min (s.perf.acrePool + cycles) 0) ∧
        (s.cmds.any Cmd.isDeferred = false → counts 19 = was 19) ∧
        (s.cmds.any Cmd.isDeferred = true → s.perf.deferTo ≤ a / 1000 → counts 19 = was 19 + micros) ∧
        (s.cmds.any Cmd.inWait = false → counts 20 = was 20) ∧
        (s.cmds.any Cmd.inWait = true → s.perf.waitTo ≤ a / 1000 → counts 20 = was 20 + micros))) ∧
     -- the turn of an epoch
     (u.live → e.epoch < u.timeNs.toNat / (e.epochUs * 1000) →
       (let uj := e.spent / ujUnit
        let tpj := e.epochServed * 256 * 10 ^ 6 / uj
        let us := (e.next.bind EnergyNext.epochUs).getD e.epochUs
        let left := ((e.allow * ujUnit : Nat) : Int) + e.deficit - e.spent
        let allow := (e.next.bind EnergyNext.allow).getD e.allow
        let reserve := (e.next.bind EnergyNext.reserve).getD e.reserve
        ∃ t, exec (.epochTurn now) s = .next t ∧ t.energy.allow = allow ∧ t.energy.reserve = reserve ∧
          t.energy.epochUs = us ∧ t.energy.next = none ∧
          t.energy.deficit = (if left < 0 then left else 0) ∧ t.energy.epoch = u.timeNs.toNat / (us * 1000) ∧
          t.energy.tpj = (if uj = 0 then 0 else BitVec.ofNat 32 (if 2 ^ 32 ≤ tpj then 2 ^ 32 - 1 else tpj)) ∧
          t.energy.tpkwh = (if uj = 0 then 0 else BitVec.ofNat 64 (e.epochTrained * 36 * 10 ^ 11 / uj)) ∧
          (e.next.bind EnergyNext.coefs = none → t.energy.coefs = e.coefs) ∧
          (u.planning = false → t.energy.spent = 0 ∧ t.energy.genSpent = 0 ∧ t.energy.epochServed = 0 ∧ t.energy.epochTrained = 0 ∧
            t = { u with energy := t.energy }) ∧
          (∀ c ∈ s.cmds, u.planning = true → u.ordersOk → e.next = none → e.planEn = true → owed = 0 → c.isDeferred = true →
            (∀ d ∈ s.cmds, d.isDeferred = true → d.order = c.order) → (e.allow : Int) - e.reserve < s.projection c →
            ∃ v : State, t = v.settle ∧ v.energy.oversize = e.oversize + 1 ∧
              v.holds c.order fun d => d = { c with proj := s.projection c, admitted := true, deferred := false }))) ∧
     -- a telemetry sample, whose TRIM applies from the next tick
     (∀ mw : BitVec 24, u.live →
       (let dt := (u.timeNs - e.lastSample).toNat
        let trim := e.trimNext.getD e.trim
        let gap := fpSub (fpDiv (fpOfNat (mw.toNat * dt * 1000 * 4096)) (fpOfNat e.sampleAccrued)) fpOne
        let x := fpRoundNat (fpMul (fpOfNat trim) (fpAdd fpOne (fpScale gap (-(e.gain : Int)))))
        exec (.telemetrySample mw now) s = .next { u with energy := { e with
          trimNext := some (if e.trimEn = true ∧ 0 < e.sampleAccrued ∧ dt ≤ 1000000 then (if x < 0x800 then 0x800 else if 0x2000 < x then 0x2000 else x) else trim)
          samples := e.samples + 1, lastSample := u.timeNs, sampleAccrued := 0 } })))

/-! ### The Harrow, the Acre, results and shards -/

/-- The conversion of hidden states on the Harrow (R54, R118, R160, R342) and the frames of the activation stream (R389, R390,
R490): the begin of a pass, its end, an arriving frame. Which buffer a command's first pass takes, and that a frame arrives
whole, are the model's (log 28, log 39). -/
def Obligations.HarrowCommands : Prop :=
  (∀ (ring : Fin 64) (seq : U32) (ttUe : Bool) (s : State) (c : Cmd), s.ordersOk → s.named c → c.ring = ring.val → c.seq = seq →
    s.convertible c = true → s.harrowTurn c = true →
    (let q := c.work.convNext
     let elem := if pkSrcBf16 c.run then 2 else 4
     let row := (s.fieldOf c).h * elem
     let n := min c.work.s (c.work.tokens - q * c.work.s)
     let id := pkTensorId c.run
     let i := match c.work.seedBase with
       | some b => (b + q) % 2
       | none => (s.seedTurn + 2 * q) % 2
     let mine : SeedBuf := { seedReset with owner := some (c.ring, c.seq, q) }
     let began := exec (.harrowConvert ring seq ttUe) s
     (c.work.frameBad ≠ some q → ∃ t, began = .next t ∧
       t = { s with
         cmds := t.cmds, queue := t.queue, seed0 := t.seed0, seed1 := t.seed1, seedTurn := (i + 1) % 2, tensors := t.tensors, flt := t.flt } ∧
       (if i = 0 then s.seed0 else s.seed1).owner = none ∧ (t.seed0, t.seed1) = (if i = 0 then (mine, s.seed1) else (s.seed0, mine)) ∧
       t.queue = (if c.work.frame = none ∧ n * row ≠ 0 then
         s.queue ++ [readRange .hidden c q (pkHidAddr c.run + q * c.work.s * row) (n * row)] else s.queue) ∧
       (¬ (c.op = opTrain ∧ q = 0) → t.tensors = s.tensors ∧ t.flt = s.flt ∧
         t.holds c.order fun d => d = { c with work := { c.work with converting := true, seedBase := some ((i + q) % 2) } }) ∧
       (c.op = opTrain → q = 0 →
         tblGet 0 t.tensors id = (if fpIsZero (pkAmaxSeed c.run) then (if ttUe then 0 else tblGet 0 s.tensors id) else pkAmaxSeed c.run) ∧
         (∀ k, k ≠ id → tblGet 0 t.tensors k = tblGet 0 s.tensors k) ∧ (ttUe = false → t.flt = s.flt) ∧
         (ttUe = true → t.flt.pend = s.flt.pend ||| 2 ∧ t.flt.ueValid = true) ∧
         t.holds c.order fun d => d = { c with work := { c.work with
           converting := true, seedBase := some ((i + q) % 2), train := { c.work.train with amaxBefore := if ttUe then 0 else tblGet 0 s.tensors id } } })) ∧
     (c.work.frameBad = some q → c.work.begun = false → ∃ t, began = .next t ∧ t.holds c.order (Cmd.endedWith .badCount (cplBody [])) ∧
       t.streams.frameErr = s.streams.frameErr + 1 ∧ t.tensors = s.tensors))) ∧
  (∀ (ring : Fin 64) (seq : U32) (s : State) (c : Cmd), s.ordersOk → s.named c → c.ring = ring.val → c.seq = seq → s.working = true →
    s.fnReset 2 = false → c.active = true → c.work.converting = true → s.open ring.val seq .hidden = false →
    (let q := c.work.convNext
     let n := min c.work.s (c.work.tokens - q * c.work.s)
     let a := s.convertPass c q
     let w := c.work
     let full : SeedBuf := ⟨some (c.ring, c.seq, q), true, a.hid, a.tok, a.stones⟩
     let gathered := a.amax.foldl fpMax w.train.amaxGathered
     let elems := a.hid.length * (s.fieldOf c).h * (if c.op = opTrain then 2 else 1)
     ∃ t v : State, exec (.conversionDone ring seq) s = .next t ∧ t = v.settle ∧
       v = { s with cmds := v.cmds, seed0 := v.seed0, seed1 := v.seed1, tensors := v.tensors, totals := v.totals, perf := v.perf } ∧
       (s.seed0.owner = full.owner → v.seed0 = full ∧ v.seed1 = s.seed1) ∧
       (s.seed0.owner ≠ full.owner → s.seed1.owner = full.owner → v.seed1 = full ∧ v.seed0 = s.seed0) ∧
       (v.holds c.order fun d => d.stage = c.stage ∧ d.events = evAdd c.events 10 elems ∧ d.work = { w with
         converting := false, convNext := q + 1, amaxTok := w.amaxTok ++ a.amax, dropTok := w.dropTok ++ a.drop
         counts := { w.counts with
           scaleCap := w.counts.scaleCap + a.quant.cap, satElems := w.counts.satElems + a.quant.sat
           uflElems := w.counts.uflElems + a.quant.ufl, nonfinite := w.counts.nonfinite + a.nonfinite
           stones := w.counts.stones + a.stones.length, stoneDrop := w.counts.stoneDrop + a.drop.sum + a.tokDrop }
         train := { w.train with amaxGathered := gathered } }) ∧
       v.totals = { s.totals with
         nonfinite := add32 s.totals.nonfinite a.nonfinite, scaleCap := add32 s.totals.scaleCap a.quant.cap
         satElems := add32 s.totals.satElems a.quant.sat, uflElems := add32 s.totals.uflElems a.quant.ufl
         stoneDropped := add32 s.totals.stoneDropped (a.drop.sum + a.tokDrop) } ∧
       v.tensors = (if c.op = opTrain ∧ q + 1 = passCount w.tokens w.s then tblSet 0 s.tensors (pkTensorId c.run) gathered else s.tensors) ∧
       (c.op ≠ opTrain → a.tok = [] ∧ a.amax = (List.range n).map (fun i => maxAbs (s.tokenRow c (s.fieldOf c) (q * w.s + i)).1) ∧
         a.hid = (List.range n).map fun i => opdOfQVec (quantVec .e2m1 (globalExp .e2m1 (s.convertM c (q * w.s + i))) (pkSecond c.run)
           (fun _ => none) (s.tokenRow c (s.fieldOf c) (q * w.s + i)).1).1))) ∧
  (∀ (bytes : List Byte) (badKeep : Option Nat) (now : Time) (s : State) (r : Nat) (q : U32) (rest : List (Nat × U32)),
    (let u := s.tick now
     let beats := ceilDiv bytes.length 256
     let perf (t : State) := t.perf = { s.perf with counters := t.perf.counters } ∧
       tblGet 0 t.perf.counters 15 = tblGet 0 s.perf.counters 15 + BitVec.ofNat 64 beats ∧ ∀ k, k ≠ 15 → tblGet 0 t.perf.counters k = tblGet 0 s.perf.counters k
     u.live → s.fnReset 5 = false → s.streams.frames = (r, q) :: rest → ∃ t, exec (.actFrame bytes badKeep now) s = .next t ∧
       (s.cmd r q = none → perf t ∧ t = { u with
         streams := { s.streams with frames := rest }, perf := t.perf, energy := { s.energy with bgEvents := evAdd s.energy.bgEvents 13 beats } }) ∧
       (∀ c, s.cmd r q = some c → c.frameLost = true → perf t ∧ t = { u with
         streams := { s.streams with frames := rest }, perf := t.perf, energy := { s.energy with bgEvents := evAdd s.energy.bgEvents 13 beats } }) ∧
       (∀ c, s.cmd r q = some c → u.named c → u.ordersOk → c.frameLost = false →
         (let row := (s.fieldOf c).h * (if pkSrcBf16 c.run then 2 else 4)
          let skip := min c.work.tokens (c.work.convNext * c.work.s) * row
          let want := c.work.tokens * row - skip
          let passOf (b : Nat) : Nat := (skip + b) / (c.work.s * row)
          let taken (bad : Option Nat) : Prop := perf t ∧ t = { u with cmds := t.cmds, streams := { s.streams with frames := rest }, perf := t.perf } ∧
            t.holds c.order fun d => d = { c with
              events := evAdd c.events 13 beats
              work := { c.work with frame := some (zeros skip ++ bytes), frameDone := true, frameBad := bad } }
          let found (p : Nat) : Prop := (p ≠ c.work.convNext → taken (some p)) ∧
            (p = c.work.convNext → t.streams.frameErr = s.streams.frameErr + 1 ∧
              (c.work.begun = false → t.holds c.order (Cmd.endedWith .badCount (cplBody []))))
          (u.takesFrame c = false → t = u) ∧
          (u.takesFrame c = true → badKeep = none → bytes.length = want → taken none) ∧
          (∀ b, u.takesFrame c = true → badKeep = some b → 256 * b < bytes.length → bytes.length = want → found (passOf (256 * b))) ∧
          (u.takesFrame c = true → badKeep = none → 0 < bytes.length → bytes.length < want → found (passOf (bytes.length - 1))) ∧
          (u.takesFrame c = true → badKeep = none → want < bytes.length → found (passOf (want - 1)))))))

/-- The Acre (R15, R17, R61, R62, R86, R92, R93, R109, R285, R301, R427, R486): which command a headland takes, the begin of a
compute phase, a tile, its hold, a staged swath, the end of the phase. -/
def Obligations.AcreCommands : Prop :=
  (∀ (now : Time) (s : State),
    (let u := s.tick now
     let best (c : Cmd) : Prop := c ∈ u.cmds ∧ u.ready c = true ∧
       ∀ d ∈ u.cmds, u.ready d = true → d.order ≠ c.order → c.cls < d.cls ∨ (c.cls = d.cls ∧ c.dispOrder < d.dispOrder)
     let cols := effectiveCols u.usableCols (decide (u.energy.level.val = 3))
     let select := exec (.acreSelect now) s
     u.working = true → u.ordersOk →
     (u.acre.run = none → (∀ c ∈ u.cmds, u.ready c = false) → select = .next u) ∧
     (∀ c, u.acre.run = none → best c → c.work.begun = true → u.rowHalfNow ≠ 3 → ∃ t v : State, select = .next t ∧ t = v.settle ∧
       v.acre.run = some (c.ring, c.seq) ∧ v.acre.held = false ∧ v.acre.cEff = cols ∧ v.acre.rowHalf = u.rowHalfNow ∧
       v.strips = u.strips ∧ v.fields = u.fields ∧ v.tensors = u.tensors ∧ v.gates = u.gates ∧ v.rings = u.rings ∧ (v.holds c.order fun d => d = c) ∧
       ((u.fieldOf c).stream = true → ∀ d ∈ v.cmds, d.order ≠ c.order → d.stages (pkField c.run) = true → d.work.staged = [])) ∧
     (∀ c, u.acre.run = none → best c → u.named c → c.work.begun = false → u.pair.state ≠ 2 → u.pair.holding = false → u.rowHalfNow ≠ 3 →
       (∀ r, u.bindReason c = some r → ∃ t, select = .next t ∧ t.holds c.order (Cmd.endedWith r (cplBody []))) ∧
       (u.bindReason c = none → ∃ t v : State, select = .next t ∧ t = v.settle ∧ v.acre.run = some (c.ring, c.seq) ∧ v.acre.held = false ∧
         v.acre.cEff = cols ∧
         v.strips = u.strips ∧ v.fields = u.fields ∧ v.tensors = u.tensors ∧ v.gates = u.gates ∧ v.rings = u.rings ∧
         tblGet 0 v.perf.counters 10 = tblGet 0 u.perf.counters 10 + BitVec.ofNat 64 c.stepCount ∧
         v.holds c.order fun d => d.stage = .running ∧ d.work.begun = true ∧ d.work.tCheck = u.timeNs ∧ d.work.cEff = v.acre.cEff ∧
           d.work.rowHalf = v.acre.rowHalf ∧ d.work.f = chooseFold (pkFold c.run) c.work.s t.acre.cEff (c.op == opTrain) ∧
           d.work.steps.length = c.stepCount ∧
           ∀ i, i < c.stepCount → stripCount u.build ≤ c.stepWord i ∨ (u.strip (c.stepWord i)).valid = false →
             (d.work.steps.getD i default).reason = stepCode .stripEmpty)) ∧
     (∀ c, u.onAcre = some c → u.named c → c.tilesDone = true ∨ c.work.pauseAsked = true → select = .next u) ∧
     (∀ c, u.onAcre = some c → u.named c → c.tilesDone = false → c.work.pauseAsked = false → u.levelLets c = true →
       (u.outranked c = false → select = .next u) ∧
       (∀ d, u.outranked c = true → best d → d.work.begun = true → u.rowHalfNow ≠ 3 → ∃ t v : State, select = .next t ∧ t = v.settle ∧
         v.acre.run = some (d.ring, d.seq) ∧ v.acre.held = false ∧ v.acre.cEff = cols ∧ v.strips = u.strips ∧ v.fields = u.fields ∧
         tblGet 0 v.perf.counters 4 = tblGet 0 u.perf.counters 4 + 1 ∧
         v.holds c.order fun x => x.preempted = true ∧ x.stage = c.stage ∧ x.cycles = c.cycles ∧ x.work.tile = c.work.tile ∧ x.work.sub = c.work.sub)))) ∧
  (∀ (fault : TileFault) (ce : Corrected) (now : Time) (s : State) (c : Cmd),
    (let u := s.tick now
     let f := u.fieldOf c
     let k := c.unit f
     let run := exec (.acreTile fault ce now) s
     u.onAcre = some c → u.named c → u.ordersOk → u.acreUsable c = true → u.levelLets c = true → c.work.pauseAsked = false → c.work.ended = false → c.tilesDone = false →
     u.acre.held = false → u.outranked c = false →
     (u.faultFits k fault = false → run = .next u) ∧
     (u.faultFits k fault = true → u.tileReady c = false → run = .next { u with
       acre := { u.acre with held := true }, streams := { u.streams with resHeld := !u.outputFits c } }) ∧
     (u.tileReady c = true → fault = .none → ce = ⟨[], 0, 0, 0⟩ → ∃ t v : State, run = .next t ∧ t = v.settle ∧
       v.strips = u.strips ∧ v.tenants = u.tenants ∧ v.fields = u.fields ∧ v.gates = u.gates ∧ v.rings = u.rings ∧ v.tensors = u.tensors ∧
       v.acre = u.acre ∧ v.granary = u.granary ∧ v.ports = u.ports ∧
       (c.work.sub + c.tileCols k < c.unitCols f k → c.work.tileEnd ≤ c.work.sub → v.holds c.order fun d => d.work.sub = c.work.sub + c.tileCols k ∧
         d.work.index = c.work.index + 1 ∧ d.work.tile = c.work.tile ∧ d.work.phase = c.work.phase ∧ d.work.pass = c.work.pass ∧
         (c.work.strand = 0 → c.work.phase = 0 → pkStoneThr c.run = 0 →
           d.cycles = c.cycles + tileTime (kPadOf f.h) c.work.cEff c.work.f c.work.rowHalf false))) ∧
     (∀ line, u.tileReady c = true → fault = .parity false line → line < u.workLines false → ∃ t, run = .next t ∧ t.flt.parValid = true ∧ t.flt.parRow = false ∧
       t.flt.parLine = line ∧ t.flt.parCount = u.flt.parCount + 1 ∧ t.flt.pend.getLsbD 2 = true ∧ t.fnReset 0 = true ∧
       (let w := tblGet 0 u.acre.spareCol (line / 64)
        (w.getLsbD 31 = false → line / 64 ∉ u.acre.deadCol →
          tblGet 0 t.acre.spareCol (line / 64) = (w &&& 0x40000000) ||| 0x80000000 ||| BitVec.ofNat 32 (line % 64)) ∧
        (w.getLsbD 31 = true ∨ line / 64 ∈ u.acre.deadCol → tblGet 0 t.acre.spareCol (line / 64) = w ||| 0x40000000))))) ∧
  (∀ (now : Time) (s : State) (c : Cmd),
    (let u := s.tick now
     u.onAcre = some c → u.running = true → u.acre.held = true →
     exec (.tileHoldRelease now) s = .next (if u.tileReady c then
       { u with acre := { u.acre with held := false }, streams := { u.streams with resHeld := false } } else u))) ∧
  (∀ (ring : Fin 64) (seq : U32) (s : State) (c : Cmd),
    (let f := s.fieldOf c
     let n := c.work.stageNext
     let rows := recordRows (s.bytes (f.src + (f.first + n % f.n) * 516 * f.h) (516 * f.h)) f.h
     let bad := hasScaleFault rows || hasRowFault (f.rowsOf (n % f.n)) rows
     s.ordersOk → s.named c → c.ring = ring.val → c.seq = seq → s.working = true → s.fnReset 0 = false → isAcreOp c.op = true → c.active = true →
     f.stream = true → c.work.ended = false → n < c.work.stageAsk →
     s.openIdx ring.val seq .stage n = false → ∃ t, exec (.stagingSwath ring seq) s = .next t ∧ t = { s with cmds := t.cmds } ∧
       t.holds c.order fun d => d = { c with
         events := evAdd c.events 5 (1024 * f.h / 64)
         work := { c.work with
           staged := c.work.staged ++ [(n, rows)], stageNext := n + 1
           badSwath := if c.work.badSwath.isSome then c.work.badSwath else if bad then some (n, hasScaleFault rows) else none } })) ∧
  (∀ (now : Time) (s : State) (c : Cmd),
    (let u := s.tick now
     u.onAcre = some c → u.named c → u.ordersOk → u.working = true → u.fnReset 1 = false → c.work.begun = true → c.work.ended = false → c.tilesDone = true →
     isAcreOp c.op = true → u.rowHalfNow ≠ 3 → ∃ t v : State, exec (.computePhaseEnd now) s = .next t ∧ (u.flt.cpDue = false → t = v.settle) ∧
       v.acre.run = none ∧ v.strips = u.strips ∧
       v.fields = u.fields ∧ v.tensors = u.tensors ∧ v.acre.clkHalf = decide (2 ≤ u.energy.level.val) ∧ v.acre.narrow = decide (2 ≤ u.energy.level.val) ∧
       v.acre.cEff = effectiveCols u.usableCols (decide (u.energy.level.val = 3)) ∧
       v.holds c.order fun d => d.work.ended = true ∧ d.reason = (if c.work.ue then .granaryUe else match c.work.badSwath with
           | some (_, scale) => if scale then .badScale else .badImage
           | none => .ok) ∧
         d.stage = (if (c.op = opHeadFwd ∨ c.op = opSample ∨ c.op = opVerify) ∧ pkShardEn c.run = true then c.stage else .committing) ∧
         (c.op = opSample ∨ c.op = opVerify → d.work.steps.length = c.work.steps.length ∧ ∀ i, i < c.work.steps.length →
           (let p := c.work.steps.getD i default
            let q := d.work.steps.getD i default
            (p.reason ≠ 0 → q = p) ∧ (p.reason = 0 → c.work.ue = true → q = { p with reason := stepCode .eccFault, reserved := 0 }) ∧
            (p.reason = 0 → c.work.ue = false → c.work.badSwath.isSome = true → q = { p with reason := stepCode .imageFault, reserved := 0 })))))

/-- What a command's phase leaves (R274 to R276, R289 to R298, R365, R380, R391): the commit's records, in memory or on the result
stream, what written records apply, a segment of the result stream, the image of a command that pauses for a CTX_SAVE (its
sections are the model's, log 8). -/
def Obligations.ResultCommands : Prop :=
  (∀ (ring : Fin 64) (seq : U32) (times : List Time) (s : State) (c : Cmd), s.ordersOk → s.named c → c.ring = ring.val → c.seq = seq → s.live → s.solo →
    c.stage = .committing → c.op = opSample ∨ c.op = opVerify → c.work.steps ≠ [] → (∀ p ∈ c.work.steps, p.asked = false ∧ p.reason < 256) →
    (∀ i, i < c.work.steps.length → (c.work.steps.getD i default).idx = i) → times.length = c.work.steps.length →
    (s.timeNs :: times).Pairwise (· ≤ ·) →
    ∃ t v : State, exec (.stripCommit ring seq times) s = .next t ∧ t = v.settle ∧ v.timeNs = times.getLastD s.timeNs ∧
      v = { s with
        timeNs := v.timeNs, perf := v.perf, freeCtr := v.freeCtr, cmds := v.cmds, queue := v.queue, streams := v.streams, tenants := v.tenants } ∧
      (∀ k, v.tenant k = c.work.steps.foldl (fun m p => if p.reason = 0 ∧ p.tenant = k then turnAt (times.getD p.idx s.timeNs) m else m) (s.tenant k)) ∧
      v.holds c.order fun d => d.stage = .committing ∧ d.commit = true ∧ d.work.steps.length = c.work.steps.length ∧
        -- where the records go, in command order
        (let out (i : Nat) := (d.work.steps.getD i default)
         let vrecs (i : Nat) := if (out i).vrec = [] then [] else [writeRange .vrec c i (c.work.descs.getD i default).vrecAddr (out i).vrec]
         let is := List.range c.work.steps.length
         (pkResStream c.run = false → v.streams = s.streams ∧
           v.queue = s.queue ++ (is.map fun i => vrecs i ++ [writeRange .result c i (pkResAddr c.run + 256 * i) (out i).record]).flatten) ∧
         (pkResStream c.run = true → v.queue = s.queue ++ (is.map vrecs).flatten ∧ v.streams = { s.streams with
           queue := s.streams.queue ++ is.map fun i => ⟨c.ring, c.seq, 0, decide (i + 1 = c.work.steps.length), (out i).record⟩ })) ∧
        ∀ i, i < c.work.steps.length →
        (let p := c.work.steps.getD i default
         let q := d.work.steps.getD i default
         let time := times.getD i 0
         let x := p.sel.getD default
         q.asked = true ∧ q.time = time ∧ q.reason = p.reason ∧ q.emitted = p.emitted ∧ q.committed = p.committed ∧ q.walk = p.walk ∧
           (p.reason = 0 → hasFlag q.flags rfLate = (hasFlag p.flags rfLate || (p.deadline != 0 && decide (p.deadline < time)))) ∧
           (p.reason = 0 → q.flags &&& p.flags = p.flags) ∧
           q.record.length = 256 ∧ leNat q.record 0 1 = p.reason ∧ le64 q.record 32 = time ∧
           (p.reason = 0 → c.stepWord p.idx < stripCount s.build →
             q.record = resultBytes q (p.params.pos + BitVec.ofNat 32 (p.emitted - 1)) p.sel x.token p.walk.accepted p.emitted x.logprob) ∧
           (p.reason = 0 → q.vrec = if c.op = opVerify then vrecBytes p.walk (hasFlag q.flags rfScaleShift) p.params.pos else []))) ∧
  (∀ (ring : Fin 64) (seq : U32) (now : Time) (s : State) (c : Cmd),
    (let u := s.tick now
     let ps := c.work.steps
     let good (p : StripStep) : Bool := p.reason == 0 && !p.failedWrite
     let done := ps.filter good
     let home := (u.fieldOf c).home
     let late (p : StripStep) := hasFlag p.flags rfLate
     let emitted := (done.map StripStep.emitted).sum
     u.ordersOk → u.named c → c.ring = ring.val → c.seq = seq → u.running = true → u.pair.holding = false → c.stage = .committing → ps ≠ [] →
     (∀ p ∈ ps, p.asked = true) → u.writesOpen ring.val seq = false → u.segmentsWait ring.val seq = false → (done.map StripStep.strip).Nodup →
     ∃ t v : State, exec (.resultRecordsWritten ring seq now) s = .next t ∧ (u.flt.cpDue = false → t = v.settle ∧ t.strips = v.strips ∧ t.totals = v.totals) ∧
       (v.holds c.order fun d => d.stage = .finished ∧ d.reason = (if c.reason = .ok ∧ ps.any StripStep.failedWrite then .badAddr else c.reason) ∧
         d.work.steps = (ps.map fun p => if p.failedWrite then { p with reserved := 0 } else if p.reason = 0 then { p with committed := true, reserved := 0 } else p)) ∧
       -- the strips that a token went into, and no other
       (∀ p ∈ done,
         (let x := s.strip p.strip
          let total := intOut (pkIntMode c.run) (x.committed.toNat + p.emitted)
          let lates := intOut (pkIntMode c.run) (x.lateCount.toNat + (late p).toNat)
          v.strip p.strip = { x with
            ledger := if p.params.ledgerUpd then (ledgerApply (pkIntMode c.run) x.ledger (p.tokens c.op)).1 else x.ledger
            params := { x.params with pos := x.params.pos + BitVec.ofNat 32 p.emitted }, amax := p.amax
            firstCommit := if x.firstDone then x.firstCommit else p.time, firstDone := true, lastCommit := p.time
            committed := BitVec.ofNat 32 total.1, lateCount := BitVec.ofNat 32 lates.1 })) ∧
       (∀ k, (∀ p ∈ done, p.strip ≠ k) → v.strip k = s.strip k) ∧
       -- the tenants: the debit falls in the window that holds the commit time; a step that commits nothing gives its reservation back
       (∀ k, v.tenant k = ps.foldl (fun m p =>
         if p.tenant ≠ k then m
         else if good p then (if home then { debit p.time p.emitted p.reserved p.counted m with late := if late p then m.late + 1 else m.late } else m)
         else if p.reason = 0 ∧ p.reserved ≠ 0 then { m with reserved := m.reserved - p.reserved } else m) (s.tenant k)) ∧
       -- the counters
       v.totals = { s.totals with
         records := s.totals.records + BitVec.ofNat 32 (ps.filter fun p => !p.failedWrite).length
         commits := s.totals.commits + BitVec.ofNat 32 emitted, late := s.totals.late + BitVec.ofNat 32 (done.filter late).length } ∧
       v.energy.served = s.energy.served + BitVec.ofNat 64 (if home then emitted else 0) ∧
       v.energy.epochServed = s.energy.epochServed + (if home then emitted else 0) ∧
       (c.op = opVerify → v.win.verifyStrips = s.win.verifyStrips + BitVec.ofNat 32 done.length ∧
         v.win.verifyAccepted = s.win.verifyAccepted + BitVec.ofNat 32 (done.map fun p => p.walk.accepted).sum) ∧
       (c.op ≠ opVerify → v.win.verifyStrips = s.win.verifyStrips ∧ v.win.verifyAccepted = s.win.verifyAccepted))) ∧
  -- one debit of `k` tokens at time `t`: in the window in force, and in one that has turned since
  (∀ (t : Time) (k r : Nat) (m : Tenant),
    (m.past = [] → (m.windowUs = 0 ∨ windowOf t m.windowUs ≤ m.window) → debit t k r true m = { m with
      remain := m.remain - k, reserved := m.reserved - r, committed := m.committed + BitVec.ofNat 32 k }) ∧
    (∀ x : Turn, m.past = [x] → t.toNat < x.since → x.count = 1 → (m.windowUs = 0 ∨ windowOf t m.windowUs ≤ m.window) →
      (debit t k r true m).remain = m.remain + (min (x.before - k) 0 - min x.before 0))) ∧
  (∀ (now : Time) (s : State) (g : Segment) (rest : List Segment),
    (let u := s.tick now
     let n := ceilDiv g.data.length 64
     u.running = true → u.fnReset 6 = false → u.streams.queue = g :: rest →
     ∃ t v : State, exec (.resSegmentSend now) s = .next t ∧ t = v.settle ∧ v.perf = { u.perf with counters := v.perf.counters } ∧
       tblGet 0 v.perf.counters 16 = tblGet 0 u.perf.counters 16 + BitVec.ofNat 64 n ∧
       ((u.cmd g.ring g.seq = none ∨ ∃ c, u.cmd g.ring g.seq = some c ∧ c.stage = .finished) → v = { u with
         streams := { u.streams with queue := rest }, perf := v.perf, energy := { u.energy with bgEvents := evAdd u.energy.bgEvents 13 n } }) ∧
       (∀ c, u.cmd g.ring g.seq = some c → u.ordersOk → c.stage ≠ .finished → v = { u with streams := { u.streams with queue := rest }, perf := v.perf, cmds := v.cmds } ∧
         v.holds c.order fun d => d = { c with events := evAdd c.events 13 n }))) ∧
  (∀ (ring : Fin 64) (seq : U32) (now : Time) (s : State) (c d : Cmd),
    (let u := s.tick now
     u.ordersOk → u.named c → u.named d → d.ring = ring.val → d.seq = seq → u.live → u.solo → d.savable = true → d.work.begun = true →
     d.work.pauseAsked = true → d.work.steps = [] → c.op = opCtxSave → c.stage = .hold 0 → pkTgtRing c.run = d.ring → pkTgtSeq c.run = d.seq →
     (∀ e ∈ u.cmds, e.op = opCtxSave → e.stage = .hold 0 → pkTgtRing e.run = d.ring → pkTgtSeq e.run = d.seq → e.order = c.order) →
     ∃ (t : State) (b : List Byte), exec (.ctxPauseReached ring seq 0 now) s = .next t ∧ t = { u with
       cmds := t.cmds, images := t.images, queue := u.queue ++ [writeRange .ctxWrite c 0 (pkCtxAddr c.run) b] } ∧
       (t.holds c.order fun x => x.stage = .hold 1) ∧
       leNat b 8 8 = imageBytes c.work.fill.base % 2 ^ 64 ∧ leNat b 16 1 = d.op % 256 ∧ le32 b 4 = crc32c (b.drop 8) ∧ ∃ e ∈ t.images, e.bytes = b))

/-- Vocabulary sharding (R250, R255 to R257, R259, R260, R369, R393, R394, R419): the begin of an exchange, an arriving record, a timeout. -/
def Obligations.ShardCommands : Prop :=
  (∀ (ring : Fin 64) (seq : U32) (now : Time) (s : State) (c : Cmd),
    (let u := s.tick now
     let f := u.fieldOf c
     let m := c.work.merge
     u.ordersOk → u.named c → u.live → u.solo → u.fnReset 1 = false → u.fnReset 7 = false → u.exchangeOf ring.val seq = some c →
     c.mayExchange = true → m.aborted = false → ∃ t v : State, exec (.mergeStart ring seq now) s = .next t ∧ t = v.settle ∧
     (u.energy.level.val = 3 → v = { u with cmds := v.cmds, shard := { u.shard with out := [] } } ∧
       v.holds c.order fun d => d.work.merge.active = true ∧ d.work.merge.round = 1 ∧ d.work.merge.start = (if m.round = 0 then u.timeNs else m.start)) ∧
     (u.energy.level.val < 3 → c.roundDone f 1 = false → f.shardId < 256 → f.qM1 < 256 →
       v = { u with cmds := v.cmds, shard := { u.shard with out := v.shard.out, sent := v.shard.sent } } ∧
       (v.holds c.order fun d => d.work.merge.active = true ∧ d.work.merge.round = 2 ∧
         d.work.merge.start = (if m.round = 0 then u.timeNs else m.start) ∧ d.work.merge.sent1 = m.sent1 + v.shard.out.length) ∧
       v.shard.sent = u.shard.sent + BitVec.ofNat 32 v.shard.out.length ∧
       v.shard.out.length = f.peers.length * ceilDiv c.exchangeTokens.length 5 ∧
       ∀ e ∈ v.shard.out, e.1 = pkField c.run ∧ e.2.length = 256 ∧ recordSound e.2 = true ∧ recType e.2 = 1 ∧ recTag e.2 = pkStepTag c.run ∧
         recSrc e.2 = f.shardId ∧ recDst e.2 ∈ f.peers))) ∧
  (∀ (b : List Byte) (now : Time) (s : State),
    (let u := s.tick now
     let got := exec (.shardRecord b now) s
     let bad := { u with
       shard := { u.shard with out := [], bad := u.shard.bad + 1 }
       energy := { u.energy with bgEvents := evAdd u.energy.bgEvents 13 (ceilDiv b.length 64) } }
     u.live → u.fnReset 7 = false → u.energy.level.val < 3 →
     (256 ≤ u.shard.early.length → got = .next u) ∧
     (u.shard.early.length < 256 →
     (b.length ≠ 256 ∨ recordSound b = false → got = .next bad) ∧
     (b.length = 256 → recordSound b = true → u.tagged (recTag b) = none → u.taggedEnded (recTag b) = true → got = .next bad) ∧
     (b.length = 256 → recordSound b = true → u.tagged (recTag b) = none → u.taggedEnded (recTag b) = false → got = .next { u with
         shard := { u.shard with out := [], early := u.shard.early ++ [b], recv := u.shard.recv + 1 }
         energy := { u.energy with bgEvents := evAdd u.energy.bgEvents 13 4 } }) ∧
     (∀ c, b.length = 256 → recordSound b = true → u.tagged (recTag b) = some c → u.named c → u.ordersOk → c.stage ≠ .finished →
       (let f := u.fieldOf c
        let again := recType b ≠ 3 ∧ ((c.op = opTrain ∧ recPass b < c.work.pass) ∨
          ∃ e ∈ c.work.merge.got, e.1 = recSrc b ∧ e.2.1 = recType b ∧ e.2.2.1 = recSeq b ∧ recPass e.2.2.2.2 = recPass b)
        let refused := (f.shard = true ∧ recDst b ≠ f.shardId) ∨ again
        (refused → ∃ t, got = .next t ∧ t = { u with cmds := t.cmds, shard := { u.shard with out := [], bad := u.shard.bad + 1 } } ∧
          t.holds c.order fun d => d = { c with events := evAdd c.events 13 4 }) ∧
        (¬ refused → c.work.merge.active = false → ∃ t v : State, got = .next t ∧ t = v.settle ∧
          v = { u with cmds := v.cmds, shard := { u.shard with out := [], recv := u.shard.recv + 1 } } ∧
          v.holds c.order fun d =>
            (recType b = 3 → d.work.merge = { c.work.merge with aborted := true }) ∧
            (recType b ≠ 3 → d.work.merge = { c.work.merge with
              got := c.work.merge.got ++ [(recSrc b, recType b, recSeq b, recLast b, b)]
              recv1 := c.work.merge.recv1 + (if recType b = 1 then 1 else 0), recv2 := c.work.merge.recv2 + (if recType b = 2 then 1 else 0) }))))))) ∧
  (∀ (ring : Fin 64) (seq : U32) (now : Time) (s : State) (c : Cmd),
    (let u := s.tick now
     let m := c.work.merge
     u.ordersOk → u.named c → u.live → u.exchangeOf ring.val seq = some c → m.active = true → m.done = false → m.round ≠ 0 → u.shard.timeoutUs ≠ 0 →
     u.shard.timeoutUs.toNat * 1000 ≤ (u.timeNs - m.start).toNat → isAcreOp c.op = true → c.disp.isSome = true → c.stage ≠ .finished → u.mergeOf c = none →
     ∃ t v : State, exec (.shardTimeout ring seq now) s = .next t ∧ t = v.settle ∧ v.shard.merges = u.shard.merges + 1 ∧
       v.strips = u.strips ∧ v.fields = u.fields ∧ v.tensors = u.tensors ∧
       (c.work.steps = [] → v.holds c.order fun d => d.stage = .finished ∧ d.reason = .shardFailed) ∧
       (c.work.steps ≠ [] → v.holds c.order fun d => d.stage = .committing ∧ d.reason = .shardFailed ∧ d.work.ended = true ∧
         ∀ p ∈ d.work.steps, p.committed = false → p.reason = stepCode .failedPart ∧ p.emitted = 0) ∧
       (u.energy.level.val < 3 → u.solo → m.aborted = false → u.fnReset 7 = false → v.shard.out.length = (u.fieldOf c).peers.length ∧
         ∀ e ∈ v.shard.out, e.2.length = 256 ∧ recordSound e.2 = true ∧ recType e.2 = 3 ∧ recTag e.2 = pkStepTag c.run) ∧
       (u.energy.level.val = 3 ∨ m.aborted = true ∨ u.fnReset 7 = true → v.shard.out = [])))

/-- Fetch orders name packets, at reset and after every step (R307, R312): an invariant of the model's own numbering, which
statements about one packet take as a premise. After the rows that leave the state open nothing can be said (log 5, log 26). -/
def Obligations.OrdersStayDistinct : Prop :=
  State.reset.ordersOk ∧
  ∀ s t : State, (∀ c ∈ s.pending.head?, leavesOpen c = false) → s.ordersOk → step s = .next t → t.ordersOk

end
end

