-- ==== Sys2Proof/Laws/Bytes.lean ====
section
/-! SUPPORT. Laws of little-endian fields: what a record formed by appending fields reads as. -/

namespace Sys2Proof.Machine

theorem leBytes_length (n v : Nat) : (leBytes n v).length = n := by
  induction n generalizing v with
  | zero => rfl
  | succ n ih => simp [leBytes, ih]

theorem zeros_length (n : Nat) : (zeros n).length = n := List.length_replicate

theorem padTo_length (n : Nat) (b : List Byte) : (padTo n b).length = n := by
  simp [padTo, zeros]; omega

theorem padTo_eq (n : Nat) (b : List Byte) (h : b.length ≤ n) : padTo n b = b ++ zeros (n - b.length) :=
  List.take_of_length_le (by simp [zeros]; omega)

theorem byteAt_left (a b : List Byte) (i : Nat) (h : i < a.length) : byteAt (a ++ b) i = byteAt a i := by
  simp [byteAt, List.getD_eq_getElem?_getD, List.getElem?_append_left h]

theorem byteAt_right (a b : List Byte) (i : Nat) (h : a.length ≤ i) : byteAt (a ++ b) i = byteAt b (i - a.length) := by
  simp [byteAt, List.getD_eq_getElem?_getD, List.getElem?_append_right h]

theorem byteAt_zeros (n i : Nat) : byteAt (zeros n) i = 0 := by
  simp only [byteAt, zeros, List.getD_eq_getElem?_getD]
  rcases lt_or_ge i n with h | h
  · rw [List.getElem?_replicate_of_lt h]; rfl
  · rw [List.getElem?_eq_none (by simpa using h)]; rfl

/-- A field that lies in the first part. -/
theorem leNat_left (a b : List Byte) (o n : Nat) (h : o + n ≤ a.length) : leNat (a ++ b) o n = leNat a o n := by
  induction n generalizing o with
  | zero => rfl
  | succ n ih => simp only [leNat]; rw [byteAt_left a b o (by omega), ih (o + 1) (by omega)]

/-- A field that lies in the second part. -/
theorem leNat_right (a b : List Byte) (o n : Nat) (h : a.length ≤ o) : leNat (a ++ b) o n = leNat b (o - a.length) n := by
  induction n generalizing o with
  | zero => rfl
  | succ n ih =>
    simp only [leNat]
    rw [byteAt_right a b o h, ih (o + 1) (by omega), show o + 1 - a.length = o - a.length + 1 by omega]

theorem leNat_shift (x : Byte) (b : List Byte) (o n : Nat) : leNat (x :: b) (o + 1) n = leNat b o n := by
  induction n generalizing o with
  | zero => rfl
  | succ n ih => simp only [leNat]; rw [ih]; rfl

/-- What a field reads as that was written as it is read. -/
theorem leNat_leBytes (n v : Nat) : leNat (leBytes n v) 0 n = v % 256 ^ n := by
  induction n generalizing v with
  | zero => simp [leNat, Nat.mod_one]
  | succ n ih =>
    simp only [leBytes, leNat]
    rw [leNat_shift, ih, pow_succ']
    have : (byteAt (BitVec.ofNat 8 (v % 256) :: leBytes n (v / 256)) 0).toNat = v % 256 := by simp [byteAt]
    rw [this, Nat.mod_mul]

theorem leNat_lt (b : List Byte) (o n : Nat) : leNat b o n < 256 ^ n := by
  induction n generalizing o with
  | zero => simp [leNat]
  | succ n ih =>
    have := ih (o + 1)
    have hb : (byteAt b o).toNat < 256 := (byteAt b o).isLt
    rw [pow_succ', leNat]
    omega

theorem leNat_zeros (m o n : Nat) : leNat (zeros m) o n = 0 := by
  induction n generalizing o with
  | zero => rfl
  | succ n ih => rw [leNat, ih, byteAt_zeros]; rfl

/-- The header of a record, without its CRC. -/
theorem recordBytes256_parts (h : RecHead) (p : List Byte) : ∃ a : List Byte, a.length = 28 ∧
    recordBytes256 h p = a ++ (leBytes 4 (crc32c (a ++ padTo 224 p)).toNat ++ padTo 224 p) ∧
    leNat a 0 1 = h.type % 256 ∧ leNat a 1 1 = h.src % 256 ∧ leNat a 2 1 = h.dst % 256 ∧ leNat a 8 8 = h.tag.toNat := by
  refine ⟨_, ?_, List.append_assoc _ _ _, ?_, ?_, ?_, ?_⟩
  · simp [leBytes_length, zeros_length]
  all_goals
    simp (disch := simp [leBytes_length, zeros_length]) only [leNat_left, leNat_right, leBytes_length, List.length_append, leNat_leBytes, Nat.sub_self]
  · simp only [pow_one]
  · simp only [pow_one]
  · simp only [pow_one]
  · exact Nat.mod_eq_of_lt h.tag.isLt

/-- A record that Elzan sends is sound, and holds what it was formed from (R255, R257). -/
theorem recordBytes256_sound (h : RecHead) (p : List Byte) (ht : h.type = 1 ∨ h.type = 2 ∨ h.type = 3) :
    (recordBytes256 h p).length = 256 ∧ recordSound (recordBytes256 h p) = true ∧ recType (recordBytes256 h p) = h.type ∧
    recSrc (recordBytes256 h p) = h.src % 256 ∧ recDst (recordBytes256 h p) = h.dst % 256 ∧ recTag (recordBytes256 h p) = h.tag := by
  obtain ⟨a, ha, e, e0, e1, e2, e8⟩ := recordBytes256_parts h p
  have hp := padTo_length 224 p
  generalize padTo 224 p = q at e hp
  generalize hk : leBytes 4 (crc32c (a ++ q)).toNat = k at e
  have hkl : k.length = 4 := by rw [← hk, leBytes_length]
  have left : ∀ o n, o + n ≤ 28 → leNat (recordBytes256 h p) o n = leNat a o n := fun o n hn => by rw [e, leNat_left _ _ _ _ (by omega)]
  have hc : recCrc (recordBytes256 h p) = crc32c (a ++ q) := by
    unfold recCrc
    rw [e, List.take_left' ha, ← List.append_assoc, List.drop_left' (by simp [ha, hkl])]
  have h28 : le32 (recordBytes256 h p) 28 = crc32c (a ++ q) := by
    unfold le32
    rw [e, leNat_right _ _ _ _ (by omega), ha, leNat_left _ _ _ _ (by omega), ← hk, leNat_leBytes, Nat.mod_eq_of_lt (show _ < 256 ^ 4 from (crc32c (a ++ q)).isLt)]
    exact BitVec.ofNat_toNat ..
  have hty : recType (recordBytes256 h p) = h.type := by
    unfold recType; rw [left 0 1 (by omega), e0]; omega
  refine ⟨by rw [e]; simp [ha, hkl, hp], ?_, hty, ?_, ?_, ?_⟩
  · unfold recordSound
    rw [hty, hc, h28]
    rcases ht with x | x | x <;> simp [x]
  · unfold recSrc; rw [left 1 1 (by omega), e1]
  · unfold recDst; rw [left 2 1 (by omega), e2]
  · unfold recTag le64; rw [left 8 8 (by omega), e8]; simp

end Sys2Proof.Machine
end

