-- ==== Sys2Proof/Laws/Table.lean ====
section
/-! SUPPORT. Laws of the sparse tables: a read after a write, and the canonical form. -/

namespace Sys2Proof.Machine

variable {α : Type}

@[simp] theorem tblGet_nil (d : α) (k : Nat) : tblGet d [] k = d := rfl

@[simp] theorem tblGet_erase_same (d : α) (t : Tbl α) (k : Nat) : tblGet d (tblErase t k) k = d := by
  induction t with
  | nil => rfl
  | cons e t ih => obtain ⟨a, v⟩ := e; by_cases h : a = k <;> simp [tblErase, tblGet, h, ih]

theorem tblGet_erase_ne (d : α) (t : Tbl α) {k j : Nat} (h : j ≠ k) : tblGet d (tblErase t k) j = tblGet d t j := by
  induction t with
  | nil => rfl
  | cons e t ih =>
    obtain ⟨a, v⟩ := e
    by_cases ha : a = k
    · subst ha; simp [tblErase, tblGet, ih, h.symm]
    · simp [tblErase, tblGet, ha, ih]

@[simp] theorem tblGet_insert_same (d : α) (t : Tbl α) (k : Nat) (v : α) : tblGet d (tblInsert t k v) k = v := by
  induction t with
  | nil => simp [tblInsert, tblGet]
  | cons e t ih =>
    obtain ⟨a, w⟩ := e
    by_cases h1 : k < a
    · simp [tblInsert, tblGet, h1]
    · by_cases h2 : a = k
      · simp [tblInsert, tblGet, h2]
      · simp [tblInsert, tblGet, h1, h2, ih]

theorem tblGet_insert_ne (d : α) (t : Tbl α) {k j : Nat} (v : α) (h : j ≠ k) : tblGet d (tblInsert t k v) j = tblGet d t j := by
  induction t with
  | nil => simp [tblInsert, tblGet, h.symm]
  | cons e t ih =>
    obtain ⟨a, w⟩ := e
    by_cases h1 : k < a
    · simp [tblInsert, tblGet, h1, h.symm]
    · by_cases h2 : a = k
      · subst h2; simp [tblInsert, tblGet, h.symm]
      · simp [tblInsert, tblGet, h1, h2, ih]

/-- A read of the key just written. -/
@[simp] theorem tblGet_set_same [DecidableEq α] (d : α) (t : Tbl α) (k : Nat) (v : α) : tblGet d (tblSet d t k v) k = v := by
  by_cases h : v = d <;> simp [tblSet, h]

/-- A read of another key. -/
theorem tblGet_set_ne [DecidableEq α] (d : α) (t : Tbl α) {k j : Nat} (v : α) (h : j ≠ k) :
    tblGet d (tblSet d t k v) j = tblGet d t j := by
  by_cases hv : v = d
  · simp [tblSet, hv, tblGet_erase_ne d t h]
  · simp [tblSet, hv, tblGet_insert_ne d t v h]

/-- A read of the key just modified. -/
@[simp] theorem tblGet_modify_same [DecidableEq α] (d : α) (t : Tbl α) (k : Nat) (f : α → α) :
    tblGet d (tblModify d t k f) k = f (tblGet d t k) := by simp [tblModify]

/-- A read of another key. -/
theorem tblGet_modify_ne [DecidableEq α] (d : α) (t : Tbl α) {k j : Nat} (f : α → α) (h : j ≠ k) :
    tblGet d (tblModify d t k f) j = tblGet d t j := tblGet_set_ne d t _ h

/-! ### The canonical form -/

/-- The canonical form as a proposition over the list. -/
theorem tblWf_iff [DecidableEq α] (d : α) (t : Tbl α) :
    tblWf d t = true ↔ t.Pairwise (fun a b => a.1 < b.1) ∧ ∀ e ∈ t, e.2 ≠ d := by
  induction t with
  | nil => simp [tblWf]
  | cons e t ih =>
    obtain ⟨a, v⟩ := e
    cases t with
    | nil => simp [tblWf]
    | cons e' t =>
      obtain ⟨b, w⟩ := e'
      simp only [tblWf, Bool.and_eq_true, decide_eq_true_eq, ih]
      constructor
      · rintro ⟨⟨hv, hab⟩, hp, hd⟩
        refine ⟨List.pairwise_cons.2 ⟨?_, hp⟩, ?_⟩
        · intro e he
          rcases List.mem_cons.1 he with rfl | he
          · exact hab
          · exact lt_trans hab ((List.pairwise_cons.1 hp).1 e he)
        · intro e he
          rcases List.mem_cons.1 he with rfl | he
          · exact hv
          · exact hd e he
      · rintro ⟨hp, hd⟩
        obtain ⟨h1, h2⟩ := List.pairwise_cons.1 hp
        exact ⟨⟨hd _ List.mem_cons_self, h1 _ List.mem_cons_self⟩, h2, fun e he => hd e (List.mem_cons_of_mem _ he)⟩

theorem tblErase_eq_filter (t : Tbl α) (k : Nat) : tblErase t k = t.filter fun e => e.1 ≠ k := by
  induction t with
  | nil => rfl
  | cons e t ih => obtain ⟨a, v⟩ := e; by_cases h : a = k <;> simp [tblErase, h, ih]

/-- Removal keeps the canonical form. -/
theorem tblWf_erase [DecidableEq α] (d : α) (t : Tbl α) (k : Nat) (h : tblWf d t = true) : tblWf d (tblErase t k) = true := by
  rw [tblWf_iff] at h ⊢
  rw [tblErase_eq_filter]
  exact ⟨h.1.filter _, fun e he => h.2 e (List.mem_filter.1 he).1⟩

/-- Every entry after an insertion is the new one or an old one. -/
theorem mem_tblInsert {t : Tbl α} {k : Nat} {v : α} {e : Nat × α} (h : e ∈ tblInsert t k v) : e = (k, v) ∨ e ∈ t := by
  induction t with
  | nil => exact .inl (by simpa [tblInsert] using h)
  | cons x t ih =>
    obtain ⟨a, w⟩ := x
    simp only [tblInsert] at h
    split at h
    · exact List.mem_cons.1 h
    · split at h
      · rcases List.mem_cons.1 h with h | h
        · exact .inl h
        · exact .inr (List.mem_cons_of_mem _ h)
      · rcases List.mem_cons.1 h with h | h
        · exact .inr (h ▸ List.mem_cons_self)
        · exact (ih h).imp id (List.mem_cons_of_mem _)

/-- Insertion keeps the canonical form. -/
theorem tblWf_insert [DecidableEq α] (d : α) (t : Tbl α) (k : Nat) (v : α) (hv : v ≠ d) (h : tblWf d t = true) :
    tblWf d (tblInsert t k v) = true := by
  rw [tblWf_iff] at h ⊢
  obtain ⟨hp, hd⟩ := h
  refine ⟨?_, fun e he => ?_⟩
  · clear hd
    induction t with
    | nil => simp [tblInsert]
    | cons x t ih =>
      obtain ⟨a, w⟩ := x
      obtain ⟨h1, h2⟩ := List.pairwise_cons.1 hp
      simp only [tblInsert]
      split
      · rename_i hk
        refine List.pairwise_cons.2 ⟨fun e he => ?_, hp⟩
        rcases List.mem_cons.1 he with rfl | he
        · exact hk
        · exact lt_trans hk (h1 e he)
      · split
        · rename_i hk
          exact List.pairwise_cons.2 ⟨fun e he => hk ▸ h1 e he, h2⟩
        · rename_i hk hn
          refine List.pairwise_cons.2 ⟨fun e he => ?_, ih h2⟩
          rcases mem_tblInsert he with rfl | he
          · simp only; omega
          · exact h1 e he
  · rcases mem_tblInsert he with rfl | he
    · exact hv
    · exact hd e he

/-- A write keeps the canonical form. -/
theorem tblWf_set [DecidableEq α] (d : α) (t : Tbl α) (k : Nat) (v : α) (h : tblWf d t = true) : tblWf d (tblSet d t k v) = true := by
  unfold tblSet
  split
  · exact tblWf_erase d t k h
  · exact tblWf_insert d t k v ‹_› h

/-- A change keeps the canonical form. -/
theorem tblWf_modify [DecidableEq α] (d : α) (t : Tbl α) (k : Nat) (f : α → α) (h : tblWf d t = true) :
    tblWf d (tblModify d t k f) = true := tblWf_set d t k _ h

/-- Every entry after a write is the new one or an old one. -/
theorem mem_tblSet [DecidableEq α] {d : α} {t : Tbl α} {k : Nat} {v : α} {e : Nat × α} (h : e ∈ tblSet d t k v) : e = (k, v) ∨ e ∈ t := by
  unfold tblSet at h
  split at h
  · rw [tblErase_eq_filter] at h
    exact .inr (List.mem_filter.1 h).1
  · exact mem_tblInsert h

end Sys2Proof.Machine
end

