-- ==== Sys2Proof/Laws/Settle.lean ====
section
/-! SUPPORT. What happens while dispatched commands advance by themselves (`State.settle`): nothing that stands still
moves, no packet is lost or renamed, and an ended packet keeps its reason and its record's body. One lemma per shared
operation, up to `settle_adv`. -/

namespace Sys2Proof.Machine

/-! ### Operations that touch no command and no ring -/

/-- `t` differs from `s` in nothing that stands still, and holds the same commands and rings. -/
structure Quiet (s t : State) : Prop where
  cmds : t.cmds = s.cmds
  rings : (t.rings, t.tenants) = (s.rings, s.tenants)
  still : t.still = s.still
  pend : ∀ i, s.flt.pend.getLsbD i = true → t.flt.pend.getLsbD i = true
  pair : s.solo → t.pair = s.pair

theorem State.solo.of_pair {s t : State} (h : s.solo) (e : t.pair = s.pair) : t.solo := by
  unfold State.solo; rw [e]; exact h

theorem not_solo_of_primary {s : State} (h : s.primary = true) : ¬ s.solo := by
  intro ⟨h1, _⟩
  simp [State.primary] at h
  exact h1 h.1

theorem not_solo_of_secondary {s : State} (h : s.secondary = true) : ¬ s.solo := by
  intro ⟨h1, h2⟩
  simp [State.secondary, h2] at h
  exact h1 h.2

theorem Quiet.refl (s : State) : Quiet s s := ⟨rfl, rfl, rfl, fun _ h => h, fun _ => rfl⟩

theorem Quiet.trans {a b c : State} (h : Quiet a b) (k : Quiet b c) : Quiet a c :=
  ⟨k.cmds.trans h.cmds, k.rings.trans h.rings, k.still.trans h.still, fun i x => k.pend i (h.pend i x), fun x =>
    (k.pair (x.of_pair (h.pair x))).trans (h.pair x)⟩

theorem Quiet.foldl {α : Type} (f : State → α → State) (h : ∀ s x, Quiet s (f s x)) (l : List α) (s : State) : Quiet s (l.foldl f s) := by
  induction l generalizing s with
  | nil => exact Quiet.refl s
  | cons x l ih => exact (h s x).trans (ih _)

theorem ask_quiet (s : State) (r : Range) : Quiet s (s.ask r) := by
  unfold State.ask; split <;> exact ⟨rfl, rfl, rfl, fun _ h => h, fun _ => rfl⟩

theorem askRead_quiet (s : State) (k : Traffic) (r : Nat) (q : U32) (i a n : Nat) : Quiet s (s.askRead k r q i a n) := ask_quiet s _

theorem askWrite_quiet (s : State) (k : Traffic) (r : Nat) (q : U32) (i a : Nat) (b : List Byte) :
    Quiet s (s.askWrite k r q i a b) := ask_quiet s _

theorem joinBarrier_quiet (s : State) : Quiet s s.joinBarrier := by
  unfold State.joinBarrier
  split
  · exact Quiet.refl s
  · split <;> exact ⟨rfl, rfl, rfl, fun _ h => h, fun _ => rfl⟩

theorem leaveBarrier_quiet (s : State) (r : Nat) : Quiet s (s.leaveBarrier r) := by
  unfold State.leaveBarrier; split <;> exact ⟨rfl, rfl, rfl, fun _ h => h, fun _ => rfl⟩

theorem convert_quiet (s : State) (c : Cmd) : Quiet s (s.convert c).1 := ⟨rfl, rfl, rfl, fun _ h => h, fun _ => rfl⟩

theorem freeAcre_quiet (s : State) (r : Nat) (q : U32) : Quiet s (s.freeAcre r q) := by
  refine ⟨rfl, rfl, ?_, fun _ h => h, fun _ => rfl⟩
  unfold State.freeAcre State.still
  simp only
  split <;> rfl

theorem dropQueued_quiet (s : State) (r : Nat) (q : U32) : Quiet s (s.dropQueued r q) := ⟨rfl, rfl, rfl, fun _ h => h, fun _ => rfl⟩

theorem raise_quiet (s : State) (i : Nat) : Quiet s (s.raise i) :=
  ⟨rfl, rfl, rfl, fun j h => by simp [State.raise, h], fun _ => rfl⟩

theorem bgEvent_quiet (s : State) (c k : Nat) : Quiet s (s.bgEvent c k) := ⟨rfl, rfl, rfl, fun _ h => h, fun _ => rfl⟩

theorem transmit_quiet (s : State) (t : Nat) (p : List Byte) (h : ¬ s.solo) : Quiet s (s.transmit t p) :=
  ⟨rfl, rfl, rfl, fun _ h => h, fun x => absurd x h⟩

theorem sendPair_quiet (s : State) (t : Nat) (p : List Byte) (h : ¬ s.solo) : Quiet s (s.sendPair t p) := by
  unfold State.sendPair
  split
  · exact Quiet.refl s
  · split
    · exact transmit_quiet s t p h
    · exact ⟨rfl, rfl, rfl, fun _ h => h, fun x => absurd x h⟩

theorem tell_quiet (s : State) (k : Nat) (c : Cmd) (n d : Bool) (a b : Nat) : Quiet s (s.tell k c n d a b) := by
  unfold State.tell
  split
  · exact sendPair_quiet s _ _ (not_solo_of_primary ‹_›)
  · exact Quiet.refl s

/-- A change of the pair's STATE touches the pair and its interrupt source only. -/
theorem setPair_parts (s : State) (n : Nat) : (s.setPair n).cmds = s.cmds ∧ ((s.setPair n).rings, (s.setPair n).tenants) = (s.rings, s.tenants) ∧
    (s.setPair n).still = s.still ∧ ∀ i, s.flt.pend.getLsbD i = true → (s.setPair n).flt.pend.getLsbD i = true := by
  unfold State.setPair
  split
  · exact ⟨rfl, rfl, rfl, fun _ h => h⟩
  · exact ⟨rfl, rfl, rfl, fun j h => by simp [State.raise, h]⟩

/-- A divergence is a pair's. -/
theorem diverge_quiet (s : State) (r : Nat) (q crc : U32) (h : ¬ s.solo) : Quiet s (s.diverge r q crc) := by
  have hs : Quiet s (if s.secondary then s.sendPair frDigest (digestPayload r q crc) else s) := by
    split
    · exact sendPair_quiet s _ _ h
    · exact Quiet.refl s
  unfold State.diverge
  generalize (if s.secondary = true then s.sendPair frDigest (digestPayload r q crc) else s) = u at *
  dsimp only
  obtain ⟨h1, h2, h3, h4⟩ := setPair_parts (State.raise { u with pair := { u.pair with
    diverged := true
    divValid := true
    divRing := if u.pair.divValid then u.pair.divRing else r
    divSeq := if u.pair.divValid then u.pair.divSeq else q
    holding := u.pair.holding || u.pair.role } } 8) 4
  exact ⟨h1.trans hs.cmds, h2.trans hs.rings, h3.trans hs.still,
    fun i x => h4 i (by have := hs.pend i x; simp [State.raise, this]), fun x => absurd x h⟩

theorem tookTurn_quiet (s : State) (c : Cmd) : Quiet s (s.tookTurn c) := by
  unfold State.tookTurn
  split
  · exact ⟨rfl, rfl, rfl, fun _ h => h, fun x => absurd x (not_solo_of_secondary ‹_›)⟩
  · exact tell_quiet s _ _ _ _ _ _

theorem askPoint4_quiet (s : State) (c : Cmd) : Quiet s (s.askPoint4 c) := by
  unfold State.askPoint4
  split
  · exact askRead_quiet s _ _ _ _ _ _
  · split
    · exact Quiet.foldl _ (fun s i => askRead_quiet s _ _ _ _ _ _) _ _
    · exact Quiet.refl s

/-! ### How commands advance -/

/-- `d` is packet `c` later in its life: the same packet in the same place of the fetch and dispatch orders, and still
ended with the same reason and body if it had ended. -/
structure Cmd.Later (c d : Cmd) : Prop where
  ring : d.ring = c.ring
  seq : d.seq = c.seq
  pkt : d.pkt = c.pkt
  op : d.op = c.op
  run : d.run = c.run
  order : d.order = c.order
  disp : d.disp = c.disp
  done : c.stage = .finished → d.stage = .finished ∧ d.reason = c.reason ∧ d.body = c.body

theorem Cmd.Later.refl (c : Cmd) : Cmd.Later c c := ⟨rfl, rfl, rfl, rfl, rfl, rfl, rfl, fun h => ⟨h, rfl, rfl⟩⟩

theorem Cmd.Later.trans {a b c : Cmd} (h : Cmd.Later a b) (k : Cmd.Later b c) : Cmd.Later a c :=
  ⟨k.ring.trans h.ring, k.seq.trans h.seq, k.pkt.trans h.pkt, k.op.trans h.op, k.run.trans h.run, k.order.trans h.order,
    k.disp.trans h.disp, fun e => by
      obtain ⟨h1, h2, h3⟩ := h.done e
      obtain ⟨k1, k2, k3⟩ := k.done h1
      exact ⟨k1, k2.trans h2, k3.trans h3⟩⟩

/-- A property that a packet keeps through its life. -/
def Cmd.Stable (P : Cmd → Prop) : Prop := ∀ c d, Cmd.Later c d → P c → P d

theorem endedWith_stable (r : Reason) (b : List Byte) : Cmd.Stable (Cmd.endedWith r b) := by
  intro c d h ⟨h1, h2, h3⟩
  obtain ⟨k1, k2, k3⟩ := h.done h1
  exact ⟨k1, k2.trans h2, k3.trans h3⟩

theorem dispatchedAs_stable (n : Nat) : Cmd.Stable (Cmd.dispatchedAs n) := fun _ _ h hc => h.disp.trans hc

/-- `t` comes from `s` by commands that advance: nothing that stands still moves, and every packet stays what it is. -/
structure Adv (s t : State) : Prop where
  same : s.sameStill t
  cmds : ∀ o P, Cmd.Stable P → s.holds o P → t.holds o P
  pend : ∀ i, s.flt.pend.getLsbD i = true → t.flt.pend.getLsbD i = true
  pair : s.solo → t.pair = s.pair

theorem Adv.refl (s : State) : Adv s s := ⟨⟨rfl, fun _ => rfl, fun _ => rfl⟩, fun _ _ _ h => h, fun _ h => h, fun _ => rfl⟩

theorem Adv.trans {a b c : State} (h : Adv a b) (k : Adv b c) : Adv a c :=
  ⟨⟨k.same.1.trans h.same.1, fun r => (k.same.2.1 r).trans (h.same.2.1 r), fun n => (k.same.2.2 n).trans (h.same.2.2 n)⟩, fun o P hp x => k.cmds o P hp (h.cmds o P hp x),
    fun i x => k.pend i (h.pend i x), fun x => (k.pair (x.of_pair (h.pair x))).trans (h.pair x)⟩

theorem Quiet.ring {s t : State} (h : Quiet s t) (r : Nat) : t.ring r = s.ring r := by
  simp only [State.ring, (Prod.mk.inj h.rings).1]

theorem Quiet.tenant {s t : State} (h : Quiet s t) (n : Nat) : t.tenant n = s.tenant n := by
  simp only [State.tenant, (Prod.mk.inj h.rings).2]

theorem Quiet.adv {s t : State} (h : Quiet s t) : Adv s t :=
  ⟨⟨h.still, fun r => by rw [State.ringStill, State.ringStill, h.ring], fun n => by
      rw [State.tenantStill, State.tenantStill, h.tenant]⟩, fun o P _ x => by
    simpa only [State.holds, h.cmds] using x, h.pend, h.pair⟩

theorem Adv.foldl {α : Type} (f : State → α → State) (h : ∀ s x, Adv s (f s x)) (l : List α) (s : State) : Adv s (l.foldl f s) := by
  induction l generalizing s with
  | nil => exact Adv.refl s
  | cons x l ih => exact (h s x).trans (ih _)

/-- `c` is a packet of `s`, perhaps later in its life. -/
def State.knows (s : State) (c : Cmd) : Prop := ∃ d ∈ s.cmds, Cmd.Later d c

theorem State.knows.of_mem {s : State} {c : Cmd} (h : c ∈ s.cmds) : s.knows c := ⟨c, h, Cmd.Later.refl c⟩

theorem State.knows.quiet {s t : State} {c : Cmd} (h : s.knows c) (k : Quiet s t) : t.knows c := by
  obtain ⟨d, hd, hl⟩ := h
  exact ⟨d, k.cmds ▸ hd, hl⟩

theorem State.knows.later {s : State} {c d : Cmd} (h : s.knows c) (k : Cmd.Later c d) : s.knows d := by
  obtain ⟨e, he, hl⟩ := h
  exact ⟨e, he, hl.trans k⟩

/-- The packet just written is there. -/
theorem mem_setCmd {s : State} {c : Cmd} (h : s.knows c) : c ∈ (s.setCmd c).cmds := by
  obtain ⟨d, hd, hl⟩ := h
  exact List.mem_map.2 ⟨d, hd, by simp [hl.order.symm]⟩

theorem setCmd_knows {s : State} {c : Cmd} (h : s.knows c) : (s.setCmd c).knows c := .of_mem (mem_setCmd h)

/-- Writing `c` keeps what holds of every packet with its order, where it holds of `c`. -/
theorem setCmd_holds {s : State} {c : Cmd} {o : Nat} {P : Cmd → Prop} (h : s.holds o P) (hc : c.order = o → P c) :
    (s.setCmd c).holds o P := by
  obtain ⟨⟨d, hd, ho⟩, hall⟩ := h
  constructor
  · refine ⟨_, List.mem_map.2 ⟨d, hd, rfl⟩, ?_⟩
    split
    · rename_i h; exact h.symm.trans ho
    · exact ho
  · intro e he heo
    obtain ⟨d', hd', rfl⟩ := List.mem_map.1 he
    split at heo
    · rename_i h; simp only [h, if_true]; exact hc heo
    · rename_i h; simp only [h, if_false]; exact hall d' hd' heo

/-- Writing a packet that the earlier state `s₀` knows. -/
theorem Adv.setCmd {s₀ s : State} {c : Cmd} (a : Adv s₀ s) (h : s₀.knows c) : Adv s₀ (s.setCmd c) := by
  refine ⟨a.same, fun o P hp x => setCmd_holds (a.cmds o P hp x) fun ho => ?_, a.pend, a.pair⟩
  obtain ⟨d, hd, hl⟩ := h
  exact hp d c hl (x.2 d hd (hl.order.symm.trans ho))

theorem setCmd_adv {s : State} {c : Cmd} (h : s.knows c) : Adv s (s.setCmd c) := (Adv.refl s).setCmd h

/-- Every packet moves on in its life. -/
theorem map_adv (s : State) (f : Cmd → Cmd) (hf : ∀ c, Cmd.Later c (f c)) : Adv s { s with cmds := s.cmds.map f } := by
  refine ⟨⟨rfl, fun _ => rfl, fun _ => rfl⟩, fun o P hp x => ?_, fun _ h => h, fun _ => rfl⟩
  obtain ⟨⟨d, hd, ho⟩, hall⟩ := x
  refine ⟨⟨f d, List.mem_map.2 ⟨d, hd, rfl⟩, (hf d).order.trans ho⟩, fun e he heo => ?_⟩
  obtain ⟨d', hd', rfl⟩ := List.mem_map.1 he
  exact hp d' _ (hf d') (hall d' hd' ((hf d').order.symm.trans heo))

theorem cmd_mem {s : State} {r : Nat} {q : U32} {c : Cmd} (h : s.cmd r q = some c) : c ∈ s.cmds := by
  unfold State.cmd at h
  split at h
  · rename_i d hd
    obtain rfl : d = c := by simpa using h
    exact List.mem_of_find?_eq_some hd
  · exact List.mem_of_find?_eq_some h

theorem cmd_knows {s : State} {r : Nat} {q : U32} {c : Cmd} (h : s.cmd r q = some c) : s.knows c := .of_mem (cmd_mem h)

theorem modCmd_adv (s : State) (r : Nat) (q : U32) (f : Cmd → Cmd) (hf : ∀ c, Cmd.Later c (f c)) : Adv s (s.modCmd r q f) := by
  unfold State.modCmd
  split
  · rename_i c hc
    exact setCmd_adv ((cmd_knows hc).later (hf c))
  · exact Adv.refl s

theorem modRing_adv (s : State) (r : Nat) (f : Ring → Ring) (hf : ∀ g, { f g with cplBusy := false } = { g with cplBusy := false }) :
    Adv s (s.modRing r f) := by
  refine ⟨⟨rfl, fun k => ?_, fun _ => rfl⟩, fun _ _ _ h => h, fun _ h => h, fun _ => rfl⟩
  unfold State.ringStill State.ring State.modRing
  by_cases h : k = r
  · subst h; simp [hf]
  · simp [tblGet_modify_ne, h]

/-! ### One lemma per operation -/

/-- The end of a packet that has not ended. -/
theorem finish_later (c d : Cmd) (h : c.stage ≠ .finished) (hd : d.ring = c.ring ∧ d.seq = c.seq ∧ d.pkt = c.pkt ∧ d.op = c.op
    ∧ d.run = c.run ∧ d.order = c.order ∧ d.disp = c.disp) : Cmd.Later c d :=
  ⟨hd.1, hd.2.1, hd.2.2.1, hd.2.2.2.1, hd.2.2.2.2.1, hd.2.2.2.2.2.1, hd.2.2.2.2.2.2, fun e => absurd e h⟩

/-- The end of a packet that the earlier state `s₀` knows. -/
theorem Adv.finish {s₀ s : State} {c : Cmd} (a : Adv s₀ s) (r : Reason) (b : Body) (h : s₀.knows c) (hs : c.stage ≠ .finished) :
    Adv s₀ (s.finish c r b) := by
  have q : Quiet s (if (s.convert c).2.disp.isNone then (s.convert c).1.leaveBarrier (s.convert c).2.ring else (s.convert c).1) := by
    split
    · exact (convert_quiet s c).trans (leaveBarrier_quiet _ _)
    · exact convert_quiet s c
  unfold State.finish
  refine ((a.trans q.adv).setCmd ?_).trans (freeAcre_quiet _ _ _).adv
  exact h.later (finish_later _ _ hs ⟨rfl, rfl, rfl, rfl, rfl, rfl, rfl⟩)

theorem finish_adv {s : State} {c : Cmd} (r : Reason) (b : Body) (h : s.knows c) (hs : c.stage ≠ .finished) :
    Adv s (s.finish c r b) := (Adv.refl s).finish r b h hs

theorem refuse_quiet (s : State) (c : Cmd) : Quiet s ((if c.op = opCtxRestore then
    { s with streams := { s.streams with frames := s.streams.frames.filter fun e => !(e == (c.ring, c.seq)) } } else s).dropQueued
    c.ring c.seq) := by
  split <;> exact ⟨rfl, rfl, rfl, fun _ h => h, fun _ => rfl⟩

theorem refuse_adv {s : State} {c : Cmd} (r : Reason) (h : s.knows c) (hs : c.stage ≠ .finished) : Adv s (s.refuse c r) :=
  (refuse_quiet s c).adv.trans (finish_adv r _ (h.quiet (refuse_quiet s c)) hs)

theorem compareDigest_adv {s₀ s : State} {c : Cmd} (h : Adv s₀ s) (hc : c ∈ s₀.cmds) : Adv s₀ (s.compareDigest c) := by
  unfold State.compareDigest
  split
  · rename_i hs
    simp only [Bool.and_eq_true] at hs
    have hn : ¬ s.solo := not_solo_of_secondary hs.1.1
    split
    · exact h
    · simp only
      split
      · have k : ∀ l, Adv s₀ { s with pair := { s.pair with theirs := l } } := fun l =>
          ⟨h.same, h.cmds, h.pend, fun x => absurd (x.of_pair (h.pair x)) hn⟩
        exact (k _).setCmd ((State.knows.of_mem hc).later ⟨rfl, rfl, rfl, rfl, rfl, rfl, rfl, fun e => ⟨e, rfl, rfl⟩⟩)
      · refine Adv.trans (h.setCmd ((State.knows.of_mem hc).later ?_)) (Quiet.adv (diverge_quiet _ _ _ _ hn))
        exact ⟨rfl, rfl, rfl, rfl, rfl, rfl, rfl, fun e => ⟨e, rfl, rfl⟩⟩
  · exact h

theorem compareDigests_adv (s : State) : Adv s s.compareDigests := by
  unfold State.compareDigests
  split
  · have key : ∀ (l : List Cmd) (t : State), (∀ c ∈ l, c ∈ s.cmds) → Adv s t → Adv s (l.foldl State.compareDigest t) := by
      intro l
      induction l with
      | nil => intro t _ h; exact h
      | cons c l ih =>
        intro t hl h
        exact ih _ (fun d hd => hl d (List.mem_cons_of_mem _ hd)) (compareDigest_adv h (hl c List.mem_cons_self))
    exact key _ _ (fun c hc => hc) (Adv.refl s)
  · exact Adv.refl s

theorem pumpRing_adv (s : State) (r : Nat) : Adv s (s.pumpRing r) := by
  unfold State.pumpRing
  simp only
  split
  · exact Adv.refl s
  · rename_i c hc
    split
    · refine Adv.trans ?_ (askWrite_quiet _ _ _ _ _ _ _).adv
      refine Adv.trans ?_ (modRing_adv _ _ _ fun _ => rfl)
      refine setCmd_adv ?_
      exact (State.knows.of_mem (List.mem_of_find?_eq_some hc)).later ⟨rfl, rfl, rfl, rfl, rfl, rfl, rfl, fun e => ⟨e, rfl, rfl⟩⟩
    · exact Adv.refl s

theorem pump_adv (s : State) : Adv s s.pump := Adv.foldl _ pumpRing_adv _ _

theorem output_adv (s : State) (c : Cmd) (k : Traffic) (r i a : Nat) (b : List Byte) : Adv s (s.output c k r i a b) := by
  unfold State.output
  simp only
  have h : ∀ t : State, Adv s t → ∀ g : Range, Adv s (if t.secondary = true then t else t.ask g) := by
    intro t ht g
    split
    · exact ht
    · exact ht.trans (ask_quiet _ _).adv
  refine h _ ?_ _
  split
  · exact modCmd_adv _ _ _ _ fun c => ⟨rfl, rfl, rfl, rfl, rfl, rfl, rfl, fun e => ⟨e, rfl, rfl⟩⟩
  · exact Adv.refl s

theorem grantPool_adv {s : State} {c : Cmd} (h : s.knows c) : Adv s (s.grantPool c) := by
  have k : s.knows { c with granted := true } := h.later ⟨rfl, rfl, rfl, rfl, rfl, rfl, rfl, fun e => ⟨e, rfl, rfl⟩⟩
  exact (setCmd_adv k).trans (Quiet.adv (s := s.setCmd { c with granted := true }) ⟨rfl, rfl, rfl, fun _ h => h, fun _ => rfl⟩)

theorem grantAtDispatch_adv {s : State} {c : Cmd} (h : s.knows c) : Adv s (s.grantAtDispatch c) := by
  unfold State.grantAtDispatch
  split
  · exact grantPool_adv h
  · exact Adv.refl s

theorem learnStrips_adv {s : State} {c : Cmd} (h : s.knows c) : Adv s (s.learnStrips c) := by
  unfold State.learnStrips
  split
  · exact setCmd_adv (h.later ⟨rfl, rfl, rfl, rfl, rfl, rfl, rfl, fun e => ⟨e, rfl, rfl⟩⟩)
  · exact Adv.refl s

theorem learnTrees_adv {s : State} {c : Cmd} (h : s.knows c) : Adv s (s.learnTrees c) := by
  unfold State.learnTrees
  split
  · have k : ∀ (w : Work) (g a : Nat), s.knows { c with work := w, granules := g, allocs := a } := fun w g a =>
      h.later ⟨rfl, rfl, rfl, rfl, rfl, rfl, rfl, fun e => ⟨e, rfl, rfl⟩⟩
    exact (setCmd_adv (k _ _ _)).trans (grantAtDispatch_adv (setCmd_knows (k _ _ _)))
  · exact Adv.refl s

theorem askStage_adv {s : State} {c : Cmd} (h : s.knows c) : Adv s (s.askStage c) := by
  unfold State.askStage
  dsimp only
  split
  · refine Adv.trans (setCmd_adv (h.later ?_)) (Quiet.adv (ask_quiet _ _))
    exact ⟨rfl, rfl, rfl, rfl, rfl, rfl, rfl, fun e => ⟨e, rfl, rfl⟩⟩
  · exact Adv.refl s

theorem tryStart_adv {s : State} {c : Cmd} (h : s.knows c) (hs : c.stage ≠ .finished) : Adv s (s.tryStart c) := by
  unfold State.tryStart
  split
  · split
    · exact refuse_adv _ h hs
    · have k : s.knows { c with started := true } := h.later ⟨rfl, rfl, rfl, rfl, rfl, rfl, rfl, fun e => ⟨e, rfl, rfl⟩⟩
      exact (setCmd_adv k).trans (askPoint4_quiet _ _).adv
  · exact Adv.refl s

theorem point4_adv {s : State} {c : Cmd} (h : s.knows c) (hs : c.stage ≠ .finished) : Adv s (s.point4 c) := by
  unfold State.point4
  split
  · exact refuse_adv _ h hs
  · split
    · simp only
      split
      · exact setCmd_adv (h.later ⟨rfl, rfl, rfl, rfl, rfl, rfl, rfl, fun e => ⟨e, rfl, rfl⟩⟩)
      · exact refuse_adv _ h hs
    · exact Adv.refl s

theorem stageLists_adv {s : State} {c : Cmd} (h : s.knows c) : Adv s (s.stageLists c) := by
  unfold State.stageLists
  dsimp only
  generalize (if c.op = opHeadFwd then if pkBindEn c.run then [pkBindStrip c.run] else [] else c.work.strips) = l
  split
  · exact setCmd_adv (h.later ⟨rfl, rfl, rfl, rfl, rfl, rfl, rfl, fun e => ⟨e, rfl, rfl⟩⟩)
  · exact Adv.refl s

theorem dropLists_adv (s : State) (b : Bool) (c : Cmd) : Adv s (s.dropLists b c) := by
  unfold State.dropLists
  dsimp only
  have key : ∀ (l : List Range) (f : Cmd → Cmd), (∀ c, Cmd.Later c (f c)) → Adv s { s with queue := l, cmds := s.cmds.map f } :=
    fun l f hf => Adv.trans (b := { s with queue := l }) (Quiet.adv ⟨rfl, rfl, rfl, fun _ h => h, fun _ => rfl⟩)
      (map_adv { s with queue := l } f hf)
  refine key _ _ fun d => ?_
  split
  · exact ⟨rfl, rfl, rfl, rfl, rfl, rfl, rfl, fun e => ⟨e, rfl, rfl⟩⟩
  · exact Cmd.Later.refl d

theorem stagePart_adv (n : Nat) (s : State) (b : Bool) (r : Nat) (q : U32) : Adv s (s.stagePart b r q n) := by
  induction n generalizing s with
  | zero => exact Adv.refl s
  | succ n ih =>
    unfold State.stagePart
    split
    · exact Adv.refl s
    · dsimp only
      split
      · exact Adv.refl s
      · split
        · exact Adv.refl s
        · refine Adv.trans (Adv.trans (Adv.trans ?_ (modCmd_adv _ r q _ fun d => ?_))
            (Quiet.foldl _ (fun s e => askRead_quiet s _ _ _ _ _ _) _ _).adv) (ih _)
          · split
            · exact dropLists_adv _ _ _
            · exact Adv.refl s
          · exact ⟨rfl, rfl, rfl, rfl, rfl, rfl, rfl, fun e => ⟨e, rfl, rfl⟩⟩

theorem stageParts_adv (s : State) (c : Cmd) : Adv s (s.stageParts c) := by
  unfold State.stageParts
  dsimp only
  split
  · exact (stagePart_adv _ _ _ _ _).trans (stagePart_adv _ _ _ _ _)
  · exact Adv.refl s

/-! ### The end of a command on an Acre out of service -/

theorem modTenant_adv (s : State) (n : Nat) (f : Tenant → Tenant) (hf : ∀ t, { f t with reserved := 0 } = { t with reserved := 0 }) :
    Adv s (s.modTenant n f) := by
  refine ⟨⟨rfl, fun _ => rfl, fun k => ?_⟩, fun _ _ _ h => h, fun _ h => h, fun _ => rfl⟩
  unfold State.tenantStill State.tenant State.modTenant
  by_cases h : k = n
  · subst h; simp [hf]
  · simp [tblGet_modify_ne, h]

theorem unreserve_adv (s : State) (p : StripStep) : Adv s (s.unreserve p) := by
  unfold State.unreserve
  split
  · exact Adv.refl s
  · exact modTenant_adv _ _ _ fun _ => rfl

theorem dropReads_quiet (s : State) (r : Nat) (q : U32) : Quiet s (s.dropReads r q) := ⟨rfl, rfl, rfl, fun _ h => h, fun _ => rfl⟩

theorem closeMerge_adv {s₀ s : State} {m : Cmd} (a : Adv s₀ s) (r : Reason) (h : s₀.knows m) (hs : m.stage ≠ .finished) :
    Adv s₀ (s.closeMerge m r) := by
  unfold State.closeMerge
  split
  · exact a.finish _ _ h hs
  · rename_i c hc
    split
    · exact a.setCmd (h.later (finish_later _ _ hs ⟨rfl, rfl, rfl, rfl, rfl, rfl, rfl⟩))
    · refine Adv.finish (a.trans (setCmd_adv ((cmd_knows hc).later ?_))) _ _ h hs
      exact ⟨rfl, rfl, rfl, rfl, rfl, rfl, rfl, fun e => ⟨e, rfl, rfl⟩⟩

theorem endMergeOf_adv (s : State) (c : Cmd) (r : Reason) : Adv s (s.endMergeOf c r) := by
  unfold State.endMergeOf
  split
  · rename_i m hm
    have hs := List.find?_some hm
    simp only [Bool.and_eq_true, beq_iff_eq] at hs
    refine closeMerge_adv (Adv.refl s) _ (.of_mem (List.mem_of_find?_eq_some hm)) ?_
    rw [hs.1.1.2]; decide
  · exact Adv.refl s

/-- What a command becomes before its end is still the command, in the same stage. -/
theorem cut_later (s : State) (c : Cmd) (r : Reason) : Cmd.Later c ((s.fillCut c).failTokens r) ∧ ((s.fillCut c).failTokens r).stage = c.stage := by
  have h : Cmd.Later c (s.fillCut c) ∧ (s.fillCut c).stage = c.stage := by
    unfold State.fillCut
    split
    · exact ⟨⟨rfl, rfl, rfl, rfl, rfl, rfl, rfl, fun e => ⟨e, rfl, rfl⟩⟩, rfl⟩
    · exact ⟨Cmd.Later.refl c, rfl⟩
  generalize s.fillCut c = d at h
  unfold Cmd.failTokens
  split
  · exact ⟨h.1.trans ⟨rfl, rfl, rfl, rfl, rfl, rfl, rfl, fun e => ⟨e, rfl, rfl⟩⟩, h.2⟩
  · exact h

theorem fieldLeft_acre (s : State) {c : Cmd} (h : isAcreOp c.op = true) : s.fieldLeft c = s := by
  unfold State.fieldLeft
  split
  · rename_i g; rw [g.1] at h; exact absurd h (by decide)
  · split
    · rename_i g; rw [g.1] at h; exact absurd h (by decide)
    · rfl

/-- The end of an Acre command that has not ended. -/
theorem endWork_adv {s : State} {c : Cmd} (r : Reason) (h : s.knows c) (hs : c.stage ≠ .finished) (ha : isAcreOp c.op = true) :
    Adv s (s.endWork c r) := by
  obtain ⟨hl, he⟩ := cut_later s c r
  unfold State.endWork
  extract_lets d₀ w d s₁ s₂ steps
  have hd : d.stage ≠ .finished := by rw [show d.stage = c.stage from he]; exact hs
  have k : s.knows d := h.later (hl.trans ⟨rfl, rfl, rfl, rfl, rfl, rfl, rfl, fun e => ⟨e, rfl, rfl⟩⟩)
  have q : Adv s s₂ := by
    have e : s₂ = s₁ := fieldLeft_acre s₁ (c := d) (by rw [show d.op = c.op from hl.op]; exact ha)
    rw [e]
    change Adv s (if r = .saved then s.dropReads d.ring d.seq else s.dropQueued d.ring d.seq)
    split
    · exact (dropReads_quiet _ _ _).adv
    · exact (dropQueued_quiet _ _ _).adv
  clear_value steps s₂ d
  split
  · exact closeMerge_adv q _ k hd
  · split
    · refine Adv.trans ?_ (endMergeOf_adv _ _ _)
      refine Adv.trans ?_ (freeAcre_quiet _ _ _).adv
      refine Adv.setCmd ?_ (k.later (finish_later _ _ hd ⟨rfl, rfl, rfl, rfl, rfl, rfl, rfl⟩))
      refine Adv.trans q (Adv.foldl _ (fun s p => ?_) _ _)
      split
      · exact Adv.refl s
      · exact unreserve_adv s p
    · refine Adv.trans ?_ (endMergeOf_adv _ _ _)
      exact q.finish _ _ k hd

theorem noAcre_adv {s : State} {c : Cmd} (h : s.knows c) (hs : c.stage ≠ .finished) : Adv s (s.noAcre c) := by
  unfold State.noAcre
  split
  · rename_i g
    exact endWork_adv _ h hs g.2.1
  · exact Adv.refl s

theorem advance_adv (s : State) (r : Nat) (q : U32) : Adv s (s.advance r q) := by
  have key : ∀ (f : State → Cmd → State) (t : State), (∀ c, t.knows c → c.stage ≠ .finished → Adv t (f t c)) → Adv s t →
      Adv s (match t.cmd r q with
        | some c => if c.stage = .finished then t else f t c
        | none => t) := by
    intro f t hf h
    split
    · rename_i c hc
      split
      · exact h
      · exact h.trans (hf c (cmd_knows hc) ‹_›)
    · exact h
  unfold State.advance
  simp only [List.foldl]
  refine key _ _ (fun c _ _ => stageParts_adv _ c) ?_
  refine key _ _ (fun c k _ => stageLists_adv k) ?_
  refine key _ _ (fun c k e => point4_adv k e) ?_
  refine key _ _ (fun c k e => tryStart_adv k e) ?_
  refine key _ _ (fun c k _ => askStage_adv k) ?_
  refine key _ _ (fun c k _ => askStage_adv k) ?_
  refine key _ _ (fun c k _ => learnTrees_adv k) ?_
  refine key _ _ (fun c k _ => learnStrips_adv k) ?_
  exact key _ _ (fun c k e => noAcre_adv k e) (Adv.refl s)

theorem gradSat_later (c : Cmd) (w : Nat) : Cmd.Later c (c.gradSat w) := by
  unfold Cmd.gradSat
  split
  · exact ⟨rfl, rfl, rfl, rfl, rfl, rfl, rfl, fun e => ⟨e, rfl, rfl⟩⟩
  · exact Cmd.Later.refl c

theorem gradSat_adv (s : State) (r : Nat) (q : U32) (b : Bool) (w : Nat) :
    Adv s (if b = true then s.modCmd r q fun c => c.gradSat w else s) := by
  split
  · exact modCmd_adv _ _ _ _ fun c => gradSat_later c w
  · exact Adv.refl s

theorem gradCommit_adv (n : Nat) (s : State) (r : Nat) (q : U32) : Adv s (s.gradCommit r q n) := by
  induction n generalizing s with
  | zero => exact Adv.refl s
  | succ n ih =>
    have put : ∀ (t : State) (g : Train → Train), Adv t (t.modCmd r q fun c => { c with work := { c.work with train := g c.work.train } }) :=
      fun t g => modCmd_adv _ _ _ _ fun c => ⟨rfl, rfl, rfl, rfl, rfl, rfl, rfl, fun e => ⟨e, rfl, rfl⟩⟩
    unfold State.gradCommit
    split
    · exact Adv.refl s
    · rename_i c hc
      simp only
      split
      · exact Adv.refl s
      · have base : ∀ (a b n d : Nat), Adv s (if a < b then (s.modCmd r q fun c =>
            { c with work := { c.work with train := { c.work.train with gDone := c.work.train.gAsked } } }).tell stProgress c false false n d
            else s) := by
          intro a b n d
          split
          · exact (put s fun t => { t with gDone := t.gAsked }).trans (tell_quiet _ _ _ _ _ _ _).adv
          · exact Adv.refl s
        split
        · exact base _ _ _ _
        · split
          · refine Adv.trans (Adv.trans (Adv.trans ?_ (put _ fun t => { t with gReading := true })) (askRead_quiet _ _ _ _ _ _ _).adv) (ih _)
            exact base _ _ _ _
          · refine Adv.trans (Adv.trans ?_ (output_adv _ _ _ _ _ _ _)) (ih _)
            refine Adv.trans ?_ (put _ fun t => { t with gReading := false, gAsked := c.work.train.gAsked + 1 })
            exact Adv.trans (base _ _ _ _) (gradSat_adv _ _ _ _ _)

theorem tryComplete_adv {s : State} {c : Cmd} (h : s.knows c) : Adv s (s.tryComplete c) := by
  unfold State.tryComplete
  split
  · rename_i hm
    have hs : c.stage ≠ .finished := by rw [hm.2]; decide
    split
    · split
      · exact setCmd_adv (h.later ⟨rfl, rfl, rfl, rfl, rfl, rfl, rfl, fun e => ⟨e, rfl, rfl⟩⟩)
      · exact Adv.refl s
    · exact finish_adv _ _ h hs
  · simp only
    split
    · rename_i hw
      have hs : c.stage ≠ .finished := by
        simp only [Cmd.endsByWrites, Bool.and_eq_true, beq_iff_eq] at hw
        rw [hw.1.1.1.1.1.1]; decide
      split
      · exact finish_adv _ _ (h.later ⟨rfl, rfl, rfl, rfl, rfl, rfl, rfl, fun e => ⟨e, rfl, rfl⟩⟩) hs
      · exact finish_adv _ _ h hs
    · exact Adv.refl s

theorem marked_later (n : Nat) (c : Cmd) : Cmd.Later c (c.marked n) := by
  unfold Cmd.marked
  split
  · exact ⟨rfl, rfl, rfl, rfl, rfl, rfl, rfl, fun e => ⟨e, rfl, rfl⟩⟩
  · exact Cmd.Later.refl c

theorem passOn_adv (s : State) : Adv s s.passOn :=
  (joinBarrier_quiet s).adv.trans (map_adv s.joinBarrier _ (marked_later _))

/-- What comes about by itself after a step. -/
theorem settle_adv (s : State) : Adv s s.settle := by
  unfold State.settle
  dsimp only
  have start : Adv s (if s.passOn.working then s.passOn.activeCmds.foldl (fun s c => s.advance c.ring c.seq) s.passOn else s.passOn) := by
    refine (passOn_adv s).trans ?_
    split
    · exact Adv.foldl _ (fun s c => advance_adv s _ _) _ _
    · exact Adv.refl _
  generalize (if s.passOn.working = true then List.foldl (fun s c => s.advance c.ring c.seq) s.passOn s.passOn.activeCmds
    else s.passOn) = u at *
  refine Adv.trans (Adv.trans (start.trans ?_) (compareDigests_adv _)) (pump_adv _)
  split
  · exact Adv.refl _
  · refine Adv.foldl _ (fun s c => ?_) _ _
    have h : Adv s (if c.op = opTrain then s.gradCommit c.ring c.seq (2 * (s.fieldOf c).n + 2) else s) := by
      split
      · exact gradCommit_adv _ _ _ _
      · exact Adv.refl s
    split
    · rename_i d hd
      exact h.trans (tryComplete_adv (cmd_knows hd))
    · exact h

end Sys2Proof.Machine
end

