-- ==== Sys2Proof/Laws/Tick.lean ====
section
/-! SUPPORT. Laws of `State.tick`, the first thing most steps do: it takes TIME_NS, counts its passage, and changes nothing else. -/

namespace Sys2Proof.Machine

/-- A performance counter touches the counters only. -/
theorem perfAdd_eq (s : State) (n k : Nat) : s.perfAdd n k = { s with perf := (s.perfAdd n k).perf } := by
  unfold State.perfAdd; split <;> rfl

/-- States that differ in the counters only. -/
theorem perf_trans {s t u : State} (h : t = { s with perf := t.perf }) (g : u = { t with perf := u.perf }) : u = { s with perf := u.perf } := by
  rw [h] at g; exact g

/-- The passage of ACRE cycles touches the counters only (R480). -/
theorem acreRuns_eq (s : State) (n : Nat) : s.acreRuns n = { s with perf := (s.acreRuns n).perf } := by
  unfold State.acreRuns
  dsimp only
  split
  · rfl
  · exact perf_trans (perfAdd_eq s _ _) rfl

/-- A counter of whole microseconds touches the counters only. -/
theorem micros_eq (s : State) (b : Bool) (k n : Nat) (f : Perf → Perf) :
    (if b then { s.perfAdd k n with perf := f (s.perfAdd k n).perf } else s) =
      { s with perf := (if b then { s.perfAdd k n with perf := f (s.perfAdd k n).perf } else s).perf } := by
  cases b
  · rfl
  · exact perf_trans (perfAdd_eq s _ _) rfl

/-- The passage of time touches the counters only (R479, R480). -/
theorem passTime_eq (s : State) (now : Time) : s.passTime now = { s with perf := (s.passTime now).perf } := by
  unfold State.passTime
  dsimp only
  exact perf_trans (perf_trans (perf_trans rfl (acreRuns_eq _ _)) (micros_eq _ _ _ _ fun p => { p with deferTo := _ })) (micros_eq _ _ _ _ fun p => { p with waitTo := _ })

/-- A tick moves TIME_NS and the counters of time, and nothing else. -/
theorem tick_eq (s : State) (now : Time) : s.tick now = { s with timeNs := (s.tick now).timeNs, perf := (s.tick now).perf } := by
  unfold State.tick State.at
  split
  · split
    · split
      · rw [passTime_eq]
      · rfl
    · rfl
  · rfl

/-- TIME_NS never falls at a tick (R399). -/
theorem tick_time_le (s : State) (now : Time) : s.timeNs ≤ (s.tick now).timeNs := by
  unfold State.tick State.at
  split
  · split
    · assumption
    · exact BitVec.le_refl _
  · exact BitVec.le_refl _

/-- A block that does not run takes no tick. -/
theorem tick_asleep {s : State} (h : s.awake = false) (now : Time) : s.tick now = s := by simp [State.tick, h]

@[simp] theorem tick_build (s : State) (now : Time) : (s.tick now).build = s.build := by rw [tick_eq]
@[simp] theorem tick_pending (s : State) (now : Time) : (s.tick now).pending = s.pending := by rw [tick_eq]
@[simp] theorem tick_freeCtr (s : State) (now : Time) : (s.tick now).freeCtr = s.freeCtr := by rw [tick_eq]
@[simp] theorem tick_outOfOp (s : State) (now : Time) : (s.tick now).outOfOp = s.outOfOp := by rw [tick_eq]
@[simp] theorem tick_boot (s : State) (now : Time) : (s.tick now).boot = s.boot := by rw [tick_eq]
@[simp] theorem tick_pins (s : State) (now : Time) : (s.tick now).pins = s.pins := by rw [tick_eq]
@[simp] theorem tick_tap (s : State) (now : Time) : (s.tick now).tap = s.tap := by rw [tick_eq]
@[simp] theorem tick_apb (s : State) (now : Time) : (s.tick now).apb = s.apb := by rw [tick_eq]
@[simp] theorem tick_latches (s : State) (now : Time) : (s.tick now).latches = s.latches := by rw [tick_eq]
@[simp] theorem tick_rings (s : State) (now : Time) : (s.tick now).rings = s.rings := by rw [tick_eq]
@[simp] theorem tick_arb (s : State) (now : Time) : (s.tick now).arb = s.arb := by rw [tick_eq]
@[simp] theorem tick_gates (s : State) (now : Time) : (s.tick now).gates = s.gates := by rw [tick_eq]
@[simp] theorem tick_cplPend (s : State) (now : Time) : (s.tick now).cplPend = s.cplPend := by rw [tick_eq]
@[simp] theorem tick_cmds (s : State) (now : Time) : (s.tick now).cmds = s.cmds := by rw [tick_eq]
@[simp] theorem tick_nextOrder (s : State) (now : Time) : (s.tick now).nextOrder = s.nextOrder := by rw [tick_eq]
@[simp] theorem tick_barrier (s : State) (now : Time) : (s.tick now).barrier = s.barrier := by rw [tick_eq]
@[simp] theorem tick_acre (s : State) (now : Time) : (s.tick now).acre = s.acre := by rw [tick_eq]
@[simp] theorem tick_granary (s : State) (now : Time) : (s.tick now).granary = s.granary := by rw [tick_eq]
@[simp] theorem tick_fields (s : State) (now : Time) : (s.tick now).fields = s.fields := by rw [tick_eq]
@[simp] theorem tick_barn (s : State) (now : Time) : (s.tick now).barn = s.barn := by rw [tick_eq]
@[simp] theorem tick_seed0 (s : State) (now : Time) : (s.tick now).seed0 = s.seed0 := by rw [tick_eq]
@[simp] theorem tick_seed1 (s : State) (now : Time) : (s.tick now).seed1 = s.seed1 := by rw [tick_eq]
@[simp] theorem tick_seedTurn (s : State) (now : Time) : (s.tick now).seedTurn = s.seedTurn := by rw [tick_eq]
@[simp] theorem tick_ttSel (s : State) (now : Time) : (s.tick now).ttSel = s.ttSel := by rw [tick_eq]
@[simp] theorem tick_tensors (s : State) (now : Time) : (s.tick now).tensors = s.tensors := by rw [tick_eq]
@[simp] theorem tick_totals (s : State) (now : Time) : (s.tick now).totals = s.totals := by rw [tick_eq]
@[simp] theorem tick_win (s : State) (now : Time) : (s.tick now).win = s.win := by rw [tick_eq]
@[simp] theorem tick_strips (s : State) (now : Time) : (s.tick now).strips = s.strips := by rw [tick_eq]
@[simp] theorem tick_tenants (s : State) (now : Time) : (s.tick now).tenants = s.tenants := by rw [tick_eq]
@[simp] theorem tick_ports (s : State) (now : Time) : (s.tick now).ports = s.ports := by rw [tick_eq]
@[simp] theorem tick_queue (s : State) (now : Time) : (s.tick now).queue = s.queue := by rw [tick_eq]
@[simp] theorem tick_xfers (s : State) (now : Time) : (s.tick now).xfers = s.xfers := by rw [tick_eq]
@[simp] theorem tick_drainWait (s : State) (now : Time) : (s.tick now).drainWait = s.drainWait := by rw [tick_eq]
@[simp] theorem tick_marb (s : State) (now : Time) : (s.tick now).marb = s.marb := by rw [tick_eq]
@[simp] theorem tick_steer (s : State) (now : Time) : (s.tick now).steer = s.steer := by rw [tick_eq]
@[simp] theorem tick_probe (s : State) (now : Time) : (s.tick now).probe = s.probe := by rw [tick_eq]
@[simp] theorem tick_streams (s : State) (now : Time) : (s.tick now).streams = s.streams := by rw [tick_eq]
@[simp] theorem tick_energy (s : State) (now : Time) : (s.tick now).energy = s.energy := by rw [tick_eq]
@[simp] theorem tick_flt (s : State) (now : Time) : (s.tick now).flt = s.flt := by rw [tick_eq]
@[simp] theorem tick_fw (s : State) (now : Time) : (s.tick now).fw = s.fw := by rw [tick_eq]
@[simp] theorem tick_pair (s : State) (now : Time) : (s.tick now).pair = s.pair := by rw [tick_eq]
@[simp] theorem tick_shard (s : State) (now : Time) : (s.tick now).shard = s.shard := by rw [tick_eq]
@[simp] theorem tick_mem (s : State) (now : Time) : (s.tick now).mem = s.mem := by rw [tick_eq]
@[simp] theorem tick_images (s : State) (now : Time) : (s.tick now).images = s.images := by rw [tick_eq]
@[simp] theorem tick_powered (s : State) (now : Time) : (s.tick now).powered = s.powered := by rw [tick_eq]; rfl
@[simp] theorem tick_awake (s : State) (now : Time) : (s.tick now).awake = s.awake := by rw [tick_eq]; rfl
@[simp] theorem tick_running (s : State) (now : Time) : (s.tick now).running = s.running := by rw [tick_eq]; rfl
@[simp] theorem tick_halted (s : State) (now : Time) : (s.tick now).halted = s.halted := by rw [tick_eq]; rfl
@[simp] theorem tick_working (s : State) (now : Time) : (s.tick now).working = s.working := by rw [tick_eq]; rfl
@[simp] theorem tick_dispatching (s : State) (now : Time) : (s.tick now).dispatching = s.dispatching := by rw [tick_eq]; rfl
@[simp] theorem tick_secondary (s : State) (now : Time) : (s.tick now).secondary = s.secondary := by rw [tick_eq]; rfl
@[simp] theorem tick_primary (s : State) (now : Time) : (s.tick now).primary = s.primary := by rw [tick_eq]; rfl
@[simp] theorem tick_linked (s : State) (now : Time) : (s.tick now).linked = s.linked := by rw [tick_eq]; rfl
@[simp] theorem tick_ring (s : State) (now : Time) (n : Nat) : (s.tick now).ring n = s.ring n := by rw [tick_eq]; rfl
@[simp] theorem tick_port (s : State) (now : Time) (n : Nat) : (s.tick now).port n = s.port n := by rw [tick_eq]; rfl
@[simp] theorem tick_gate (s : State) (now : Time) (n : Nat) : (s.tick now).gate n = s.gate n := by rw [tick_eq]; rfl
@[simp] theorem tick_field (s : State) (now : Time) (n : Nat) : (s.tick now).field n = s.field n := by rw [tick_eq]; rfl
@[simp] theorem tick_strip (s : State) (now : Time) (n : Nat) : (s.tick now).strip n = s.strip n := by rw [tick_eq]; rfl
@[simp] theorem tick_tenant (s : State) (now : Time) (n : Nat) : (s.tick now).tenant n = s.tenant n := by rw [tick_eq]; rfl
@[simp] theorem tick_fnReset (s : State) (now : Time) (n : Nat) : (s.tick now).fnReset n = s.fnReset n := by rw [tick_eq]; rfl
@[simp] theorem tick_waiting (s : State) (now : Time) (n : Nat) : (s.tick now).waiting n = s.waiting n := by rw [tick_eq]; rfl
@[simp] theorem tick_inflight (s : State) (now : Time) (n : Nat) : (s.tick now).inflight n = s.inflight n := by rw [tick_eq]; rfl

/-- An interval that is empty touches no microsecond. -/
theorem newMicros_self (a d : Nat) : newMicros a a d = 0 := by simp [newMicros]

/-- A counter that counts nothing. -/
theorem perfAdd_zero (s : State) (n : Nat) : s.perfAdd n 0 = s := by simp [State.perfAdd]

/-- The counters after the passage of time (R479, R480): no whole ACRE cycle is left to share out again, unless a compute phase
takes it, and the microseconds up to `now` are counted for those that wait. -/
theorem passTime_done (s : State) (now : Time) :
    (s.passTime now).perf.acreFrac < 20 ∧ (s.phaseCounts = false → (s.passTime now).perf.acrePool.toNat = 0 ∧ min (s.passTime now).perf.acrePool 0 = (s.passTime now).perf.acrePool) ∧
    (s.cmds.any Cmd.isDeferred = true → (now.toNat + 999) / 1000 ≤ (s.passTime now).perf.deferTo) ∧
    (s.cmds.any Cmd.inWait = true → (now.toNat + 999) / 1000 ≤ (s.passTime now).perf.waitTo) := by
  have pf : ∀ (x : State) (n k : Nat), (x.perfAdd n k).perf.acreFrac = x.perf.acreFrac ∧ (x.perfAdd n k).perf.acrePool = x.perf.acrePool ∧
      (x.perfAdd n k).perf.deferTo = x.perf.deferTo ∧ (x.perfAdd n k).perf.waitTo = x.perf.waitTo := by
    intro x n k; unfold State.perfAdd; split <;> exact ⟨rfl, rfl, rfl, rfl⟩
  have run : ∀ (x : State) (n : Nat), (x.acreRuns n).perf.acreFrac = x.perf.acreFrac ∧ (x.phaseCounts = false → (x.acreRuns n).perf.acrePool.toNat = 0 ∧ min (x.acreRuns n).perf.acrePool 0 = (x.acreRuns n).perf.acrePool) := by
    intro x n
    unfold State.acreRuns
    dsimp only
    split
    · rename_i h; exact ⟨rfl, fun g => by simp [g] at h⟩
    · refine ⟨(pf _ _ _).1, fun _ => ⟨?_, ?_⟩⟩
      · show (min _ (0 : Int)).toNat = 0; omega
      · show min (min _ (0 : Int)) 0 = min _ 0; omega
  unfold State.passTime
  dsimp only
  generalize hx : State.acreRuns _ _ = x
  have h1 : x.perf.acreFrac < 20 ∧ (s.phaseCounts = false → x.perf.acrePool.toNat = 0 ∧ min x.perf.acrePool 0 = x.perf.acrePool) ∧ x.cmds = s.cmds := by
    subst hx
    refine ⟨?_, fun g => (run _ _).2 g, ?_⟩
    · rw [(run _ _).1]; exact Nat.mod_lt _ (by decide)
    · rw [acreRuns_eq]
  generalize hy : (if x.cmds.any Cmd.isDeferred then _ else x) = y
  have h2 : y.perf.acreFrac = x.perf.acreFrac ∧ y.perf.acrePool = x.perf.acrePool ∧ y.cmds = s.cmds ∧ (s.cmds.any Cmd.isDeferred = true → (now.toNat + 999) / 1000 ≤ y.perf.deferTo) := by
    subst hy
    rw [h1.2.2]
    split
    · exact ⟨(pf _ _ _).1, (pf _ _ _).2.1, by rw [perfAdd_eq]; exact h1.2.2, fun _ => Nat.le_max_right _ _⟩
    · rename_i g; exact ⟨rfl, rfl, h1.2.2, fun h => absurd h g⟩
  rw [h2.2.2.1]
  refine ⟨?_, fun g => ?_, fun g => ?_, fun g => ?_⟩
  · split
    · exact ((pf _ _ _).1.trans h2.1).symm ▸ h1.1
    · exact h2.1.symm ▸ h1.1
  · have : (if s.cmds.any Cmd.inWait then { y.perfAdd 20 (newMicros s.timeNs.toNat now.toNat y.perf.waitTo) with perf := { (y.perfAdd 20 (newMicros s.timeNs.toNat now.toNat y.perf.waitTo)).perf with waitTo := max y.perf.waitTo ((now.toNat + 999) / 1000) } } else y).perf.acrePool = x.perf.acrePool := by
      split
      · exact (pf _ _ _).2.1.trans h2.2.1
      · exact h2.2.1
    rw [this]; exact h1.2.1 g
  · split
    · exact (pf _ _ _).2.2.1.symm ▸ h2.2.2.2 g
    · exact h2.2.2.2 g
  · rw [if_pos g]; exact Nat.le_max_right _ _

/-- A second tick at the same time changes nothing, whatever a step has done to the packets in between, but for a command that it
made count or wait. -/
theorem tick_again {s v : State} {now : Time} (ht : v.timeNs = (s.tick now).timeNs) (hp : v.perf = (s.tick now).perf) (ha : v.awake = s.awake)
    (hb : v.boot = s.boot) (h0 : v.phaseCounts = s.phaseCounts) (h1 : v.cmds.any Cmd.isDeferred = true → s.cmds.any Cmd.isDeferred = true)
    (h2 : v.cmds.any Cmd.inWait = true → s.cmds.any Cmd.inWait = true) : v.tick now = v := by
  unfold State.tick at *
  rw [ha]
  cases hq : s.awake
  · rfl
  rw [hq, if_pos rfl] at ht hp
  simp only [if_true]
  unfold State.at at *
  by_cases hle : s.timeNs ≤ now
  · rw [if_pos hle] at ht hp
    have ht' : v.timeNs = now := ht
    rw [if_pos (by rw [ht']; exact BitVec.le_refl _), hb]
    cases hr : s.boot.ready
    · simp only [Bool.false_eq_true, if_false]; rw [← ht']
    · rw [hr, if_pos rfl] at hp
      have hp' : v.perf = (s.passTime now).perf := hp
      obtain ⟨d1, d2, d3, d4⟩ := passTime_done s now
      rw [← hp'] at d1 d2 d3 d4
      have e : v.passTime now = v := by
        unfold State.passTime
        dsimp only
        have ht2 : v.timeNs.toNat = now.toNat := by rw [ht']
        rw [ht2, Nat.sub_self, Nat.zero_mul, Nat.add_zero, Nat.mod_eq_of_lt d1, Nat.div_eq_of_lt d1]
        have e1 : State.acreRuns { v with perf := { v.perf with acreFrac := v.perf.acreFrac } } 0 = v := by
          show State.acreRuns v 0 = v
          unfold State.acreRuns
          dsimp only
          cases hc : v.phaseCounts
          · obtain ⟨p1, p2⟩ := d2 (h0 ▸ hc)
            simp only [Bool.false_eq_true, if_false]
            rw [show v.perf.acrePool + ((0 : Nat) : Int) = v.perf.acrePool by simp, p1, perfAdd_zero, p2]
          · simp
        simp only [newMicros_self, perfAdd_zero]
        generalize hx : State.acreRuns _ 0 = x
        have hxv : x = v := hx.symm.trans e1
        rw [hxv]
        have e2 : (if v.cmds.any Cmd.isDeferred = true then { v with perf := { v.perf with deferTo := max v.perf.deferTo ((now.toNat + 999) / 1000) } } else v) = v := by
          split
          · rename_i g; rw [Nat.max_eq_left (d3 (h1 g))]
          · rfl
        simp only [e2]
        split
        · rename_i g; rw [Nat.max_eq_left (d4 (h2 g))]
        · rfl
      rw [e]
      simp only [if_true]
      rw [← ht']
  · rw [if_neg hle] at ht
    have ht' : v.timeNs = s.timeNs := ht
    rw [ht', if_neg hle]

end Sys2Proof.Machine
end

