-- ==== Sys2Proof/Laws/Shared.lean ====
section
/-! SUPPORT. What the shared operations do, one lemma each: register writes, tables by element, ranges asked for, the
barrier, the record pump, the ports. -/

namespace Sys2Proof.Machine

/-- A block that serves performs a register write. -/
theorem regWrite_serves {s : State} (h : s.serves) (f : State → State) : s.regWrite f = (f s).apbOut 0 false := by
  simp [State.regWrite, h.1, h.2.1, h.2.2]

/-- A tick does not change whether the block serves. -/
theorem tick_serves {s : State} (h : s.serves) (now : Time) : (s.tick now).serves := by
  simpa [State.serves] using h

/-- A 32-bit difference as R306 and R321 write it. -/
theorem sub32 (v h : U32) : (v - h).toNat = (v.toNat + 2 ^ 32 - h.toNat) % 2 ^ 32 := by
  rw [BitVec.toNat_sub]; congr 1; omega

/-- The frame of a row: its queue, build and memory. -/
theorem keep_eq (s t : State) : s.keep t = { t with pending := s.pending, build := s.build, mem := s.mem } := rfl

theorem keep_apb_ring (s t : State) (k : Nat) : (s.keep (t.apbOut 0 false)).ring k = t.ring k := rfl

@[simp] theorem keep_ring (s t : State) (k : Nat) : (s.keep t).ring k = t.ring k := rfl
@[simp] theorem keep_port (s t : State) (k : Nat) : (s.keep t).port k = t.port k := rfl
@[simp] theorem keep_gate (s t : State) (k : Nat) : (s.keep t).gate k = t.gate k := rfl
@[simp] theorem keep_field (s t : State) (k : Nat) : (s.keep t).field k = t.field k := rfl
@[simp] theorem keep_strip (s t : State) (k : Nat) : (s.keep t).strip k = t.strip k := rfl
@[simp] theorem keep_tenant (s t : State) (k : Nat) : (s.keep t).tenant k = t.tenant k := rfl

/-- A single bit of a mask. -/
theorem getLsbD_bit (w m j : Nat) (h : j < w) : (BitVec.ofNat w (2 ^ m)).getLsbD j = decide (m = j) := by
  simp only [BitVec.getLsbD_ofNat, Nat.testBit_two_pow, h, decide_true, Bool.true_and]

/-! ### Tables by element -/

theorem modRing_ring_same (s : State) (r : Nat) (f : Ring → Ring) : (s.modRing r f).ring r = f (s.ring r) := by
  simp [State.ring, State.modRing]

theorem modRing_ring_ne (s : State) {r k : Nat} (f : Ring → Ring) (h : k ≠ r) : (s.modRing r f).ring k = s.ring k := by
  simp [State.ring, State.modRing, tblGet_modify_ne _ _ _ h]

theorem modPort_port_same (s : State) (r : Nat) (f : Port → Port) : (s.modPort r f).port r = f (s.port r) := by
  simp [State.port, State.modPort]

theorem modPort_port_ne (s : State) {r k : Nat} (f : Port → Port) (h : k ≠ r) : (s.modPort r f).port k = s.port k := by
  simp [State.port, State.modPort, tblGet_modify_ne _ _ _ h]

theorem modField_field_same (s : State) (r : Nat) (f : Field → Field) : (s.modField r f).field r = f (s.field r) := by
  simp [State.field, State.modField]

theorem modField_field_ne (s : State) {r k : Nat} (f : Field → Field) (h : k ≠ r) : (s.modField r f).field k = s.field k := by
  simp [State.field, State.modField, tblGet_modify_ne _ _ _ h]

theorem modStrip_strip_same (s : State) (r : Nat) (f : Strip → Strip) : (s.modStrip r f).strip r = f (s.strip r) := by
  simp [State.strip, State.modStrip]

theorem modStrip_strip_ne (s : State) {r k : Nat} (f : Strip → Strip) (h : k ≠ r) : (s.modStrip r f).strip k = s.strip k := by
  simp [State.strip, State.modStrip, tblGet_modify_ne _ _ _ h]

theorem modTenant_tenant_same (s : State) (r : Nat) (f : Tenant → Tenant) : (s.modTenant r f).tenant r = f (s.tenant r) := by
  simp [State.tenant, State.modTenant]

theorem modTenant_tenant_ne (s : State) {r k : Nat} (f : Tenant → Tenant) (h : k ≠ r) : (s.modTenant r f).tenant k = s.tenant k := by
  simp [State.tenant, State.modTenant, tblGet_modify_ne _ _ _ h]

/-! ### Ranges, the barrier, the record pump -/

/-- Asking for a range touches the movers' queue only. -/
theorem ask_frame (s : State) (g : Range) : ∃ q, s.ask g = { s with queue := q } := by
  unfold State.ask; split
  · exact ⟨_, rfl⟩
  · exact ⟨_, rfl⟩

theorem askRead_frame (s : State) (k : Traffic) (r : Nat) (q : U32) (i a n : Nat) : ∃ x, s.askRead k r q i a n = { s with queue := x } :=
  ask_frame s _

theorem askWrite_frame (s : State) (k : Traffic) (r : Nat) (q : U32) (i a : Nat) (b : List Byte) :
    ∃ x, s.askWrite k r q i a b = { s with queue := x } := ask_frame s _

theorem ask_ring (s : State) (g : Range) (k : Nat) : (s.ask g).ring k = s.ring k := by
  unfold State.ask; split <;> rfl

theorem setCmd_ring (s : State) (c : Cmd) (k : Nat) : (s.setCmd c).ring k = s.ring k := rfl

/-- Joining the barrier touches the barrier and barrier_out only (R325). -/
theorem joinBarrier_frame (s : State) : ∃ b o, s.joinBarrier = { s with barrier := b, pins := { s.pins with barrierOut := o } } := by
  unfold State.joinBarrier
  split
  · exact ⟨_, _, rfl⟩
  · split <;> exact ⟨_, _, rfl⟩

/-- Leaving the barrier touches the barrier and barrier_out only (R325, R327). -/
theorem leaveBarrier_frame (s : State) (r : Nat) : ∃ b o, s.leaveBarrier r = { s with barrier := b, pins := { s.pins with barrierOut := o } } := by
  unfold State.leaveBarrier
  split <;> exact ⟨_, _, rfl⟩

/-- A ring whose record is being written hands out no other (R318). -/
theorem pumpRing_busy (s : State) (r : Nat) (h : (s.ring r).cplBusy = true) : s.pumpRing r = s := by
  unfold State.pumpRing
  simp only
  split
  · rfl
  · simp [h]

/-- Handing out a record touches rings, commands and the movers' queue only. -/
theorem pumpRing_frame (s : State) (r : Nat) : ∃ g c q, s.pumpRing r = { s with rings := g, cmds := c, queue := q } := by
  unfold State.pumpRing
  simp only
  split
  · exact ⟨_, _, _, rfl⟩
  · split
    · rename_i c _ _
      obtain ⟨q, e⟩ := askWrite_frame ((s.setCmd { c with recAsked := true }).modRing r fun g => { g with cplBusy := true }) .cpl r c.seq 0
        ((s.ring r).cplBase.toNat + 128 * ((s.ring r).cplTail.toNat % 2 ^ (s.ring r).log2Entries)) (recordBytes (s.ring r) c)
      exact ⟨_, _, q, e⟩
    · exact ⟨_, _, _, rfl⟩

theorem pumpRing_ring_ne (s : State) (r k : Nat) (h : k ≠ r) : (s.pumpRing r).ring k = s.ring k := by
  unfold State.pumpRing
  simp only
  split
  · rfl
  · split
    · rw [State.askWrite, ask_ring, modRing_ring_ne _ _ h, setCmd_ring]
    · rfl

/-- Of its ring, handing out a record touches only the mark of a record in progress. -/
theorem pumpRing_ring_same (s : State) (r : Nat) :
    (s.pumpRing r).ring r = s.ring r ∨ (s.pumpRing r).ring r = { s.ring r with cplBusy := true } := by
  unfold State.pumpRing
  simp only
  split
  · exact .inl rfl
  · split
    · rw [State.askWrite, ask_ring, modRing_ring_same, setCmd_ring]; exact .inr rfl
    · exact .inl rfl

/-! ### What settling leaves alone, field by field -/

/-- Two states that agree in what stands still differ in nothing else but the fields that `State.still` masks. -/
theorem of_still {s t : State} (h : t.still = s.still) : t = { s with
    cmds := t.cmds, barrier := t.barrier, queue := t.queue, rings := t.rings, tenants := t.tenants, seed0 := t.seed0, seed1 := t.seed1
    pins := { s.pins with barrierOut := t.pins.barrierOut }
    acre := { s.acre with run := t.acre.run, held := t.acre.held }
    barn := { s.barn with poolFree := t.barn.poolFree }
    streams := { s.streams with frames := t.streams.frames }
    flt := { s.flt with pend := t.flt.pend }
    pair := t.pair
    energy := { s.energy with
      spent := t.energy.spent, genSpent := t.energy.genSpent, sampleAccrued := t.energy.sampleAccrued
      carry := t.energy.carry, totCmd := t.energy.totCmd, totClass := t.energy.totClass, bgEvents := t.energy.bgEvents } } := by
  have hp := congrArg State.pins h
  have ha := congrArg State.acre h
  have hb := congrArg State.barn h
  have hs := congrArg State.streams h
  have hf := congrArg State.flt h
  have he := congrArg State.energy h
  have h_build : t.build = s.build := (congrArg State.build h :)
  have h_pending : t.pending = s.pending := (congrArg State.pending h :)
  have h_freeCtr : t.freeCtr = s.freeCtr := (congrArg State.freeCtr h :)
  have h_outOfOp : t.outOfOp = s.outOfOp := (congrArg State.outOfOp h :)
  have h_boot : t.boot = s.boot := (congrArg State.boot h :)
  have h_tap : t.tap = s.tap := (congrArg State.tap h :)
  have h_apb : t.apb = s.apb := (congrArg State.apb h :)
  have h_latches : t.latches = s.latches := (congrArg State.latches h :)
  have h_timeNs : t.timeNs = s.timeNs := (congrArg State.timeNs h :)
  have h_arb : t.arb = s.arb := (congrArg State.arb h :)
  have h_gates : t.gates = s.gates := (congrArg State.gates h :)
  have h_cplPend : t.cplPend = s.cplPend := (congrArg State.cplPend h :)
  have h_nextOrder : t.nextOrder = s.nextOrder := (congrArg State.nextOrder h :)
  have h_granary : t.granary = s.granary := (congrArg State.granary h :)
  have h_fields : t.fields = s.fields := (congrArg State.fields h :)
  have h_seedTurn : t.seedTurn = s.seedTurn := (congrArg State.seedTurn h :)
  have h_ttSel : t.ttSel = s.ttSel := (congrArg State.ttSel h :)
  have h_tensors : t.tensors = s.tensors := (congrArg State.tensors h :)
  have h_totals : t.totals = s.totals := (congrArg State.totals h :)
  have h_win : t.win = s.win := (congrArg State.win h :)
  have h_strips : t.strips = s.strips := (congrArg State.strips h :)
  have h_ports : t.ports = s.ports := (congrArg State.ports h :)
  have h_xfers : t.xfers = s.xfers := (congrArg State.xfers h :)
  have h_drainWait : t.drainWait = s.drainWait := (congrArg State.drainWait h :)
  have h_marb : t.marb = s.marb := (congrArg State.marb h :)
  have h_steer : t.steer = s.steer := (congrArg State.steer h :)
  have h_probe : t.probe = s.probe := (congrArg State.probe h :)
  have h_fw : t.fw = s.fw := (congrArg State.fw h :)
  have h_shard : t.shard = s.shard := (congrArg State.shard h :)
  have h_perf : t.perf = s.perf := (congrArg State.perf h :)
  have h_mem : t.mem = s.mem := (congrArg State.mem h :)
  have h_images : t.images = s.images := (congrArg State.images h :)
  clear h
  rcases s with ⟨build1, pending1, freeCtr1, outOfOp1, boot1, pins1, tap1, apb1, latches1, timeNs1, rings1, arb1, gates1, cplPend1, cmds1, nextOrder1, barrier1, acre1, granary1, fields1, barn1, seed01, seed11, seedTurn1, ttSel1, tensors1, totals1, win1, strips1, tenants1, ports1, queue1, xfers1, drainWait1, marb1, steer1, probe1, streams1, energy1, flt1, fw1, pair1, shard1, perf1, mem1, images1⟩
  rcases t with ⟨build2, pending2, freeCtr2, outOfOp2, boot2, pins2, tap2, apb2, latches2, timeNs2, rings2, arb2, gates2, cplPend2, cmds2, nextOrder2, barrier2, acre2, granary2, fields2, barn2, seed02, seed12, seedTurn2, ttSel2, tensors2, totals2, win2, strips2, tenants2, ports2, queue2, xfers2, drainWait2, marb2, steer2, probe2, streams2, energy2, flt2, fw2, pair2, shard2, perf2, mem2, images2⟩
  cases pins1; cases pins2
  cases acre1; cases acre2
  cases barn1; cases barn2
  cases streams1; cases streams2
  cases flt1; cases flt2
  cases energy1; cases energy2
  simp only [State.still, Pins.mk.injEq, Acre.mk.injEq, Barn.mk.injEq, Streams.mk.injEq, Flt.mk.injEq, Energy.mk.injEq] at *
  simp only [State.mk.injEq, Pins.mk.injEq, Acre.mk.injEq, Barn.mk.injEq, Streams.mk.injEq, Flt.mk.injEq, Energy.mk.injEq]
  simp only [*, and_self]

/-- Settling moves nothing that stands still. -/
theorem settle_still (s : State) : s.settle.still = s.still := (settle_adv s).same.1

end Sys2Proof.Machine
end

