-- ==== Sys2Proof/Laws/SettleFields.lean ====
section
/-! SUPPORT. The fields that stand still, one lemma each, and that settling leaves them alone. -/

namespace Sys2Proof.Machine

theorem still_build {s t : State} (h : t.still = s.still) : t.build = s.build := (congrArg State.build h :)
@[simp] theorem settle_build (s : State) : s.settle.build = s.build := still_build (settle_still s)
theorem still_pending {s t : State} (h : t.still = s.still) : t.pending = s.pending := (congrArg State.pending h :)
@[simp] theorem settle_pending (s : State) : s.settle.pending = s.pending := still_pending (settle_still s)
theorem still_freeCtr {s t : State} (h : t.still = s.still) : t.freeCtr = s.freeCtr := (congrArg State.freeCtr h :)
@[simp] theorem settle_freeCtr (s : State) : s.settle.freeCtr = s.freeCtr := still_freeCtr (settle_still s)
theorem still_outOfOp {s t : State} (h : t.still = s.still) : t.outOfOp = s.outOfOp := (congrArg State.outOfOp h :)
@[simp] theorem settle_outOfOp (s : State) : s.settle.outOfOp = s.outOfOp := still_outOfOp (settle_still s)
theorem still_boot {s t : State} (h : t.still = s.still) : t.boot = s.boot := (congrArg State.boot h :)
@[simp] theorem settle_boot (s : State) : s.settle.boot = s.boot := still_boot (settle_still s)
theorem still_pins_rstLow {s t : State} (h : t.still = s.still) : t.pins.rstLow = s.pins.rstLow := (congrArg (fun t : State => t.pins.rstLow) h :)
@[simp] theorem settle_pins_rstLow (s : State) : s.settle.pins.rstLow = s.pins.rstLow := still_pins_rstLow (settle_still s)
theorem still_pins_fnLow {s t : State} (h : t.still = s.still) : t.pins.fnLow = s.pins.fnLow := (congrArg (fun t : State => t.pins.fnLow) h :)
@[simp] theorem settle_pins_fnLow (s : State) : s.settle.pins.fnLow = s.pins.fnLow := still_pins_fnLow (settle_still s)
theorem still_pins_barrierIn {s t : State} (h : t.still = s.still) : t.pins.barrierIn = s.pins.barrierIn := (congrArg (fun t : State => t.pins.barrierIn) h :)
@[simp] theorem settle_pins_barrierIn (s : State) : s.settle.pins.barrierIn = s.pins.barrierIn := still_pins_barrierIn (settle_still s)
theorem still_pins_sagN {s t : State} (h : t.still = s.still) : t.pins.sagN = s.pins.sagN := (congrArg (fun t : State => t.pins.sagN) h :)
@[simp] theorem settle_pins_sagN (s : State) : s.settle.pins.sagN = s.pins.sagN := still_pins_sagN (settle_still s)
theorem still_pins_pfailLow {s t : State} (h : t.still = s.still) : t.pins.pfailLow = s.pins.pfailLow := (congrArg (fun t : State => t.pins.pfailLow) h :)
@[simp] theorem settle_pins_pfailLow (s : State) : s.settle.pins.pfailLow = s.pins.pfailLow := still_pins_pfailLow (settle_still s)
theorem still_pins_mvrLow {s t : State} (h : t.still = s.still) : t.pins.mvrLow = s.pins.mvrLow := (congrArg (fun t : State => t.pins.mvrLow) h :)
@[simp] theorem settle_pins_mvrLow (s : State) : s.settle.pins.mvrLow = s.pins.mvrLow := still_pins_mvrLow (settle_still s)
theorem still_pins_stkLow {s t : State} (h : t.still = s.still) : t.pins.stkLow = s.pins.stkLow := (congrArg (fun t : State => t.pins.stkLow) h :)
@[simp] theorem settle_pins_stkLow (s : State) : s.settle.pins.stkLow = s.pins.stkLow := still_pins_stkLow (settle_still s)
theorem still_pins_drained {s t : State} (h : t.still = s.still) : t.pins.drained = s.pins.drained := (congrArg (fun t : State => t.pins.drained) h :)
@[simp] theorem settle_pins_drained (s : State) : s.settle.pins.drained = s.pins.drained := still_pins_drained (settle_still s)
theorem still_pins_wrapper {s t : State} (h : t.still = s.still) : t.pins.wrapper = s.pins.wrapper := (congrArg (fun t : State => t.pins.wrapper) h :)
@[simp] theorem settle_pins_wrapper (s : State) : s.settle.pins.wrapper = s.pins.wrapper := still_pins_wrapper (settle_still s)
theorem still_tap {s t : State} (h : t.still = s.still) : t.tap = s.tap := (congrArg State.tap h :)
@[simp] theorem settle_tap (s : State) : s.settle.tap = s.tap := still_tap (settle_still s)
theorem still_apb {s t : State} (h : t.still = s.still) : t.apb = s.apb := (congrArg State.apb h :)
@[simp] theorem settle_apb (s : State) : s.settle.apb = s.apb := still_apb (settle_still s)
theorem still_latches {s t : State} (h : t.still = s.still) : t.latches = s.latches := (congrArg State.latches h :)
@[simp] theorem settle_latches (s : State) : s.settle.latches = s.latches := still_latches (settle_still s)
theorem still_timeNs {s t : State} (h : t.still = s.still) : t.timeNs = s.timeNs := (congrArg State.timeNs h :)
@[simp] theorem settle_timeNs (s : State) : s.settle.timeNs = s.timeNs := still_timeNs (settle_still s)
theorem still_arb {s t : State} (h : t.still = s.still) : t.arb = s.arb := (congrArg State.arb h :)
@[simp] theorem settle_arb (s : State) : s.settle.arb = s.arb := still_arb (settle_still s)
theorem still_gates {s t : State} (h : t.still = s.still) : t.gates = s.gates := (congrArg State.gates h :)
@[simp] theorem settle_gates (s : State) : s.settle.gates = s.gates := still_gates (settle_still s)
theorem still_cplPend {s t : State} (h : t.still = s.still) : t.cplPend = s.cplPend := (congrArg State.cplPend h :)
@[simp] theorem settle_cplPend (s : State) : s.settle.cplPend = s.cplPend := still_cplPend (settle_still s)
theorem still_nextOrder {s t : State} (h : t.still = s.still) : t.nextOrder = s.nextOrder := (congrArg State.nextOrder h :)
@[simp] theorem settle_nextOrder (s : State) : s.settle.nextOrder = s.nextOrder := still_nextOrder (settle_still s)
theorem still_acre_spareCol {s t : State} (h : t.still = s.still) : t.acre.spareCol = s.acre.spareCol := (congrArg (fun t : State => t.acre.spareCol) h :)
@[simp] theorem settle_acre_spareCol (s : State) : s.settle.acre.spareCol = s.acre.spareCol := still_acre_spareCol (settle_still s)
theorem still_acre_spareRow {s t : State} (h : t.still = s.still) : t.acre.spareRow = s.acre.spareRow := (congrArg (fun t : State => t.acre.spareRow) h :)
@[simp] theorem settle_acre_spareRow (s : State) : s.settle.acre.spareRow = s.acre.spareRow := still_acre_spareRow (settle_still s)
theorem still_acre_deadCol {s t : State} (h : t.still = s.still) : t.acre.deadCol = s.acre.deadCol := (congrArg (fun t : State => t.acre.deadCol) h :)
@[simp] theorem settle_acre_deadCol (s : State) : s.settle.acre.deadCol = s.acre.deadCol := still_acre_deadCol (settle_still s)
theorem still_acre_deadRow {s t : State} (h : t.still = s.still) : t.acre.deadRow = s.acre.deadRow := (congrArg (fun t : State => t.acre.deadRow) h :)
@[simp] theorem settle_acre_deadRow (s : State) : s.settle.acre.deadRow = s.acre.deadRow := still_acre_deadRow (settle_still s)
theorem still_acre_cEff {s t : State} (h : t.still = s.still) : t.acre.cEff = s.acre.cEff := (congrArg (fun t : State => t.acre.cEff) h :)
@[simp] theorem settle_acre_cEff (s : State) : s.settle.acre.cEff = s.acre.cEff := still_acre_cEff (settle_still s)
theorem still_acre_rowHalf {s t : State} (h : t.still = s.still) : t.acre.rowHalf = s.acre.rowHalf := (congrArg (fun t : State => t.acre.rowHalf) h :)
@[simp] theorem settle_acre_rowHalf (s : State) : s.settle.acre.rowHalf = s.acre.rowHalf := still_acre_rowHalf (settle_still s)
theorem still_acre_sagHalf {s t : State} (h : t.still = s.still) : t.acre.sagHalf = s.acre.sagHalf := (congrArg (fun t : State => t.acre.sagHalf) h :)
@[simp] theorem settle_acre_sagHalf (s : State) : s.settle.acre.sagHalf = s.acre.sagHalf := still_acre_sagHalf (settle_still s)
theorem still_acre_clkHalf {s t : State} (h : t.still = s.still) : t.acre.clkHalf = s.acre.clkHalf := (congrArg (fun t : State => t.acre.clkHalf) h :)
@[simp] theorem settle_acre_clkHalf (s : State) : s.settle.acre.clkHalf = s.acre.clkHalf := still_acre_clkHalf (settle_still s)
theorem still_acre_narrow {s t : State} (h : t.still = s.still) : t.acre.narrow = s.acre.narrow := (congrArg (fun t : State => t.acre.narrow) h :)
@[simp] theorem settle_acre_narrow (s : State) : s.settle.acre.narrow = s.acre.narrow := still_acre_narrow (settle_still s)
theorem still_acre_shed {s t : State} (h : t.still = s.still) : t.acre.shed = s.acre.shed := (congrArg (fun t : State => t.acre.shed) h :)
@[simp] theorem settle_acre_shed (s : State) : s.settle.acre.shed = s.acre.shed := still_acre_shed (settle_still s)
theorem still_granary {s t : State} (h : t.still = s.still) : t.granary = s.granary := (congrArg State.granary h :)
@[simp] theorem settle_granary (s : State) : s.settle.granary = s.granary := still_granary (settle_still s)
theorem still_fields {s t : State} (h : t.still = s.still) : t.fields = s.fields := (congrArg State.fields h :)
@[simp] theorem settle_fields (s : State) : s.settle.fields = s.fields := still_fields (settle_still s)
theorem still_barn_seedH {s t : State} (h : t.still = s.still) : t.barn.seedH = s.barn.seedH := (congrArg (fun t : State => t.barn.seedH) h :)
@[simp] theorem settle_barn_seedH (s : State) : s.settle.barn.seedH = s.barn.seedH := still_barn_seedH (settle_still s)
theorem still_barn_seedTrain {s t : State} (h : t.still = s.still) : t.barn.seedTrain = s.barn.seedTrain := (congrArg (fun t : State => t.barn.seedTrain) h :)
@[simp] theorem settle_barn_seedTrain (s : State) : s.settle.barn.seedTrain = s.barn.seedTrain := still_barn_seedTrain (settle_still s)
theorem still_barn_dwStage {s t : State} (h : t.still = s.still) : t.barn.dwStage = s.barn.dwStage := (congrArg (fun t : State => t.barn.dwStage) h :)
@[simp] theorem settle_barn_dwStage (s : State) : s.settle.barn.dwStage = s.barn.dwStage := still_barn_dwStage (settle_still s)
theorem still_barn_poolSize {s t : State} (h : t.still = s.still) : t.barn.poolSize = s.barn.poolSize := (congrArg (fun t : State => t.barn.poolSize) h :)
@[simp] theorem settle_barn_poolSize (s : State) : s.settle.barn.poolSize = s.barn.poolSize := still_barn_poolSize (settle_still s)
theorem still_seedTurn {s t : State} (h : t.still = s.still) : t.seedTurn = s.seedTurn := (congrArg State.seedTurn h :)
@[simp] theorem settle_seedTurn (s : State) : s.settle.seedTurn = s.seedTurn := still_seedTurn (settle_still s)
theorem still_ttSel {s t : State} (h : t.still = s.still) : t.ttSel = s.ttSel := (congrArg State.ttSel h :)
@[simp] theorem settle_ttSel (s : State) : s.settle.ttSel = s.ttSel := still_ttSel (settle_still s)
theorem still_tensors {s t : State} (h : t.still = s.still) : t.tensors = s.tensors := (congrArg State.tensors h :)
@[simp] theorem settle_tensors (s : State) : s.settle.tensors = s.tensors := still_tensors (settle_still s)
theorem still_totals {s t : State} (h : t.still = s.still) : t.totals = s.totals := (congrArg State.totals h :)
@[simp] theorem settle_totals (s : State) : s.settle.totals = s.totals := still_totals (settle_still s)
theorem still_win {s t : State} (h : t.still = s.still) : t.win = s.win := (congrArg State.win h :)
@[simp] theorem settle_win (s : State) : s.settle.win = s.win := still_win (settle_still s)
theorem still_strips {s t : State} (h : t.still = s.still) : t.strips = s.strips := (congrArg State.strips h :)
@[simp] theorem settle_strips (s : State) : s.settle.strips = s.strips := still_strips (settle_still s)
theorem still_ports {s t : State} (h : t.still = s.still) : t.ports = s.ports := (congrArg State.ports h :)
@[simp] theorem settle_ports (s : State) : s.settle.ports = s.ports := still_ports (settle_still s)
theorem still_xfers {s t : State} (h : t.still = s.still) : t.xfers = s.xfers := (congrArg State.xfers h :)
@[simp] theorem settle_xfers (s : State) : s.settle.xfers = s.xfers := still_xfers (settle_still s)
theorem still_drainWait {s t : State} (h : t.still = s.still) : t.drainWait = s.drainWait := (congrArg State.drainWait h :)
@[simp] theorem settle_drainWait (s : State) : s.settle.drainWait = s.drainWait := still_drainWait (settle_still s)
theorem still_marb {s t : State} (h : t.still = s.still) : t.marb = s.marb := (congrArg State.marb h :)
@[simp] theorem settle_marb (s : State) : s.settle.marb = s.marb := still_marb (settle_still s)
theorem still_steer {s t : State} (h : t.still = s.still) : t.steer = s.steer := (congrArg State.steer h :)
@[simp] theorem settle_steer (s : State) : s.settle.steer = s.steer := still_steer (settle_still s)
theorem still_probe {s t : State} (h : t.still = s.still) : t.probe = s.probe := (congrArg State.probe h :)
@[simp] theorem settle_probe (s : State) : s.settle.probe = s.probe := still_probe (settle_still s)
theorem still_streams_frameErr {s t : State} (h : t.still = s.still) : t.streams.frameErr = s.streams.frameErr := (congrArg (fun t : State => t.streams.frameErr) h :)
@[simp] theorem settle_streams_frameErr (s : State) : s.settle.streams.frameErr = s.streams.frameErr := still_streams_frameErr (settle_still s)
theorem still_streams_resHeld {s t : State} (h : t.still = s.still) : t.streams.resHeld = s.streams.resHeld := (congrArg (fun t : State => t.streams.resHeld) h :)
@[simp] theorem settle_streams_resHeld (s : State) : s.settle.streams.resHeld = s.streams.resHeld := still_streams_resHeld (settle_still s)
theorem still_streams_queue {s t : State} (h : t.still = s.still) : t.streams.queue = s.streams.queue := (congrArg (fun t : State => t.streams.queue) h :)
@[simp] theorem settle_streams_queue (s : State) : s.settle.streams.queue = s.streams.queue := still_streams_queue (settle_still s)
theorem still_energy_planEn {s t : State} (h : t.still = s.still) : t.energy.planEn = s.energy.planEn := (congrArg (fun t : State => t.energy.planEn) h :)
@[simp] theorem settle_energy_planEn (s : State) : s.settle.energy.planEn = s.energy.planEn := still_energy_planEn (settle_still s)
theorem still_energy_trimEn {s t : State} (h : t.still = s.still) : t.energy.trimEn = s.energy.trimEn := (congrArg (fun t : State => t.energy.trimEn) h :)
@[simp] theorem settle_energy_trimEn (s : State) : s.settle.energy.trimEn = s.energy.trimEn := still_energy_trimEn (settle_still s)
theorem still_energy_gain {s t : State} (h : t.still = s.still) : t.energy.gain = s.energy.gain := (congrArg (fun t : State => t.energy.gain) h :)
@[simp] theorem settle_energy_gain (s : State) : s.settle.energy.gain = s.energy.gain := still_energy_gain (settle_still s)
theorem still_energy_exitHoldUs {s t : State} (h : t.still = s.still) : t.energy.exitHoldUs = s.energy.exitHoldUs := (congrArg (fun t : State => t.energy.exitHoldUs) h :)
@[simp] theorem settle_energy_exitHoldUs (s : State) : s.settle.energy.exitHoldUs = s.energy.exitHoldUs := still_energy_exitHoldUs (settle_still s)
theorem still_energy_level {s t : State} (h : t.still = s.still) : t.energy.level = s.energy.level := (congrArg (fun t : State => t.energy.level) h :)
@[simp] theorem settle_energy_level (s : State) : s.settle.energy.level = s.energy.level := still_energy_level (settle_still s)
theorem still_energy_belowSince {s t : State} (h : t.still = s.still) : t.energy.belowSince = s.energy.belowSince := (congrArg (fun t : State => t.energy.belowSince) h :)
@[simp] theorem settle_energy_belowSince (s : State) : s.settle.energy.belowSince = s.energy.belowSince := still_energy_belowSince (settle_still s)
theorem still_energy_pfail {s t : State} (h : t.still = s.still) : t.energy.pfail = s.energy.pfail := (congrArg (fun t : State => t.energy.pfail) h :)
@[simp] theorem settle_energy_pfail (s : State) : s.settle.energy.pfail = s.energy.pfail := still_energy_pfail (settle_still s)
theorem still_energy_heldFlag {s t : State} (h : t.still = s.still) : t.energy.heldFlag = s.energy.heldFlag := (congrArg (fun t : State => t.energy.heldFlag) h :)
@[simp] theorem settle_energy_heldFlag (s : State) : s.settle.energy.heldFlag = s.energy.heldFlag := still_energy_heldFlag (settle_still s)
theorem still_energy_oversize {s t : State} (h : t.still = s.still) : t.energy.oversize = s.energy.oversize := (congrArg (fun t : State => t.energy.oversize) h :)
@[simp] theorem settle_energy_oversize (s : State) : s.settle.energy.oversize = s.energy.oversize := still_energy_oversize (settle_still s)
theorem still_energy_epochUs {s t : State} (h : t.still = s.still) : t.energy.epochUs = s.energy.epochUs := (congrArg (fun t : State => t.energy.epochUs) h :)
@[simp] theorem settle_energy_epochUs (s : State) : s.settle.energy.epochUs = s.energy.epochUs := still_energy_epochUs (settle_still s)
theorem still_energy_lastProj {s t : State} (h : t.still = s.still) : t.energy.lastProj = s.energy.lastProj := (congrArg (fun t : State => t.energy.lastProj) h :)
@[simp] theorem settle_energy_lastProj (s : State) : s.settle.energy.lastProj = s.energy.lastProj := still_energy_lastProj (settle_still s)
theorem still_energy_allow {s t : State} (h : t.still = s.still) : t.energy.allow = s.energy.allow := (congrArg (fun t : State => t.energy.allow) h :)
@[simp] theorem settle_energy_allow (s : State) : s.settle.energy.allow = s.energy.allow := still_energy_allow (settle_still s)
theorem still_energy_reserve {s t : State} (h : t.still = s.still) : t.energy.reserve = s.energy.reserve := (congrArg (fun t : State => t.energy.reserve) h :)
@[simp] theorem settle_energy_reserve (s : State) : s.settle.energy.reserve = s.energy.reserve := still_energy_reserve (settle_still s)
theorem still_energy_next {s t : State} (h : t.still = s.still) : t.energy.next = s.energy.next := (congrArg (fun t : State => t.energy.next) h :)
@[simp] theorem settle_energy_next (s : State) : s.settle.energy.next = s.energy.next := still_energy_next (settle_still s)
theorem still_energy_deficit {s t : State} (h : t.still = s.still) : t.energy.deficit = s.energy.deficit := (congrArg (fun t : State => t.energy.deficit) h :)
@[simp] theorem settle_energy_deficit (s : State) : s.settle.energy.deficit = s.energy.deficit := still_energy_deficit (settle_still s)
theorem still_energy_epoch {s t : State} (h : t.still = s.still) : t.energy.epoch = s.energy.epoch := (congrArg (fun t : State => t.energy.epoch) h :)
@[simp] theorem settle_energy_epoch (s : State) : s.settle.energy.epoch = s.energy.epoch := still_energy_epoch (settle_still s)
theorem still_energy_totBg {s t : State} (h : t.still = s.still) : t.energy.totBg = s.energy.totBg := (congrArg (fun t : State => t.energy.totBg) h :)
@[simp] theorem settle_energy_totBg (s : State) : s.settle.energy.totBg = s.energy.totBg := still_energy_totBg (settle_still s)
theorem still_energy_served {s t : State} (h : t.still = s.still) : t.energy.served = s.energy.served := (congrArg (fun t : State => t.energy.served) h :)
@[simp] theorem settle_energy_served (s : State) : s.settle.energy.served = s.energy.served := still_energy_served (settle_still s)
theorem still_energy_trained {s t : State} (h : t.still = s.still) : t.energy.trained = s.energy.trained := (congrArg (fun t : State => t.energy.trained) h :)
@[simp] theorem settle_energy_trained (s : State) : s.settle.energy.trained = s.energy.trained := still_energy_trained (settle_still s)
theorem still_energy_epochServed {s t : State} (h : t.still = s.still) : t.energy.epochServed = s.energy.epochServed := (congrArg (fun t : State => t.energy.epochServed) h :)
@[simp] theorem settle_energy_epochServed (s : State) : s.settle.energy.epochServed = s.energy.epochServed := still_energy_epochServed (settle_still s)
theorem still_energy_epochTrained {s t : State} (h : t.still = s.still) : t.energy.epochTrained = s.energy.epochTrained := (congrArg (fun t : State => t.energy.epochTrained) h :)
@[simp] theorem settle_energy_epochTrained (s : State) : s.settle.energy.epochTrained = s.energy.epochTrained := still_energy_epochTrained (settle_still s)
theorem still_energy_tpj {s t : State} (h : t.still = s.still) : t.energy.tpj = s.energy.tpj := (congrArg (fun t : State => t.energy.tpj) h :)
@[simp] theorem settle_energy_tpj (s : State) : s.settle.energy.tpj = s.energy.tpj := still_energy_tpj (settle_still s)
theorem still_energy_tpkwh {s t : State} (h : t.still = s.still) : t.energy.tpkwh = s.energy.tpkwh := (congrArg (fun t : State => t.energy.tpkwh) h :)
@[simp] theorem settle_energy_tpkwh (s : State) : s.settle.energy.tpkwh = s.energy.tpkwh := still_energy_tpkwh (settle_still s)
theorem still_energy_trim {s t : State} (h : t.still = s.still) : t.energy.trim = s.energy.trim := (congrArg (fun t : State => t.energy.trim) h :)
@[simp] theorem settle_energy_trim (s : State) : s.settle.energy.trim = s.energy.trim := still_energy_trim (settle_still s)
theorem still_energy_trimNext {s t : State} (h : t.still = s.still) : t.energy.trimNext = s.energy.trimNext := (congrArg (fun t : State => t.energy.trimNext) h :)
@[simp] theorem settle_energy_trimNext (s : State) : s.settle.energy.trimNext = s.energy.trimNext := still_energy_trimNext (settle_still s)
theorem still_energy_tick {s t : State} (h : t.still = s.still) : t.energy.tick = s.energy.tick := (congrArg (fun t : State => t.energy.tick) h :)
@[simp] theorem settle_energy_tick (s : State) : s.settle.energy.tick = s.energy.tick := still_energy_tick (settle_still s)
theorem still_energy_samples {s t : State} (h : t.still = s.still) : t.energy.samples = s.energy.samples := (congrArg (fun t : State => t.energy.samples) h :)
@[simp] theorem settle_energy_samples (s : State) : s.settle.energy.samples = s.energy.samples := still_energy_samples (settle_still s)
theorem still_energy_lastSample {s t : State} (h : t.still = s.still) : t.energy.lastSample = s.energy.lastSample := (congrArg (fun t : State => t.energy.lastSample) h :)
@[simp] theorem settle_energy_lastSample (s : State) : s.settle.energy.lastSample = s.energy.lastSample := still_energy_lastSample (settle_still s)
theorem still_energy_bgAcct {s t : State} (h : t.still = s.still) : t.energy.bgAcct = s.energy.bgAcct := (congrArg (fun t : State => t.energy.bgAcct) h :)
@[simp] theorem settle_energy_bgAcct (s : State) : s.settle.energy.bgAcct = s.energy.bgAcct := still_energy_bgAcct (settle_still s)
theorem still_energy_coefs {s t : State} (h : t.still = s.still) : t.energy.coefs = s.energy.coefs := (congrArg (fun t : State => t.energy.coefs) h :)
@[simp] theorem settle_energy_coefs (s : State) : s.settle.energy.coefs = s.energy.coefs := still_energy_coefs (settle_still s)
theorem still_energy_pfailAddr {s t : State} (h : t.still = s.still) : t.energy.pfailAddr = s.energy.pfailAddr := (congrArg (fun t : State => t.energy.pfailAddr) h :)
@[simp] theorem settle_energy_pfailAddr (s : State) : s.settle.energy.pfailAddr = s.energy.pfailAddr := still_energy_pfailAddr (settle_still s)
theorem still_energy_pfailKib {s t : State} (h : t.still = s.still) : t.energy.pfailKib = s.energy.pfailKib := (congrArg (fun t : State => t.energy.pfailKib) h :)
@[simp] theorem settle_energy_pfailKib (s : State) : s.settle.energy.pfailKib = s.energy.pfailKib := still_energy_pfailKib (settle_still s)
theorem still_energy_pfailCtx {s t : State} (h : t.still = s.still) : t.energy.pfailCtx = s.energy.pfailCtx := (congrArg (fun t : State => t.energy.pfailCtx) h :)
@[simp] theorem settle_energy_pfailCtx (s : State) : s.settle.energy.pfailCtx = s.energy.pfailCtx := still_energy_pfailCtx (settle_still s)
theorem still_energy_pfailDropped {s t : State} (h : t.still = s.still) : t.energy.pfailDropped = s.energy.pfailDropped := (congrArg (fun t : State => t.energy.pfailDropped) h :)
@[simp] theorem settle_energy_pfailDropped (s : State) : s.settle.energy.pfailDropped = s.energy.pfailDropped := still_energy_pfailDropped (settle_still s)
theorem still_energy_pfailArea {s t : State} (h : t.still = s.still) : t.energy.pfailArea = s.energy.pfailArea := (congrArg (fun t : State => t.energy.pfailArea) h :)
@[simp] theorem settle_energy_pfailArea (s : State) : s.settle.energy.pfailArea = s.energy.pfailArea := still_energy_pfailArea (settle_still s)
theorem still_flt_ledgerLost {s t : State} (h : t.still = s.still) : t.flt.ledgerLost = s.flt.ledgerLost := (congrArg (fun t : State => t.flt.ledgerLost) h :)
@[simp] theorem settle_flt_ledgerLost (s : State) : s.settle.flt.ledgerLost = s.flt.ledgerLost := still_flt_ledgerLost (settle_still s)
theorem still_flt_fwLost {s t : State} (h : t.still = s.still) : t.flt.fwLost = s.flt.fwLost := (congrArg (fun t : State => t.flt.fwLost) h :)
@[simp] theorem settle_flt_fwLost (s : State) : s.settle.flt.fwLost = s.flt.fwLost := still_flt_fwLost (settle_still s)
theorem still_flt_irqEn {s t : State} (h : t.still = s.still) : t.flt.irqEn = s.flt.irqEn := (congrArg (fun t : State => t.flt.irqEn) h :)
@[simp] theorem settle_flt_irqEn (s : State) : s.settle.flt.irqEn = s.flt.irqEn := still_flt_irqEn (settle_still s)
theorem still_flt_route {s t : State} (h : t.still = s.still) : t.flt.route = s.flt.route := (congrArg (fun t : State => t.flt.route) h :)
@[simp] theorem settle_flt_route (s : State) : s.settle.flt.route = s.flt.route := still_flt_route (settle_still s)
theorem still_flt_hold {s t : State} (h : t.still = s.still) : t.flt.hold = s.flt.hold := (congrArg (fun t : State => t.flt.hold) h :)
@[simp] theorem settle_flt_hold (s : State) : s.settle.flt.hold = s.flt.hold := still_flt_hold (settle_still s)
theorem still_flt_portHold {s t : State} (h : t.still = s.still) : t.flt.portHold = s.flt.portHold := (congrArg (fun t : State => t.flt.portHold) h :)
@[simp] theorem settle_flt_portHold (s : State) : s.settle.flt.portHold = s.flt.portHold := still_flt_portHold (settle_still s)
theorem still_flt_inReset {s t : State} (h : t.still = s.still) : t.flt.inReset = s.flt.inReset := (congrArg (fun t : State => t.flt.inReset) h :)
@[simp] theorem settle_flt_inReset (s : State) : s.settle.flt.inReset = s.flt.inReset := still_flt_inReset (settle_still s)
theorem still_flt_ceBarn {s t : State} (h : t.still = s.still) : t.flt.ceBarn = s.flt.ceBarn := (congrArg (fun t : State => t.flt.ceBarn) h :)
@[simp] theorem settle_flt_ceBarn (s : State) : s.settle.flt.ceBarn = s.flt.ceBarn := still_flt_ceBarn (settle_still s)
theorem still_flt_ceAcc {s t : State} (h : t.still = s.still) : t.flt.ceAcc = s.flt.ceAcc := (congrArg (fun t : State => t.flt.ceAcc) h :)
@[simp] theorem settle_flt_ceAcc (s : State) : s.settle.flt.ceAcc = s.flt.ceAcc := still_flt_ceAcc (settle_still s)
theorem still_flt_corrected {s t : State} (h : t.still = s.still) : t.flt.corrected = s.flt.corrected := (congrArg (fun t : State => t.flt.corrected) h :)
@[simp] theorem settle_flt_corrected (s : State) : s.settle.flt.corrected = s.flt.corrected := still_flt_corrected (settle_still s)
theorem still_flt_ueValid {s t : State} (h : t.still = s.still) : t.flt.ueValid = s.flt.ueValid := (congrArg (fun t : State => t.flt.ueValid) h :)
@[simp] theorem settle_flt_ueValid (s : State) : s.settle.flt.ueValid = s.flt.ueValid := still_flt_ueValid (settle_still s)
theorem still_flt_ueRegion {s t : State} (h : t.still = s.still) : t.flt.ueRegion = s.flt.ueRegion := (congrArg (fun t : State => t.flt.ueRegion) h :)
@[simp] theorem settle_flt_ueRegion (s : State) : s.settle.flt.ueRegion = s.flt.ueRegion := still_flt_ueRegion (settle_still s)
theorem still_flt_ueWord {s t : State} (h : t.still = s.still) : t.flt.ueWord = s.flt.ueWord := (congrArg (fun t : State => t.flt.ueWord) h :)
@[simp] theorem settle_flt_ueWord (s : State) : s.settle.flt.ueWord = s.flt.ueWord := still_flt_ueWord (settle_still s)
theorem still_flt_parValid {s t : State} (h : t.still = s.still) : t.flt.parValid = s.flt.parValid := (congrArg (fun t : State => t.flt.parValid) h :)
@[simp] theorem settle_flt_parValid (s : State) : s.settle.flt.parValid = s.flt.parValid := still_flt_parValid (settle_still s)
theorem still_flt_parRow {s t : State} (h : t.still = s.still) : t.flt.parRow = s.flt.parRow := (congrArg (fun t : State => t.flt.parRow) h :)
@[simp] theorem settle_flt_parRow (s : State) : s.settle.flt.parRow = s.flt.parRow := still_flt_parRow (settle_still s)
theorem still_flt_parCount {s t : State} (h : t.still = s.still) : t.flt.parCount = s.flt.parCount := (congrArg (fun t : State => t.flt.parCount) h :)
@[simp] theorem settle_flt_parCount (s : State) : s.settle.flt.parCount = s.flt.parCount := still_flt_parCount (settle_still s)
theorem still_flt_parLine {s t : State} (h : t.still = s.still) : t.flt.parLine = s.flt.parLine := (congrArg (fun t : State => t.flt.parLine) h :)
@[simp] theorem settle_flt_parLine (s : State) : s.settle.flt.parLine = s.flt.parLine := still_flt_parLine (settle_still s)
theorem still_flt_lostValid {s t : State} (h : t.still = s.still) : t.flt.lostValid = s.flt.lostValid := (congrArg (fun t : State => t.flt.lostValid) h :)
@[simp] theorem settle_flt_lostValid (s : State) : s.settle.flt.lostValid = s.flt.lostValid := still_flt_lostValid (settle_still s)
theorem still_flt_lostCount {s t : State} (h : t.still = s.still) : t.flt.lostCount = s.flt.lostCount := (congrArg (fun t : State => t.flt.lostCount) h :)
@[simp] theorem settle_flt_lostCount (s : State) : s.settle.flt.lostCount = s.flt.lostCount := still_flt_lostCount (settle_still s)
theorem still_flt_lostStrip {s t : State} (h : t.still = s.still) : t.flt.lostStrip = s.flt.lostStrip := (congrArg (fun t : State => t.flt.lostStrip) h :)
@[simp] theorem settle_flt_lostStrip (s : State) : s.settle.flt.lostStrip = s.flt.lostStrip := still_flt_lostStrip (settle_still s)
theorem still_flt_replace {s t : State} (h : t.still = s.still) : t.flt.replace = s.flt.replace := (congrArg (fun t : State => t.flt.replace) h :)
@[simp] theorem settle_flt_replace (s : State) : s.settle.flt.replace = s.flt.replace := still_flt_replace (settle_still s)
theorem still_flt_standbyValid {s t : State} (h : t.still = s.still) : t.flt.standbyValid = s.flt.standbyValid := (congrArg (fun t : State => t.flt.standbyValid) h :)
@[simp] theorem settle_flt_standbyValid (s : State) : s.settle.flt.standbyValid = s.flt.standbyValid := still_flt_standbyValid (settle_still s)
theorem still_flt_activeBank {s t : State} (h : t.still = s.still) : t.flt.activeBank = s.flt.activeBank := (congrArg (fun t : State => t.flt.activeBank) h :)
@[simp] theorem settle_flt_activeBank (s : State) : s.settle.flt.activeBank = s.flt.activeBank := still_flt_activeBank (settle_still s)
theorem still_flt_switches {s t : State} (h : t.still = s.still) : t.flt.switches = s.flt.switches := (congrArg (fun t : State => t.flt.switches) h :)
@[simp] theorem settle_flt_switches (s : State) : s.settle.flt.switches = s.flt.switches := still_flt_switches (settle_still s)
theorem still_flt_cpDue {s t : State} (h : t.still = s.still) : t.flt.cpDue = s.flt.cpDue := (congrArg (fun t : State => t.flt.cpDue) h :)
@[simp] theorem settle_flt_cpDue (s : State) : s.settle.flt.cpDue = s.flt.cpDue := still_flt_cpDue (settle_still s)
theorem still_fw {s t : State} (h : t.still = s.still) : t.fw = s.fw := (congrArg State.fw h :)
@[simp] theorem settle_fw (s : State) : s.settle.fw = s.fw := still_fw (settle_still s)
theorem still_shard {s t : State} (h : t.still = s.still) : t.shard = s.shard := (congrArg State.shard h :)
@[simp] theorem settle_shard (s : State) : s.settle.shard = s.shard := still_shard (settle_still s)
theorem still_perf {s t : State} (h : t.still = s.still) : t.perf = s.perf := (congrArg State.perf h :)
@[simp] theorem settle_perf (s : State) : s.settle.perf = s.perf := still_perf (settle_still s)
theorem still_mem {s t : State} (h : t.still = s.still) : t.mem = s.mem := (congrArg State.mem h :)
@[simp] theorem settle_mem (s : State) : s.settle.mem = s.mem := still_mem (settle_still s)
theorem still_images {s t : State} (h : t.still = s.still) : t.images = s.images := (congrArg State.images h :)
@[simp] theorem settle_images (s : State) : s.settle.images = s.images := still_images (settle_still s)
@[simp] theorem settle_port (s : State) (k : Nat) : s.settle.port k = s.port k := by unfold State.port; rw [settle_ports]
@[simp] theorem settle_gate (s : State) (k : Nat) : s.settle.gate k = s.gate k := by unfold State.gate; rw [settle_gates]
@[simp] theorem settle_field (s : State) (k : Nat) : s.settle.field k = s.field k := by unfold State.field; rw [settle_fields]
@[simp] theorem settle_strip (s : State) (k : Nat) : s.settle.strip k = s.strip k := by unfold State.strip; rw [settle_strips]

/-- Settling leaves a tenant as it was but for what is reserved of it. -/
theorem settle_tenant (s : State) (k : Nat) : { s.settle.tenant k with reserved := 0 } = { s.tenant k with reserved := 0 } :=
  (settle_adv s).same.2.2 k

/-- A row's frame is kept by what comes about by itself. -/
theorem keep_settle {s u : State} (h1 : u.pending = s.pending) (h2 : u.build = s.build) (h3 : u.mem = s.mem) :
    s.keep u.settle = u.settle := by
  have e1 := (settle_pending u).trans h1
  have e2 := (settle_build u).trans h2
  have e3 := (settle_mem u).trans h3
  generalize u.settle = t at *
  rw [State.keep, ← e1, ← e2, ← e3]

/-- As `keep_settle`, for a row that brings memory. -/
theorem keepMem_settle {s u : State} {m : List Host.Cell} (h1 : u.pending = s.pending) (h2 : u.build = s.build) (h3 : u.mem = m) :
    s.keepMem m u.settle = u.settle := by
  have e1 := (settle_pending u).trans h1
  have e2 := (settle_build u).trans h2
  have e3 := (settle_mem u).trans h3
  generalize u.settle = t at *
  rw [State.keepMem, ← e1, ← e2, ← e3]

end Sys2Proof.Machine
end

