-- ==== Sys2Proof/Laws/Reset.lean ====
section
/-! SUPPORT. What the end of a command and the start of a per-function reset leave alone (R432 step 5), and that the
packets they end are ended. -/

namespace Sys2Proof.Machine

/-- The state with everything that the end of a command or a reset may move set to fixed values. -/
def State.lasting (s : State) : State :=
  { s.still with
    fields := [], tenants := [], nextOrder := 0
    arb := { s.arb with fetching := 0, beats := 0, grant := none }
    shard := { s.shard with early := [], out := [] }
    flt := { s.flt with pend := 0 } }

/-- `t` comes from `s` by the ends of commands and resets. -/
structure Kept (s t : State) : Prop where
  lasting : t.lasting = s.lasting
  tenants : ∀ n, t.tenantStill n = s.tenantStill n
  rings : ∀ r, t.ringStill r = { s.ringStill r with head := (t.ring r).head, needSlots := (t.ring r).needSlots }

theorem Kept.refl (s : State) : Kept s s := ⟨rfl, fun _ => rfl, fun _ => rfl⟩

theorem Kept.trans {a b c : State} (h : Kept a b) (k : Kept b c) : Kept a c :=
  ⟨k.lasting.trans h.lasting, fun n => (k.tenants n).trans (h.tenants n), fun r => by
    rw [k.rings r, h.rings r]⟩

theorem Kept.foldl {α : Type} (f : State → α → State) (h : ∀ s x, Kept s (f s x)) (l : List α) (s : State) : Kept s (l.foldl f s) := by
  induction l generalizing s with
  | nil => exact Kept.refl s
  | cons x l ih => exact (h s x).trans (ih _)

theorem ringStill_self {s t : State} {r : Nat} (h : t.ringStill r = s.ringStill r) :
    t.ringStill r = { s.ringStill r with head := (t.ring r).head, needSlots := (t.ring r).needSlots } := by
  rw [← h]; rfl

theorem Kept.of_still {s t : State} (h : s.sameStill t) : Kept s t := by
  obtain ⟨h, hr, ht⟩ := h
  refine ⟨?_, ht, fun r => ringStill_self (hr r)⟩
  · have h1 := still_arb h
    have h2 := still_shard h
    have h3 : { t.flt with pend := 0 } = { s.flt with pend := 0 } := (congrArg State.flt h : _)
    unfold State.lasting
    rw [h, h1, h2]
    rw [h3]

theorem Adv.kept {s t : State} (h : Adv s t) : Kept s t := .of_still h.same

theorem Quiet.kept {s t : State} (h : Quiet s t) : Kept s t := h.adv.kept

theorem setCmd_kept (s : State) (c : Cmd) : Kept s (s.setCmd c) := ⟨rfl, fun _ => rfl, fun _ => rfl⟩

theorem modCmd_kept (s : State) (r : Nat) (q : U32) (f : Cmd → Cmd) : Kept s (s.modCmd r q f) := by
  unfold State.modCmd; split
  · exact setCmd_kept _ _
  · exact Kept.refl s

theorem finish_kept (s : State) (c : Cmd) (r : Reason) (b : Body) : Kept s (s.finish c r b) := by
  have q : Quiet s (if (s.convert c).2.disp.isNone then (s.convert c).1.leaveBarrier (s.convert c).2.ring else (s.convert c).1) := by
    split
    · exact (convert_quiet s c).trans (leaveBarrier_quiet _ _)
    · exact convert_quiet s c
  unfold State.finish
  exact q.kept.trans ((setCmd_kept _ _).trans (freeAcre_quiet _ _ _).kept)

theorem refuse_kept (s : State) (c : Cmd) (r : Reason) : Kept s (s.refuse c r) := (refuse_quiet s c).kept.trans (finish_kept _ _ _ _)

theorem modTenant_kept (s : State) (n k : Nat) : Kept s (s.modTenant n fun t => { t with reserved := t.reserved - k }) := by
  refine ⟨rfl, fun m => ?_, fun _ => rfl⟩
  unfold State.tenantStill
  by_cases h : m = n
  · subst h; rw [modTenant_tenant_same]
  · rw [modTenant_tenant_ne _ _ h]

theorem unreserve_kept (s : State) (p : StripStep) : Kept s (s.unreserve p) := by
  unfold State.unreserve; split
  · exact Kept.refl s
  · exact modTenant_kept s _ _

theorem fieldLeft_kept (s : State) (c : Cmd) : Kept s (s.fieldLeft c) := by
  unfold State.fieldLeft; split
  · exact ⟨rfl, fun _ => rfl, fun _ => rfl⟩
  · split
    · exact ⟨rfl, fun _ => rfl, fun _ => rfl⟩
    · exact Kept.refl s

theorem dropReads_kept (s : State) (r : Nat) (q : U32) : Kept s (s.dropReads r q) := ⟨rfl, fun _ => rfl, fun _ => rfl⟩

theorem closeMerge_kept (s : State) (m : Cmd) (r : Reason) : Kept s (s.closeMerge m r) := by
  unfold State.closeMerge; split
  · exact finish_kept _ _ _ _
  · split
    · exact setCmd_kept _ _
    · exact (setCmd_kept _ _).trans (finish_kept _ _ _ _)

/-- The strip-steps that the end of a command ends. -/
def State.stepsAtEnd (s : State) (c : Cmd) (r : Reason) : List StripStep :=
  if r = .abortedReset ∧ c.work.steps.isEmpty then s.cutSteps c else c.work.steps

/-- The end of a class command once its waiting ranges are dropped and its field is left: `c` with its conversion over. -/
def State.endParts (s : State) (c : Cmd) (r : Reason) : State :=
  if c.op = opMerge ∧ c.started then s.closeMerge c r
  else if !(s.stepsAtEnd c r).isEmpty then
    ((((s.stepsAtEnd c r).foldl (fun s p => if p.committed then s else s.unreserve p) s).setCmd { c with
      stage := .committing, reason := r
      work := { c.work with
        ended := true
        steps := failSteps (decide (r = .abortedReset) || decide (stepReasonOf r = .failedPart)) (stepReasonOf r) (s.stepsAtEnd c r) } }).freeAcre
      c.ring c.seq).endMergeOf c (mergeEnd r)
  else (s.finish c r (if c.started then classBody (s.field (pkField c.run)) c r else bodyZero)).endMergeOf c (mergeEnd r)

/-- The command as its end takes it. -/
def State.atEnd (s : State) (c : Cmd) (r : Reason) : Cmd :=
  { (s.fillCut c).failTokens r with work := { ((s.fillCut c).failTokens r).work with converting := false } }

theorem endWork_eq (s : State) (c : Cmd) (r : Reason) : s.endWork c r =
    ((if r = .saved then s.dropReads (s.atEnd c r).ring (s.atEnd c r).seq else s.dropQueued (s.atEnd c r).ring (s.atEnd c r).seq).fieldLeft
      (s.atEnd c r)).endParts (s.atEnd c r) r := rfl

theorem endMergeOf_kept (s : State) (c : Cmd) (r : Reason) : Kept s (s.endMergeOf c r) := (endMergeOf_adv s c r).kept

theorem endParts_kept (s : State) (c : Cmd) (r : Reason) : Kept s (s.endParts c r) := by
  unfold State.endParts
  split
  · exact closeMerge_kept _ _ _
  · split
    · refine Kept.trans (Kept.trans (Kept.foldl _ (fun s p => ?_) _ _) ((setCmd_kept _ _).trans (freeAcre_quiet _ _ _).kept)) (endMergeOf_kept _ _ _)
      split
      · exact Kept.refl s
      · exact unreserve_kept s p
    · exact (finish_kept _ _ _ _).trans (endMergeOf_kept _ _ _)

theorem endWork_kept (s : State) (c : Cmd) (r : Reason) : Kept s (s.endWork c r) := by
  rw [endWork_eq]
  refine Kept.trans (Kept.trans ?_ (fieldLeft_kept _ _)) (endParts_kept _ _ _)
  split
  · exact dropReads_kept _ _ _
  · exact (dropQueued_quiet _ _ _).kept

/-- The end of a command keeps every register and table. -/
theorem endCmd_kept (s : State) (c : Cmd) (r : Reason) : Kept s (s.endCmd c r) := by
  unfold State.endCmd; split
  · exact endWork_kept _ _ _
  · exact refuse_kept _ _ _

theorem unpause_kept (s : State) (c : Cmd) : Kept s (s.unpause c) := by
  unfold State.unpause; split
  · exact modCmd_kept _ _ _ _
  · exact Kept.refl s

theorem endFetch_kept (s : State) (r : Nat) (x : Reason) : Kept s (s.endFetch r x) := by
  unfold State.endFetch
  extract_lets c counted past n arb s₁ s₂
  have k₁ : Kept s s₁ := ⟨rfl, fun _ => rfl, fun _ => rfl⟩
  have k₂ : Kept s s₂ := by
    change Kept s (if past then s₁.modRing r fun g => { g with head := add32 g.head n, needSlots := 0 } else s₁)
    split
    · refine k₁.trans ⟨rfl, fun _ => rfl, fun k => ?_⟩
      unfold State.ringStill
      by_cases e : k = r
      · subst e; rw [modRing_ring_same]
      · rw [modRing_ring_ne _ _ e]
    · exact k₁
  clear_value s₂
  split
  · exact k₂.trans (Kept.trans (b := { s₂ with nextOrder := s₂.nextOrder + 1, cmds := s₂.cmds ++ [c] }) ⟨rfl, fun _ => rfl, fun _ => rfl⟩ (refuse_kept _ _ _))
  · exact k₂

theorem abortFetch_kept (s : State) : Kept s s.abortFetch := by
  unfold State.abortFetch
  split
  · split
    · exact Kept.refl s
    · exact endFetch_kept _ _ _
  · exact Kept.refl s

theorem linkDown_kept (s : State) : Kept s s.linkDown := by
  unfold State.linkDown
  simp only
  split
  · refine Kept.trans (b := { s with pair := _ }) ⟨rfl, fun _ => rfl, fun _ => rfl⟩ ?_
    have h := setPair_parts { s with pair := { s.pair with
      up := false, down := true, credits := 0, txNext := 0, rxNext := 0, unacked := [], queue := [], hello := none
      holding := s.pair.holding || ((s.pair.state == 2) && s.pair.role) } } 4
    exact .of_still ⟨h.2.2.1, fun r => by simp only [State.ringStill, State.ring, (Prod.mk.inj h.2.1).1], fun n => by
      simp only [State.tenantStill, State.tenant, (Prod.mk.inj h.2.1).2]⟩
  · exact ⟨rfl, fun _ => rfl, fun _ => rfl⟩

theorem clearFn_kept (s : State) (n : Nat) : Kept s (s.clearFn n) := by
  unfold State.clearFn
  split
  all_goals first | exact linkDown_kept s | exact ⟨rfl, fun _ => rfl, fun _ => rfl⟩

/-- Ends one command of R433. -/
def State.endOne (n : Nat) (s : State) (c : Cmd) : State :=
  match resetEnds n c with
  | none => s
  | some r => match s.cmds.find? (fun d => d.order == c.order) with
    | some d => if d.stage = .finished then s else (s.unpause d).endCmd d r
    | none => s

/-- Ends the commands of R433, one after another. -/
def State.endEach (n : Nat) (l : List Cmd) (s : State) : State := l.foldl (State.endOne n) s

theorem endEach_kept (n : Nat) (l : List Cmd) (s : State) : Kept s (s.endEach n l) := by
  refine Kept.foldl _ (fun s c => ?_) _ _
  unfold State.endOne
  split
  · exact Kept.refl s
  · split
    · split
      · exact Kept.refl s
      · exact (unpause_kept _ _).trans (endCmd_kept _ _ _)
    · exact Kept.refl s

/-- The cycles of a phase that a reset of the Acre cuts off have been counted (R480). -/
def State.cutOffPhase (s : State) (n : Nat) : State := if n = 0 then s.flushPhase else s

/-- A per-function reset that takes effect, in its parts (R432). -/
theorem fnNow_eq (s : State) (n : Nat) (h : s.fnReset n = false) : s.fnNow n =
    (let p := s.cutOffPhase n
     let u : State := { p with flt := { p.flt with inReset := p.flt.inReset ||| BitVec.ofNat 10 (2 ^ n) } }
     let v := if n = 4 then u.abortFetch else u
     ((v.endEach n v.cmds).clearFn n).settle) := by
  unfold State.fnNow
  rw [if_neg (by simp [h])]
  rfl

/-- A reset that takes effect keeps every register and table; IN_RESET gains the function (R432). -/
theorem fnNow_kept (s : State) (n : Nat) (h : s.fnReset n = false) :
    Kept { s.cutOffPhase n with flt := { (s.cutOffPhase n).flt with inReset := (s.cutOffPhase n).flt.inReset ||| BitVec.ofNat 10 (2 ^ n) } }
      (s.fnNow n) := by
  have key : ∀ u : State, Kept u (let v := if n = 4 then u.abortFetch else u; ((v.endEach n v.cmds).clearFn n).settle) := by
    intro u
    refine Kept.trans (b := if n = 4 then u.abortFetch else u) ?_ ?_
    · split
      · exact abortFetch_kept u
      · exact Kept.refl u
    · exact (endEach_kept _ _ _).trans ((clearFn_kept _ _).trans (settle_adv _).kept)
  rw [fnNow_eq s n h]
  exact key _

/-- The cycles of a phase go to PERF_ACRE_PHASE and to the command. -/
theorem perfAdd_get (s : State) (n k : Nat) {m : Nat} (h : m ≠ n) : tblGet 0 (s.perfAdd n k).perf.counters m = tblGet 0 s.perf.counters m := by
  unfold State.perfAdd
  split
  · simp [tblGet_modify_ne, h]
  · rfl

theorem phaseCycles_frame (s : State) (k : Nat) : s.phaseCycles k = { s with perf := (s.phaseCycles k).perf } ∧
    (∀ m, m ≠ 0 → tblGet 0 (s.phaseCycles k).perf.counters m = tblGet 0 s.perf.counters m) ∧
    (s.phaseCycles k).perf = { s.perf with counters := (s.phaseCycles k).perf.counters, acrePool := (s.phaseCycles k).perf.acrePool } := by
  have e : s.perfAdd 0 k = { s with perf := { s.perf with counters := (s.perfAdd 0 k).perf.counters } } := by
    unfold State.perfAdd; split <;> rfl
  have g : ∀ m, m ≠ 0 → tblGet 0 (s.perfAdd 0 k).perf.counters m = tblGet 0 s.perf.counters m := fun m h => perfAdd_get s 0 k h
  unfold State.phaseCycles
  dsimp only
  generalize (s.perfAdd 0 k).perf.counters = t at *
  rw [e]
  split <;> exact ⟨rfl, fun m h => g m h, rfl⟩

theorem flushPhase_frame (s : State) : s.flushPhase = { s with cmds := s.flushPhase.cmds, perf := s.flushPhase.perf } ∧
    (∀ m, m ≠ 0 → tblGet 0 s.flushPhase.perf.counters m = tblGet 0 s.perf.counters m) ∧
    s.flushPhase.perf = { s.perf with counters := s.flushPhase.perf.counters, acrePool := s.flushPhase.perf.acrePool } := by
  unfold State.flushPhase
  dsimp only
  split
  · rename_i r q _
    have e : ∀ f, (s.modCmd r q f) = { s with cmds := (s.modCmd r q f).cmds } := by
      intro f; unfold State.modCmd; split <;> rfl
    generalize hf : (fun c : Cmd => { c with cycles := c.cycles + s.perf.acrePool.toNat }) = f
    have p := phaseCycles_frame (s.modCmd r q f) s.perf.acrePool.toNat
    generalize (s.modCmd r q f).phaseCycles s.perf.acrePool.toNat = t at *
    have e := e f
    generalize (s.modCmd r q f).cmds = l at e
    rw [e] at p
    refine ⟨?_, p.2.1, p.2.2⟩
    have p1 := p.1
    have hc : t.cmds = l := by rw [p1]
    rw [hc]; exact p1
  · exact ⟨rfl, fun _ _ => rfl, rfl⟩

theorem cutOffPhase_frame (s : State) (n : Nat) : s.cutOffPhase n = { s with cmds := (s.cutOffPhase n).cmds, perf := (s.cutOffPhase n).perf } ∧
    (∀ m, m ≠ 0 → tblGet 0 (s.cutOffPhase n).perf.counters m = tblGet 0 s.perf.counters m) ∧
    (s.cutOffPhase n).perf = { s.perf with counters := (s.cutOffPhase n).perf.counters, acrePool := (s.cutOffPhase n).perf.acrePool } := by
  unfold State.cutOffPhase
  split
  · exact flushPhase_frame s
  · exact ⟨rfl, fun _ _ => rfl, rfl⟩

theorem keptByReset.trans {a b c : State} (h : keptByReset a b) (k : keptByReset b c) : keptByReset a c := by
  obtain ⟨h1, h2, h3, h4, h5, h6, h7, h8, h9, h10, h11, h12, h13, h14, h15, h16, h17, h18, h19, h20⟩ := h
  obtain ⟨k1, k2, k3, k4, k5, k6, k7, k8, k9, k10, k11, k12, k13, k14, k15, k16, k17, k18, k19, k20⟩ := k
  exact ⟨k1.trans h1, k2.trans h2, k3.trans h3, k4.trans h4, k5.trans h5, k6.trans h6, fun n => (k7 n).trans (h7 n),
    fun n => by rw [k8 n, h8 n], k9.trans h9, k10.trans h10, k11.trans h11, k12.trans h12, k13.trans h13, k14.trans h14, k15.trans h15,
    k16.trans h16, k17.trans h17, fun n e => (k18 n e).trans (h18 n e), by rw [k19, h19], k20.trans h20⟩

theorem Kept.byReset {s t : State} (h : Kept s t) : keptByReset s t := by
  have e := h.lasting
  have ha := congrArg State.acre e
  have hb := congrArg State.arb e
  have hp : t.perf = s.perf := (congrArg State.perf e : _)
  exact ⟨(congrArg Acre.spareCol ha : _), (congrArg Acre.spareRow ha : _), (congrArg State.granary e : _), (congrArg State.tensors e : _),
    (congrArg State.ttSel e : _), (congrArg State.strips e : _), h.tenants, h.rings, (congrArg State.gates e : _), (congrArg State.cplPend e : _),
    (congrArg RingArb.tickets hb : _), (congrArg State.marb e : _), (congrArg State.steer e : _), (congrArg State.ports e : _),
    (congrArg State.win e : _), (congrArg State.totals e : _), (congrArg State.latches e : _), fun n _ => by rw [hp], by rw [hp],
    (congrArg State.boot e : _)⟩

/-- A state that differs in commands, the time counters and IN_RESET keeps what a reset keeps. -/
theorem keptByReset.of_frame {s t : State} (e : t = { s with cmds := t.cmds, perf := t.perf, flt := t.flt })
    (h : ∀ m, m ≠ 0 → tblGet 0 t.perf.counters m = tblGet 0 s.perf.counters m)
    (p : t.perf = { s.perf with counters := t.perf.counters, acrePool := t.perf.acrePool }) : keptByReset s t := by
  have r : ∀ n, t.ring n = s.ring n := fun n => by rw [e]; rfl
  have k : ∀ n, t.tenant n = s.tenant n := fun n => by rw [e]; rfl
  refine ⟨?_, ?_, ?_, ?_, ?_, ?_, fun n => by simp only [State.tenantStill, k], fun n => by simp only [State.ringStill, r], ?_, ?_, ?_, ?_, ?_, ?_, ?_,
    ?_, ?_, h, p, ?_⟩ <;> rw [e]

theorem Kept.inReset {s t : State} (h : Kept s t) : t.flt.inReset = s.flt.inReset := (congrArg (fun x : State => x.flt.inReset) h.lasting : _)

theorem Kept.hold {s t : State} (h : Kept s t) : t.flt.hold = s.flt.hold := (congrArg (fun x : State => x.flt.hold) h.lasting : _)

theorem Kept.fnLow {s t : State} (h : Kept s t) : t.pins.fnLow = s.pins.fnLow := (congrArg (fun x : State => x.pins.fnLow) h.lasting : _)

/-- A reset of the command processor waits for the commits in progress (R434). -/
def State.resetWaits (s : State) (n : Nat) : Bool := decide (n = 4) && s.cmds.any Cmd.inCommit

theorem fnStart_waits {s : State} {n : Nat} (h : s.resetWaits n = true) : s.fnStart n = { s with flt := { s.flt with cpDue := true } } := by
  simp only [State.resetWaits, Bool.and_eq_true, decide_eq_true_eq] at h
  unfold State.fnStart
  rw [if_pos h]

theorem fnStart_now {s : State} {n : Nat} (h : s.resetWaits n = false) : s.fnStart n = s.fnNow n := by
  unfold State.fnStart
  rw [if_neg]
  simpa [State.resetWaits] using h

/-- The functions in reset after a reset that takes effect. -/
theorem fnNow_fnReset (s : State) (n m : Nat) (hm : m < 10) : (s.fnNow n).fnReset m = (s.fnReset m || decide (m = n)) := by
  by_cases h : s.fnReset n = true
  · unfold State.fnNow
    rw [if_pos h]
    by_cases e : m = n
    · subst e; simp [h]
    · simp [e]
  · have k := (fnNow_kept s n (by simpa using h)).inReset
    have f : (s.cutOffPhase n).flt = s.flt := by rw [(cutOffPhase_frame s n).1]
    simp only [f] at k
    simp only [State.fnReset, k, BitVec.getLsbD_or, getLsbD_bit _ _ _ hm]
    congr 1
    simp [eq_comm]

/-- The functions in reset after the start of a reset. -/
theorem fnStart_fnReset (s : State) (n m : Nat) (hm : m < 10) (h : s.resetWaits n = false) :
    (s.fnStart n).fnReset m = (s.fnReset m || decide (m = n)) := by rw [fnStart_now h, fnNow_fnReset s n m hm]

theorem fnNow_keptByReset (s : State) (n : Nat) : keptByReset s (s.fnNow n) := by
  by_cases h : s.fnReset n = true
  · unfold State.fnNow; rw [if_pos h]; exact (Kept.refl s).byReset
  · refine keptByReset.trans ?_ (fnNow_kept s n (by simpa using h)).byReset
    obtain ⟨e, g, p⟩ := cutOffPhase_frame s n
    refine keptByReset.of_frame ?_ g p
    generalize s.cutOffPhase n = u at *
    rw [e]

theorem fnStart_keptByReset (s : State) (n : Nat) : keptByReset s (s.fnStart n) := by
  cases h : s.resetWaits n
  · rw [fnStart_now h]; exact fnNow_keptByReset s n
  · rw [fnStart_waits h]
    exact keptByReset.of_frame rfl (fun _ _ => rfl) rfl

end Sys2Proof.Machine
end

