-- ==== Sys2Proof/Laws/Ends.lean ====
section
/-! SUPPORT. A packet that a reset, a take-over or a DETACH ends is ended, and the ends of other packets leave it so. -/

namespace Sys2Proof.Machine

/-- `d` is `c` in all that decides how a packet ends. -/
structure Cmd.Alike (c d : Cmd) : Prop where
  stage : d.stage = c.stage
  op : d.op = c.op
  disp : d.disp = c.disp
  started : d.started = c.started
  steps : d.work.steps = c.work.steps
  known : d.work.stripsKnown = c.work.stripsKnown
  strips : d.work.strips = c.work.strips
  order : d.order = c.order
  ring : d.ring = c.ring
  seq : d.seq = c.seq
  run : d.run = c.run
  matched : d.matched = c.matched

/-- A property of a packet, no SHARD_MERGE that has found its step, that a merge of its step and a CTX_SAVE of it do not
touch. -/
structure Cmd.Plain (P : Cmd → Prop) : Prop where
  alike : ∀ c d, Cmd.Alike c d → d.reason = c.reason → P c → P d
  noMerge : ∀ c, P c → ¬ (c.op = opMerge ∧ c.started = true ∧ c.stage = .running)

theorem setCmd_own {s : State} {c : Cmd} {P : Cmd → Prop} (h : ∃ d ∈ s.cmds, d.order = c.order) (hp : P c) :
    (s.setCmd c).holds c.order P := by
  obtain ⟨d, hd, ho⟩ := h
  constructor
  · exact ⟨_, List.mem_map.2 ⟨d, hd, rfl⟩, by simp [ho]⟩
  · intro e he heo
    obtain ⟨x, _, rfl⟩ := List.mem_map.1 he
    split
    · exact hp
    · rename_i hx
      rw [if_neg hx] at heo
      exact absurd heo hx

theorem holds_of_cmds {s t : State} {o : Nat} {P : Cmd → Prop} (h : s.holds o P) (e : t.cmds = s.cmds) : t.holds o P := by
  simpa only [State.holds, e] using h

theorem finish_cmds (s : State) (c : Cmd) (r : Reason) (b : Body) : ∃ d : Cmd, (s.finish c r b).cmds = (s.setCmd d).cmds ∧
    d.order = c.order ∧ d.stage = .finished ∧ d.reason = r := by
  have q : Quiet s (if (s.convert c).2.disp.isNone then (s.convert c).1.leaveBarrier (s.convert c).2.ring else (s.convert c).1) := by
    split
    · exact (convert_quiet s c).trans (leaveBarrier_quiet _ _)
    · exact convert_quiet s c
  have h : ∀ (u : State) (d : Cmd) (a : Nat) (q : U32), u.cmds = s.cmds → ((u.setCmd d).freeAcre a q).cmds = (s.setCmd d).cmds := by
    intro u d a q hu
    simp only [State.freeAcre, State.setCmd, hu]
  unfold State.finish
  exact ⟨_, h _ _ _ _ q.cmds, rfl, rfl, rfl⟩

theorem finish_own {s : State} {c : Cmd} (r : Reason) (b : Body) (h : ∃ d ∈ s.cmds, d.order = c.order) :
    (s.finish c r b).holds c.order fun d => d.stage = .finished ∧ d.reason = r := by
  obtain ⟨d, e, h1, h2, h3⟩ := finish_cmds s c r b
  have := setCmd_own (s := s) (c := d) (P := fun d => d.stage = .finished ∧ d.reason = r) (h1 ▸ h) ⟨h2, h3⟩
  rw [h1] at this
  exact holds_of_cmds this e

theorem finish_other {s : State} {c : Cmd} {o : Nat} {P : Cmd → Prop} (r : Reason) (b : Body) (h : s.holds o P) (ho : c.order ≠ o) :
    (s.finish c r b).holds o P := by
  obtain ⟨d, e, h1, _⟩ := finish_cmds s c r b
  exact holds_of_cmds (setCmd_holds h fun x => absurd (h1 ▸ x) ho) e

theorem refuse_cmds (s : State) (c : Cmd) (r : Reason) : ∃ u : State, u.cmds = s.cmds ∧ s.refuse c r = u.finish c r bodyZero :=
  ⟨_, (refuse_quiet s c).cmds, rfl⟩

theorem fieldLeft_cmds (s : State) (c : Cmd) : (s.fieldLeft c).cmds = s.cmds := by
  unfold State.fieldLeft; split
  · rfl
  · split <;> rfl

theorem unreserve_cmds (s : State) (p : StripStep) : (s.unreserve p).cmds = s.cmds := by
  unfold State.unreserve; split <;> rfl

theorem unreserves_cmds (l : List StripStep) (s : State) :
    (l.foldl (fun s p => if p.committed then s else s.unreserve p) s).cmds = s.cmds := by
  induction l generalizing s with
  | nil => rfl
  | cons p l ih =>
    rw [List.foldl_cons, ih]
    split
    · rfl
    · exact unreserve_cmds s p

theorem modCmd_plain {s : State} {P : Cmd → Prop} (hP : Cmd.Plain P) (r : Nat) (q : U32) (f : Cmd → Cmd) {o : Nat} (h : s.holds o P)
    (hf : ∀ c, Cmd.Alike c (f c) ∧ (f c).reason = c.reason) : (s.modCmd r q f).holds o P := by
  unfold State.modCmd
  split
  · rename_i c hc
    obtain ⟨h1, h2⟩ := hf c
    exact setCmd_holds h fun ho => hP.alike c _ h1 h2 (h.2 c (cmd_mem hc) (h1.order ▸ ho))
  · exact h

theorem unpause_plain {s : State} {P : Cmd → Prop} (hP : Cmd.Plain P) (c : Cmd) {o : Nat} (h : s.holds o P) : (s.unpause c).holds o P := by
  unfold State.unpause
  split
  · exact modCmd_plain hP _ _ _ h fun c => ⟨⟨rfl, rfl, rfl, rfl, rfl, rfl, rfl, rfl, rfl, rfl, rfl, rfl⟩, rfl⟩
  · exact h

theorem setFree_other {s : State} {P : Cmd → Prop} {d : Cmd} {o a : Nat} {q : U32} (h : s.holds o P) (hd : d.order ≠ o) :
    ((s.setCmd d).freeAcre a q).holds o P := setCmd_holds h fun e => absurd e hd

theorem closeMerge_other {s : State} {P : Cmd → Prop} (hP : Cmd.Plain P) (c : Cmd) (r : Reason) {o : Nat} (h : s.holds o P) (ho : c.order ≠ o) :
    (s.closeMerge c r).holds o P := by
  unfold State.closeMerge
  split
  · exact finish_other _ _ h ho
  · rename_i d hd
    split
    · exact setCmd_holds h fun e => absurd e ho
    · refine finish_other _ _ (setCmd_holds h fun e => ?_) ho
      exact hP.alike d _ ⟨rfl, rfl, rfl, rfl, rfl, rfl, rfl, rfl, rfl, rfl, rfl, rfl⟩ rfl (h.2 d (cmd_mem hd) e)

/-- The end of a step's SHARD_MERGE leaves what is plain. -/
theorem endMergeOf_plain {s : State} {P : Cmd → Prop} (hP : Cmd.Plain P) (c : Cmd) (r : Reason) {o : Nat} (h : s.holds o P) :
    (s.endMergeOf c r).holds o P := by
  unfold State.endMergeOf
  split
  · rename_i m hm
    have hs := List.find?_some hm
    simp only [Bool.and_eq_true, beq_iff_eq] at hs
    refine closeMerge_other hP m _ h fun ho => ?_
    exact hP.noMerge m (h.2 m (List.mem_of_find?_eq_some hm) ho) ⟨hs.1.1.1.1, hs.1.1.1.2, hs.1.1.2⟩
  · exact h

theorem endParts_other {s : State} {P : Cmd → Prop} (hP : Cmd.Plain P) (c : Cmd) (r : Reason) {o : Nat} (h : s.holds o P) (ho : c.order ≠ o) :
    (s.endParts c r).holds o P := by
  unfold State.endParts
  split
  · exact closeMerge_other hP c r h ho
  · split
    · exact endMergeOf_plain hP _ _ (setFree_other (holds_of_cmds h (unreserves_cmds _ s)) ho)
    · exact endMergeOf_plain hP _ _ (finish_other _ _ h ho)

theorem atEnd_alike (s : State) (c : Cmd) (r : Reason) : Cmd.Alike c (s.atEnd c r) := by
  unfold State.atEnd State.fillCut Cmd.failTokens
  constructor <;> dsimp only <;> split <;> split <;> rfl

/-- The end of another packet leaves what is plain. -/
theorem endCmd_other {s : State} {P : Cmd → Prop} (hP : Cmd.Plain P) (c : Cmd) (r : Reason) {o : Nat} (h : s.holds o P) (ho : c.order ≠ o) :
    (s.endCmd c r).holds o P := by
  unfold State.endCmd
  split
  · rw [endWork_eq]
    refine endParts_other hP _ _ (holds_of_cmds h ?_) (by rw [(atEnd_alike s c r).order]; exact ho)
    rw [fieldLeft_cmds]
    split <;> rfl
  · obtain ⟨u, hu, e⟩ := refuse_cmds s c r
    rw [e]
    exact finish_other _ _ (holds_of_cmds h hu) ho

theorem plain_ended (r : Reason) : Cmd.Plain fun d => d.stage = .finished ∧ d.reason = r :=
  ⟨fun _ _ h1 h2 h => ⟨h1.stage.trans h.1, h2.trans h.2⟩, fun c h k => by rw [h.1] at k; exact absurd k.2.2 (by decide)⟩

/-- A packet that ends at once is ended. -/
theorem endCmd_own {s : State} {c : Cmd} (r : Reason) (h : ∃ d ∈ s.cmds, d.order = c.order) (hc : c.endsAtOnce) :
    (s.endCmd c r).holds c.order fun d => d.stage = .finished ∧ d.reason = r := by
  unfold State.endCmd
  split
  · rename_i hd
    simp only [Bool.and_eq_true] at hd
    rw [endWork_eq]
    have hs := atEnd_alike s c r
    generalize s.atEnd c r = e at hs
    have hx : ((if r = .saved then s.dropReads e.ring e.seq else s.dropQueued e.ring e.seq).fieldLeft e).cmds = s.cmds := by
      rw [fieldLeft_cmds]; split <;> rfl
    generalize ((if r = .saved then s.dropReads e.ring e.seq else s.dropQueued e.ring e.seq).fieldLeft e) = u at hx
    have hm : ∃ d ∈ u.cmds, d.order = e.order := by rw [hx, hs.order]; exact h
    have he : u.stepsAtEnd e r = [] := by
      have h0 : e.work.steps = [] := by
        rw [hs.steps]
        by_contra hh
        exact hc.2 ⟨hd.1, hd.2, .inl hh⟩
      unfold State.stepsAtEnd
      split
      · unfold State.cutSteps
        split
        · rename_i hh
          have : e.work.strips = [] := by
            rw [hs.strips]
            by_contra hn
            exact hc.2 ⟨hd.1, hd.2, .inr ⟨by rw [← hs.op]; exact hh.1, by rw [← hs.known]; exact hh.2, hn⟩⟩
          rw [this]; rfl
        · rfl
      · exact h0
    unfold State.endParts
    rw [if_neg (fun hh => hc.1 ⟨hs.op ▸ hh.1, hs.started ▸ hh.2⟩), he]
    rw [if_neg (by simp), ← hs.order]
    exact endMergeOf_plain (plain_ended r) _ _ (finish_own _ _ hm)
  · obtain ⟨u, hu, e⟩ := refuse_cmds s c r
    rw [e]
    exact finish_own _ _ (hu ▸ h)

theorem Cmd.Alike.trans {a b c : Cmd} (h : Cmd.Alike a b) (k : Cmd.Alike b c) : Cmd.Alike a c :=
  ⟨k.stage.trans h.stage, k.op.trans h.op, k.disp.trans h.disp, k.started.trans h.started, k.steps.trans h.steps, k.known.trans h.known,
    k.strips.trans h.strips, k.order.trans h.order, k.ring.trans h.ring, k.seq.trans h.seq, k.run.trans h.run, k.matched.trans h.matched⟩

theorem Cmd.Alike.endsAtOnce {c d : Cmd} (h : Cmd.Alike c d) (hc : c.endsAtOnce) : d.endsAtOnce := by
  unfold Cmd.endsAtOnce at *
  rw [h.op, h.disp, h.started, h.steps, h.known, h.strips]
  exact hc

theorem plain_alike {c : Cmd} (hc : c.endsAtOnce) : Cmd.Plain (Cmd.Alike c) :=
  ⟨fun _ _ h1 _ h => h.trans h1, fun _ h k => hc.1 ⟨h.op ▸ k.1, h.started ▸ k.2.1⟩⟩

theorem holds_self {s : State} {c : Cmd} (hc : c ∈ s.cmds) (hn : (s.cmds.map Cmd.order).Nodup) : s.holds c.order (Cmd.Alike c) := by
  refine ⟨⟨c, hc, rfl⟩, fun d hd ho => ?_⟩
  have : d = c := by
    have := List.inj_on_of_nodup_map hn
    exact this hd hc ho
  subst this
  exact ⟨rfl, rfl, rfl, rfl, rfl, rfl, rfl, rfl, rfl, rfl, rfl, rfl⟩

theorem find_order {s : State} {o : Nat} {P : Cmd → Prop} (h : s.holds o P) : ∃ d, s.cmds.find? (fun d => d.order == o) = some d ∧
    d ∈ s.cmds ∧ d.order = o ∧ P d := by
  obtain ⟨⟨d, hd, ho⟩, hall⟩ := h
  cases hf : s.cmds.find? (fun d => d.order == o) with
  | none => exact absurd ho (by simpa using List.find?_eq_none.1 hf d hd)
  | some e =>
    have h1 := List.mem_of_find?_eq_some hf
    have h2 : e.order = o := by simpa using List.find?_some hf
    exact ⟨e, rfl, h1, h2, hall e h1 h2⟩

/-- Of a sequence of steps, one for each packet of a list without repeats, the one of packet `c` brings `Q`, and the others
keep `P` before it and `Q` after it; `I` holds throughout. -/
theorem foldl_own {I : State → Prop} {P Q : Cmd → Prop} (f : State → Cmd → State) (c : Cmd) (hi : ∀ s d, I s → I (f s d))
    (hp : ∀ s d, I s → d.order ≠ c.order → s.holds c.order P → (f s d).holds c.order P)
    (hq : ∀ s d, I s → d.order ≠ c.order → s.holds c.order Q → (f s d).holds c.order Q)
    (hc : ∀ s, I s → s.holds c.order P → (f s c).holds c.order Q) :
    ∀ (l : List Cmd) (s : State), I s → c ∈ l → (l.map Cmd.order).Nodup → s.holds c.order P → (l.foldl f s).holds c.order Q := by
  have after : ∀ (l : List Cmd) (s : State), I s → (∀ d ∈ l, d.order ≠ c.order) → s.holds c.order Q → (l.foldl f s).holds c.order Q := by
    intro l
    induction l with
    | nil => intro s _ _ h; exact h
    | cons d l ih => intro s hs hl h; exact ih _ (hi s d hs) (fun e he => hl e (List.mem_cons_of_mem _ he)) (hq s d hs (hl d (List.mem_cons_self ..)) h)
  intro l
  induction l with
  | nil => intro s _ h; cases h
  | cons d l ih =>
    intro s hs hm hn h
    rw [List.map_cons, List.nodup_cons] at hn
    rw [List.foldl_cons]
    by_cases hd : d.order = c.order
    · have : d = c := by
        rcases List.mem_cons.1 hm with e | e
        · exact e.symm
        · exact absurd (List.mem_map.2 ⟨c, e, hd.symm⟩) hn.1
      subst this
      exact after l _ (hi s d hs) (fun e he ho => hn.1 (List.mem_map.2 ⟨e, he, ho⟩)) (hc s hs h)
    · refine ih _ (hi s d hs) ?_ hn.2 (hp s d hs hd h)
      rcases List.mem_cons.1 hm with e | e
      · exact absurd (e ▸ rfl) hd
      · exact e

/-- Every packet that R433 names, and that ends at once, is ended by the reset. -/
theorem endEach_own (n : Nat) (s : State) (c : Cmd) (r : Reason) (hc : c ∈ s.cmds) (hn : (s.cmds.map Cmd.order).Nodup)
    (he : resetEnds n c = some r) (hs : c.stage ≠ .finished) (ha : c.endsAtOnce) :
    (s.endEach n s.cmds).holds c.order fun d => d.stage = .finished ∧ d.reason = r := by
  have other : ∀ (P : Cmd → Prop), Cmd.Plain P → ∀ (s : State) (d : Cmd), d.order ≠ c.order → s.holds c.order P →
      (s.endOne n d).holds c.order P := by
    intro P hP s d hd h
    unfold State.endOne
    split
    · exact h
    · split
      · rename_i e hf
        split
        · exact h
        · have : e.order = d.order := by simpa using List.find?_some hf
          exact endCmd_other hP _ _ (unpause_plain hP _ h) (this ▸ hd)
      · exact h
  refine foldl_own (I := fun _ => True) (P := Cmd.Alike c) (State.endOne n) c (fun _ _ h => h) (fun s d _ => other _ (plain_alike ha) s d)
    (fun s d _ => other _ (plain_ended r) s d) (fun t _ h => ?_) s.cmds s trivial hc hn (holds_self hc hn)
  unfold State.endOne
  simp only [he]
  obtain ⟨d, hf, hd, ho, hp⟩ := find_order h
  rw [hf]
  simp only
  rw [if_neg (by rw [hp.stage]; exact hs)]
  have hu : (t.unpause d).holds c.order (Cmd.Alike c) := unpause_plain (plain_alike ha) _ h
  have := endCmd_own (s := t.unpause d) (c := d) r (by obtain ⟨⟨x, hx, hxo⟩, _⟩ := hu; exact ⟨x, hx, hxo.trans ho.symm⟩) (hp.endsAtOnce ha)
  rw [ho] at this
  exact this

theorem stable_ended (r : Reason) : Cmd.Stable fun d => d.stage = .finished ∧ d.reason = r := by
  intro c d h ⟨h1, h2⟩
  obtain ⟨k1, k2, _⟩ := h.done h1
  exact ⟨k1, k2.trans h2⟩

theorem resetEnds_live {n : Nat} {c : Cmd} {r : Reason} (h : resetEnds n c = some r) : c.stage ≠ .finished := by
  intro hf
  unfold resetEnds at h
  have ha : c.active = false := by simp [Cmd.active, hf]
  have h1 : c.inPhase = false := by simp [Cmd.inPhase, ha]
  have h2 : c.beforeCommit = false := by simp [Cmd.beforeCommit, ha]
  have h3 : c.converted = false := by simp [Cmd.converted, ha]
  have h4 : c.filling = false := by simp [Cmd.filling, ha]
  have h5 : c.exchanging = false := by simp [Cmd.exchanging, ha]
  simp only [h1, h2, h3, h4, h5, ha, hf] at h
  split at h <;> simp at h

theorem abortFetch_cmds (s : State) (h : ∀ c ∈ s.cmds, c.order < s.nextOrder) (hn : (s.cmds.map Cmd.order).Nodup) :
    (∀ c ∈ s.cmds, c ∈ s.abortFetch.cmds) ∧ (s.abortFetch.cmds.map Cmd.order).Nodup := by
  have cut : ∀ (b : Bool) (u : State) (c : Cmd), u.cmds = s.cmds → c.order = s.nextOrder →
      (∀ d ∈ s.cmds, d ∈ (if b = true then ({ u with nextOrder := u.nextOrder + 1, cmds := u.cmds ++ [c] } : State).refuse c .abortedReset else u).cmds) ∧
      ((if b = true then ({ u with nextOrder := u.nextOrder + 1, cmds := u.cmds ++ [c] } : State).refuse c .abortedReset else u).cmds.map Cmd.order).Nodup := by
    intro b u c hu ho
    split
    · obtain ⟨v, hv, e⟩ := refuse_cmds ({ u with nextOrder := u.nextOrder + 1, cmds := u.cmds ++ [c] } : State) c .abortedReset
      rw [e]
      obtain ⟨d, e1, e2, _⟩ := finish_cmds v c .abortedReset bodyZero
      rw [e1]
      have hvc : v.cmds = s.cmds ++ [c] := by rw [hv]; show u.cmds ++ [c] = _; rw [hu]
      have hmap : ((v.setCmd d).cmds.map Cmd.order) = v.cmds.map Cmd.order := by
        simp only [State.setCmd, List.map_map]
        refine List.map_congr_left fun x _ => ?_
        simp only [Function.comp]
        split
        · rename_i hx; exact hx.symm
        · rfl
      refine ⟨fun x hx => ?_, ?_⟩
      · simp only [State.setCmd, hvc]
        refine List.mem_map.2 ⟨x, List.mem_append_left _ hx, ?_⟩
        rw [if_neg]
        have := h x hx
        rw [e2, ho]; omega
      · rw [hmap, hvc, List.map_append, List.nodup_append]
        refine ⟨hn, by simp, ?_⟩
        intro a ha b hb
        obtain ⟨x, hx, rfl⟩ := List.mem_map.1 ha
        have := h x hx
        simp only [List.map_cons, List.map_nil, List.mem_singleton] at hb
        rw [hb, ho]; omega
    · rw [hu]; exact ⟨fun d hd => hd, hn⟩
  have fetch : ∀ (r : Nat), (∀ c ∈ s.cmds, c ∈ (s.endFetch r .abortedReset).cmds) ∧ ((s.endFetch r .abortedReset).cmds.map Cmd.order).Nodup := by
    intro r
    unfold State.endFetch
    extract_lets c counted past n arb s₁ s₂
    have e : s₂.cmds = s.cmds := by
      change (if past then s₁.modRing r fun g => { g with head := add32 g.head n, needSlots := 0 } else s₁).cmds = s.cmds
      split <;> rfl
    exact cut counted s₂ c e rfl
  unfold State.abortFetch
  split
  · split
    · exact ⟨fun c h => h, hn⟩
    · exact fetch _
  · exact ⟨fun c h => h, hn⟩

theorem clearFn_cmds (s : State) (n : Nat) : (s.clearFn n).cmds = s.cmds := by
  unfold State.clearFn
  split
  all_goals first | rfl | skip
  unfold State.linkDown
  simp only
  split
  · exact (setPair_parts _ 4).1
  · rfl

/-- The command on the Acre with the cycles of its phase counted. -/
def Cmd.counted (k : Nat) (c : Cmd) : Cmd := { c with cycles := c.cycles + k }

/-- What a reset of the Acre counts for its command decides nothing of an end. -/
theorem cutOffPhase_cmds (s : State) (n : Nat) (hn : (s.cmds.map Cmd.order).Nodup) (c : Cmd) (hc : c ∈ s.cmds) :
    ((s.cutOffPhase n).cmds.map Cmd.order).Nodup ∧ ∃ d ∈ (s.cutOffPhase n).cmds, d.order = c.order ∧ ∃ k, d = c.counted k := by
  have same : ∃ d ∈ s.cmds, d.order = c.order ∧ ∃ k, d = c.counted k := ⟨c, hc, rfl, 0, rfl⟩
  have pc : ∀ (u : State) (k : Nat), (u.phaseCycles k).cmds = u.cmds := fun u k => by rw [(phaseCycles_frame u k).1]
  unfold State.cutOffPhase
  split
  · unfold State.flushPhase
    dsimp only
    split
    · rename_i r q _
      rw [pc]
      unfold State.modCmd
      split
      · rename_i e he
        refine ⟨?_, ?_⟩
        · have : ((s.setCmd { e with cycles := e.cycles + s.perf.acrePool.toNat }).cmds.map Cmd.order) = s.cmds.map Cmd.order := by
            simp only [State.setCmd, List.map_map]
            refine List.map_congr_left fun x _ => ?_
            simp only [Function.comp]
            split
            · rename_i hx; exact hx.symm
            · rfl
          rw [this]; exact hn
        · by_cases ho : c.order = e.order
          · have : c = e := List.inj_on_of_nodup_map hn hc (cmd_mem he) ho
            subst this
            refine ⟨_, List.mem_map.2 ⟨c, hc, rfl⟩, ?_, s.perf.acrePool.toNat, ?_⟩
            · simp
            · simp [Cmd.counted]
          · exact ⟨c, List.mem_map.2 ⟨c, hc, by simp [ho]⟩, rfl, 0, rfl⟩
      · exact ⟨hn, same⟩
    · exact ⟨hn, same⟩
  · exact ⟨hn, same⟩

theorem resetEnds_counted (n k : Nat) (c : Cmd) : resetEnds n (c.counted k) = resetEnds n c := rfl

/-- A packet that R433 names, and that ends at once, is ended when the reset has taken effect. -/
theorem fnNow_ends (s : State) (n : Nat) (h : s.fnReset n = false) (hn : (s.cmds.map Cmd.order).Nodup)
    (ho : ∀ c ∈ s.cmds, c.order < s.nextOrder) (c : Cmd) (hc : c ∈ s.cmds) (r : Reason) (he : resetEnds n c = some r) (ha : c.endsAtOnce) :
    (s.fnNow n).holds c.order fun d => d.stage = .finished ∧ d.reason = r := by
  obtain ⟨hn', d, hd, hdo, k, hk⟩ := cutOffPhase_cmds s n hn c hc
  have hon : ∀ c ∈ (s.cutOffPhase n).cmds, c.order < s.nextOrder := by
    have : (s.cutOffPhase n).cmds.map Cmd.order = s.cmds.map Cmd.order := by
      unfold State.cutOffPhase
      split
      · unfold State.flushPhase
        dsimp only
        split
        · rw [show ∀ (u : State) (k : Nat), (u.phaseCycles k).cmds = u.cmds from fun u k => by rw [(phaseCycles_frame u k).1]]
          unfold State.modCmd
          split
          · simp only [State.setCmd, List.map_map]
            refine List.map_congr_left fun x _ => ?_
            simp only [Function.comp]
            split
            · rename_i hx; exact hx.symm
            · rfl
          · rfl
        · rfl
      · rfl
    intro c hc
    have := this ▸ List.mem_map.2 ⟨c, hc, rfl⟩
    obtain ⟨x, hx, e⟩ := List.mem_map.1 this
    exact e ▸ ho x hx
  have hno : (s.cutOffPhase n).nextOrder = s.nextOrder := by rw [(cutOffPhase_frame s n).1]
  rw [fnNow_eq s n h, ← hdo]
  have hr : resetEnds n d = some r := by rw [hk, resetEnds_counted]; exact he
  have hda : d.endsAtOnce := by rw [hk]; exact ha
  have key : ∀ u : State, u.cmds = (s.cutOffPhase n).cmds → u.nextOrder = (s.cutOffPhase n).nextOrder →
      (let v := if n = 4 then u.abortFetch else u; ((v.endEach n v.cmds).clearFn n).settle).holds d.order fun d => d.stage = .finished ∧ d.reason = r := by
    intro u hu1 hu2
    have hv : d ∈ (if n = 4 then u.abortFetch else u).cmds ∧ ((if n = 4 then u.abortFetch else u).cmds.map Cmd.order).Nodup := by
      split
      · have := abortFetch_cmds u (by rw [hu1, hu2, hno]; exact hon) (by rw [hu1]; exact hn')
        exact ⟨this.1 d (hu1 ▸ hd), this.2⟩
      · rw [hu1]; exact ⟨hd, hn'⟩
    simp only
    generalize (if n = 4 then u.abortFetch else u) = v at hv
    refine (settle_adv _).cmds _ _ (stable_ended r) (holds_of_cmds ?_ (clearFn_cmds _ _))
    exact endEach_own n v d r hv.1 hv.2 hr (resetEnds_live hr) hda
  exact key _ rfl rfl

/-! ### Taking over and detaching (R447, R448) -/

theorem finish_pair (s : State) (c : Cmd) (r : Reason) (b : Body) : (s.finish c r b).pair = s.pair := by
  have q : (if (s.convert c).2.disp.isNone then (s.convert c).1.leaveBarrier (s.convert c).2.ring else (s.convert c).1).pair = s.pair := by
    split
    · unfold State.leaveBarrier; split <;> rfl
    · rfl
  have h : ∀ (u : State) (d : Cmd) (a : Nat) (q : U32), u.pair = s.pair → ((u.setCmd d).freeAcre a q).pair = s.pair := fun u d a q hu => hu
  unfold State.finish
  exact h _ _ _ _ q

theorem refuse_pair (s : State) (c : Cmd) (r : Reason) : (s.refuse c r).pair = s.pair := by
  unfold State.refuse
  rw [finish_pair]
  show (ite _ _ _ : State).pair = _
  split <;> rfl

theorem modCmd_pair (s : State) (r : Nat) (q : U32) (f : Cmd → Cmd) : (s.modCmd r q f).pair = s.pair := by
  unfold State.modCmd; split <;> rfl

theorem unpause_pair (s : State) (c : Cmd) : (s.unpause c).pair = s.pair := by
  unfold State.unpause; split
  · exact modCmd_pair _ _ _ _
  · rfl

theorem unreserves_pair (l : List StripStep) (s : State) :
    (l.foldl (fun s p => if p.committed then s else s.unreserve p) s).pair = s.pair := by
  induction l generalizing s with
  | nil => rfl
  | cons p l ih =>
    rw [List.foldl_cons, ih]
    split
    · rfl
    · unfold State.unreserve; split <;> rfl

theorem closeMerge_pair (s : State) (c : Cmd) (r : Reason) : (s.closeMerge c r).pair = s.pair := by
  unfold State.closeMerge
  split
  · exact finish_pair _ _ _ _
  · split
    · rfl
    · exact finish_pair _ _ _ _

theorem endMergeOf_pair (s : State) (c : Cmd) (r : Reason) : (s.endMergeOf c r).pair = s.pair := by
  unfold State.endMergeOf
  split
  · exact closeMerge_pair _ _ _
  · rfl

theorem endParts_pair (s : State) (c : Cmd) (r : Reason) : (s.endParts c r).pair = s.pair := by
  unfold State.endParts
  split
  · exact closeMerge_pair _ _ _
  · split
    · rw [endMergeOf_pair]; exact unreserves_pair _ s
    · rw [endMergeOf_pair]; exact finish_pair _ _ _ _

theorem endCmd_pair (s : State) (c : Cmd) (r : Reason) : (s.endCmd c r).pair = s.pair := by
  unfold State.endCmd
  split
  · rw [endWork_eq, endParts_pair]
    have : ∀ u : State, u.pair = s.pair → ∀ d, (u.fieldLeft d).pair = s.pair := by
      intro u hu d
      unfold State.fieldLeft
      split
      · exact hu
      · split <;> exact hu
    refine this _ ?_ _
    split <;> rfl
  · exact refuse_pair _ _ _

theorem withProgress_alike (c : Cmd) (p : Nat × Nat) : Cmd.Alike c (c.withProgress p) := by
  unfold Cmd.withProgress
  dsimp only
  split
  · exact ⟨rfl, rfl, rfl, rfl, rfl, rfl, rfl, rfl, rfl, rfl, rfl, rfl⟩
  · split
    · exact ⟨rfl, rfl, rfl, rfl, rfl, rfl, rfl, rfl, rfl, rfl, rfl, rfl⟩
    · split <;> exact ⟨rfl, rfl, rfl, rfl, rfl, rfl, rfl, rfl, rfl, rfl, rfl, rfl⟩

/-- The packet as an abandonment takes it. -/
def Cmd.abandoned (c : Cmd) (p : Nat × Nat) : Cmd := { c.withProgress p with heldWrites := [], outputs := [] }

theorem abandoned_alike (c : Cmd) (p : Nat × Nat) : Cmd.Alike c (c.abandoned p) := by
  obtain ⟨h1, h2, h3, h4, h5, h6, h7, h8, h9, h10, h11, h12⟩ := withProgress_alike c p
  exact ⟨h1, h2, h3, h4, h5, h6, h7, h8, h9, h10, h11, h12⟩

theorem abandon_eq (s : State) (c : Cmd) (p : Nat × Nat) : s.abandon c p =
    (if (c.abandoned p).stage = .finished then
      if (c.abandoned p).recAsked then s
      else s.setCmd { c.abandoned p with
        reason := .abortedReset
        body := cplBody (if isClassOp (c.abandoned p).op && (c.abandoned p).started
          then classBody (s.fieldOf (c.abandoned p)) (c.abandoned p) .abortedReset else bodyZero).fields }
    else ((s.setCmd (c.abandoned p)).unpause (c.abandoned p)).endCmd (c.abandoned p) .abortedReset) := rfl

theorem abandon_pair (s : State) (c : Cmd) (p : Nat × Nat) : (s.abandon c p).pair = s.pair := by
  rw [abandon_eq]
  split
  · split <;> rfl
  · rw [endCmd_pair, unpause_pair]; rfl

theorem abandon_other {s : State} {P : Cmd → Prop} (hP : Cmd.Plain P) (c : Cmd) (p : Nat × Nat) {o : Nat} (h : s.holds o P) (ho : c.order ≠ o) :
    (s.abandon c p).holds o P := by
  rw [abandon_eq]
  have h1 : (c.abandoned p).order = c.order := (abandoned_alike c p).order
  split
  · split
    · exact h
    · exact setCmd_holds h fun e => absurd e (h1 ▸ ho)
  · exact endCmd_other hP _ _ (unpause_plain hP _ (setCmd_holds h fun e => absurd e (h1 ▸ ho))) (h1 ▸ ho)

theorem abandon_own {s : State} {c : Cmd} (p : Nat × Nat) (h : ∃ d ∈ s.cmds, d.order = c.order) (hs : c.stage ≠ .finished) (hc : c.endsAtOnce) :
    (s.abandon c p).holds c.order fun d => d.stage = .finished ∧ d.reason = .abortedReset := by
  rw [abandon_eq]
  have hl := abandoned_alike c p
  have h1 := hl.order
  have h2 := hl.stage
  have h7 := hl.endsAtOnce hc
  generalize c.abandoned p = d at *
  rw [if_neg (h2 ▸ hs), ← h1]
  refine endCmd_own _ ?_ h7
  have k : (s.setCmd d).holds d.order (Cmd.Alike d) :=
    setCmd_own (h1 ▸ h) ⟨rfl, rfl, rfl, rfl, rfl, rfl, rfl, rfl, rfl, rfl, rfl, rfl⟩
  exact (unpause_plain (plain_alike h7) d k).1

theorem asks_quiet (l : List Range) (s : State) : Quiet s (l.foldl State.ask s) := Quiet.foldl _ ask_quiet _ _

theorem inherit_pair (s : State) (c : Cmd) : (s.inherit c).pair = s.pair := by
  unfold State.inherit
  have asks : ∀ (l : List Range) (u : State), (l.foldl State.ask u).pair = u.pair := by
    intro l
    induction l with
    | nil => intro u; rfl
    | cons a l ih => intro u; rw [List.foldl_cons, ih]; unfold State.ask; split <;> rfl
  have writes : ∀ (l : List (Nat × Nat × List Byte)) (u : State),
      (l.foldl (fun s o => s.askWrite .gWrite c.ring c.seq 0 o.2.1 o.2.2) u).pair = u.pair := by
    intro l
    induction l with
    | nil => intro u; rfl
    | cons a l ih => intro u; rw [List.foldl_cons, ih]; unfold State.askWrite State.ask; split <;> rfl
  split
  · rfl
  · split
    · unfold State.releaseHeld; rw [asks]; rfl
    · split
      · unfold State.releaseOutputs; rw [writes]; rfl
      · exact abandon_pair _ _ _

theorem inherit_other {s : State} {P : Cmd → Prop} (hP : Cmd.Plain P) (c : Cmd) {o : Nat} (h : s.holds o P) (ho : c.order ≠ o) :
    (s.inherit c).holds o P := by
  unfold State.inherit
  split
  · exact setCmd_holds h fun e => absurd e ho
  · split
    · unfold State.releaseHeld
      exact holds_of_cmds (setCmd_holds (c := { c with heldWrites := [], outputs := [] }) h fun e => absurd e ho) (asks_quiet _ _).cmds
    · split
      · unfold State.releaseOutputs
        exact holds_of_cmds (setCmd_holds (c := { c with heldWrites := [], outputs := [] }) h fun e => absurd e ho)
          (Quiet.foldl _ (fun s o => askWrite_quiet s _ _ _ _ _ _) _ _).cmds
      · exact abandon_other hP _ _ h ho

/-- One step of `eachDispatched`. -/
def State.onDispatched (f : State → Cmd → State) (s : State) (c : Cmd) : State :=
  match s.cmds.find? (fun d => d.order == c.order) with
  | some d => if d.disp.isSome then f s d else s
  | none => s

theorem eachDispatched_eq (s : State) (f : State → Cmd → State) : s.eachDispatched f = s.cmds.foldl (State.onDispatched f) s := rfl

/-- A packet that `f` ends is ended when `f` has run on every dispatched packet. -/
theorem eachDispatched_own {r : Reason} (f : State → Cmd → State) (s : State) (c : Cmd) (hc : c ∈ s.cmds) (hn : (s.cmds.map Cmd.order).Nodup)
    (hd : c.disp.isSome = true) (ha : c.endsAtOnce) (hpair : ∀ s d, (f s d).pair = s.pair)
    (hother : ∀ (s : State) (P : Cmd → Prop), Cmd.Plain P → ∀ d : Cmd, d.order ≠ c.order → s.holds c.order P → (f s d).holds c.order P)
    (hown : ∀ (t : State) (d : Cmd), t.pair = s.pair → Cmd.Alike c d → d ∈ t.cmds → (f t d).holds c.order fun d => d.stage = .finished ∧ d.reason = r) :
    (s.eachDispatched f).holds c.order fun d => d.stage = .finished ∧ d.reason = r := by
  have other : ∀ (P : Cmd → Prop), Cmd.Plain P → ∀ (t : State) (d : Cmd), d.order ≠ c.order → t.holds c.order P →
      (State.onDispatched f t d).holds c.order P := by
    intro P hP t d hd h
    unfold State.onDispatched
    split
    · rename_i e hf
      split
      · have : e.order = d.order := by simpa using List.find?_some hf
        exact hother t P hP e (this ▸ hd) h
      · exact h
    · exact h
  rw [eachDispatched_eq]
  refine foldl_own (I := fun t => t.pair = s.pair) (P := Cmd.Alike c) (State.onDispatched f) c ?_ (fun t d _ => other _ (plain_alike ha) t d)
    (fun t d _ => other _ (plain_ended r) t d) (fun t ht h => ?_) s.cmds s rfl hc hn (holds_self hc hn)
  · intro t d ht
    unfold State.onDispatched
    split
    · split
      · exact (hpair _ _).trans ht
      · exact ht
    · exact ht
  · obtain ⟨d, hf, hd', ho, hp⟩ := find_order h
    unfold State.onDispatched
    rw [hf]
    simp only
    rw [if_pos (by rw [hp.disp]; exact hd)]
    exact hown t d ht hp hd'

theorem eachDispatched_pair (s : State) (f : State → Cmd → State) (hpair : ∀ s d, (f s d).pair = s.pair) : (s.eachDispatched f).pair = s.pair := by
  rw [eachDispatched_eq]
  have : ∀ (l : List Cmd) (t : State), (l.foldl (State.onDispatched f) t).pair = t.pair := by
    intro l
    induction l with
    | nil => intro t; rfl
    | cons d l ih =>
      intro t
      rw [List.foldl_cons, ih]
      unfold State.onDispatched
      split
      · split
        · exact hpair _ _
        · rfl
      · rfl
  exact this _ _

/-- A secondary that takes over ends what it cannot vouch for (R447 step 3). -/
theorem inherit_ends (s : State) (c : Cmd) (hc : c ∈ s.cmds) (hn : (s.cmds.map Cmd.order).Nodup) (hd : c.disp.isSome = true)
    (hs : c.stage ≠ .finished) (ha : c.endsAtOnce) (h1 : s.digested c = false) (h2 : c.stepped = false)
    (h3 : ¬ (c.accumulates = true ∧ s.progressOf c = none)) :
    (s.eachDispatched State.inherit).holds c.order fun d => d.stage = .finished ∧ d.reason = .abortedReset := by
  refine eachDispatched_own _ s c hc hn hd ha inherit_pair (fun t P hP d ho h => inherit_other hP d h ho) fun t d ht hp hm => ?_
  obtain ⟨k1, k2, k3, k4, k5, -, -, k6, k7, k8, k9, k10⟩ := id hp
  unfold State.inherit
  have e1 : t.digested d = false := by rw [← h1]; simp only [State.digested, ht, k7, k8, k10]
  have e2 : d.stepped = false := by rw [← h2]; simp only [Cmd.stepped, k2]
  have e3 : (d.accumulates && (t.progressOf d).isNone) = false := by
    have : (c.accumulates && (s.progressOf c).isNone) = false := by
      rw [Bool.eq_false_iff]
      intro hh
      simp only [Bool.and_eq_true, Option.isNone_iff_eq_none] at hh
      exact h3 hh
    rw [← this]
    simp only [Cmd.accumulates, State.progressOf, ht, k2, k7, k8, k9]
  rw [e1, e2, e3]
  simp only [Bool.false_eq_true, if_false]
  rw [← k6]
  exact abandon_own _ ⟨d, hm, rfl⟩ (by rw [k1]; exact hs) (hp.endsAtOnce ha)

/-- A DETACH ends every dispatched packet that ends at once (R448). -/
theorem abandon_ends (s : State) (c : Cmd) (p : Nat × Nat) (hc : c ∈ s.cmds) (hn : (s.cmds.map Cmd.order).Nodup) (hd : c.disp.isSome = true)
    (hs : c.stage ≠ .finished) (ha : c.endsAtOnce) :
    (s.eachDispatched fun s c => s.abandon c p).holds c.order fun d => d.stage = .finished ∧ d.reason = .abortedReset := by
  refine eachDispatched_own _ s c hc hn hd ha (fun s d => abandon_pair s d p) (fun t P hP d ho h => abandon_other hP d p h ho) fun t d ht hp hm => ?_
  rw [← hp.order]
  exact abandon_own _ ⟨d, hm, rfl⟩ (by rw [hp.stage]; exact hs) (hp.endsAtOnce ha)

end Sys2Proof.Machine
end

