-- ==== Sys2Proof/Laws/Frames.lean ====
section
/-! SUPPORT. Frames of the operations that the rows share, one lemma each. -/

namespace Sys2Proof.Machine

/-- A tick moves the time and the counters that follow it only (R399, R479). -/
theorem tickE (s : State) (now : Time) : ∃ τ p, s.tick now = { s with timeNs := τ, perf := p } := ⟨_, _, tick_eq s now⟩

/-- A read of some bytes is a range behind the others. -/
theorem askRead_eq (s : State) (k : Traffic) (r : Nat) (q : U32) (i a n : Nat) (h : n ≠ 0) :
    s.askRead k r q i a n = { s with queue := s.queue ++ [⟨moverOf k i, false, addrWrap a, n, [], r, q, k, i, 0⟩] } := by
  unfold State.askRead State.ask
  rw [if_neg h]

/-- A 64-bit register holds an address of the address space. -/
theorem addrWrap64 (a : U64) : addrWrap a.toNat = a.toNat := by
  unfold addrWrap
  exact Nat.mod_eq_of_lt a.isLt

/-- A performance counter. -/
theorem perfAdd_frame (s : State) (n k : Nat) : ∃ p, s.perfAdd n k = { s with perf := p } := by
  unfold State.perfAdd; split <;> exact ⟨_, rfl⟩

/-- An event of class `c` goes to a command or to BG. -/
theorem charge_frame (s : State) (g : Range) (c k : Nat) : ∃ e x, s.charge g c k = { s with energy := e, cmds := x } := by
  unfold State.charge
  split
  · exact ⟨_, _, rfl⟩
  · unfold State.event
    split
    · split
      · exact ⟨_, _, rfl⟩
      · exact ⟨_, _, rfl⟩
    · exact ⟨_, _, rfl⟩

/-- Without a probe that waits there is none to issue (R385). -/
theorem probeIssue_idle (s : State) (h : ¬ (s.probe.busy = true ∧ s.probe.issued = false)) : s.probeIssue = s := by
  unfold State.probeIssue State.probePort
  rw [if_pos (by cases hb : s.probe.busy <;> simp_all)]

/-- The credits that a presented request of `n` beats takes. -/
def takeCredits (write : Bool) (n : Nat) (p : Port) : Port :=
  { p with
    reqCrd := p.reqCrd - 1
    wdCrd := if write then p.wdCrd - min p.wdCrd n else p.wdCrd
    wdOwed := if write then n - min p.wdCrd n else 0 }

/-- The transfer and the credits it takes, of a presented request. -/
def State.presented (s : State) (k tag op : Nat) (r : Range) (a l : Nat) : State :=
  { s.modPort k (takeCredits r.write (beatCount a l)) with
    xfers := s.xfers ++ [⟨k, tag, op, a, l, beatCount a l, 0, .ok, r, s.timeNs⟩] }

/-- What the presenting of a transfer does (R373, R374). -/
theorem present_frame (s : State) (k tag op : Nat) (r : Range) :
    (∃ e x p q, s.present k tag op r = { s with energy := e, cmds := x, perf := p, ports := q, xfers := (s.present k tag op r).xfers } ∧
      ∀ j, j ≠ k → tblGet portReset q j = s.port j) ∧
    (s.present k tag op r).xfers = s.xfers ++ [⟨k, tag, op, (firstTransfer r).2.1, (firstTransfer r).2.2,
      beatCount (firstTransfer r).2.1 (firstTransfer r).2.2, 0, .ok, r, s.timeNs⟩] ∧
    (s.present k tag op r).port k = { s.port k with
      reqCrd := (s.port k).reqCrd - 1
      wdCrd := if r.write then (s.port k).wdCrd - min (s.port k).wdCrd (beatCount (firstTransfer r).2.1 (firstTransfer r).2.2) else (s.port k).wdCrd
      wdOwed := if r.write then beatCount (firstTransfer r).2.1 (firstTransfer r).2.2 -
        min (s.port k).wdCrd (beatCount (firstTransfer r).2.1 (firstTransfer r).2.2) else 0 } := by
  rcases hf : firstTransfer r with ⟨n, a, l⟩
  have e : s.present k tag op r = (if r.write then ((s.presented k tag op r a l).charge r 12 (beatCount a l)).perfAdd 14 (beatCount a l)
      else s.presented k tag op r a l) := by unfold State.present State.presented; rw [hf]; rfl
  obtain ⟨e', x, p, h⟩ : ∃ e x p, s.present k tag op r = { s.presented k tag op r a l with energy := e, cmds := x, perf := p } := by
    rw [e]
    split
    · obtain ⟨e', x, hc⟩ := charge_frame (s.presented k tag op r a l) r 12 (beatCount a l)
      obtain ⟨p, hp⟩ := perfAdd_frame ((s.presented k tag op r a l).charge r 12 (beatCount a l)) 14 (beatCount a l)
      rw [hp, hc]
      exact ⟨_, _, _, rfl⟩
    · exact ⟨_, _, _, rfl⟩
  rw [h]
  refine ⟨⟨e', x, p, (s.presented k tag op r a l).ports, rfl, fun j hj => ?_⟩, rfl, ?_⟩
  · exact tblGet_modify_ne portReset s.ports (takeCredits r.write (beatCount a l)) hj
  · exact tblGet_modify_same portReset s.ports k (takeCredits r.write (beatCount a l))

/-- The presented transfer is outstanding (R373). -/
theorem probeIssue_spec (s : State) (k : Nat) (hk : s.probePort = some k) :
    (s.canIssue k (s.freeTag k) s.probeRange = true →
      s.probeIssue = ({ s with probe := { s.probe with issued := true } } : State).present k (s.freeTag k) s.probe.reqOp s.probeRange) ∧
    (s.canIssue k (s.freeTag k) s.probeRange = false → s.probeIssue = s) := by
  unfold State.probeIssue
  rw [hk]
  constructor
  · intro h; simp only [h, if_true]
  · intro h; simp only [h, Bool.false_eq_true, if_false]

/-- What the issue of a probe may move (R385). -/
theorem probeIssue_frame (s : State) : ∃ e x p q y i, s.probeIssue = { s with
      energy := e, cmds := x, perf := p, ports := q, xfers := y, probe := { s.probe with issued := i } } ∧
    ∀ j, (tblGet portReset q j).up = (s.port j).up := by
  cases hk : s.probePort with
  | none =>
    have : s.probeIssue = s := by unfold State.probeIssue; rw [hk]
    rw [this]
    exact ⟨s.energy, s.cmds, s.perf, s.ports, s.xfers, s.probe.issued, rfl, fun _ => rfl⟩
  | some k =>
    cases hc : s.canIssue k (s.freeTag k) s.probeRange with
    | true =>
      rw [(probeIssue_spec s k hk).1 hc]
      obtain ⟨⟨e, x, p, q, h, hj⟩, -, hp⟩ := present_frame ({ s with probe := { s.probe with issued := true } } : State) k (s.freeTag k) s.probe.reqOp s.probeRange
      generalize State.present _ _ _ _ _ = t at *
      refine ⟨e, x, p, q, t.xfers, true, h, fun j => ?_⟩
      by_cases hjk : j = k
      · subst hjk
        have : t.port j = tblGet portReset q j := by rw [h]; rfl
        rw [← this, hp]; rfl
      · rw [hj j hjk]; rfl
    | false =>
      rw [(probeIssue_spec s k hk).2 hc]
      exact ⟨s.energy, s.cmds, s.perf, s.ports, s.xfers, s.probe.issued, rfl, fun _ => rfl⟩

/-- Stage 4 ends with GO and a port in service (R452). -/
theorem bootAdvance_frame (s : State) : ∃ b q, s.bootAdvance = { s with boot := b, queue := q } ∧
    (s.boot.stage ≠ 4 → b = s.boot ∧ q = s.queue) ∧
    (s.boot.stage = 4 → s.boot.go = true → s.boot.failed = false → (∃ k < stackPorts s.build, s.inService k = true) → b.stage = 5) := by
  unfold State.bootAdvance
  split
  · rename_i hc
    obtain ⟨q, e⟩ := askRead_frame { s with boot := { s.boot with stage := 5 } } .param 0 0 0 s.boot.paramAddr.toNat 64
    exact ⟨_, q, e, fun h => absurd hc.1 h, fun _ _ _ _ => rfl⟩
  · rename_i hc
    refine ⟨_, _, rfl, fun _ => ⟨rfl, rfl⟩, fun h1 h2 h3 h4 => absurd ⟨h1, h2, ?_, ?_⟩ hc⟩
    · simp [h3]
    · obtain ⟨k, hk, hs⟩ := h4
      exact List.any_eq_true.2 ⟨k, List.mem_range.2 hk, hs⟩

/-- The boot sequencer goes on to stage 5, or stays. -/
theorem bootAdvance_spec (s : State) : ∃ b q, s.bootAdvance = { s with boot := b, queue := q } ∧
    (b = s.boot ∨ (s.boot.go = true ∧ b = { s.boot with stage := 5 })) := by
  unfold State.bootAdvance
  split
  · rename_i hc
    rw [askRead_eq _ _ _ _ _ _ _ (by decide)]
    exact ⟨_, _, rfl, .inr ⟨hc.2.1, rfl⟩⟩
  · exact ⟨_, _, rfl, .inl rfl⟩

/-- Transfers put back: all but the probe's and, in a halted block, all but those of commits, before the mover's others. -/
theorem again_foldr (l : List Range) (s : State) : ∃ p,
    l.foldr (fun g s => s.again g) s = { s with
      queue := l.filter (fun g => g.kind != .probe && (!s.halted || s.haltKeeps g)) ++ s.queue, probe := p } ∧
    ((∀ g ∈ l, g.kind ≠ .probe) → p = s.probe) ∧
    (∀ g, l.filter (fun g => g.kind == .probe) = [g] → p = { s.probe with issued := false, steered := true, tries := g.tries }) := by
  induction l with
  | nil => exact ⟨s.probe, rfl, fun _ => rfl, fun g h => by simp at h⟩
  | cons g l ih =>
    obtain ⟨p, e, h1, h2⟩ := ih
    rw [List.foldr_cons, e]
    unfold State.again
    by_cases hk : g.kind = .probe
    · refine ⟨{ p with issued := false, steered := true, tries := g.tries }, by rw [if_pos hk]; simp [hk], fun h => absurd hk (h g (List.mem_cons_self ..)), fun d hd => ?_⟩
      simp only [List.filter_cons, hk, beq_self_eq_true, if_true, List.cons.injEq] at hd
      have h3 : ∀ g ∈ l, g.kind ≠ .probe := by
        intro x hx hxk
        have := List.filter_eq_nil_iff.1 hd.2 x hx
        simp [hxk] at this
      rw [h1 h3, hd.1]
    · have hh : ∀ q p, ({ s with queue := q, probe := p } : State).halted = s.halted ∧
          ({ s with queue := q, probe := p } : State).haltKeeps g = s.haltKeeps g := fun _ _ => ⟨rfl, rfl⟩
      refine ⟨p, ?_, fun h => h1 fun x hx => h x (List.mem_cons_of_mem _ hx), fun d hd => h2 d ?_⟩
      · rw [if_neg hk, (hh _ _).1, (hh _ _).2]
        cases hh1 : s.halted <;> cases hh2 : s.haltKeeps g <;> simp [hk, hh2]
      · simpa [List.filter_cons, hk] using hd

/-- A port as its reset leaves it before a waiting probe is issued (R382). -/
def State.portDown (s : State) (k : Nat) : State :=
  let mine := s.xfers.filter fun x => x.port == k
  let s := { s with
    xfers := s.xfers.filter fun x => x.port != k
    drainWait := s.drainWait ++ mine.filter fun (x : Xfer) => x.op == 1 }
  let s := s.modPort k fun p => { p with up := false, reqCrd := 0, wdCrd := 0, wdOwed := 0, grant := none }
  let s := ((mine.filter fun (x : Xfer) => x.op == 0).map Xfer.range).foldr (fun g s => s.again g) s
  let s := (mine.filter fun (x : Xfer) => x.op == 2).foldl (fun s x => s.failXfer x 2) s
  if s.pins.drained.getLsbD k then s.reissueWrites k else s

theorem resetPort_eq (s : State) (k : Nat) : s.resetPort k = (s.portDown k).probeIssue := rfl

/-- The reset of a port without an add-write (R382). -/
theorem portDown_spec (s : State) (k : Nat) (h2 : ∀ x ∈ s.xfers, x.port = k → x.op ≠ 2) : portTakenDown s (s.portDown k) k := by
  have hq : ∀ n : Nat, ((s.xfers.filter fun x => x.port == k).filter fun (x : Xfer) => x.op == n) = s.xfers.filter fun x => x.port == k && x.op == n := by
    intro n; rw [List.filter_filter]; congr 1; funext x; exact Bool.and_comm _ _
  unfold State.portDown portTakenDown State.givenBack
  dsimp only
  rw [hq, hq, hq]
  have h2' : (s.xfers.filter fun x => x.port == k && x.op == 2) = [] := by
    rw [List.filter_eq_nil_iff]
    intro x hx hc
    simp only [Bool.and_eq_true, beq_iff_eq] at hc
    exact h2 x hx hc.1 hc.2
  rw [h2', List.foldl_nil]
  generalize hl : (s.xfers.filter fun x => x.port == k && x.op == 0).map Xfer.range = l
  generalize hm : (s.xfers.filter fun x => x.port == k && x.op == 1) = m
  obtain ⟨p, e, e1, e2⟩ := again_foldr l (State.modPort { s with
    xfers := s.xfers.filter fun x => x.port != k
    drainWait := s.drainWait ++ m } k fun p => { p with up := false, reqCrd := 0, wdCrd := 0, wdOwed := 0, grant := none })
  rw [e]
  have hp1 : ∀ j, j ≠ k → tblGet portReset (tblModify portReset s.ports k fun p => { p with up := false, reqCrd := 0, wdCrd := 0, wdOwed := 0, grant := none }) j = s.port j :=
    fun j hj => tblGet_modify_ne _ _ _ hj
  have hp2 : tblGet portReset (tblModify portReset s.ports k fun p => { p with up := false, reqCrd := 0, wdCrd := 0, wdOwed := 0, grant := none }) k =
      { s.port k with up := false, reqCrd := 0, wdCrd := 0, wdOwed := 0, grant := none } := tblGet_modify_same _ _ _ _
  cases hd : s.pins.drained.getLsbD k with
  | false =>
    rw [if_neg (by show ¬ s.pins.drained.getLsbD k = true; simp [hd])]
    simp only [Bool.false_eq_true, if_false, List.nil_append]
    exact ⟨rfl, rfl, rfl, hp1, hp2, e1, e2, rfl⟩
  | true =>
    rw [if_pos (by show s.pins.drained.getLsbD k = true; exact hd)]
    simp only [if_true]
    unfold State.reissueWrites
    dsimp only
    have hw : ((s.drainWait ++ m).filter fun x => x.port == k) = (s.drainWait.filter fun x => x.port == k) ++ m := by
      rw [List.filter_append]
      congr 1
      rw [List.filter_eq_self, ← hm]
      intro x hx
      have := (List.mem_filter.1 hx).2
      simp only [Bool.and_eq_true] at this
      exact this.1
    have hw' : ((s.drainWait ++ m).filter fun x => x.port != k) = s.drainWait.filter fun x => x.port != k := by
      rw [List.filter_append, ← hm]
      have : (List.filter (fun x => x.port != k) (List.filter (fun x : Xfer => x.port == k && x.op == 1) s.xfers)) = [] := by
        rw [List.filter_eq_nil_iff]
        intro x hx
        have := (List.mem_filter.1 hx).2
        simp only [Bool.and_eq_true, beq_iff_eq] at this
        simp [this.1]
      rw [this, List.append_nil]
    change (List.filter (fun x => x.port == k) (s.drainWait ++ m)) = _ at hw
    rw [show (State.modPort { s with xfers := s.xfers.filter fun x => x.port != k, drainWait := s.drainWait ++ m } k fun p =>
      { p with up := false, reqCrd := 0, wdCrd := 0, wdOwed := 0, grant := none }).drainWait = s.drainWait ++ m from rfl, hw, hw']
    generalize (s.drainWait.filter fun x => x.port == k) = w
    generalize hS : ({ State.modPort _ k _ with queue := _, probe := p, drainWait := _ } : State) = S
    obtain ⟨p', e', e1', e2'⟩ := again_foldr ((w ++ m).map Xfer.range) S
    rw [e', ← hS]
    refine ⟨rfl, ?_, rfl, hp1, hp2, fun h => ?_, fun g hg => ?_, rfl⟩
    · rw [List.filter_append, List.append_assoc]; rfl
    · exact (e1' fun g hg => h g (List.mem_append_left _ hg)).trans (hS ▸ e1 fun g hg => h g (List.mem_append_right _ hg))
    · rw [List.filter_append, List.append_eq_singleton_iff] at hg
      rcases hg with ⟨h1, h2⟩ | ⟨h1, h2⟩
      · have := e1' fun g hg hk => by simpa [hk] using List.filter_eq_nil_iff.1 h1 g hg
        rw [this, ← hS]
        exact e2 g h2
      · have := e2' g h1
        rw [this, ← hS]
        have := e1 fun g hg hk => by simpa [hk] using List.filter_eq_nil_iff.1 h2 g hg
        show ({ p with issued := false, steered := true, tries := g.tries } : PortProbe) = _
        rw [this]; rfl

/-- `t` has the queue, the build and the memory of `s`, and every port has its level of stk_k_up. -/
structure SameBus (s t : State) : Prop where
  pending : t.pending = s.pending
  build : t.build = s.build
  mem : t.mem = s.mem
  up : ∀ j, (t.port j).up = (s.port j).up

theorem SameBus.refl (s : State) : SameBus s s := ⟨rfl, rfl, rfl, fun _ => rfl⟩

theorem SameBus.trans {a b c : State} (h : SameBus a b) (k : SameBus b c) : SameBus a c :=
  ⟨k.pending.trans h.pending, k.build.trans h.build, k.mem.trans h.mem, fun j => (k.up j).trans (h.up j)⟩

theorem SameBus.foldl {α : Type} (f : State → α → State) (h : ∀ s x, SameBus s (f s x)) (l : List α) (s : State) : SameBus s (l.foldl f s) := by
  induction l generalizing s with
  | nil => exact .refl s
  | cons x l ih => exact (h s x).trans (ih _)

theorem Kept.bus {s t : State} (h : Kept s t) : SameBus s t :=
  ⟨(congrArg State.pending h.lasting : _), (congrArg State.build h.lasting : _), (congrArg State.mem h.lasting : _),
    fun j => by
      have e : t.ports = s.ports := (congrArg State.ports h.lasting : _)
      simp only [State.port, e]⟩

theorem modPort_bus (s : State) (k : Nat) (f : Port → Port) (h : ∀ p, (f p).up = p.up) : SameBus s (s.modPort k f) :=
  ⟨rfl, rfl, rfl, fun j => by
    by_cases e : j = k
    · subst e; rw [modPort_port_same, h]
    · rw [modPort_port_ne _ _ e]⟩

theorem bootFail_bus (s : State) (k d : Nat) : SameBus s (s.bootFail k d) := by
  unfold State.bootFail; split
  · exact .refl s
  · exact ⟨rfl, rfl, rfl, fun _ => rfl⟩

theorem failClass_kept (s : State) (c : Cmd) (k : Traffic) (i a : Nat) : Kept s (s.failClass c k i a) := by
  unfold State.failClass
  repeat' split
  all_goals first | exact setCmd_kept _ _ | exact refuse_kept _ _ _ | exact endWork_kept _ _ _

theorem failTraffic_bus (s : State) (g : Range) (p : Nat) : SameBus s (s.failTraffic g p) := by
  unfold State.failTraffic
  split
  case h_7 =>
    split
    · exact .refl s
    · split
      · exact .refl s
      · split
        · exact (failClass_kept _ _ _ _ _).bus
        · exact ((unpause_kept _ _).trans (refuse_kept _ _ _)).bus
  all_goals first | exact ⟨rfl, rfl, rfl, fun _ => rfl⟩ | exact bootFail_bus _ _ _

theorem failPort_up (op m a k : Nat) (p : Port) : (failPort op m a k p).up = p.up := by
  unfold failPort
  dsimp only
  split
  · rfl
  · rfl

theorem failXfer_bus (s : State) (x : Xfer) (k : Nat) : SameBus s (s.failXfer x k) := by
  have h : SameBus s ((((s.modPort x.port (failPort x.op x.range.mover x.start k)).raise 6).raise 1).failTraffic x.range x.port) := by
    have h1 : SameBus s (s.modPort x.port (failPort x.op x.range.mover x.start k)) :=
      modPort_bus s x.port (failPort x.op x.range.mover x.start k) (failPort_up _ _ _ _)
    have h2 : SameBus s (((s.modPort x.port (failPort x.op x.range.mover x.start k)).raise 6).raise 1) := h1.trans ⟨rfl, rfl, rfl, fun _ => rfl⟩
    exact h2.trans (failTraffic_bus _ _ _)
  unfold State.failXfer
  dsimp only
  split
  · exact h.trans ⟨rfl, rfl, rfl, fun _ => rfl⟩
  · exact h

theorem again_bus (s : State) (g : Range) : SameBus s (s.again g) := by
  unfold State.again
  repeat' split
  all_goals exact ⟨rfl, rfl, rfl, fun _ => rfl⟩

theorem again_foldr_bus (l : List Range) (s : State) : SameBus s (l.foldr (fun g s => s.again g) s) := by
  induction l with
  | nil => exact .refl s
  | cons g l ih => exact ih.trans (again_bus _ _)

theorem reissueWrites_bus (s : State) (k : Nat) : SameBus s (s.reissueWrites k) := by
  unfold State.reissueWrites
  exact SameBus.trans (b := { s with drainWait := s.drainWait.filter fun x => x.port != k }) ⟨rfl, rfl, rfl, fun _ => rfl⟩ (again_foldr_bus _ _)

theorem probeIssue_bus (s : State) : SameBus s s.probeIssue := by
  obtain ⟨e, x, p, q, y, i, h, hj⟩ := probeIssue_frame s
  rw [h]
  exact ⟨rfl, rfl, rfl, hj⟩

/-- The reset of a port with whatever is outstanding on it: stk_k_up falls, and no other port's does (R382). -/
theorem resetPort_bus (s : State) (k : Nat) : (s.resetPort k).pending = s.pending ∧ (s.resetPort k).build = s.build ∧
    (s.resetPort k).mem = s.mem ∧ ∀ j, ((s.resetPort k).port j).up = if j = k then false else (s.port j).up := by
  have key : ∀ u : State, u.pending = s.pending → u.build = s.build → u.mem = s.mem →
      (∀ j, (u.port j).up = if j = k then false else (s.port j).up) → ∀ t, SameBus u t → t.pending = s.pending ∧ t.build = s.build ∧
      t.mem = s.mem ∧ ∀ j, (t.port j).up = if j = k then false else (s.port j).up :=
    fun u h1 h2 h3 h4 t h => ⟨h.pending.trans h1, h.build.trans h2, h.mem.trans h3, fun j => (h.up j).trans (h4 j)⟩
  unfold State.resetPort
  extract_lets m v w x y
  refine key w rfl rfl rfl (fun j => ?_) _ ?_
  · by_cases h : j = k
    · subst h; rw [if_pos rfl]; exact congrArg Port.up (modPort_port_same v j _)
    · rw [if_neg h]; exact congrArg Port.up (modPort_port_ne _ _ h)
  · have hx : SameBus w x := again_foldr_bus _ _
    have hy : SameBus w y := hx.trans (SameBus.foldl _ (fun s x => failXfer_bus s x 2) _ _)
    refine SameBus.trans ?_ (probeIssue_bus _)
    split
    · exact hy.trans (reissueWrites_bus _ _)
    · exact hy

/-- The resets of several ports (R382, R450). -/
theorem resetPorts_bus (l : List Nat) (s : State) : (l.foldl State.resetPort s).pending = s.pending ∧ (l.foldl State.resetPort s).build = s.build ∧
    (l.foldl State.resetPort s).mem = s.mem ∧ ∀ j, ((l.foldl State.resetPort s).port j).up = if j ∈ l then false else (s.port j).up := by
  induction l generalizing s with
  | nil => exact ⟨rfl, rfl, rfl, fun j => by simp⟩
  | cons k l ih =>
    obtain ⟨h1, h2, h3, h4⟩ := ih (s.resetPort k)
    obtain ⟨g1, g2, g3, g4⟩ := resetPort_bus s k
    refine ⟨h1.trans g1, h2.trans g2, h3.trans g3, fun j => ?_⟩
    rw [List.foldl_cons, h4 j, g4 j]
    by_cases hk : j = k <;> simp [hk]

/-- A state that the frame of a row does not change. -/
theorem keep_of_parts {s t : State} (h1 : t.pending = s.pending) (h2 : t.build = s.build) (h3 : t.mem = s.mem) : s.keep t = t := by
  unfold State.keep; rw [← h1, ← h2, ← h3]

/-- The marks of a protocol error on a port (R381). -/
def protoMark (cause : Nat) (p : Port) : Port := { p with protoErr := true, oos := true, protoCause := cause, errCount := p.errCount + 1 }

/-- A protocol error (R381). -/
theorem protoError_spec {s u : State} (k cause : Nat) (hu : u.pending = s.pending ∧ u.build = s.build ∧ u.mem = s.mem) :
    protocolError u (s.keep (u.protoError k cause)) k cause := by
  have h := resetPort_bus (((u.modPort k (protoMark cause)).raise 6).raise 2) k
  have e : s.keep (u.protoError k cause) = u.protoError k cause := by
    refine keep_of_parts ?_ ?_ ?_
    · exact h.1.trans hu.1
    · exact h.2.1.trans hu.2.1
    · exact h.2.2.1.trans hu.2.2
  rw [e]
  refine ⟨((u.modPort k (protoMark cause)).raise 6).raise 2, rfl, (h.2.2.2 k).trans (by simp),
    fun j hj => tblGet_modify_ne portReset u.ports (protoMark cause) hj, tblGet_modify_same portReset u.ports k (protoMark cause), ?_⟩
  have e : u.flt.pend ||| BitVec.ofNat 10 (2 ^ 6) ||| BitVec.ofNat 10 (2 ^ 2) = u.flt.pend ||| 68#10 := by
    rw [BitVec.or_assoc]; rfl
  unfold State.raise
  dsimp only [State.modPort]
  rw [e]

/-- REPLACE_REQUEST (R435). -/
theorem checkReplace_frame (s : State) : ∃ r p, s.checkReplace = { s with flt := { s.flt with replace := r, pend := p } } := by
  unfold State.checkReplace; split
  · exact ⟨_, _, rfl⟩
  · exact ⟨_, _, rfl⟩

/-- A function that is in reset already starts no reset. -/
theorem fnStart_again {s : State} (h : s.fnReset 0 = true) : s.fnStart 0 = s := by
  unfold State.fnStart
  rw [if_neg (by simp)]
  unfold State.fnNow
  rw [if_pos h]

/-- The width at a boundary of the Acre (R90 to R92). -/
theorem refreshWidth_frame (s : State) (hz : s.rowHalfNow = 3 → s.fnReset 0 = true) : ∃ a g r p, s.refreshWidth =
      { s with acre := a, granary := g, flt := { s.flt with replace := r, pend := p } } ∧
    a.spareCol = s.acre.spareCol ∧ a.spareRow = s.acre.spareRow ∧
    (s.acre.run.isSome = true → a.cEff = s.acre.cEff ∧ a.rowHalf = s.acre.rowHalf) ∧
    (s.acre.run.isSome = false → a.rowHalf = s.rowHalfNow ∧ a.cEff = effectiveCols s.usableCols (decide (s.energy.level.val = 3))) := by
  obtain ⟨r, p, e⟩ := checkReplace_frame s
  have key : ∀ t : State, t.fnReset 0 = s.fnReset 0 → t.rowHalfNow = s.rowHalfNow → (if t.rowHalfNow = 3 then t.fnStart 0 else t) = t := by
    intro t a b
    split
    · rename_i h; exact fnStart_again (a ▸ hz (b ▸ h))
    · rfl
  unfold State.refreshWidth
  rw [e]
  dsimp only
  split
  · rename_i hc
    rw [key { s with flt := { s.flt with replace := r, pend := p } } rfl rfl]
    exact ⟨s.acre, s.granary, r, p, rfl, rfl, rfl, fun _ => ⟨rfl, rfl⟩, fun h => absurd hc (by rw [h]; exact Bool.false_ne_true)⟩
  · rename_i hc
    rw [key (State.switchBanks (State.applyWidth { s with flt := { s.flt with replace := r, pend := p } })) rfl rfl]
    exact ⟨_, _, r, p, rfl, rfl, rfl, fun h => absurd h hc, fun _ => ⟨rfl, rfl⟩⟩

/-- Four words of a table. -/
theorem put4 (t : Tbl U32) (a b c d : U32) :
    let q := [(0, a), (1, b), (2, c), (3, d)].foldl (fun (t : Tbl U32) (e : Nat × U32) => tblSet 0 t e.1 e.2) t
    tblGet 0 q 0 = a ∧ tblGet 0 q 1 = b ∧ tblGet 0 q 2 = c ∧ tblGet 0 q 3 = d := by
  simp only [List.foldl]
  refine ⟨?_, ?_, ?_, ?_⟩ <;> simp [tblGet_set_same, tblGet_set_ne]

/-- The Sower probe (R157). -/
theorem sowDone_eq (s : State) (hb : s.win.sowBusy = true) : ∃ q, sowDoneDo s = { s with win := { s.win with sowBusy := false, sowOut := q } } ∧
    (let o := sowMix (tblGet 0 s.win.sowKey 0) (tblGet 0 s.win.sowKey 1)
         ⟨tblGet 0 s.win.sowCtr 0, tblGet 0 s.win.sowCtr 1, tblGet 0 s.win.sowCtr 2, tblGet 0 s.win.sowCtr 3⟩
     tblGet 0 q 0 = o.x0 ∧ tblGet 0 q 1 = o.x1 ∧ tblGet 0 q 2 = o.x2 ∧ tblGet 0 q 3 = o.x3) := by
  unfold sowDoneDo
  rw [if_neg (by simp [hb])]
  exact ⟨_, rfl, put4 _ _ _ _ _⟩

/-- The planner's decision touches the commands and the energy unit only (R415). -/
theorem decideOn_frame (s : State) (b : Bool) (c : Cmd) (p : Nat) (big : Bool) : ∃ e x, s.decideOn b c p big = { s with energy := e, cmds := x } := by
  unfold State.decideOn
  split
  · exact ⟨_, _, rfl⟩
  · split
    · split <;> exact ⟨_, _, rfl⟩
    · split <;> exact ⟨_, _, rfl⟩

/-- A consideration touches the commands and the energy unit only (R415). -/
theorem consider_frame (s : State) (b : Bool) (c : Cmd) : ∃ e x, s.consider b c = { s with energy := e, cmds := x } := by
  unfold State.consider
  exact decideOn_frame { s with energy := { s.energy with lastProj := BitVec.ofNat 32 (sat32 (s.projection c)) } } b c _ _

/-- Settling starts no reset. -/
theorem settle_inReset (s : State) : s.settle.flt.inReset = s.flt.inReset := (congrArg (fun x : State => x.flt.inReset) (settle_still s) : _)

/-- STATE of the pair (R441). -/
theorem setPair_pair (s : State) (n : Nat) : (s.setPair n).pair = { s.pair with state := n } := by
  unfold State.setPair
  split
  · rename_i h; rw [← h]
  · rfl

/-- The end of a following (R447, R448). -/
theorem endPair (u : State) (n : Nat) (hn : n ≠ 2) :
    (((State.dropEntries { u with pair := { u.pair with holding := false } }).setPair n).settle).pair =
      { u.pair with holding := false, dispatches := [], checks := [], commits := [], progress := [], theirs := [], state := n } := by
  have h : ((State.dropEntries { u with pair := { u.pair with holding := false } }).setPair n).pair =
      { u.pair with holding := false, dispatches := [], checks := [], commits := [], progress := [], theirs := [], state := n } := by
    rw [setPair_pair]; rfl
  rw [(settle_adv _).pair ?_]
  · exact h
  · unfold State.solo; rw [h]; exact ⟨hn, rfl⟩

/-- An ended packet stays ended. -/
theorem endPair_holds (u : State) (n o : Nat) (r : Reason) (h : u.holds o fun d => d.stage = .finished ∧ d.reason = r) :
    (((State.dropEntries { u with pair := { u.pair with holding := false } }).setPair n).settle).holds o fun d => d.stage = .finished ∧ d.reason = r := by
  refine (settle_adv _).cmds _ _ (stable_ended r) (holds_of_cmds h ?_)
  exact (setPair_parts (State.dropEntries { u with pair := { u.pair with holding := false } }) n).1

/-- A frame leaves or waits (R397). -/
theorem sendPair_length (s : State) (t : Nat) (p : List Byte) (hl : s.build.pairLink = true) :
    (∃ x y, s.sendPair t p = { s with pair := x, energy := { s.energy with bgEvents := y } } ∧
      x.unacked.length + x.queue.length = s.pair.unacked.length + s.pair.queue.length + 1 ∧
      x.state = s.pair.state ∧ x.mismatch = s.pair.mismatch ∧ x.en = s.pair.en ∧ x.role = s.pair.role ∧ x.auto = s.pair.auto ∧ x.holding = s.pair.holding) := by
  unfold State.sendPair
  rw [if_neg (by simp [hl])]
  split
  · refine ⟨_, _, rfl, ?_, rfl, rfl, rfl, rfl, rfl, rfl⟩
    simp; omega
  · refine ⟨_, s.energy.bgEvents, rfl, ?_, rfl, rfl, rfl, rfl, rfl, rfl⟩
    simp; omega

/-- A start in a stage has not failed. -/
theorem inStage_parts {s : State} {n : Nat} (h : s.inStage n = true) : s.powered = true ∧ s.boot.stage = n ∧ s.boot.failed = false := by
  simp only [State.inStage, Bool.and_eq_true, beq_iff_eq, Bool.not_eq_true'] at h
  exact ⟨h.1.1, h.1.2, h.2⟩

/-- A start that fails (R461). -/
theorem bootFail_eq (s : State) (h : s.boot.failed = false) (k d : Nat) : s.bootFail k d =
    { s with pins := { s.pins with barrierOut := false }, boot := { s.boot with failed := true, failCode := k, failDetail := d } } := by
  unfold State.bootFail
  rw [if_neg (by simp [h])]

/-- A shadow takes eight granules of the pool (R115). -/
theorem giveShadow_spec (s : State) (g : Nat) : ∃ gr f,
    (s.giveShadow g) = { s with granary := gr, fields := f, barn := { s.barn with poolFree := (s.giveShadow g).barn.poolFree } } ∧
    (((s.giveShadow g).granary.shadows = s.granary.shadows ∧ (s.giveShadow g).barn.poolFree = s.barn.poolFree) ∨
     ((s.giveShadow g).granary.shadows = s.granary.shadows + 1 ∧ (s.giveShadow g).barn.poolFree + 8 = s.barn.poolFree ∧ s.granary.shadows < 8)) := by
  unfold State.giveShadow
  simp only
  split
  · rename_i h
    refine ⟨_, _, rfl, .inr ⟨rfl, ?_, h.1⟩⟩
    have : 8 ≤ s.barn.poolFree := h.2
    show s.barn.poolFree - 8 + 8 = s.barn.poolFree
    omega
  · exact ⟨_, _, rfl, .inl ⟨rfl, rfl⟩⟩

/-- Shadows of several banks (R115). -/
theorem shadows_spec (l : List (Nat × Nat)) (s : State) : ∃ gr f p,
    l.foldl (fun (s : State) (e : Nat × Nat) => s.giveShadow e.1) s = { s with granary := gr, fields := f, barn := { s.barn with poolFree := p } } ∧
    s.granary.shadows ≤ gr.shadows ∧ p + 8 * (gr.shadows - s.granary.shadows) = s.barn.poolFree ∧ (s.granary.shadows ≤ 8 → gr.shadows ≤ 8) := by
  induction l generalizing s with
  | nil => exact ⟨_, _, _, rfl, Nat.le_refl _, by simp, fun h => h⟩
  | cons e l ih =>
    obtain ⟨gr, f, e1, h1⟩ := giveShadow_spec s e.1
    obtain ⟨gr', f', p', e2, h2, h3, h4⟩ := ih (s.giveShadow e.1)
    have hb : (s.giveShadow e.1).barn = { s.barn with poolFree := (s.giveShadow e.1).barn.poolFree } := congrArg State.barn e1
    refine ⟨gr', f', p', ?_, ?_, ?_, ?_⟩
    · rw [List.foldl_cons, e2, e1]
    · rcases h1 with h1 | h1 <;> omega
    · rcases h1 with h1 | h1 <;> omega
    · rcases h1 with h1 | h1 <;> omega

/-- An accepted parameter block (R117, R459). -/
theorem paramsApply_spec (p : List Byte) (s : State) : ∃ gr f pf rp,
    paramsApply p s = { s with
      granary := gr, fields := f, flt := { s.flt with replace := rp }, boot := { s.boot with stage := 6 }
      barn := ⟨leNat p 8 4, leNat p 12 1 == 1, leNat p 16 4, barnGranules s.build - fixedGranules s.build (leNat p 8 4) (leNat p 12 1 == 1) (leNat p 16 4), pf⟩ } ∧
    s.granary.shadows ≤ gr.shadows ∧ pf + 8 * (gr.shadows - s.granary.shadows) =
      barnGranules s.build - fixedGranules s.build (leNat p 8 4) (leNat p 12 1 == 1) (leNat p 16 4) ∧ (s.granary.shadows ≤ 8 → gr.shadows ≤ 8) := by
  unfold paramsApply
  simp only
  generalize barnGranules s.build - fixedGranules s.build (leNat p 8 4) (leNat p 12 1 == 1) (leNat p 16 4) = pool
  obtain ⟨gr, f, pf, e, h1, h2, h3⟩ := shadows_spec (uncovered s.granary.spare (s.granary.moved.map fun (b : Nat) => (b / 64, b)))
    { s with barn := ⟨leNat p 8 4, leNat p 12 1 == 1, leNat p 16 4, pool, pool⟩ }
  rw [e]
  exact ⟨gr, f, pf, _, rfl, h1, h2, h3⟩

/-- A write of a read-only register does nothing (R11, R387). -/
theorem readOnly_write (r : Reg) (v : U32) (s : State) (h : isReadOnly r = true) : regWriteDo r v s = s := by
  unfold regWriteDo
  cases r <;> first | exact absurd (show false = true from h) Bool.false_ne_true | rfl

/-- The frame of a row keeps the registers. -/
theorem keep_kbr (s t : State) : keptByReset t (s.keep t) := by
  exact ⟨rfl, rfl, rfl, rfl, rfl, rfl, fun _ => rfl, fun _ => rfl, rfl, rfl, rfl, rfl, rfl, rfl, rfl, rfl, rfl, fun _ _ => rfl, rfl, rfl⟩

/-- The start of a per-function reset leaves HOLD (R432). -/
theorem fnStart_hold (s : State) (n : Nat) : (s.fnStart n).flt.hold = s.flt.hold := by
  cases h : s.resetWaits n with
  | true => rw [fnStart_waits h]
  | false =>
    rw [fnStart_now h]
    by_cases hr : s.fnReset n = true
    · unfold State.fnNow; rw [if_pos hr]
    · rw [(fnNow_kept s n (by simpa using hr)).hold]
      exact (congrArg (fun x : State => x.flt.hold) (cutOffPhase_frame s n).1 : (s.cutOffPhase n).flt.hold = _)

/-- The start of several per-function resets (R432); that of the command processor may wait (R434). -/
theorem fnStarts (l : List Nat) (s : State) : keptByReset s (l.foldl State.fnStart s) ∧ (l.foldl State.fnStart s).flt.hold = s.flt.hold ∧
    ∀ m < 10, m ≠ 4 → (l.foldl State.fnStart s).fnReset m = (s.fnReset m || decide (m ∈ l)) := by
  induction l generalizing s with
  | nil => exact ⟨(Kept.refl s).byReset, rfl, fun m _ _ => by simp⟩
  | cons n l ih =>
    obtain ⟨h1, h2, h3⟩ := ih (s.fnStart n)
    refine ⟨(fnStart_keptByReset s n).trans h1, h2.trans (fnStart_hold s n), fun m hm h4 => ?_⟩
    rw [List.foldl_cons, h3 m hm h4]
    have : (s.fnStart n).fnReset m = (s.fnReset m || decide (m = n)) := by
      cases h : s.resetWaits n with
      | true =>
        have hn : n = 4 := by
          unfold State.resetWaits at h
          simp only [Bool.and_eq_true, decide_eq_true_eq] at h
          exact h.1
        rw [fnStart_waits h, hn]
        simp [State.fnReset, h4]
      | false => exact fnStart_fnReset s n m hm h
    rw [this]
    simp only [List.mem_cons, Bool.decide_or, Bool.or_assoc]

/-- A change of the sag level in force (R418, R419). -/
theorem setLevel_frame (s : State) (l : SagLevel) (hz : s.rowHalfNow = 3 → s.fnReset 0 = true) : ∃ a g r p,
    s.setLevel l = { s with acre := a, granary := g, flt := { s.flt with replace := r, pend := p }, energy := { s.energy with level := l } } ∧
    a.spareCol = s.acre.spareCol ∧ a.spareRow = s.acre.spareRow := by
  unfold State.setLevel
  split
  · rename_i h; subst h; exact ⟨_, _, _, _, rfl, rfl, rfl⟩
  · unfold State.levelEffects
    simp only
    obtain ⟨a, g, r, p, e, h1, h2, -⟩ := refreshWidth_frame { s with
      energy := { s.energy with level := l }
      acre := { s.acre with
        clkHalf := decide (2 ≤ l.val)
        narrow := if s.acre.run.isNone = true ∨ s.pair.state ≠ 2 then decide (2 ≤ l.val) else s.acre.narrow
        shed := if s.acre.run.isNone = true ∨ s.pair.state ≠ 2 then decide (2 ≤ l.val) else s.acre.shed } } hz
    rw [e]
    exact ⟨a, g, r, _, rfl, h1, h2⟩

/-- ROW_HALF comes from the spare maps alone (R90). -/
theorem rowHalfNow_of {s t : State} (h1 : t.acre.spareCol = s.acre.spareCol) (h2 : t.acre.spareRow = s.acre.spareRow) (h3 : t.build = s.build) :
    t.rowHalfNow = s.rowHalfNow := by
  simp only [State.rowHalfNow, State.usableCols, State.badRows, h1, h2, h3]; rfl

/-- READY (R452, R462). -/
theorem fwReady_frame (s : State) (hr : s.rowHalfNow ≠ 3) : ∃ a g r p l, fwReadyDo s = { s with
    boot := { s.boot with stage := 8, ready := true }, acre := a, granary := g, tenants := tenantsAt s.timeNs
    energy := { s.energy with level := l, epoch := epochOf s.timeNs s.energy.epochUs, lastSample := s.timeNs, tick := tickOf s.timeNs }
    flt := { s.flt with inReset := s.pins.fnLow, replace := r, pend := p } } ∧
    l = if s.pins.sag.val = 0 then s.energy.level else s.pins.sag := by
  have key : ∀ u : State, u.rowHalfNow ≠ 3 → ∃ a g r p l, (if u.pins.sag.val = 0 then u else u.setLevel u.pins.sag).refreshWidth = { u with
      acre := a, granary := g, energy := { u.energy with level := l }, flt := { u.flt with replace := r, pend := p } } ∧
      l = if u.pins.sag.val = 0 then u.energy.level else u.pins.sag := by
    intro u hu
    split
    · obtain ⟨a, g, r, p, e, -⟩ := refreshWidth_frame u (fun hh => absurd hh hu)
      rw [e]
      exact ⟨a, g, r, p, u.energy.level, rfl, rfl⟩
    · obtain ⟨a, g, r, p, e, h1, h2⟩ := setLevel_frame u u.pins.sag (fun hh => absurd hh hu)
      have hv : (u.setLevel u.pins.sag).rowHalfNow ≠ 3 := by
        rw [rowHalfNow_of (s := u) (by rw [e]; exact h1) (by rw [e]; exact h2) (by rw [e])]; exact hu
      obtain ⟨a', g', r', p', e', -⟩ := refreshWidth_frame (u.setLevel u.pins.sag) (fun hh => absurd hh hv)
      rw [e', e]
      exact ⟨a', g', r', p', u.pins.sag, rfl, rfl⟩
  unfold fwReadyDo
  dsimp only
  generalize tenantsAt s.timeNs = T
  obtain ⟨a', g, r, p, l, h, h'⟩ := key { s with
    boot := { s.boot with stage := 8, ready := true }
    energy := { s.energy with epoch := epochOf s.timeNs s.energy.epochUs, lastSample := s.timeNs, tick := tickOf s.timeNs }
    flt := { s.flt with inReset := s.pins.fnLow }, tenants := T } hr
  exact ⟨a', g, r, p, l, h, h'⟩

/-! ### The grants of the ports (R384) -/

/-- Grants alone make no mover's request. -/
theorem moverPiece_grants {s : State} {q : Tbl Port} (h : ∀ k, (tblGet portReset q k).withGrant (s.port k) = s.port k) (m k : Nat) :
    ({ s with ports := q } : State).moverPiece m k = s.moverPiece m k := by
  have e : ∀ k, ({ s with ports := q } : State).inService k = s.inService k := by
    intro k
    have := h k
    unfold State.inService
    rw [← this]
    rfl
  have e' : ∀ a, ({ s with ports := q } : State).steerPort a = s.steerPort a := by
    intro a
    unfold State.steerPort
    simp only [e]
  unfold State.moverPiece
  simp only [e']
  rfl

/-- The end of one port's grant (R384). -/
theorem endGrant_spec (s : State) (k : Nat) : ∃ q, s.endGrant k = { s with ports := q } ∧
    (∀ j, (tblGet portReset q j).withGrant (s.port j) = s.port j) ∧ (∀ j, j ≠ k → tblGet portReset q j = s.port j) ∧
    (tblGet portReset q k).grant = (match (s.port k).grant with
      | some e => if (s.moverPiece e.1 k).isNone then none else some e
      | none => none) := by
  unfold State.endGrant
  cases hg : (s.port k).grant with
  | none => exact ⟨s.ports, rfl, fun _ => rfl, fun _ _ => rfl, hg⟩
  | some e =>
    rcases e with ⟨g, i⟩
    dsimp only
    cases hp : s.moverPiece g k with
    | some r => exact ⟨s.ports, rfl, fun _ => rfl, fun _ _ => rfl, by simpa [State.port] using hg⟩
    | none =>
      refine ⟨tblModify portReset s.ports k fun p => { p with grant := none }, rfl, fun j => ?_, fun j hj => tblGet_modify_ne _ _ _ hj, ?_⟩
      · by_cases hj : j = k
        · subst hj; rw [tblGet_modify_same]; rfl
        · rw [tblGet_modify_ne _ _ _ hj]; rfl
      · rw [tblGet_modify_same]; rfl

/-- The ends of all grants whose movers stopped requesting (R384). -/
theorem endGrants_spec (s : State) : ∃ q, s.endGrants = { s with ports := q } ∧
    (∀ j, (tblGet portReset q j).withGrant (s.port j) = s.port j) ∧ grantsGoOn s s.endGrants := by
  have key : ∀ n, ∃ q, (List.range n).foldl State.endGrant s = { s with ports := q } ∧
      (∀ j, (tblGet portReset q j).withGrant (s.port j) = s.port j) ∧
      ∀ j, (tblGet portReset q j).grant = (match (s.port j).grant with
        | some e => if j < n ∧ (s.moverPiece e.1 j).isNone then none else some e
        | none => none) := by
    intro n
    induction n with
    | zero =>
      refine ⟨s.ports, rfl, fun _ => rfl, fun j => ?_⟩
      change (s.port j).grant = _
      cases (s.port j).grant <;> simp
    | succ n ih =>
      obtain ⟨q, e, h1, h2⟩ := ih
      obtain ⟨q', e', g1, g2, g3⟩ := endGrant_spec ((List.range n).foldl State.endGrant s) n
      rw [List.range_succ, List.foldl_append, List.foldl_cons, List.foldl_nil]
      rw [e] at e' g1 g2 g3
      refine ⟨q', e ▸ e', fun j => ?_, fun j => ?_⟩
      · have a := g1 j
        have b := h1 j
        change (tblGet portReset q' j).withGrant (tblGet portReset q j) = tblGet portReset q j at a
        rw [← b, ← a]; rfl
      · by_cases hj : j = n
        · subst hj
          rw [g3]
          change (match (tblGet portReset q j).grant with
            | some e => _
            | none => _) = _
          rw [h2 j]
          cases hg : (s.port j).grant with
          | none => rfl
          | some e =>
            dsimp only
            rw [if_neg (by omega)]
            dsimp only
            rw [moverPiece_grants h1]
            simp
        · rw [g2 j hj]
          change (tblGet portReset q j).grant = _
          rw [h2 j]
          cases (s.port j).grant with
          | none => rfl
          | some e =>
            have : (j < n + 1 ∧ (s.moverPiece e.1 j).isNone = true) ↔ (j < n ∧ (s.moverPiece e.1 j).isNone = true) := by
              constructor <;> rintro ⟨a, b⟩ <;> exact ⟨by omega, b⟩
            simp only [this]
  obtain ⟨q, e, h1, h2⟩ := key 24
  refine ⟨q, e, h1, fun k => ?_⟩
  unfold State.endGrants
  rw [e]
  refine (h2 k).trans ?_
  cases (s.port k).grant with
  | none => rfl
  | some e => dsimp only; rw [moverPiece_grants h1]

end Sys2Proof.Machine
end

