-- ==== Sys2Proof/Laws/Commands.lean ====
section
/-! SUPPORT. How a packet leaves its ring: what the row of a control command and of a class command finds, and what the end of
a hold and the entry into a class queue do, once each. -/

namespace Sys2Proof.Machine

theorem waiting_mem {s : State} {r : Nat} {c : Cmd} (h : s.waiting r = some c) : c ∈ s.cmds := List.mem_of_find?_eq_some h

theorem waiting_parts {s : State} {r : Nat} {c : Cmd} (h : s.waiting r = some c) : c.ring = r ∧ c.disp = none ∧ c.stage ≠ .finished := by
  have := List.find?_some h
  simp only [Bool.and_eq_true, beq_iff_eq, bne_iff_ne, Option.isNone_iff_eq_none] at this
  exact ⟨this.1.1, this.1.2, this.2⟩

theorem ctlFront_parts {s : State} {r op : Nat} {c : Cmd} (h : s.ctlFront r op = some c) : c ∈ s.cmds ∧ c.op = op ∧ c.ring = r ∧ c.disp = none ∧
    c.stage ≠ .finished := by
  unfold State.ctlFront at h
  split at h
  · rename_i d hd
    split at h
    · rename_i hc
      obtain rfl : d = c := by simpa using h
      simp only [Bool.and_eq_true, decide_eq_true_eq] at hc
      obtain ⟨h1, h2, h3⟩ := waiting_parts hd
      exact ⟨waiting_mem hd, hc.1.1.1, h1, h2, h3⟩
    · cases h
  · cases h

theorem classFront_parts {s : State} {r op : Nat} {c : Cmd} (h : s.classFront r op = some c) : c ∈ s.cmds ∧ c.op = op ∧ c.ring = r ∧ c.disp = none ∧
    c.stage = .waiting := by
  unfold State.classFront at h
  split at h
  · rename_i d hd
    split at h
    · rename_i hc
      obtain rfl : d = c := by simpa using h
      simp only [Bool.and_eq_true, decide_eq_true_eq, beq_iff_eq] at hc
      obtain ⟨h1, h2, h3⟩ := waiting_parts hd
      exact ⟨waiting_mem hd, hc.1.1.1.1, h1, h2, hc.1.2⟩
    · cases h
  · cases h

/-- The same as `finish_own`, with the body and the dispatch order. -/
theorem finish_body {s : State} {c : Cmd} (r : Reason) (b : Body) (h : ∃ d ∈ s.cmds, d.order = c.order) :
    (s.finish c r b).holds c.order fun d => d.endedWith r (cplBody b.fields) ∧ d.disp = c.disp := by
  have q : Quiet s (if (s.convert c).2.disp.isNone then (s.convert c).1.leaveBarrier (s.convert c).2.ring else (s.convert c).1) := by
    split
    · exact (convert_quiet s c).trans (leaveBarrier_quiet _ _)
    · exact convert_quiet s c
  have h' : ∀ (u : State) (d : Cmd) (a : Nat) (q : U32), u.cmds = s.cmds → d.order = c.order →
      d.endedWith r (cplBody b.fields) ∧ d.disp = c.disp →
      ((u.setCmd d).freeAcre a q).holds c.order fun d => d.endedWith r (cplBody b.fields) ∧ d.disp = c.disp := by
    intro u d a q hu hd hp
    refine holds_of_cmds ?_ (freeAcre_quiet (u.setCmd d) a q).cmds
    rw [← hd] at h ⊢
    exact setCmd_own (hu ▸ h) hp
  unfold State.finish
  exact h' _ _ _ _ q.cmds rfl ⟨⟨rfl, rfl, rfl⟩, rfl⟩

theorem finish_still (s : State) (c : Cmd) (r : Reason) (b : Body) : s.sameStill (s.finish c r b) ∧ (s.solo → (s.finish c r b).pair = s.pair) := by
  have q : Quiet s (if (s.convert c).2.disp.isNone then (s.convert c).1.leaveBarrier (s.convert c).2.ring else (s.convert c).1) := by
    split
    · exact (convert_quiet s c).trans (leaveBarrier_quiet _ _)
    · exact convert_quiet s c
  have h : ∀ (u : State) (d : Cmd) (a : Nat) (q : U32), Quiet s u → s.sameStill ((u.setCmd d).freeAcre a q) ∧
      (s.solo → ((u.setCmd d).freeAcre a q).pair = s.pair) := by
    intro u d a q k
    have f := freeAcre_quiet (u.setCmd d) a q
    have e : (u.setCmd d).still = u.still := rfl
    have k' : (u.setCmd d).sameStill ((u.setCmd d).freeAcre a q) := f.adv.same
    exact ⟨⟨f.still.trans (e.trans k.still), fun r => (k'.2.1 r).trans (k.adv.same.2.1 r), fun n => (k'.2.2 n).trans (k.adv.same.2.2 n)⟩,
      fun x => (f.pair (x.of_pair (k.pair x))).trans (k.pair x)⟩
  unfold State.finish
  exact h _ _ _ _ q

theorem ctlEnded.of_still {u v t : State} {c : Cmd} {r : Reason} {b : List (Nat × Nat × Nat)} (h : ctlEnded v t c r b) (k : u.sameStill v)
    (hp : v.pair = u.pair) :
    ctlEnded u t c r b := by
  have nx : v.nextOrder = u.nextOrder := (congrArg (fun x : State => x.nextOrder) k.1 : _)
  have e : ({ v with nextOrder := v.nextOrder + 1 } : State).still = ({ u with nextOrder := u.nextOrder + 1 } : State).still := by
    have : ({ v with nextOrder := v.nextOrder + 1 } : State).still = { v.still with nextOrder := v.still.nextOrder + 1 } := rfl
    rw [this, k.1]; rfl
  exact ⟨by rw [← nx]; exact h.1, ⟨h.2.1.1.trans e, fun r => (h.2.1.2.1 r).trans (k.2.1 r), fun n => (h.2.1.2.2 n).trans (k.2.2 n)⟩,
    fun x => (h.2.2 (x.of_pair hp)).trans hp⟩

/-- The end of a hold (R313, R314). -/
theorem ctlDone_ended {u : State} {c : Cmd} (r : Reason) (b : Body) (h : ∃ d ∈ u.cmds, d.order = c.order) :
    ctlEnded u (u.ctlDone c r b) c r b.fields := by
  have k := tookTurn_quiet u c
  have nx : (u.tookTurn c).nextOrder = u.nextOrder := (congrArg (fun x : State => x.nextOrder) k.still : _)
  obtain ⟨f1, f2⟩ := finish_still { u.tookTurn c with nextOrder := (u.tookTurn c).nextOrder + 1 }
    { c with disp := some (u.tookTurn c).nextOrder } r b
  have own := finish_body (s := { u.tookTurn c with nextOrder := (u.tookTurn c).nextOrder + 1 })
    (c := { c with disp := some (u.tookTurn c).nextOrder }) r b (k.cmds.symm ▸ h)
  have e1 : ({ u.tookTurn c with nextOrder := (u.tookTurn c).nextOrder + 1 } : State).still
      = ({ u with nextOrder := u.nextOrder + 1 } : State).still := by
    have : ({ u.tookTurn c with nextOrder := (u.tookTurn c).nextOrder + 1 } : State).still
        = { (u.tookTurn c).still with nextOrder := (u.tookTurn c).still.nextOrder + 1 } := rfl
    rw [this, k.still]; rfl
  have e2 : ∀ r, ({ u.tookTurn c with nextOrder := (u.tookTurn c).nextOrder + 1 } : State).ringStill r
      = ({ u with nextOrder := u.nextOrder + 1 } : State).ringStill r := fun r => k.adv.same.2.1 r
  have e4 : ∀ n, ({ u.tookTurn c with nextOrder := (u.tookTurn c).nextOrder + 1 } : State).tenantStill n
      = ({ u with nextOrder := u.nextOrder + 1 } : State).tenantStill n := fun n => k.adv.same.2.2 n
  have e3 : u.solo → ({ u.tookTurn c with nextOrder := (u.tookTurn c).nextOrder + 1 } : State).pair = u.pair := k.pair
  have a := settle_adv (({ u.tookTurn c with nextOrder := (u.tookTurn c).nextOrder + 1 } : State).finish
    { c with disp := some (u.tookTurn c).nextOrder } r b)
  refine ⟨?_, ⟨a.same.1.trans (f1.1.trans e1), fun r => (a.same.2.1 r).trans ((f1.2.1 r).trans (e2 r)),
    fun n => (a.same.2.2 n).trans ((f1.2.2 n).trans (e4 n))⟩, fun x => ?_⟩
  · refine a.cmds _ (fun d => d.endedWith r (cplBody b.fields) ∧ d.dispatchedAs u.nextOrder) ?_ ?_
    · exact fun c d l hp => ⟨endedWith_stable _ _ c d l hp.1, dispatchedAs_stable _ c d l hp.2⟩
    · simpa only [Cmd.dispatchedAs, nx] using own
  · have s1 := x.of_pair (e3 x)
    have s2 := s1.of_pair (f2 s1)
    exact (a.pair s2).trans ((f2 s1).trans (e3 x))

/-- The entry into a class queue (R313). -/
theorem enqueue_queued {u : State} {c : Cmd} (h : c ∈ u.cmds) : classQueued u (u.enqueue c).settle c := by
  have k := tookTurn_quiet u c
  have nx : (u.tookTurn c).nextOrder = u.nextOrder := (congrArg (fun x : State => x.nextOrder) k.still : _)
  generalize hw : u.tookTurn c = w at k nx
  have hm : c ∈ w.cmds := k.cmds.symm ▸ h
  generalize hd : ({ c with disp := some w.nextOrder, stage := .queued } : Cmd) = d
  have hdo : d.order = c.order := by rw [← hd]
  have own := setCmd_own (s := w) (c := d) (P := fun d => d.dispatchedAs u.nextOrder ∧ d.pkt = c.pkt ∧ d.run = c.run)
    ⟨c, hm, hdo.symm⟩ (by rw [← hd]; exact ⟨congrArg some nx, rfl, rfl⟩)
  rw [hdo] at own
  have kn : (w.setCmd d).knows d := .of_mem (List.mem_map.2 ⟨c, hm, by rw [if_pos hdo.symm]⟩)
  have g := grantAtDispatch_adv kn
  have e0 : u.enqueue c = (let y := (w.setCmd d).grantAtDispatch d
      { y with
        nextOrder := y.nextOrder + 1
        streams := if isAcreOp d.op && pkStreamSrc d.run then { y.streams with frames := y.streams.frames ++ [(d.ring, d.seq)] } else y.streams }) := by
    rw [← hd, ← hw]; rfl
  generalize (w.setCmd d).grantAtDispatch d = y at g e0
  dsimp only at e0
  have e1 : (u.enqueue c).still = ({ u with nextOrder := u.nextOrder + 1 } : State).still := by
    have e : (u.enqueue c).still = { y.still with nextOrder := y.still.nextOrder + 1 } := by
      rw [e0]; unfold State.still; dsimp only; split <;> rfl
    rw [e, g.same.1, show (w.setCmd d).still = w.still from rfl, k.still]; rfl
  have e2 : ∀ r, (u.enqueue c).ringStill r = ({ u with nextOrder := u.nextOrder + 1 } : State).ringStill r := fun r => by
    rw [e0]; exact (g.same.2.1 r).trans (k.adv.same.2.1 r)
  have e4 : ∀ n, (u.enqueue c).tenantStill n = ({ u with nextOrder := u.nextOrder + 1 } : State).tenantStill n := fun n => by
    rw [e0]; exact (g.same.2.2 n).trans (k.adv.same.2.2 n)
  have e3 : u.solo → (u.enqueue c).pair = u.pair := fun x => by
    rw [e0]; exact (g.pair (x.of_pair (k.pair x))).trans (k.pair x)
  have a := settle_adv (u.enqueue c)
  refine ⟨?_, ⟨a.same.1.trans e1, fun r => (a.same.2.1 r).trans (e2 r), fun n => (a.same.2.2 n).trans (e4 n)⟩,
    fun x => (a.pair (x.of_pair (e3 x))).trans (e3 x)⟩
  have st : Cmd.Stable fun d : Cmd => d.dispatchedAs u.nextOrder ∧ d.pkt = c.pkt ∧ d.run = c.run :=
    fun c d l hp => ⟨dispatchedAs_stable _ c d l hp.1, l.pkt.trans hp.2.1, l.run.trans hp.2.2⟩
  refine a.cmds _ _ st ?_
  rw [e0]
  exact g.cmds _ _ st own

/-- Where nothing that every row keeps has moved, a row's frame changes nothing. -/
theorem keep_id {s x : State} (h1 : x.pending = s.pending) (h2 : x.build = s.build) (h3 : x.mem = s.mem) : s.keep x = x := by
  unfold State.keep; rw [← h1, ← h2, ← h3]

theorem keep_of_still {s u x : State} {now : Time} (h : x.still = u.still) (hu : u.pending = (s.tick now).pending ∧ u.build = (s.tick now).build ∧
    u.mem = (s.tick now).mem) : s.keep x = x := by
  obtain ⟨τ, p, ht⟩ := tickE s now
  rw [ht] at hu
  exact keep_id ((congrArg (fun x : State => x.pending) h : _).trans hu.1) ((congrArg (fun x : State => x.build) h : _).trans hu.2.1)
    ((congrArg (fun x : State => x.mem) h : _).trans hu.2.2)

/-- The row of a control command whose turn it is. -/
theorem onCtl_front {s : State} {r op : Nat} {now : Time} {f : State → Cmd → State} {c : Cmd} (h : (s.tick now).ctlFront r op = some c) :
    s.onCtl r op now f = f (s.tick now) c := by
  simp only [State.onCtl, h]

/-- The row of a class command whose turn it is. -/
theorem onClass_front {s : State} {r op : Nat} {now : Time} {f : State → Cmd → State} {c : Cmd} (h : (s.tick now).classFront r op = some c) :
    s.onClass r op now f = f (s.tick now) c := by
  simp only [State.onClass, h]

/-- A control row that ends its hold at once, in a state `v` that differs from the present one in nothing that every row keeps. -/
theorem ctlRow {s v x : State} {now : Time} {c : Cmd} {r : Reason} {b : Body} (hx : x = v.ctlDone c r b) (hc : ∃ d ∈ v.cmds, d.order = c.order)
    (hv : v.pending = (s.tick now).pending ∧ v.build = (s.tick now).build ∧ v.mem = (s.tick now).mem) :
    s.keep x = x ∧ ctlEnded v x c r b.fields := by
  subst hx
  have e := ctlDone_ended (u := v) r b hc
  exact ⟨keep_of_still (u := { v with nextOrder := v.nextOrder + 1 }) e.2.1.1 hv, e⟩

/-- The end of a STRIP_SET or STRIP_GET that changes its strip. -/
theorem stripDone_ended {u : State} {c : Cmd} {n : Nat} (hn : pkStrip c.run = n) (f : Strip → Strip) (r : Reason) (h : ∃ d ∈ u.cmds, d.order = c.order) (hc : n < stripCount u.build) :
    stripEnded u ((u.modStrip n f).stripDone c r) c r f := by
  subst hn
  have e := ctlDone_ended (u := u.modStrip (pkStrip c.run) f) r (stripBody (u.modStrip (pkStrip c.run) f) (pkStrip c.run)) h
  have es : ((u.modStrip (pkStrip c.run) f).stripDone c r).strips = (u.modStrip (pkStrip c.run) f).strips :=
    (congrArg (fun x : State => x.strips) e.2.1.1 : _)
  have hs : ∀ m, ((u.modStrip (pkStrip c.run) f).stripDone c r).strip m = (u.modStrip (pkStrip c.run) f).strip m := by
    intro m; rw [State.strip, es]; rfl
  have hb : (stripBody (u.modStrip (pkStrip c.run) f) (pkStrip c.run)).fields = [(32, 2, pkStrip c.run),
      (36, 4, ((u.modStrip (pkStrip c.run) f).strip (pkStrip c.run)).params.pos.toNat),
      (40, 2, ((u.modStrip (pkStrip c.run) f).strip (pkStrip c.run)).ledger.length),
      (42, 1, flagBit ((u.modStrip (pkStrip c.run) f).strip (pkStrip c.run)).valid 1)] := by
    unfold stripBody; rw [if_pos (show pkStrip c.run < stripCount (u.modStrip (pkStrip c.run) f).build from hc)]
  refine ⟨?_, ?_, ?_⟩
  · rw [hs, es, ← hb]; exact e
  · rw [hs]; simp [State.strip, State.modStrip]
  · intro m hm; rw [hs]; simp only [State.strip, State.modStrip]; exact tblGet_modify_ne _ _ _ hm

/-- The end of a STRIP_SET or STRIP_GET that changes no strip. -/
theorem stripDone_same {u : State} {c : Cmd} {n : Nat} (hn : pkStrip c.run = n) (r : Reason) (h : ∃ d ∈ u.cmds, d.order = c.order) (hc : n < stripCount u.build) :
    stripEnded u (u.stripDone c r) c r id := by
  subst hn
  have e := ctlDone_ended (u := u) r (stripBody u (pkStrip c.run)) h
  have es : (u.stripDone c r).strips = u.strips := (congrArg (fun x : State => x.strips) e.2.1.1 : _)
  have hs : ∀ m, (u.stripDone c r).strip m = u.strip m := by intro m; rw [State.strip, es]; rfl
  have hb : (stripBody u (pkStrip c.run)).fields = [(32, 2, pkStrip c.run), (36, 4, (u.strip (pkStrip c.run)).params.pos.toNat),
      (40, 2, (u.strip (pkStrip c.run)).ledger.length), (42, 1, flagBit (u.strip (pkStrip c.run)).valid 1)] := by
    unfold stripBody; rw [if_pos hc]
  refine ⟨?_, hs _, fun m _ => hs m⟩
  rw [hs, es, ← hb]; exact e

/-- The end of one whose strip does not exist. -/
theorem stripDone_bad {u : State} {c : Cmd} (r : Reason) (h : ∃ d ∈ u.cmds, d.order = c.order) (hc : stripCount u.build ≤ pkStrip c.run) :
    ctlEnded u (u.stripDone c r) c r [(32, 2, pkStrip c.run)] := by
  have e := ctlDone_ended (u := u) r (stripBody u (pkStrip c.run)) h
  have hb : (stripBody u (pkStrip c.run)).fields = [(32, 2, pkStrip c.run)] := by
    unfold stripBody; rw [if_neg (Nat.not_lt.2 hc)]
  rw [hb] at e; exact e

theorem ctlEnded.keep {s u x : State} {now : Time} {c : Cmd} {r : Reason} {b} (h : ctlEnded u x c r b) (hu : u.pending = (s.tick now).pending ∧
    u.build = (s.tick now).build ∧ u.mem = (s.tick now).mem) : s.keep x = x :=
  keep_of_still (u := { u with nextOrder := u.nextOrder + 1 }) h.2.1.1 hu

theorem stripEnded.keep {s x : State} {now : Time} {c : Cmd} {r : Reason} {f} (h : stripEnded (s.tick now) x c r f) : s.keep x = x :=
  ctlEnded.keep (now := now) h.1 ⟨rfl, rfl, rfl⟩

/-- A hold that asks for the ranges `l` and goes on. -/
theorem hold_goes {u : State} {c : Cmd} {k : Nat} {l : List Range} {t : State} (hc : c ∈ u.cmds) (hd : c.disp = none)
    (ht : t = { u.holdPart c k with queue := u.queue ++ l }) : holdGoesOn u t c k l := by
  subst ht
  exact ⟨setCmd_own (c := { c with stage := .hold k, entered := if k = 0 then u.timeNs else c.entered }) ⟨c, hc, rfl⟩ ⟨rfl, rfl, rfl, hd⟩, rfl⟩

theorem holdGoesOn.keep {s x : State} {now : Time} {c : Cmd} {k : Nat} {l} (h : holdGoesOn (s.tick now) x c k l) : s.keep x = x := by
  obtain ⟨τ, p, ht⟩ := tickE s now
  rw [h.2, ht]; rfl

theorem keep_tick (s : State) (now : Time) : s.keep (s.tick now) = s.tick now := by
  obtain ⟨τ, p, ht⟩ := tickE s now
  rw [ht]; rfl

theorem readAsked {u : State} {c : Cmd} (k : Nat) (tr : Traffic) (i a n : Nat) (hn : n ≠ 0) :
    (u.holdPart c k).askRead tr c.ring c.seq i a n = { u.holdPart c k with queue := u.queue ++ [readRange tr c i a n] } := by
  rw [askRead_eq _ _ _ _ _ _ _ hn]; rfl

/-- The output of a block on its own is a write that waits at its mover. -/
theorem output_solo {v : State} (h : v.solo) (c : Cmd) (k : Traffic) (r i a : Nat) (b : List Byte) :
    v.output c k r i a b = if b.length = 0 then v else { v with queue := v.queue ++ [writeRange k c i a b] } := by
  have h1 : v.pair.state ≠ 2 := h.1
  have h2 : v.secondary = false := by
    show (v.pair.role && (v.pair.state == 2 || v.pair.holding)) = false
    rw [h.2]; simp [h1]
  unfold State.output
  simp only [if_neg h1, h2, Bool.false_eq_true, if_false]
  rfl

theorem stripImage_length (t : Strip) (a : U64) : (stripImage t a).length = 256 := padTo_length _ _

end Sys2Proof.Machine
end

