-- ==== Sys2Proof/Laws/Lottery.lean ====
section
/-! SUPPORT. The lottery (R328 to R330, R384): whom a draw grants, and what it counts. -/

namespace Sys2Proof.Machine

/-- The requester whose interval of tickets holds `x`. -/
theorem lotPick_spec (rs : List (Nat × Nat)) (hp : rs.Pairwise fun a b => a.1 < b.1) (x : Nat) (hx : x < (rs.map Prod.snd).sum) :
    ∃ w, lotPick x rs = some w ∧ w ∈ rs.map Prod.fst ∧
      ((rs.filter fun e => e.1 < w).map Prod.snd).sum ≤ x ∧ x < ((rs.filter fun e => e.1 ≤ w).map Prod.snd).sum := by
  induction rs generalizing x with
  | nil => simp at hx
  | cons e rs ih =>
    obtain ⟨n, t⟩ := e
    rw [List.pairwise_cons] at hp
    by_cases h : x < t
    · refine ⟨n, by simp [lotPick, h], by simp, ?_, ?_⟩
      · have : rs.filter (fun e => decide (e.1 < n)) = [] := by
          rw [List.filter_eq_nil_iff]
          intro e he
          have := hp.1 e he
          simp; omega
        simp [this]
      · simp; omega
    · obtain ⟨w, h1, h2, h3, h4⟩ := ih hp.2 (x - t) (by simp at hx; omega)
      obtain ⟨e, he, rfl⟩ := List.mem_map.1 h2
      have hn : n < e.1 := hp.1 e he
      refine ⟨e.1, by simp [lotPick, h, h1], by simp only [List.map_cons, List.mem_cons]; exact .inr h2, ?_, ?_⟩
      · simp [hn]; omega
      · simp [Nat.le_of_lt hn]; omega

/-- Whom a draw among requesters in ascending order grants (R329): the lowest where no one holds tickets, else the one whose
interval holds x. -/
theorem lotDraw_spec (rs : List (Nat × Nat)) (ha : rs.Pairwise fun a b => a.1 < b.1) (l : U32) (h : rs ≠ []) :
    ∃ w, lotDraw l rs = some w ∧ w ∈ rs.map Prod.fst ∧
      ((rs.map Prod.snd).sum = 0 → ∀ r < w, r ∉ rs.map Prod.fst) ∧
      ((rs.map Prod.snd).sum ≠ 0 →
        ((rs.filter fun e => e.1 < w).map Prod.snd).sum ≤ (l.toNat / 2 ^ 16) * (rs.map Prod.snd).sum / 2 ^ 16 ∧
        (l.toNat / 2 ^ 16) * (rs.map Prod.snd).sum / 2 ^ 16 < ((rs.filter fun e => e.1 ≤ w).map Prod.snd).sum) := by
  unfold lotDraw
  dsimp only
  by_cases h0 : (rs.map Prod.snd).sum = 0
  · rw [if_pos h0]
    cases rs with
    | nil => exact absurd rfl h
    | cons e rs =>
      refine ⟨e.1, rfl, by simp, fun _ r hr hc => ?_, fun h => absurd h0 h⟩
      simp only [List.map_cons, List.mem_cons] at hc
      rcases hc with h | h
      · omega
      · obtain ⟨e', he', rfl⟩ := List.mem_map.1 h
        have := (List.pairwise_cons.1 ha).1 e' he'
        omega
  · rw [if_neg h0]
    have hx : (l.toNat / 2 ^ 16) * (rs.map Prod.snd).sum / 2 ^ 16 < (rs.map Prod.snd).sum := by
      rw [Nat.div_lt_iff_lt_mul (by norm_num)]
      have : l.toNat / 2 ^ 16 < 2 ^ 16 := by have := l.isLt; omega
      calc _ < 2 ^ 16 * (rs.map Prod.snd).sum := Nat.mul_lt_mul_of_pos_right this (Nat.pos_of_ne_zero h0)
        _ = _ := Nat.mul_comm _ _
    obtain ⟨w, h1, h2, h3, h4⟩ := lotPick_spec rs ha _ hx
    exact ⟨w, h1, h2, fun h => absurd h h0, fun _ => ⟨h3, h4⟩⟩

/-- A table changed at each requester once. -/
theorem foldl_modify {α : Type} [DecidableEq α] (d : α) (rs : List (Nat × Nat)) (f : Nat → α → α) (hp : rs.Pairwise fun a b => a.1 < b.1) (t : Tbl α) (r : Nat) :
    tblGet d (rs.foldl (fun t e => tblModify d t e.1 (f e.1)) t) r
      = if r ∈ rs.map Prod.fst then f r (tblGet d t r) else tblGet d t r := by
  induction rs generalizing t with
  | nil => simp
  | cons e rs ih =>
    rw [List.pairwise_cons] at hp
    rw [List.foldl_cons, ih hp.2]
    by_cases h : r = e.1
    · subst h
      have : e.1 ∉ rs.map Prod.fst := by
        intro hc; obtain ⟨e', he', h⟩ := List.mem_map.1 hc
        have := hp.1 e' he'; omega
      simp only [this, if_false, List.map_cons, List.mem_cons, true_or, if_true, tblGet_modify_same]
    · simp only [List.map_cons, List.mem_cons, h, false_or, tblGet_modify_ne _ _ _ h]

/-- A bit set for each of a list. -/
theorem orFold {n : Nat} (l : List (Nat × Nat)) (b : BitVec n) (r : Nat) (hr : r < n) :
    (l.foldl (fun b e => b ||| BitVec.ofNat n (2 ^ e.1)) b).getLsbD r = (b.getLsbD r || decide (r ∈ l.map Prod.fst)) := by
  induction l generalizing b with
  | nil => simp
  | cons e l ih =>
    rw [List.foldl_cons, ih]
    simp only [BitVec.getLsbD_or, BitVec.getLsbD_ofNat, Nat.testBit_two_pow, hr, decide_true, Bool.true_and, List.map_cons, List.mem_cons]
    by_cases h : r = e.1
    · simp [h]
    · simp [h, Ne.symm h]

end Sys2Proof.Machine
end

