-- ==== Sys2Proof/Laws/Memory.lean ====
section
/-! SUPPORT. Laws of the memory behind the stack ports: a read after a write, and that every operation keeps the canonical
form. -/

namespace Sys2Proof.Machine

/-- A read of the byte just written. -/
@[simp] theorem memRead_write_same (m : Tbl Byte) (a : Nat) (v : Byte) : memRead (memWrite m a v) a = v := by
  simp [memRead, memWrite]

/-- A read of another byte of the address space. -/
theorem memRead_write_ne (m : Tbl Byte) {a b : Nat} (v : Byte) (h : addrWrap b ≠ addrWrap a) :
    memRead (memWrite m a v) b = memRead m b := tblGet_set_ne memDefault m v h

/-- Bytes outside a written range stay. -/
theorem memRead_writeBytes_out (b : List Byte) (m : Tbl Byte) (a x : Nat)
    (h : ∀ i < b.length, addrWrap x ≠ addrWrap (a + i)) : memRead (memWriteBytes m a b) x = memRead m x := by
  induction b generalizing m a with
  | nil => rfl
  | cons v t ih =>
    rw [memWriteBytes, ih]
    · exact memRead_write_ne m v (by simpa using h 0 (by simp))
    · intro i hi
      have := h (i + 1) (by simpa using hi)
      rwa [show a + 1 + i = a + (i + 1) by omega]

/-- A byte of a written range, where the range does not wrap onto itself. -/
theorem memRead_writeBytes_in (b : List Byte) (m : Tbl Byte) (a i : Nat) (hi : i < b.length) (hb : b.length ≤ 2 ^ 64) :
    memRead (memWriteBytes m a b) (a + i) = b[i] := by
  induction b generalizing m a i with
  | nil => simp at hi
  | cons v t ih =>
    cases i with
    | zero =>
      rw [memWriteBytes, memRead_writeBytes_out]
      · simp
      · intro j hj
        simp only [List.length_cons] at hb
        simp only [addrWrap, Nat.add_zero]
        omega
    | succ i =>
      simp only [List.length_cons] at hi hb
      have := ih (memWrite m a v) (a + 1) i (by omega) (by omega)
      rw [memWriteBytes, show a + (i + 1) = a + 1 + i by omega, this]
      simp

/-- Writing a byte keeps the canonical form. -/
theorem memWrite_wf (m : Tbl Byte) (a : Nat) (v : Byte) (h : Memory.wf m = true) : Memory.wf (memWrite m a v) = true := by
  simp only [Memory.wf, Bool.and_eq_true, List.all_eq_true, decide_eq_true_eq] at h ⊢
  refine ⟨tblWf_set _ _ _ _ h.1, fun e he => ?_⟩
  rcases mem_tblSet he with rfl | he
  · exact Nat.mod_lt _ (by norm_num)
  · exact h.2 e he

/-- Writing bytes keeps the canonical form. -/
theorem memWriteBytes_wf (b : List Byte) (m : Tbl Byte) (a : Nat) (h : Memory.wf m = true) : Memory.wf (memWriteBytes m a b) = true := by
  induction b generalizing m a with
  | nil => exact h
  | cons v t ih => exact ih _ _ (memWrite_wf m a v h)

/-- The memory after a read beat is canonical. -/
theorem beatMem_wf (m : List Host.Cell) (x : Xfer) (code : RspCode) (data : List Byte) (h : Memory.wf m = true) :
    Memory.wf (beatMem m x code data) = true := by
  unfold beatMem
  split
  · exact memWriteBytes_wf _ _ _ h
  · exact h

/-- The memory after the response of a write is canonical. -/
theorem ackMem_wf (m : List Host.Cell) (x : Xfer) (code : RspCode) (h : Memory.wf m = true) : Memory.wf (ackMem m x code) = true := by
  unfold ackMem
  dsimp only
  split
  · exact h
  · split <;> exact memWriteBytes_wf _ _ _ h

/-- The memory after a probe's response is canonical. -/
theorem probeMem_wf (m : List Host.Cell) (x : Xfer) (code : RspCode) (data : U64) (h : Memory.wf m = true) :
    Memory.wf (probeMem m x code data) = true := by
  unfold probeMem
  split
  · split
    · exact memWriteBytes_wf _ _ _ h
    · exact h
  · exact ackMem_wf m x code h

/-- The open memory of a block that is out of operation is canonical. -/
theorem openMem_wf (n : Nat) : Memory.wf (openMem n) = true := by
  have key : ∀ (l : List Host.Cell) (m : Tbl Byte), Memory.wf m = true →
      Memory.wf (l.foldl (fun m c => memWrite m c.1 c.2) m) = true := by
    intro l
    induction l with
    | nil => intro m h; exact h
    | cons c t ih => intro m h; exact ih _ (memWrite_wf m c.1 c.2 h)
  exact key _ [] rfl

end Sys2Proof.Machine
end

