-- ==== Sys2Proof/Laws/State.lean ====
section
/-! SUPPORT. What each update of the state leaves in every field: one lemma per field per update, true by `rfl`. -/

namespace Sys2Proof.Machine

/-! ### State.keep -/

@[simp] theorem State.keep_build (s t : State) : (s.keep t).build = s.build := rfl
@[simp] theorem State.keep_pending (s t : State) : (s.keep t).pending = s.pending := rfl
@[simp] theorem State.keep_freeCtr (s t : State) : (s.keep t).freeCtr = t.freeCtr := rfl
@[simp] theorem State.keep_outOfOp (s t : State) : (s.keep t).outOfOp = t.outOfOp := rfl
@[simp] theorem State.keep_boot (s t : State) : (s.keep t).boot = t.boot := rfl
@[simp] theorem State.keep_pins (s t : State) : (s.keep t).pins = t.pins := rfl
@[simp] theorem State.keep_tap (s t : State) : (s.keep t).tap = t.tap := rfl
@[simp] theorem State.keep_apb (s t : State) : (s.keep t).apb = t.apb := rfl
@[simp] theorem State.keep_latches (s t : State) : (s.keep t).latches = t.latches := rfl
@[simp] theorem State.keep_timeNs (s t : State) : (s.keep t).timeNs = t.timeNs := rfl
@[simp] theorem State.keep_rings (s t : State) : (s.keep t).rings = t.rings := rfl
@[simp] theorem State.keep_arb (s t : State) : (s.keep t).arb = t.arb := rfl
@[simp] theorem State.keep_gates (s t : State) : (s.keep t).gates = t.gates := rfl
@[simp] theorem State.keep_cplPend (s t : State) : (s.keep t).cplPend = t.cplPend := rfl
@[simp] theorem State.keep_cmds (s t : State) : (s.keep t).cmds = t.cmds := rfl
@[simp] theorem State.keep_nextOrder (s t : State) : (s.keep t).nextOrder = t.nextOrder := rfl
@[simp] theorem State.keep_barrier (s t : State) : (s.keep t).barrier = t.barrier := rfl
@[simp] theorem State.keep_acre (s t : State) : (s.keep t).acre = t.acre := rfl
@[simp] theorem State.keep_granary (s t : State) : (s.keep t).granary = t.granary := rfl
@[simp] theorem State.keep_fields (s t : State) : (s.keep t).fields = t.fields := rfl
@[simp] theorem State.keep_barn (s t : State) : (s.keep t).barn = t.barn := rfl
@[simp] theorem State.keep_seed0 (s t : State) : (s.keep t).seed0 = t.seed0 := rfl
@[simp] theorem State.keep_seed1 (s t : State) : (s.keep t).seed1 = t.seed1 := rfl
@[simp] theorem State.keep_seedTurn (s t : State) : (s.keep t).seedTurn = t.seedTurn := rfl
@[simp] theorem State.keep_ttSel (s t : State) : (s.keep t).ttSel = t.ttSel := rfl
@[simp] theorem State.keep_tensors (s t : State) : (s.keep t).tensors = t.tensors := rfl
@[simp] theorem State.keep_totals (s t : State) : (s.keep t).totals = t.totals := rfl
@[simp] theorem State.keep_win (s t : State) : (s.keep t).win = t.win := rfl
@[simp] theorem State.keep_strips (s t : State) : (s.keep t).strips = t.strips := rfl
@[simp] theorem State.keep_tenants (s t : State) : (s.keep t).tenants = t.tenants := rfl
@[simp] theorem State.keep_ports (s t : State) : (s.keep t).ports = t.ports := rfl
@[simp] theorem State.keep_queue (s t : State) : (s.keep t).queue = t.queue := rfl
@[simp] theorem State.keep_xfers (s t : State) : (s.keep t).xfers = t.xfers := rfl
@[simp] theorem State.keep_drainWait (s t : State) : (s.keep t).drainWait = t.drainWait := rfl
@[simp] theorem State.keep_marb (s t : State) : (s.keep t).marb = t.marb := rfl
@[simp] theorem State.keep_steer (s t : State) : (s.keep t).steer = t.steer := rfl
@[simp] theorem State.keep_probe (s t : State) : (s.keep t).probe = t.probe := rfl
@[simp] theorem State.keep_streams (s t : State) : (s.keep t).streams = t.streams := rfl
@[simp] theorem State.keep_energy (s t : State) : (s.keep t).energy = t.energy := rfl
@[simp] theorem State.keep_flt (s t : State) : (s.keep t).flt = t.flt := rfl
@[simp] theorem State.keep_fw (s t : State) : (s.keep t).fw = t.fw := rfl
@[simp] theorem State.keep_pair (s t : State) : (s.keep t).pair = t.pair := rfl
@[simp] theorem State.keep_shard (s t : State) : (s.keep t).shard = t.shard := rfl
@[simp] theorem State.keep_perf (s t : State) : (s.keep t).perf = t.perf := rfl
@[simp] theorem State.keep_mem (s t : State) : (s.keep t).mem = s.mem := rfl
@[simp] theorem State.keep_images (s t : State) : (s.keep t).images = t.images := rfl

/-! ### State.keepMem -/

@[simp] theorem State.keepMem_build (s t : State) (m : List Host.Cell) : (s.keepMem m t).build = s.build := rfl
@[simp] theorem State.keepMem_pending (s t : State) (m : List Host.Cell) : (s.keepMem m t).pending = s.pending := rfl
@[simp] theorem State.keepMem_freeCtr (s t : State) (m : List Host.Cell) : (s.keepMem m t).freeCtr = t.freeCtr := rfl
@[simp] theorem State.keepMem_outOfOp (s t : State) (m : List Host.Cell) : (s.keepMem m t).outOfOp = t.outOfOp := rfl
@[simp] theorem State.keepMem_boot (s t : State) (m : List Host.Cell) : (s.keepMem m t).boot = t.boot := rfl
@[simp] theorem State.keepMem_pins (s t : State) (m : List Host.Cell) : (s.keepMem m t).pins = t.pins := rfl
@[simp] theorem State.keepMem_tap (s t : State) (m : List Host.Cell) : (s.keepMem m t).tap = t.tap := rfl
@[simp] theorem State.keepMem_apb (s t : State) (m : List Host.Cell) : (s.keepMem m t).apb = t.apb := rfl
@[simp] theorem State.keepMem_latches (s t : State) (m : List Host.Cell) : (s.keepMem m t).latches = t.latches := rfl
@[simp] theorem State.keepMem_timeNs (s t : State) (m : List Host.Cell) : (s.keepMem m t).timeNs = t.timeNs := rfl
@[simp] theorem State.keepMem_rings (s t : State) (m : List Host.Cell) : (s.keepMem m t).rings = t.rings := rfl
@[simp] theorem State.keepMem_arb (s t : State) (m : List Host.Cell) : (s.keepMem m t).arb = t.arb := rfl
@[simp] theorem State.keepMem_gates (s t : State) (m : List Host.Cell) : (s.keepMem m t).gates = t.gates := rfl
@[simp] theorem State.keepMem_cplPend (s t : State) (m : List Host.Cell) : (s.keepMem m t).cplPend = t.cplPend := rfl
@[simp] theorem State.keepMem_cmds (s t : State) (m : List Host.Cell) : (s.keepMem m t).cmds = t.cmds := rfl
@[simp] theorem State.keepMem_nextOrder (s t : State) (m : List Host.Cell) : (s.keepMem m t).nextOrder = t.nextOrder := rfl
@[simp] theorem State.keepMem_barrier (s t : State) (m : List Host.Cell) : (s.keepMem m t).barrier = t.barrier := rfl
@[simp] theorem State.keepMem_acre (s t : State) (m : List Host.Cell) : (s.keepMem m t).acre = t.acre := rfl
@[simp] theorem State.keepMem_granary (s t : State) (m : List Host.Cell) : (s.keepMem m t).granary = t.granary := rfl
@[simp] theorem State.keepMem_fields (s t : State) (m : List Host.Cell) : (s.keepMem m t).fields = t.fields := rfl
@[simp] theorem State.keepMem_barn (s t : State) (m : List Host.Cell) : (s.keepMem m t).barn = t.barn := rfl
@[simp] theorem State.keepMem_seed0 (s t : State) (m : List Host.Cell) : (s.keepMem m t).seed0 = t.seed0 := rfl
@[simp] theorem State.keepMem_seed1 (s t : State) (m : List Host.Cell) : (s.keepMem m t).seed1 = t.seed1 := rfl
@[simp] theorem State.keepMem_seedTurn (s t : State) (m : List Host.Cell) : (s.keepMem m t).seedTurn = t.seedTurn := rfl
@[simp] theorem State.keepMem_ttSel (s t : State) (m : List Host.Cell) : (s.keepMem m t).ttSel = t.ttSel := rfl
@[simp] theorem State.keepMem_tensors (s t : State) (m : List Host.Cell) : (s.keepMem m t).tensors = t.tensors := rfl
@[simp] theorem State.keepMem_totals (s t : State) (m : List Host.Cell) : (s.keepMem m t).totals = t.totals := rfl
@[simp] theorem State.keepMem_win (s t : State) (m : List Host.Cell) : (s.keepMem m t).win = t.win := rfl
@[simp] theorem State.keepMem_strips (s t : State) (m : List Host.Cell) : (s.keepMem m t).strips = t.strips := rfl
@[simp] theorem State.keepMem_tenants (s t : State) (m : List Host.Cell) : (s.keepMem m t).tenants = t.tenants := rfl
@[simp] theorem State.keepMem_ports (s t : State) (m : List Host.Cell) : (s.keepMem m t).ports = t.ports := rfl
@[simp] theorem State.keepMem_queue (s t : State) (m : List Host.Cell) : (s.keepMem m t).queue = t.queue := rfl
@[simp] theorem State.keepMem_xfers (s t : State) (m : List Host.Cell) : (s.keepMem m t).xfers = t.xfers := rfl
@[simp] theorem State.keepMem_drainWait (s t : State) (m : List Host.Cell) : (s.keepMem m t).drainWait = t.drainWait := rfl
@[simp] theorem State.keepMem_marb (s t : State) (m : List Host.Cell) : (s.keepMem m t).marb = t.marb := rfl
@[simp] theorem State.keepMem_steer (s t : State) (m : List Host.Cell) : (s.keepMem m t).steer = t.steer := rfl
@[simp] theorem State.keepMem_probe (s t : State) (m : List Host.Cell) : (s.keepMem m t).probe = t.probe := rfl
@[simp] theorem State.keepMem_streams (s t : State) (m : List Host.Cell) : (s.keepMem m t).streams = t.streams := rfl
@[simp] theorem State.keepMem_energy (s t : State) (m : List Host.Cell) : (s.keepMem m t).energy = t.energy := rfl
@[simp] theorem State.keepMem_flt (s t : State) (m : List Host.Cell) : (s.keepMem m t).flt = t.flt := rfl
@[simp] theorem State.keepMem_fw (s t : State) (m : List Host.Cell) : (s.keepMem m t).fw = t.fw := rfl
@[simp] theorem State.keepMem_pair (s t : State) (m : List Host.Cell) : (s.keepMem m t).pair = t.pair := rfl
@[simp] theorem State.keepMem_shard (s t : State) (m : List Host.Cell) : (s.keepMem m t).shard = t.shard := rfl
@[simp] theorem State.keepMem_perf (s t : State) (m : List Host.Cell) : (s.keepMem m t).perf = t.perf := rfl
@[simp] theorem State.keepMem_mem (s t : State) (m : List Host.Cell) : (s.keepMem m t).mem = m := rfl
@[simp] theorem State.keepMem_images (s t : State) (m : List Host.Cell) : (s.keepMem m t).images = t.images := rfl

/-! ### State.modRing -/

@[simp] theorem State.modRing_build (s : State) (n : Nat) (f : Ring → Ring) : (s.modRing n f).build = s.build := rfl
@[simp] theorem State.modRing_pending (s : State) (n : Nat) (f : Ring → Ring) : (s.modRing n f).pending = s.pending := rfl
@[simp] theorem State.modRing_freeCtr (s : State) (n : Nat) (f : Ring → Ring) : (s.modRing n f).freeCtr = s.freeCtr := rfl
@[simp] theorem State.modRing_outOfOp (s : State) (n : Nat) (f : Ring → Ring) : (s.modRing n f).outOfOp = s.outOfOp := rfl
@[simp] theorem State.modRing_boot (s : State) (n : Nat) (f : Ring → Ring) : (s.modRing n f).boot = s.boot := rfl
@[simp] theorem State.modRing_pins (s : State) (n : Nat) (f : Ring → Ring) : (s.modRing n f).pins = s.pins := rfl
@[simp] theorem State.modRing_tap (s : State) (n : Nat) (f : Ring → Ring) : (s.modRing n f).tap = s.tap := rfl
@[simp] theorem State.modRing_apb (s : State) (n : Nat) (f : Ring → Ring) : (s.modRing n f).apb = s.apb := rfl
@[simp] theorem State.modRing_latches (s : State) (n : Nat) (f : Ring → Ring) : (s.modRing n f).latches = s.latches := rfl
@[simp] theorem State.modRing_timeNs (s : State) (n : Nat) (f : Ring → Ring) : (s.modRing n f).timeNs = s.timeNs := rfl
@[simp] theorem State.modRing_rings (s : State) (n : Nat) (f : Ring → Ring) : (s.modRing n f).rings = tblModify ringReset s.rings n f := rfl
@[simp] theorem State.modRing_arb (s : State) (n : Nat) (f : Ring → Ring) : (s.modRing n f).arb = s.arb := rfl
@[simp] theorem State.modRing_gates (s : State) (n : Nat) (f : Ring → Ring) : (s.modRing n f).gates = s.gates := rfl
@[simp] theorem State.modRing_cplPend (s : State) (n : Nat) (f : Ring → Ring) : (s.modRing n f).cplPend = s.cplPend := rfl
@[simp] theorem State.modRing_cmds (s : State) (n : Nat) (f : Ring → Ring) : (s.modRing n f).cmds = s.cmds := rfl
@[simp] theorem State.modRing_nextOrder (s : State) (n : Nat) (f : Ring → Ring) : (s.modRing n f).nextOrder = s.nextOrder := rfl
@[simp] theorem State.modRing_barrier (s : State) (n : Nat) (f : Ring → Ring) : (s.modRing n f).barrier = s.barrier := rfl
@[simp] theorem State.modRing_acre (s : State) (n : Nat) (f : Ring → Ring) : (s.modRing n f).acre = s.acre := rfl
@[simp] theorem State.modRing_granary (s : State) (n : Nat) (f : Ring → Ring) : (s.modRing n f).granary = s.granary := rfl
@[simp] theorem State.modRing_fields (s : State) (n : Nat) (f : Ring → Ring) : (s.modRing n f).fields = s.fields := rfl
@[simp] theorem State.modRing_barn (s : State) (n : Nat) (f : Ring → Ring) : (s.modRing n f).barn = s.barn := rfl
@[simp] theorem State.modRing_seed0 (s : State) (n : Nat) (f : Ring → Ring) : (s.modRing n f).seed0 = s.seed0 := rfl
@[simp] theorem State.modRing_seed1 (s : State) (n : Nat) (f : Ring → Ring) : (s.modRing n f).seed1 = s.seed1 := rfl
@[simp] theorem State.modRing_seedTurn (s : State) (n : Nat) (f : Ring → Ring) : (s.modRing n f).seedTurn = s.seedTurn := rfl
@[simp] theorem State.modRing_ttSel (s : State) (n : Nat) (f : Ring → Ring) : (s.modRing n f).ttSel = s.ttSel := rfl
@[simp] theorem State.modRing_tensors (s : State) (n : Nat) (f : Ring → Ring) : (s.modRing n f).tensors = s.tensors := rfl
@[simp] theorem State.modRing_totals (s : State) (n : Nat) (f : Ring → Ring) : (s.modRing n f).totals = s.totals := rfl
@[simp] theorem State.modRing_win (s : State) (n : Nat) (f : Ring → Ring) : (s.modRing n f).win = s.win := rfl
@[simp] theorem State.modRing_strips (s : State) (n : Nat) (f : Ring → Ring) : (s.modRing n f).strips = s.strips := rfl
@[simp] theorem State.modRing_tenants (s : State) (n : Nat) (f : Ring → Ring) : (s.modRing n f).tenants = s.tenants := rfl
@[simp] theorem State.modRing_ports (s : State) (n : Nat) (f : Ring → Ring) : (s.modRing n f).ports = s.ports := rfl
@[simp] theorem State.modRing_queue (s : State) (n : Nat) (f : Ring → Ring) : (s.modRing n f).queue = s.queue := rfl
@[simp] theorem State.modRing_xfers (s : State) (n : Nat) (f : Ring → Ring) : (s.modRing n f).xfers = s.xfers := rfl
@[simp] theorem State.modRing_drainWait (s : State) (n : Nat) (f : Ring → Ring) : (s.modRing n f).drainWait = s.drainWait := rfl
@[simp] theorem State.modRing_marb (s : State) (n : Nat) (f : Ring → Ring) : (s.modRing n f).marb = s.marb := rfl
@[simp] theorem State.modRing_steer (s : State) (n : Nat) (f : Ring → Ring) : (s.modRing n f).steer = s.steer := rfl
@[simp] theorem State.modRing_probe (s : State) (n : Nat) (f : Ring → Ring) : (s.modRing n f).probe = s.probe := rfl
@[simp] theorem State.modRing_streams (s : State) (n : Nat) (f : Ring → Ring) : (s.modRing n f).streams = s.streams := rfl
@[simp] theorem State.modRing_energy (s : State) (n : Nat) (f : Ring → Ring) : (s.modRing n f).energy = s.energy := rfl
@[simp] theorem State.modRing_flt (s : State) (n : Nat) (f : Ring → Ring) : (s.modRing n f).flt = s.flt := rfl
@[simp] theorem State.modRing_fw (s : State) (n : Nat) (f : Ring → Ring) : (s.modRing n f).fw = s.fw := rfl
@[simp] theorem State.modRing_pair (s : State) (n : Nat) (f : Ring → Ring) : (s.modRing n f).pair = s.pair := rfl
@[simp] theorem State.modRing_shard (s : State) (n : Nat) (f : Ring → Ring) : (s.modRing n f).shard = s.shard := rfl
@[simp] theorem State.modRing_perf (s : State) (n : Nat) (f : Ring → Ring) : (s.modRing n f).perf = s.perf := rfl
@[simp] theorem State.modRing_mem (s : State) (n : Nat) (f : Ring → Ring) : (s.modRing n f).mem = s.mem := rfl
@[simp] theorem State.modRing_images (s : State) (n : Nat) (f : Ring → Ring) : (s.modRing n f).images = s.images := rfl

/-! ### State.modPort -/

@[simp] theorem State.modPort_build (s : State) (n : Nat) (f : Port → Port) : (s.modPort n f).build = s.build := rfl
@[simp] theorem State.modPort_pending (s : State) (n : Nat) (f : Port → Port) : (s.modPort n f).pending = s.pending := rfl
@[simp] theorem State.modPort_freeCtr (s : State) (n : Nat) (f : Port → Port) : (s.modPort n f).freeCtr = s.freeCtr := rfl
@[simp] theorem State.modPort_outOfOp (s : State) (n : Nat) (f : Port → Port) : (s.modPort n f).outOfOp = s.outOfOp := rfl
@[simp] theorem State.modPort_boot (s : State) (n : Nat) (f : Port → Port) : (s.modPort n f).boot = s.boot := rfl
@[simp] theorem State.modPort_pins (s : State) (n : Nat) (f : Port → Port) : (s.modPort n f).pins = s.pins := rfl
@[simp] theorem State.modPort_tap (s : State) (n : Nat) (f : Port → Port) : (s.modPort n f).tap = s.tap := rfl
@[simp] theorem State.modPort_apb (s : State) (n : Nat) (f : Port → Port) : (s.modPort n f).apb = s.apb := rfl
@[simp] theorem State.modPort_latches (s : State) (n : Nat) (f : Port → Port) : (s.modPort n f).latches = s.latches := rfl
@[simp] theorem State.modPort_timeNs (s : State) (n : Nat) (f : Port → Port) : (s.modPort n f).timeNs = s.timeNs := rfl
@[simp] theorem State.modPort_rings (s : State) (n : Nat) (f : Port → Port) : (s.modPort n f).rings = s.rings := rfl
@[simp] theorem State.modPort_arb (s : State) (n : Nat) (f : Port → Port) : (s.modPort n f).arb = s.arb := rfl
@[simp] theorem State.modPort_gates (s : State) (n : Nat) (f : Port → Port) : (s.modPort n f).gates = s.gates := rfl
@[simp] theorem State.modPort_cplPend (s : State) (n : Nat) (f : Port → Port) : (s.modPort n f).cplPend = s.cplPend := rfl
@[simp] theorem State.modPort_cmds (s : State) (n : Nat) (f : Port → Port) : (s.modPort n f).cmds = s.cmds := rfl
@[simp] theorem State.modPort_nextOrder (s : State) (n : Nat) (f : Port → Port) : (s.modPort n f).nextOrder = s.nextOrder := rfl
@[simp] theorem State.modPort_barrier (s : State) (n : Nat) (f : Port → Port) : (s.modPort n f).barrier = s.barrier := rfl
@[simp] theorem State.modPort_acre (s : State) (n : Nat) (f : Port → Port) : (s.modPort n f).acre = s.acre := rfl
@[simp] theorem State.modPort_granary (s : State) (n : Nat) (f : Port → Port) : (s.modPort n f).granary = s.granary := rfl
@[simp] theorem State.modPort_fields (s : State) (n : Nat) (f : Port → Port) : (s.modPort n f).fields = s.fields := rfl
@[simp] theorem State.modPort_barn (s : State) (n : Nat) (f : Port → Port) : (s.modPort n f).barn = s.barn := rfl
@[simp] theorem State.modPort_seed0 (s : State) (n : Nat) (f : Port → Port) : (s.modPort n f).seed0 = s.seed0 := rfl
@[simp] theorem State.modPort_seed1 (s : State) (n : Nat) (f : Port → Port) : (s.modPort n f).seed1 = s.seed1 := rfl
@[simp] theorem State.modPort_seedTurn (s : State) (n : Nat) (f : Port → Port) : (s.modPort n f).seedTurn = s.seedTurn := rfl
@[simp] theorem State.modPort_ttSel (s : State) (n : Nat) (f : Port → Port) : (s.modPort n f).ttSel = s.ttSel := rfl
@[simp] theorem State.modPort_tensors (s : State) (n : Nat) (f : Port → Port) : (s.modPort n f).tensors = s.tensors := rfl
@[simp] theorem State.modPort_totals (s : State) (n : Nat) (f : Port → Port) : (s.modPort n f).totals = s.totals := rfl
@[simp] theorem State.modPort_win (s : State) (n : Nat) (f : Port → Port) : (s.modPort n f).win = s.win := rfl
@[simp] theorem State.modPort_strips (s : State) (n : Nat) (f : Port → Port) : (s.modPort n f).strips = s.strips := rfl
@[simp] theorem State.modPort_tenants (s : State) (n : Nat) (f : Port → Port) : (s.modPort n f).tenants = s.tenants := rfl
@[simp] theorem State.modPort_ports (s : State) (n : Nat) (f : Port → Port) : (s.modPort n f).ports = tblModify portReset s.ports n f := rfl
@[simp] theorem State.modPort_queue (s : State) (n : Nat) (f : Port → Port) : (s.modPort n f).queue = s.queue := rfl
@[simp] theorem State.modPort_xfers (s : State) (n : Nat) (f : Port → Port) : (s.modPort n f).xfers = s.xfers := rfl
@[simp] theorem State.modPort_drainWait (s : State) (n : Nat) (f : Port → Port) : (s.modPort n f).drainWait = s.drainWait := rfl
@[simp] theorem State.modPort_marb (s : State) (n : Nat) (f : Port → Port) : (s.modPort n f).marb = s.marb := rfl
@[simp] theorem State.modPort_steer (s : State) (n : Nat) (f : Port → Port) : (s.modPort n f).steer = s.steer := rfl
@[simp] theorem State.modPort_probe (s : State) (n : Nat) (f : Port → Port) : (s.modPort n f).probe = s.probe := rfl
@[simp] theorem State.modPort_streams (s : State) (n : Nat) (f : Port → Port) : (s.modPort n f).streams = s.streams := rfl
@[simp] theorem State.modPort_energy (s : State) (n : Nat) (f : Port → Port) : (s.modPort n f).energy = s.energy := rfl
@[simp] theorem State.modPort_flt (s : State) (n : Nat) (f : Port → Port) : (s.modPort n f).flt = s.flt := rfl
@[simp] theorem State.modPort_fw (s : State) (n : Nat) (f : Port → Port) : (s.modPort n f).fw = s.fw := rfl
@[simp] theorem State.modPort_pair (s : State) (n : Nat) (f : Port → Port) : (s.modPort n f).pair = s.pair := rfl
@[simp] theorem State.modPort_shard (s : State) (n : Nat) (f : Port → Port) : (s.modPort n f).shard = s.shard := rfl
@[simp] theorem State.modPort_perf (s : State) (n : Nat) (f : Port → Port) : (s.modPort n f).perf = s.perf := rfl
@[simp] theorem State.modPort_mem (s : State) (n : Nat) (f : Port → Port) : (s.modPort n f).mem = s.mem := rfl
@[simp] theorem State.modPort_images (s : State) (n : Nat) (f : Port → Port) : (s.modPort n f).images = s.images := rfl

/-! ### State.modField -/

@[simp] theorem State.modField_build (s : State) (n : Nat) (f : Field → Field) : (s.modField n f).build = s.build := rfl
@[simp] theorem State.modField_pending (s : State) (n : Nat) (f : Field → Field) : (s.modField n f).pending = s.pending := rfl
@[simp] theorem State.modField_freeCtr (s : State) (n : Nat) (f : Field → Field) : (s.modField n f).freeCtr = s.freeCtr := rfl
@[simp] theorem State.modField_outOfOp (s : State) (n : Nat) (f : Field → Field) : (s.modField n f).outOfOp = s.outOfOp := rfl
@[simp] theorem State.modField_boot (s : State) (n : Nat) (f : Field → Field) : (s.modField n f).boot = s.boot := rfl
@[simp] theorem State.modField_pins (s : State) (n : Nat) (f : Field → Field) : (s.modField n f).pins = s.pins := rfl
@[simp] theorem State.modField_tap (s : State) (n : Nat) (f : Field → Field) : (s.modField n f).tap = s.tap := rfl
@[simp] theorem State.modField_apb (s : State) (n : Nat) (f : Field → Field) : (s.modField n f).apb = s.apb := rfl
@[simp] theorem State.modField_latches (s : State) (n : Nat) (f : Field → Field) : (s.modField n f).latches = s.latches := rfl
@[simp] theorem State.modField_timeNs (s : State) (n : Nat) (f : Field → Field) : (s.modField n f).timeNs = s.timeNs := rfl
@[simp] theorem State.modField_rings (s : State) (n : Nat) (f : Field → Field) : (s.modField n f).rings = s.rings := rfl
@[simp] theorem State.modField_arb (s : State) (n : Nat) (f : Field → Field) : (s.modField n f).arb = s.arb := rfl
@[simp] theorem State.modField_gates (s : State) (n : Nat) (f : Field → Field) : (s.modField n f).gates = s.gates := rfl
@[simp] theorem State.modField_cplPend (s : State) (n : Nat) (f : Field → Field) : (s.modField n f).cplPend = s.cplPend := rfl
@[simp] theorem State.modField_cmds (s : State) (n : Nat) (f : Field → Field) : (s.modField n f).cmds = s.cmds := rfl
@[simp] theorem State.modField_nextOrder (s : State) (n : Nat) (f : Field → Field) : (s.modField n f).nextOrder = s.nextOrder := rfl
@[simp] theorem State.modField_barrier (s : State) (n : Nat) (f : Field → Field) : (s.modField n f).barrier = s.barrier := rfl
@[simp] theorem State.modField_acre (s : State) (n : Nat) (f : Field → Field) : (s.modField n f).acre = s.acre := rfl
@[simp] theorem State.modField_granary (s : State) (n : Nat) (f : Field → Field) : (s.modField n f).granary = s.granary := rfl
@[simp] theorem State.modField_fields (s : State) (n : Nat) (f : Field → Field) : (s.modField n f).fields = tblModify fieldReset s.fields n f := rfl
@[simp] theorem State.modField_barn (s : State) (n : Nat) (f : Field → Field) : (s.modField n f).barn = s.barn := rfl
@[simp] theorem State.modField_seed0 (s : State) (n : Nat) (f : Field → Field) : (s.modField n f).seed0 = s.seed0 := rfl
@[simp] theorem State.modField_seed1 (s : State) (n : Nat) (f : Field → Field) : (s.modField n f).seed1 = s.seed1 := rfl
@[simp] theorem State.modField_seedTurn (s : State) (n : Nat) (f : Field → Field) : (s.modField n f).seedTurn = s.seedTurn := rfl
@[simp] theorem State.modField_ttSel (s : State) (n : Nat) (f : Field → Field) : (s.modField n f).ttSel = s.ttSel := rfl
@[simp] theorem State.modField_tensors (s : State) (n : Nat) (f : Field → Field) : (s.modField n f).tensors = s.tensors := rfl
@[simp] theorem State.modField_totals (s : State) (n : Nat) (f : Field → Field) : (s.modField n f).totals = s.totals := rfl
@[simp] theorem State.modField_win (s : State) (n : Nat) (f : Field → Field) : (s.modField n f).win = s.win := rfl
@[simp] theorem State.modField_strips (s : State) (n : Nat) (f : Field → Field) : (s.modField n f).strips = s.strips := rfl
@[simp] theorem State.modField_tenants (s : State) (n : Nat) (f : Field → Field) : (s.modField n f).tenants = s.tenants := rfl
@[simp] theorem State.modField_ports (s : State) (n : Nat) (f : Field → Field) : (s.modField n f).ports = s.ports := rfl
@[simp] theorem State.modField_queue (s : State) (n : Nat) (f : Field → Field) : (s.modField n f).queue = s.queue := rfl
@[simp] theorem State.modField_xfers (s : State) (n : Nat) (f : Field → Field) : (s.modField n f).xfers = s.xfers := rfl
@[simp] theorem State.modField_drainWait (s : State) (n : Nat) (f : Field → Field) : (s.modField n f).drainWait = s.drainWait := rfl
@[simp] theorem State.modField_marb (s : State) (n : Nat) (f : Field → Field) : (s.modField n f).marb = s.marb := rfl
@[simp] theorem State.modField_steer (s : State) (n : Nat) (f : Field → Field) : (s.modField n f).steer = s.steer := rfl
@[simp] theorem State.modField_probe (s : State) (n : Nat) (f : Field → Field) : (s.modField n f).probe = s.probe := rfl
@[simp] theorem State.modField_streams (s : State) (n : Nat) (f : Field → Field) : (s.modField n f).streams = s.streams := rfl
@[simp] theorem State.modField_energy (s : State) (n : Nat) (f : Field → Field) : (s.modField n f).energy = s.energy := rfl
@[simp] theorem State.modField_flt (s : State) (n : Nat) (f : Field → Field) : (s.modField n f).flt = s.flt := rfl
@[simp] theorem State.modField_fw (s : State) (n : Nat) (f : Field → Field) : (s.modField n f).fw = s.fw := rfl
@[simp] theorem State.modField_pair (s : State) (n : Nat) (f : Field → Field) : (s.modField n f).pair = s.pair := rfl
@[simp] theorem State.modField_shard (s : State) (n : Nat) (f : Field → Field) : (s.modField n f).shard = s.shard := rfl
@[simp] theorem State.modField_perf (s : State) (n : Nat) (f : Field → Field) : (s.modField n f).perf = s.perf := rfl
@[simp] theorem State.modField_mem (s : State) (n : Nat) (f : Field → Field) : (s.modField n f).mem = s.mem := rfl
@[simp] theorem State.modField_images (s : State) (n : Nat) (f : Field → Field) : (s.modField n f).images = s.images := rfl

/-! ### State.modStrip -/

@[simp] theorem State.modStrip_build (s : State) (n : Nat) (f : Strip → Strip) : (s.modStrip n f).build = s.build := rfl
@[simp] theorem State.modStrip_pending (s : State) (n : Nat) (f : Strip → Strip) : (s.modStrip n f).pending = s.pending := rfl
@[simp] theorem State.modStrip_freeCtr (s : State) (n : Nat) (f : Strip → Strip) : (s.modStrip n f).freeCtr = s.freeCtr := rfl
@[simp] theorem State.modStrip_outOfOp (s : State) (n : Nat) (f : Strip → Strip) : (s.modStrip n f).outOfOp = s.outOfOp := rfl
@[simp] theorem State.modStrip_boot (s : State) (n : Nat) (f : Strip → Strip) : (s.modStrip n f).boot = s.boot := rfl
@[simp] theorem State.modStrip_pins (s : State) (n : Nat) (f : Strip → Strip) : (s.modStrip n f).pins = s.pins := rfl
@[simp] theorem State.modStrip_tap (s : State) (n : Nat) (f : Strip → Strip) : (s.modStrip n f).tap = s.tap := rfl
@[simp] theorem State.modStrip_apb (s : State) (n : Nat) (f : Strip → Strip) : (s.modStrip n f).apb = s.apb := rfl
@[simp] theorem State.modStrip_latches (s : State) (n : Nat) (f : Strip → Strip) : (s.modStrip n f).latches = s.latches := rfl
@[simp] theorem State.modStrip_timeNs (s : State) (n : Nat) (f : Strip → Strip) : (s.modStrip n f).timeNs = s.timeNs := rfl
@[simp] theorem State.modStrip_rings (s : State) (n : Nat) (f : Strip → Strip) : (s.modStrip n f).rings = s.rings := rfl
@[simp] theorem State.modStrip_arb (s : State) (n : Nat) (f : Strip → Strip) : (s.modStrip n f).arb = s.arb := rfl
@[simp] theorem State.modStrip_gates (s : State) (n : Nat) (f : Strip → Strip) : (s.modStrip n f).gates = s.gates := rfl
@[simp] theorem State.modStrip_cplPend (s : State) (n : Nat) (f : Strip → Strip) : (s.modStrip n f).cplPend = s.cplPend := rfl
@[simp] theorem State.modStrip_cmds (s : State) (n : Nat) (f : Strip → Strip) : (s.modStrip n f).cmds = s.cmds := rfl
@[simp] theorem State.modStrip_nextOrder (s : State) (n : Nat) (f : Strip → Strip) : (s.modStrip n f).nextOrder = s.nextOrder := rfl
@[simp] theorem State.modStrip_barrier (s : State) (n : Nat) (f : Strip → Strip) : (s.modStrip n f).barrier = s.barrier := rfl
@[simp] theorem State.modStrip_acre (s : State) (n : Nat) (f : Strip → Strip) : (s.modStrip n f).acre = s.acre := rfl
@[simp] theorem State.modStrip_granary (s : State) (n : Nat) (f : Strip → Strip) : (s.modStrip n f).granary = s.granary := rfl
@[simp] theorem State.modStrip_fields (s : State) (n : Nat) (f : Strip → Strip) : (s.modStrip n f).fields = s.fields := rfl
@[simp] theorem State.modStrip_barn (s : State) (n : Nat) (f : Strip → Strip) : (s.modStrip n f).barn = s.barn := rfl
@[simp] theorem State.modStrip_seed0 (s : State) (n : Nat) (f : Strip → Strip) : (s.modStrip n f).seed0 = s.seed0 := rfl
@[simp] theorem State.modStrip_seed1 (s : State) (n : Nat) (f : Strip → Strip) : (s.modStrip n f).seed1 = s.seed1 := rfl
@[simp] theorem State.modStrip_seedTurn (s : State) (n : Nat) (f : Strip → Strip) : (s.modStrip n f).seedTurn = s.seedTurn := rfl
@[simp] theorem State.modStrip_ttSel (s : State) (n : Nat) (f : Strip → Strip) : (s.modStrip n f).ttSel = s.ttSel := rfl
@[simp] theorem State.modStrip_tensors (s : State) (n : Nat) (f : Strip → Strip) : (s.modStrip n f).tensors = s.tensors := rfl
@[simp] theorem State.modStrip_totals (s : State) (n : Nat) (f : Strip → Strip) : (s.modStrip n f).totals = s.totals := rfl
@[simp] theorem State.modStrip_win (s : State) (n : Nat) (f : Strip → Strip) : (s.modStrip n f).win = s.win := rfl
@[simp] theorem State.modStrip_strips (s : State) (n : Nat) (f : Strip → Strip) : (s.modStrip n f).strips = tblModify stripReset s.strips n f := rfl
@[simp] theorem State.modStrip_tenants (s : State) (n : Nat) (f : Strip → Strip) : (s.modStrip n f).tenants = s.tenants := rfl
@[simp] theorem State.modStrip_ports (s : State) (n : Nat) (f : Strip → Strip) : (s.modStrip n f).ports = s.ports := rfl
@[simp] theorem State.modStrip_queue (s : State) (n : Nat) (f : Strip → Strip) : (s.modStrip n f).queue = s.queue := rfl
@[simp] theorem State.modStrip_xfers (s : State) (n : Nat) (f : Strip → Strip) : (s.modStrip n f).xfers = s.xfers := rfl
@[simp] theorem State.modStrip_drainWait (s : State) (n : Nat) (f : Strip → Strip) : (s.modStrip n f).drainWait = s.drainWait := rfl
@[simp] theorem State.modStrip_marb (s : State) (n : Nat) (f : Strip → Strip) : (s.modStrip n f).marb = s.marb := rfl
@[simp] theorem State.modStrip_steer (s : State) (n : Nat) (f : Strip → Strip) : (s.modStrip n f).steer = s.steer := rfl
@[simp] theorem State.modStrip_probe (s : State) (n : Nat) (f : Strip → Strip) : (s.modStrip n f).probe = s.probe := rfl
@[simp] theorem State.modStrip_streams (s : State) (n : Nat) (f : Strip → Strip) : (s.modStrip n f).streams = s.streams := rfl
@[simp] theorem State.modStrip_energy (s : State) (n : Nat) (f : Strip → Strip) : (s.modStrip n f).energy = s.energy := rfl
@[simp] theorem State.modStrip_flt (s : State) (n : Nat) (f : Strip → Strip) : (s.modStrip n f).flt = s.flt := rfl
@[simp] theorem State.modStrip_fw (s : State) (n : Nat) (f : Strip → Strip) : (s.modStrip n f).fw = s.fw := rfl
@[simp] theorem State.modStrip_pair (s : State) (n : Nat) (f : Strip → Strip) : (s.modStrip n f).pair = s.pair := rfl
@[simp] theorem State.modStrip_shard (s : State) (n : Nat) (f : Strip → Strip) : (s.modStrip n f).shard = s.shard := rfl
@[simp] theorem State.modStrip_perf (s : State) (n : Nat) (f : Strip → Strip) : (s.modStrip n f).perf = s.perf := rfl
@[simp] theorem State.modStrip_mem (s : State) (n : Nat) (f : Strip → Strip) : (s.modStrip n f).mem = s.mem := rfl
@[simp] theorem State.modStrip_images (s : State) (n : Nat) (f : Strip → Strip) : (s.modStrip n f).images = s.images := rfl

/-! ### State.modTenant -/

@[simp] theorem State.modTenant_build (s : State) (n : Nat) (f : Tenant → Tenant) : (s.modTenant n f).build = s.build := rfl
@[simp] theorem State.modTenant_pending (s : State) (n : Nat) (f : Tenant → Tenant) : (s.modTenant n f).pending = s.pending := rfl
@[simp] theorem State.modTenant_freeCtr (s : State) (n : Nat) (f : Tenant → Tenant) : (s.modTenant n f).freeCtr = s.freeCtr := rfl
@[simp] theorem State.modTenant_outOfOp (s : State) (n : Nat) (f : Tenant → Tenant) : (s.modTenant n f).outOfOp = s.outOfOp := rfl
@[simp] theorem State.modTenant_boot (s : State) (n : Nat) (f : Tenant → Tenant) : (s.modTenant n f).boot = s.boot := rfl
@[simp] theorem State.modTenant_pins (s : State) (n : Nat) (f : Tenant → Tenant) : (s.modTenant n f).pins = s.pins := rfl
@[simp] theorem State.modTenant_tap (s : State) (n : Nat) (f : Tenant → Tenant) : (s.modTenant n f).tap = s.tap := rfl
@[simp] theorem State.modTenant_apb (s : State) (n : Nat) (f : Tenant → Tenant) : (s.modTenant n f).apb = s.apb := rfl
@[simp] theorem State.modTenant_latches (s : State) (n : Nat) (f : Tenant → Tenant) : (s.modTenant n f).latches = s.latches := rfl
@[simp] theorem State.modTenant_timeNs (s : State) (n : Nat) (f : Tenant → Tenant) : (s.modTenant n f).timeNs = s.timeNs := rfl
@[simp] theorem State.modTenant_rings (s : State) (n : Nat) (f : Tenant → Tenant) : (s.modTenant n f).rings = s.rings := rfl
@[simp] theorem State.modTenant_arb (s : State) (n : Nat) (f : Tenant → Tenant) : (s.modTenant n f).arb = s.arb := rfl
@[simp] theorem State.modTenant_gates (s : State) (n : Nat) (f : Tenant → Tenant) : (s.modTenant n f).gates = s.gates := rfl
@[simp] theorem State.modTenant_cplPend (s : State) (n : Nat) (f : Tenant → Tenant) : (s.modTenant n f).cplPend = s.cplPend := rfl
@[simp] theorem State.modTenant_cmds (s : State) (n : Nat) (f : Tenant → Tenant) : (s.modTenant n f).cmds = s.cmds := rfl
@[simp] theorem State.modTenant_nextOrder (s : State) (n : Nat) (f : Tenant → Tenant) : (s.modTenant n f).nextOrder = s.nextOrder := rfl
@[simp] theorem State.modTenant_barrier (s : State) (n : Nat) (f : Tenant → Tenant) : (s.modTenant n f).barrier = s.barrier := rfl
@[simp] theorem State.modTenant_acre (s : State) (n : Nat) (f : Tenant → Tenant) : (s.modTenant n f).acre = s.acre := rfl
@[simp] theorem State.modTenant_granary (s : State) (n : Nat) (f : Tenant → Tenant) : (s.modTenant n f).granary = s.granary := rfl
@[simp] theorem State.modTenant_fields (s : State) (n : Nat) (f : Tenant → Tenant) : (s.modTenant n f).fields = s.fields := rfl
@[simp] theorem State.modTenant_barn (s : State) (n : Nat) (f : Tenant → Tenant) : (s.modTenant n f).barn = s.barn := rfl
@[simp] theorem State.modTenant_seed0 (s : State) (n : Nat) (f : Tenant → Tenant) : (s.modTenant n f).seed0 = s.seed0 := rfl
@[simp] theorem State.modTenant_seed1 (s : State) (n : Nat) (f : Tenant → Tenant) : (s.modTenant n f).seed1 = s.seed1 := rfl
@[simp] theorem State.modTenant_seedTurn (s : State) (n : Nat) (f : Tenant → Tenant) : (s.modTenant n f).seedTurn = s.seedTurn := rfl
@[simp] theorem State.modTenant_ttSel (s : State) (n : Nat) (f : Tenant → Tenant) : (s.modTenant n f).ttSel = s.ttSel := rfl
@[simp] theorem State.modTenant_tensors (s : State) (n : Nat) (f : Tenant → Tenant) : (s.modTenant n f).tensors = s.tensors := rfl
@[simp] theorem State.modTenant_totals (s : State) (n : Nat) (f : Tenant → Tenant) : (s.modTenant n f).totals = s.totals := rfl
@[simp] theorem State.modTenant_win (s : State) (n : Nat) (f : Tenant → Tenant) : (s.modTenant n f).win = s.win := rfl
@[simp] theorem State.modTenant_strips (s : State) (n : Nat) (f : Tenant → Tenant) : (s.modTenant n f).strips = s.strips := rfl
@[simp] theorem State.modTenant_tenants (s : State) (n : Nat) (f : Tenant → Tenant) : (s.modTenant n f).tenants = tblModify tenantReset s.tenants n f := rfl
@[simp] theorem State.modTenant_ports (s : State) (n : Nat) (f : Tenant → Tenant) : (s.modTenant n f).ports = s.ports := rfl
@[simp] theorem State.modTenant_queue (s : State) (n : Nat) (f : Tenant → Tenant) : (s.modTenant n f).queue = s.queue := rfl
@[simp] theorem State.modTenant_xfers (s : State) (n : Nat) (f : Tenant → Tenant) : (s.modTenant n f).xfers = s.xfers := rfl
@[simp] theorem State.modTenant_drainWait (s : State) (n : Nat) (f : Tenant → Tenant) : (s.modTenant n f).drainWait = s.drainWait := rfl
@[simp] theorem State.modTenant_marb (s : State) (n : Nat) (f : Tenant → Tenant) : (s.modTenant n f).marb = s.marb := rfl
@[simp] theorem State.modTenant_steer (s : State) (n : Nat) (f : Tenant → Tenant) : (s.modTenant n f).steer = s.steer := rfl
@[simp] theorem State.modTenant_probe (s : State) (n : Nat) (f : Tenant → Tenant) : (s.modTenant n f).probe = s.probe := rfl
@[simp] theorem State.modTenant_streams (s : State) (n : Nat) (f : Tenant → Tenant) : (s.modTenant n f).streams = s.streams := rfl
@[simp] theorem State.modTenant_energy (s : State) (n : Nat) (f : Tenant → Tenant) : (s.modTenant n f).energy = s.energy := rfl
@[simp] theorem State.modTenant_flt (s : State) (n : Nat) (f : Tenant → Tenant) : (s.modTenant n f).flt = s.flt := rfl
@[simp] theorem State.modTenant_fw (s : State) (n : Nat) (f : Tenant → Tenant) : (s.modTenant n f).fw = s.fw := rfl
@[simp] theorem State.modTenant_pair (s : State) (n : Nat) (f : Tenant → Tenant) : (s.modTenant n f).pair = s.pair := rfl
@[simp] theorem State.modTenant_shard (s : State) (n : Nat) (f : Tenant → Tenant) : (s.modTenant n f).shard = s.shard := rfl
@[simp] theorem State.modTenant_perf (s : State) (n : Nat) (f : Tenant → Tenant) : (s.modTenant n f).perf = s.perf := rfl
@[simp] theorem State.modTenant_mem (s : State) (n : Nat) (f : Tenant → Tenant) : (s.modTenant n f).mem = s.mem := rfl
@[simp] theorem State.modTenant_images (s : State) (n : Nat) (f : Tenant → Tenant) : (s.modTenant n f).images = s.images := rfl

/-! ### State.setCmd -/

@[simp] theorem State.setCmd_build (s : State) (c : Cmd) : (s.setCmd c).build = s.build := rfl
@[simp] theorem State.setCmd_pending (s : State) (c : Cmd) : (s.setCmd c).pending = s.pending := rfl
@[simp] theorem State.setCmd_freeCtr (s : State) (c : Cmd) : (s.setCmd c).freeCtr = s.freeCtr := rfl
@[simp] theorem State.setCmd_outOfOp (s : State) (c : Cmd) : (s.setCmd c).outOfOp = s.outOfOp := rfl
@[simp] theorem State.setCmd_boot (s : State) (c : Cmd) : (s.setCmd c).boot = s.boot := rfl
@[simp] theorem State.setCmd_pins (s : State) (c : Cmd) : (s.setCmd c).pins = s.pins := rfl
@[simp] theorem State.setCmd_tap (s : State) (c : Cmd) : (s.setCmd c).tap = s.tap := rfl
@[simp] theorem State.setCmd_apb (s : State) (c : Cmd) : (s.setCmd c).apb = s.apb := rfl
@[simp] theorem State.setCmd_latches (s : State) (c : Cmd) : (s.setCmd c).latches = s.latches := rfl
@[simp] theorem State.setCmd_timeNs (s : State) (c : Cmd) : (s.setCmd c).timeNs = s.timeNs := rfl
@[simp] theorem State.setCmd_rings (s : State) (c : Cmd) : (s.setCmd c).rings = s.rings := rfl
@[simp] theorem State.setCmd_arb (s : State) (c : Cmd) : (s.setCmd c).arb = s.arb := rfl
@[simp] theorem State.setCmd_gates (s : State) (c : Cmd) : (s.setCmd c).gates = s.gates := rfl
@[simp] theorem State.setCmd_cplPend (s : State) (c : Cmd) : (s.setCmd c).cplPend = s.cplPend := rfl
@[simp] theorem State.setCmd_cmds (s : State) (c : Cmd) : (s.setCmd c).cmds = s.cmds.map fun d => if d.order = c.order then c else d := rfl
@[simp] theorem State.setCmd_nextOrder (s : State) (c : Cmd) : (s.setCmd c).nextOrder = s.nextOrder := rfl
@[simp] theorem State.setCmd_barrier (s : State) (c : Cmd) : (s.setCmd c).barrier = s.barrier := rfl
@[simp] theorem State.setCmd_acre (s : State) (c : Cmd) : (s.setCmd c).acre = s.acre := rfl
@[simp] theorem State.setCmd_granary (s : State) (c : Cmd) : (s.setCmd c).granary = s.granary := rfl
@[simp] theorem State.setCmd_fields (s : State) (c : Cmd) : (s.setCmd c).fields = s.fields := rfl
@[simp] theorem State.setCmd_barn (s : State) (c : Cmd) : (s.setCmd c).barn = s.barn := rfl
@[simp] theorem State.setCmd_seed0 (s : State) (c : Cmd) : (s.setCmd c).seed0 = s.seed0 := rfl
@[simp] theorem State.setCmd_seed1 (s : State) (c : Cmd) : (s.setCmd c).seed1 = s.seed1 := rfl
@[simp] theorem State.setCmd_seedTurn (s : State) (c : Cmd) : (s.setCmd c).seedTurn = s.seedTurn := rfl
@[simp] theorem State.setCmd_ttSel (s : State) (c : Cmd) : (s.setCmd c).ttSel = s.ttSel := rfl
@[simp] theorem State.setCmd_tensors (s : State) (c : Cmd) : (s.setCmd c).tensors = s.tensors := rfl
@[simp] theorem State.setCmd_totals (s : State) (c : Cmd) : (s.setCmd c).totals = s.totals := rfl
@[simp] theorem State.setCmd_win (s : State) (c : Cmd) : (s.setCmd c).win = s.win := rfl
@[simp] theorem State.setCmd_strips (s : State) (c : Cmd) : (s.setCmd c).strips = s.strips := rfl
@[simp] theorem State.setCmd_tenants (s : State) (c : Cmd) : (s.setCmd c).tenants = s.tenants := rfl
@[simp] theorem State.setCmd_ports (s : State) (c : Cmd) : (s.setCmd c).ports = s.ports := rfl
@[simp] theorem State.setCmd_queue (s : State) (c : Cmd) : (s.setCmd c).queue = s.queue := rfl
@[simp] theorem State.setCmd_xfers (s : State) (c : Cmd) : (s.setCmd c).xfers = s.xfers := rfl
@[simp] theorem State.setCmd_drainWait (s : State) (c : Cmd) : (s.setCmd c).drainWait = s.drainWait := rfl
@[simp] theorem State.setCmd_marb (s : State) (c : Cmd) : (s.setCmd c).marb = s.marb := rfl
@[simp] theorem State.setCmd_steer (s : State) (c : Cmd) : (s.setCmd c).steer = s.steer := rfl
@[simp] theorem State.setCmd_probe (s : State) (c : Cmd) : (s.setCmd c).probe = s.probe := rfl
@[simp] theorem State.setCmd_streams (s : State) (c : Cmd) : (s.setCmd c).streams = s.streams := rfl
@[simp] theorem State.setCmd_energy (s : State) (c : Cmd) : (s.setCmd c).energy = s.energy := rfl
@[simp] theorem State.setCmd_flt (s : State) (c : Cmd) : (s.setCmd c).flt = s.flt := rfl
@[simp] theorem State.setCmd_fw (s : State) (c : Cmd) : (s.setCmd c).fw = s.fw := rfl
@[simp] theorem State.setCmd_pair (s : State) (c : Cmd) : (s.setCmd c).pair = s.pair := rfl
@[simp] theorem State.setCmd_shard (s : State) (c : Cmd) : (s.setCmd c).shard = s.shard := rfl
@[simp] theorem State.setCmd_perf (s : State) (c : Cmd) : (s.setCmd c).perf = s.perf := rfl
@[simp] theorem State.setCmd_mem (s : State) (c : Cmd) : (s.setCmd c).mem = s.mem := rfl
@[simp] theorem State.setCmd_images (s : State) (c : Cmd) : (s.setCmd c).images = s.images := rfl

/-! ### State.bgEvent -/

@[simp] theorem State.bgEvent_build (s : State) (c k : Nat) : (s.bgEvent c k).build = s.build := rfl
@[simp] theorem State.bgEvent_pending (s : State) (c k : Nat) : (s.bgEvent c k).pending = s.pending := rfl
@[simp] theorem State.bgEvent_freeCtr (s : State) (c k : Nat) : (s.bgEvent c k).freeCtr = s.freeCtr := rfl
@[simp] theorem State.bgEvent_outOfOp (s : State) (c k : Nat) : (s.bgEvent c k).outOfOp = s.outOfOp := rfl
@[simp] theorem State.bgEvent_boot (s : State) (c k : Nat) : (s.bgEvent c k).boot = s.boot := rfl
@[simp] theorem State.bgEvent_pins (s : State) (c k : Nat) : (s.bgEvent c k).pins = s.pins := rfl
@[simp] theorem State.bgEvent_tap (s : State) (c k : Nat) : (s.bgEvent c k).tap = s.tap := rfl
@[simp] theorem State.bgEvent_apb (s : State) (c k : Nat) : (s.bgEvent c k).apb = s.apb := rfl
@[simp] theorem State.bgEvent_latches (s : State) (c k : Nat) : (s.bgEvent c k).latches = s.latches := rfl
@[simp] theorem State.bgEvent_timeNs (s : State) (c k : Nat) : (s.bgEvent c k).timeNs = s.timeNs := rfl
@[simp] theorem State.bgEvent_rings (s : State) (c k : Nat) : (s.bgEvent c k).rings = s.rings := rfl
@[simp] theorem State.bgEvent_arb (s : State) (c k : Nat) : (s.bgEvent c k).arb = s.arb := rfl
@[simp] theorem State.bgEvent_gates (s : State) (c k : Nat) : (s.bgEvent c k).gates = s.gates := rfl
@[simp] theorem State.bgEvent_cplPend (s : State) (c k : Nat) : (s.bgEvent c k).cplPend = s.cplPend := rfl
@[simp] theorem State.bgEvent_cmds (s : State) (c k : Nat) : (s.bgEvent c k).cmds = s.cmds := rfl
@[simp] theorem State.bgEvent_nextOrder (s : State) (c k : Nat) : (s.bgEvent c k).nextOrder = s.nextOrder := rfl
@[simp] theorem State.bgEvent_barrier (s : State) (c k : Nat) : (s.bgEvent c k).barrier = s.barrier := rfl
@[simp] theorem State.bgEvent_acre (s : State) (c k : Nat) : (s.bgEvent c k).acre = s.acre := rfl
@[simp] theorem State.bgEvent_granary (s : State) (c k : Nat) : (s.bgEvent c k).granary = s.granary := rfl
@[simp] theorem State.bgEvent_fields (s : State) (c k : Nat) : (s.bgEvent c k).fields = s.fields := rfl
@[simp] theorem State.bgEvent_barn (s : State) (c k : Nat) : (s.bgEvent c k).barn = s.barn := rfl
@[simp] theorem State.bgEvent_seed0 (s : State) (c k : Nat) : (s.bgEvent c k).seed0 = s.seed0 := rfl
@[simp] theorem State.bgEvent_seed1 (s : State) (c k : Nat) : (s.bgEvent c k).seed1 = s.seed1 := rfl
@[simp] theorem State.bgEvent_seedTurn (s : State) (c k : Nat) : (s.bgEvent c k).seedTurn = s.seedTurn := rfl
@[simp] theorem State.bgEvent_ttSel (s : State) (c k : Nat) : (s.bgEvent c k).ttSel = s.ttSel := rfl
@[simp] theorem State.bgEvent_tensors (s : State) (c k : Nat) : (s.bgEvent c k).tensors = s.tensors := rfl
@[simp] theorem State.bgEvent_totals (s : State) (c k : Nat) : (s.bgEvent c k).totals = s.totals := rfl
@[simp] theorem State.bgEvent_win (s : State) (c k : Nat) : (s.bgEvent c k).win = s.win := rfl
@[simp] theorem State.bgEvent_strips (s : State) (c k : Nat) : (s.bgEvent c k).strips = s.strips := rfl
@[simp] theorem State.bgEvent_tenants (s : State) (c k : Nat) : (s.bgEvent c k).tenants = s.tenants := rfl
@[simp] theorem State.bgEvent_ports (s : State) (c k : Nat) : (s.bgEvent c k).ports = s.ports := rfl
@[simp] theorem State.bgEvent_queue (s : State) (c k : Nat) : (s.bgEvent c k).queue = s.queue := rfl
@[simp] theorem State.bgEvent_xfers (s : State) (c k : Nat) : (s.bgEvent c k).xfers = s.xfers := rfl
@[simp] theorem State.bgEvent_drainWait (s : State) (c k : Nat) : (s.bgEvent c k).drainWait = s.drainWait := rfl
@[simp] theorem State.bgEvent_marb (s : State) (c k : Nat) : (s.bgEvent c k).marb = s.marb := rfl
@[simp] theorem State.bgEvent_steer (s : State) (c k : Nat) : (s.bgEvent c k).steer = s.steer := rfl
@[simp] theorem State.bgEvent_probe (s : State) (c k : Nat) : (s.bgEvent c k).probe = s.probe := rfl
@[simp] theorem State.bgEvent_streams (s : State) (c k : Nat) : (s.bgEvent c k).streams = s.streams := rfl
@[simp] theorem State.bgEvent_energy (s : State) (c k : Nat) : (s.bgEvent c k).energy = { s.energy with bgEvents := evAdd s.energy.bgEvents c k } := rfl
@[simp] theorem State.bgEvent_flt (s : State) (c k : Nat) : (s.bgEvent c k).flt = s.flt := rfl
@[simp] theorem State.bgEvent_fw (s : State) (c k : Nat) : (s.bgEvent c k).fw = s.fw := rfl
@[simp] theorem State.bgEvent_pair (s : State) (c k : Nat) : (s.bgEvent c k).pair = s.pair := rfl
@[simp] theorem State.bgEvent_shard (s : State) (c k : Nat) : (s.bgEvent c k).shard = s.shard := rfl
@[simp] theorem State.bgEvent_perf (s : State) (c k : Nat) : (s.bgEvent c k).perf = s.perf := rfl
@[simp] theorem State.bgEvent_mem (s : State) (c k : Nat) : (s.bgEvent c k).mem = s.mem := rfl
@[simp] theorem State.bgEvent_images (s : State) (c k : Nat) : (s.bgEvent c k).images = s.images := rfl

/-! ### State.raise -/

@[simp] theorem State.raise_build (s : State) (i : Nat) : (s.raise i).build = s.build := rfl
@[simp] theorem State.raise_pending (s : State) (i : Nat) : (s.raise i).pending = s.pending := rfl
@[simp] theorem State.raise_freeCtr (s : State) (i : Nat) : (s.raise i).freeCtr = s.freeCtr := rfl
@[simp] theorem State.raise_outOfOp (s : State) (i : Nat) : (s.raise i).outOfOp = s.outOfOp := rfl
@[simp] theorem State.raise_boot (s : State) (i : Nat) : (s.raise i).boot = s.boot := rfl
@[simp] theorem State.raise_pins (s : State) (i : Nat) : (s.raise i).pins = s.pins := rfl
@[simp] theorem State.raise_tap (s : State) (i : Nat) : (s.raise i).tap = s.tap := rfl
@[simp] theorem State.raise_apb (s : State) (i : Nat) : (s.raise i).apb = s.apb := rfl
@[simp] theorem State.raise_latches (s : State) (i : Nat) : (s.raise i).latches = s.latches := rfl
@[simp] theorem State.raise_timeNs (s : State) (i : Nat) : (s.raise i).timeNs = s.timeNs := rfl
@[simp] theorem State.raise_rings (s : State) (i : Nat) : (s.raise i).rings = s.rings := rfl
@[simp] theorem State.raise_arb (s : State) (i : Nat) : (s.raise i).arb = s.arb := rfl
@[simp] theorem State.raise_gates (s : State) (i : Nat) : (s.raise i).gates = s.gates := rfl
@[simp] theorem State.raise_cplPend (s : State) (i : Nat) : (s.raise i).cplPend = s.cplPend := rfl
@[simp] theorem State.raise_cmds (s : State) (i : Nat) : (s.raise i).cmds = s.cmds := rfl
@[simp] theorem State.raise_nextOrder (s : State) (i : Nat) : (s.raise i).nextOrder = s.nextOrder := rfl
@[simp] theorem State.raise_barrier (s : State) (i : Nat) : (s.raise i).barrier = s.barrier := rfl
@[simp] theorem State.raise_acre (s : State) (i : Nat) : (s.raise i).acre = s.acre := rfl
@[simp] theorem State.raise_granary (s : State) (i : Nat) : (s.raise i).granary = s.granary := rfl
@[simp] theorem State.raise_fields (s : State) (i : Nat) : (s.raise i).fields = s.fields := rfl
@[simp] theorem State.raise_barn (s : State) (i : Nat) : (s.raise i).barn = s.barn := rfl
@[simp] theorem State.raise_seed0 (s : State) (i : Nat) : (s.raise i).seed0 = s.seed0 := rfl
@[simp] theorem State.raise_seed1 (s : State) (i : Nat) : (s.raise i).seed1 = s.seed1 := rfl
@[simp] theorem State.raise_seedTurn (s : State) (i : Nat) : (s.raise i).seedTurn = s.seedTurn := rfl
@[simp] theorem State.raise_ttSel (s : State) (i : Nat) : (s.raise i).ttSel = s.ttSel := rfl
@[simp] theorem State.raise_tensors (s : State) (i : Nat) : (s.raise i).tensors = s.tensors := rfl
@[simp] theorem State.raise_totals (s : State) (i : Nat) : (s.raise i).totals = s.totals := rfl
@[simp] theorem State.raise_win (s : State) (i : Nat) : (s.raise i).win = s.win := rfl
@[simp] theorem State.raise_strips (s : State) (i : Nat) : (s.raise i).strips = s.strips := rfl
@[simp] theorem State.raise_tenants (s : State) (i : Nat) : (s.raise i).tenants = s.tenants := rfl
@[simp] theorem State.raise_ports (s : State) (i : Nat) : (s.raise i).ports = s.ports := rfl
@[simp] theorem State.raise_queue (s : State) (i : Nat) : (s.raise i).queue = s.queue := rfl
@[simp] theorem State.raise_xfers (s : State) (i : Nat) : (s.raise i).xfers = s.xfers := rfl
@[simp] theorem State.raise_drainWait (s : State) (i : Nat) : (s.raise i).drainWait = s.drainWait := rfl
@[simp] theorem State.raise_marb (s : State) (i : Nat) : (s.raise i).marb = s.marb := rfl
@[simp] theorem State.raise_steer (s : State) (i : Nat) : (s.raise i).steer = s.steer := rfl
@[simp] theorem State.raise_probe (s : State) (i : Nat) : (s.raise i).probe = s.probe := rfl
@[simp] theorem State.raise_streams (s : State) (i : Nat) : (s.raise i).streams = s.streams := rfl
@[simp] theorem State.raise_energy (s : State) (i : Nat) : (s.raise i).energy = s.energy := rfl
@[simp] theorem State.raise_flt (s : State) (i : Nat) : (s.raise i).flt = { s.flt with pend := s.flt.pend ||| BitVec.ofNat 10 (2 ^ i) } := rfl
@[simp] theorem State.raise_fw (s : State) (i : Nat) : (s.raise i).fw = s.fw := rfl
@[simp] theorem State.raise_pair (s : State) (i : Nat) : (s.raise i).pair = s.pair := rfl
@[simp] theorem State.raise_shard (s : State) (i : Nat) : (s.raise i).shard = s.shard := rfl
@[simp] theorem State.raise_perf (s : State) (i : Nat) : (s.raise i).perf = s.perf := rfl
@[simp] theorem State.raise_mem (s : State) (i : Nat) : (s.raise i).mem = s.mem := rfl
@[simp] theorem State.raise_images (s : State) (i : Nat) : (s.raise i).images = s.images := rfl

/-! ### State.apbOut -/

@[simp] theorem State.apbOut_build (s : State) (v : U32) (e : Bool) : (s.apbOut v e).build = s.build := rfl
@[simp] theorem State.apbOut_pending (s : State) (v : U32) (e : Bool) : (s.apbOut v e).pending = s.pending := rfl
@[simp] theorem State.apbOut_freeCtr (s : State) (v : U32) (e : Bool) : (s.apbOut v e).freeCtr = s.freeCtr := rfl
@[simp] theorem State.apbOut_outOfOp (s : State) (v : U32) (e : Bool) : (s.apbOut v e).outOfOp = s.outOfOp := rfl
@[simp] theorem State.apbOut_boot (s : State) (v : U32) (e : Bool) : (s.apbOut v e).boot = s.boot := rfl
@[simp] theorem State.apbOut_pins (s : State) (v : U32) (e : Bool) : (s.apbOut v e).pins = s.pins := rfl
@[simp] theorem State.apbOut_tap (s : State) (v : U32) (e : Bool) : (s.apbOut v e).tap = s.tap := rfl
@[simp] theorem State.apbOut_apb (s : State) (v : U32) (e : Bool) : (s.apbOut v e).apb = ⟨v, true, e⟩ := rfl
@[simp] theorem State.apbOut_latches (s : State) (v : U32) (e : Bool) : (s.apbOut v e).latches = s.latches := rfl
@[simp] theorem State.apbOut_timeNs (s : State) (v : U32) (e : Bool) : (s.apbOut v e).timeNs = s.timeNs := rfl
@[simp] theorem State.apbOut_rings (s : State) (v : U32) (e : Bool) : (s.apbOut v e).rings = s.rings := rfl
@[simp] theorem State.apbOut_arb (s : State) (v : U32) (e : Bool) : (s.apbOut v e).arb = s.arb := rfl
@[simp] theorem State.apbOut_gates (s : State) (v : U32) (e : Bool) : (s.apbOut v e).gates = s.gates := rfl
@[simp] theorem State.apbOut_cplPend (s : State) (v : U32) (e : Bool) : (s.apbOut v e).cplPend = s.cplPend := rfl
@[simp] theorem State.apbOut_cmds (s : State) (v : U32) (e : Bool) : (s.apbOut v e).cmds = s.cmds := rfl
@[simp] theorem State.apbOut_nextOrder (s : State) (v : U32) (e : Bool) : (s.apbOut v e).nextOrder = s.nextOrder := rfl
@[simp] theorem State.apbOut_barrier (s : State) (v : U32) (e : Bool) : (s.apbOut v e).barrier = s.barrier := rfl
@[simp] theorem State.apbOut_acre (s : State) (v : U32) (e : Bool) : (s.apbOut v e).acre = s.acre := rfl
@[simp] theorem State.apbOut_granary (s : State) (v : U32) (e : Bool) : (s.apbOut v e).granary = s.granary := rfl
@[simp] theorem State.apbOut_fields (s : State) (v : U32) (e : Bool) : (s.apbOut v e).fields = s.fields := rfl
@[simp] theorem State.apbOut_barn (s : State) (v : U32) (e : Bool) : (s.apbOut v e).barn = s.barn := rfl
@[simp] theorem State.apbOut_seed0 (s : State) (v : U32) (e : Bool) : (s.apbOut v e).seed0 = s.seed0 := rfl
@[simp] theorem State.apbOut_seed1 (s : State) (v : U32) (e : Bool) : (s.apbOut v e).seed1 = s.seed1 := rfl
@[simp] theorem State.apbOut_seedTurn (s : State) (v : U32) (e : Bool) : (s.apbOut v e).seedTurn = s.seedTurn := rfl
@[simp] theorem State.apbOut_ttSel (s : State) (v : U32) (e : Bool) : (s.apbOut v e).ttSel = s.ttSel := rfl
@[simp] theorem State.apbOut_tensors (s : State) (v : U32) (e : Bool) : (s.apbOut v e).tensors = s.tensors := rfl
@[simp] theorem State.apbOut_totals (s : State) (v : U32) (e : Bool) : (s.apbOut v e).totals = s.totals := rfl
@[simp] theorem State.apbOut_win (s : State) (v : U32) (e : Bool) : (s.apbOut v e).win = s.win := rfl
@[simp] theorem State.apbOut_strips (s : State) (v : U32) (e : Bool) : (s.apbOut v e).strips = s.strips := rfl
@[simp] theorem State.apbOut_tenants (s : State) (v : U32) (e : Bool) : (s.apbOut v e).tenants = s.tenants := rfl
@[simp] theorem State.apbOut_ports (s : State) (v : U32) (e : Bool) : (s.apbOut v e).ports = s.ports := rfl
@[simp] theorem State.apbOut_queue (s : State) (v : U32) (e : Bool) : (s.apbOut v e).queue = s.queue := rfl
@[simp] theorem State.apbOut_xfers (s : State) (v : U32) (e : Bool) : (s.apbOut v e).xfers = s.xfers := rfl
@[simp] theorem State.apbOut_drainWait (s : State) (v : U32) (e : Bool) : (s.apbOut v e).drainWait = s.drainWait := rfl
@[simp] theorem State.apbOut_marb (s : State) (v : U32) (e : Bool) : (s.apbOut v e).marb = s.marb := rfl
@[simp] theorem State.apbOut_steer (s : State) (v : U32) (e : Bool) : (s.apbOut v e).steer = s.steer := rfl
@[simp] theorem State.apbOut_probe (s : State) (v : U32) (e : Bool) : (s.apbOut v e).probe = s.probe := rfl
@[simp] theorem State.apbOut_streams (s : State) (v : U32) (e : Bool) : (s.apbOut v e).streams = s.streams := rfl
@[simp] theorem State.apbOut_energy (s : State) (v : U32) (e : Bool) : (s.apbOut v e).energy = s.energy := rfl
@[simp] theorem State.apbOut_flt (s : State) (v : U32) (e : Bool) : (s.apbOut v e).flt = s.flt := rfl
@[simp] theorem State.apbOut_fw (s : State) (v : U32) (e : Bool) : (s.apbOut v e).fw = s.fw := rfl
@[simp] theorem State.apbOut_pair (s : State) (v : U32) (e : Bool) : (s.apbOut v e).pair = s.pair := rfl
@[simp] theorem State.apbOut_shard (s : State) (v : U32) (e : Bool) : (s.apbOut v e).shard = s.shard := rfl
@[simp] theorem State.apbOut_perf (s : State) (v : U32) (e : Bool) : (s.apbOut v e).perf = s.perf := rfl
@[simp] theorem State.apbOut_mem (s : State) (v : U32) (e : Bool) : (s.apbOut v e).mem = s.mem := rfl
@[simp] theorem State.apbOut_images (s : State) (v : U32) (e : Bool) : (s.apbOut v e).images = s.images := rfl

/-! ### The tables after an update -/

@[simp] theorem State.modRing_ring (s : State) (n : Nat) (f : Ring → Ring) : (s.modRing n f).ring n = f (s.ring n) := by
  simp [State.ring]

theorem State.modRing_ring_ne (s : State) {n k : Nat} (f : Ring → Ring) (h : k ≠ n) : (s.modRing n f).ring k = s.ring k := by
  simp [State.ring, tblGet_modify_ne, h]

@[simp] theorem State.modPort_port (s : State) (n : Nat) (f : Port → Port) : (s.modPort n f).port n = f (s.port n) := by
  simp [State.port]

theorem State.modPort_port_ne (s : State) {n k : Nat} (f : Port → Port) (h : k ≠ n) : (s.modPort n f).port k = s.port k := by
  simp [State.port, tblGet_modify_ne, h]

@[simp] theorem State.modField_field (s : State) (n : Nat) (f : Field → Field) : (s.modField n f).field n = f (s.field n) := by
  simp [State.field]

theorem State.modField_field_ne (s : State) {n k : Nat} (f : Field → Field) (h : k ≠ n) : (s.modField n f).field k = s.field k := by
  simp [State.field, tblGet_modify_ne, h]

@[simp] theorem State.modStrip_strip (s : State) (n : Nat) (f : Strip → Strip) : (s.modStrip n f).strip n = f (s.strip n) := by
  simp [State.strip]

theorem State.modStrip_strip_ne (s : State) {n k : Nat} (f : Strip → Strip) (h : k ≠ n) : (s.modStrip n f).strip k = s.strip k := by
  simp [State.strip, tblGet_modify_ne, h]

@[simp] theorem State.modTenant_tenant (s : State) (n : Nat) (f : Tenant → Tenant) : (s.modTenant n f).tenant n = f (s.tenant n) := by
  simp [State.tenant]

theorem State.modTenant_tenant_ne (s : State) {n k : Nat} (f : Tenant → Tenant) (h : k ≠ n) :
    (s.modTenant n f).tenant k = s.tenant k := by
  simp [State.tenant, tblGet_modify_ne, h]

end Sys2Proof.Machine
end

