-- ==== Sys2Proof/Laws/Transfers.lean ====
section
/-! SUPPORT. What the answer of a transfer does (R373, R379, R385): the frames of the response rows and of a failed
transfer. -/

namespace Sys2Proof.Machine

/-- The start of a function reset leaves what a port shows. -/
theorem fnNow_bus (s : State) (n : Nat) : SameBus s (s.fnNow n) := by
  by_cases h : s.fnReset n = true
  · unfold State.fnNow; rw [if_pos h]; exact .refl s
  · refine SameBus.trans ?_ (fnNow_kept s n (by simpa using h)).bus
    rw [(cutOffPhase_frame s n).1]
    exact ⟨rfl, rfl, rfl, fun _ => rfl⟩

/-- What follows a response leaves memory and the ports' levels (R385, R434). -/
theorem answered_bus (s : State) : SameBus s s.answered := by
  unfold State.answered State.afterCommit
  refine SameBus.trans ?_ (probeIssue_bus _)
  split
  · exact SameBus.trans (b := { s with flt := { s.flt with cpDue := false } }) ⟨rfl, rfl, rfl, fun _ => rfl⟩ (fnNow_bus _ 4)
  · exact .refl s

/-- What comes about by itself leaves memory and the ports. -/
theorem settle_bus (s : State) : SameBus s s.settle := (settle_adv s).kept.bus

/-- The frame of a response row. -/
theorem keepMem_of {s u t : State} (h : SameBus u t) (h1 : u.pending = s.pending) (h2 : u.build = s.build) :
    s.keepMem u.mem t = t := by
  unfold State.keepMem
  rw [← h.mem, ← h1, ← h2, ← h.pending, ← h.build]

/-- The transfer found has the port and the tag. -/
theorem find_xfer {s : State} {k tag : Nat} {x : Xfer} (h : s.xfer k tag = some x) : x.port = k ∧ x.tag = tag := by
  have := List.find?_some h
  simpa using this

/-- A byte of what was written. -/
theorem wfill (b : List Byte) (m : Tbl Byte) (a : Nat) (hb : b.length ≤ 2 ^ 64) (c : Nat) (h1 : a ≤ c) (h2 : c < a + b.length) :
    memRead (memWriteBytes m a b) c = b.getD (c - a) 0 := by
  have := memRead_writeBytes_in b m a (c - a) (by omega) hb
  rw [show a + (c - a) = c by omega] at this
  rw [this, List.getD_eq_getElem]

/-- How many bytes of its range a beat carries (R371). -/
theorem beatBytes_len (x : Xfer) (i : Nat) (d : List Byte) : (beatBytes x i d).2.length
    = min (x.range.addr + x.range.len) ((x.start / 512 + i) * 512 + 512) - max x.range.addr ((x.start / 512 + i) * 512) := by
  simp [beatBytes]

/-- Memory after an OK read beat (R371, R373). -/
theorem beatMem_spec (m : List Host.Cell) (x : Xfer) (data : List Byte) :
    (∀ a, x.range.addr ≤ a → a < x.range.addr + x.range.len → a / 512 = x.start / 512 + x.seen →
      memRead (beatMem m x .ok data) a = data.getD (a % 512) 0) ∧
    (∀ a, (∀ b, x.range.addr ≤ b → b < x.range.addr + x.range.len → b / 512 = x.start / 512 + x.seen → addrWrap a ≠ addrWrap b) →
      memRead (beatMem m x .ok data) a = memRead m a) := by
  have hl := beatBytes_len x x.seen data
  have h1 : (beatBytes x x.seen data).1 = max x.range.addr ((x.start / 512 + x.seen) * 512) := rfl
  have h2 : ∀ j < (beatBytes x x.seen data).2.length, (beatBytes x x.seen data).2.getD j 0 = byteAt data (((beatBytes x x.seen data).1 + j) % 512) := by
    intro j hj
    rw [List.getD_eq_getElem _ _ hj]
    simp [beatBytes]
  constructor
  · intro a ha hb hc
    unfold beatMem
    rw [if_pos rfl]
    have : x.start / 512 * 512 + x.seen * 512 ≤ a ∧ a < x.start / 512 * 512 + x.seen * 512 + 512 := by omega
    have hd : (x.start / 512 + x.seen) * 512 = x.start / 512 * 512 + x.seen * 512 := by omega
    refine (wfill (beatBytes x x.seen data).2 m (beatBytes x x.seen data).1 (by omega) a (by omega) (by omega)).trans ?_
    rw [h2 _ (by omega), show (beatBytes x x.seen data).1 + (a - (beatBytes x x.seen data).1) = a by omega]
    rfl
  · intro a ha
    unfold beatMem
    rw [if_pos rfl]
    refine memRead_writeBytes_out (beatBytes x x.seen data).2 m (beatBytes x x.seen data).1 a fun i hi => ?_
    refine ha _ (by omega) (by omega) (by omega)

/-- What a read beat counts (R406). -/
theorem readBeat_frame (s : State) (g : Range) : ∃ p c b, s.readBeat g = { s with
    perf := p, cmds := c, arb := { s.arb with beats := s.arb.beats + (if g.kind = .fetch then 1 else 0) }
    energy := { s.energy with bgEvents := b } } ∧ (s.boot.ready = true → tblGet 0 p.counters 13 = tblGet 0 s.perf.counters 13 + 1) := by
  have hp : ∃ p, s.perfAdd 13 1 = { s with perf := p } ∧ (s.boot.ready = true → tblGet 0 p.counters 13 = tblGet 0 s.perf.counters 13 + 1) := by
    unfold State.perfAdd
    split
    · exact ⟨_, rfl, fun _ => by simp⟩
    · rename_i h
      exact ⟨_, rfl, fun hr => absurd (by simp [hr]) h⟩
  obtain ⟨p, e, hp⟩ := hp
  unfold State.readBeat
  rw [e]
  dsimp only
  split
  · exact ⟨_, _, _, rfl, hp⟩
  · unfold State.charge State.event
    split
    · exact ⟨_, _, _, rfl, hp⟩
    · split
      · split <;> exact ⟨_, _, _, rfl, hp⟩
      · exact ⟨_, _, _, rfl, hp⟩

/-- Time moves no port. -/
theorem portLive_tick {s : State} {k : Nat} {now : Time} (h : s.portLive k = true) : (s.tick now).portLive k = true := by
  rw [tick_eq]; exact h

/-- Time moves no transfer. -/
theorem xfer_tick {s : State} {k tag : Nat} {now : Time} : (s.tick now).xfer k tag = s.xfer k tag := by unfold State.xfer; rw [tick_xfers]

/-- A read beat that is no error. -/
theorem readRow {k : Fin 24} {tag : BitVec 10} {beat : BitVec 3} {last : Bool} {code : RspCode} {data : List Byte} {now : Time} {s : State} {x : Xfer}
    (hl : s.portLive k.val = true) (hx : s.xfer k.val tag.toNat = some x) (h0 : x.op = 0) (hb : beat.toNat = x.seen)
    (hlast : last = true ↔ x.seen + 1 = x.beats) :
    ∃ p c b, (s.boot.ready = true → tblGet 0 p.counters 13 = tblGet 0 (s.tick now).perf.counters 13 + 1) ∧
    (let w : State := { s.tick now with
       mem := beatMem s.mem x code data, perf := p, cmds := c, arb := { (s.tick now).arb with beats := (s.tick now).arb.beats + (if x.range.kind = .fetch then 1 else 0) }
       energy := { (s.tick now).energy with bgEvents := b } }
     let first := if x.code = .ok then code else x.code
     exec (.readResponse k tag beat last code data now) s = .next (s.keepMem w.mem
      (if x.seen + 1 = x.beats then ((w.dropXfer x).endXfer x first).settle
        else { w with xfers := w.xfers.map fun y => if y.port = x.port ∧ y.tag = x.tag then { y with seen := x.seen + 1, code := first } else y }).answered)) := by
  obtain ⟨p, c, b, er, hp⟩ := readBeat_frame { s.tick now with mem := beatMem s.mem x code data } x.range
  refine ⟨p, c, b, fun hr => hp (by rw [← hr]; show (s.tick now).boot.ready = _; rw [tick_boot]), ?_⟩
  simp only [exec, execReadResponse, portLive_tick hl, xfer_tick, hx]
  rw [if_neg (by simp), if_neg (by
    rintro (h | h | h)
    · exact h h0
    · exact h hb
    · apply h
      by_cases hs : x.seen + 1 = x.beats <;> cases last <;> simp_all)]
  unfold State.takeBeat
  rw [er]

/-- The response of a write. -/
theorem writeRow {k : Fin 24} {tag : BitVec 10} {code : RspCode} {now : Time} {s : State} {x : Xfer}
    (hl : s.portLive k.val = true) (hx : s.xfer k.val tag.toNat = some x) (h0 : x.op ≠ 0) :
    exec (.writeResponse k tag 0 true code now) s = .next (s.keepMem (ackMem s.mem x code) (({ s.tick now with mem := ackMem s.mem x code }.dropXfer x).endXfer x code).settle.answered) := by
  simp only [exec, execWriteResponse, portLive_tick hl, xfer_tick, hx]
  rw [if_neg (by simp), if_neg (by simp [h0])]
  rfl

/-- A failed probe has no command (R385). -/
theorem failTraffic_probe (s : State) (g : Range) (p : Nat) (h : g.kind = .probe) : s.failTraffic g p = s := by
  unfold State.failTraffic
  rw [h]

theorem finish_flt (s : State) (c : Cmd) (r : Reason) (b : Body) : (s.finish c r b).flt = s.flt := by
  have q : (if (s.convert c).2.disp.isNone then (s.convert c).1.leaveBarrier (s.convert c).2.ring else (s.convert c).1).flt = s.flt := by
    split
    · unfold State.leaveBarrier; split <;> rfl
    · rfl
  have h : ∀ (u : State) (d : Cmd) (a : Nat) (q : U32), u.flt = s.flt → ((u.setCmd d).freeAcre a q).flt = s.flt := fun u d a q hu => hu
  unfold State.finish
  exact h _ _ _ _ q

theorem refuse_flt (s : State) (c : Cmd) (r : Reason) : (s.refuse c r).flt = s.flt := by
  unfold State.refuse
  rw [finish_flt]
  show (ite _ _ _ : State).flt = _
  split <;> rfl

theorem modCmd_flt (s : State) (r : Nat) (q : U32) (f : Cmd → Cmd) : (s.modCmd r q f).flt = s.flt := by
  unfold State.modCmd; split <;> rfl

theorem unpause_flt (s : State) (c : Cmd) : (s.unpause c).flt = s.flt := by
  unfold State.unpause; split
  · exact modCmd_flt _ _ _ _
  · rfl

theorem unreserves_flt (l : List StripStep) (s : State) :
    (l.foldl (fun s p => if p.committed then s else s.unreserve p) s).flt = s.flt := by
  induction l generalizing s with
  | nil => rfl
  | cons p l ih =>
    rw [List.foldl_cons, ih]
    split
    · rfl
    · unfold State.unreserve; split <;> rfl

theorem closeMerge_flt (s : State) (c : Cmd) (r : Reason) : (s.closeMerge c r).flt = s.flt := by
  unfold State.closeMerge
  split
  · exact finish_flt _ _ _ _
  · split
    · rfl
    · exact finish_flt _ _ _ _

theorem endMergeOf_flt (s : State) (c : Cmd) (r : Reason) : (s.endMergeOf c r).flt = s.flt := by
  unfold State.endMergeOf
  split
  · exact closeMerge_flt _ _ _
  · rfl

theorem endParts_flt (s : State) (c : Cmd) (r : Reason) : (s.endParts c r).flt = s.flt := by
  unfold State.endParts
  split
  · exact closeMerge_flt _ _ _
  · split
    · rw [endMergeOf_flt]; exact unreserves_flt _ s
    · rw [endMergeOf_flt]; exact finish_flt _ _ _ _

theorem endWork_flt (s : State) (c : Cmd) (r : Reason) : (s.endWork c r).flt = s.flt := by
  rw [endWork_eq, endParts_flt]
  have : ∀ u : State, u.flt = s.flt → ∀ d, (u.fieldLeft d).flt = s.flt := by
    intro u hu d
    unfold State.fieldLeft
    split
    · exact hu
    · split <;> exact hu
  refine this _ ?_ _
  split <;> rfl

theorem failClass_flt (s : State) (c : Cmd) (k : Traffic) (i a : Nat) : (s.failClass c k i a).flt = s.flt := by
  unfold State.failClass
  repeat' split
  all_goals first | rfl | exact refuse_flt _ _ _ | exact endWork_flt _ _ _

/-- The consequence of a failed transfer leaves ports and transfers (R379). -/
theorem failTraffic_pf (s : State) (g : Range) (p : Nat) : (s.failTraffic g p).ports = s.ports ∧ (s.failTraffic g p).xfers = s.xfers ∧
    (s.flt.pend.getLsbD 6 = true → (s.failTraffic g p).flt.pend.getLsbD 6 = true) := by
  unfold State.failTraffic
  split
  case h_7 =>
    split
    · exact ⟨rfl, rfl, id⟩
    · split
      · exact ⟨rfl, rfl, id⟩
      · split
        · have h := failClass_kept s (by assumption) g.kind g.idx g.addr
          rw [failClass_flt]
          exact ⟨(congrArg State.ports (failClass_kept _ _ _ _ _).lasting : _), (congrArg State.xfers (failClass_kept _ _ _ _ _).lasting : _), id⟩
        · rw [refuse_flt, unpause_flt]
          exact ⟨(congrArg State.ports ((unpause_kept _ _).trans (refuse_kept _ _ .badAddr)).lasting : _), (congrArg State.xfers ((unpause_kept _ _).trans (refuse_kept _ _ .badAddr)).lasting : _), id⟩
  all_goals first | exact ⟨rfl, rfl, id⟩ | (unfold State.bootFail; split <;> exact ⟨rfl, rfl, id⟩)

/-- A failed transfer (R379). -/
theorem failXfer_spec (s : State) (x : Xfer) (n : Nat) :
    (s.failXfer x n).xfers = s.xfers ∧ (s.failXfer x n).flt.pend.getLsbD 6 = true ∧
    (s.failXfer x n).ports = (s.modPort x.port (failPort x.op x.range.mover x.start n)).ports ∧
    (x.range.kind = .probe → (s.failXfer x n).probe = { s.probe with busy := false, issued := false, steered := false, tries := 0, code := n }) := by
  generalize hu : s.modPort x.port (failPort x.op x.range.mover x.start n) = u
  have hu1 : u.xfers = s.xfers := by rw [← hu]; rfl
  have hu2 : u.probe = s.probe := by rw [← hu]; rfl
  have e : s.failXfer x n = if x.range.kind = .probe then (((u.raise 6).raise 1).failTraffic x.range x.port).probeEnd n else ((u.raise 6).raise 1).failTraffic x.range x.port := by
    rw [← hu]; rfl
  rw [e]
  clear e hu
  obtain ⟨h1, h2, h3⟩ := failTraffic_pf ((u.raise 6).raise 1) x.range x.port
  have hp : ((u.raise 6).raise 1).flt.pend.getLsbD 6 = true := by
    show (u.flt.pend ||| BitVec.ofNat 10 (2 ^ 6) ||| BitVec.ofNat 10 (2 ^ 1)).getLsbD 6 = true
    rw [BitVec.getLsbD_or, BitVec.getLsbD_or]
    simp
  split
  · rename_i hk
    refine ⟨h2.trans hu1, h3 hp, h1, fun _ => ?_⟩
    rw [failTraffic_probe _ _ _ hk]
    show ({ u.probe with busy := false, issued := false, steered := false, tries := 0, code := n } : PortProbe) = _
    rw [hu2]
  · rename_i hk
    exact ⟨h2.trans hu1, h3 hp, h1, fun h => absurd h hk⟩

/-- What the end of a failed transfer does. -/
theorem endXfer_failed (v : State) (x : Xfer) (code : RspCode) (hc : code ≠ .ok) :
    SameBus v (v.endXfer x code) ∧ transferFailed v (v.endXfer x code) x code := by
  have hf : ∀ n, n = rspCodeNat code →
        (v.failXfer x n).xfers = v.xfers ∧ (∀ j, j ≠ x.port → (v.failXfer x n).port j = v.port j) ∧ (v.failXfer x n).flt.pend.getLsbD 6 = true ∧
        ((v.port x.port).errValid = true → (v.failXfer x n).port x.port = { v.port x.port with rspErr := true, errCount := (v.port x.port).errCount + 1 }) ∧
        ((v.port x.port).errValid = false → (v.failXfer x n).port x.port = { v.port x.port with
          rspErr := true, errCount := (v.port x.port).errCount + 1, errValid := true, errCode := rspCodeNat code
          errOp := x.op, errMover := x.range.mover % 16, errAddr := BitVec.ofNat 64 x.start }) ∧
        (x.range.kind = .probe →
          (v.failXfer x n).probe = { v.probe with busy := false, issued := false, steered := false, tries := 0, code := rspCodeNat code }) := by
    intro n hn
    subst hn
    obtain ⟨g1, g2, g3, g4⟩ := failXfer_spec v x (rspCodeNat code)
    have hport : ∀ j, (v.failXfer x (rspCodeNat code)).port j = (v.modPort x.port (failPort x.op x.range.mover x.start (rspCodeNat code))).port j := by
      intro j; unfold State.port; rw [g3]
    refine ⟨g1, fun j hj => ?_, g2, fun h => ?_, fun h => ?_, g4⟩
    · rw [hport, modPort_port_ne _ _ hj]
    · rw [hport, modPort_port_same]; unfold failPort; dsimp only; rw [if_pos h]
    · rw [hport, modPort_port_same]; unfold failPort; dsimp only; rw [if_neg (by rw [h]; simp)]
  unfold State.endXfer
  cases code
  case ok => exact absurd rfl hc
  case dataErr =>
    by_cases ht : x.range.tries = 0 ∧ x.op ≠ 2
    · simp only [if_pos ht]
      refine ⟨again_bus _ _, fun _ _ _ => ⟨fun h => ?_, fun h => ⟨fun h3 => ?_, fun h3 => ?_⟩⟩, fun h => ?_⟩
      · unfold State.again; dsimp only; rw [if_pos h]
      · unfold State.again; dsimp only; rw [if_neg h, if_pos (by rw [h3.1, h3.2]; rfl)]
      · unfold State.again; dsimp only; rw [if_neg h, if_neg]
        rcases h3 with h3 | h3 <;> simp [h3]
      · rcases h with h | h | h
        · exact absurd rfl h
        · exact absurd ht.1 h
        · exact absurd h ht.2
    · simp only [if_neg ht]
      exact ⟨failXfer_bus _ _ _, fun _ h1 h2 => absurd ⟨h1, h2⟩ ht, fun _ => hf 1 rfl⟩
  case addrErr => exact ⟨failXfer_bus _ _ _, fun h => absurd h (by simp), fun _ => hf 2 rfl⟩
  case unsupported => exact ⟨failXfer_bus _ _ _, fun h => absurd h (by simp), fun _ => hf 3 rfl⟩

/-- The frame of a row that fails a transfer. -/
theorem keepFail {s v : State} {x : Xfer} {code : RspCode} (hc : code ≠ .ok) (e1 : v.mem = s.mem) (e2 : v.pending = s.pending)
    (e3 : v.build = s.build) : s.keepMem s.mem (v.endXfer x code).settle.answered = (v.endXfer x code).settle.answered ∧
      (v.endXfer x code).settle.answered.mem = s.mem := by
  have h' := ((endXfer_failed v x code hc).1.trans (settle_bus _)).trans (answered_bus _)
  refine ⟨?_, h'.mem.trans e1⟩
  rw [← e1]
  exact keepMem_of h' e2 e3


end Sys2Proof.Machine
end

