-- ==== Sys2Proof/WellFormed.lean ====
section
/-! DEFINITION. The commands that Elzan's ports, clocks and packets can bring: the ranges of the operands that the
types of `Instr` leave wider than the manual does. -/

namespace Sys2Proof

/-- Entries of a DIGEST frame (14_ports.md R396; 16_faults_spares_pairs.md R449). -/
def digestEntries : Nat := 9

/-- Entries of a STATE frame (R449). -/
def stateEntries : Nat := 4

/-- A frame whose step takes one of `n` entries. -/
def FrameHdr.wf (h : FrameHdr) (n : Nat) : Bool := decide (h.idx < n)

/-- A word index of FLT_UE_INFO (R450). -/
def wordWf (w : Nat) : Bool := decide (w < 2 ^ 25)

/-- REGION of FLT_UE_INFO: 13 to 15 are never written (R450). -/
def regionWf (r : Nat) : Bool := decide (r < 13)

/-- The bank and the word of a Granary read: at most 4,096 banks of at most 16,384 words (04_granary.md R116;
17_startup.md R455). -/
def bankWordWf (bank word : Nat) : Bool := decide (bank < 4096) && decide (word < 16384)

/-- FAIL_DETAIL of a self-test that fails (R461). -/
def SelfTestEnd.wf : SelfTestEnd → Bool
  | .pass => true
  | .unrepairable region => regionWf region
  | .logicFail unit => decide (unit < 5)

/-- The groups and lines of a self-test: 16 groups of 64 lines, 64 groups of 64 banks (R91, R116, R455). -/
def SelfTest.wf (r : SelfTest) : Bool :=
  r.stop.wf && (r.cols ++ r.rows).all (fun e => decide (e.1 < 16) && decide (e.2 < 64))
    && r.banks.all (fun e => decide (e.1 < 64) && decide (e.2 < 64))
    && (r.colSpares ++ r.rowSpares).all (fun g => decide (g < 16)) && r.bankSpares.all (fun g => decide (g < 64))

/-- A parity error names one of 1,024 lines or 16 spares (R450). -/
def TileFault.wf : TileFault → Bool
  | .none => true
  | .granary bank word => bankWordWf bank word
  | .scaleStore bank word => bankWordWf bank word
  | .parity _ line => decide (line < 1040)

/-- The functions that an uncorrectable error resets by itself: 0 to 3 (R426). -/
def ResetSource.wf (fn : Fin 10) : ResetSource → Bool
  | .pin => true
  | .auto region word => regionWf region && wordWf word && decide (fn.val ≤ 3)

/-- The islands of the 24 ports (R21). -/
def Island.wf : Island → Bool
  | .port k => decide (k < 24)
  | _ => true

/-- The event classes that R409 charges to BG. -/
def tickClassWf (e : TickCount) : Bool := [5, 6, 11, 12, 13, 15, 16, 17, 18, 19, 20, 21].contains e.1

/-- Times that do not fall (R294). -/
def timesWf : List Time → Bool
  | [] => true
  | [_] => true
  | a :: b :: t => decide (a ≤ b) && timesWf (b :: t)

/-- The well-formed commands. -/
def Instr.wf : Instr → Bool
  | .selfTestDone r => r.wf
  | .fnRstAssert fn src _ => src.wf fn
  | .readResponse _ _ _ _ _ data _ => decide (data.length = 512)
  | .actFrame bytes _ _ => decide (bytes.length % 256 = 0) && decide (0 < bytes.length)
  | .acreTile fault ce _ => fault.wf && ce.banks.all fun b => decide (b < 4096)
  | .stripCommit _ _ times => decide (0 < times.length) && decide (times.length ≤ 65536) && timesWf times
  | .shardRecord bytes _ => decide (bytes.length % 64 = 0) && decide (0 < bytes.length)
  | .scrubStep bank word _ _ => bankWordWf bank word
  | .ledgerLost word _ => wordWf word
  | .fwBankUe word _ => wordWf word
  | .stripLost _ _ word _ => wordWf word
  | .ledgerTick _ bg _ _ => bg.all tickClassWf
  | .migrationCopyDone _ _ poisoned => poisoned.all fun w => decide (w < 16384)
  | .pairHello h _ _ _ _ _ => h.wf 1
  | .pairFailing h _ => h.wf 1
  | .pairDetachFrame h => h.wf 1
  | .pairDigest h _ _ => h.wf digestEntries
  | .pairStateDispatch h _ _ => h.wf stateEntries
  | .pairStateCheck h _ => h.wf stateEntries
  | .pairStateCommit h _ => h.wf stateEntries
  | .pairStateProgress h _ => h.wf stateEntries
  | .pairIdle h type => h.wf 1 && (type == 0 || decide (3 < type.toNat))
  | .supplyRemoved island => island.wf
  | .nop .. | .fence .. | .gateWait .. | .gateSignal .. | .loadHead .. | .evictHead .. | .stripSetInstall ..
  | .stripSetParams .. | .stripSetRelease .. | .stripGet .. | .sampleStep .. | .verifyTree .. | .headFwd ..
  | .shardMerge .. | .trainStep .. | .update .. | .updateSqsum .. | .updateResume .. | .sowFill .. | .ctxSave ..
  | .ctxRestore .. | .energySet .. | .fwSwapLoad .. | .fwSwapSwitch .. | .fwSwapLoadSwitch .. | .doorbell ..
  | .ringRestart .. | .ringCfgWrite .. | .cplHeadWrite .. | .gateWrite .. | .arbRingCommit | .arbRingSeed ..
  | .arbRingTktWrite .. | .arbMvrCommit | .arbMvrSeed .. | .arbMvrTktWrite .. | .sowProbeGo | .sowProbeDone
  | .winFnGo .. | .winFnDone | .prtProbeGo .. | .prtProbeResponse .. | .portOosWrite .. | .tenAdj ..
  | .tenWindowWrite .. | .grnSpareBankWrite .. | .acrSpareWrite .. | .fltResetWrite .. | .pairEn .. | .detach ..
  | .takeover .. | .perfSnap .. | .perfRelease | .go | .loReadLatch .. | .registerWrite .. | .rstNAssert
  | .rstNRelease | .pllBLock | .pllALock | .paramsRead .. | .firmwareRead .. | .fwReady .. | .startStageTimeout ..
  | .fnRstRelease .. | .fnResetDone .. | .stkPortReset .. | .stkDrained .. | .stkUp .. | .reqCreditReturn ..
  | .wdCreditReturn .. | .writeResponse .. | .transferTimeout .. | .moverTransferIssue .. | .moverPowerDown ..
  | .moverPowerUp .. | .fetchRetry .. | .cplWriteRetry .. | .ringDraw .. | .packetFetch .. | .gateTimeout ..
  | .barrierInHigh .. | .cutOff .. | .energyAdmit .. | .poolGrant | .harrowConvert .. | .conversionDone ..
  | .acreSelect .. | .tileHoldRelease .. | .stagingSwath .. | .computePhaseEnd .. | .resultRecordsWritten ..
  | .completionWritten .. | .ctxPauseReached .. | .mergeStart .. | .shardTimeout .. | .resSegmentSend ..
  | .tenantWindowTurn .. | .epochTurn .. | .telemetrySample .. | .sagLevelRise ..
  | .sagLevelFall .. | .powerFailHold .. | .held .. | .timeFault .. | .pairCredit | .pairResend | .pairIdleSend
  | .pairLinkDown | .barrierInLow | .apbInterfaceReset | .wrapperInstructionUpdate .. | .ijtagSelfTestInstrument .. => true

end Sys2Proof
end

