-- ==== Sys2Proof/Tests/Slice0.lean ====
section
/-! SUPPORT. Tests of the model: ill-formed commands, worked examples of the manual, single steps of a few rows, and for
each statement with hypotheses a state and operands that meet them. Expected values come from the manual's text. -/

namespace Sys2Proof.Tests

open Sys2Proof Sys2Proof.Machine

set_option Elab.async false

/-! ### Ill-formed commands -/

/-- A frame header whose step takes entry `i`. -/
def hdr (i : Nat) : FrameHdr := ⟨0, 0, true, i⟩

/-- A STATE entry of ring 0. -/
def entry : StateEntry := ⟨0, 0, 0, false, false, 0, 0⟩

/-- A self-test that found the given. -/
def selfTest (stop : SelfTestEnd) (cols banks : List (Nat × Nat)) (colSpares bankSpares : List Nat) : SelfTest :=
  ⟨stop, cols, [], banks, colSpares, [], bankSpares, false⟩

theorem test_wf_region : (Instr.selfTestDone (selfTest (.unrepairable 13) [] [] [] [])).wf = false := by decide
theorem test_wf_unit : (Instr.selfTestDone (selfTest (.logicFail 5) [] [] [] [])).wf = false := by decide
theorem test_wf_column : (Instr.selfTestDone (selfTest .pass [(0, 64)] [] [] [])).wf = false := by decide
theorem test_wf_bank : (Instr.selfTestDone (selfTest .pass [] [(64, 0)] [] [])).wf = false := by decide
theorem test_wf_colSpare : (Instr.selfTestDone (selfTest .pass [] [] [16] [])).wf = false := by decide
theorem test_wf_bankSpare : (Instr.selfTestDone (selfTest .pass [] [] [] [64])).wf = false := by decide
theorem test_wf_resetFunction : (Instr.fnRstAssert 4 (.auto 0 0) 0).wf = false := by decide
theorem test_wf_resetRegion : (Instr.fnRstAssert 0 (.auto 13 0) 0).wf = false := by decide
theorem test_wf_beat : (Instr.readResponse 0 0 0 true .ok [0] 0).wf = false := by decide
theorem test_wf_frame : (Instr.actFrame [0] none 0).wf = false := by decide
theorem test_wf_noFrame : (Instr.actFrame [] none 0).wf = false := by decide
theorem test_wf_parityLine : (Instr.acreTile (.parity true 1040) ⟨[], 0, 0, 0⟩ 0).wf = false := by decide
theorem test_wf_granaryBank : (Instr.acreTile (.granary 4096 0) ⟨[], 0, 0, 0⟩ 0).wf = false := by decide
theorem test_wf_scaleStoreWord : (Instr.acreTile (.scaleStore 0 16384) ⟨[], 0, 0, 0⟩ 0).wf = false := by decide
theorem test_wf_correctedBank : (Instr.acreTile .none ⟨[4096], 0, 0, 0⟩ 0).wf = false := by decide
theorem test_wf_noTimes : (Instr.stripCommit 0 0 []).wf = false := by decide
theorem test_wf_timesFall : (Instr.stripCommit 0 0 [2, 1]).wf = false := by decide
theorem test_wf_record : (Instr.shardRecord [] 0).wf = false ∧ (Instr.shardRecord [0] 0).wf = false := by decide
theorem test_wf_scrubWord : (Instr.scrubStep 0 16384 .clean false).wf = false := by decide
theorem test_wf_ledgerWord : (Instr.ledgerLost (2 ^ 25) 0).wf = false := by decide
theorem test_wf_fwWord : (Instr.fwBankUe (2 ^ 25) 0).wf = false := by decide
theorem test_wf_stripWord : (Instr.stripLost 0 false (2 ^ 25) 0).wf = false := by decide
theorem test_wf_tickClass : (Instr.ledgerTick 0 [(0, 1)] [] 0).wf = false := by decide
theorem test_wf_hello : (Instr.pairHello (hdr 1) true 0 0 0 0).wf = false := by decide
theorem test_wf_failing : (Instr.pairFailing (hdr 1) 0).wf = false := by decide
theorem test_wf_detach : (Instr.pairDetachFrame (hdr 1)).wf = false := by decide
theorem test_wf_digest : (Instr.pairDigest (hdr 9) ⟨0, 0, 0⟩ 0).wf = false := by decide
theorem test_wf_dispatch : (Instr.pairStateDispatch (hdr 4) entry 0).wf = false := by decide
theorem test_wf_check : (Instr.pairStateCheck (hdr 4) entry).wf = false := by decide
theorem test_wf_commit : (Instr.pairStateCommit (hdr 4) entry).wf = false := by decide
theorem test_wf_progress : (Instr.pairStateProgress (hdr 4) entry).wf = false := by decide
theorem test_wf_idle : (Instr.pairIdle (hdr 1) 0).wf = false ∧ (Instr.pairIdle (hdr 0) 3).wf = false := by decide
theorem test_wf_poison : (Instr.migrationCopyDone 0 0 [16384]).wf = false := by decide
theorem test_wf_island : (Instr.supplyRemoved (.port 24)).wf = false := by decide

/-! ### Worked examples of the manual -/

/-- 02_number_formats.md, worked example: AMAX 10.0 gives E = -8; the block's scale is 0x62, its elements 7, C, 2, 0. -/
theorem test_activationBlock : globalExp .e2m1 0x41200000#32 = -8 ∧
    quantBlock .e2m1 (-8) false (fun _ => none) [0x3F600000#32, 0xBE980000#32, 0x3DF00000#32, 0x3D200000#32]
      = ([7, 0xC, 2, 0], 0x62, ⟨0, 0, 1⟩) := by decide +kernel

/-- The same example: with AMAX 0.875 the next token uses E = -11. -/
theorem test_nextScale : globalExp .e2m1 0x3F600000#32 = -11 := by decide +kernel

/-- 03_acre.md, worked example: I = 22,120 and e = -9. -/
theorem test_blockProduct : blockTerm .e2m1 .e2m1 3 (-8) ⟨[3, 0xA, 7, 1], 0x36⟩ ⟨[7, 6, 7, 0xD], 0x62⟩ = (22120, -9) := by
  decide +kernel

/-- 06_sower.md: the state after two rounds of K = 0 and C = 0. -/
theorem test_sowerRounds : sowRound 0 0 1 (sowRound 0 0 0 ⟨0, 0, 0, 0⟩) = ⟨0xA5F13C27, 0, 0x7B4D92E9, 0⟩ := by decide +kernel

/-- 06_sower.md R147: U for w = 0 and w = 0x8000_0000. -/
theorem test_uniform : uniformOf 0 = 0x33800000#32 ∧ uniformOf 0x80000000#32 = 0x3F000001#32 := by decide +kernel

/-- 08_scoring.md, stages 1 to 4: row 4,100 gives 1.875 and row 4,101 gives -2.96875. -/
theorem test_scoring :
    (let p : StripParams := { (default : StripParams) with
       penEn := true, repPos := 0x3F000000#32, repNeg := 0x40000000#32, presPen := 0x3E800000#32, freqPen := 0x3E000000#32
       invTemp := 0x3FA00000#32 }
     let l : ScoreLists := ⟨[(4100, 0x3F000000#32)], [], [(4100, 2), (4101, 1)]⟩
     scoreRow p l 4100 0x40600000#32 = (0x3FF00000#32, 0) ∧ scoreRow p l 4101 0xBF800000#32 = (0xC03E0000#32, 0)) := by
  decide +kernel

/-- 08_scoring.md: the ledger after token 4,101 is committed. -/
theorem test_ledger : (ledgerAdd 0 [(4100, 2), (4101, 1)] 4101).1 = [(4100, 2), (4101, 2)] := by decide +kernel

/-- 12_rings_and_gates.md R321: the gate at 0xFFFF_FFFE with a wait on 1. -/
theorem test_gateWraps : gateSatisfied 0xFFFFFFFE 1 = false ∧ gateSatisfied (0xFFFFFFFE + 3) 1 = true := by decide

/-- 08_scoring.md, worked example: ln(3.0) is about 1.0986122887, and exp(+0) is 1.0. -/
theorem test_lnExp : lnFn 0x40400000#32 = 0x3F8C9F54#32 ∧ expFn 0 = fpOne := by decide +kernel

/-! ### Premises that are met

One theorem for each statement with hypotheses: states and operands that meet them, clause by clause, at boundary values. -/

/-- The block in operation: rst_n high, every stage passed. -/
def up : State := { State.reset with
  boot := { State.reset.boot with ready := true, stage := 8 }, pins := { State.reset.pins with rstLow := false } }

/-- The block in stage `n` of its start. -/
def starting (n : Nat) : State := { up with boot := { State.reset.boot with stage := n } }

/-- The halted block. -/
def stopped : State := { up with flt := { up.flt with ledgerLost := true } }

/-- The block with port 0 up. -/
def linkUp (req wd : Nat) : State := up.modPort 0 fun p => { p with up := true, reqCrd := req, wdCrd := wd }

/-- The block with ring `g` as ring 0. -/
def ringed (g : Ring) : State := up.modRing 0 fun _ => g

/-- A packet of 64 bytes, zero but for those listed. -/
def pk (l : List (Nat × Byte)) : List Byte := (List.range 64).map fun i => tblGet 0 l i

/-- A packet of `n` slots. -/
def slots (n : Nat) (l : List (Nat × Byte)) : List Byte := (List.range (64 * n)).map fun i => tblGet 0 l i

/-- A fetched packet of ring 0 with SEQ 0. -/
def packet (op : Nat) (p : List Byte) : Cmd := { (default : Cmd) with
  op := op, raw := op, pkt := p, run := p, gateOk := true, stage := .waiting }

/-- A dispatched command of ring 0 with SEQ 0. -/
def sent (op : Nat) (st : Stage) (p : List Byte) : Cmd := { packet op p with disp := some 0, stage := st }

/-- The block with the given packets. -/
def having (l : List Cmd) : State := { up with cmds := l, nextOrder := 9 }

/-- The block as a member of a pair. -/
def paired (role : Bool) : State := { up with pair := { up.pair with en := true, role := role, state := 2, up := true, credits := 4 } }

/-- A range and a transfer on port 0 under tag 0. -/
def range1 (w : Bool) (n : Nat) : Range := ⟨1, w, 64, n, if w then zeros n else [], 0, 0, .hidden, 0, 0⟩
def xfer1 (op beats seen : Nat) : Xfer := ⟨0, 0, op, 64, 64, beats, seen, .ok, range1 (decide (op ≠ 0)) 64, 0⟩
def busyPort (x : Xfer) : State := { linkUp 1 1 with xfers := [x] }

theorem witness_StepRunsFront : { up with pending := [.rstNRelease] }.pending = .rstNRelease :: [] ∧ up.pending = [] := by decide +kernel

theorem witness_StepKeepsMemoryForm :
    ({ up with pending := [.gateWrite 0 1] } : State).memOk ∧
    (match step { up with pending := [.gateWrite 0 1] } with | .next t => decide (t.gate 0 = 1) | _ => false) = true := by
  simp only [State.memOk]
  decide +kernel

theorem witness_MemoryChangesOnlyByResponses :
    (match exec (.readResponse 0 0 0 true .ok (List.replicate 512 1) 0) (busyPort (xfer1 0 1 0)) with
      | .next t => decide (t.byte 127 ≠ (busyPort (xfer1 0 1 0)).byte 127) | _ => false) = true ∧
    (match exec (.writeResponse 0 0 0 true .ok 0) { busyPort (xfer1 1 1 0) with xfers := [{ xfer1 1 1 0 with range := { range1 true 1 with data := [7] } }] } with
      | .next t => decide (t.byte 64 ≠ up.byte 64) | _ => false) = true := by
  decide +kernel

theorem witness_ResetRegisters : regOf 0 = some .version ∧ regOf 0xFFFFC = none := by decide +kernel

theorem witness_WritesNeedReady : isReadyWrite (.doorbell 63 0) = true ∧ State.reset.awake = false ∧
    ((starting 1).awake = true ∧ (starting 1).boot.ready = false) ∧
    (stopped.awake = true ∧ stopped.boot.ready = true ∧ stopped.halted = true) := by decide +kernel

/-- A ring of 64 slots that is enabled, with HEAD at the top of its range. -/
def ring64 : Ring := { ringReset with en := true, head := 0xFFFFFFFF }

/-- Ring 0 with EN = 0 while its packet at HEAD is fetched: its header is still being read, or its body. -/
def fetching0 (n : Nat) : State :=
  let s := ringed ringReset
  { s with arb := { s.arb with fetching := n, grant := some (0, 0), fetchSeq := 0 } }

theorem witness_fetching : (fetching0 2).serves ∧ ((fetching0 2).ring 0).en = false ∧ (fetching0 2).fetchingRing 0 = true ∧
    (fetching0 2).fetchCounted 0 = true ∧ (fetching0 2).inflightNow 0 = 1 ∧ (fetching0 1).serves ∧ (fetching0 1).fetchingRing 0 = true ∧
    (fetching0 1).fetchCounted 0 = false ∧ (fetching0 1).inflightNow 0 = 0 := by
  simp only [State.serves]
  decide +kernel

theorem witness_RingDoorbell : (ringed ring64).serves ∧ (up.ring 0).en = false ∧ ((ringed ring64).ring 0).en = true ∧
    ((0x40#32).toNat + 2 ^ 32 - ((ringed ring64).ring 0).head.toNat) % 2 ^ 32 > 2 ^ ((ringed ring64).ring 0).log2Slots ∧
    ((0x3F#32).toNat + 2 ^ 32 - ((ringed ring64).ring 0).head.toNat) % 2 ^ 32 ≤ 2 ^ ((ringed ring64).ring 0).log2Slots := by
  simp only [State.serves]
  decide +kernel

theorem witness_RingRestarts : (ringed { ring64 with stopped := true, cause := 3 }).serves := by
  simp only [State.serves]
  decide +kernel

theorem witness_RingConfiguration : (ringed ring64).serves ∧ up.serves ∧ (up.ring 0).en = false ∧ up.inflightNow 0 = 0 ∧
    ¬ ((ringed ring64).ring 0).en = false := by
  simp only [State.serves]
  decide +kernel

theorem witness_RingTickets : up.serves := by simp only [State.serves]; decide +kernel

theorem witness_MoverTickets : up.serves := witness_RingTickets

theorem witness_LotterySeeds : up.serves := witness_RingTickets

theorem witness_CompletionHead : (ringed { ring64 with cplBusy := true }).serves ∧ ((ringed { ring64 with cplBusy := true }).ring 0).cplBusy = true := by
  simp only [State.serves]
  decide +kernel

theorem witness_GateWriteAdds : (having [{ packet 0 (pk [(2, 1), (8, 1)]) with gateOk := false }]).serves ∧
    ((having []).gate 8191 + 0x80000000#32).toNat + 2 ^ 32 - (pkWaitValue (pk [(8, 1)])).toNat ≠ 0 := by
  simp only [State.serves]
  decide +kernel

theorem witness_tickets : up.serves := by
  simp only [State.serves]
  decide +kernel

/-- Two rings that request the command processor, the second with no tickets. -/
def twoRings (t : U32) : State :=
  let g := { ringReset with en := true, tail := 1 }
  { (up.modRing 0 fun _ => g).modRing 63 fun _ => g with
    arb := { up.arb with starveDraws := 1, tickets := [(0, ⟨t, t, 0⟩), (63, ⟨t, t, 0⟩)] } }

theorem witness_RingDrawGrants : ringDrawOn (twoRings 0) 0 = true ∧ (((twoRings 0).ringRequesters 0).map Prod.snd).sum = 0 ∧
    ringDrawOn (twoRings 0xFF) 0 = true ∧ (((twoRings 0xFF).ringRequesters 0).map Prod.snd).sum = 510 ∧
    ringDrawOn (twoRings 0xFF) 1 = true ∧ ((twoRings 0xFF).ringRequesters 1).map Prod.fst = [63] := by decide +kernel

theorem witness_StarvedRingsRaise : ringDrawOn (twoRings 0x10000101) 0 = true ∧
    (match exec (.ringDraw 1 0) (twoRings 0x10000101) with | .next t => decide (t.flt.pend = 0x20 ∧ t.arb.starve ≠ 0) | _ => false) = true := by
  decide +kernel

theorem witness_LotterySourceNeverZero : (1 : U32) ≠ 0 ∧ (0x80200003 : U32) ≠ 0 := by decide

theorem witness_PortAndMoverControl : up.serves ∧ up.powered = true ∧ State.reset.powered = false ∧ 23 < stackPorts up.build := by
  simp only [State.serves]
  decide +kernel

/-- A probe on port 0 that waits for a credit, and one that is on its way. -/
def probing (req : Nat) (issued : Bool) : State := { linkUp req 0 with probe := ⟨0, 0, 0, 0, 0, true, issued, false, 0⟩ }

theorem witness_CreditReturns :
    ((linkUp 0 4095).portLive 0 = true ∧ ((linkUp 0 4095).port 0).wdCrd = 4095) ∧
    ((linkUp 1023 0).portLive 0 = true ∧ ((linkUp 1023 0).port 0).reqCrd = 1023 ∧ (linkUp 1023 0).boot.stage ≠ 4) ∧
    (let s := { linkUp 0 0 with boot := { (starting 4).boot with go := true } }
     s.portLive 0 = true ∧ s.boot.stage = 4 ∧ s.boot.go = true ∧ s.boot.failed = false ∧ (s.port 0).oos = false) ∧
    ((probing 0 false).portLive 0 = true ∧ ((probing 0 false).port 0).reqCrd < 1024 ∧ (probing 0 false).probePort = some 0) := by
  decide +kernel

theorem witness_ProtocolErrors :
    ((linkUp 1024 4096).portLive 0 = true ∧ 1024 ≤ ((linkUp 1024 4096).port 0).reqCrd ∧ 4096 ≤ ((linkUp 1024 4096).port 0).wdCrd ∧
      (linkUp 1024 4096).xfer 0 1023 = none) ∧
    ((busyPort (xfer1 0 1 0)).portLive 0 = true ∧ (busyPort (xfer1 0 1 0)).xfer 0 0 = some (xfer1 0 1 0) ∧ (xfer1 0 1 0).op = 0 ∧
      (false = true ↔ (xfer1 0 1 0).seen + 1 ≠ (xfer1 0 1 0).beats)) ∧
    ((busyPort (xfer1 2 1 0)).xfer 0 0 = some (xfer1 2 1 0) ∧ (xfer1 2 1 0).op ≠ 0 ∧ (1 : BitVec 3) ≠ 0) ∧
    (((busyPort (xfer1 0 1 0)).port 0).timeoutUs ≠ 0 ∧
      ((1000001 : Time) - (xfer1 0 1 0).issued).toNat > ((busyPort (xfer1 0 1 0)).port 0).timeoutUs.toNat * 1000) := by
  decide +kernel

/-- The transfer of a probe of port 0 with operation `op`. -/
def probeXfer1 (op : Nat) : Xfer :=
  { xfer1 op 1 0 with range := { range1 (decide (op ≠ 0)) 8 with addr := 0, data := if op = 0 then [] else zeros 8, kind := .probe } }
def probed (op : Nat) : State := { busyPort (probeXfer1 op) with probe := ⟨0, 0, 0, op, 0, true, true, false, 0⟩ }

theorem witness_PortResets : up.awake = true ∧ 23 < stackPorts up.build ∧ (up.port 23).up = false ∧ stkUpOn up 23 = true ∧ up.xfers = [] ∧
    State.reset.awake = false ∧ (probed 2).awake = true ∧ (probed 2).drainWait = [] ∧ (probeXfer1 2).range.kind = .probe ∧
    ((probed 2).xfers.filter fun y => y.port == 0 && y.op == 2) = [probeXfer1 2] ∧
    (let s := { up with drainWait := [xfer1 1 1 0, probeXfer1 1] }
     s.awake = true ∧ ((s.drainWait.filter fun x => x.port == 0).map Xfer.range).filter (fun g => g.kind == .probe) = [(probeXfer1 1).range]) := by
  decide +kernel

theorem witness_ReadBeats :
    ((busyPort (xfer1 0 1 0)).portLive 0 = true ∧ (busyPort (xfer1 0 1 0)).xfer 0 0 = some (xfer1 0 1 0) ∧ (xfer1 0 1 0).op = 0 ∧
      (true = true ↔ (xfer1 0 1 0).seen + 1 = (xfer1 0 1 0).beats)) ∧
    ((busyPort (xfer1 0 8 6)).portLive 0 = true ∧ (busyPort (xfer1 0 8 6)).xfer 0 0 = some (xfer1 0 8 6) ∧ (6 : BitVec 3).toNat = (xfer1 0 8 6).seen ∧
      (false = true ↔ (xfer1 0 8 6).seen + 1 = (xfer1 0 8 6).beats)) := by
  decide +kernel

theorem witness_WriteResponses : (busyPort (xfer1 1 1 0)).portLive 0 = true ∧ (busyPort (xfer1 1 1 0)).xfer 0 0 = some (xfer1 1 1 0) ∧
    (xfer1 1 1 0).op ≠ 0 ∧ (xfer1 1 1 0).range.data.length ≤ 4096 := by decide +kernel

theorem witness_FailedTransfers :
    (let x := xfer1 0 1 0
     (busyPort x).portLive 0 = true ∧ (busyPort x).xfer 0 0 = some x ∧ RspCode.dataErr ≠ .ok ∧ x.range.tries = 0 ∧ x.op = 0 ∧
       (0 : BitVec 3).toNat = x.seen ∧ x.seen + 1 = x.beats ∧ x.code = .ok) ∧
    (let x := { xfer1 1 1 0 with range := { range1 true 64 with tries := 1 } }
     (busyPort x).portLive 0 = true ∧ (busyPort x).xfer 0 0 = some x ∧ x.range.tries ≠ 0 ∧ x.op ≠ 0 ∧ ((busyPort x).port 0).errValid = false) := by
  decide +kernel

theorem witness_TransferShape : 0 < (range1 false 1).len ∧ 0 < (range1 true (2 ^ 20)).len := by decide

/-- Mover 1 with range `r` to send, and port 0 granted to it or to none. -/
def mover (r : Range) (g : Option (Nat × Nat)) : State := { (linkUp 1 1).modPort 0 fun p => { p with grant := g } with queue := [r] }

theorem witness_MoverIssues :
    (let s := mover (range1 false 4096) none
     let u := (s.tick 0).probeIssue
     s.moving = true ∧ (u.moverPiece 1 0).isSome = true ∧ u.moverPiece 2 0 = none ∧ u.probePort ≠ some 0 ∧
       ((u.granted 0 1).port 0).grant = some (1, 0) ∧ ((u.moverPiece 1 0).all fun r => (u.granted 0 1).canIssue 0 1023 r) = true) ∧
    (let s := mover (range1 true 64) (some (1, 0))
     let u := (s.tick 0).probeIssue
     s.moving = true ∧ ((u.granted 0 1).port 0).grant = some (1, 0) ∧ ((u.moverPiece 1 0).all fun r => (u.granted 0 1).canIssue 0 0 r) = true) ∧
    (let s := { (linkUp 1 0).modPort 0 (fun p => { p with wdOwed := 1 }) with probe := ⟨0, 0, 0, 0, 0, true, false, false, 0⟩, queue := [range1 false 64] }
     let u := (s.tick 0).probeIssue
     s.moving = true ∧ (u.moverPiece 1 0).isSome = true ∧ u.probePort = some 0) := by
  decide +kernel

theorem witness_MoverDraw :
    (let s := mover (range1 false 64) (some (1, 0))
     (s.moverPiece 1 0).isSome = true ∧ (s.port 0).grant = some (1, 0) ∧ 0 < tktBurst (tblGet ticketsReset s.marb.tickets 1).live) ∧
    (let s := mover (range1 false 64) none
     (s.moverPiece 1 0).isSome = true ∧ (s.port 0).grant = none) ∧
    (let s := mover (range1 false 64) (some (1, 16))
     (s.moverPiece 1 0).isSome = true ∧ tktBurst (tblGet ticketsReset s.marb.tickets 1).live ≤ 16) ∧
    (let s := mover (range1 false 64) (some (2, 0))
     (s.moverPiece 1 0).isSome = true ∧ s.moverPiece 2 0 = none) := by
  decide +kernel

theorem witness_Probes :
    (up.serves ∧ up.probe.busy = false ∧ (1 : U32).getLsbD 0 = true ∧ up.inService 0 = false) ∧
    ((linkUp 1 0).serves ∧ (linkUp 1 0).inService 0 = true ∧ (0 : U32).getLsbD 0 = false) ∧
    ((probing 0 true).serves ∧ (probing 0 true).probe.busy = true) ∧
    (let w := { linkUp 1 0 with probe := ⟨0, 0, 0, 0, 0, true, false, false, 0⟩ }
     w.canIssue 0 (w.freeTag 0) w.probeRange = true) ∧
    (let w := probing 0 false
     w.canIssue 0 (w.freeTag 0) w.probeRange = false) ∧
    (∀ op ∈ [0, 1, 2], (probed op).probeXfer = some (probeXfer1 op) ∧ (probed op).portLive 0 = true ∧ (probeXfer1 op).code = .ok ∧
      (probeXfer1 op).op = (probed op).probe.reqOp ∧ (probeXfer1 op).range.addr = (probed op).probe.addr.toNat ∧
      (op ≠ 0 → (probeXfer1 op).range.data = leBytes 8 (probed op).probe.data.toNat)) := by
  simp only [State.serves]
  decide +kernel

/-! ### Registers -/

theorem witness_TenantRegisters : up.serves ∧ up.live ∧ (1 : U32) ≠ 0 ∧
    (tenantReset.windowUs ≠ 0 ∧ tenantReset.window < (1000000 : Time).toNat / (tenantReset.windowUs.toNat * 1000)) := by
  simp only [State.serves, State.live]
  decide +kernel

theorem witness_SpareMaps : up.serves ∧ bankGroups up.build = 64 ∧ (∀ i < 8, (up.field i).state = 0) ∧
    (∃ i < 8, ((up.modField 7 fun f => { f with state := 2 }).field i).state ≠ 0) ∧ (up.rowHalfNow = 3 → up.fnReset 0 = true) ∧
    15 < colGroups up.build ∧ up.acre.run = none ∧ { up with acre := { up.acre with run := some 0 } }.acre.run.isSome = true ∧
    (let s := { up with granary := { up.granary with spare := [(0, 0x80000005)], moved := [5] } }
     (tblGet 0 s.granary.spare 0).getLsbD 31 = true ∧ (0 : U32).getLsbD 31 = false) ∧
    ((tblGet 0 up.granary.spare 0).getLsbD 31 = false ∧ (tblGet 0 up.granary.spare 0).getLsbD 28 = false) := by
  simp only [State.serves]
  decide +kernel

/-- A commit in progress, which the reset of the command processor waits for. -/
def inCommit : State := having [{ sent 0x12 .committing (pk []) with commit := true }]

theorem witness_FunctionResets :
    (let c := sent 0x12 .queued (pk [])
     let s := having [c]
     s.running = true ∧ s.fnReset 4 = false ∧ s.fnReset 0 = false ∧ (s.cmds.map Cmd.order).Nodup ∧ (∀ d ∈ s.cmds, d.order < s.nextOrder) ∧
       resetEnds 4 c = some .abortedReset ∧ c.endsAtOnce ∧ s.flt.ueValid = false) ∧
    (inCommit.running = true ∧ inCommit.fnReset 4 = false ∧ (inCommit.cmds.map Cmd.order).Nodup ∧ (∀ d ∈ inCommit.cmds, d.order < inCommit.nextOrder) ∧
      ∃ c ∈ inCommit.cmds, isAcreOp c.op = true ∧ c.stage = .committing ∧ c.commit = true) ∧
    (let s := { up with flt := { up.flt with cpDue := true } }
     s.flt.cpDue = true ∧ (∀ c ∈ s.cmds, c.inCommit = false) ∧ s.fnReset 4 = false) ∧
    State.reset.running = false ∧
    ((starting 6).inStage 6 = true ∧ { starting 6 with boot := { (starting 6).boot with fwRead := true } }.boot.fwRead = true) ∧
    (let s := { up with flt := { up.flt with inReset := 2 } }
     s.running = true ∧ s.fnReset 1 = true ∧ s.fnHeld 1 = false) ∧
    (let s := { up with flt := { up.flt with inReset := 2, hold := 2 } }
     s.running = true ∧ s.fnReset 1 = true ∧ s.flt.hold.getLsbD 1 = true) := by
  simp only [Cmd.endsAtOnce]
  decide +kernel

theorem witness_FunctionProbes :
    (let s := { up with win := { up.win with sowBusy := true, fnBusy := true } }
     s.serves ∧ s.running = true ∧ s.win.sowBusy = true ∧ s.win.fnBusy = true ∧ s.win.fnSel = false ∧ fpFinite s.win.fnArg = true ∧
       fpPosFinite s.win.fnArg = false) ∧
    (fpPosFinite (0x3F800000 : F32) = true ∧ fpPosFinite (0x80000000 : F32) = false ∧ fpFinite (0x7F800000 : F32) = false) := by
  simp only [State.serves]
  decide +kernel

theorem witness_SnapshotsAndReads : up.serves ∧ { up with perf := { up.perf with snapValid := true } }.perf.snapValid = true ∧
    up.powered = true ∧ regOf 0xFFFFC = none ∧ up.boot.ready = true ∧ (starting 1).boot.ready = false ∧ isBootReg .irqEn = false ∧
    isBootReg .version = true ∧ regOf 0xC100 = some (.perf 0 false) ∧ latchPartner (.perf 0 false) = some (.perf 0 true) ∧
    regOf 0 = some .version ∧ latchPartner .version = none := by
  simp only [State.serves]
  decide +kernel

theorem witness_RegisterWrites : up.awake = true ∧ regOf 0xFFFFC = none ∧ (14 : BitVec 4) ≠ 15 ∧ regOf 0 = some .version ∧ isReadOnly .version = true ∧
    ((starting 1).awake = true ∧ (starting 1).boot.ready = false ∧ isBootReg .irqEn = false) ∧
    (stopped.awake = true ∧ stopped.boot.ready = true ∧ stopped.halted = true ∧ isFaultReg .arbSeed = false) ∧ up.serves ∧
    regOf 0x17FFC = some (.gate 8191) ∧ regOf 0x21FF4 = some (.tenant 255 5) ∧ regOf 0x1FD8 = some (.ring 63 6) ∧ regOf 0x8FE8 = some (.steer 62 2) ∧
    regOf 0x8400 = some (.port 0 0) ∧ regOf 0x89D4 = some (.port 23 5) ∧ 23 < stackPorts up.build ∧ up.boot.go = false ∧ up.build.pairLink = true ∧
    regOf 0x9000 = some .nrgCtl ∧ regOf 0x20004 = some (.tenant 0 1) ∧ isReadOnly (.ring 63 6) = false := by
  simp only [State.serves]
  decide +kernel

theorem witness_PairControl :
    (up.serves ∧ up.build.pairLink = true ∧ (0x80000000 : U32).getLsbD 31 = true ∧ (∀ r < 64, (up.ring r).en = false) ∧ up.pair.state ≠ 2) ∧
    (let c := sent 0x12 .queued (pk [])
     let s := { paired true with cmds := [c], nextOrder := 1 }
     s.serves ∧ s.secondary = true ∧ (s.cmds.map Cmd.order).Nodup ∧ c.disp.isSome = true ∧ c.stage ≠ .finished ∧ c.endsAtOnce ∧
       s.digested c = false ∧ c.stepped = false ∧ ¬ (c.accumulates = true ∧ s.progressOf c = none)) ∧
    ((paired false).serves ∧ (paired false).primary = true ∧ (paired false).pair.holding = false) ∧
    (let s := { up with build := { up.build with pairLink := false } }
     s.serves ∧ s.build.pairLink = false) := by
  simp only [State.serves, Cmd.endsAtOnce]
  decide +kernel

/-! ### Start-up -/

theorem witness_StartBegins : (starting 1).inStage 1 = true ∧ (starting 2).inStage 2 = true ∧ up.inStage 1 = false ∧ up.inStage 2 = false ∧
    ((starting 4).awake = true ∧ (starting 4).boot.go = false ∧
      ¬ ((starting 4).boot.stage = 4 ∧ (starting 4).boot.failed = false ∧ ∃ k < stackPorts (starting 4).build, (starting 4).inService k = true)) ∧
    (let s := { linkUp 1 0 with boot := (starting 4).boot }
     s.awake = true ∧ s.boot.go = false ∧ s.boot.stage = 4 ∧ s.boot.failed = false ∧ ∃ k < stackPorts s.build, s.inService k = true) ∧
    (let s := { starting 4 with boot := { (starting 4).boot with go := true } }
     s.awake = true ∧ s.boot.go = true) ∧
    (let s := { up with tap := ⟨.captureDr, 0x01, [], false⟩ }
     s.tap.state = .captureDr ∧ s.tap.ir = 0x01 ∧ (0x02 : BitVec 8) ≠ 0x01 ∧ s.tap.state.next false = .shiftDr) ∧
    ((TapState.exit1Ir).next true = .updateIr ∧ (TapState.selectIr).next true = .reset) ∧
    ({ up with tap := ⟨.idle, 0x10, [], false⟩ }.tap.ir = 0x10 ∧ up.tap.ir ≠ 0x10) ∧
    reachesLostBlock .go = false := by
  decide +kernel

theorem witness_SelfTestEnds : (starting 3).inStage 3 = true ∧ (selfTest .pass [] [] [] []).stop = .pass ∧
    (selfTest (.unrepairable 12) [] [] [] []).stop = .unrepairable 12 ∧ (selfTest (.logicFail 0) [] [] [] []).stop = .logicFail 0 ∧
    (starting 3).boot.go = false := by decide +kernel

/-- A parameter block with H_MAX 1,024 and its CRC, and the block in stage 5 with it at address 0. -/
def params : List Byte :=
  let p := (pk [(0, 0x45), (1, 0x4C), (2, 0x42), (3, 0x50), (4, 3), (9, 4)]).take 60
  p ++ leBytes 4 (crc32c p).toNat
def reading (p : List Byte) (fwLen : U32) : State := { starting 5 with
  mem := memWriteBytes [] 0 p, boot := { (starting 5).boot with fwLen := fwLen } }

theorem witness_ParameterBlock : (reading params 1).inStage 5 = true ∧ (reading params 1).awake = true ∧ (reading params 1).open 0 0 .param = false ∧
    (reading params 1).granary.shadows ≤ 8 ∧
    (let p := (reading params 1).bytes 0 64
     let h := leNat p 8 4
     leNat p 0 4 = 0x50424C45 ∧ leNat p 4 2 = 3 ∧ le32 p 60 = crc32c (p.take 60) ∧ (h % 1024 = 0 ∧ 1024 ≤ h ∧ h ≤ 32768 ∧ leNat p 12 1 ≤ 1 ∧
       leNat p 16 4 ≤ 4096) ∧ fixedGranules up.build h (leNat p 12 1 == 1) (leNat p 16 4) + 256 ≤ barnGranules up.build ∧
       zeroRange p 6 2 = true ∧ zeroRange p 13 3 = true ∧ zeroRange p 20 40 = true) := by
  decide +kernel

theorem witness_FirmwareAndReady : ((starting 6).inStage 6 = true ∧ (starting 6).open 0 0 .bootFw = false ∧ (starting 6).boot.fwRead = false) ∧
    (let s := { starting 6 with boot := { (starting 6).boot with fwRead := true } }
     s.inStage 6 = true ∧ s.boot.fwRead = true) ∧
    ((starting 7).inStage 7 = true ∧ (starting 7).pins.fnLow.getLsbD 4 = false ∧ (starting 7).rowHalfNow ≠ 3) ∧
    (let s := { starting 7 with pins := { (starting 7).pins with fnLow := 0x10 } }
     s.inStage 7 = true ∧ s.pins.fnLow.getLsbD 4 = true) := by
  decide +kernel

theorem witness_StageTimeouts : (∀ n ∈ [1, 2, 3, 4, 5, 6, 7, 8], (starting n).powered = true ∧ (starting n).boot.failed = false ∧
      (starting n).boot.stage = n ∧ (starting n).boot.fwRead = false ∧ (starting n).pins.fnLow.getLsbD 4 = false ∧ (starting n).boot.go = false) ∧
    { (starting 6).boot with fwRead := true }.fwRead = true ∧ { (starting 4).boot with go := true }.go = true := by decide +kernel

/-! ### Packets and control commands -/

/-- Ring 0 as it fetches: its slots at address 0 hold `p`, `n` of them before TAIL, and the fetch is in part `k`. -/
def fetching (k n : Nat) (p : List Byte) : State :=
  { ringed { ringReset with en := true, tail := BitVec.ofNat 32 n } with
    mem := memWriteBytes [] 0 p, arb := { up.arb with fetching := k, grant := some (0, 0) } }

theorem witness_PacketFetches :
    (packetFetchOn ((fetching 0 1 []).tick 0) 0 = true ∧ ((fetching 0 1 []).tick 0).open 0 0 .fetch = false) ∧
    (let s := fetching 1 1 (pk [(1, 2)])
     packetFetchOn (s.tick 0) 0 = true ∧ s.open 0 0 .fetch = false ∧ s.arb.fetching ≠ 0 ∧ pkLen (s.slots 0 0 1) = 2 ∧
       ((s.ring 0).tail - (s.ring 0).head).toNat < 2) ∧
    (let s := fetching 1 16 (pk [(1, 16)])
     packetFetchOn (s.tick 0) 0 = true ∧ s.arb.fetching = 1 ∧ pkLen (s.slots 0 0 1) = 16 ∧ 16 ≤ ((s.ring 0).tail - (s.ring 0).head).toNat) ∧
    (let s := fetching 1 1 (pk [(1, 1)])
     packetFetchOn (s.tick 0) 0 = true ∧ s.arb.fetching = 1 ∧ pkLen (s.slots 0 0 1) = 1 ∧ (∀ d ∈ s.cmds, d.order < s.nextOrder) ∧
       fetchReason (stripCount s.build) s.acre.cEff (s.slots 0 0 1) = none) ∧
    (let s := fetching 1 1 (pk [(1, 17)])
     packetFetchOn (s.tick 0) 0 = true ∧ fetchReason (stripCount s.build) s.acre.cEff (s.slots 0 0 1) = some .badLength) ∧
    (let s := fetching 2 2 (pk [(1, 2)])
     packetFetchOn (s.tick 0) 0 = true ∧ s.arb.fetching = 2 ∧ pkLen (s.slots 0 0 1) = 2) ∧
    up.dispatching = true ∧
    (let c := { packet 0 (pk []) with stage := .finished, recAsked := true }
     let s := { having [c] with rings := [(0, { ringReset with cplBusy := true, cplFailed := true })] }
     s.live ∧ (s.ring 0).cplBusy = true ∧ (s.ring 0).cplFailed = true ∧ s.recorded 0 = some c) := by
  simp only [State.live]
  decide +kernel

theorem witness_WaitsAndBarrier :
    (let c := { packet 0 (pk [(2, 1)]) with gateOk := false }
     let s := { having [c] with rings := [(0, { ringReset with waitTimeout := 1 })] }
     gateTimeoutOn (s.tick 1000000) 0 = some c) ∧
    (let c := packet opFwSwap (pk [])
     let c := { c with stage := .hold 0 }
     let s := having [c]
     s.dispatching = true ∧ s.waiting 0 = some c ∧ c.stage = .hold 0 ∧ (s.tick 100001).holdOver 0 c.entered = true) ∧
    (∀ k ∈ [1, 2], let s := fetching k 2 (pk [(1, 2)])
     s.dispatching = true ∧ s.waiting 0 = none ∧ s.arb.grant = some (0, 0) ∧ s.arb.fetching ≠ 0 ∧ s.fetchCounted 0 = true ∧
       (s.tick 100001).holdOver 0 s.arb.since = true ∧ (∀ d ∈ s.cmds, d.order < s.nextOrder)) ∧
    (let s := fetching 1 1 (pk [(1, 2)])
     s.arb.fetching ≠ 0 ∧ s.fetchCounted 0 = false ∧ (s.tick 100001).holdOver 0 s.arb.since = true) ∧
    (let c := packet 0 (pk [(2, 8)])
     (having [c]).awake = true ∧ (having [c]).barrier = none ∧ (having [c]).working = true ∧ (having [c]).cmds.find? Cmd.joins = some c ∧
       { having [c] with barrier := some 0 }.barrier = some 0 ∧ (having [c]).waiting 0 = some c ∧ c.op = opNop) := by
  decide +kernel

theorem witness_GateCommands :
    (let c := packet opNop (pk []); ((having [c]).tick 0).ctlFront 0 opNop = some c) ∧
    (let c := packet opFence (pk [(32, 1)]); ((having [c]).tick 0).ctlFront 0 opFence = some c) ∧
    (let c := packet opFence (pk [(32, 2)]); ((having [c]).tick 0).ctlFront 0 opFence = some c) ∧
    (let c := packet opGateWait (pk [(2, 1)]); ((having [c]).tick 0).ctlFront 0 opGateWait = some c ∧ pkWaitEn c.pkt = true) ∧
    (let c := packet opGateWait (pk []); ((having [c]).tick 0).ctlFront 0 opGateWait = some c ∧ pkWaitEn c.pkt = false) ∧
    (let c := packet opGateSignal (pk [(2, 2)]); ((having [c]).tick 0).ctlFront 0 opGateSignal = some c ∧ pkSigEn c.pkt = true) ∧
    (let c := packet opGateSignal (pk []); ((having [c]).tick 0).ctlFront 0 opGateSignal = some c ∧ pkSigEn c.pkt = false) := by
  decide +kernel

/-- STRIP_SET of strip `n` with mode `m`, in stage `st`. -/
def stripSet (n m : Byte) (st : Stage) : Cmd := { packet opStripSet (pk [(32, n), (34, m)]) with stage := st }

theorem witness_StripCommands :
    (∀ c ∈ [stripSet 0 0 .waiting, stripSet 0 1 .waiting, stripSet 0 2 .waiting, stripSet 0 3 .waiting, stripSet 0 0 (.hold 0), stripSet 0 0 (.hold 1)],
      ((having [c]).tick 0).ctlFront 0 opStripSet = some c ∧ pkStrip c.run < stripCount up.build) ∧
    (let c := packet opStripSet (pk [(32, 0xFF), (33, 0x0F)])
     let s := { having [c] with build := { up.build with strips := .s1024 } }
     (s.tick 0).ctlFront 0 opStripSet = some c ∧ stripCount s.build ≤ pkStrip c.run) ∧
    (let c := stripSet 0 1 (.hold 0)
     let s := { having [c] with strips := [(0, { stripReset with valid := true })] }
     (s.tick 0).ctlFront 0 opStripSet = some c ∧ (s.strip 0).valid = true ∧ s.open c.ring c.seq .stripRead = false) ∧
    (let c := stripSet 0 0 (.hold 0)
     let s := { having [c] with queue := [readRange .stripRead c 0 0 256] }
     (s.tick 0).ctlFront 0 opStripSet = some c ∧ s.open c.ring c.seq .stripRead = true) ∧
    (let b := (having [stripSet 0 0 (.hold 0)]).bytes 0 256
     imageReservedOk b = true ∧ leNat b 58 2 = 0) ∧
    (let b := ({ up with mem := [(58, 1)] } : State).bytes 0 256
     imageReservedOk b = true ∧ leNat b 58 2 = 1 ∧ leNat b 80 8 % 4 = 0) ∧
    (parseLedger (zeros 4) 1 = none ∨ ∃ l, parseLedger (zeros 4) 1 = some l) ∧
    (let c := packet opStripGet (pk [])
     let s := { having [c] with strips := [(0, { stripReset with valid := true })] }
     (s.tick 0).ctlFront 0 opStripGet = some c ∧ (s.strip 0).valid = true ∧ (s.tick 0).solo) ∧
    (let c := { packet opStripGet (pk []) with stage := .hold 0 }
     let s := { having [c] with strips := [(0, { stripReset with valid := true })] }
     (s.tick 0).ctlFront 0 opStripGet = some c ∧ s.writesOpen c.ring c.seq = false) := by
  refine ⟨by decide +kernel, by decide +kernel, by decide +kernel, by decide +kernel, by decide +kernel, by decide +kernel, ?_, ?_, by decide +kernel⟩
  · cases h : parseLedger (zeros 4) 1 with
    | none => exact .inl rfl
    | some l => exact .inr ⟨l, rfl⟩
  · simp only [State.solo]
    decide +kernel

theorem witness_StripImageRoundTrip :
    (let t : Strip := { stripReset with valid := true, tenant := 255, ledger := [(0, 0), (2 ^ 20 - 1, 2 ^ 12 - 1)] }
     t.valid = true ∧ t.tenant < 2 ^ 8 ∧ t.params.altCount < 2 ^ 8 ∧ t.params.topK < 2 ^ 16 ∧ t.params.biasCount < 2 ^ 16 ∧
       t.params.hedgeCount < 2 ^ 16 ∧ t.params.hedgeMode < 8 ∧ t.params.biasAddr < 2 ^ 64 ∧ t.params.hedgeAddr < 2 ^ 64 ∧
       t.ledger.length < 2 ^ 16 ∧ t.ledger.Pairwise (fun p q => p.1 < q.1) ∧ (∀ p ∈ t.ledger, p.1 < 2 ^ 20 ∧ p.2 < 2 ^ 12)) := by
  decide +kernel

/-- FW_SWAP with ACTION `a` and FW_LEN 256 × `n`, in stage `st`. -/
def fwSwap (a n : Byte) (st : Stage) : Cmd := { packet opFwSwap (pk [(44, a), (41, n)]) with stage := st }

theorem witness_EvictAndFirmware :
    (let c := packet opEvictHead (pk [(32, 7)])
     ((having [c]).tick 0).ctlFront 0 opEvictHead = some c ∧ ((having [c]).field (pkField c.run)).state = 0) ∧
    (let c := packet opEvictHead (pk [(32, 7)])
     let s := (having [c]).modField 7 fun f => { f with state := 2 }
     (s.tick 0).ctlFront 0 opEvictHead = some c ∧ (s.field (pkField c.run)).state ≠ 0) ∧
    (∀ c ∈ [fwSwap 0 2 .waiting, fwSwap 1 0 .waiting, fwSwap 2 2 .waiting, fwSwap 3 0 .waiting, fwSwap 0 0 .waiting, fwSwap 0 2 (.hold 0)],
      ((having [c]).tick 0).ctlFront 0 opFwSwap = some c) ∧
    (let c := fwSwap 1 0 .waiting
     let s := { having [c] with flt := { up.flt with standbyValid := true } }
     (s.tick 0).ctlFront 0 opFwSwap = some c ∧ s.flt.standbyValid = true) ∧
    fwCheck (zeros 512) 512 = .sig ∧ fwCheck (zeros 256) 256 = .size := by
  refine ⟨by decide +kernel, by decide +kernel, by decide +kernel, by decide +kernel, ?_, ?_⟩
  · unfold fwCheck
    have : leNat (zeros 512) 0 4 ≠ 0x46574C45 := by decide +kernel
    have h : ¬ (512 = 0 ∨ 512 > 2 ^ 20 ∨ 512 ≠ 512 + leNat (zeros 512) 8 4) := by decide +kernel
    rw [if_neg h, if_pos (.inl this)]
  · unfold fwCheck
    have h : 256 = 0 ∨ 256 > 2 ^ 20 ∨ 256 ≠ 512 + leNat (zeros 256) 8 4 := by decide +kernel
    rw [if_pos h]

/-- ENERGY_SET with the given bytes of its body, in stage `st`. -/
def energySet (l : List (Nat × Byte)) (st : Stage) : Cmd := { packet opEnergySet (slots 2 l) with stage := st }

theorem witness_EnergySetting :
    (let c := energySet [(32, 4), (56, 10)] .waiting
     ((having [c]).tick 0).ctlFront 0 opEnergySet = some c ∧ (having [c]).ordersOk ∧ ((having [c]).tick 0).fnReset 9 = false ∧
       (10 ≤ leNat c.run 56 4 ∧ leNat c.run 56 4 ≤ 1000000) ∧ pktBit c.run 32 3 = false ∧ pktBit c.run 32 4 = false) ∧
    (let c := energySet [(32, 4), (56, 9)] .waiting
     ((having [c]).tick 0).ctlFront 0 opEnergySet = some c ∧ (having [c]).ordersOk ∧ ¬ (10 ≤ leNat c.run 56 4)) ∧
    (let c := energySet [(32, 0x18), (61, 1)] .waiting
     ((having [c]).tick 0).ctlFront 0 opEnergySet = some c ∧ (having [c]).ordersOk ∧ pktBit c.run 32 3 = true ∧ leNat c.run 60 2 = 256) ∧
    (let c := energySet [(32, 0x18), (61, 1)] (.hold 0)
     ((having [c]).tick 0).ctlFront 0 opEnergySet = some c ∧ (having [c]).ordersOk ∧ (having [c]).open c.ring c.seq .coef = false ∧ pktBit c.run 32 4 = true) := by
  simp only [State.ordersOk]
  decide +kernel

/-- The block with one packet of ring 0, and it alone. -/
def one (c : Cmd) : State := having [c]

theorem witness_ClassCommands :
    (∀ op ∈ [opSample, opVerify, opHeadFwd, opTrain],
      ((one (packet op (slots 4 []))).tick 0).classFront 0 op = some (packet op (slots 4 []))) ∧ ((one (packet opSample [])).tick 0).solo ∧
    (let m := packet opMerge (pk [])
     (one m).classFront 0 opMerge = some m ∧ (one m).ordersOk ∧ (one m).named m ∧ (one m).mergeTarget m = none) ∧
    (let m := { packet opMerge (pk []) with ring := 63, order := 1 }
     let d := sent opHeadFwd .running (slots 2 [(34, 0x20)])
     let s := having [d, m]
     s.classFront 63 opMerge = some m ∧ s.ordersOk ∧ s.named m ∧ s.mergeTarget m = some d ∧ s.named d ∧ s.solo) := by
  simp only [State.ordersOk, State.named, State.solo]
  decide +kernel

/-- CTX_SAVE of ring 63 whose target is ring 0's packet with SEQ 0, in stage `st`, and that target. -/
def ctxSave (st : Stage) : Cmd := { packet opCtxSave (pk []) with ring := 63, order := 1, stage := st }
def target (begun : Bool) : Cmd := { sent opHeadFwd .running (slots 2 []) with work := { (default : Work) with begun := begun } }

theorem witness_ContextCommands :
    (∀ st ∈ [Stage.waiting, .hold 0, .hold 1], ∀ begun ∈ [true, false],
      (let c := ctxSave st
       let d := target begun
       let s := having [d, c]
       (s.tick 0).ctlFront 63 opCtxSave = some c ∧ s.ordersOk ∧ s.named c ∧ s.ctxTarget c = some d ∧ s.named d ∧ d.work.steps = [] ∧ s.solo ∧
         d.disp.isSome = true ∧ s.writesOpen c.ring c.seq = false ∧ s.writesOpen (pkTgtRing c.run) (pkTgtSeq c.run) = false)) ∧
    (∀ st ∈ [Stage.waiting, .hold 0],
      (let c := ctxSave st
       ((one c).tick 0).ctlFront 63 opCtxSave = some c ∧ (one c).ordersOk ∧ (one c).named c ∧ (one c).ctxTarget c = none)) ∧
    pkCtxSize (ctxSave .waiting).run < imageBytes 0 ∧
    (let c := packet opCtxRestore (pk [])
     (one c).classFront 0 opCtxRestore = some c ∧ (one c).restoring 0 = none ∧ (one c).seeding 0 = none) ∧
    (let c := sent opCtxRestore .queued (pk [(48, 0xFF), (49, 0xFF)])
     (one c).restoring 0 = some c ∧ (one c).working = true ∧ (one c).fnReset 4 = false ∧ (one c).named c ∧
       (one c).restoreReason ((one c).bytes 0 512) 65535 ≠ none) ∧
    (let c := sent opCtxRestore .queued (pk [(49, 4)])
     let s := { one c with mem := [(9, 4)] }
     s.restoring 0 = some c ∧ 512 < imgBytes (s.bytes 0 512) ∧ imgBytes (s.bytes 0 512) ≤ pkCtxSize c.run) := by
  simp only [State.ordersOk, State.named, State.solo]
  refine ⟨by decide +kernel, by decide +kernel, ?_, by decide +kernel, by decide +kernel, by decide +kernel⟩
  have : pkCtxSize (ctxSave .waiting).run = 0 := by decide +kernel
  unfold imageBytes
  omega

/-- A fill command in its work, ring 0 with SEQ 0. -/
def fill (op : Nat) (started : Bool) (w : Fill) (p : List Byte) : Cmd :=
  { sent op (if started then .running else .queued) p with started := started, admitted := true, work := { (default : Work) with fill := w } }

/-- A field of 1,024 words and H = 1,024, ready, as field 0. -/
def fielded (state : Nat) (s : State) : State := s.modField 0 fun f => { f with state := state, v := 1024, hk := 0, units := 2 }

/-- LOAD_HEAD of 1,024 words into field 0, with byte 33 (SRC_FMT and STREAM) as given. -/
def loadPk (b : Byte) : List Byte := slots 2 [(33, b), (36, 0xFF), (37, 3)]
/-- UPDATE with byte 33 (MODE, RESUME, CLIP_EN) as given, and EPS and CLIP_NORM 1.0. -/
def updPk (b : Byte) : List Byte := slots 3 [(33, b), (126, 0x80), (127, 0x3F), (146, 0x80), (147, 0x3F)]

/-- The command's row runs a unit of it: the premises that every clause of `FillCommands` after dispatch has. -/
def fillTurn (s : State) (c : Cmd) : Prop :=
  s.named c ∧ s.ordersOk ∧ s.solo ∧ s.classFront 0 c.op = none ∧ s.fillable c = true ∧ s.harrowTurn c = true

theorem witness_FillCommands :
    (∀ op ∈ [opLoadHead, opUpdate, opSowFill], (one (packet op (slots 3 []))).classFront 0 op = some (packet op (slots 3 []))) ∧
    (∀ b ∈ [(0 : Byte), 8, 1, 2], let c := fill opLoadHead false (default : Fill) (loadPk b)
     let s := one c
     fillTurn s c ∧ s.loadReason c.run = none ∧
       (match s.loadPlace c.run with | .ok x => decide (x = (0, if b = 8 then 2 else 1, b == 8)) | .error _ => false) = true) ∧
    (let c := fill opLoadHead false (default : Fill) (slots 2 [])
     fillTurn (one c) c ∧ (one c).loadReason c.run = some .badShape) ∧
    (∀ v ∈ [1024, 2048], let c := fill opLoadHead true { (default : Fill) with gathered := true } (loadPk 0)
     let s := (one c).modField 0 fun f => { f with state := 1, v := v }
     fillTurn s c ∧ pkLoadFmt c.run = 0 ∧ c.work.fill.gathered = true ∧ s.openIdx 0 0 .loadSrc 0 = false ∧ 0 + v / 1024 = (s.fieldOf c).n ∧
       c.work.steps = [] ∧ s.mergeOf c = none) ∧
    (∀ k ∈ [0, 63], ∀ g ∈ [true, false], let c := fill opLoadHead true { (default : Fill) with gathered := g, done := k } (loadPk 1)
     let s := (one c).modField 0 fun f => { f with state := 1, v := 1024 }
     fillTurn s c ∧ pkLoadFmt c.run ≠ 0 ∧ k < 64 * (s.fieldOf c).n ∧ (k = 63 → k + 1 = 64 * (s.fieldOf c).n) ∧
       s.openIdx 0 0 .loadSrc (k + if c.work.fill.gathered && fpIsZero (pkLoadAmax c.run) then 64 * (s.fieldOf c).n else 0) = false) ∧
    (let c := fill opUpdate false (default : Fill) (updPk 0)
     fillTurn (one c) c ∧ updReason ((one c).fieldOf c) c.run = some .fieldEmpty) ∧
    (∀ b ∈ [(0 : Byte), 4], let c := fill opUpdate false (default : Fill) (updPk b)
     let s := fielded 2 (one c)
     fillTurn s c ∧ updReason (s.fieldOf c) c.run = none ∧ pkUpdMode1 c.run = false ∧ pkClipEn c.run = (b == 4) ∧ 0 < (s.fieldOf c).brows) ∧
    (∀ k ∈ [0, 64], let c := fill opUpdate true { (default : Fill) with asked := k } (updPk 4)
     let s := fielded 2 (one c)
     fillTurn s c ∧ pkUpdMode1 c.run = false ∧ c.work.fill.gathered = false ∧ s.openIdx 0 0 .updRead k = false ∧ (s.fieldOf c).brows = 64) ∧
    (let c := fill opUpdate true { (default : Fill) with asked := 64 } (updPk 1)
     let s := fielded 2 (one c)
     fillTurn s c ∧ pkUpdMode1 c.run = true ∧ c.work.fill.gathered = false ∧ (s.fieldOf c).brows ≤ c.work.fill.asked) ∧
    (let c := fill opUpdate true { (default : Fill) with gathered := true } (updPk 0)
     let s := fielded 2 (one c)
     fillTurn s c ∧ pkUpdMode1 c.run = false ∧ c.work.fill.asked = c.work.fill.done ∧ s.openIdx 0 0 .updRead ((s.fieldOf c).brows + 0) = false ∧
       browBytes (s.fieldOf c) 0 ≠ 0) ∧
    (∀ k ∈ [0, 63], let c := fill opUpdate true { (default : Fill) with gathered := true, done := k, asked := k + 1 } (updPk 0)
     let s := fielded 3 (one c)
     fillTurn s c ∧ c.work.fill.done < c.work.fill.asked ∧ s.writesOpen 0 0 = false ∧ (s.fieldOf c).brows = 64) ∧
    (let c := fill opSowFill false (default : Fill) (slots 2 [(32, 1), (64, 1)])
     fillTurn (one c) c) ∧
    (let c := fill opSowFill true (default : Fill) (slots 2 [(32, 2), (64, 1)])
     fillTurn (one c) c ∧ c.work.fill.asked = c.work.fill.done ∧ pkFillBytes c.run 0 (min 65536 (pkFillCount c.run - 0)) ≠ []) ∧
    (∀ k ∈ [1, 2], let c := fill opSowFill true { (default : Fill) with asked := 1 } (slots 2 [(32, 2), (64, k)])
     fillTurn (one c) c ∧ c.work.fill.asked ≠ c.work.fill.done ∧ (one c).writesOpen 0 0 = false ∧ pkFillCount c.run = k.toNat) := by
  simp only [fillTurn, State.ordersOk, State.named, State.solo]
  refine ⟨?_, ?_, ?_, ?_, ?_, ?_, ?_, ?_, ?_, ?_, ?_, ?_, ?_, ?_⟩ <;> decide +kernel

theorem witness_RecordFormat : ({ packet 0x30 (pk []) with ring := 63, body := zeros 96 } : Cmd).raw < 2 ^ 8 ∧ 63 < 2 ^ 6 ∧ (zeros 96).length = 96 ∧
    (default : StripStep).reason = 0 ∧ (zeros 32).length ≤ 32 := by
  decide +kernel

theorem witness_CompletionWritten :
    (let c := { packet 0 (pk [(2, 0x12), (12, 1)]) with stage := .finished, recAsked := true }
     let s := { one c with rings := [(0, { ringReset with cplBusy := true })] }
     completionWrittenOn (s.tick 0) 0 = some c ∧ (s.tick 0).ordersOk ∧ (s.tick 0).solo ∧ pkSigEn c.pkt = true ∧ pkIrq c.pkt = true) ∧
    (let c := { sent opHeadFwd .finished (slots 2 [(34, 0x20)]) with recAsked := true, started := true, granted := true, granules := 1 }
     let s := { one c with rings := [(0, { ringReset with cplBusy := true })] }
     completionWrittenOn (s.tick 0) 0 = some c ∧ c.sharded = true ∧ c.granted = true ∧ c.cls = 1) := by
  simp only [State.ordersOk, State.solo]
  decide +kernel

/-! ### Pair, faults and energy -/

theorem witness_PairFrames :
    ((⟨7, 8, 6, zeros 116⟩ : PairFrame).type < 256 ∧ (⟨7, 8, 6, zeros 116⟩ : PairFrame).payload.length = 116) ∧
    (let s := { paired true with pair := { (paired true).pair with auto := true } }
     s.linked = true ∧ s.pair.queue = [] ∧ (hdr 0).crcOk = true ∧ (hdr 0).idx = 0 ∧ (hdr 0).fseq = s.pair.rxNext ∧ s.secondary = true ∧ s.pair.state = 2 ∧
       s.pair.auto = true ∧ s.pair.up = true ∧ s.pair.credits ≠ 0 ∧ s.pair.unacked.length < 32) ∧
    (let s := { paired true with pair := { (paired true).pair with rxNext := 1 } }
     (hdr 1).idx ≠ 0 ∧ (hdr 1).fseq + 1 = s.pair.rxNext) ∧
    (let c := { sent opHeadFwd .committing (slots 2 []) with ring := 0 }
     let s := { paired true with cmds := [c] }
     s.cmd 0 0 = some c ∧ c.stage = .committing ∧ c.work.steps = []) ∧
    ((paired false).linked = true ∧ (paired false).primary = true ∧ (⟨1, 0, true, 0⟩ : FrameHdr).fseq ≠ (paired false).pair.rxNext ∧
      (⟨0, 0, false, 0⟩ : FrameHdr).crcOk = false) ∧
    (let s := { up with pair := { up.pair with en := true, state := 1 } }
     s.linked = true ∧ s.pair.state = 1 ∧ true ≠ s.pair.role) ∧ (up.linked = true ∧ up.pair.state ≠ 1 ∧ up.pair.state ≠ 2) ∧
    (let s := { paired true with pair := { (paired true).pair with unacked := [⟨0, 0, 0, []⟩] } }
     (s.pair.unacked.filter fun f => decide (s.energy.level.val < 3) || f.type == 0).take s.pair.credits ≠ []) := by
  decide +kernel

theorem witness_FaultsAndSupply :
    (up.live ∧ up.granary.scrubEn = true ∧ up.energy.level.val < 3 ∧ 4095 < bankCount up.build ∧ 16383 < bankWords up.build ∧
      0 = tblGet 0 up.granary.scanned 4095 ∧ (4095, 0) ∉ up.granary.poison ∧ up.granary.served 0 = false ∧
      tblGet 0 up.granary.bankCe 0 + 1 < up.granary.ceLimit ∧ up.rowHalfNow ≠ 3 ∧ up.replaceDue = false) ∧
    16383 = tblGet 0 { up.granary with scanned := [(4095, 16383)] }.scanned 4095 ∧
    (let s := { up with granary := { up.granary with bankCe := [(0, 15)] } }
     s.granary.ceLimit ≤ tblGet 0 s.granary.bankCe 0 + 1 ∧ s.granary.served 0 = false ∧ (tblGet 0 s.granary.spare 0).getLsbD 31 = false ∧
       (tblGet 0 s.granary.spare 0).getLsbD 28 = false) ∧
    { up with granary := { up.granary with moved := [0] } }.granary.served 0 = true ∧
    (let s := { up with granary := { up.granary with moving := [0] } }
     s.live ∧ s.granary.moving.find? (fun b => b / 64 == 0) = some 0 ∧ s.rowHalfNow ≠ 3 ∧ s.replaceDue = false ∧ s.acre.run = none ∧
       s.granary.due = [] ∧ (∀ m ∈ s.granary.moving.erase 0, m / 64 ≠ 0)) ∧
    { up with acre := { up.acre with run := some 0 } }.acre.run.isSome = true ∧
    ((up.tick 0).running = true ∧ up.flt.ledgerLost = false ∧ up.pair.state ≠ 2 ∧ (up.tick 0).live ∧ up.flt.standbyValid = false ∧ up.acre.run = none ∧
      { up with flt := { up.flt with standbyValid := true } }.live) ∧
    ((up.tick 0).ordersOk ∧ (4095 : BitVec 12).toNat < stripCount up.build) ∧
    (let s := { up with timeNs := 1 }
     s.running = true ∧ (0 : Time) < s.timeNs) ∧
    (up.energy.level.val < (3 : SagLevel).val ∧ (0 : SagLevel).val ≤ up.energy.level.val) ∧
    (let s := { up with energy := { up.energy with level := 3, belowSince := some 0 } }
     (s.tick 100000).running = true ∧ s.rowHalfNow ≠ 3 ∧ s.pair.queue = [] ∧ s.pins.sag.val < s.energy.level.val ∧ s.energy.belowSince = some 0 ∧
       s.energy.exitHoldUs.toNat * 1000 ≤ ((s.tick 100000).timeNs - 0).toNat) ∧
    (State.reset.awake = false ∧ (starting 1).awake = true ∧ (starting 1).boot.ready = false ∧ (starting 1).boot.failed = false) ∧
    (let c := packet 0 (pk [])
     (one c).awake = true ∧ (one c).boot.ready = true ∧ (one c).energy.pfail = false ∧ (one c).ordersOk ∧ (one c).named c ∧ c.stage = .waiting ∧
       c.disp = none ∧ c.savable = false) ∧
    (let s := { up with energy := { up.energy with pfail := true, pfailArea := true } }
     s.running = true ∧ s.energy.pfail = true ∧ s.energy.pfailArea = true ∧ (∀ g ∈ s.ranges, g.write = false) ∧
       (∀ c ∈ s.cmds, (s.ring c.ring).cplBusy = false ∧ (s.recordReady c = false ∨ cplFull (s.ring c.ring) = true))) := by
  simp only [State.ordersOk, State.named, State.live]
  refine ⟨?_, ?_, ?_, ?_, ?_, ?_, ?_, ?_, ?_, ?_, ?_, ?_, ?_, ?_⟩ <;> decide +kernel

/-- A HEAD_FWD that waits in its queue. -/
def waitingHead : Cmd := { sent opHeadFwd .queued (slots 2 []) with started := true }

theorem witness_EnergyAccounting :
    (let s := one waitingHead
     s.planning = true ∧ s.ordersOk ∧ s.named waitingHead ∧ waitingHead.admittable = true ∧ s.energy.planEn = false ∧
       waitingHead.waitsPool = true ∧ s.working = true ∧ waitingHead.granules ≤ s.barn.poolSize ∧ waitingHead.granules ≤ s.barn.poolFree ∧
       (∀ d ∈ s.cmds, d.waitsPool = true → d.order ≠ waitingHead.order → waitingHead.cls < d.cls) ∧ (s.tick 0).live) ∧
    (let c := { waitingHead with granules := 1 }
     let s := { one c with barn := { up.barn with poolSize := 1 } }
     c.granules ≤ s.barn.poolSize ∧ s.barn.poolFree < c.granules ∧ c.waitsPool = true) ∧
    (let d := { waitingHead with ring := 1, order := 1, deferred := true }
     let c := { waitingHead with disp := some 1 }
     let s := { having [c, d] with energy := { up.energy with planEn := true } }
     s.planning = true ∧ s.ordersOk ∧ s.named c ∧ c.admittable = true ∧ d.isDeferred = true ∧ d.dispOrder < c.dispOrder ∧ d.cls ≤ c.cls) ∧
    (let s := { one waitingHead with energy := { up.energy with planEn := true, reserve := 1 } }
     s.planning = true ∧ s.energy.planEn = true ∧ ¬ ((s.projection waitingHead : Int) ≤ (s.energy.allow : Int) - s.energy.reserve)) ∧
    (let c := { waitingHead with deferred := true }
     let s := { one c with energy := { up.energy with planEn := true, reserve := 1 } }
     (s.tick 1000000).live ∧ s.energy.epoch < (1000000 : Time).toNat / (s.energy.epochUs * 1000) ∧ (s.tick 1000000).planning = true ∧
       s.energy.next = none ∧ c.isDeferred = true ∧ (s.energy.allow : Int) - s.energy.reserve < s.projection c) ∧
    (let s := { up with flt := { up.flt with inReset := 0x200 } }
     (s.tick 1000000).live ∧ (s.tick 1000000).planning = false) ∧
    ((up.tick 1000).live ∧ (up.tick 1000).tickOver = true ∧ (up.tick 0).tickOver = false ∧ (up.tick 1000).ordersOk ∧
      ∀ c ∈ (one waitingHead).cmds, (one waitingHead).named c) ∧
    (up.awake = true ∧ up.boot.ready = true ∧ up.timeNs ≤ 1000 ∧ up.phaseCounts = false ∧ up.cmds.any Cmd.isDeferred = false ∧
      up.cmds.any Cmd.inWait = false ∧ up.perf.deferTo ≤ 0 ∧ up.perf.waitTo ≤ 0) ∧
    ((one { waitingHead with deferred := true }).cmds.any Cmd.isDeferred = true ∧
      (one { packet 0 (pk [(2, 1)]) with gateOk := false }).cmds.any Cmd.inWait = true) := by
  simp only [State.ordersOk, State.named, State.live]
  refine ⟨?_, ?_, ?_, ?_, ?_, ?_, ?_, ?_, ?_⟩ <;> decide +kernel

/-! ### Harrow, Acre and results -/

/-- A HEAD_FWD of one token on field 0, admitted and ready to convert. -/
def convertingHead : Cmd := { sent opHeadFwd .queued (slots 2 [(36, 1)]) with
  started := true, admitted := true, granted := true, work := { (default : Work) with listsAsked := true, tokens := 1, s := 1, cEff := 1024 } }

theorem witness_HarrowCommands :
    (let s := fielded 2 (one convertingHead)
     s.ordersOk ∧ s.named convertingHead ∧ s.convertible convertingHead = true ∧ s.harrowTurn convertingHead = true ∧
       convertingHead.work.frameBad ≠ some convertingHead.work.convNext) ∧
    (let c := { convertingHead with op := opTrain, run := slots 4 [(36, 1)] }
     let s := fielded 2 (one c)
     s.ordersOk ∧ s.named c ∧ s.convertible c = true ∧ s.harrowTurn c = true ∧ c.op = opTrain ∧ c.work.convNext = 0) ∧
    (let c := { convertingHead with work := { convertingHead.work with frame := some [], frameBad := some 0 } }
     let s := fielded 2 (one c)
     s.named c ∧ s.convertible c = true ∧ s.harrowTurn c = true ∧ c.work.frameBad = some c.work.convNext ∧ c.work.begun = false) ∧
    (let c := { convertingHead with work := { convertingHead.work with converting := true } }
     let s := { fielded 2 (one c) with seed0 := { seedReset with owner := some (0, 0, 0) } }
     s.ordersOk ∧ s.named c ∧ s.working = true ∧ s.fnReset 2 = false ∧ c.active = true ∧ c.work.converting = true ∧ s.open 0 0 .hidden = false ∧
       s.seed0.owner = some (c.ring, c.seq, 0)) ∧
    (let s := { up with streams := { up.streams with frames := [(0, 0)] } }
     (s.tick 0).live ∧ s.fnReset 5 = false ∧ s.streams.frames = (0, 0) :: [] ∧ s.cmd 0 0 = none) ∧
    (let c := { convertingHead with run := slots 2 [(36, 1), (34, 0x40)] }
     let s := { fielded 2 (one c) with streams := { up.streams with frames := [(0, 0)] } }
     let want := c.work.tokens * ((s.fieldOf c).h * (if pkSrcBf16 c.run then 2 else 4)) - 0
     (s.tick 0).live ∧ s.streams.frames = (0, 0) :: [] ∧ s.cmd 0 0 = some c ∧ s.named c ∧ s.ordersOk ∧ c.frameLost = false ∧ s.takesFrame c = true ∧
       c.work.convNext = 0 ∧ (zeros 4096).length = want ∧ 256 * 15 < (zeros 4096).length ∧ (zeros 4095).length < want ∧ want < (zeros 4097).length) ∧
    { convertingHead with stage := .committing }.frameLost = true := by
  simp only [State.ordersOk, State.named, State.live]
  refine ⟨?_, ?_, ?_, ?_, ?_, ?_, ?_⟩ <;> decide +kernel

/-- The command on the Acre: its one pass is converted and stands in the Seedbed. -/
def onAcre (c : Cmd) : State := { fielded 2 (one c) with
  acre := { up.acre with run := some (0, 0) }, seed0 := { seedReset with owner := some (0, 0, 0), complete := true } }
def runningHead : Cmd := { convertingHead with
  stage := .running, work := { convertingHead.work with begun := true, convNext := 1, f := 1, s := 2048, tokens := 2048 } }

theorem witness_AcreCommands :
    (up.working = true ∧ up.ordersOk ∧ up.acre.run = none ∧ ∀ c ∈ up.cmds, up.ready c = false) ∧
    (let c := { convertingHead with work := { convertingHead.work with convNext := 1 } }
     let s := { onAcre c with acre := up.acre }
     s.working = true ∧ s.ordersOk ∧ s.acre.run = none ∧ s.ready c = true ∧ s.named c ∧ c.work.begun = false ∧ s.pair.state ≠ 2 ∧
       s.pair.holding = false ∧ s.rowHalfNow ≠ 3 ∧ s.bindReason c = none ∧ ∀ d ∈ s.cmds, d.order = c.order) ∧
    (let c := { runningHead with seq := 1 }
     let s := { onAcre c with acre := up.acre, seed0 := { seedReset with owner := some (0, 1, 0), complete := true } }
     s.ready c = true ∧ c.work.begun = true ∧ s.acre.run = none ∧ s.rowHalfNow ≠ 3) ∧
    (let s := onAcre runningHead
     s.onAcre = some runningHead ∧ s.named runningHead ∧ s.ordersOk ∧ s.acreUsable runningHead = true ∧ s.levelLets runningHead = true ∧
       runningHead.work.pauseAsked = false ∧ runningHead.work.ended = false ∧ runningHead.tilesDone = false ∧ s.acre.held = false ∧
       s.outranked runningHead = false ∧ s.tileReady runningHead = true ∧ s.faultFits (runningHead.unit (s.fieldOf runningHead)) (.granary 4096 0) = false ∧
       1023 < s.workLines false ∧
       runningHead.work.sub + runningHead.tileCols (runningHead.unit (s.fieldOf runningHead)) < runningHead.unitCols (s.fieldOf runningHead) (runningHead.unit (s.fieldOf runningHead)) ∧
       runningHead.work.tileEnd ≤ runningHead.work.sub) ∧
    (let s := { onAcre runningHead with seed0 := seedReset }
     s.onAcre = some runningHead ∧ s.tileReady runningHead = false ∧ s.faultFits (runningHead.unit (s.fieldOf runningHead)) .none = true ∧
       { s with acre := { s.acre with held := true } }.running = true) ∧
    (let d := { convertingHead with ring := 1, order := 1, op := opVerify, run := slots 2 [], work := { convertingHead.work with begun := true } }
     let s := { onAcre runningHead with cmds := [runningHead, d] }
     s.onAcre = some runningHead ∧ s.outranked runningHead = true ∧ s.ready d = true ∧ d.work.begun = true ∧ s.named runningHead ∧
       s.levelLets runningHead = true ∧ d.cls < runningHead.cls) ∧
    (let c := { runningHead with work := { runningHead.work with stageAsk := 1 } }
     let s := (one c).modField 0 fun f => { f with state := 2, v := 1024, stream := true }
     s.ordersOk ∧ s.named c ∧ s.working = true ∧ s.fnReset 0 = false ∧ isAcreOp c.op = true ∧ c.active = true ∧
       (s.fieldOf c).stream = true ∧ c.work.ended = false ∧ c.work.stageNext < c.work.stageAsk ∧ s.openIdx 0 0 .stage 0 = false) ∧
    (let c := { runningHead with work := { runningHead.work with pass := 1 } }
     let s := onAcre c
     s.onAcre = some c ∧ s.named c ∧ s.ordersOk ∧ s.working = true ∧ s.fnReset 1 = false ∧ c.work.begun = true ∧ c.work.ended = false ∧
       c.tilesDone = true ∧ isAcreOp c.op = true ∧ s.rowHalfNow ≠ 3 ∧ s.flt.cpDue = false) := by
  simp only [State.ordersOk, State.named]
  refine ⟨?_, ?_, ?_, ?_, ?_, ?_, ?_, ?_⟩ <;> decide +kernel

/-- A SAMPLE_STEP whose commit has begun, with the given strip-steps and byte 82 of its packet. -/
def committing (b : Byte) (ps : List StripStep) : Cmd := { sent opSample .committing (slots 2 [(82, b)]) with
  started := true, commit := true, work := { (default : Work) with begun := true, ended := true, steps := ps } }
def step0 : StripStep := default

theorem witness_ResultCommands :
    (∀ ps ∈ [[step0], [step0, { step0 with idx := 1, reason := 1 }]],
     (let c := committing 0 ps
      let s := one c
      s.ordersOk ∧ s.named c ∧ s.live ∧ s.solo ∧ c.stage = .committing ∧ pkResStream c.run = false ∧ c.op = opSample ∧ c.work.steps ≠ [] ∧
        (∀ p ∈ c.work.steps, p.asked = false ∧ p.reason < 256) ∧ (∀ i, i < c.work.steps.length → (c.work.steps.getD i default).idx = i) ∧
        (ps.map fun _ => (5 : Time)).length = c.work.steps.length ∧ (s.timeNs :: ps.map fun _ => (5 : Time)).Pairwise (· ≤ ·))) ∧
    pkResStream (committing 2 [step0]).run = true ∧
    (∀ ps ∈ [[{ step0 with asked := true }], [{ step0 with asked := true, reason := 1 }, { step0 with asked := true, idx := 1 }],
        [{ step0 with asked := true, failedWrite := true }]],
      (let c := committing 0 ps
       let s := one c
       s.ordersOk ∧ s.named c ∧ s.running = true ∧ s.pair.holding = false ∧ c.stage = .committing ∧ ps ≠ [] ∧ (∀ p ∈ ps, p.asked = true) ∧
         s.writesOpen 0 0 = false ∧ s.segmentsWait 0 0 = false ∧ s.flt.cpDue = false ∧
         ((ps.filter fun p => p.reason == 0 && !p.failedWrite).map StripStep.strip).Nodup)) ∧
    (tenantReset.past = [] ∧ (0 : Time).toNat < (⟨1, 0, 1, 0⟩ : Turn).since ∧ { tenantReset with windowUs := 0 }.windowUs = 0) ∧
    (let s := { one convertingHead with streams := { up.streams with queue := [⟨0, 0, 0, true, zeros 1⟩] } }
     s.running = true ∧ s.fnReset 6 = false ∧ s.streams.queue = ⟨0, 0, 0, true, zeros 1⟩ :: [] ∧ s.cmd 0 0 = some convertingHead ∧ s.cmd 1 0 = none ∧ s.ordersOk) ∧
    (let c := ctxSave (.hold 0)
     let d := { target true with work := { (target true).work with pauseAsked := true } }
     let s := having [d, c]
     s.ordersOk ∧ s.named c ∧ s.named d ∧ s.live ∧ s.solo ∧ d.savable = true ∧ d.work.begun = true ∧ d.work.pauseAsked = true ∧ d.work.steps = [] ∧
       pkTgtRing c.run = d.ring ∧ pkTgtSeq c.run = d.seq ∧
       (∀ e ∈ s.cmds, e.op = opCtxSave → e.stage = .hold 0 → pkTgtRing e.run = d.ring → pkTgtSeq e.run = d.seq → e.order = c.order)) := by
  simp only [State.ordersOk, State.named, State.live, State.solo]
  refine ⟨?_, ?_, ?_, ?_, ?_, ?_⟩ <;> decide +kernel

/-- A sharded HEAD_FWD whose phase has ended, with the SHARD_MERGE of ring 63 that found it. -/
def shardHead : Cmd := { sent opHeadFwd .running (slots 2 [(34, 0x20)]) with
  started := true, work := { (default : Work) with begun := true, ended := true, tokens := 1, s := 1 } }
def merging : Cmd := { sent opMerge .running (pk []) with ring := 63, order := 1, started := true }

/-- A shard record of type `n` with tag 0. -/
def record (n : Nat) : List Byte := recordBytes256 ⟨n, 1, 0, true, 0, 0, 0, 0, 0⟩ []

theorem witness_ShardCommands :
    (∀ level ∈ [(0 : SagLevel), 3],
      (let s := { (having [shardHead, merging]).modField 0 fun f => { f with shard := true, qM1 := 1, v := 2048 } with energy := { up.energy with level := level } }
       s.ordersOk ∧ s.named shardHead ∧ s.live ∧ s.solo ∧ s.fnReset 1 = false ∧ s.fnReset 7 = false ∧ s.exchangeOf 63 0 = some shardHead ∧
         shardHead.mayExchange = true ∧ shardHead.work.merge.aborted = false ∧ shardHead.roundDone (s.fieldOf shardHead) 1 = false ∧
         (s.fieldOf shardHead).shardId < 256 ∧ (s.fieldOf shardHead).qM1 < 256)) ∧
    ((record 3).length = 256 ∧ recordSound (record 3) = true ∧ recordSound (record 1) = true ∧ recTag (record 3) = 0 ∧ recTag (record 1) = 0) ∧
    (up.live ∧ up.fnReset 7 = false ∧ up.energy.level.val < 3 ∧ recordSound (zeros 256) = false ∧ (zeros 64).length ≠ 256 ∧ up.tagged 0 = none ∧
      up.taggedEnded 0 = false ∧ up.shard.early.length < 256 ∧
      256 ≤ { up.shard with early := List.replicate 256 [] }.early.length ∧ { up with shard := { up.shard with gone := [0] } }.taggedEnded 0 = true) ∧
    (let s := one shardHead
     s.tagged 0 = some shardHead ∧ s.named shardHead ∧ s.ordersOk ∧ shardHead.stage ≠ .finished ∧ shardHead.work.merge.active = false) ∧
    (let d := { shardHead with stage := .finished }
     (one d).tagged 0 = none ∧ (one d).taggedEnded 0 = true) ∧
    (let c := { runningHead with op := opTrain, run := slots 4 [(34, 0x20)], work := { runningHead.work with merge := { (default : Merge) with active := true, round := 1 } } }
     let s := { one c with shard := { up.shard with timeoutUs := 1 } }
     (s.tick 1000).ordersOk ∧ (s.tick 1000).named c ∧ (s.tick 1000).live ∧ (s.tick 1000).exchangeOf 0 0 = some c ∧ c.work.merge.active = true ∧
       c.work.merge.done = false ∧ c.work.merge.round ≠ 0 ∧ s.shard.timeoutUs ≠ 0 ∧
       s.shard.timeoutUs.toNat * 1000 ≤ ((s.tick 1000).timeNs - c.work.merge.start).toNat ∧ isAcreOp c.op = true ∧ c.disp.isSome = true ∧ c.stage ≠ .finished ∧
       (s.tick 1000).mergeOf c = none) := by
  simp only [State.ordersOk, State.named, State.live, State.solo]
  have h3 := recordBytes256_sound ⟨3, 1, 0, true, 0, 0, 0, 0, 0⟩ [] (.inr (.inr rfl))
  have h1 := recordBytes256_sound ⟨1, 1, 0, true, 0, 0, 0, 0, 0⟩ [] (.inl rfl)
  refine ⟨by decide +kernel, ⟨h3.1, h3.2.1, h1.2.1, h3.2.2.2.2.2, h1.2.2.2.2.2⟩, by decide +kernel, by decide +kernel, by decide +kernel, by decide +kernel⟩

theorem witness_OrdersStayDistinct :
    (let s := { one convertingHead with pending := [.ringRestart 0] }
     (∀ c ∈ s.pending.head?, leavesOpen c = false) ∧ s.ordersOk) := by
  simp only [State.ordersOk]
  decide +kernel

end Sys2Proof.Tests
end

section
/-! PROOF. What a write over the control port does to each register (R387, R430, R454, R472). -/

namespace Sys2Proof.Machine

/-! ### The answer to a write -/

/-- The meaning of the row. -/
theorem exec_registerWrite (a : BitVec 20) (v : U32) (strb : BitVec 4) (now : Time) (s : State) :
    exec (.registerWrite a v strb now) s = execRegisterWrite a v strb now s := rfl

/-- The block after a write that register `r` has taken. -/
def State.written (u : State) (r : Reg) (v : U32) : State := u.keep ((regWriteDo r v u).apbOut 0 false)

/-- The frame of a row after its tick is the frame of the row. -/
theorem tick_keep (s t : State) (now : Time) : (s.tick now).keep t = s.keep t := by simp only [keep_eq, tick_pending, tick_build, tick_mem]

theorem written_of {u w : State} {r : Reg} {v : U32} (h : regWriteDo r v u = w) : u.written r v = u.keep (w.apbOut 0 false) := by
  rw [State.written, h]

/-- A write that does nothing is answered all the same. -/
theorem written_of_same {u : State} {r : Reg} {v : U32} (h : regWriteDo r v u = u) : u.written r v = { u with apb := apbDone } := written_of h

/-- On a boot register a write does the same before and after READY. -/
theorem regWriteDo_boot {r : Reg} (h : isBootReg r = true) (v : U32) (u : State) : regWriteDo r v u = bootWriteDo r v u := by
  unfold isBootReg at h
  split at h
  case h_9 => cases h
  all_goals rfl

section
variable {a : BitVec 20} {v : U32} {now : Time} {s : State} {r : Reg}

theorem registerWrite_unmapped (ha : s.awake = true) (hr : regOf a = none) (strb : BitVec 4) :
    exec (.registerWrite a v strb now) s = .next { s.tick now with apb := apbErr } := by
  rw [exec_registerWrite, execRegisterWrite, ← tick_keep s _ now]
  simp only [tick_awake, ha, hr]
  rfl

theorem registerWrite_strobe (ha : s.awake = true) {strb : BitVec 4} (hb : strb ≠ 15) :
    exec (.registerWrite a v strb now) s = .next { s.tick now with apb := apbErr } := by
  cases hr : regOf a with
  | none => exact registerWrite_unmapped ha hr strb
  | some r =>
    rw [exec_registerWrite, execRegisterWrite, ← tick_keep s _ now]
    simp only [tick_awake, ha, hr, if_pos hb]
    rfl

/-- A full write of a mapped register: before READY the boot registers alone exist (R454), and a halted block leaves all but its
fault registers as they are (R430). -/
theorem registerWrite_mapped (ha : s.awake = true) (hr : regOf a = some r) :
    exec (.registerWrite a v 15 now) s = .next ((s.tick now).keep (
      if s.boot.ready = true then
        if s.halted = true ∧ isFaultReg r = false then (s.tick now).apbOut 0 false else (regWriteDo r v (s.tick now)).apbOut 0 false
      else if isBootReg r = true then (regWriteDo r v (s.tick now)).apbOut 0 false else (s.tick now).apbOut 0 true)) := by
  rw [exec_registerWrite, execRegisterWrite, tick_keep]
  simp only [tick_awake, tick_boot, tick_halted, ha, hr]
  cases s.boot.ready with
  | true => cases s.halted <;> cases isFaultReg r <;> rfl
  | false =>
    cases hb : isBootReg r with
    | true => rw [regWriteDo_boot hb]; rfl
    | false => rfl

theorem registerWrite_notReady (ha : s.awake = true) (hr : regOf a = some r) (h0 : s.boot.ready = false) (hb : isBootReg r = false) :
    exec (.registerWrite a v 15 now) s = .next { s.tick now with apb := apbErr } := by
  rw [registerWrite_mapped ha hr, h0, hb]; rfl

theorem registerWrite_halted (ha : s.awake = true) (hr : regOf a = some r) (h0 : s.boot.ready = true) (hh : s.halted = true)
    (hf : isFaultReg r = false) : exec (.registerWrite a v 15 now) s = .next { s.tick now with apb := apbDone } := by
  rw [registerWrite_mapped ha hr, if_pos h0, if_pos ⟨hh, hf⟩]; rfl

theorem registerWrite_boot (ha : s.awake = true) (hr : regOf a = some r) (hh : s.boot.ready = true → s.halted = false)
    (hb : isBootReg r = true) : exec (.registerWrite a v 15 now) s = .next ((s.tick now).written r v) := by
  rw [registerWrite_mapped ha hr, if_pos hb]
  split
  · rw [if_neg (fun h => Bool.false_ne_true ((hh ‹_›).symm.trans h.1))]; rfl
  · rfl

/-- From READY on a write is taken unless the block is halted and the register is no fault register. -/
theorem registerWrite_ready (ha : s.awake = true) (hr : regOf a = some r) (h0 : s.boot.ready = true)
    (hf : ¬ (s.halted = true ∧ isFaultReg r = false)) : exec (.registerWrite a v 15 now) s = .next ((s.tick now).written r v) := by
  rw [registerWrite_mapped ha hr, if_pos h0, if_neg hf]; rfl

theorem registerWrite_fault (ha : s.awake = true) (hr : regOf a = some r) (h0 : s.boot.ready = true) (hf : isFaultReg r = true) :
    exec (.registerWrite a v 15 now) s = .next ((s.tick now).written r v) :=
  registerWrite_ready ha hr h0 (by simp [hf])

theorem registerWrite_serves (hs : s.serves) (hr : regOf a = some r) :
    exec (.registerWrite a v 15 now) s = .next ((s.tick now).written r v) :=
  registerWrite_ready hs.1 hr hs.2.1 (by simp [hs.2.2])

/-- A read-only register takes no part in any write that is answered (R11, R387). -/
theorem registerWrite_readOnly (ha : s.awake = true) (hr : regOf a = some r) (h0 : s.boot.ready = true) (ho : isReadOnly r = true) :
    exec (.registerWrite a v 15 now) s = .next { s.tick now with apb := apbDone } := by
  by_cases hh : s.halted = true ∧ isFaultReg r = false
  · exact registerWrite_halted ha hr h0 hh.1 hh.2
  · rw [registerWrite_ready ha hr h0 hh, written_of_same (readOnly_write r v _ ho)]

/-- A register that a row of its own writes as `f` is written as by that row; the row acts on the block at the tick. -/
theorem registerWrite_row {f : State → State} (hs : s.serves) (hr : regOf a = some r) (hf : regWriteDo r v (s.tick now) = f (s.tick now)) :
    exec (.registerWrite a v 15 now) s = .next ((s.tick now).keep ((s.tick now).regWrite f)) := by
  rw [registerWrite_serves hs hr, State.written, hf, regWrite_serves (tick_serves hs now)]

/-- The same for a row that takes the time itself. -/
theorem registerWrite_timedRow {f : State → State} (hs : s.serves) (hr : regOf a = some r) (hf : regWriteDo r v (s.tick now) = f (s.tick now)) :
    exec (.registerWrite a v 15 now) s = .next (s.keep ((s.tick now).regWrite f)) := by
  rw [registerWrite_row hs hr hf, tick_keep]

end

/-! ### GO and the resets, whose rows are no plain register writes -/

/-- A write of START with GO = 1 is the row GO (R454). -/
theorem written_start {u : State} {v : U32} (ha : u.awake = true) (hv : v.getLsbD 0 = true) : .next (u.written .start v) = exec .go u := by
  have hp : (u.powered && !u.energy.heldFlag) = true := ha
  change _ = Host.Outcome.next (u.keep (if u.powered && !u.energy.heldFlag then (goDo u).apbOut 0 false else u))
  rw [if_pos hp]
  exact congrArg _ (written_of (r := .start) (if_pos hv))

/-- A write of FLT_RESET or FLT_PORT_RESET is the row FLT_RESET_WRITE (R432). -/
theorem written_fltReset {s : State} {v : U32} {now : Time} {r : Reg} (port : Bool) (hs : s.serves)
    (hr : regWriteDo r v (s.tick now) = fltResetDo port v (s.tick now)) :
    .next ((s.tick now).written r v) = exec (.fltResetWrite port v now) s := by
  change _ = execFltResetWrite port v now s
  simp only [execFltResetWrite, tick_awake, tick_boot, hs.1, hs.2.1, State.written, hr, tick_keep]
  rfl

/-! ### Words and their parts -/

theorem flagBit_getLsbD (v : U32) (i : Nat) : flagBit (v.getLsbD i) (2 ^ i) = v.toNat / 2 ^ i % 2 * 2 ^ i := by
  rw [BitVec.getLsbD, Nat.testBit_eq_decide_div_mod_eq, flagBit]
  rcases Nat.mod_two_eq_zero_or_one (v.toNat / 2 ^ i) with h | h <;> simp [h]

theorem bitField_eq (n hi lo : Nat) : bitField n hi lo = n / 2 ^ lo % 2 ^ (hi + 1 - lo) := by
  rw [bitField, Nat.shiftRight_eq_div_pow]

/-- A word is its two halves. -/
theorem halves_toNat (v : U32) : ((v >>> 16).setWidth 16 : U16).toNat * 2 ^ 16 + (v.setWidth 16 : U16).toNat = v.toNat := by
  have := v.isLt
  simp only [BitVec.toNat_setWidth, BitVec.toNat_ushiftRight, Nat.shiftRight_eq_div_pow]
  omega

theorem w1c_toNat {w : Nat} (x : BitVec w) (v : U32) : w1c x v.toNat = x &&& ~~~ v.setWidth w := by
  rw [w1c, BitVec.ofNat_toNat]

/-- The half of a 64-bit register that a write goes to reads back as written, but for its low `k` bits. -/
theorem half_setHalf_same (hi : Bool) {k m : Nat} (hm : 2 ^ k = m) (v : U32) (old : U64) :
    half hi (setHalf hi k v old).toNat = if hi then v.toNat else v.toNat / m * m := by
  subst hm
  have hv := v.isLt
  have ho := old.isLt
  have hk : v.toNat / 2 ^ k * 2 ^ k ≤ v.toNat := Nat.div_mul_le_self _ _
  cases hi <;> simp only [half, setHalf, BitVec.toNat_ofNat, if_true, Bool.false_eq_true, if_false] <;> omega

/-- A half without read-only bits. -/
theorem half_setHalf_word (hi : Bool) (v : U32) (old : U64) : half hi (setHalf hi 0 v old).toNat = v.toNat := by
  rw [half_setHalf_same hi (m := 1) rfl, Nat.div_one, Nat.mul_one, ite_self]

/-- The other half stays. -/
theorem half_setHalf_other (hi : Bool) (k : Nat) (v : U32) (old : U64) : half (!hi) (setHalf hi k v old).toNat = half (!hi) old.toNat := by
  have hv := v.isLt
  have ho := old.isLt
  have hk : v.toNat / 2 ^ k * 2 ^ k ≤ v.toNat := Nat.div_mul_le_self _ _
  cases hi <;> simp only [half, setHalf, BitVec.toNat_ofNat, Bool.not_true, Bool.not_false, if_true, Bool.false_eq_true, if_false] <;> omega

/-- The W1C bits of word `i` of a 64-bit register. -/
theorem w1c_half (x : U64) (v : U32) (i : Fin 2) {j : Nat} (hj : j < 64) :
    (w1c x (if i.val = 1 then v.toNat * 2 ^ 32 else v.toNat)).getLsbD j = (x.getLsbD j && !(decide (j / 32 = i.val) && v.getLsbD (j % 32))) := by
  have bit : (if i.val = 1 then v.toNat * 2 ^ 32 else v.toNat).testBit j = (decide (j / 32 = i.val) && v.getLsbD (j % 32)) := by
    match i with
    | 0 =>
      change v.getLsbD j = _
      by_cases hlo : j < 32
      · rw [Nat.div_eq_of_lt hlo, Nat.mod_eq_of_lt hlo]; rfl
      · rw [v.getLsbD_of_ge j (by omega), show j / 32 = 1 by omega]; rfl
    | 1 =>
      change (v.toNat * 2 ^ 32).testBit j = _
      rw [Nat.testBit_mul_two_pow]
      by_cases hlo : j < 32
      · rw [Nat.div_eq_of_lt hlo, decide_eq_false (by omega)]; rfl
      · rw [show j / 32 = 1 by omega, show j % 32 = j - 32 by omega, decide_eq_true (by omega)]; rfl
  simp only [w1c, BitVec.getLsbD_and, BitVec.getLsbD_not, BitVec.getLsbD_ofNat, hj, decide_true, Bool.true_and, bit]

/-! ### What a write leaves of each register -/

section
variable {u : State} {r : Reg} {v : U32} {k : Nat}

/-- A register that changes one ring. -/
theorem written_modRing {f : Ring → Ring} (h : regWriteDo r v u = u.modRing k f) :
    u.written r v = { u with rings := (u.written r v).rings, apb := apbDone } ∧
    (∀ j, j ≠ k → (u.written r v).ring j = u.ring j) ∧ (u.written r v).ring k = f (u.ring k) := by
  have e : u.written r v = { u with rings := tblModify ringReset u.rings k f, apb := apbDone } := written_of h
  rw [e]
  exact ⟨rfl, fun j hj => modRing_ring_ne u f hj, modRing_ring_same u k f⟩

/-- A register that changes one port. -/
theorem written_modPort {f : Port → Port} (h : regWriteDo r v u = u.modPort k f) :
    u.written r v = { u with ports := (u.written r v).ports, apb := apbDone } ∧
    (∀ j, j ≠ k → (u.written r v).port j = u.port j) ∧ (u.written r v).port k = f (u.port k) := by
  have e : u.written r v = { u with ports := tblModify portReset u.ports k f, apb := apbDone } := written_of h
  rw [e]
  exact ⟨rfl, fun j hj => modPort_port_ne u f hj, modPort_port_same u k f⟩

/-- A register that changes one tenant. -/
theorem written_modTenant {f : Tenant → Tenant} (h : regWriteDo r v u = u.modTenant k f) :
    u.written r v = { u with tenants := (u.written r v).tenants, apb := apbDone } ∧
    (∀ j, j ≠ k → (u.written r v).tenant j = u.tenant j) ∧ (u.written r v).tenant k = f (u.tenant k) := by
  have e : u.written r v = { u with tenants := tblModify tenantReset u.tenants k f, apb := apbDone } := written_of h
  rw [e]
  exact ⟨rfl, fun j hj => modTenant_tenant_ne u f hj, modTenant_tenant_same u k f⟩

end

section
variable (u : State) (v : U32)

/-- WAIT_TIMEOUT and HOLD_LIMIT of a ring (R334). -/
theorem written_ringTimes (k : Nat) :
    u.written (.ring k 6) v = { u with rings := (u.written (.ring k 6) v).rings, apb := apbDone } ∧
    (∀ j, j ≠ k → (u.written (.ring k 6) v).ring j = u.ring j) ∧
    (u.written (.ring k 6) v).ring k = { u.ring k with waitTimeout := (v >>> 16).setWidth 16, holdLimit := v.setWidth 16 } ∧
    (u.written (.ring k 6) v).regValue (.ring k 6) = v.toNat := by
  obtain ⟨he, hne, hk⟩ := written_modRing (u := u) (r := .ring k 6) (v := v) rfl
  refine ⟨he, hne, hk, ?_⟩
  change ((u.written (.ring k 6) v).ring k).waitTimeout.toNat * 2 ^ 16 + ((u.written (.ring k 6) v).ring k).holdLimit.toNat = _
  rw [hk]
  exact halves_toNat v

/-- A change of one ring that depends on a bit of the word. -/
theorem modRing_if (b : Bool) (k : Nat) (f : Ring → Ring) : ∃ g, (if b then u.modRing k f else u) = { u with rings := g } ∧
    (∀ j, j ≠ k → tblGet ringReset g j = u.ring j) ∧ tblGet ringReset g k = if b then f (u.ring k) else u.ring k := by
  cases b with
  | false => exact ⟨_, rfl, fun _ _ => rfl, rfl⟩
  | true => exact ⟨_, rfl, fun j hj => modRing_ring_ne u f hj, modRing_ring_same u k f⟩

/-- STATUS of a ring loses CFG_IGNORED and STOPPED where they are written as 1 (R334); with STOPPED goes CAUSE (R311, log 17). -/
theorem written_ringStatus (k : Nat) :
    (u.written (.ring k 5) v) = { u with rings := (u.written (.ring k 5) v).rings, apb := apbDone } ∧
    (∀ j, j ≠ k → (u.written (.ring k 5) v).ring j = u.ring j) ∧
    (u.written (.ring k 5) v).ring k = { u.ring k with
      cfgIgnored := (u.ring k).cfgIgnored && !v.getLsbD 27, stopped := (u.ring k).stopped && !v.getLsbD 31
      cause := if v.getLsbD 31 then 0 else (u.ring k).cause } := by
  obtain ⟨g, e, hne, hk⟩ := modRing_if u (v.getLsbD 27) k fun g => { g with cfgIgnored := false }
  obtain ⟨g', e', hne', hk'⟩ := modRing_if { u with rings := g } (v.getLsbD 31) k restartRing
  have h : regWriteDo (.ring k 5) v u = { u with rings := g' } := by rw [← e'] ; rw [← e]; rfl
  rw [State.written, h]
  refine ⟨rfl, fun j hj => (hne' j hj).trans (hne j hj), hk'.trans ?_⟩
  change (if v.getLsbD 31 then restartRing (tblGet ringReset g k) else tblGet ringReset g k) = _
  rw [hk]
  cases v.getLsbD 27 <;> cases v.getLsbD 31 <;> simp [restartRing]

/-- The W1C words of the completion and starvation bits (R334, R335). -/
theorem written_cplPend (i : Nat) : u.written (.cplPend i) v =
    { u with cplPend := w1c u.cplPend (if i = 1 then v.toNat * 2 ^ 32 else v.toNat), apb := apbDone } := rfl

theorem written_arbStarve (i : Nat) : u.written (.arbStarve i) v =
    { u with arb := { u.arb with starve := w1c u.arb.starve (if i = 1 then v.toNat * 2 ^ 32 else v.toNat) }, apb := apbDone } := rfl

/-- A half of PFAIL_ADDR (R424). -/
theorem written_pfailAddr (hi : Bool) : u.written (.pfailAddr hi) v =
    { u with energy := { u.energy with pfailAddr := setHalf hi 12 v u.energy.pfailAddr }, apb := apbDone } := rfl

/-- GRN_SCRUB keeps EN and CE_LIMIT; PASSES is read-only (R116). -/
theorem written_scrub : (u.written .grnScrub v).regValue .grnScrub =
    v.toNat / 2 ^ 31 * 2 ^ 31 + v.toNat / 2 ^ 16 % 2 ^ 8 * 2 ^ 16 + u.granary.passes.toNat := by
  change flagBit (v.getLsbD 31) (2 ^ 31) + bitField v.toNat 23 16 * 2 ^ 16 + u.granary.passes.toNat = _
  rw [flagBit_getLsbD, bitField_eq, Nat.mod_eq_of_lt (show v.toNat / 2 ^ 31 < 2 by have := v.isLt; omega)]

/-- NRG_CTL keeps PLAN_EN, TRIM_EN, GAIN and EXIT_HOLD (R424). -/
theorem written_nrgCtl : (u.written .nrgCtl v).regValue .nrgCtl = v.toNat / 2 ^ 30 * 2 ^ 30 + v.toNat % 2 ^ 20 := by
  change flagBit (v.getLsbD 31) (2 ^ 31) + flagBit (v.getLsbD 30) (2 ^ 30) + bitField v.toNat 19 16 * 2 ^ 16 + (v.setWidth 16).toNat = _
  rw [flagBit_getLsbD, flagBit_getLsbD, bitField_eq, BitVec.toNat_setWidth]
  have := v.isLt
  omega

/-- An entry of a table that takes a write unless its probe is busy. -/
theorem tblGet_setUnless (busy : Bool) (t : Tbl U32) (k j : Nat) (v : U32) :
    tblGet 0 (if busy then t else tblSet 0 t k v) j = if j = k ∧ busy = false then v else tblGet 0 t j := by
  cases busy with
  | true => exact (if_neg (by simp)).symm
  | false =>
    change tblGet 0 (tblSet 0 t k v) j = _
    by_cases h : j = k
    · rw [if_pos ⟨h, rfl⟩, h, tblGet_set_same]
    · rw [if_neg fun g => h g.1, tblGet_set_ne 0 t v h]

/-- The Sower probe's key and counter are written while BUSY is 0 (R157). -/
theorem written_sowKey (k : Nat) : u.written (.sowKey k) v = { u with
    win := { u.win with sowKey := if u.win.sowBusy then u.win.sowKey else tblSet 0 u.win.sowKey k v }, apb := apbDone } := by
  cases hb : u.win.sowBusy with
  | true => exact written_of (r := .sowKey k) (if_pos hb)
  | false => exact written_of (r := .sowKey k) (if_neg (by rw [hb]; exact Bool.false_ne_true))

theorem written_sowCtr (k : Nat) : u.written (.sowCtr k) v = { u with
    win := { u.win with sowCtr := if u.win.sowBusy then u.win.sowCtr else tblSet 0 u.win.sowCtr k v }, apb := apbDone } := by
  cases hb : u.win.sowBusy with
  | true => exact written_of (r := .sowCtr k) (if_pos hb)
  | false => exact written_of (r := .sowCtr k) (if_neg (by rw [hb]; exact Bool.false_ne_true))

/-- The function probe's argument is written while BUSY is 0 (R229). -/
theorem written_fnArg : u.written .fnArg v = { u with win := if u.win.fnBusy then u.win else { u.win with fnArg := v }, apb := apbDone } := by
  cases hb : u.win.fnBusy with
  | true => exact written_of (r := .fnArg) (if_pos hb)
  | false => exact written_of (r := .fnArg) (if_neg (by rw [hb]; exact Bool.false_ne_true))

/-- SNAP copies the counters, and RELEASE alone drops the copy (R478). -/
theorem written_perfCtl : u.written .perfCtl v = { u with
    apb := apbDone, perf := { u.perf with
      snap := if v.getLsbD 0 then u.perf.counters else u.perf.snap
      snapTime := if v.getLsbD 0 then u.timeNs else u.perf.snapTime
      snapValid := v.getLsbD 0 || (u.perf.snapValid && !v.getLsbD 1) } } := by
  rw [State.written, regWriteDo, perfCtlDo]
  cases v.getLsbD 0 <;> cases v.getLsbD 1 <;> simp [perfSnapDo, keep_eq, State.apbOut, apbDone]

/-- PAIR_STATUS exists in a build with the link alone (R443, R470). -/
theorem written_pairStatus : u.written .pairStatus v = { u with apb := apbDone, pair := if u.build.pairLink = true then { u.pair with
      diverged := u.pair.diverged && !v.getLsbD 28, failing := u.pair.failing && !v.getLsbD 27 } else u.pair } := by
  cases hb : u.build.pairLink with
  | true => exact written_of (r := .pairStatus) (if_pos hb)
  | false => exact written_of (r := .pairStatus) (if_neg (by rw [hb]; exact Bool.false_ne_true))

/-- STATUS of a port that the build has loses PROTO_ERR and RSP_ERR where they are written as 1 (R404). -/
theorem written_portStatus {k : Nat} (hk : k < stackPorts u.build) :
    u.written (.port k 0) v = { u with ports := (u.written (.port k 0) v).ports, apb := apbDone } ∧
    (∀ j, j ≠ k → (u.written (.port k 0) v).port j = u.port j) ∧
    (u.written (.port k 0) v).port k = { u.port k with
      protoErr := (u.port k).protoErr && !v.getLsbD 28, rspErr := (u.port k).rspErr && !v.getLsbD 27 } :=
  written_modPort (u := u) (r := .port k 0) (v := v) (if_neg (Nat.not_le.mpr hk))

/-- ERR of a port that the build has loses VALID where it is written as 1 (R404). -/
theorem written_portErr {k : Nat} (hk : k < stackPorts u.build) :
    u.written (.port k 2) v = { u with ports := (u.written (.port k 2) v).ports, apb := apbDone } ∧
    (∀ j, j ≠ k → (u.written (.port k 2) v).port j = u.port j) ∧
    (u.written (.port k 2) v).port k = { u.port k with errValid := (u.port k).errValid && !v.getLsbD 31 } :=
  written_modPort (u := u) (r := .port k 2) (v := v) (if_neg (Nat.not_le.mpr hk))

/-! ### The boot registers (R454) -/

/-- START does nothing without GO. -/
theorem written_startIdle (hv : v.getLsbD 0 = false) : u.written .start v = { u with apb := apbDone } :=
  written_of_same (if_neg (by rw [hv]; exact Bool.false_ne_true))

/-- After GO the addresses and the length stay. -/
theorem written_bootKept {r : Reg} {hi : Bool} (hr : r = .paramAddr hi ∨ r = .fwAddr hi ∨ r = .fwLen) (hg : u.boot.go = true) :
    u.written r v = { u with apb := apbDone } := by
  rcases hr with rfl | rfl | rfl <;> exact written_of_same (if_pos hg)

theorem written_paramAddr (hg : u.boot.go = false) (hi : Bool) : u.written (.paramAddr hi) v =
    { u with boot := { u.boot with paramAddr := setHalf hi 12 v u.boot.paramAddr }, apb := apbDone } :=
  written_of (r := .paramAddr hi) (if_neg (by rw [hg]; exact Bool.false_ne_true))

theorem written_fwAddr (hg : u.boot.go = false) (hi : Bool) : u.written (.fwAddr hi) v =
    { u with boot := { u.boot with fwAddr := setHalf hi 12 v u.boot.fwAddr }, apb := apbDone } :=
  written_of (r := .fwAddr hi) (if_neg (by rw [hg]; exact Bool.false_ne_true))

theorem written_fwLen (hg : u.boot.go = false) : u.written .fwLen v = { u with boot := { u.boot with fwLen := v }, apb := apbDone } :=
  written_of (r := .fwLen) (if_neg (by rw [hg]; exact Bool.false_ne_true))

/-! ### The probe of the stack ports (R385) -/

theorem written_probeBusy (hb : u.probe.busy = true) (hi : Bool) : u.written (.probeAddr hi) v = { u with apb := apbDone } ∧
    u.written (.probeData hi) v = { u with apb := apbDone } :=
  ⟨written_of_same (if_pos hb), written_of_same (if_pos hb)⟩

theorem written_probeAddr (hb : u.probe.busy = false) (hi : Bool) :
    u.written (.probeAddr hi) v = { u with probe := { u.probe with addr := setHalf hi 3 v u.probe.addr }, apb := apbDone } :=
  written_of (r := .probeAddr hi) (if_neg (by rw [hb]; exact Bool.false_ne_true))

theorem written_probeData (hb : u.probe.busy = false) (hi : Bool) :
    u.written (.probeData hi) v = { u with probe := { u.probe with data := setHalf hi 0 v u.probe.data }, apb := apbDone } :=
  written_of (r := .probeData hi) (if_neg (by rw [hb]; exact Bool.false_ne_true))

/-! ### Steering (R404, R384) -/

/-- What a word of a steering entry stores. -/
def steerStored (o : Nat) (v : U32) (e : Steer) : Steer :=
  match o with
  | 0 => { e with base := setHalf false 12 v e.base }
  | 1 => { e with base := setHalf true 0 v e.base }
  | _ => steerCfg v e

/-- A word of a steering entry changes that entry, and the grants of the ports whose movers stop requesting. -/
theorem written_steer (k o : Nat) :
    u.written (.steer k o) v = { u with steer := (u.written (.steer k o) v).steer, ports := (u.written (.steer k o) v).ports, apb := apbDone } ∧
    grantsGoOn u (u.written (.steer k o) v) ∧ (∀ j, ((u.written (.steer k o) v).port j).withGrant (u.port j) = u.port j) ∧
    (∀ j, j ≠ k → tblGet steerReset (u.written (.steer k o) v).steer j = tblGet steerReset u.steer j) ∧
    tblGet steerReset (u.written (.steer k o) v).steer k = steerStored o v (tblGet steerReset u.steer k) := by
  obtain ⟨q, e, hq, hg⟩ := endGrants_spec { u with steer := tblModify steerReset u.steer k (steerStored o v) }
  have h : regWriteDo (.steer k o) v u = { u with steer := tblModify steerReset u.steer k (steerStored o v), ports := q } := e
  rw [e] at hg
  rw [State.written, h]
  exact ⟨rfl, hg, hq, fun j hj => tblGet_modify_ne _ _ _ hj, tblGet_modify_same _ _ _ _⟩

theorem steerWord_zero (e : Steer) : steerWord e 0 = half false e.base.toNat := by rw [steerWord]

theorem steerWord_one (e : Steer) : steerWord e 1 = half true e.base.toNat := by rw [steerWord]

/-- The half of BASE that is written reads as written, and the other half stays. -/
theorem steerWord_stored_base {o : Nat} (ho : o ≤ 1) (v : U32) (e : Steer) :
    steerStored o v e = { e with base := (steerStored o v e).base } ∧
    steerWord (steerStored o v e) o = (if o = 0 then v.toNat / 4096 * 4096 else v.toNat) ∧
    steerWord (steerStored o v e) (1 - o) = steerWord e (1 - o) := by
  match o with
  | 0 =>
    refine ⟨rfl, ?_, ?_⟩
    · rw [steerWord_zero, if_pos rfl]
      exact half_setHalf_same (k := 12) false rfl v e.base
    · rw [steerWord_one, steerWord_one]
      exact half_setHalf_other false 12 v e.base
  | 1 =>
    refine ⟨rfl, ?_, ?_⟩
    · rw [steerWord_one, if_neg Nat.one_ne_zero]
      exact half_setHalf_word true v e.base
    · rw [steerWord_zero, steerWord_zero]
      exact half_setHalf_other true 0 v e.base

/-- The fields of PRT_STEER_n_CFG are limited to their ranges. -/
theorem steerStored_cfg (v : U32) (e : Steer) : steerStored 2 v e = { e with
    en := v.getLsbD 31
    log2Size := if 12 ≤ v.toNat / 2 ^ 24 % 64 then v.toNat / 2 ^ 24 % 64 else 12
    log2Il := if 12 ≤ v.toNat / 2 ^ 16 % 32 ∧ v.toNat / 2 ^ 16 % 32 ≤ 22 then v.toNat / 2 ^ 16 % 32 else 12
    first := v.toNat / 2 ^ 8 % 32
    count := if v.toNat % 32 = 0 then 1 else if 24 < v.toNat % 32 then 24 else v.toNat % 32 } := by
  have hmin : min (v.toNat % 32) 24 = if 24 < v.toNat % 32 then 24 else v.toNat % 32 := by split <;> omega
  change steerCfg v e = _
  simp only [steerCfg, bitField_eq, hmin, Nat.reduceAdd, Nat.reduceSub, Nat.reducePow]

end

/-! ### Every register -/

/-- Settles O34: what the answer to a write is, and then register by register what it leaves. -/
theorem registerWrites : Obligations.RegisterWrites := by
  intro a v now s ha
  dsimp only
  refine ⟨fun hr strb => registerWrite_unmapped ha hr strb, fun strb hb => registerWrite_strobe ha hb, fun r hr => ⟨fun h0 hb =>
    registerWrite_notReady ha hr h0 hb, ?ignored, ?boot, ?fault, ?rows, ?kept⟩⟩
  case ignored =>
    rintro h0 (⟨hh, hf⟩ | ho)
    · exact registerWrite_halted ha hr h0 hh hf
    · exact registerWrite_readOnly ha hr h0 ho
  case boot =>
    intro hh
    have hw (hb : isBootReg r = true) := registerWrite_boot (v := v) (now := now) ha hr hh hb
    refine ⟨?_, ?_, ?_, ?_, ?_⟩
    · rintro rfl hv
      exact (hw rfl).trans (written_start (by rwa [tick_awake]) hv)
    · rintro rfl hv
      exact (hw rfl).trans (congrArg _ (written_startIdle _ v hv))
    · intro hi h hg
      have hb : isBootReg r = true := by rcases h with rfl | rfl | rfl <;> rfl
      exact (hw hb).trans (congrArg _ (written_bootKept _ v h (by rwa [tick_boot])))
    · intro hi hg
      rw [← tick_boot s now] at hg ⊢
      constructor
      · rintro rfl
        exact ⟨_, (hw rfl).trans (congrArg _ (written_paramAddr _ v hg hi)), half_setHalf_same hi rfl v _, half_setHalf_other hi 12 v _⟩
      · rintro rfl
        exact ⟨_, (hw rfl).trans (congrArg _ (written_fwAddr _ v hg hi)), half_setHalf_same hi rfl v _, half_setHalf_other hi 12 v _⟩
    · rintro rfl hg
      rw [← tick_boot s now] at hg ⊢
      exact (hw rfl).trans (congrArg _ (written_fwLen _ v hg))
  case fault =>
    intro h0
    have hw (hf : isFaultReg r = true) := registerWrite_fault (v := v) (now := now) ha hr h0 hf
    rw [← tick_flt s now]
    generalize s.tick now = u at hw ⊢
    refine ⟨?_, ?_, ?_, ?_, ?_, ?_⟩
    · rintro rfl; rw [hw rfl, ← w1c_toNat]; rfl
    all_goals rintro rfl; rw [hw rfl]; rfl
  case rows =>
    intro hs
    have row {f : State → State} := registerWrite_row (v := v) (now := now) (f := f) hs hr
    have timedRow {f : State → State} := registerWrite_timedRow (v := v) (now := now) (f := f) hs hr
    refine ⟨?_, ?_, ?_, ?_, ?_, ?_, ?_, ?_, ?_, ?_, ?_, ?_⟩
    · rintro g rfl; exact row rfl
    · exact fun k => ⟨by rintro rfl; exact row rfl, by rintro rfl; exact timedRow rfl⟩
    · refine fun k => ⟨?_, ?_, ?configuration, ?_, ?_⟩
      case configuration =>
        intro e he
        simp only [List.mem_cons, List.not_mem_nil, or_false] at he
        rcases he with rfl | rfl | rfl | rfl | rfl | rfl <;> (rintro rfl; exact row rfl)
      all_goals rintro rfl; exact row rfl
    · refine fun k => ⟨?_, ?_, ?_, ?_, ?_⟩
      all_goals rintro rfl; exact row rfl
    · rintro k hk rfl
      exact row (if_neg (by rw [tick_build]; omega))
    · rintro rfl hv; exact row (if_pos hv)
    · rintro rfl hv; exact row (if_pos hv)
    · rintro rfl hv; exact row (by rw [regWriteDo, sowGoDo, sowGoDo, hv]; rfl)
    · rintro rfl; exact row rfl
    · rintro rfl; exact timedRow rfl
    · rintro rfl; exact (registerWrite_serves hs hr).trans (written_fltReset false hs rfl)
    · rintro rfl; exact (registerWrite_serves hs hr).trans (written_fltReset true hs rfl)
  case kept =>
    intro hs
    refine ⟨_, registerWrite_serves hs hr, ?_⟩
    obtain ⟨τ, p, hs'⟩ : ∃ τ p, s = { s.tick now with timeNs := τ, perf := p } := ⟨s.timeNs, s.perf, by rw [tick_eq]⟩
    clear hs ha
    generalize s.tick now = u at hs' ⊢
    subst hs'
    dsimp only
    refine ⟨?ringTimes, ?ringStatus, ?cplPend, ?arbStarve, ?mvrStarve, ?arbCtl, ?mvrCtl, ?grnStatus, ?grnUe, ?grnScrub, ?fnArg, ?sowKey,
      ?sowCtr, ?ttSel, ?port, ?probe, ?steer, ?nrgCtl, ?pfailAddr, ?pfailSize, ?shdTimeout, ?pairStatus, ?pairDiverge, ?linkStatus,
      ?tenant, ?perfCtl⟩
    case ringTimes => rintro k rfl; exact written_ringTimes _ v k
    case ringStatus => rintro k rfl; exact written_ringStatus _ v k
    case cplPend => rintro i rfl; rw [written_cplPend]; exact ⟨rfl, fun j hj => w1c_half u.cplPend v i hj⟩
    case arbStarve => rintro i rfl; rw [written_arbStarve]; exact ⟨rfl, fun j hj => w1c_half u.arb.starve v i hj⟩
    case mvrStarve => rintro rfl; rw [← w1c_toNat]; rfl
    case grnScrub => rintro rfl; exact ⟨written_of rfl, written_scrub _ v⟩
    case fnArg => rintro rfl; exact written_fnArg _ v
    case sowKey => rintro k rfl; rw [written_sowKey]; exact ⟨rfl, fun j => tblGet_setUnless _ _ k j v⟩
    case sowCtr => rintro k rfl; rw [written_sowCtr]; exact ⟨rfl, fun j => tblGet_setUnless _ _ k j v⟩
    case port =>
      intro k hk hp
      rcases hp with rfl | rfl
      · obtain ⟨he, hne, hsame⟩ := written_portStatus u v hk
        exact ⟨he, hne, fun _ => hsame, by rintro ⟨⟩⟩
      · obtain ⟨he, hne, hsame⟩ := written_portErr u v hk
        exact ⟨he, hne, by rintro ⟨⟩, fun _ => hsame⟩
    case probe =>
      intro hi
      refine ⟨?_, ?_, ?_⟩
      · rintro (rfl | rfl) hb
        · exact (written_probeBusy _ v hb hi).1
        · exact (written_probeBusy _ v hb hi).2
      · rintro rfl hb
        rw [written_probeAddr _ v hb]
        exact ⟨rfl, half_setHalf_same hi rfl v _, half_setHalf_other hi 3 v _⟩
      · rintro rfl hb
        rw [written_probeData _ v hb]
        exact ⟨rfl, half_setHalf_word hi v _, half_setHalf_other hi 0 v _⟩
    case steer =>
      rintro k o rfl
      obtain ⟨h1, hg, hp, hne, hk⟩ := written_steer u v k o
      refine ⟨h1, hg, hp, hne, ?_, ?_⟩
      · intro ho
        obtain ⟨b1, b2, b3⟩ := steerWord_stored_base ho v (tblGet steerReset u.steer k)
        rw [← hk] at b1 b2 b3
        exact ⟨b1, b2, b3⟩
      · rintro rfl
        exact hk.trans (steerStored_cfg v _)
    case nrgCtl => rintro rfl; exact ⟨rfl, written_nrgCtl _ v⟩
    case pfailAddr => rintro hi rfl; rw [written_pfailAddr]; exact ⟨rfl, half_setHalf_same hi rfl v _, half_setHalf_other hi 12 v _⟩
    case pairStatus => rintro rfl; exact written_pairStatus _ v
    case tenant =>
      rintro k o rfl ho
      match o with
      | 0 => exact written_modTenant (u := u) (r := .tenant k 0) (v := v) rfl
      | 1 => exact written_modTenant (u := u) (r := .tenant k 1) (v := v) rfl
    case perfCtl =>
      rintro rfl
      rw [written_perfCtl]
      refine ⟨rfl, rfl, fun h => ?_, fun h => ?_⟩ <;> simp only [h, if_true, Bool.true_or, Bool.false_or, Bool.false_eq_true, if_false, and_self]
    all_goals rintro rfl; rfl

end Sys2Proof.Machine
end

section
/-! PROOF. What the rows of the Acre do: which command a headland takes, the begin of a compute phase, a tile and its hold, a
staged swath, and the end of a compute phase (R15, R17, R61, R62, R86, R92, R93, R109, R285, R301, R427, R486). -/

namespace Sys2Proof.Machine

/-! ### What the work of the Acre leaves of a packet -/

/-- A packet without what the drain of a tile, the staging of its inputs and the writes of its phase change in it. What is left says
which packet it is, where it stands, and what its phase has run. -/
def Cmd.steady (c : Cmd) : Cmd := { c with
  events := [], outputs := [], heldWrites := []
  work := { c.work with
    toks := [], outBytes := 0, train := default, counts := default, dropTok := [], sliceNext := 0, staged := [], stageNext := 0, stageAsk := 0 } }

/-- A state without its packets and the ranges that wait at the movers. -/
def State.unasked (s : State) : State := { s with cmds := [], queue := [] }

/-- A state without what the drain of a tile and the records of a phase move: packets, ranges, segments, counters, the Seedbed, and
the frames to a partner. -/
def State.undrained (s : State) : State := { s with
  cmds := [], queue := [], streams := { s.streams with queue := [] }, totals := (State.ofBuild s.build []).totals
  win := (State.ofBuild s.build []).win, perf := (State.ofBuild s.build []).perf, energy := { s.energy with bgEvents := [] }
  freeCtr := 0, seed0 := seedReset, seed1 := seedReset, pair := (State.ofBuild s.build []).pair }

/-- The block goes from `s` to `t` with the same packets, each of them steady; beside packets and ranges only what `m` masks has
moved. -/
structure Keeps (m : State → State) (s t : State) : Prop where
  frame : m t.unasked = m s.unasked
  kept : ∀ c ∈ s.cmds, ∃ d ∈ t.cmds, d.order = c.order
  came : ∀ d ∈ t.cmds, ∃ c ∈ s.cmds, d.steady = c.steady

section
variable {m : State → State} {s t : State}

theorem Keeps.of_cmds (h : m t.unasked = m s.unasked) (e : t.cmds = s.cmds) : Keeps m s t :=
  ⟨h, fun c hc => ⟨c, e ▸ hc, rfl⟩, fun d hd => ⟨d, e ▸ hd, rfl⟩⟩

theorem Keeps.refl (m : State → State) (s : State) : Keeps m s s := .of_cmds rfl rfl

theorem steady_order {c d : Cmd} (h : d.steady = c.steady) : d.order = c.order := (congrArg Cmd.order h :)
theorem steady_ring {c d : Cmd} (h : d.steady = c.steady) : d.ring = c.ring := (congrArg Cmd.ring h :)
theorem steady_seq {c d : Cmd} (h : d.steady = c.steady) : d.seq = c.seq := (congrArg Cmd.seq h :)

theorem Keeps.trans {u : State} (h : Keeps m s t) (k : Keeps m t u) : Keeps m s u := by
  refine ⟨k.frame.trans h.frame, fun c hc => ?_, fun e he => ?_⟩
  · obtain ⟨d, hd, hdc⟩ := h.kept c hc
    obtain ⟨e, he, hed⟩ := k.kept d hd
    exact ⟨e, he, hed.trans hdc⟩
  · obtain ⟨d, hd, hed⟩ := k.came e he
    obtain ⟨c, hc, hdc⟩ := h.came d hd
    exact ⟨c, hc, hed.trans hdc⟩

theorem Keeps.foldl {α : Type} {f : State → α → State} (h : ∀ s x, Keeps m s (f s x)) (l : List α) (s : State) : Keeps m s (l.foldl f s) := by
  induction l generalizing s with
  | nil => exact .refl m s
  | cons x l ih => exact (h s x).trans (ih _)

/-- Masking more keeps. -/
theorem Keeps.weaken (h : Keeps id s t) : Keeps m s t := ⟨congrArg m h.frame, h.kept, h.came⟩

/-- A property of what is steady goes on holding. -/
theorem Keeps.holds (h : Keeps m s t) {o : Nat} {P : Cmd → Prop} (hP : ∀ c d, d.steady = c.steady → P c → P d) (hs : s.holds o P) : t.holds o P := by
  obtain ⟨⟨c, hc, ho⟩, hall⟩ := hs
  obtain ⟨d, hd, hdc⟩ := h.kept c hc
  refine ⟨⟨d, hd, hdc.trans ho⟩, fun d hd hdo => ?_⟩
  obtain ⟨c, hc, hdc⟩ := h.came d hd
  exact hP c d hdc (hall c hc ((steady_order hdc).symm.trans hdo))

/-- A packet becomes one that is steady from it. -/
theorem setCmd_keeps {x : Cmd} (h : ∃ c ∈ s.cmds, x.steady = c.steady) : Keeps m s (s.setCmd x) := by
  refine ⟨rfl, fun c hc => ?_, fun d hd => ?_⟩
  · refine ⟨_, List.mem_map.2 ⟨c, hc, rfl⟩, ?_⟩
    split
    · rename_i ho; exact ho.symm
    · rfl
  · obtain ⟨c, hc, rfl⟩ := List.mem_map.1 hd
    split
    · exact h
    · exact ⟨c, hc, rfl⟩

theorem modCmd_keeps (s : State) (r : Nat) (q : U32) {f : Cmd → Cmd} (hf : ∀ c, (f c).steady = c.steady) : Keeps m s (s.modCmd r q f) := by
  unfold State.modCmd
  split
  · rename_i c hc; exact setCmd_keeps ⟨c, cmd_mem hc, hf c⟩
  · exact .refl m s

theorem ask_keeps (s : State) (g : Range) : Keeps m s (s.ask g) := by
  obtain ⟨q, e⟩ := ask_frame s g
  rw [e]; exact .of_cmds rfl rfl

theorem askRead_keeps (s : State) (k : Traffic) (r : Nat) (q : U32) (i a n : Nat) : Keeps m s (s.askRead k r q i a n) := ask_keeps s _

theorem askWrite_keeps (s : State) (k : Traffic) (r : Nat) (q : U32) (i a : Nat) (b : List Byte) : Keeps m s (s.askWrite k r q i a b) :=
  ask_keeps s _

end

/-! ### The one packet of an order and of a ring and SEQ -/

/-- `c` is the only packet with its fetch order, and the only one with its ring and SEQ. -/
structure State.alone (s : State) (c : Cmd) : Prop where
  mem : c ∈ s.cmds
  order : ∀ d ∈ s.cmds, d.order = c.order → d = c
  name : ∀ d ∈ s.cmds, d.ring = c.ring → d.seq = c.seq → d = c

theorem ordersOk_inj {s : State} (h : s.ordersOk) {c d : Cmd} (hc : c ∈ s.cmds) (hd : d ∈ s.cmds) (e : d.order = c.order) : d = c :=
  List.inj_on_of_nodup_map h.1 hd hc e

theorem State.named.alone {s : State} {c : Cmd} (h : s.named c) (ho : s.ordersOk) : s.alone c :=
  ⟨h.1, fun _ hd e => ordersOk_inj ho h.1 hd e, h.2⟩

/-- A packet that is found has the ring and SEQ. -/
theorem cmd_name {s : State} {r : Nat} {q : U32} {c : Cmd} (h : s.cmd r q = some c) : c.ring = r ∧ c.seq = q := by
  unfold State.cmd at h
  split at h
  · rename_i d hd
    cases h
    simpa using And.left (by simpa using List.find?_some hd)
  · simpa using List.find?_some h

/-- A packet of the ring and SEQ is found. -/
theorem cmd_found {s : State} {c : Cmd} (hc : c ∈ s.cmds) : ∃ d, s.cmd c.ring c.seq = some d ∧ d ∈ s.cmds ∧ d.ring = c.ring ∧ d.seq = c.seq := by
  cases hd : s.cmd c.ring c.seq with
  | some d => exact ⟨d, rfl, cmd_mem hd, cmd_name hd⟩
  | none =>
    unfold State.cmd at hd
    split at hd
    · cases hd
    · exact absurd (List.find?_eq_none.1 hd c hc) (by simp)

theorem State.alone.cmd {s : State} {c : Cmd} (h : s.alone c) : s.cmd c.ring c.seq = some c := by
  obtain ⟨d, e, hd, hr, hq⟩ := cmd_found h.mem
  rw [e, h.name d hd hr hq]

/-- Every packet of the ring and SEQ of `c` has its fetch order, and one with that order is there. -/
structure State.sole (s : State) (c : Cmd) : Prop where
  has : ∃ d ∈ s.cmds, d.order = c.order
  name : ∀ d ∈ s.cmds, d.ring = c.ring → d.seq = c.seq → d.order = c.order

theorem State.alone.sole {s : State} {c : Cmd} (h : s.alone c) : s.sole c := ⟨⟨c, h.mem, rfl⟩, fun d hd e g => h.name d hd e g ▸ rfl⟩

/-- A packet that is written under its own name becomes the only one. -/
theorem State.sole.setCmd {s : State} {c x : Cmd} (h : s.sole c) (ho : x.order = c.order) (hr : x.ring = c.ring) (hq : x.seq = c.seq) :
    (s.setCmd x).alone x := by
  obtain ⟨c', hc, hco⟩ := h.has
  have key : ∀ d ∈ (s.setCmd x).cmds, d = x ∨ (d ∈ s.cmds ∧ d.order ≠ c.order) := by
    intro d hd
    obtain ⟨e, he, rfl⟩ := List.mem_map.1 hd
    split
    · exact .inl rfl
    · rename_i hne; exact .inr ⟨he, fun e => hne (e.trans ho.symm)⟩
  refine ⟨List.mem_map.2 ⟨c', hc, if_pos (hco.trans ho.symm)⟩, fun d hd e => ?_, fun d hd e1 e2 => ?_⟩
  · exact (key d hd).resolve_right fun g => g.2 (e.trans ho)
  · exact (key d hd).resolve_right fun g => g.2 (h.name d g.1 (e1.trans hr) (e2.trans hq))

/-- After work that leaves it steady the packet is still found. -/
theorem Keeps.sole {m : State → State} {s t : State} {x : Cmd} (h : Keeps m s t) (hx : s.alone x) :
    ∃ e, t.cmd x.ring x.seq = some e ∧ e.steady = x.steady ∧ t.sole e := by
  obtain ⟨d, hd, ho⟩ := h.kept x hx.mem
  obtain ⟨c, hc, hdc⟩ := h.came d hd
  obtain rfl := hx.order c hc ((steady_order hdc).symm.trans ho)
  have own : ∀ e ∈ t.cmds, e.ring = c.ring → e.seq = c.seq → e.steady = c.steady := by
    intro e he hr hq
    obtain ⟨y, hy, hey⟩ := h.came e he
    obtain rfl := hx.name y hy ((steady_ring hey).symm.trans hr) ((steady_seq hey).symm.trans hq)
    exact hey
  obtain ⟨e, he, hm, hr, hq⟩ := cmd_found hd
  rw [steady_ring hdc] at hr he
  rw [steady_seq hdc] at hq he
  have hes := own e hm hr hq
  refine ⟨e, he, hes, ⟨e, hm, rfl⟩, fun d hd er eq => ?_⟩
  exact (steady_order (own d hd (er.trans hr) (eq.trans hq))).trans (steady_order hes).symm

/-! ### The parts of a drain -/

section
variable (s : State) (c : Cmd)

theorem perfAdd_keeps (n k : Nat) : Keeps State.undrained s (s.perfAdd n k) := by
  obtain ⟨p, e⟩ := perfAdd_frame s n k
  rw [e]; exact .of_cmds rfl rfl

theorem event_keeps (r : Nat) (q : U32) (k n : Nat) : Keeps State.undrained s (s.event r q k n) := by
  unfold State.event
  split
  · rename_i d hd
    split
    · exact .of_cmds rfl rfl
    · exact setCmd_keeps ⟨d, cmd_mem hd, rfl⟩
  · exact .of_cmds rfl rfl

theorem output_keeps {m : State → State} (k : Traffic) (r i a : Nat) (b : List Byte) : Keeps m s (s.output c k r i a b) := by
  unfold State.output
  extract_lets held g u
  have hu : Keeps m s u := by
    show Keeps m s (ite _ _ _)
    split
    · exact modCmd_keeps _ _ _ fun _ => rfl
    · exact .refl m s
  split
  · exact hu
  · exact hu.trans (ask_keeps _ _)

theorem pushSegment_keeps (k : Nat) (l : Bool) (b : List Byte) : Keeps State.undrained s (s.pushSegment c k l b) := .of_cmds rfl rfl

theorem privateWrite_keeps (k : Traffic) (a n : Nat) : Keeps State.undrained s (s.privateWrite c k a n) := by
  unfold State.privateWrite
  split
  · exact .refl _ s
  · exact Keeps.trans (t := (s.privateRun n).1) (.of_cmds rfl rfl) (askWrite_keeps _ _ _ _ _ _ _)

theorem rawOut_keeps (f : Field) (w t : Nat) (xs : List F32) : Keeps State.undrained s (s.rawOut c f w t xs) := by
  unfold State.rawOut
  extract_lets p bf16 data u
  have hu : Keeps State.undrained s u := modCmd_keeps _ _ _ fun _ => rfl
  split
  · exact hu.trans (pushSegment_keeps _ _ _ _ _)
  · exact hu.trans (output_keeps _ _ _ _ _ _ _)

theorem drainToken_keeps (f : Field) (w j : Nat) (n o : Bool) (vals : List F32) : Keeps State.undrained s (s.drainToken c f w j n o vals) := by
  unfold State.drainToken
  extract_lets t u rows v
  have hv : Keeps State.undrained s v := by
    clear_value u rows
    dsimp only [v]
    split
    · exact .refl _ s
    · split
      · exact rawOut_keeps _ _ _ _ _ _
      · exact .refl _ s
  split
  · exact hv
  · rename_i d hd
    extract_lets a fed fed' acc x win y
    have hx : Keeps State.undrained v x := setCmd_keeps ⟨d, cmd_mem hd, rfl⟩
    have hy : Keeps State.undrained x y := .of_cmds rfl rfl
    exact hv.trans (hx.trans (hy.trans ((event_keeps _ _ _ _ _).trans (perfAdd_keeps _ _ _))))

theorem drainServe_keeps (f : Field) (w : Nat) (n o : Bool) (d : Drained) : Keeps State.undrained s (s.drainServe c f w n o d) := by
  unfold State.drainServe
  split
  · exact .refl _ s
  · refine Keeps.foldl (fun s i => ?_) _ _
    split
    · exact drainToken_keeps _ _ _ _ _ _ _ _
    · exact .refl _ s

end

theorem statToken_steady (c : Cmd) (f : Field) (w j : Nat) (vals : List F32) : (c.statToken f w j vals).steady = c.steady := rfl

theorem drainStats_steady (c : Cmd) (f : Field) (w : Nat) (d : Drained) : (c.drainStats f w d).steady = c.steady := by
  have key (l : List Nat) (c : Cmd) : (l.foldl (fun c i => c.statToken f w (c.work.sub + i) (d.vals.getD i [])) c).steady = c.steady := by
    induction l generalizing c with
    | nil => rfl
    | cons i l ih => exact (ih _).trans (statToken_steady c f w _ _)
  exact key _ c

theorem modTrain_steady (c : Cmd) (g : Train → Train) : (c.modTrain g).steady = c.steady := rfl

theorem counts_steady (c : Cmd) (k : Counts) : ({ c with work := { c.work with counts := k } } : Cmd).steady = c.steady := rfl

theorem countDz_steady (c : Cmd) (ds : List DzVec) : (c.countDz ds).steady = c.steady := by
  unfold Cmd.countDz
  exact (counts_steady _ _).trans (modTrain_steady _ _)

theorem tookDz_steady (c : Cmd) (f : Field) (w : Nat) (rows : List (List F32)) : (c.tookDz f w rows).steady = c.steady := by
  unfold Cmd.tookDz
  exact (modTrain_steady _ _).trans (countDz_steady _ _)

section
variable {s : State} {c : Cmd} (h : ∃ e ∈ s.cmds, c.steady = e.steady)
include h

theorem drainDz_keeps (f : Field) (w : Nat) (d : Drained) : Keeps State.undrained s (s.drainDz c f w d) := by
  obtain ⟨e, he, hc⟩ := h
  unfold State.drainDz
  extract_lets rows x u tot v n
  have hu : Keeps State.undrained s u := setCmd_keeps ⟨e, he, (tookDz_steady c f w rows).trans hc⟩
  have hv : Keeps State.undrained u v := .of_cmds rfl rfl
  exact hu.trans (hv.trans (privateWrite_keeps _ _ _ _ _))

theorem drainDw_keeps (f : Field) (w : Nat) (chains : List (List Chain)) : Keeps State.undrained s (s.drainDw c f w chains) := by
  obtain ⟨e, he, hc⟩ := h
  have hu : Keeps State.undrained s (s.setCmd (c.tookDw w chains)) := setCmd_keeps ⟨e, he, hc⟩
  unfold State.drainDw
  dsimp only
  split
  · exact hu.trans (privateWrite_keeps _ _ _ _ _)
  · exact hu

end

theorem drainDh_keeps (s : State) (c : Cmd) (f : Field) (k : Nat) (d : Drained) : Keeps State.undrained s (s.drainDh c f k d) := by
  unfold State.drainDh
  extract_lets u
  have hu : Keeps State.undrained s u := modCmd_keeps _ _ _ fun _ => rfl
  split
  · exact hu
  · refine hu.trans (Keeps.foldl (fun s i => ?_) _ _)
    unfold State.dhOut
    dsimp only
    split
    · exact pushSegment_keeps _ _ _ _ _
    · exact output_keeps _ _ _ _ _ _ _

/-- A tile's drain leaves every packet steady. -/
theorem drainUnit_keeps {s : State} {c : Cmd} (h : c ∈ s.cmds) (f : Field) (k : TileKind) (r : TileRun) (chains : List (List Chain)) (d : Drained) :
    Keeps State.undrained s (s.drainUnit c f k r chains d) := by
  unfold State.drainUnit
  split
  · split
    · split
      · exact setCmd_keeps ⟨c, h, drainStats_steady c f _ d⟩
      · exact drainDz_keeps ⟨c, h, rfl⟩ _ _ _
    · exact drainServe_keeps _ _ _ _ _ _ _
  · exact drainDw_keeps ⟨c, h, rfl⟩ _ _ _
  · exact drainDh_keeps _ _ _ _ _

/-! ### What the next tile asks for -/

section
variable {m : State → State} (s : State) (c : Cmd)

theorem askFuse_keeps (f : Field) (k : TileKind) : Keeps m s (s.askFuse c f k) := by
  unfold State.askFuse
  dsimp only
  split
  · exact .refl m s
  · split
    · exact Keeps.foldl (fun s i => askRead_keeps s _ _ _ _ _ _) _ _
    · split <;> exact askRead_keeps s _ _ _ _ _ _

theorem askSlices_keeps (f : Field) (w : Nat) : Keeps m s (s.askSlices c f w) := by
  unfold State.askSlices
  split
  · exact .refl m s
  · extract_lets u a b v
    have hv : Keeps m s v := modCmd_keeps s _ _ fun _ => rfl
    refine hv.trans (Keeps.foldl (fun s i => Keeps.foldl (fun s j => ?_) _ _) _ _)
    split
    · exact askRead_keeps s _ _ _ _ _ _
    · exact .refl m s

/-- What a command asks for leaves every packet steady. -/
theorem askTile_keeps : Keeps m s (s.askTile c) := by
  unfold State.askTile
  dsimp only
  refine Keeps.trans (askFuse_keeps s c (s.fieldOf c) (c.unit (s.fieldOf c))) ?_
  split
  · split
    · exact askRead_keeps _ _ _ _ _ _ _
    · exact .refl m _
  · split
    · exact askRead_keeps _ _ _ _ _ _ _
    · exact .refl m _
  · exact askSlices_keeps _ c _ _

end

/-! ### One tile -/

theorem noteDw_steady (c : Cmd) (k : TileKind) (b : Bool) : (c.noteDw k b).steady = c.steady := by cases k <;> rfl

theorem shedStones_steady (c : Cmd) (l : List Stone) : (c.shedStones l).steady = c.steady := rfl

theorem event_steady (c : Cmd) (n k : Nat) : (c.event n k).steady = c.steady := rfl

theorem chargeTile_steady (c : Cmd) (f : Field) (k : TileKind) (r : TileRun) : (c.chargeTile f k r).steady = c.steady := by
  unfold Cmd.chargeTile
  simp only [event_steady]

theorem cyclesCounts_steady (c : Cmd) (n : Nat) (k : Counts) :
    ({ c with cycles := n, work := { c.work with counts := k } } : Cmd).steady = { c.steady with cycles := n } := rfl

theorem countTile_steady (c : Cmd) (r : TileRun) : (c.countTile r).steady = { c.steady with cycles := c.cycles + r.cycles + r.hold } := by
  unfold Cmd.countTile
  exact cyclesCounts_steady c _ _

theorem countTile_cycles (c : Cmd) (r : TileRun) : (c.countTile r).cycles = c.cycles + r.cycles + r.hold := rfl

theorem totalTile_frame (s : State) (r : TileRun) : ∃ t p, s.totalTile r = { s with totals := t, perf := p } := by
  unfold State.totalTile
  rw [(phaseCycles_frame _ _).1]
  exact ⟨_, _, rfl⟩

theorem unit_serving {c : Cmd} (h : c.work.phase = 0) (f : Field) : c.unit f = .fwd c.work.tile := by
  unfold Cmd.unit
  simp [h]

theorem tileCycles_fwd {c : Cmd} (h : c.work.strand = 0) (f : Field) (w : Nat) (b : Bool) :
    c.tileCycles f (.fwd w) b = tileTime (kPadOf f.h) c.work.cEff c.work.f c.work.rowHalf b := by
  simp [Cmd.tileCycles, Cmd.tileK, h]

/-- A tile without an uncorrectable read moves only the cycles of what is steady in its command; a whole forward tile without a stone
hold takes `tileTime` of them (R93). -/
theorem runTile_keeps {s t : State} {c : Cmd} (hc : c ∈ s.cmds) (ht : t = s.runTile c false) : ∃ x : Cmd,
    x.steady = { c.steady with cycles := x.cycles } ∧ Keeps State.undrained (s.setCmd x) t ∧
    (c.work.strand = 0 → c.work.phase = 0 → pkStoneThr c.run = 0 →
      x.cycles = c.cycles + tileTime (kPadOf (s.fieldOf c).h) c.work.cEff c.work.f c.work.rowHalf false) := by
  unfold State.runTile at ht
  extract_lets f k fp8 shed es on chains d n r u d' y x at ht
  have hy : y.steady = c.steady := by
    refine (chargeTile_steady _ _ _ _).trans ((noteDw_steady _ _ _).trans ?_)
    split
    · exact shedStones_steady _ _
    · rfl
  have hr : r.cycles = n ∧ (on = false → r.hold = 0) := ⟨rfl, fun h => by simp [r, h]⟩
  have hu : u = s := rfl
  clear_value u r chains d d' y
  subst hu ht
  have hx : x.steady = { c.steady with cycles := x.cycles } := by
    rw [← hy]; exact countTile_steady y r
  refine ⟨x, hx, ?_, fun h1 h2 h3 => ?_⟩
  · obtain ⟨t, p, e⟩ := totalTile_frame u r
    rw [e]
    have hm : x ∈ (u.setCmd x).cmds := List.mem_map.2 ⟨c, hc, if_pos (congrArg Cmd.order hx).symm⟩
    have hk : Keeps State.undrained (u.setCmd x) (({ u with totals := t, perf := p } : State).setCmd x) := .of_cmds rfl rfl
    refine hk.trans (drainUnit_keeps ?_ _ _ _ _ _)
    exact hm
  · have hk : k = .fwd c.work.tile := unit_serving h2 f
    have hn : n = tileTime (kPadOf (u.fieldOf c).h) c.work.cEff c.work.f c.work.rowHalf false := by
      have h8 : fp8 = false := by simp only [fp8, hk]; rfl
      simp only [n, h8, hk, tileCycles_fwd h1]; rfl
    have hcy : y.cycles = c.cycles := (congrArg Cmd.cycles hy :)
    have hh : r.hold = 0 := hr.2 (by simp [on, h3])
    rw [countTile_cycles, hr.1, hh, hcy, hn, Nat.add_zero]

/-! ### The next tile -/

theorem seedDrop_undrained (s : State) (r : Nat) (q : U32) (p : Nat) : (s.seedDrop r q p).undrained = s.undrained := by
  unfold State.seedDrop
  split
  · rfl
  · split <;> rfl

theorem spend_undrained (s : State) (c : Cmd) (n : Nat) : (s.spend c n).undrained = s.undrained := by
  unfold State.spend
  refine (congrArg State.undrained (phaseCycles_frame _ n).1).trans ?_
  obtain ⟨x, e⟩ : ∃ x, s.modCmd c.ring c.seq (fun c => { c with cycles := c.cycles + n }) = { s with cmds := x } := by
    unfold State.modCmd
    split
    · exact ⟨_, rfl⟩
    · exact ⟨_, rfl⟩
  rw [e]; rfl

theorem endPhase_undrained (s : State) (c : Cmd) (f : Field) : (s.endPhase c f).undrained = s.undrained := by
  unfold State.endPhase
  split
  · unfold State.endServe
    dsimp only
    split
    · exact (spend_undrained _ _ _).trans (seedDrop_undrained _ _ _ _)
    · exact seedDrop_undrained _ _ _ _
  · exact spend_undrained _ _ _
  · exact spend_undrained _ _ _
  · exact (spend_undrained _ _ _).trans (seedDrop_undrained _ _ _ _)

theorem Keeps.undrained {s t : State} (h : Keeps State.undrained s t) : t.undrained = s.undrained := h.frame

/-- The move to the next tile stays within what a drain masks. -/
theorem nextTile_undrained (s : State) (c : Cmd) : (s.nextTile c).undrained = s.undrained := by
  unfold State.nextTile
  extract_lets f k d d' u' u
  have hu : u.undrained = s.undrained := by
    show State.undrained (ite _ _ _) = _
    split
    · rfl
    · split
      · rfl
      · exact endPhase_undrained _ _ _
  split
  · split
    · exact hu
    · exact (askTile_keeps _ _).undrained.trans hu
  · exact hu

theorem afterTile_undrained (s : State) (c : Cmd) : (s.afterTile c).undrained = s.undrained := by
  unfold State.afterTile
  split
  · exact nextTile_undrained _ _
  · rfl

/-- `d` is `c` with `n` columns of its unit more behind it. -/
structure Cmd.Moved (c : Cmd) (n : Nat) (d : Cmd) : Prop where
  sub : d.work.sub = c.work.sub + n
  index : d.work.index = c.work.index + 1
  tile : d.work.tile = c.work.tile
  phase : d.work.phase = c.work.phase
  pass : d.work.pass = c.work.pass
  cycles : d.cycles = c.cycles

theorem Cmd.Moved.of_steady {c d e : Cmd} {n : Nat} (h : c.Moved n d) (k : e.steady = d.steady) : c.Moved n e :=
  ⟨(congrArg (fun d : Cmd => d.work.sub) k).trans h.sub, (congrArg (fun d : Cmd => d.work.index) k).trans h.index,
    (congrArg (fun d : Cmd => d.work.tile) k).trans h.tile, (congrArg (fun d : Cmd => d.work.phase) k).trans h.phase,
    (congrArg (fun d : Cmd => d.work.pass) k).trans h.pass, (congrArg Cmd.cycles k).trans h.cycles⟩

theorem pastTile_moved (c : Cmd) (n l : Nat) : c.Moved n (c.pastTile n l) := by
  unfold Cmd.pastTile
  dsimp only
  split <;> exact ⟨rfl, rfl, rfl, rfl, rfl, rfl⟩

theorem pastTile_sizes (c : Cmd) (n l : Nat) : (c.pastTile n l).work.s = c.work.s ∧ (c.pastTile n l).work.tokens = c.work.tokens := by
  unfold Cmd.pastTile
  dsimp only
  split <;> exact ⟨rfl, rfl⟩

theorem pastTile_tilesDone (c : Cmd) (n l : Nat) : (c.pastTile n l).tilesDone = c.tilesDone := by
  obtain ⟨hs, ht⟩ := pastTile_sizes c n l
  unfold Cmd.tilesDone
  rw [hs, ht, (pastTile_moved c n l).pass]

theorem pastTile_unitCols (c : Cmd) (n l : Nat) (f : Field) (k : TileKind) : (c.pastTile n l).unitCols f k = c.unitCols f k := by
  cases k
  case dw => rfl
  all_goals exact (pastTile_sizes c n l).1

/-- Between two sub-tiles of a unit the command stands one tile further (R486). -/
theorem nextTile_moved {s : State} {c : Cmd} (h : s.sole c) (hd : c.tilesDone = false)
    (hs : c.work.sub + c.tileCols (c.unit (s.fieldOf c)) < c.unitCols (s.fieldOf c) (c.unit (s.fieldOf c))) :
    (s.nextTile c).holds c.order (c.Moved (c.tileCols (c.unit (s.fieldOf c)))) := by
  unfold State.nextTile
  extract_lets f k d d' u' u
  have hm : c.Moved (c.tileCols k) d := pastTile_moved _ _ _
  have ha : (s.setCmd d).alone d := h.setCmd rfl rfl rfl
  have hu : u = s.setCmd d := if_pos (by rw [hm.sub, pastTile_unitCols]; exact hs)
  have hf : d.tilesDone = false := (pastTile_tilesDone _ _ _).trans hd
  have hc : u.cmd c.ring c.seq = some d := hu ▸ ha.cmd
  have ho : u.holds c.order (c.Moved (c.tileCols k)) := hu ▸ setCmd_own h.has hm
  simp only [hc, hf]
  exact (askTile_keeps (m := id) u d).holds (fun c d e g => g.of_steady e) ho

/-! ### The width at a boundary of the Acre -/

/-- With rows left, or the Acre in reset already, a change of the width starts no reset. -/
theorem refreshWidth_eq {s : State} (hz : s.rowHalfNow = 3 → s.fnReset 0 = true) :
    s.refreshWidth = if s.acre.run.isSome then s.checkReplace else s.checkReplace.applyWidth.switchBanks := by
  obtain ⟨r, p, e⟩ := checkReplace_frame s
  have again (u : State) (h1 : u.rowHalfNow = s.rowHalfNow) (h2 : u.fnReset 0 = s.fnReset 0) :
      (if u.rowHalfNow = 3 then u.fnStart 0 else u) = u := by
    split
    · rename_i h; exact fnStart_again (h2.trans (hz (h1.symm.trans h)))
    · rfl
  unfold State.refreshWidth
  rw [e]
  dsimp only
  split
  · exact again _ rfl rfl
  · exact again (State.switchBanks (State.applyWidth { s with flt := { s.flt with replace := r, pend := p } })) rfl rfl

/-- At a boundary with rows left the width takes its value of now. -/
theorem refreshWidth_boundary {s : State} (hr : s.acre.run = none) (h3 : s.rowHalfNow ≠ 3) : ∃ g r p, s.refreshWidth = { s with
    acre := { s.acre with
      cEff := effectiveCols s.usableCols (decide (s.energy.level.val = 3)), rowHalf := s.rowHalfNow, sagHalf := decide (s.energy.level.val = 3) }
    granary := g, flt := { s.flt with replace := r, pend := p } } := by
  obtain ⟨r, p, e⟩ := checkReplace_frame s
  rw [refreshWidth_eq fun h => absurd h h3, hr, e]
  exact ⟨_, _, _, rfl⟩

/-! ### The errors that a tile meets -/

/-- A state without what corrected reads count and move: the Granary and its spares, what a shadow takes, and the counts. -/
def State.unworn (s : State) : State := { s with
  granary := (State.ofBuild s.build []).granary, barn := (State.ofBuild s.build []).barn, fields := []
  flt := { s.flt with corrected := 0, pend := 0, replace := false, ceBarn := 0, ceAcc := 0 } }

theorem corrected_unworn (s : State) (n : Nat) : (s.corrected n).unworn = s.unworn := by
  unfold State.corrected
  dsimp only
  split <;> rfl

theorem checkReplace_unworn (s : State) : s.checkReplace.unworn = s.unworn := by
  obtain ⟨r, p, e⟩ := checkReplace_frame s
  rw [e]; rfl

theorem takeShadow_unworn (s : State) (g : Nat) : (s.takeShadow g).unworn = s.unworn := by
  unfold State.takeShadow
  split
  · rfl
  · unfold State.giveShadow
    dsimp only
    split <;> rfl

theorem migrate_unworn (s : State) (b : Nat) : (s.migrate b).unworn = s.unworn := by
  unfold State.migrate
  split
  · rfl
  · dsimp only
    split
    · rfl
    · refine (checkReplace_unworn _).trans ?_
      split <;> exact takeShadow_unworn _ _

theorem granaryCe_unworn (s : State) (b : Nat) : (s.granaryCe b).unworn = s.unworn := by
  unfold State.granaryCe
  extract_lets g u
  have hu : u.unworn = s.unworn := corrected_unworn _ _
  split
  · exact (migrate_unworn u b).trans hu
  · exact hu

theorem correctedReads_unworn (s : State) (ce : Corrected) : (s.correctedReads ce).unworn = s.unworn := by
  have key (l : List Nat) (s : State) : (l.foldl (fun s b => if b < bankCount s.build then s.granaryCe b else s) s).unworn = s.unworn := by
    induction l generalizing s with
    | nil => rfl
    | cons b l ih =>
      refine (ih _).trans ?_
      dsimp only
      split
      · exact granaryCe_unworn s b
      · rfl
  unfold State.correctedReads State.scaleCe
  exact (corrected_unworn _ _).trans ((corrected_unworn _ _).trans (key ce.banks s))

/-- A tile without a corrected read leaves the counts; the reports may move. -/
theorem correctedReads_none (s : State) : ∃ f, s.correctedReads ⟨[], 0, 0, 0⟩ = { s with flt := f } := by
  have key (s : State) (n : Nat) : ∃ f, s.corrected n = { s with flt := f } := by
    unfold State.corrected
    dsimp only
    split <;> exact ⟨_, rfl⟩
  have hz : ({ s with granary := { s.granary with ceCount := s.granary.ceCount + BitVec.ofNat 32 0 } } : State) = s := by simp
  unfold State.correctedReads State.scaleCe
  dsimp only [List.foldl]
  rw [hz]
  obtain ⟨f, e⟩ := key s 0
  rw [e]
  obtain ⟨f', e'⟩ := key { s with flt := { f with ceBarn := f.ceBarn + BitVec.ofNat 16 0, ceAcc := f.ceAcc + BitVec.ofNat 16 0 } } (0 + 0)
  exact ⟨f', e'⟩

/-- A change of the width while the Acre is in reset; reports that wait stay. -/
theorem refreshWidth_reset {s : State} (h : s.fnReset 0 = true) : ∃ a g r p,
    s.refreshWidth = { s with acre := a, granary := g, flt := { s.flt with replace := r, pend := p } } ∧ a.spareCol = s.acre.spareCol ∧
    ∀ i, s.flt.pend.getLsbD i = true → p.getLsbD i = true := by
  have hpend : ∀ i, s.flt.pend.getLsbD i = true → s.checkReplace.flt.pend.getLsbD i = true := by
    unfold State.checkReplace
    split
    · exact (raise_quiet _ 4).pend
    · exact fun _ h => h
  obtain ⟨r, p, e⟩ := checkReplace_frame s
  rw [e] at hpend
  rw [refreshWidth_eq fun _ => h, e]
  split <;> exact ⟨_, _, _, _, rfl, rfl, hpend⟩

/-- A column retires while the Acre is in reset: its group's spare word changes, and the width may (R427). -/
theorem retireLine_col {s : State} (h : s.fnReset 0 = true) {line : Nat} (hl : line < s.workLines false) : ∃ a g r p,
    s.retireLine false line = { s with acre := a, granary := g, flt := { s.flt with replace := r, pend := p } } ∧
    (∀ i, s.flt.pend.getLsbD i = true → p.getLsbD i = true) ∧
    tblGet 0 a.spareCol (line / 64) = retireWord (s.acre.deadCol.contains (line / 64)) false line (tblGet 0 s.acre.spareCol (line / 64)) := by
  have hw : decide (s.workLines false ≤ line) = false := by simpa using hl
  unfold State.retireLine
  simp only [hw, Bool.false_eq_true, if_false, Bool.false_and]
  obtain ⟨a, g, r, p, e, ha, hp⟩ := refreshWidth_reset (s := { s with acre := { s.acre with
    spareCol := tblModify 0 s.acre.spareCol (line / 64) (retireWord (s.acre.deadCol.contains (line / 64)) false line)
    deadCol := s.acre.deadCol } }) h
  exact ⟨a, g, r, p, e, hp, by rw [ha]; exact tblGet_modify_same _ _ _ _⟩

/-- The reset of the Acre by a fault keeps its spares and what the registers show of the fault (R427, R430). -/
theorem fnAuto_acre {s : State} (h : s.fnReset 0 = false) :
    let t := s.fnAuto 0
    t.fnReset 0 = true ∧ t.flt.pend.getLsbD 2 = true ∧ t.acre.spareCol = s.acre.spareCol ∧ t.acre.deadCol = s.acre.deadCol ∧ t.build = s.build ∧
      t.flt.parValid = s.flt.parValid ∧ t.flt.parRow = s.flt.parRow ∧ t.flt.parLine = s.flt.parLine ∧ t.flt.parCount = s.flt.parCount := by
  have hw : s.resetWaits 0 = false := by simp [State.resetWaits]
  have hr := fnStart_fnReset s 0 0 (by decide) hw
  have hk := (fnNow_kept s 0 h).lasting
  rw [← fnStart_now hw, (cutOffPhase_frame s 0).1] at hk
  unfold State.fnAuto
  refine ⟨hr.trans (by simp), by simp [State.raise], ?_⟩
  exact ⟨(congrArg (fun x : State => x.acre.spareCol) hk :), (congrArg (fun x : State => x.acre.deadCol) hk :), (congrArg State.build hk :),
    (congrArg (fun x : State => x.flt.parValid) hk :), (congrArg (fun x : State => x.flt.parRow) hk :),
    (congrArg (fun x : State => x.flt.parLine) hk :), (congrArg (fun x : State => x.flt.parCount) hk :)⟩

/-- A parity error on a working column: recorded, the Acre is in reset and the column retires (R427). -/
theorem parityError_col {s : State} (h : s.fnReset 0 = false) {line : Nat} (hl : line < s.workLines false) :
    let t := s.parityError false line
    t.flt.parValid = true ∧ t.flt.parRow = false ∧ t.flt.parLine = line ∧ t.flt.parCount = s.flt.parCount + 1 ∧ t.flt.pend.getLsbD 2 = true ∧
      t.fnReset 0 = true ∧ tblGet 0 t.acre.spareCol (line / 64) =
        retireWord (s.acre.deadCol.contains (line / 64)) false line (tblGet 0 s.acre.spareCol (line / 64)) := by
  obtain ⟨hr, hp, hs, hd, hb, h1, h2, h3, h4⟩ := fnAuto_acre (s := { s with
    flt := { s.flt with parValid := true, parRow := false, parCount := s.flt.parCount + 1, parLine := line } }) h
  unfold State.parityError
  dsimp only
  generalize State.fnAuto _ 0 = u at *
  obtain ⟨a, g, r, p, e, hq, ha⟩ := retireLine_col hr (line := line) (by unfold State.workLines; rw [hb]; exact hl)
  rw [e]
  rw [hs, hd] at ha
  exact ⟨h1, h2, h3, h4, hq 2 hp, hr, ha⟩

/-- The spare word of a group after one of its columns retires (R427). -/
theorem retireWord_col (dead : Bool) (line : Nat) (w : U32) :
    (w.getLsbD 31 = false → dead = false → retireWord dead false line w = (w &&& 0x40000000) ||| 0x80000000 ||| BitVec.ofNat 32 (line % 64)) ∧
    (w.getLsbD 31 = true ∨ dead = true → retireWord dead false line w = w ||| 0x40000000) := by
  unfold retireWord
  refine ⟨fun h1 h2 => by rw [if_neg (by simp), if_neg (by rw [h1, h2]; simp)]; rfl, fun h => ?_⟩
  have : (w.getLsbD 31 || dead) = true := by simpa using h
  rw [if_neg (by simp), if_pos this]
  rfl

/-! ### ACRE_TILE and TILE_HOLD_RELEASE -/

theorem exec_tileHoldRelease (now : Time) (s : State) : exec (.tileHoldRelease now) s = .next ((s.tick now).keep (tileReleaseDo (s.tick now))) := by
  rw [tick_keep]; rfl

/-- The command whose next tile runs. -/
theorem tileOn_eq {s : State} {c : Cmd} (hc : s.onAcre = some c) (h1 : s.acreUsable c = true) (h2 : s.levelLets c = true)
    (h3 : c.work.pauseAsked = false) (h4 : c.work.ended = false) (h5 : c.tilesDone = false) (h6 : s.acre.held = false)
    (h7 : s.outranked c = false) : s.tileOn = some c := by
  simp [State.tileOn, hc, h1, h2, h3, h4, h5, h6, h7]

/-- The command on the Acre has the ring and SEQ that the Acre runs. -/
theorem onAcre_run {s : State} {c : Cmd} (h : s.onAcre = some c) : s.acre.run = some (c.ring, c.seq) ∧ s.cmd c.ring c.seq = some c := by
  unfold State.onAcre at h
  split at h
  · cases h
  · rename_i r q hr
    obtain ⟨rfl, rfl⟩ := cmd_name h
    exact ⟨hr, h⟩

/-- A tile without errors: beside what its drain moves the block keeps its state, and between two sub-tiles the command stands one
further (R61, R93, R486). -/
theorem tileDone {s : State} {c : Cmd} (hc : s.alone c) (ht : c.tilesDone = false) :
    let v := (s.runTile c false).afterTile c
    let f := s.fieldOf c
    let k := c.unit f
    v.undrained = s.undrained ∧
    (c.work.sub + c.tileCols k < c.unitCols f k → v.holds c.order fun d => d.work.sub = c.work.sub + c.tileCols k ∧
       d.work.index = c.work.index + 1 ∧ d.work.tile = c.work.tile ∧ d.work.phase = c.work.phase ∧ d.work.pass = c.work.pass ∧
       (c.work.strand = 0 → c.work.phase = 0 → pkStoneThr c.run = 0 →
         d.cycles = c.cycles + tileTime (kPadOf f.h) c.work.cEff c.work.f c.work.rowHalf false)) := by
  intro v f k
  obtain ⟨x, hx, hk, hcy⟩ := runTile_keeps hc.mem rfl
  refine ⟨(afterTile_undrained _ _).trans hk.undrained, fun hs => ?_⟩
  have hr : x.ring = c.ring := (congrArg Cmd.ring hx :)
  have hq : x.seq = c.seq := (congrArg Cmd.seq hx :)
  obtain ⟨e, hec, hes, hel⟩ := hk.sole (hc.sole.setCmd (congrArg Cmd.order hx :) hr hq)
  have he := hes.trans hx
  have hv : v = (s.runTile c false).nextTile e := by
    simp only [v, State.afterTile, ← hr, ← hq, hec]
  rw [hv]
  have hf : (s.runTile c false).fieldOf e = f := by
    have h1 : (s.runTile c false).fields = s.fields := (congrArg State.fields hk.frame :)
    have h2 : e.run = c.run := (congrArg Cmd.run he :)
    unfold State.fieldOf State.field
    rw [h1, h2]; rfl
  have hu : e.unit f = k := (congrArg (fun d : Cmd => d.unit f) he :)
  have hcols : e.tileCols k = c.tileCols k := (congrArg (fun d : Cmd => d.tileCols k) he :)
  have hunit : e.unitCols f k = c.unitCols f k := (congrArg (fun d : Cmd => d.unitCols f k) he :)
  have hsub : e.work.sub = c.work.sub := (congrArg (fun d : Cmd => d.work.sub) he :)
  have hn := nextTile_moved hel ((congrArg Cmd.tilesDone he :).trans ht) (by rw [hf, hu, hsub, hcols, hunit]; exact hs)
  have ho : e.order = c.order := (congrArg Cmd.order he :)
  rw [hf, hu, hcols, ho] at hn
  refine ⟨hn.1, fun d hd ho => ?_⟩
  obtain ⟨m1, m2, m3, m4, m5, m6⟩ := hn.2 d hd ho
  exact ⟨m1.trans (by rw [hsub]), m2.trans (congrArg (fun d : Cmd => d.work.index + 1) he :), m3.trans (congrArg (fun d : Cmd => d.work.tile) he :),
    m4.trans (congrArg (fun d : Cmd => d.work.phase) he :), m5.trans (congrArg (fun d : Cmd => d.work.pass) he :),
    fun a b z => m6.trans ((congrArg Cmd.cycles he :).trans (hcy a b z))⟩

section
variable {s : State} {c : Cmd} {fault : TileFault} {ce : Corrected}

theorem acreTileDo_misfit (h : s.faultFits (c.unit (s.fieldOf c)) fault = false) : acreTileDo fault ce c s = s := by
  simp [acreTileDo, h]

theorem acreTileDo_hold (h : s.faultFits (c.unit (s.fieldOf c)) fault = true) (hr : s.tileReady c = false) : acreTileDo fault ce c s =
    { s with acre := { s.acre with held := true }, streams := { s.streams with resHeld := !s.outputFits c } } := by
  simp [acreTileDo, h, hr]

theorem acreTileDo_run (hr : s.tileReady c = true) :
    acreTileDo .none ce c s = (((s.correctedReads ce).runTile c false).afterTile c).settle := by
  simp [acreTileDo, State.faultFits, hr]

theorem acreTileDo_parity {row : Bool} {line : Nat} (h : s.lineExists row line = true) (hr : s.tileReady c = true) :
    acreTileDo (.parity row line) ce c s = (s.correctedReads ce).parityError row line := by
  simp [acreTileDo, State.faultFits, hr, h]

/-- A parity error that a tile meets on a working column (R427). -/
theorem acreTileDo_col {line : Nat} (h0 : s.fnReset 0 = false) (hl : line < s.workLines false) (hr : s.tileReady c = true) :
    let t := acreTileDo (.parity false line) ce c s
    t.flt.parValid = true ∧ t.flt.parRow = false ∧ t.flt.parLine = line ∧ t.flt.parCount = s.flt.parCount + 1 ∧ t.flt.pend.getLsbD 2 = true ∧
      t.fnReset 0 = true ∧ tblGet 0 t.acre.spareCol (line / 64) =
        retireWord (s.acre.deadCol.contains (line / 64)) false line (tblGet 0 s.acre.spareCol (line / 64)) := by
  have hx : s.lineExists false line = true := decide_eq_true (Nat.lt_add_right _ hl)
  have hw := correctedReads_unworn s ce
  have ha : (s.correctedReads ce).acre = s.acre := (congrArg State.acre hw :)
  have hb : (s.correctedReads ce).workLines false = s.workLines false := (congrArg (fun x : State => x.workLines false) hw :)
  have hf : (s.correctedReads ce).fnReset 0 = s.fnReset 0 := (congrArg (fun x : State => x.fnReset 0) hw :)
  have hp : (s.correctedReads ce).flt.parCount = s.flt.parCount := (congrArg (fun x : State => x.flt.parCount) hw :)
  rw [acreTileDo_parity hx hr, ← ha, ← hp]
  exact parityError_col (hf.trans h0) (hb ▸ hl)

end

theorem acreTile_runs {fault : TileFault} {ce : Corrected} {now : Time} {s : State} {c : Cmd} (h : (s.tick now).tileOn = some c) :
    exec (.acreTile fault ce now) s = .next ((s.tick now).keep (acreTileDo fault ce c (s.tick now))) := by
  show execAcreTile fault ce now s = _
  simp only [execAcreTile, h, tick_keep]

theorem acreUsable_fnReset {s : State} {c : Cmd} (h : s.acreUsable c = true) : s.fnReset 0 = false := by
  simp only [State.acreUsable, Bool.and_eq_true, Bool.not_eq_true'] at h
  exact h.1.1.1.2

theorem tileReleaseDo_held {s : State} {c : Cmd} (hc : s.onAcre = some c) (hr : s.running = true) (hh : s.acre.held = true) :
    tileReleaseDo s = if s.tileReady c then
      { s with acre := { s.acre with held := false }, streams := { s.streams with resHeld := false } } else s := by
  simp [tileReleaseDo, hc, hr, hh]

/-! ### STAGING_SWATH -/

theorem stagingSwath_runs {ring : Fin 64} {seq : U32} {s : State} {c : Cmd} (h : stagingOn s ring.val seq = some c) :
    exec (.stagingSwath ring seq) s = .next (s.keep (stagingDo c s)) := by
  show execStagingSwath ring seq s = _
  simp only [execStagingSwath, h]

section
variable {s : State} {c : Cmd} (h : s.alone c)
include h

theorem State.alone.modCmd (f : Cmd → Cmd) : s.modCmd c.ring c.seq f = s.setCmd (f c) := by
  unfold State.modCmd
  rw [h.cmd]

theorem State.alone.event (hs : c.stage ≠ .finished) (n k : Nat) : s.event c.ring c.seq n k = s.setCmd (c.event n k) := by
  unfold State.event
  rw [h.cmd]
  exact if_neg hs

theorem State.alone.modCmd_event {f : Cmd → Cmd} (ho : (f c).order = c.order) (hr : (f c).ring = c.ring) (hq : (f c).seq = c.seq)
    (hs : (f c).stage ≠ .finished) (n k : Nat) : ∃ x, (s.modCmd c.ring c.seq f).event c.ring c.seq n k = { s with cmds := x } ∧
    ({ s with cmds := x } : State).holds c.order fun d => d = (f c).event n k := by
  have ha := h.sole.setCmd ho hr hq
  have e := ha.event hs n k
  rw [hr, hq] at e
  rw [h.modCmd, e]
  exact ⟨_, rfl, ho ▸ setCmd_own (c := (f c).event n k) ⟨f c, ha.mem, rfl⟩ rfl⟩

theorem stagingOn_eq (h1 : s.working = true) (h2 : s.fnReset 0 = false) (h3 : isAcreOp c.op = true) (h4 : c.active = true)
    (h5 : (s.fieldOf c).stream = true) (h6 : c.work.ended = false) (h7 : c.work.stageNext < c.work.stageAsk)
    (h8 : s.openIdx c.ring c.seq .stage c.work.stageNext = false) : stagingOn s c.ring c.seq = some c := by
  simp [stagingOn, h.cmd, h1, h2, h3, h4, h5, h6, h7, h8]

/-- The staging of a swath writes its packet alone (R109, R482). -/
theorem stagingDo_eq (hs : c.stage ≠ .finished) : ∃ x, stagingDo c s = { s with cmds := x } ∧
    ({ s with cmds := x } : State).holds c.order fun d => d =
      (let f := s.fieldOf c
       let n := c.work.stageNext
       let rows := recordRows (s.bytes (f.src + (f.first + n % f.n) * 516 * f.h) (516 * f.h)) f.h
       let bad := if hasScaleFault rows || hasRowFault (f.rowsOf (n % f.n)) rows then some (n, hasScaleFault rows) else none
       { c with
         events := evAdd c.events 5 (tileWords f.h)
         work := { c.work with
           staged := c.work.staged ++ [(n, rows)], stageNext := n + 1
           badSwath := if c.work.badSwath.isSome then c.work.badSwath else bad } }) := by
  unfold stagingDo
  dsimp only
  exact h.modCmd_event rfl rfl rfl hs _ _

end

/-! ### What the sag level sets -/

/-- What the sag level sets at a boundary with rows left (R92, R417). -/
theorem levelEffects_boundary {s : State} (hr : s.acre.run = none) (h3 : s.rowHalfNow ≠ 3) : ∃ g r p a, s.levelEffects = { s with
    acre := a, granary := g, flt := { s.flt with replace := r, pend := p } } ∧ a.run = none ∧
    a.clkHalf = decide (2 ≤ s.energy.level.val) ∧ a.narrow = decide (2 ≤ s.energy.level.val) ∧
    a.cEff = effectiveCols s.usableCols (decide (s.energy.level.val = 3)) := by
  obtain ⟨g, r, p, e⟩ := refreshWidth_boundary (s := { s with acre := { s.acre with
    clkHalf := decide (2 ≤ s.energy.level.val)
    narrow := if s.acre.run.isNone ∨ s.pair.state ≠ 2 then decide (2 ≤ s.energy.level.val) else s.acre.narrow
    shed := if s.acre.run.isNone ∨ s.pair.state ≠ 2 then decide (2 ≤ s.energy.level.val) else s.acre.shed } }) hr h3
  exact ⟨g, r, p, _, e, hr, rfl, if_pos (.inl (by rw [hr]; rfl)), rfl⟩

/-! ### The end of a phase -/

/-- A state without what a drain and the reservations of strip-steps move. -/
def State.unserved (s : State) : State := { s.undrained with tenants := [] }

theorem Keeps.unserved {s t : State} (h : Keeps State.undrained s t) : Keeps State.unserved s t :=
  ⟨congrArg (fun x : State => { x with tenants := [] }) h.frame, h.kept, h.came⟩

theorem tell_keeps (s : State) (k : Nat) (c : Cmd) (n d : Bool) (a b : Nat) : Keeps State.undrained s (s.tell k c n d a b) := by
  unfold State.tell State.sendPair
  split
  · split
    · exact .refl _ s
    · split
      · exact .of_cmds rfl rfl
      · exact .of_cmds rfl rfl
  · exact .refl _ s

theorem takeCommit_keeps (s : State) (c : Cmd) : Keeps State.undrained s (s.takeCommit c) := by
  unfold State.takeCommit
  split <;> exact .of_cmds rfl rfl

theorem openCommit_keeps (s : State) (c : Cmd) (r : Reason) : ∃ b, Keeps State.undrained
    (s.setCmd { c with stage := .committing, reason := r, commit := b }) (s.openCommit c r) :=
  ⟨_, (takeCommit_keeps _ c).trans (tell_keeps _ _ _ _ _ _ _)⟩

theorem writeStats_keeps (s : State) (c : Cmd) (l : List (Option MZ)) : Keeps State.undrained s (s.writeStats c l) := by
  unfold State.writeStats
  extract_lets recs u
  have hu : Keeps State.undrained s u := modCmd_keeps _ _ _ fun _ => rfl
  split
  · exact hu.trans (Keeps.foldl (fun s _ => pushSegment_keeps s _ _ _ _) _ _)
  · exact hu.trans (output_keeps _ _ _ _ _ _ _)

theorem unreserve_keeps (s : State) (p : StripStep) : Keeps State.unserved s (s.unreserve p) := by
  unfold State.unreserve
  split
  · exact .refl _ s
  · exact .of_cmds rfl rfl

theorem countSkip_keeps (s : State) (r : StepReason) (n : Nat) : Keeps State.unserved s (s.countSkip r n) := by
  unfold State.countSkip
  split <;> exact .of_cmds rfl rfl

/-- A strip-step that its command ends in some state. -/
def Cmd.EndsStep (c : Cmd) (p q : StripStep) : Prop := ∃ s : State, q = s.endStep c p

/-- What the end `q` of strip-step `p` releases and counts (R229, R289). -/
def State.endedAs (s : State) (p q : StripStep) : State :=
  let s := if p.reason = 0 ∧ q.reason ≠ 0 then s.unreserve p else s
  if p.reason = 0 ∧ q.reason = stepCode .allBanned then s.countSkip .allBanned p.tenant else s

theorem endSteps_eq (s : State) (c : Cmd) : s.endSteps c = c.work.steps.foldl (fun (a : State × List StripStep) p =>
    (a.1.endedAs p (a.1.endStep c p), a.2 ++ [a.1.endStep c p])) (s, []) := rfl

theorem endedAs_keeps (s : State) (p q : StripStep) : Keeps State.unserved s (s.endedAs p q) := by
  unfold State.endedAs
  extract_lets u
  have hu : Keeps State.unserved s u := by
    dsimp only [u]
    split
    · exact unreserve_keeps s p
    · exact .refl _ s
  split
  · exact hu.trans (countSkip_keeps _ _ _)
  · exact hu

/-- The end of the strip-steps: each by itself, in order. -/
theorem endSteps_spec (s : State) (c : Cmd) : Keeps State.unserved s (s.endSteps c).1 ∧ List.Forall₂ c.EndsStep c.work.steps (s.endSteps c).2 := by
  have key (l : List StripStep) (u : State) (ps : List StripStep) : ∃ v qs, l.foldl (fun (a : State × List StripStep) p =>
      (a.1.endedAs p (a.1.endStep c p), a.2 ++ [a.1.endStep c p])) (u, ps) = (v, ps ++ qs) ∧ Keeps State.unserved u v ∧
      List.Forall₂ c.EndsStep l qs := by
    induction l generalizing u ps with
    | nil => exact ⟨u, [], by simp, .refl _ u, .nil⟩
    | cons p l ih =>
      obtain ⟨v, qs, e, hk, hq⟩ := ih (u.endedAs p (u.endStep c p)) (ps ++ [u.endStep c p])
      exact ⟨v, u.endStep c p :: qs, by simpa using e, (endedAs_keeps u p _).trans hk, .cons ⟨u, rfl⟩ hq⟩
  obtain ⟨v, qs, e, hk, hq⟩ := key c.work.steps s []
  rw [endSteps_eq, e]
  exact ⟨hk, hq⟩

/-- A strip-step that ends with its command: a reason stands, a fault ends it (R112, R285, R482). -/
theorem EndsStep_cases {c : Cmd} {p q : StripStep} (h : c.EndsStep p q) : (p.reason ≠ 0 → q = p) ∧
    (p.reason = 0 → c.work.ue = true → q = { p with reason := stepCode .eccFault, reserved := 0 }) ∧
    (p.reason = 0 → c.work.ue = false → c.work.badSwath.isSome = true → q = { p with reason := stepCode .imageFault, reserved := 0 }) := by
  obtain ⟨s, rfl⟩ := h
  unfold State.endStep
  refine ⟨fun h => if_pos h, fun h u => ?_, fun h u b => ?_⟩
  · rw [if_neg (by simpa using h), if_pos u]
  · rw [if_neg (by simpa using h), if_neg (by simp [u]), if_pos b]

/-- `d` is `c` at the end of its phase: which reason and stage it has, and how its strip-steps end (R112, R249, R285, R482). -/
structure Cmd.PhaseEnded (c d : Cmd) : Prop where
  ended : d.work.ended = true
  reason : d.reason = c.faultReason
  stage : d.stage = if (c.op = opHeadFwd ∨ c.op = opSample ∨ c.op = opVerify) ∧ pkShardEn c.run = true then c.stage else .committing
  steps : c.op = opSample ∨ c.op = opVerify → List.Forall₂ c.EndsStep c.work.steps d.work.steps

theorem Cmd.PhaseEnded.of_steady {c d e : Cmd} (k : e.steady = d.steady) (h : c.PhaseEnded d) : c.PhaseEnded e :=
  ⟨(congrArg (fun d : Cmd => d.work.ended) k).trans h.ended, (congrArg Cmd.reason k).trans h.reason, (congrArg Cmd.stage k).trans h.stage,
    fun o => by
      have e : e.work.steps = d.work.steps := (congrArg (fun d : Cmd => d.work.steps) k :)
      exact e ▸ h.steps o⟩

theorem Cmd.PhaseEnded.length {c d : Cmd} (h : c.PhaseEnded d) (o : c.op = opSample ∨ c.op = opVerify) :
    d.work.steps.length = c.work.steps.length := (h.steps o).length_eq.symm

theorem Cmd.PhaseEnded.step {c d : Cmd} (h : c.PhaseEnded d) (o : c.op = opSample ∨ c.op = opVerify) {i : Nat} (hi : i < c.work.steps.length) :
    c.EndsStep (c.work.steps.getD i default) (d.work.steps.getD i default) := by
  have hd : i < d.work.steps.length := h.length o ▸ hi
  rw [List.getD_eq_getElem _ _ hi, List.getD_eq_getElem _ _ hd]
  exact (List.forall₂_iff_get.1 (h.steps o)).2 i hi hd

/-- A packet is written on both sides. -/
theorem Keeps.setCmd {m : State → State} {s t : State} (h : Keeps m s t) (x : Cmd) : Keeps m (s.setCmd x) (t.setCmd x) := by
  refine ⟨h.frame, fun c' hc' => ?_, fun d' hd' => ?_⟩
  · obtain ⟨c, hc, rfl⟩ := List.mem_map.1 hc'
    obtain ⟨d, hd, ho⟩ := h.kept c hc
    refine ⟨_, List.mem_map.2 ⟨d, hd, rfl⟩, ?_⟩
    rw [ho]
    split
    · rfl
    · exact ho
  · obtain ⟨d, hd, rfl⟩ := List.mem_map.1 hd'
    obtain ⟨c, hc, hs⟩ := h.came d hd
    refine ⟨_, List.mem_map.2 ⟨c, hc, rfl⟩, ?_⟩
    rw [steady_order hs]
    split
    · rfl
    · exact hs

/-- What a command's phase leaves as it ends. -/
def State.endWorkOf (s : State) (c : Cmd) : State :=
  if c.op = opTrain then s.endTrain c else if c.op = opHeadFwd then s.endHead c else s.endServing c

/-- The end of the phase of a command writes that command. -/
theorem endWorkOf_spec (s : State) {c : Cmd} (he : c.work.ended = true) (ha : isAcreOp c.op = true) :
    ∃ x, c.PhaseEnded x ∧ x.order = c.order ∧ Keeps State.unserved (s.setCmd x) (s.endWorkOf c) := by
  unfold State.endWorkOf
  split
  · rename_i ho
    obtain ⟨b, hk⟩ := openCommit_keeps s c c.faultReason
    refine ⟨{ c with stage := .committing, reason := c.faultReason, commit := b }, ⟨he, rfl, ?_, fun h => ?_⟩, rfl, Keeps.unserved ?_⟩
    · exact (if_neg fun h => by rw [ho] at h; exact absurd h.1 (by decide)).symm
    · rw [ho] at h; exact absurd h (by decide)
    · unfold State.endTrain
      dsimp only
      split
      · exact hk.trans (output_keeps _ _ _ _ _ _ _)
      · exact hk
  split
  · rename_i ho
    have hs (h : c.op = opSample ∨ c.op = opVerify) {x : Cmd} : List.Forall₂ c.EndsStep c.work.steps x.work.steps := by
      rw [ho] at h; exact absurd h (by decide)
    unfold State.endHead
    split
    · rename_i hsh
      exact ⟨{ c with reason := c.faultReason }, ⟨he, rfl, (if_pos ⟨.inl ho, hsh⟩).symm, fun h => hs h⟩, rfl, .refl _ _⟩
    · rename_i hsh
      obtain ⟨b, hk⟩ := openCommit_keeps s c c.faultReason
      refine ⟨{ c with stage := .committing, reason := c.faultReason, commit := b },
        ⟨he, rfl, (if_neg fun h => hsh h.2).symm, fun h => hs h⟩, rfl, Keeps.unserved ?_⟩
      dsimp only
      split
      · exact hk.trans (writeStats_keeps _ _ _)
      · exact hk
  · rename_i h1 h2
    have ho : c.op = opSample ∨ c.op = opVerify := by
      simpa [isAcreOp, h1, h2] using ha
    obtain ⟨hk, hq⟩ := endSteps_spec s c
    refine ⟨{ c with
      stage := if pkShardEn c.run then c.stage else .committing
      reason := c.faultReason, work := { c.work with steps := (s.endSteps c).2 } }, ⟨he, rfl, ?_, fun _ => hq⟩, rfl, hk.setCmd _⟩
    simp [ho]

/-! ### COMPUTE_PHASE_END -/

theorem computePhaseEnd_runs {now : Time} {s : State} {c : Cmd} (h : computePhaseEndOn (s.tick now) = some c) :
    exec (.computePhaseEnd now) s = .next ((s.tick now).keep (computePhaseEndDo c (s.tick now))) := by
  show execComputePhaseEnd now s = _
  simp only [execComputePhaseEnd, h, tick_keep]

theorem computePhaseEndOn_eq {s : State} {c : Cmd} (hc : s.onAcre = some c) (h1 : s.working = true) (h2 : s.fnReset 1 = false)
    (h3 : c.work.begun = true) (h4 : c.work.ended = false) (h5 : c.tilesDone = true) : computePhaseEndOn s = some c := by
  simp [computePhaseEndOn, hc, h1, h2, h3, h4, h5]

/-- A packet whose phase has ended. -/
def Cmd.endedPhase (c : Cmd) : Cmd := { c with work := { c.work with ended := true } }

/-- The block as the phase of `c` has ended, before what waits for the boundary. -/
def State.phaseOver (s : State) (c : Cmd) : State := ((s.freeAcre c.ring c.seq).endWorkOf c.endedPhase).levelEffects

theorem computePhaseEndDo_eq (s : State) (c : Cmd) : computePhaseEndDo c s = (s.phaseOver c).settle.afterCommit := rfl

/-- No reset of the command processor is due. -/
theorem afterCommit_none {s : State} (h : s.flt.cpDue = false) : s.afterCommit = s := by
  unfold State.afterCommit
  simp [h]

theorem freeAcre_mine {s : State} {r : Nat} {q : U32} (h : s.acre.run = some (r, q)) :
    (s.freeAcre r q).acre = { s.acre with run := none, held := false } := by
  unfold State.freeAcre
  exact if_pos h

/-- The end of a phase frees the Acre, lets the boundary's changes take effect and leaves what the block holds (R15, R92, R444). -/
theorem phaseOver_spec {s : State} {c : Cmd} (hc : s.onAcre = some c) (ha : isAcreOp c.op = true) (h3 : s.rowHalfNow ≠ 3) :
    let v := s.phaseOver c
    v.acre.run = none ∧ v.acre.clkHalf = decide (2 ≤ s.energy.level.val) ∧ v.acre.narrow = decide (2 ≤ s.energy.level.val) ∧
      v.acre.cEff = effectiveCols s.usableCols (decide (s.energy.level.val = 3)) ∧
      v.strips = s.strips ∧ v.fields = s.fields ∧ v.tensors = s.tensors ∧ v.flt.cpDue = s.flt.cpDue ∧
      (v.pending = s.pending ∧ v.build = s.build ∧ v.mem = s.mem) ∧ v.holds c.order c.endedPhase.PhaseEnded := by
  obtain ⟨hrun, hcmd⟩ := onAcre_run hc
  obtain ⟨x, hx, hxo, hk⟩ := endWorkOf_spec (s.freeAcre c.ring c.seq) (c := c.endedPhase) rfl ha
  have hh := hk.holds (fun _ _ => Cmd.PhaseEnded.of_steady) (setCmd_own ⟨c, cmd_mem hcmd, hxo.symm⟩ hx)
  unfold State.phaseOver
  generalize State.endWorkOf _ c.endedPhase = w at *
  have hw := hk.frame
  have hacre : w.acre = { s.acre with run := none, held := false } := (congrArg State.acre hw :).trans (freeAcre_mine hrun)
  have hbuild : w.build = s.build := (congrArg State.build hw :)
  have hrow : w.rowHalfNow = s.rowHalfNow := rowHalfNow_of (by rw [hacre]) (by rw [hacre]) hbuild
  have husable : w.usableCols = s.usableCols := by
    unfold State.usableCols
    rw [hacre, hbuild]
  have hlevel : w.energy.level = s.energy.level := (congrArg (fun t : State => t.energy.level) hw :)
  obtain ⟨g, r, p, a, e, hr, hclk, hnar, hcols⟩ := levelEffects_boundary (s := w) (by rw [hacre]) (hrow ▸ h3)
  rw [hlevel] at hclk hnar hcols
  rw [husable] at hcols
  rw [e]
  exact ⟨hr, hclk, hnar, hcols, (congrArg State.strips hw :), (congrArg State.fields hw :), (congrArg State.tensors hw :),
    (congrArg (fun t : State => t.flt.cpDue) hw :), ⟨(congrArg State.pending hw :), hbuild, (congrArg State.mem hw :)⟩, hxo ▸ hh⟩

/-! ### The choice at a headland -/

/-- `c` goes before `d`: by class, then in dispatch order (R301). -/
def Cmd.goesFirst (c d : Cmd) : Prop := c.cls < d.cls ∨ (c.cls = d.cls ∧ c.dispOrder < d.dispOrder)

theorem Cmd.goesFirst.asymm {c d : Cmd} (h : c.goesFirst d) : ¬ d.goesFirst c := by
  unfold Cmd.goesFirst at *
  omega

theorem insertByClass_first {c d : Cmd} (h : c.goesFirst d) (l : List Cmd) : insertByClass c (d :: l) = c :: d :: l := if_pos h

theorem insertByClass_later {c d : Cmd} (h : ¬ c.goesFirst d) (l : List Cmd) : insertByClass c (d :: l) = d :: insertByClass c l := if_neg h

theorem mem_insertByClass {c d : Cmd} {l : List Cmd} : d ∈ insertByClass c l ↔ d = c ∨ d ∈ l := by
  induction l with
  | nil => simp [insertByClass]
  | cons e l ih =>
    unfold insertByClass
    split
    · simp
    · simp only [List.mem_cons, ih]
      tauto

theorem mem_byClass {d : Cmd} {l : List Cmd} : d ∈ l.foldr insertByClass [] ↔ d ∈ l := by
  induction l with
  | nil => rfl
  | cons c l ih => rw [List.foldr_cons, mem_insertByClass, ih, List.mem_cons]

/-- A packet that goes before every other one of a list comes first. -/
theorem byClass_head {c : Cmd} {l : List Cmd} (hc : c ∈ l) (h : ∀ d ∈ l, d = c ∨ c.goesFirst d) : (l.foldr insertByClass []).head? = some c := by
  induction l with
  | nil => cases hc
  | cons x l ih =>
    rw [List.foldr_cons]
    have hl : ∀ d ∈ l.foldr insertByClass [], d = c ∨ c.goesFirst d := fun d hd => h d (List.mem_cons_of_mem _ (mem_byClass.1 hd))
    by_cases hx : x = c
    · subst hx
      cases ht : l.foldr insertByClass [] with
      | nil => rfl
      | cons d t =>
        by_cases hb : x.goesFirst d
        · rw [insertByClass_first hb]; rfl
        · obtain rfl := (hl d (by rw [ht]; exact List.mem_cons_self)).resolve_right hb
          rw [insertByClass_later hb]; rfl
    · have hcl := ((List.mem_cons.1 hc).resolve_left fun e => hx e.symm)
      have hb : c.goesFirst x := (h x List.mem_cons_self).resolve_left hx
      have hh := ih hcl fun d hd => h d (List.mem_cons_of_mem _ hd)
      obtain ⟨t, ht⟩ := List.head?_eq_some_iff.1 hh
      rw [ht, insertByClass_later hb.asymm]
      rfl

/-- The best of the ready commands is found. -/
theorem bestReady_eq {s : State} {c : Cmd} (hc : c ∈ s.cmds) (hr : s.ready c = true) (h : ∀ d ∈ s.cmds, s.ready d = true → d = c ∨ c.goesFirst d) :
    s.bestReady = some c :=
  byClass_head (List.mem_filter.2 ⟨hc, hr⟩) fun d hd => h d (List.mem_filter.1 hd).1 (List.mem_filter.1 hd).2

theorem bestReady_none {s : State} (h : ∀ c ∈ s.cmds, s.ready c = false) : s.bestReady = none := by
  have : s.cmds.filter s.ready = [] := List.filter_eq_nil_iff.2 fun c hc => by simp [h c hc]
  unfold State.bestReady
  rw [this]; rfl

/-! ### The Acre takes a command -/

/-- A state without the widths of the Acre, the banks in use and the reports. -/
def State.unmapped (s : State) : State := { s with
  acre := (State.ofBuild s.build []).acre, granary := (State.ofBuild s.build []).granary, flt := { s.flt with replace := false, pend := 0 } }

theorem takeHalves_keeps {m : State → State} (s : State) (c : Cmd) : Keeps m s (s.takeHalves c) := by
  unfold State.takeHalves
  split
  · refine ⟨rfl, fun d hd => ⟨_, List.mem_map.2 ⟨d, hd, rfl⟩, ?_⟩, fun d hd => ?_⟩
    · split <;> rfl
    · obtain ⟨e, he, rfl⟩ := List.mem_map.1 hd
      refine ⟨e, he, ?_⟩
      split <;> rfl
  · exact .refl m s

theorem takeHalves_acre (s : State) (c : Cmd) : (s.takeHalves c).acre = s.acre := by
  unfold State.takeHalves
  split <;> rfl

/-- A command that takes the Acre keeps its own packet. -/
theorem takeHalves_own {s : State} {c : Cmd} (hc : c ∈ s.cmds) (h : ∀ d ∈ s.cmds, d.order = c.order → d = c) :
    c ∈ (s.takeHalves c).cmds ∧ ∀ d ∈ (s.takeHalves c).cmds, d.order = c.order → d = c := by
  unfold State.takeHalves
  split
  · refine ⟨List.mem_map.2 ⟨c, hc, if_neg fun e => e.1 rfl⟩, fun d hd ho => ?_⟩
    obtain ⟨e, he, rfl⟩ := List.mem_map.1 hd
    split at ho
    · rename_i hne; exact absurd ho hne.1
    · rename_i hne; rw [if_neg hne]; exact h e he ho
  · exact ⟨hc, h⟩

/-- What other commands of a stream-fed field have staged is dropped (R109). -/
theorem takeHalves_staged {s : State} {c : Cmd} (h : (s.fieldOf c).stream = true) :
    ∀ d ∈ (s.takeHalves c).cmds, d.order ≠ c.order → d.stages (pkField c.run) = true → d.work.staged = [] := by
  unfold State.takeHalves
  rw [if_pos h]
  intro d hd ho hs
  obtain ⟨e, he, rfl⟩ := List.mem_map.1 hd
  by_cases hd : e.order ≠ c.order ∧ e.stages (pkField c.run) = true
  · rw [if_pos hd]
  · rw [if_neg hd] at ho hs
    exact absurd ⟨ho, hs⟩ hd

/-- `w` is the block as `c` has the staging halves of its field at a boundary of the Acre. -/
structure State.Taken (s : State) (c : Cmd) (w : State) : Prop where
  keeps : Keeps State.unmapped s w
  cEff : w.acre.cEff = effectiveCols s.usableCols (decide (s.energy.level.val = 3))
  rowHalf : w.acre.rowHalf = s.rowHalfNow
  mem : c ∈ w.cmds
  order : ∀ d ∈ w.cmds, d.order = c.order → d = c
  staged : (s.fieldOf c).stream = true → ∀ d ∈ w.cmds, d.order ≠ c.order → d.stages (pkField c.run) = true → d.work.staged = []

/-- The block with the Acre given to `c`. -/
def State.withAcre (s : State) (c : Cmd) : State := { s with acre := { s.acre with run := some (c.ring, c.seq), held := false } }

/-- A command takes the Acre at a boundary with rows left (R92, R109, R339). -/
theorem takeAcre_spec {s : State} {c : Cmd} (hr : s.acre.run = none) (h3 : s.rowHalfNow ≠ 3) (h0 : s.fnReset 0 = false)
    (hc : c ∈ s.cmds) (ho : ∀ d ∈ s.cmds, d.order = c.order → d = c) : ∃ w, s.Taken c w ∧
      (c.work.begun = true → s.takeAcre c = (w.withAcre c).settle) ∧
      (∀ r, c.work.begun = false → s.bindReason c = some r → s.takeAcre c = (w.refuse c r).settle) ∧
      (c.work.begun = false → s.bindReason c = none → s.takeAcre c = (w.beginPhase c).settle) := by
  obtain ⟨g, r, p, e⟩ := refreshWidth_boundary hr h3
  have hk : Keeps State.unmapped s s.refreshWidth := by rw [e]; exact .of_cmds rfl rfl
  have hcols : s.refreshWidth.acre.cEff = effectiveCols s.usableCols (decide (s.energy.level.val = 3)) := by rw [e]
  have hrow : s.refreshWidth.acre.rowHalf = s.rowHalfNow := by rw [e]
  have hfn : s.refreshWidth.fnReset 0 = false := by rw [e]; exact h0
  have hcmds : s.refreshWidth.cmds = s.cmds := by rw [e]
  have hf : s.refreshWidth.fieldOf c = s.fieldOf c := by rw [e]; rfl
  unfold State.takeAcre
  generalize s.refreshWidth = u at *
  dsimp only
  rw [if_neg (by rw [hrow, hfn]; simp [h3])]
  have hown := takeHalves_own (s := u) (c := c) (hcmds ▸ hc) (hcmds ▸ ho)
  have ha := takeHalves_acre u c
  have hkeeps := hk.trans (takeHalves_keeps u c)
  have hbind : (u.takeHalves c).bindReason c = s.bindReason c := (congrArg (fun t : State => t.bindReason c) hkeeps.frame :)
  refine ⟨u.takeHalves c, ⟨hkeeps, by rw [ha, hcols], by rw [ha, hrow], hown.1, hown.2, fun h => takeHalves_staged (hf ▸ h)⟩,
    fun h => if_pos h, fun r h hr => ?_, fun h hr => ?_⟩
  · simp only [h, hbind, hr, Bool.false_eq_true, if_false]
  · simp only [h, hbind, hr, Bool.false_eq_true, if_false]

/-! ### A phase begins -/

theorem perfAdd_counts {s : State} (h : s.boot.ready = true) (n k : Nat) :
    tblGet 0 (s.perfAdd n k).perf.counters n = tblGet 0 s.perf.counters n + BitVec.ofNat 64 k := by
  unfold State.perfAdd
  rw [h]
  by_cases hk : k = 0
  · simp [hk]
  · simp [hk]

/-- What a check of strip-steps leaves: all but tenants, totals and the Winnower's counts. -/
theorem checkStep_frame (s : State) (c : Cmd) (t : Time) (i : Nat) :
    ∃ x y z, (s.checkStep c t i).1 = { s with tenants := x, totals := y, win := z } := by
  have skip (s : State) (r : StepReason) (n : Nat) : ∃ x y z, s.countSkip r n = { s with tenants := x, totals := y, win := z } := by
    unfold State.countSkip
    split <;> exact ⟨_, _, _, rfl⟩
  unfold State.checkStep
  dsimp only
  split
  · exact skip _ _ _
  · unfold State.reserve
    dsimp only
    split
    · exact ⟨_, _, _, rfl⟩
    · split
      · obtain ⟨x, y, z, e⟩ := skip (s.modTenant (s.newStep c i).tenant (turnAt t)) .budget (s.newStep c i).tenant
        exact ⟨x, y, z, e⟩
      · exact ⟨_, _, _, rfl⟩

/-- The check of a strip-step whose strip is not there or not valid (R285). -/
theorem checkStep_empty {s : State} {c : Cmd} {i : Nat} (t : Time) (h : stripCount s.build ≤ c.stepWord i ∨ (s.strip (c.stepWord i)).valid = false) :
    (s.checkStep c t i).2.reason = stepCode .stripEmpty := by
  have hr : s.stepReason c t i = some .stripEmpty := by
    unfold State.stepReason
    exact if_pos (by simpa using h)
  unfold State.checkStep
  simp only [hr]

/-- The checks of a command's strip-steps, one after another: the strips stay as they are (R285). -/
theorem checkSteps_spec (s : State) (c : Cmd) (t : Time) : (∃ x y z, (s.checkSteps c t).1 = { s with tenants := x, totals := y, win := z }) ∧
    List.Forall₂ (fun i q => ∃ u : State, u.strips = s.strips ∧ u.build = s.build ∧ q = (u.checkStep c t i).2) (List.range c.stepCount)
      (s.checkSteps c t).2 := by
  have key (l : List Nat) (u : State) (ps : List StripStep) : ∃ v qs, l.foldl (fun (a : State × List StripStep) i =>
      ((a.1.checkStep c t i).1, a.2 ++ [(a.1.checkStep c t i).2])) (u, ps) = (v, ps ++ qs) ∧
      (∃ x y z, v = { u with tenants := x, totals := y, win := z }) ∧
      List.Forall₂ (fun i q => ∃ w : State, w.strips = u.strips ∧ w.build = u.build ∧ q = (w.checkStep c t i).2) l qs := by
    induction l generalizing u ps with
    | nil => exact ⟨u, [], by simp, ⟨_, _, _, rfl⟩, .nil⟩
    | cons i l ih =>
      obtain ⟨x, y, z, hi⟩ := checkStep_frame u c t i
      obtain ⟨v, qs, e, ⟨x', y', z', hv⟩, hq⟩ := ih (u.checkStep c t i).1 (ps ++ [(u.checkStep c t i).2])
      refine ⟨v, (u.checkStep c t i).2 :: qs, by simpa using e, ⟨x', y', z', by rw [hv, hi]⟩, .cons ⟨u, rfl, rfl, rfl⟩ ?_⟩
      rw [hi] at hq
      exact hq
  obtain ⟨v, qs, e, hv, hq⟩ := key (List.range c.stepCount) s []
  have e' : s.checkSteps c t = (v, qs) := e
  rw [e']
  exact ⟨hv, hq⟩

theorem checkSteps_length (s : State) (c : Cmd) (t : Time) : (s.checkSteps c t).2.length = c.stepCount := by
  rw [← (checkSteps_spec s c t).2.length_eq, List.length_range]

theorem checkSteps_empty {s : State} {c : Cmd} (t : Time) {i : Nat} (hi : i < c.stepCount)
    (h : stripCount s.build ≤ c.stepWord i ∨ (s.strip (c.stepWord i)).valid = false) :
    ((s.checkSteps c t).2.getD i default).reason = stepCode .stripEmpty := by
  have hl := checkSteps_length s c t
  have hd : i < (s.checkSteps c t).2.length := hl ▸ hi
  obtain ⟨u, hs, hb, e⟩ := (List.forall₂_iff_get.1 (checkSteps_spec s c t).2).2 i (by simpa using hi) hd
  rw [List.getD_eq_getElem _ _ hd]
  have e' : (s.checkSteps c t).2[i] = (u.checkStep c t i).2 := by simpa using e
  rw [e']
  refine checkStep_empty t ?_
  unfold State.strip at *
  rw [hb, hs]
  exact h

theorem State.solo.secondary {s : State} (h : s.solo) : s.secondary = false := by
  by_contra hc
  exact not_solo_of_secondary (by simpa using hc) h

theorem State.solo.primary {s : State} (h : s.solo) : s.primary = false := by
  by_contra hc
  exact not_solo_of_primary (by simpa using hc) h

theorem tell_solo {s : State} (h : s.solo) (k : Nat) (c : Cmd) (n d : Bool) (a b : Nat) : s.tell k c n d a b = s := by
  unfold State.tell
  rw [h.primary]; rfl

/-- `d` is `c` as its phase has begun in `s` (R285, R486). -/
structure State.Begun (s : State) (c d : Cmd) : Prop where
  stage : d.stage = .running
  begun : d.work.begun = true
  tCheck : d.work.tCheck = s.timeNs
  cEff : d.work.cEff = s.acre.cEff
  rowHalf : d.work.rowHalf = s.acre.rowHalf
  fold : d.work.f = chooseFold (pkFold c.run) c.work.s s.acre.cEff (c.op == opTrain)
  length : d.work.steps.length = c.stepCount
  empty : ∀ i, i < c.stepCount → stripCount s.build ≤ c.stepWord i ∨ (s.strip (c.stepWord i)).valid = false →
    (d.work.steps.getD i default).reason = stepCode .stripEmpty

theorem State.Begun.of_steady {s : State} {c d e : Cmd} (k : e.steady = d.steady) (h : s.Begun c d) : s.Begun c e := by
  have hs : e.work.steps = d.work.steps := (congrArg (fun d : Cmd => d.work.steps) k :)
  exact ⟨(congrArg Cmd.stage k).trans h.stage, (congrArg (fun d : Cmd => d.work.begun) k).trans h.begun,
    (congrArg (fun d : Cmd => d.work.tCheck) k).trans h.tCheck, (congrArg (fun d : Cmd => d.work.cEff) k).trans h.cEff,
    (congrArg (fun d : Cmd => d.work.rowHalf) k).trans h.rowHalf, (congrArg (fun d : Cmd => d.work.f) k).trans h.fold,
    hs ▸ h.length, hs ▸ h.empty⟩

/-- The same begin on a state with the same strips, clock and widths. -/
theorem State.Begun.of_same {s t : State} {c d : Cmd} (h : s.Begun c d) (hs : s.strips = t.strips) (hb : s.build = t.build)
    (ht : s.timeNs = t.timeNs) (hc : s.acre.cEff = t.acre.cEff) (hr : s.acre.rowHalf = t.acre.rowHalf) : t.Begun c d := by
  have hk (k : Nat) : s.strip k = t.strip k := by
    unfold State.strip
    rw [hs]
  refine ⟨h.stage, h.begun, h.tCheck.trans ht, h.cEff.trans hc, h.rowHalf.trans hr, hc ▸ h.fold, h.length, fun i hi he => h.empty i hi ?_⟩
  rwa [hb, hk]

/-- The strip-steps of packet `d` are counted, its begin is told (`b` is narrow and shed), and it asks for its first tile. -/
def State.beginAsk (s : State) (d : Cmd) (n : Nat) (b : Bool) : State :=
  let w := (s.perfAdd 10 n).tell stCheck d b b 0 0
  if d.tilesDone then w else w.askTile d

theorem beginAsk_spec {s : State} (hs : s.solo) (hb : s.boot.ready = true) (d : Cmd) (n : Nat) (b : Bool) :
    Keeps State.undrained s (s.beginAsk d n b) ∧ tblGet 0 (s.beginAsk d n b).perf.counters 10 = tblGet 0 s.perf.counters 10 + BitVec.ofNat 64 n := by
  have hcount := perfAdd_counts hb 10 n
  have hk := perfAdd_keeps s 10 n
  have hp : (s.perfAdd 10 n).solo := by rw [perfAdd_eq]; exact hs
  unfold State.beginAsk
  rw [tell_solo hp]
  dsimp only
  split
  · exact ⟨hk, hcount⟩
  · have ha : Keeps id (s.perfAdd 10 n) ((s.perfAdd 10 n).askTile d) := askTile_keeps _ d
    have hperf : ((s.perfAdd 10 n).askTile d).perf = (s.perfAdd 10 n).perf := (congrArg State.perf ha.frame :)
    exact ⟨hk.trans ha.weaken, by rw [hperf, hcount]⟩

/-- The block as packet `d` of a command that begins has the Acre: its steps are checked. -/
def State.beginWith (s : State) (c d : Cmd) : State :=
  let u := (s.checkSteps c s.timeNs).1.setCmd d
  ({ u with acre := { u.acre with run := some (d.ring, d.seq), held := false } } : State).beginAsk d
    (s.checkSteps c s.timeNs).2.length (decide (2 ≤ s.energy.level.val))

theorem beginPhase_eq {s : State} {c : Cmd} (hs : s.solo) : ∃ d, s.beginPhase c = s.beginWith c d ∧ d.order = c.order ∧ d.ring = c.ring ∧
    d.seq = c.seq ∧ s.Begun c d := by
  obtain ⟨⟨x, y, z, e⟩, -⟩ := checkSteps_spec s c s.timeNs
  have ha : (s.checkSteps c s.timeNs).1.acre = s.acre := by rw [e]
  have hent : s.checkEntry = (s.timeNs, decide (2 ≤ s.energy.level.val), decide (2 ≤ s.energy.level.val)) := by
    simp [State.checkEntry, hs.secondary]
  have hpair : (if s.secondary then { s with pair := { s.pair with checks := s.pair.checks.tail } } else s) = s := by
    simp [hs.secondary]
  unfold State.beginPhase
  rw [hent]
  simp only [hpair]
  exact ⟨_, rfl, rfl, rfl, rfl, rfl, rfl, rfl, congrArg Acre.cEff ha, congrArg Acre.rowHalf ha, by rw [← ha],
    checkSteps_length s c s.timeNs, fun _ => checkSteps_empty s.timeNs⟩

/-- The phase of a command begins on a block of its own (R285, R486). -/
theorem beginPhase_spec {s : State} {c : Cmd} (hs : s.solo) (hb : s.boot.ready = true) (hc : c ∈ s.cmds) :
    let v := s.beginPhase c
    v.unserved = ({ s with acre := { s.acre with run := some (c.ring, c.seq), held := false } } : State).unserved ∧
      tblGet 0 v.perf.counters 10 = tblGet 0 s.perf.counters 10 + BitVec.ofNat 64 c.stepCount ∧ v.holds c.order (s.Begun c) := by
  obtain ⟨d, hd, ho, hr, hq, hbegun⟩ := beginPhase_eq (c := c) hs
  obtain ⟨⟨x, y, z, e⟩, -⟩ := checkSteps_spec s c s.timeNs
  rw [hd, ← ho, ← hr, ← hq, ← checkSteps_length s c s.timeNs]
  unfold State.beginWith
  rw [e]
  obtain ⟨hk, hcount⟩ := beginAsk_spec (s := { s.setCmd d with
    tenants := x, totals := y, win := z, acre := { s.acre with run := some (d.ring, d.seq), held := false } }) hs hb d
    (s.checkSteps c s.timeNs).2.length (decide (2 ≤ s.energy.level.val))
  refine ⟨hk.unserved.frame, hcount, hk.holds (fun _ _ => State.Begun.of_steady) ?_⟩
  exact holds_of_cmds (setCmd_own ⟨c, hc, ho.symm⟩ hbegun) rfl

/-! ### ACRE_SELECT -/

theorem exec_acreSelect (now : Time) (s : State) : exec (.acreSelect now) s =
    .next ((s.tick now).keep (if (s.tick now).working then acreSelectDo (s.tick now) else s.tick now)) := by
  rw [tick_keep]; rfl

theorem ready_fnReset {s : State} {c : Cmd} (h : s.ready c = true) : s.fnReset 0 = false := by
  simp only [State.ready, Bool.and_eq_true] at h
  exact acreUsable_fnReset h.1.2

theorem working_ready {s : State} (h : s.working = true) : s.boot.ready = true := by
  simp only [State.working, State.running, Bool.and_eq_true] at h
  exact h.1.1.1.2

section
variable {s : State} {c : Cmd}

theorem acreSelectDo_idle (hr : s.acre.run = none) (h : s.bestReady = none) : acreSelectDo s = s := by
  simp [acreSelectDo, State.onAcre, hr, h]

theorem acreSelectDo_takes (hr : s.acre.run = none) (h : s.bestReady = some c) : acreSelectDo s = s.takeAcre c := by
  simp [acreSelectDo, State.onAcre, hr, h]

theorem acreSelectDo_ends (hc : s.onAcre = some c) (h : c.tilesDone = true ∨ c.work.pauseAsked = true) : acreSelectDo s = s := by
  simp [acreSelectDo, hc, h]

section
variable (hc : s.onAcre = some c) (h1 : c.tilesDone = false) (h2 : c.work.pauseAsked = false) (h3 : s.levelLets c = true)
include hc h1 h2 h3

theorem acreSelectDo_goesOn (h : s.outranked c = false) : acreSelectDo s = s := by
  simp [acreSelectDo, hc, h1, h2, h3, h]

theorem acreSelectDo_pauses (h : s.outranked c = true) {d : Cmd} (hd : (s.pauseRun c true).bestReady = some d) :
    acreSelectDo s = (s.pauseRun c true).takeAcre d := by
  simp [acreSelectDo, hc, h1, h2, h3, h, hd]

end

/-- `c` is ready, and every other ready command comes after it (R301). -/
structure State.Best (s : State) (c : Cmd) : Prop where
  mem : c ∈ s.cmds
  ready : s.ready c = true
  first : ∀ d ∈ s.cmds, s.ready d = true → d = c ∨ c.goesFirst d

theorem State.Best.bestReady (h : s.Best c) : s.bestReady = some c := bestReady_eq h.mem h.ready h.first

/-- The statement's form of it. -/
theorem best_of_others (ho : s.ordersOk) (hc : c ∈ s.cmds) (hr : s.ready c = true)
    (h : ∀ d ∈ s.cmds, s.ready d = true → d.order ≠ c.order → c.cls < d.cls ∨ (c.cls = d.cls ∧ c.dispOrder < d.dispOrder)) : s.Best c := by
  refine ⟨hc, hr, fun d hd hdr => ?_⟩
  by_cases e : d.order = c.order
  · exact .inl (ordersOk_inj ho hc hd e)
  · exact .inr (h d hd hdr e)

/-- A command outranked on the Acre is not the best one. -/
theorem outranked_ne {d : Cmd} (h : s.outranked c = true) (hd : s.Best d) : d ≠ c := by
  rintro rfl
  obtain ⟨e, he, hb⟩ := List.any_eq_true.1 h
  simp only [Bool.and_eq_true, decide_eq_true_eq] at hb
  obtain ⟨hr, hlt⟩ := hb
  rcases hd.first e he hr with rfl | hf
  · exact Nat.lt_irrefl _ hlt
  · unfold Cmd.goesFirst at hf
    omega

/-- The block as `c` leaves the Acre for a command of a higher class. -/
def State.paused (s : State) (c : Cmd) : State :=
  ({ s with acre := { s.acre with run := none, held := false } } : State).setCmd { c with preempted := true }

theorem pauseRun_eq (s : State) (c : Cmd) : s.pauseRun c true = (s.paused c).perfAdd 4 1 := rfl

/-- A pause by priority is counted (R301, R479). -/
theorem pauseRun_counts (h : s.boot.ready = true) (c : Cmd) :
    tblGet 0 (s.pauseRun c true).perf.counters 4 = tblGet 0 s.perf.counters 4 + 1 :=
  perfAdd_counts (s := s.paused c) h 4 1

theorem pauseRun_frame (s : State) (c : Cmd) : ∃ p, s.pauseRun c true = { s.paused c with perf := p } := by
  rw [pauseRun_eq]
  exact perfAdd_frame _ 4 1

theorem pauseRun_ready (s : State) (c d : Cmd) : (s.pauseRun c true).ready d = s.ready d := by
  obtain ⟨p, e⟩ := pauseRun_frame s c
  rw [e]; rfl

theorem mem_pauseRun {d : Cmd} :
    d ∈ (s.pauseRun c true).cmds ↔ ∃ e ∈ s.cmds, (if e.order = c.order then { c with preempted := true } else e) = d := by
  obtain ⟨p, e⟩ := pauseRun_frame s c
  rw [e]
  exact List.mem_map

/-- The best command stays the best as the other one pauses. -/
theorem pauseRun_best {d : Cmd} (ho : s.ordersOk) (hc : c ∈ s.cmds) (hd : s.Best d) (hne : d ≠ c) : (s.pauseRun c true).Best d := by
  have hord : d.order ≠ c.order := fun e => hne (ordersOk_inj ho hc hd.mem e)
  refine ⟨mem_pauseRun.2 ⟨d, hd.mem, if_neg hord⟩, (pauseRun_ready s c d).trans hd.ready, fun x hx hr => ?_⟩
  obtain ⟨e, he, rfl⟩ := mem_pauseRun.1 hx
  rw [pauseRun_ready] at hr
  by_cases heo : e.order = c.order
  · rw [if_pos heo] at hr ⊢
    exact .inr ((hd.first c hc hr).resolve_left hne.symm)
  · rw [if_neg heo] at hr ⊢
    exact hd.first e he hr

/-- A refused command ends with the reason and an empty body. -/
theorem refuse_ended (h : c ∈ s.cmds) (r : Reason) : (s.refuse c r).settle.holds c.order (Cmd.endedWith r (cplBody [])) := by
  obtain ⟨u, hu, e⟩ := refuse_cmds s c r
  rw [e]
  refine (settle_adv _).cmds _ _ (endedWith_stable _ _) ?_
  obtain ⟨hex, hall⟩ := finish_body (s := u) (c := c) r bodyZero ⟨c, hu ▸ h, rfl⟩
  exact ⟨hex, fun d hd ho => (hall d hd ho).1⟩

/-- `v` is the block with the Acre given to `c` at a boundary: the widths are those of now, and what the block holds stays (R92). -/
structure State.Gives (s : State) (c : Cmd) (v : State) : Prop where
  run : v.acre.run = some (c.ring, c.seq)
  held : v.acre.held = false
  cEff : v.acre.cEff = effectiveCols s.usableCols (decide (s.energy.level.val = 3))
  rowHalf : v.acre.rowHalf = s.rowHalfNow
  strips : v.strips = s.strips
  fields : v.fields = s.fields
  tensors : v.tensors = s.tensors
  gates : v.gates = s.gates
  rings : v.rings = s.rings
  base : v.pending = s.pending ∧ v.build = s.build ∧ v.mem = s.mem

theorem State.Gives.keep_settle {v : State} (h : s.Gives c v) : s.keep v.settle = v.settle :=
  Machine.keep_settle h.base.1 h.base.2.1 h.base.2.2

theorem State.Taken.gives {w : State} (h : s.Taken c w) : s.Gives c (w.withAcre c) := by
  have hf := h.keeps.frame
  exact ⟨rfl, rfl, h.cEff, h.rowHalf, (congrArg State.strips hf :), (congrArg State.fields hf :), (congrArg State.tensors hf :),
    (congrArg State.gates hf :), (congrArg State.rings hf :), (congrArg State.pending hf :), (congrArg State.build hf :), (congrArg State.mem hf :)⟩

/-- Only what a phase's begin moves may differ. -/
theorem State.Gives.of_unserved {v w : State} (h : s.Gives c v) (e : w.unserved = v.unserved) : s.Gives c w := by
  have ha : w.acre = v.acre := (congrArg State.acre e :)
  exact ⟨ha ▸ h.run, ha ▸ h.held, ha ▸ h.cEff, ha ▸ h.rowHalf, (congrArg State.strips e :).trans h.strips,
    (congrArg State.fields e :).trans h.fields, (congrArg State.tensors e :).trans h.tensors, (congrArg State.gates e :).trans h.gates,
    (congrArg State.rings e :).trans h.rings, (congrArg State.pending e :).trans h.base.1, (congrArg State.build e :).trans h.base.2.1,
    (congrArg State.mem e :).trans h.base.2.2⟩

section
variable (hr : s.acre.run = none) (h3 : s.rowHalfNow ≠ 3) (hb : s.Best c) (ho : ∀ d ∈ s.cmds, d.order = c.order → d = c)
include hr h3 hb ho

/-- A paused command takes the Acre and goes on (R92). -/
theorem takeAcre_goesOn (hbeg : c.work.begun = true) : ∃ w, s.Taken c w ∧ s.takeAcre c = (w.withAcre c).settle := by
  obtain ⟨w, hw, e, -⟩ := takeAcre_spec hr h3 (ready_fnReset hb.ready) hb.mem ho
  exact ⟨w, hw, e hbeg⟩

/-- A new command that the checks of point 4 refuse ends (R339, R349). -/
theorem takeAcre_refuses (hbeg : c.work.begun = false) {r : Reason} (hbind : s.bindReason c = some r) :
    (s.takeAcre c).holds c.order (Cmd.endedWith r (cplBody [])) := by
  obtain ⟨w, hw, -, e, -⟩ := takeAcre_spec hr h3 (ready_fnReset hb.ready) hb.mem ho
  rw [e r hbeg hbind]
  exact refuse_ended hw.mem r

/-- A new command takes the Acre and its phase begins (R285, R486). -/
theorem takeAcre_begins (hbeg : c.work.begun = false) (hbind : s.bindReason c = none) (hs : s.solo) (hready : s.boot.ready = true) :
    ∃ v, s.takeAcre c = v.settle ∧ s.Gives c v ∧
      tblGet 0 v.perf.counters 10 = tblGet 0 s.perf.counters 10 + BitVec.ofNat 64 c.stepCount ∧
      v.holds c.order (State.Begun { s with acre := v.acre } c) := by
  obtain ⟨w, hw, -, -, e⟩ := takeAcre_spec hr h3 (ready_fnReset hb.ready) hb.mem ho
  have hf := hw.keeps.frame
  have hpair : w.pair = s.pair := (congrArg State.pair hf :)
  have hboot : w.boot = s.boot := (congrArg State.boot hf :)
  have hperf : w.perf = s.perf := (congrArg State.perf hf :)
  obtain ⟨hv, hcount, hown⟩ := beginPhase_spec (hs.of_pair hpair) (hboot ▸ hready) hw.mem
  have hacre : (w.beginPhase c).acre = (w.withAcre c).acre := (congrArg State.acre hv :)
  refine ⟨w.beginPhase c, e hbeg hbind, hw.gives.of_unserved hv, hperf ▸ hcount, hown.1, fun d hd hdo => ?_⟩
  exact (hown.2 d hd hdo).of_same (congrArg State.strips hf :) (congrArg State.build hf :) (congrArg State.timeNs hf :)
    (congrArg Acre.cEff hacre).symm (congrArg Acre.rowHalf hacre).symm

end

theorem pauseRun_unique {d : Cmd} (ho : s.ordersOk) (hc : c ∈ s.cmds) (hd : d ∈ s.cmds) (hne : d ≠ c) :
    ∀ e ∈ (s.pauseRun c true).cmds, e.order = d.order → e = d := by
  intro x hx hxo
  obtain ⟨e, he, rfl⟩ := mem_pauseRun.1 hx
  by_cases heo : e.order = c.order
  · rw [if_pos heo] at hxo
    exact absurd (ordersOk_inj ho hc hd hxo.symm) hne
  · rw [if_neg heo] at hxo ⊢
    exact ordersOk_inj ho hd he hxo

/-- The paused packet keeps its place. -/
theorem pauseRun_own (hc : c ∈ s.cmds) : (s.pauseRun c true).holds c.order fun x => x.steady = ({ c with preempted := true } : Cmd).steady := by
  obtain ⟨p, e⟩ := pauseRun_frame s c
  rw [e]
  exact holds_of_cmds (setCmd_own (s := s) (c := { c with preempted := true }) ⟨c, hc, rfl⟩ rfl) rfl

/-- A headland with a ready command of a higher class: the one on the Acre pauses, and the other goes on (R92, R301, R479). -/
theorem acreSelectDo_preempts {d : Cmd} (hc : s.onAcre = some c) (hm : c ∈ s.cmds) (ho : s.ordersOk) (hwork : s.working = true)
    (h1 : c.tilesDone = false) (h2 : c.work.pauseAsked = false) (h4 : s.levelLets c = true) (hout : s.outranked c = true) (hd : s.Best d)
    (hbeg : d.work.begun = true) (h3 : s.rowHalfNow ≠ 3) : ∃ v, acreSelectDo s = v.settle ∧ s.Gives d v ∧
      tblGet 0 v.perf.counters 4 = tblGet 0 s.perf.counters 4 + 1 ∧
      v.holds c.order fun x => x.steady = ({ c with preempted := true } : Cmd).steady := by
  have hne := outranked_ne hout hd
  have hP := pauseRun_best ho hm hd hne
  obtain ⟨p, hp⟩ := pauseRun_frame s c
  obtain ⟨w, hw, e⟩ := takeAcre_goesOn (by rw [hp]; rfl) (by rw [hp]; exact h3) hP (pauseRun_unique ho hm hd.mem hne) hbeg
  have hperf : w.perf = (s.pauseRun c true).perf := (congrArg State.perf hw.keeps.frame :)
  have hown := hw.keeps.holds (fun _ _ h g => h.trans g) (pauseRun_own hm)
  have hcount : tblGet 0 (w.withAcre d).perf.counters 4 = _ :=
    (congrArg (fun p : Perf => tblGet 0 p.counters 4) hperf).trans (pauseRun_counts (working_ready hwork) c)
  have hg := hw.gives
  rw [hp] at hg
  exact ⟨_, (acreSelectDo_pauses hc h1 h2 h4 hout hP.bestReady).trans e, ⟨hg.run, hg.held, hg.cEff, hg.rowHalf, hg.strips, hg.fields,
    hg.tensors, hg.gates, hg.rings, hg.base⟩, hcount, hown⟩

end

/-- Settles O57: at a headland the best ready command is found (`byClass_head`) and takes the Acre at a boundary; a tile, a staged swath
and a phase's begin leave every packet steady but for what they say (`Keeps`), and a phase's end frees the Acre before the level acts. -/
theorem acreCommands : Obligations.AcreCommands := by
  refine ⟨?select, ?tile, ?release, ?staging, ?phaseEnd⟩
  case tile =>
    intro fault ce now s c u f k run hc hn ho huse hlev hp he ht hh hout
    have hrun : run = .next (u.keep (acreTileDo fault ce c u)) := acreTile_runs (tileOn_eq hc huse hlev hp he ht hh hout)
    rw [hrun]
    refine ⟨fun hf => ?_, fun hf hr => ?_, fun hr hfault hce => ?_, fun line hr hfault hl => ?_⟩
    · rw [acreTileDo_misfit hf]; rfl
    · rw [acreTileDo_hold hf hr]; rfl
    · obtain ⟨g, hg⟩ := correctedReads_none u
      have ha : ({ u with flt := g } : State).alone c := ⟨(hn.alone ho).mem, (hn.alone ho).order, (hn.alone ho).name⟩
      obtain ⟨hfr, hsub⟩ := tileDone ha ht
      subst hfault hce
      rw [acreTileDo_run hr, hg]
      exact ⟨_, _, congrArg Host.Outcome.next (keep_settle (congrArg State.pending hfr :) (congrArg State.build hfr :)
        (congrArg State.mem hfr :)), rfl,
        (congrArg State.strips hfr :), (congrArg State.tenants hfr :), (congrArg State.fields hfr :), (congrArg State.gates hfr :),
        (congrArg State.rings hfr :), (congrArg State.tensors hfr :), (congrArg State.acre hfr :), (congrArg State.granary hfr :),
        (congrArg State.ports hfr :), fun h _ => hsub h⟩
    · subst hfault
      obtain ⟨h1, h2, h3, h4, h5, h6, hw⟩ := acreTileDo_col (ce := ce) (acreUsable_fnReset huse) hl hr
      refine ⟨_, rfl, h1, h2, h3, h4, h5, h6, fun hb hd => ?_, fun hb => ?_⟩
      · exact hw.trans ((retireWord_col _ _ _).1 hb (by simpa using hd))
      · exact hw.trans ((retireWord_col _ _ _).2 (by simpa using hb))
  case release =>
    intro now s c u hc hr hh
    rw [exec_tileHoldRelease, tileReleaseDo_held hc hr hh]
    split <;> rfl
  case staging =>
    intro ring seq s c f n rows bad ho hn hring hseq h1 h2 h3 h4 h5 h6 h7 h8
    have ha := hn.alone ho
    have hs : c.stage ≠ .finished := by
      simp only [Cmd.active, Bool.and_eq_true, bne_iff_ne] at h4
      exact h4.2
    rw [← hring, ← hseq] at h8
    obtain ⟨x, e, hx⟩ := stagingDo_eq ha hs
    rw [stagingSwath_runs (c := c) (by rw [← hring, ← hseq]; exact stagingOn_eq ha h1 h2 h3 h4 h5 h6 h7 h8), e]
    exact ⟨_, rfl, rfl, hx⟩
  case phaseEnd =>
    intro now s c u hc hn ho h1 h2 h3 h4 h5 ha hr
    obtain ⟨hrun, hclk, hnar, hcols, hstrips, hfields, htensors, hdue, ⟨hp, hb, hm⟩, hown⟩ := phaseOver_spec hc ha hr
    rw [computePhaseEnd_runs (computePhaseEndOn_eq hc h1 h2 h3 h4 h5)]
    refine ⟨_, u.phaseOver c, rfl, fun h => ?_, hrun, hstrips, hfields, htensors, hclk, hnar, hcols, hown.1, fun d hd e => ?_⟩
    · rw [computePhaseEndDo_eq, afterCommit_none ((settle_flt_cpDue _).trans (hdue.trans h)), keep_settle hp hb hm]
    · have hd := hown.2 d hd e
      refine ⟨hd.ended, hd.reason, hd.stage, fun h => ?_⟩
      exact ⟨hd.length h, fun i hi => EndsStep_cases (hd.step h hi)⟩
  case select =>
    intro now s u best cols select hwork ho
    have hsel : select = .next (u.keep (acreSelectDo u)) := by
      rw [show select = _ from exec_acreSelect now s, if_pos hwork]
    have hbest {c : Cmd} (h : best c) : u.Best c := best_of_others ho h.1 h.2.1 h.2.2
    have huniq {c : Cmd} (hc : c ∈ u.cmds) : ∀ d ∈ u.cmds, d.order = c.order → d = c := fun d hd e => ordersOk_inj ho hc hd e
    rw [hsel]
    refine ⟨fun hr hno => ?_, fun c hr hb hbeg h3 => ?_, fun c hr hb _ hbeg hp1 hp2 h3 => ⟨fun r hbind => ?_, fun hbind => ?_⟩,
      fun c hc _ h => ?_, fun c hc hn h1 h2 hlev => ⟨fun hout => ?_, fun d hout hb hbeg h3 => ?_⟩⟩
    · rw [acreSelectDo_idle hr (bestReady_none hno)]; rfl
    · obtain ⟨w, hw, e⟩ := takeAcre_goesOn hr h3 (hbest hb) (huniq hb.1) hbeg
      have hg := hw.gives
      rw [acreSelectDo_takes hr (hbest hb).bestReady, e]
      exact ⟨_, _, congrArg Host.Outcome.next hg.keep_settle, rfl, hg.run, hg.held, hg.cEff, hg.rowHalf, hg.strips, hg.fields, hg.tensors,
        hg.gates, hg.rings, ⟨⟨c, hw.mem, rfl⟩, hw.order⟩, hw.staged⟩
    · rw [acreSelectDo_takes hr (hbest hb).bestReady]
      exact ⟨_, rfl, holds_of_cmds (takeAcre_refuses hr h3 (hbest hb) (huniq hb.1) hbeg hbind) rfl⟩
    · obtain ⟨v, e, hg, hcount, hown, hall⟩ :=
        takeAcre_begins hr h3 (hbest hb) (huniq hb.1) hbeg hbind ⟨hp1, hp2⟩ (working_ready hwork)
      rw [acreSelectDo_takes hr (hbest hb).bestReady, e]
      refine ⟨_, v, congrArg Host.Outcome.next hg.keep_settle, rfl, hg.run, hg.held, hg.cEff, hg.strips, hg.fields, hg.tensors, hg.gates,
        hg.rings, hcount, hown, fun d hd hdo => ?_⟩
      obtain ⟨h1, h2, h4, h5, h6, h7, h8, h9⟩ := hall d hd hdo
      exact ⟨h1, h2, h4, h5, h6, (settle_acre_cEff v).symm ▸ h7, h8, h9⟩
    · rw [acreSelectDo_ends hc h]; rfl
    · rw [acreSelectDo_goesOn hc h1 h2 hlev hout]; rfl
    · obtain ⟨v, e, hg, hcount, hown, hall⟩ := acreSelectDo_preempts hc hn.1 ho hwork h1 h2 hlev hout (hbest hb) hbeg h3
      rw [e]
      refine ⟨_, v, congrArg Host.Outcome.next hg.keep_settle, rfl, hg.run, hg.held, hg.cEff, hg.strips, hg.fields, hcount, hown,
        fun x hx hxo => ?_⟩
      have hx := hall x hx hxo
      exact ⟨(congrArg Cmd.preempted hx :), (congrArg Cmd.stage hx :), (congrArg Cmd.cycles hx :), (congrArg (fun x : Cmd => x.work.tile) hx :),
        (congrArg (fun x : Cmd => x.work.sub) hx :)⟩

end Sys2Proof.Machine
end

section
/-! PROOF. The frames of the activation stream (R390, R490): what the discard of a frame counts, and the cycles that the ACRE clock
runs up to its arrival (R480). -/

namespace Sys2Proof.Machine

/-- The meaning of the row. -/
theorem exec_actFrame (bytes : List Byte) (badKeep : Option Nat) (now : Time) (s : State) : exec (.actFrame bytes badKeep now) s =
    .next (s.keep (if (s.tick now).running && !(s.tick now).halted && !(s.tick now).fnReset 5 then actFrameDo bytes badKeep (s.tick now)
      else s.tick now)) := rfl

/-- A tick leaves every packet where it is found. -/
theorem tick_cmd (s : State) (now : Time) (r : Nat) (q : U32) : (s.tick now).cmd r q = s.cmd r q := by rw [tick_eq]; rfl

/-- The frame of a command that is gone is taken from the stream and discarded (R490). -/
theorem actFrameDo_gone {bytes : List Byte} {badKeep : Option Nat} {s : State} {r : Nat} {q : U32} {rest : List (Nat × U32)}
    (hf : s.streams.frames = (r, q) :: rest) (hc : s.cmd r q = none) : actFrameDo bytes badKeep s =
      ({ s with streams := { s.streams with frames := rest } } : State).frameBeats none bytes.length := by
  simp only [actFrameDo, hf, hc]

/-- The beats of a frame count in PERF_ACT_BEATS alone (R479). -/
theorem frameBeats_none_get (s : State) (n : Nat) {k : Nat} (h : k ≠ 15) :
    tblGet 0 (s.frameBeats none n).perf.counters k = tblGet 0 s.perf.counters k := perfAdd_get s 15 _ h

/-- Once a frame has been discarded every counter but that of the beats stands where the tick has put it (R479, R480). -/
theorem actFrame_gone_counters {bytes : List Byte} {badKeep : Option Nat} {now : Time} {s t : State} {r : Nat} {q : U32}
    {rest : List (Nat × U32)} (hlive : (s.tick now).live) (h5 : s.fnReset 5 = false) (hf : s.streams.frames = (r, q) :: rest)
    (hc : s.cmd r q = none) (ht : exec (.actFrame bytes badKeep now) s = .next t) {k : Nat} (hk : k ≠ 15) :
    tblGet 0 t.perf.counters k = tblGet 0 (s.tick now).perf.counters k := by
  have hruns : ((s.tick now).running && !(s.tick now).halted && !(s.tick now).fnReset 5) = true := by
    simp only [hlive.1, hlive.2, tick_fnReset, h5]; rfl
  have hgone := actFrameDo_gone (bytes := bytes) (badKeep := badKeep) ((congrArg Streams.frames (tick_streams s now)).trans hf)
    ((tick_cmd s now r q).trans hc)
  rw [exec_actFrame, if_pos hruns, hgone] at ht
  cases ht
  exact frameBeats_none_get _ _ hk

/-- A block in operation at time 0 whose activation stream still owes the frame of a command that is gone. -/
def owingFrame : State := { State.reset with
  boot := { State.reset.boot with ready := true, stage := 8 }, pins := { State.reset.pins with rstLow := false }
  streams := { State.reset.streams with frames := [(0, 0)] } }

/-- In 10 ns the ACRE clock runs 7 cycles, and they fall to PERF_ACRE_IDLE (R480). -/
theorem owingFrame_idles : tblGet 0 (owingFrame.tick 10).perf.counters 3 = 7 := by decide

/-- Refutes O56: the clauses on a discarded frame have every counter but PERF_ACT_BEATS stand as before the step, where the step first
counts the passage of time (R480). A frame of one beat that arrives at 10 ns, with no command on the Acre, finds 7 cycles more in
PERF_ACRE_IDLE. -/
theorem not_harrowCommands : ¬ Obligations.HarrowCommands := by
  rintro ⟨_, _, hframe⟩
  have hlive : (owingFrame.tick 10).live := ⟨by decide, by decide⟩
  obtain ⟨t, ht, hgone, _⟩ := hframe (zeros 256) none 10 owingFrame 0 0 [] hlive (by decide) rfl
  obtain ⟨⟨_, _, hothers⟩, _⟩ := hgone rfl
  have hstays : tblGet 0 t.perf.counters 3 = 0 := hothers 3 (by decide)
  have hcounts : tblGet 0 t.perf.counters 3 = 7 :=
    (actFrame_gone_counters hlive (by decide) rfl rfl ht (by decide)).trans owingFrame_idles
  exact absurd (hstays.symm.trans hcounts) (by decide)

end Sys2Proof.Machine
end

section
/-! PROOF. EVICT_HEAD and FW_SWAP at the end of their holds (R106, R355, R368, R431, R460). -/

namespace Sys2Proof.Machine

/-! ### EVICT_HEAD -/

theorem exec_evictHead_front {ring : Fin 64} {now : Time} {s : State} {c : Cmd} (h : (s.tick now).ctlFront ring.val opEvictHead = some c) :
    exec (.evictHead ring now) s = .next (s.keep (evictHeadDo (s.tick now) c)) := by
  rw [← onCtl_front (f := evictHeadDo) h]; rfl

/-- Nothing is freed where the field is EMPTY (R106). -/
theorem evictHead_empty {u : State} {c : Cmd} (hc : ∃ d ∈ u.cmds, d.order = c.order) (hf : (u.fieldOf c).state = 0) :
    ctlEnded u (evictHeadDo u c) c .fieldEmpty [] := by
  rw [evictHeadDo, if_pos hf]
  exact ctlDone_ended .fieldEmpty bodyZero hc

/-- Any other field becomes EMPTY, and the body tells the units that it held (R355). -/
theorem evictHead_frees {u : State} {c : Cmd} (hc : ∃ d ∈ u.cmds, d.order = c.order) (hf : (u.fieldOf c).state ≠ 0) :
    ctlEnded (u.modField (pkField c.run) fun _ => fieldReset) (evictHeadDo u c) c .ok [(32, 2, (u.fieldOf c).units)] := by
  rw [evictHeadDo, if_neg hf]
  exact ctlDone_ended (u := u.modField (pkField c.run) fun _ => fieldReset) .ok ⟨[(32, 2, (u.fieldOf c).units)], false, false⟩ hc

/-- What the end of a hold in `v` leaves of the fields. -/
theorem ctlEnded.fields {v t : State} {c : Cmd} {r : Reason} {b : List (Nat × Nat × Nat)} (h : ctlEnded v t c r b) : t.fields = v.fields :=
  (congrArg State.fields h.2.1.1 :)

theorem evictHead_row {ring : Fin 64} {now : Time} {s : State} {c : Cmd} (h : (s.tick now).ctlFront ring.val opEvictHead = some c) :
    ∃ t, exec (.evictHead ring now) s = .next t ∧
      (((s.tick now).field (pkField c.run)).state = 0 → ctlEnded (s.tick now) t c .fieldEmpty []) ∧
      (((s.tick now).field (pkField c.run)).state ≠ 0 →
        ctlEnded { s.tick now with fields := t.fields } t c .ok [(32, 2, ((s.tick now).field (pkField c.run)).units)] ∧
        t.field (pkField c.run) = fieldReset ∧ ∀ n, n ≠ pkField c.run → t.field n = (s.tick now).field n) := by
  have hc : ∃ d ∈ (s.tick now).cmds, d.order = c.order := ⟨c, (ctlFront_parts h).1, rfl⟩
  rw [exec_evictHead_front h]
  by_cases hf : ((s.tick now).fieldOf c).state = 0
  · have he := evictHead_empty hc hf
    exact ⟨_, rfl, fun _ => by rw [he.keep ⟨rfl, rfl, rfl⟩]; exact he, fun hn => absurd hf hn⟩
  · have he := evictHead_frees hc hf
    refine ⟨_, rfl, fun hn => absurd hn hf, fun _ => ?_⟩
    rw [he.keep (u := (s.tick now).modField _ _) ⟨rfl, rfl, rfl⟩]
    refine ⟨?_, ?_, fun n hn => ?_⟩
    · rw [he.fields]; exact he
    · rw [State.field, he.fields]; exact modField_field_same _ _ _
    · rw [State.field, he.fields]; exact modField_field_ne _ _ hn

/-! ### FW_SWAP -/

/-- The row that a FW_SWAP with ACTION `m` takes; one whose ACTION does not exist is refused by that of ACTION 0 (R368). -/
def fwSwapRow (m : Nat) (ring : Fin 64) (now : Time) : Instr :=
  if m = 1 then .fwSwapSwitch ring now else if m = 2 then .fwSwapLoadSwitch ring now else .fwSwapLoad ring now

theorem exec_fwSwap_front {ring : Fin 64} {now : Time} {s : State} {c : Cmd} (h : (s.tick now).ctlFront ring.val opFwSwap = some c) :
    exec (fwSwapRow (pkFwAction c.run) ring now) s = .next (s.keep (fwSwapDo (s.tick now) c)) := by
  have row (ok : Nat → Bool) (f : State → Cmd → State) (hm : ok (pkFwAction c.run) = true) :
      s.onFwSwap ring.val now ok f = f (s.tick now) c := by
    rw [State.onFwSwap, onCtl_front h, if_pos hm]
  unfold fwSwapRow fwSwapDo
  split
  · rename_i hm
    rw [hm]
    exact congrArg (fun x => Host.Outcome.next (s.keep x)) (row (· == 1) fwSwitchDo (by simp [hm]))
  · split
    · rename_i _ hm
      rw [hm]
      exact congrArg (fun x => Host.Outcome.next (s.keep x)) (row (· == 2) fwLoadSwitchDo (by simp [hm]))
    · rename_i h1 h2
      split
      · contradiction
      · contradiction
      · exact congrArg (fun x => Host.Outcome.next (s.keep x)) (row (fun a => a != 1 && a != 2) fwLoadDo (by simp [h1, h2]))

/-- A FW_SWAP ends in the state that its action has made of the banks (R368). -/
theorem fwDone_ended {u : State} {c : Cmd} (r : Reason) (hc : ∃ d ∈ u.cmds, d.order = c.order) (fw : Fw) (a v : Bool) (w : U16) :
    fwEnded u (({ u with fw := fw, flt := { u.flt with activeBank := a, standbyValid := v, switches := w } } : State).fwDone c r) c r fw a v w := by
  have he := ctlDone_ended (u := { u with fw := fw, flt := { u.flt with activeBank := a, standbyValid := v, switches := w } }) r
    (fwBody { u with fw := fw, flt := { u.flt with activeBank := a, standbyValid := v, switches := w } }) hc
  have hfw := still_fw he.2.1.1
  have hact := still_flt_activeBank he.2.1.1
  unfold fwEnded State.activeFw State.standbyFw State.fwDone
  rw [hfw, hact]
  exact he

theorem fwEnded.kept {s t : State} {now : Time} {c : Cmd} {r : Reason} {fw : Fw} {a v : Bool} {w : U16}
    (h : fwEnded (s.tick now) t c r fw a v w) : fwEnded (s.tick now) (s.keep t) c r fw a v w := by
  rw [ctlEnded.keep (now := now) h ⟨rfl, rfl, rfl⟩]
  exact h

/-- The banks once the standby one holds `img` (R368). -/
def State.bankWith (s : State) (img : List Byte) : Fw := if s.flt.activeBank then { s.fw with bank0 := img } else { s.fw with bank1 := img }

section
variable {u : State} {c : Cmd} (hc : ∃ d ∈ u.cmds, d.order = c.order)
include hc

/-- A failed load leaves the standby bank empty (R368). -/
theorem loadFailed_ended (r : Reason) : fwEnded u (u.loadFailed c r) c r (u.bankWith []) u.flt.activeBank false u.flt.switches :=
  fwDone_ended r hc _ _ _ _

theorem fwSwitch_ended (h : u.flt.standbyValid = true) :
    fwEnded u (fwSwitchDo u c) c .ok u.fw (!u.flt.activeBank) true (u.flt.switches + 1) := by
  rw [fwSwitchDo, if_pos h, ← h]
  exact fwDone_ended .ok hc _ _ _ _

theorem fwSwitch_refused (h : u.flt.standbyValid = false) :
    fwEnded u (fwSwitchDo u c) c .noStandby u.fw u.flt.activeBank false u.flt.switches := by
  rw [fwSwitchDo, if_neg (by simp [h]), ← h]
  exact fwDone_ended .noStandby hc _ _ _ _

/-- An ACTION that does not exist changes nothing (R368). -/
theorem fwLoad_badMode (h : 2 < pkFwAction c.run) :
    fwEnded u (fwLoadDo u c) c .badMode u.fw u.flt.activeBank u.flt.standbyValid u.flt.switches := by
  rw [fwLoadDo, if_pos (show pkFwAction c.run ≥ 3 from h)]
  exact fwDone_ended .badMode hc _ _ _ _

end

/-! ### The load of an image -/

theorem loadFw_tooLarge {u : State} {c : Cmd} (next : State → State) (h : pkFwLen c.run = 0 ∨ 2 ^ 20 < pkFwLen c.run) :
    u.loadFw c next = u.loadFailed c .fwTooLarge := if_pos h

section
variable {u : State} {c : Cmd} (next : State → State) (h0 : pkFwLen c.run ≠ 0) (h1 : pkFwLen c.run ≤ 2 ^ 20)
include h0 h1

theorem loadFw_asks (hs : c.stage = .waiting) :
    u.loadFw c next = (u.holdPart c 0).askRead .firmware c.ring c.seq 0 (pkFwAddr c.run) (pkFwLen c.run) := by
  simp only [State.loadFw, if_neg (not_or.2 ⟨h0, Nat.not_lt.2 h1⟩), hs]

theorem loadFw_waits {k : Nat} (hs : c.stage = .hold k) (ho : u.open c.ring c.seq .firmware = true) : u.loadFw c next = u := by
  simp only [State.loadFw, if_neg (not_or.2 ⟨h0, Nat.not_lt.2 h1⟩), hs, ho, if_true]

/-- An image that has been read and passes its check stands in the standby bank (R460). -/
theorem loadFw_passes {k : Nat} (hs : c.stage = .hold k) (ho : u.open c.ring c.seq .firmware = false)
    (hk : fwCheck (u.bytes (pkFwAddr c.run) (pkFwLen c.run)) (pkFwLen c.run) = .ok) :
    u.loadFw c next = next (u.setStandby (u.bytes (pkFwAddr c.run) (pkFwLen c.run)) true) := by
  simp only [State.loadFw, if_neg (not_or.2 ⟨h0, Nat.not_lt.2 h1⟩), hs, ho, hk, Bool.false_eq_true, if_false]

theorem loadFw_badSig {k : Nat} (hs : c.stage = .hold k) (ho : u.open c.ring c.seq .firmware = false)
    (hk : fwCheck (u.bytes (pkFwAddr c.run) (pkFwLen c.run)) (pkFwLen c.run) = .size ∨
      fwCheck (u.bytes (pkFwAddr c.run) (pkFwLen c.run)) (pkFwLen c.run) = .sig) : u.loadFw c next = u.loadFailed c .badFwSig := by
  rcases hk with hk | hk
  · simp only [State.loadFw, if_neg (not_or.2 ⟨h0, Nat.not_lt.2 h1⟩), hs, ho, hk, Bool.false_eq_true, if_false]
  · simp only [State.loadFw, if_neg (not_or.2 ⟨h0, Nat.not_lt.2 h1⟩), hs, ho, hk, Bool.false_eq_true, if_false]

theorem loadFw_badVersion {k : Nat} (hs : c.stage = .hold k) (ho : u.open c.ring c.seq .firmware = false)
    (hk : fwCheck (u.bytes (pkFwAddr c.run) (pkFwLen c.run)) (pkFwLen c.run) = .version) :
    u.loadFw c next = u.loadFailed c .fwVersion := by
  simp only [State.loadFw, if_neg (not_or.2 ⟨h0, Nat.not_lt.2 h1⟩), hs, ho, hk, Bool.false_eq_true, if_false]

end

/-- The load that ACTION 0 and ACTION 2 begin with: what follows an image that passes (R368). -/
def afterLoad (m : Nat) (c : Cmd) (s : State) : State := if m = 2 then s.switchFw.fwDone c .ok else s.fwDone c .ok

theorem fwSwapDo_loads {u : State} {c : Cmd} (h : pkFwAction c.run = 0 ∨ pkFwAction c.run = 2) :
    fwSwapDo u c = u.loadFw c (afterLoad (pkFwAction c.run) c) := by
  rcases h with h | h
  · have he : afterLoad 0 c = fun s => s.fwDone c .ok := funext fun _ => if_neg (by decide)
    simp only [fwSwapDo, fwLoadDo, h, he]
    rfl
  · simp only [fwSwapDo, fwLoadSwitchDo, h]
    rfl

theorem afterLoad_stays {u : State} {c : Cmd} {m : Nat} (h : m ≠ 2) (hc : ∃ d ∈ u.cmds, d.order = c.order) (img : List Byte) :
    fwEnded u (afterLoad m c (u.setStandby img true)) c .ok (u.bankWith img) u.flt.activeBank true u.flt.switches := by
  rw [afterLoad, if_neg h]
  exact fwDone_ended .ok hc _ _ _ _

theorem afterLoad_switches {u : State} {c : Cmd} {m : Nat} (h : m = 2) (hc : ∃ d ∈ u.cmds, d.order = c.order) (img : List Byte) :
    fwEnded u (afterLoad m c (u.setStandby img true)) c .ok (u.bankWith img) (!u.flt.activeBank) true (u.flt.switches + 1) := by
  rw [afterLoad, if_pos h]
  exact fwDone_ended .ok hc _ _ _ _

theorem fwSwapDo_switches {u : State} {c : Cmd} (h : pkFwAction c.run = 1) : fwSwapDo u c = fwSwitchDo u c := by
  simp only [fwSwapDo, h]

theorem fwSwapDo_refuses {u : State} {c : Cmd} (h : 2 < pkFwAction c.run) : fwSwapDo u c = fwLoadDo u c := by
  unfold fwSwapDo
  split
  · omega
  · omega
  · rfl

/-- Settles O46: EVICT_HEAD empties its field and tells the units freed; of FW_SWAP each action's banks, and the image that its hold
reads. -/
theorem evictAndFirmware : Obligations.EvictAndFirmware := by
  refine ⟨fun ring now s c hfront => evictHead_row hfront, fun ring now s c hfront => ?_⟩
  obtain ⟨hmem, -, -, hdisp, -⟩ := ctlFront_parts hfront
  have hc : ∃ d ∈ (s.tick now).cmds, d.order = c.order := ⟨c, hmem, rfl⟩
  refine ⟨_, exec_fwSwap_front hfront, fun hm => ?_, fun hm hv => ?_, fun hm hv => ?_, fun hm => ?_⟩
  · rw [fwSwapDo_refuses hm]; exact (fwLoad_badMode hc hm).kept
  · rw [fwSwapDo_switches hm]; exact (fwSwitch_ended hc hv).kept
  · rw [fwSwapDo_switches hm]; exact (fwSwitch_refused hc hv).kept
  rw [fwSwapDo_loads hm]
  refine ⟨fun hn => ?_, fun h0 h1 => ⟨fun hs => ?_, fun k hs ho => ?_, fun k hs ho => ⟨fun hk => ?_, fun hk => ?_, fun hk h => ?_, fun hk h => ?_⟩⟩⟩
  · rw [loadFw_tooLarge _ hn]; exact (loadFailed_ended hc _).kept
  · have hgoes := hold_goes hmem hdisp (readAsked (u := s.tick now) (c := c) 0 .firmware 0 (pkFwAddr c.run) (pkFwLen c.run) h0)
    rw [loadFw_asks _ h0 h1 hs, hgoes.keep]; exact hgoes
  · rw [loadFw_waits _ h0 h1 hs ho]; exact keep_tick s now
  · rw [loadFw_badSig _ h0 h1 hs ho hk]; exact (loadFailed_ended hc _).kept
  · rw [loadFw_badVersion _ h0 h1 hs ho hk]; exact (loadFailed_ended hc _).kept
  · rw [loadFw_passes _ h0 h1 hs ho hk]; exact (afterLoad_stays (h ▸ by decide) hc _).kept
  · rw [loadFw_passes _ h0 h1 hs ho hk]; exact (afterLoad_switches h hc _).kept

end Sys2Proof.Machine
end

section
/-! PROOF. What a write of a spare map does, of the Granary and of the Acre (R90 to R92, R114, R116, R435). -/

namespace Sys2Proof.Machine

/-- A register row of a block that serves: the write is performed and the transfer is answered. -/
theorem regWrite_row {s : State} (hs : s.serves) (f : State → State) : s.keep (s.regWrite f) = s.keep { f s with apb := apbDone } := by
  rw [regWrite_serves hs]; rfl

/-! ### The spare map of the Granary -/

theorem exec_grnSpareBank {g : Fin 64} {v : U32} {s : State} (hs : s.serves) :
    exec (.grnSpareBankWrite g v) s = .next (s.keep { grnSpareDo g.val v s with apb := apbDone }) :=
  congrArg Host.Outcome.next (regWrite_row hs _)

theorem grnSpareDo_missing {s : State} {g : Nat} (v : U32) (h : bankGroups s.build ≤ g) : grnSpareDo g v s = s := if_pos h

/-- A field that is not EMPTY keeps the map as it is (R116). -/
theorem grnSpareDo_ignored {s : State} {g : Nat} (v : U32) (h : g < bankGroups s.build) (hf : ∃ i < 8, (s.field i).state ≠ 0) :
    grnSpareDo g v s = { s with granary := { s.granary with mapIgnored := true } } := by
  obtain ⟨i, hi, hne⟩ := hf
  have hno : ((List.range 8).all fun i => (s.field i).state == 0) = false :=
    List.all_eq_false.2 ⟨i, List.mem_range.2 hi, by simpa using hne⟩
  rw [grnSpareDo, if_neg (Nat.not_le.2 h), hno]
  rfl

/-- The write takes a bank from the spare that served it or was to serve it (R114). -/
def unmaps (old v : U32) : Bool :=
  (old.getLsbD 31 || old.getLsbD 28) && (v.toNat % 64 != old.toNat % 64 || (old.getLsbD 31 && !v.getLsbD 31))

theorem grnSpareDo_taken {s : State} {g : Nat} (v : U32) (h : g < bankGroups s.build) (hf : ∀ i < 8, (s.field i).state = 0) :
    grnSpareDo g v s = (let old := tblGet 0 s.granary.spare g
      { s with granary := { s.granary with
        moved := if unmaps old v then s.granary.moved.erase (64 * g + old.toNat % 64) else s.granary.moved
        spare := tblSet 0 s.granary.spare g ((v &&& 0x8000003F#32) ||| (old &&& 0x70000000#32)) } }) := by
  have hall : ((List.range 8).all fun i => (s.field i).state == 0) = true :=
    List.all_eq_true.2 fun i hi => by simpa using hf i (List.mem_range.1 hi)
  rw [grnSpareDo, if_neg (Nat.not_le.2 h), hall]
  rfl

theorem unmaps_cleared {old v : U32} (h : old.getLsbD 31 = true) (hv : v.getLsbD 31 = false) : unmaps old v = true := by
  simp only [unmaps, h, hv, Bool.true_or, Bool.true_and, Bool.not_false, Bool.or_true]

theorem unmaps_unserved {old v : U32} (h : old.getLsbD 31 = false) (hm : old.getLsbD 28 = false) : unmaps old v = false := by
  simp only [unmaps, h, hm, Bool.or_self, Bool.false_and]

theorem grnSpareDo_frame (s : State) (g : Nat) (v : U32) : ∃ sp mi mv,
    grnSpareDo g v s = { s with granary := { s.granary with spare := sp, mapIgnored := mi, moved := mv } } ∧
    ∀ j, j ≠ g → tblGet 0 sp j = tblGet 0 s.granary.spare j := by
  unfold grnSpareDo
  split
  · exact ⟨_, _, _, rfl, fun _ _ => rfl⟩
  · split
    · exact ⟨_, _, _, rfl, fun _ hj => tblGet_set_ne 0 _ _ hj⟩
    · exact ⟨_, _, _, rfl, fun _ _ => rfl⟩

theorem grnSpare_row (g : Fin 64) (v : U32) (s : State) (hs : s.serves) :
    (let old := tblGet 0 s.granary.spare g.val
     ∃ t, exec (.grnSpareBankWrite g v) s = .next t ∧
      t = { s with
        apb := apbDone
        granary := { s.granary with spare := t.granary.spare, mapIgnored := t.granary.mapIgnored, moved := t.granary.moved } } ∧
      (∀ j, j ≠ g.val → tblGet 0 t.granary.spare j = tblGet 0 s.granary.spare j) ∧
      (bankGroups s.build ≤ g.val → t.granary = s.granary) ∧
      (g.val < bankGroups s.build → (∀ i < 8, (s.field i).state = 0) →
        t.granary.mapIgnored = s.granary.mapIgnored ∧
        tblGet 0 t.granary.spare g.val = (v &&& 0x8000003F#32) ||| (old &&& 0x70000000#32) ∧
        (old.getLsbD 31 = true → v.getLsbD 31 = false → t.granary.moved = s.granary.moved.erase (64 * g.val + old.toNat % 64)) ∧
        (old.getLsbD 31 = false → old.getLsbD 28 = false → t.granary.moved = s.granary.moved)) ∧
      (g.val < bankGroups s.build → (∃ i < 8, (s.field i).state ≠ 0) →
        t.granary = { s.granary with mapIgnored := true })) := by
  obtain ⟨sp, mi, mv, hdo, hother⟩ := grnSpareDo_frame s g.val v
  refine ⟨_, exec_grnSpareBank hs, ?_, ?_, fun h => ?_, fun h hf => ?_, fun h hf => ?_⟩
  · rw [hdo]; rfl
  · rw [hdo]; exact hother
  · rw [grnSpareDo_missing v h]; rfl
  · rw [grnSpareDo_taken v h hf]
    exact ⟨rfl, tblGet_set_same 0 _ _ _, fun h1 h2 => if_pos (unmaps_cleared h1 h2), fun h1 h2 => if_neg (Bool.eq_false_iff.1 (unmaps_unserved h1 h2))⟩
  · rw [grnSpareDo_ignored v h hf]; rfl

/-! ### The spare maps of the Acre -/

/-- A spare word of the Acre, of the rows or of the columns. -/
def State.spareWord (s : State) (row : Bool) (j : Nat) : U32 := tblGet 0 (if row then s.acre.spareRow else s.acre.spareCol) j

/-- The block with a spare word of the Acre written, before the width follows. -/
def State.withSpare (s : State) (row : Bool) (n : Nat) (v : U32) : State := { s with acre := { s.acre with
  spareRow := if row then tblModify 0 s.acre.spareRow n (spareWrite v) else s.acre.spareRow
  spareCol := if row then s.acre.spareCol else tblModify 0 s.acre.spareCol n (spareWrite v) } }

theorem withSpare_same (s : State) (row : Bool) (n : Nat) (v : U32) :
    (s.withSpare row n v).spareWord row n = spareWrite v (s.spareWord row n) := by
  cases row
  · exact tblGet_modify_same 0 _ _ _
  · exact tblGet_modify_same 0 _ _ _

theorem withSpare_other (s : State) {row r : Bool} {n j : Nat} (v : U32) (h : ¬ (r = row ∧ j = n)) :
    (s.withSpare row n v).spareWord r j = s.spareWord r j := by
  cases row <;> cases r
  · exact tblGet_modify_ne 0 _ _ fun hj => h ⟨rfl, hj⟩
  · rfl
  · rfl
  · exact tblGet_modify_ne 0 _ _ fun hj => h ⟨rfl, hj⟩

/-- UNREP is no field of a write (R91). -/
theorem spareWrite_unrep (v old : U32) : spareUnrep (spareWrite v old) = spareUnrep old := by
  simp [spareUnrep, spareWrite]

theorem withSpare_unrep (s : State) (row r : Bool) (n j : Nat) (v : U32) :
    spareUnrep ((s.withSpare row n v).spareWord r j) = spareUnrep (s.spareWord r j) := by
  by_cases h : r = row ∧ j = n
  · obtain ⟨rfl, rfl⟩ := h
    rw [withSpare_same, spareWrite_unrep]
  · rw [withSpare_other s v h]

theorem withSpare_usableCols (s : State) (row : Bool) (n : Nat) (v : U32) : (s.withSpare row n v).usableCols = s.usableCols := by
  have hcol : ∀ j, spareUnrep (tblGet 0 (s.withSpare row n v).acre.spareCol j) = spareUnrep (tblGet 0 s.acre.spareCol j) :=
    fun j => withSpare_unrep s row false n j v
  simp only [State.usableCols, hcol]
  rfl

/-- The width that a write leaves is the one from before it: EN and the line tell only which line the spare stands for (R90, R91). -/
theorem withSpare_rowHalfNow (s : State) (row : Bool) (n : Nat) (v : U32) : (s.withSpare row n v).rowHalfNow = s.rowHalfNow := by
  have hrow : ∀ j, spareUnrep (tblGet 0 (s.withSpare row n v).acre.spareRow j) = spareUnrep (tblGet 0 s.acre.spareRow j) :=
    fun j => withSpare_unrep s row true n j v
  have hbad : ∀ a, (s.withSpare row n v).badRows a = s.badRows a := fun a => by simp only [State.badRows, hrow]
  simp only [State.rowHalfNow, withSpare_usableCols, hbad]

theorem exec_acrSpare {row : Bool} {n : Fin 16} {v : U32} {s : State} (hs : s.serves) :
    exec (.acrSpareWrite row n v) s = .next (s.keep { acrSpareDo row n.val v s with apb := apbDone }) :=
  congrArg Host.Outcome.next (regWrite_row hs _)

theorem acrSpareDo_missing {s : State} {row : Bool} {n : Nat} (v : U32) (h : ¬ (row = true ∨ n < colGroups s.build)) :
    acrSpareDo row n v s = s := by
  obtain ⟨hr, hn⟩ := not_or.1 h
  rw [acrSpareDo, if_neg hr, if_neg hn]

theorem acrSpareDo_exists {s : State} {row : Bool} {n : Nat} (v : U32) (h : row = true ∨ n < colGroups s.build) :
    acrSpareDo row n v s = (s.withSpare row n v).refreshWidth := by
  cases row with
  | true => rfl
  | false => rw [acrSpareDo, if_neg Bool.false_ne_true, if_pos (h.resolve_left Bool.false_ne_true)]; rfl

theorem acrSpare_row (row : Bool) (n : Fin 16) (v : U32) (s : State) (hs : s.serves) (hz : s.rowHalfNow = 3 → s.fnReset 0 = true) :
    ∃ t, exec (.acrSpareWrite row n v) s = .next t ∧
      t = { s with acre := t.acre, granary := t.granary, flt := { s.flt with pend := t.flt.pend, replace := t.flt.replace }, apb := apbDone } ∧
      (t.spareWord row n.val = (if row = true ∨ n.val < colGroups s.build
         then (v &&& 0x8000003F#32) ||| (s.spareWord row n.val &&& 0x40000000#32) else s.spareWord row n.val) ∧
       ∀ r j, ¬ (r = row ∧ j = n.val) → t.spareWord r j = s.spareWord r j) ∧
      (s.acre.run.isSome = true → t.acre.cEff = s.acre.cEff ∧ t.acre.rowHalf = s.acre.rowHalf) ∧
      (s.acre.run = none → row = true ∨ n.val < colGroups s.build → t.acre.rowHalf = s.rowHalfNow ∧
        t.acre.cEff = effectiveCols s.usableCols (decide (s.energy.level.val = 3))) := by
  rw [exec_acrSpare hs]
  by_cases h : row = true ∨ n.val < colGroups s.build
  · obtain ⟨a, gr, r, p, hw, hcol, hrow, hbusy, hfree⟩ := refreshWidth_frame (s.withSpare row n.val v)
      fun h3 => hz ((withSpare_rowHalfNow s row n.val v).symm.trans h3)
    rw [acrSpareDo_exists v h, hw, if_pos h]
    have hword : ∀ r j, tblGet 0 (if r then a.spareRow else a.spareCol) j = (s.withSpare row n.val v).spareWord r j := by
      rw [hcol, hrow]; exact fun _ _ => rfl
    refine ⟨_, rfl, rfl, ⟨(hword _ _).trans (withSpare_same s row n.val v), fun r j hj => (hword _ _).trans (withSpare_other s v hj)⟩,
      hbusy, fun hr _ => ?_⟩
    rw [withSpare_rowHalfNow, withSpare_usableCols] at hfree
    exact hfree (congrArg Option.isSome hr)
  · rw [acrSpareDo_missing v h, if_neg h]
    exact ⟨_, rfl, rfl, ⟨rfl, fun _ _ _ => rfl⟩, fun _ => ⟨rfl, rfl⟩, fun _ hc => absurd hc h⟩

/-- Settles O30: a spare map takes EN and the line, that of the Granary only while every field is EMPTY; the width of the Acre follows
at once while no command is on it. -/
theorem spareMaps : Obligations.SpareMaps := ⟨grnSpare_row, acrSpare_row⟩

end Sys2Proof.Machine
end

section
/-! PROOF. No step of a command's life gives a packet another fetch order (R312): while dispatched commands advance by themselves
the list of fetch orders stays what it is. One lemma per shared operation, up to `settle_orders`. -/

namespace Sys2Proof.Machine

/-- The fetch orders of the packets, in their order. -/
def State.orders (s : State) : List Nat := s.cmds.map Cmd.order

theorem orders_of_cmds {s t : State} (h : t.cmds = s.cmds) : t.orders = s.orders := congrArg (List.map Cmd.order) h

theorem foldl_orders {α : Type} {f : State → α → State} (h : ∀ s x, (f s x).orders = s.orders) (l : List α) (s : State) :
    (l.foldl f s).orders = s.orders := by
  induction l generalizing s with
  | nil => rfl
  | cons x l ih => exact (ih _).trans (h s x)

theorem map_orders {s : State} {f : Cmd → Cmd} (h : ∀ c, (f c).order = c.order) : ({ s with cmds := s.cmds.map f } : State).orders = s.orders := by
  simp only [State.orders, List.map_map]
  exact List.map_congr_left fun c _ => h c

theorem setCmd_orders (s : State) (c : Cmd) : (s.setCmd c).orders = s.orders :=
  map_orders fun d => by
    split
    · rename_i h; exact h.symm
    · rfl

theorem modCmd_orders (s : State) (r : Nat) (q : U32) (f : Cmd → Cmd) : (s.modCmd r q f).orders = s.orders := by
  unfold State.modCmd
  split
  · exact setCmd_orders s _
  · rfl

theorem Quiet.orders {s t : State} (h : Quiet s t) : t.orders = s.orders := orders_of_cmds h.cmds

theorem finish_orders (s : State) (c : Cmd) (r : Reason) (b : Body) : (s.finish c r b).orders = s.orders := by
  have hleave : (if (s.convert c).2.disp.isNone then (s.convert c).1.leaveBarrier (s.convert c).2.ring else (s.convert c).1).orders = s.orders := by
    split
    · exact ((convert_quiet s c).trans (leaveBarrier_quiet _ _)).orders
    · exact (convert_quiet s c).orders
  unfold State.finish
  exact (freeAcre_quiet _ _ _).orders.trans ((setCmd_orders _ _).trans hleave)

theorem refuse_orders (s : State) (c : Cmd) (r : Reason) : (s.refuse c r).orders = s.orders :=
  (finish_orders _ _ _ _).trans (refuse_quiet s c).orders

theorem output_orders (s : State) (c : Cmd) (k : Traffic) (r i a : Nat) (b : List Byte) : (s.output c k r i a b).orders = s.orders := by
  unfold State.output
  extract_lets held g u
  have hu : u.orders = s.orders := by
    show (if s.pair.state = 2 then _ else s : State).orders = s.orders
    split
    · exact modCmd_orders s _ _ _
    · rfl
  split
  · exact hu
  · exact (ask_quiet u g).orders.trans hu

/-! ### Commands that become ready -/

section
variable (s : State) (c : Cmd)

theorem grantPool_orders : (s.grantPool c).orders = s.orders := setCmd_orders s _

theorem grantAtDispatch_orders : (s.grantAtDispatch c).orders = s.orders := by
  unfold State.grantAtDispatch
  split
  · exact grantPool_orders s c
  · rfl

theorem learnStrips_orders : (s.learnStrips c).orders = s.orders := by
  unfold State.learnStrips
  split
  · exact setCmd_orders s _
  · rfl

theorem learnTrees_orders : (s.learnTrees c).orders = s.orders := by
  unfold State.learnTrees
  split
  · exact (grantAtDispatch_orders _ _).trans (setCmd_orders s _)
  · rfl

theorem askStage_orders : (s.askStage c).orders = s.orders := by
  unfold State.askStage
  extract_lets f n u
  split
  · exact (ask_quiet _ _).orders.trans (setCmd_orders s _)
  · rfl

theorem tryStart_orders : (s.tryStart c).orders = s.orders := by
  unfold State.tryStart
  split
  · split
    · exact refuse_orders s c _
    · exact (askPoint4_quiet _ _).orders.trans (setCmd_orders s _)
  · rfl

theorem point4_orders : (s.point4 c).orders = s.orders := by
  unfold State.point4
  split
  · exact refuse_orders s c _
  · split
    · dsimp only
      split
      · exact setCmd_orders s _
      · exact refuse_orders s c _
    · rfl

theorem stageLists_orders : (s.stageLists c).orders = s.orders := by
  unfold State.stageLists
  extract_lets strips
  split
  · exact setCmd_orders s _
  · rfl

theorem dropLists_orders (b : Bool) : (s.dropLists b c).orders = s.orders := by
  unfold State.dropLists
  refine map_orders (s := { s with queue := _ }) fun d => ?_
  split <;> rfl

theorem stagePart_orders (b : Bool) (r : Nat) (q : U32) (n : Nat) : (s.stagePart b r q n).orders = s.orders := by
  induction n generalizing s with
  | zero => rfl
  | succ n ih =>
    unfold State.stagePart
    split
    · rfl
    · dsimp only
      split
      · rfl
      · split
        · rfl
        · refine (ih _).trans ((foldl_orders (fun s e => (askRead_quiet s _ _ _ _ _ _).orders) _ _).trans ((modCmd_orders _ _ _ _).trans ?_))
          split
          · exact dropLists_orders s _ _
          · rfl

theorem stageParts_orders : (s.stageParts c).orders = s.orders := by
  unfold State.stageParts
  extract_lets n
  split
  · exact (stagePart_orders _ _ _ _ _).trans (stagePart_orders _ _ _ _ _)
  · rfl

/-! ### Commands that end -/

theorem unreserve_orders (p : StripStep) : (s.unreserve p).orders = s.orders := by
  unfold State.unreserve
  split <;> rfl

theorem closeMerge_orders (r : Reason) : (s.closeMerge c r).orders = s.orders := by
  unfold State.closeMerge
  split
  · exact finish_orders s c r _
  · split
    · exact setCmd_orders s _
    · exact (finish_orders _ _ _ _).trans (setCmd_orders s _)

theorem endMergeOf_orders (r : Reason) : (s.endMergeOf c r).orders = s.orders := by
  unfold State.endMergeOf
  split
  · exact closeMerge_orders s _ r
  · rfl

theorem fieldLeft_orders : (s.fieldLeft c).orders = s.orders := by
  unfold State.fieldLeft
  split
  · rfl
  · split <;> rfl

theorem endWork_orders (r : Reason) : (s.endWork c r).orders = s.orders := by
  unfold State.endWork
  extract_lets d₀ w d s₁ s₂ steps
  have hleft : s₂.orders = s.orders := by
    refine (fieldLeft_orders s₁ d).trans ?_
    show (if r = .saved then s.dropReads d.ring d.seq else s.dropQueued d.ring d.seq).orders = s.orders
    split <;> rfl
  clear_value s₂ steps d
  split
  · exact (closeMerge_orders s₂ d r).trans hleft
  · split
    · refine (endMergeOf_orders _ _ _).trans ((freeAcre_quiet _ _ _).orders.trans ((setCmd_orders _ _).trans
        ((foldl_orders (fun s p => ?_) _ _).trans hleft)))
      split
      · rfl
      · exact unreserve_orders s p
    · exact (endMergeOf_orders _ _ _).trans ((finish_orders _ _ _ _).trans hleft)

theorem noAcre_orders : (s.noAcre c).orders = s.orders := by
  unfold State.noAcre
  split
  · exact endWork_orders s c _
  · rfl

theorem advance_orders (r : Nat) (q : U32) : (s.advance r q).orders = s.orders := by
  have key (f : State → Cmd → State) (t : State) (hf : ∀ c, (f t c).orders = t.orders) (h : t.orders = s.orders) : (match t.cmd r q with
      | some c => if c.stage = Stage.finished then t else f t c
      | none => t).orders = s.orders := by
    split
    · split
      · exact h
      · exact (hf _).trans h
    · exact h
  unfold State.advance
  simp only [List.foldl]
  refine key _ _ (stageParts_orders _) (key _ _ (stageLists_orders _) (key _ _ (point4_orders _) (key _ _ (tryStart_orders _) ?_)))
  refine key _ _ (askStage_orders _) (key _ _ (askStage_orders _) (key _ _ (learnTrees_orders _) (key _ _ (learnStrips_orders _) ?_)))
  exact key _ _ (noAcre_orders _) rfl

theorem gradCommit_orders (r : Nat) (q : U32) (n : Nat) : (s.gradCommit r q n).orders = s.orders := by
  induction n generalizing s with
  | zero => rfl
  | succ n ih =>
    unfold State.gradCommit
    split
    · rfl
    · extract_lets f t put u w vs u₁ u₂
      have hu : u.orders = s.orders := by
        show (if _ then _ else s : State).orders = s.orders
        split
        · exact (tell_quiet _ _ _ _ _ _ _).orders.trans (modCmd_orders s _ _ _)
        · rfl
      have hu₁ : u₁.orders = u.orders := by
        show (if _ then _ else u : State).orders = u.orders
        split
        · exact modCmd_orders u _ _ _
        · rfl
      have hu₂ : u₂.orders = s.orders := (modCmd_orders u₁ _ _ _).trans (hu₁.trans hu)
      split
      · rfl
      · split
        · exact hu
        · split
          · exact (ih _).trans ((askRead_quiet _ _ _ _ _ _ _).orders.trans ((modCmd_orders u _ _ _).trans hu))
          · exact (ih _).trans ((output_orders _ _ _ _ _ _ _).trans hu₂)

theorem tryComplete_orders : (s.tryComplete c).orders = s.orders := by
  unfold State.tryComplete
  split
  · split
    · split
      · exact setCmd_orders s _
      · rfl
    · exact finish_orders s _ _ _
  · split
    · exact finish_orders s _ _ _
    · rfl

end

/-! ### What comes about after a step -/

theorem compareDigests_orders (s : State) : s.compareDigests.orders = s.orders := by
  unfold State.compareDigests
  split
  · refine foldl_orders (fun s c => ?_) _ _
    unfold State.compareDigest
    split
    · rename_i hs
      simp only [Bool.and_eq_true] at hs
      split
      · rfl
      · split
        · exact setCmd_orders _ _
        · exact (diverge_quiet (s.setCmd _) _ _ _ (not_solo_of_secondary hs.1.1)).orders.trans (setCmd_orders s _)
    · rfl
  · rfl

theorem pump_orders (s : State) : s.pump.orders = s.orders := by
  refine foldl_orders (fun s r => ?_) _ _
  unfold State.pumpRing
  extract_lets g
  split
  · rfl
  · split
    · exact (askWrite_quiet _ _ _ _ _ _ _).orders.trans (setCmd_orders s _)
    · rfl

theorem passOn_orders (s : State) : s.passOn.orders = s.orders :=
  (map_orders (marked_later s.joinBarrier.nextOrder · |>.order)).trans (joinBarrier_quiet s).orders

/-- No packet comes or goes while dispatched commands advance by themselves. -/
@[simp] theorem settle_orders (s : State) : s.settle.orders = s.orders := by
  unfold State.settle
  extract_lets u v w
  have hv : v.orders = s.orders := by
    refine Eq.trans ?_ (passOn_orders s)
    show (if _ then _ else u : State).orders = u.orders
    split
    · exact foldl_orders (fun s c => advance_orders s _ _) _ _
    · rfl
  have hw : w.orders = v.orders := by
    show (if _ then v else _ : State).orders = v.orders
    split
    · rfl
    · refine foldl_orders (fun s c => ?_) _ _
      have hg : (if c.op = opTrain then s.gradCommit c.ring c.seq (2 * (s.fieldOf c).n + 2) else s).orders = s.orders := by
        split
        · exact gradCommit_orders s _ _ _
        · rfl
      generalize (if c.op = opTrain then s.gradCommit c.ring c.seq (2 * (s.fieldOf c).n + 2) else s) = g at hg
      dsimp only
      split
      · exact (tryComplete_orders g _).trans hg
      · exact hg
  exact (pump_orders _).trans ((compareDigests_orders w).trans (hw.trans hv))

end Sys2Proof.Machine
end

section
/-! PROOF. What a written completion record brings about (R119, R257, R313, R317 to R319, R481). -/

namespace Sys2Proof.Machine

/-! ### The planner's next look -/

/-- A state without what a reconsideration reports and the end of a grant moves. -/
def State.unplanned (s : State) : State := { s with
  arb := { s.arb with grant := none }, energy := { s.energy with lastProj := 0, oversize := 0 } }

/-- The block goes from `s` to `t` by packets that advance, by considerations of the planner and by the end of a grant. -/
structure Plans (s t : State) : Prop where
  adv : Adv s.unplanned t.unplanned
  orders : t.orders = s.orders

theorem Plans.refl (s : State) : Plans s s := ⟨Adv.refl _, rfl⟩

theorem Plans.trans {a b c : State} (h : Plans a b) (k : Plans b c) : Plans a c := ⟨h.adv.trans k.adv, k.orders.trans h.orders⟩

theorem Adv.unplanned {s t : State} (h : Adv s t) : Adv s.unplanned t.unplanned := by
  refine ⟨⟨?_, h.same.2.1, h.same.2.2⟩, h.cmds, h.pend, h.pair⟩
  have hstill (s : State) : s.unplanned.still = s.still.unplanned := rfl
  rw [hstill, hstill, h.same.1]

theorem settle_plans (s : State) : Plans s s.settle := ⟨(settle_adv s).unplanned, settle_orders s⟩

theorem dropGrant_plans (s : State) : Plans s s.dropGrant := by
  unfold State.dropGrant
  split
  · split
    · exact ⟨Adv.refl _, rfl⟩
    · exact .refl s
  · exact .refl s

/-- A decision gives its packet a projection (R415, R416). -/
theorem decideOn_eq (s : State) (b : Bool) (c : Cmd) (q : Nat) (big : Bool) : ∃ n p a d, s.decideOn b c q big =
    ({ s with energy := { s.energy with oversize := n } } : State).setCmd { c with proj := p, admitted := a, deferred := d } := by
  unfold State.decideOn
  split
  · exact ⟨s.energy.oversize, q, true, false, rfl⟩
  · split
    · split
      · exact ⟨s.energy.oversize + 1, q, true, false, rfl⟩
      · exact ⟨s.energy.oversize, q, c.admitted, true, rfl⟩
    · split
      · exact ⟨s.energy.oversize, q, true, false, rfl⟩
      · exact ⟨s.energy.oversize, q, c.admitted, true, rfl⟩

theorem decideOn_plans {s : State} {c : Cmd} (b : Bool) (q : Nat) (big : Bool) (hc : c ∈ s.cmds) : Plans s (s.decideOn b c q big) := by
  obtain ⟨n, p, a, d, e⟩ := decideOn_eq s b c q big
  rw [e]
  refine ⟨?_, setCmd_orders _ _⟩
  exact setCmd_adv (s := s.unplanned) ⟨c, hc, rfl, rfl, rfl, rfl, rfl, rfl, rfl, fun h => ⟨h, rfl, rfl⟩⟩

/-- What the planner reports as the last projection is its own. -/
theorem lastProj_plans (s : State) (l : U32) : Plans s { s with energy := { s.energy with lastProj := l } } := ⟨Adv.refl _, rfl⟩

theorem consider_plans {s : State} {c : Cmd} (b : Bool) (hc : c ∈ s.cmds) : Plans s (s.consider b c) :=
  (lastProj_plans s _).trans (decideOn_plans b _ _ hc)

theorem reconsider_plans (b : Bool) (s : State) : Plans s (s.reconsider b) := by
  have key (l : List Cmd) (acc : State × Bool) : Plans acc.1 (l.foldl (fun (acc : State × Bool) c =>
      match acc.1.cmds.find? (fun d => d.order == c.order) with
      | some d => if acc.1.deferredBefore d then acc else (acc.1.consider (b && acc.2) d, false)
      | none => acc) acc).1 := by
    induction l generalizing acc with
    | nil => exact .refl _
    | cons c l ih =>
      refine Plans.trans ?_ (ih _)
      dsimp only
      split
      · rename_i d hd
        split
        · exact .refl _
        · exact consider_plans _ (List.mem_of_find?_eq_some hd)
      · exact .refl _
  unfold State.reconsider
  split
  · exact .refl s
  · exact (key _ (s, true)).trans (settle_plans _)

/-! ### The block once the record stands -/

/-- The counters once the record of `c` counts (R479, R481). -/
def State.recordPerf (s : State) (c : Cmd) : Perf :=
  if c.reason = .ok then (s.perfAdd c.perfClass 1).perf else ((s.perfAdd c.perfClass 1).perfAdd 9 1).perf

/-- The tags of ended sharded commands with that of `c` (R257). -/
def State.goneWith (s : State) (c : Cmd) : List U64 :=
  if c.sharded && !s.shard.gone.contains (pkStepTag c.run) then pkStepTag c.run :: s.shard.gone else s.shard.gone

/-- What the signal of `c` does to a packet that waits (R319, R322). -/
def State.signalled (s : State) (c : Cmd) : Cmd → Cmd :=
  if c.signals then gateRelease (pkSigGate c.pkt) (s.gate (pkSigGate c.pkt) + pkSigAdd c.pkt) else id

/-- The block once the completion record of `c` has been written, before what waited goes on (R119, R257, R318, R319). -/
def State.recordOf (s : State) (c : Cmd) : State := { s with
  rings := tblModify ringReset s.rings c.ring fun g => { g with cplTail := g.cplTail + 1, cplBusy := false }
  barn := if c.granted then { s.barn with poolFree := s.barn.poolFree + c.granules } else s.barn
  cmds := (s.cmds.filter fun d => d.order != c.order).map (s.signalled c)
  shard := { s.shard with gone := s.goneWith c }
  gates := if c.signals then tblSet 0 s.gates (pkSigGate c.pkt) (s.gate (pkSigGate c.pkt) + pkSigAdd c.pkt) else s.gates
  cplPend := if pkIrq c.pkt then s.cplPend ||| BitVec.ofNat 64 (2 ^ c.ring) else s.cplPend
  energy := (s.countTrained c).energy
  perf := s.recordPerf c }

theorem perfAdd_perf {s t : State} (hb : t.boot = s.boot) (hp : t.perf = s.perf) (n k : Nat) : (t.perfAdd n k).perf = (s.perfAdd n k).perf := by
  unfold State.perfAdd
  rw [hb, hp]
  split
  · rfl
  · exact hp

theorem recordPerf_of {s t : State} (hb : t.boot = s.boot) (hp : t.perf = s.perf) (c : Cmd) :
    (if c.reason = .ok then t.perfAdd c.perfClass 1 else (t.perfAdd c.perfClass 1).perfAdd 9 1) = { t with perf := s.recordPerf c } := by
  have h1 := perfAdd_perf hb hp c.perfClass 1
  have h2 : (t.perfAdd c.perfClass 1).boot = (s.perfAdd c.perfClass 1).boot := by
    rw [perfAdd_eq t, perfAdd_eq s]; exact hb
  unfold State.recordPerf
  split
  · rw [perfAdd_eq, h1]
  · rw [perfAdd_eq (t.perfAdd c.perfClass 1), perfAdd_perf h2 h1, perfAdd_eq t]

theorem freePool_eq (s : State) (c : Cmd) :
    s.freePool c = { s with barn := if c.granted then { s.barn with poolFree := s.barn.poolFree + c.granules } else s.barn } := by
  unfold State.freePool
  split <;> rfl

theorem signal_eq (s : State) (c : Cmd) : (if c.signals then s.gateAdd (pkSigGate c.pkt) (pkSigAdd c.pkt) else s) = { s with
    gates := if c.signals then tblSet 0 s.gates (pkSigGate c.pkt) (s.gate (pkSigGate c.pkt) + pkSigAdd c.pkt) else s.gates
    cmds := s.cmds.map (s.signalled c) } := by
  unfold State.signalled
  split
  · rfl
  · rw [List.map_id]

theorem markIrq_eq (s : State) (c : Cmd) :
    s.markIrq c = { s with cplPend := if pkIrq c.pkt then s.cplPend ||| BitVec.ofNat 64 (2 ^ c.ring) else s.cplPend } := by
  unfold State.markIrq
  split <;> rfl

theorem countTrained_eq {s t : State} (h : t.energy = s.energy) (c : Cmd) : t.countTrained c = { t with energy := (s.countTrained c).energy } := by
  unfold State.countTrained
  rw [h]
  split
  · rfl
  · rw [← h]

/-- The row's effect on a block on its own. -/
theorem completionDo_eq {s : State} (h : s.solo) (c : Cmd) : completionDo c s =
    if c.cls = 1 ∨ c.cls = 2 then (s.recordOf c).settle.dropGrant.reconsider false else (s.recordOf c).settle.dropGrant := by
  have hp : (s.modRing c.ring fun g => { g with cplTail := g.cplTail + 1, cplBusy := false }).primary = false :=
    Bool.eq_false_iff.2 fun hp => not_solo_of_primary hp h
  unfold completionDo
  simp only [hp, Bool.false_eq_true, if_false, freePool_eq, signal_eq, markIrq_eq]
  rw [countTrained_eq (s := s) (by rfl), recordPerf_of (s := s) (by rfl) (by rfl)]
  rfl

theorem completionWrittenOn_parts {s : State} {r : Nat} {c : Cmd} (h : completionWrittenOn s r = some c) : c ∈ s.cmds ∧ c.ring = r := by
  have hrec : s.recorded r = some c := by
    unfold completionWrittenOn at h
    dsimp only at h
    split at h
    · split at h
      · rename_i d hd
        split at h
        · cases h
        · rw [hd, h]
      · cases h
    · cases h
  unfold State.recorded at hrec
  split at hrec
  · rename_i d hd
    split at hrec
    · cases hrec
      exact ⟨List.mem_of_find?_eq_some hd, by simpa using List.find?_some hd⟩
    · cases hrec
  · cases hrec

/-- From the block at the record to the one after the step. -/
theorem completionDo_plans {s : State} (h : s.solo) (c : Cmd) : Plans (s.recordOf c) (completionDo c s) := by
  have hw := (settle_plans (s.recordOf c)).trans (dropGrant_plans _)
  rw [completionDo_eq h]
  split
  · exact hw.trans (reconsider_plans false _)
  · exact hw

/-! ### What stands still -/

section
variable {s t : State} (h : Plans s t)
include h

theorem Plans.unplanned_still : t.unplanned.still = s.unplanned.still := h.adv.same.1

theorem Plans.kept (u : State) (hp : s.pending = u.pending) (hb : s.build = u.build) (hm : s.mem = u.mem) : u.keep t = t :=
  keep_id ((still_pending h.unplanned_still :).trans hp) ((still_build h.unplanned_still :).trans hb) ((still_mem h.unplanned_still :).trans hm)

theorem Plans.gate (j : Nat) : t.gate j = s.gate j := congrArg (tblGet 0 · j) (still_gates h.unplanned_still :)

/-- A packet stays the same packet. -/
theorem Plans.pkt (ho : s.ordersOk) {d : Cmd} (hd : d ∈ s.cmds) : ∃ x ∈ t.cmds, x.order = d.order ∧ x.pkt = d.pkt := by
  have hs : s.unplanned.holds d.order fun x => x.pkt = d.pkt :=
    ⟨⟨d, hd, rfl⟩, fun e he heo => by rw [ordersOk_inj ho hd he heo]⟩
  obtain ⟨⟨x, hx, hxo⟩, hall⟩ := h.adv.cmds _ _ (fun _ _ l hp => l.pkt.trans hp) hs
  exact ⟨x, hx, hxo, hall x hx hxo⟩

end

/-! ### The parts of the block at the record -/

section
variable (s : State) (c : Cmd)

theorem signalled_same (d : Cmd) : (s.signalled c d).order = d.order ∧ (s.signalled c d).pkt = d.pkt := by
  have hrel (g : Nat) (v : U32) : (gateRelease g v d).order = d.order ∧ (gateRelease g v d).pkt = d.pkt := by
    unfold gateRelease
    split <;> exact ⟨rfl, rfl⟩
  unfold State.signalled
  split
  · exact hrel _ _
  · exact ⟨rfl, rfl⟩

theorem recordOf_orders : (s.recordOf c).orders = (s.cmds.filter fun d => d.order != c.order).map Cmd.order := by
  simp only [State.orders, State.recordOf, List.map_map]
  exact List.map_congr_left fun d _ => (signalled_same s c d).1

theorem recordOf_ring_same : (s.recordOf c).ringStill c.ring = { s.ringStill c.ring with cplTail := (s.ring c.ring).cplTail + 1 } := by
  simp only [State.ringStill, State.ring, State.recordOf, tblGet_modify_same]

theorem recordOf_ring_ne {r : Nat} (h : r ≠ c.ring) : (s.recordOf c).ringStill r = s.ringStill r := by
  simp only [State.ringStill, State.ring, State.recordOf, tblGet_modify_ne _ _ _ h]

theorem recordOf_gate_same : (s.recordOf c).gate (pkSigGate c.pkt) =
    if c.signals then s.gate (pkSigGate c.pkt) + pkSigAdd c.pkt else s.gate (pkSigGate c.pkt) := by
  simp only [State.gate, State.recordOf]
  split
  · exact tblGet_set_same 0 _ _ _
  · rfl

theorem recordOf_gate_ne {j : Nat} (h : j ≠ pkSigGate c.pkt) : (s.recordOf c).gate j = s.gate j := by
  simp only [State.gate, State.recordOf]
  split
  · exact tblGet_set_ne 0 _ _ h
  · rfl

theorem recordOf_allow : (s.recordOf c).energy.allow = s.energy.allow := by
  simp only [State.recordOf, State.countTrained]
  split <;> rfl

/-- The tag of an ended sharded command is kept (R257; log 78). -/
theorem recordOf_gone (h : c.sharded = true) : pkStepTag c.run ∈ (s.recordOf c).shard.gone := by
  simp only [State.recordOf, State.goneWith, h, Bool.true_and]
  split
  · exact List.mem_cons_self
  · rename_i hn
    simpa using hn

theorem recordOf_ordersOk (h : s.ordersOk) : (s.recordOf c).ordersOk := by
  have hsub : ((s.cmds.filter fun d => d.order != c.order).map Cmd.order).Sublist (s.cmds.map Cmd.order) := List.filter_sublist.map _
  refine ⟨?_, fun d hd => ?_⟩
  · rw [show (s.recordOf c).cmds.map Cmd.order = _ from recordOf_orders s c]
    exact h.1.sublist hsub
  obtain ⟨e, he, rfl⟩ := List.mem_map.1 hd
  rw [(signalled_same s c e).1]
  exact h.2 e (List.mem_filter.1 he).1

/-- R319 excepts the same records as the statement lists. -/
theorem signals_eq : c.signals = (pkSigEn c.pkt && !(pkSigOkOnly c.pkt && c.reason != .ok) &&
    !([Reason.badLength, .badOpcode, .reservedNonzero, .gateTimeout, .badGateOp].contains c.reason) && !(c.raw == opGateSignal && c.disp.isSome)) := by
  simp only [Cmd.signals, List.contains_cons, List.contains_nil, Bool.or_false, Bool.or_assoc]

theorem perfClass_eq : c.perfClass = if c.raw = opCtxRestore ∧ c.work.begun = false then 8 else 5 + c.cls := by
  simp only [Cmd.perfClass, Bool.not_eq_true']

end

/-- Settles O52: the block at the record, and what goes on from it. -/
theorem completionWritten : Obligations.CompletionWritten := by
  intro ring now s c u g signals hon hord hsolo
  obtain ⟨hmem, hring⟩ := completionWrittenOn_parts hon
  have hsig : signals = c.signals := (signals_eq c).symm
  have hplans := completionDo_plans hsolo c
  have hkeep := hplans.kept s (tick_pending s now) (tick_build s now) (tick_mem s now)
  have hexec : exec (.completionWritten ring now) s = .next (completionDo c u) := by
    rw [← hkeep]
    show Host.Outcome.next (s.keep (match completionWrittenOn u ring.val with
      | some c => completionDo c u
      | none => u)) = _
    rw [hon, hkeep]
  have hstill := hplans.unplanned_still
  rw [← hring]
  refine ⟨_, hexec, (hplans.adv.same.2.1 _).trans (recordOf_ring_same u c), fun r hr => (hplans.adv.same.2.1 r).trans (recordOf_ring_ne u c hr),
    fun d hd hdo => ?_, fun d hd hdo => ?_, ?_, fun j hj => (hplans.gate j).trans (recordOf_gate_ne u c hj), (still_cplPend hstill :),
    (still_fields hstill :), (still_strips hstill :), hplans.adv.same.2.2, (still_tensors hstill :), (still_ports hstill :),
    (still_flt_inReset hstill :), (still_energy_allow hstill :).trans (recordOf_allow u c), (still_mem hstill :),
    u.recordOf c, completionDo_eq hsolo c, rfl, recordOf_orders u c, ?_, recordOf_gone u c⟩
  · have hin : d.order ∈ (u.recordOf c).orders := hplans.orders ▸ List.mem_map_of_mem hd
    rw [recordOf_orders] at hin
    obtain ⟨e, he, heo⟩ := List.mem_map.1 hin
    exact absurd (heo.trans hdo) (by simpa using (List.mem_filter.1 he).2)
  · have hin : u.signalled c d ∈ (u.recordOf c).cmds := List.mem_map_of_mem (List.mem_filter.2 ⟨hd, by simpa using hdo⟩)
    obtain ⟨x, hx, hxo, hxp⟩ := hplans.pkt (recordOf_ordersOk u c hord) hin
    exact ⟨x, hx, hxo.trans (signalled_same u c d).1, hxp.trans (signalled_same u c d).2⟩
  · rw [hsig]
    exact (hplans.gate _).trans (recordOf_gate_same u c)
  · show u.recordPerf c = _
    rw [State.recordPerf, perfClass_eq]

end Sys2Proof.Machine
end

section
/-! PROOF. What a scrub read does, and the migration of a bank (R111 to R116, R426, R429). -/

namespace Sys2Proof.Machine

/-! ### Reports that a fault leaves -/

theorem corrected_eq (s : State) (n : Nat) : s.corrected n = { s with flt := { s.flt with
    corrected := (s.flt.corrected + n) % 2 ^ 16, pend := if 2 ^ 16 ≤ s.flt.corrected + n then s.flt.pend ||| 1 else s.flt.pend } } := by
  unfold State.corrected
  dsimp only
  split <;> rfl

theorem raise_keeps {p x : BitVec 10} {i : Nat} (h : p.getLsbD i = true) : (p ||| x).getLsbD i = true := by
  rw [BitVec.getLsbD_or, h, Bool.true_or]

/-- REPLACE_REQUEST may be set; what is pending stays pending. -/
theorem checkReplace_reports (s : State) : ∃ r p, s.checkReplace = { s with flt := { s.flt with replace := r, pend := p } } ∧
    ∀ i, s.flt.pend.getLsbD i = true → p.getLsbD i = true := by
  unfold State.checkReplace
  split
  · exact ⟨_, _, rfl, fun _ => raise_keeps⟩
  · exact ⟨_, _, rfl, fun _ h => h⟩

/-- With no request due, or made before, nothing is reported. -/
theorem checkReplace_quiet {s : State} (h : s.replaceDue = false ∨ s.flt.replace = true) : s.checkReplace = s := by
  rcases h with h | h <;> simp [State.checkReplace, h]

/-! ### The migration of a bank -/

theorem served_moved {g : Granary} {b : Nat} (h : b ∈ g.moved) : g.served b = true := by
  simp [Granary.served, h]

theorem migrate_served {s : State} {b : Nat} (h : s.granary.served b = true) : s.migrate b = s := if_pos h

/-- The spare of the group is free: the bank takes it, and its copy begins (R114). -/
theorem migrate_free {s : State} {b : Nat} (h : s.granary.served b = false) (h31 : (tblGet 0 s.granary.spare (b / 64)).getLsbD 31 = false)
    (h28 : (tblGet 0 s.granary.spare (b / 64)).getLsbD 28 = false) :
    s.migrate b = { s with granary := { s.granary with
      moved := s.granary.moved ++ [b], moving := s.granary.moving ++ [b]
      spare := tblModify 0 (tblModify 0 s.granary.spare (b / 64) (setBit · 28)) (b / 64) fun w => (w &&& ~~~ 0x3F#32) ||| BitVec.ofNat 32 (b % 64) } } := by
  unfold State.migrate
  rw [if_neg (by simp [h])]
  dsimp only
  rw [h31, h28]
  rfl

theorem takeShadow_frame (s : State) (g : Nat) : ∃ sp sh oos pf fl, s.takeShadow g = { s with
    granary := { s.granary with spare := sp, shadows := sh, oos := oos }, barn := { s.barn with poolFree := pf }, fields := fl } := by
  unfold State.takeShadow
  split
  · exact ⟨_, _, _, _, _, rfl⟩
  · unfold State.giveShadow
    dsimp only
    split
    · exact ⟨_, _, _, _, _, rfl⟩
    · exact ⟨_, _, _, _, _, rfl⟩

/-- After a migration was asked for, the bank is served; nothing beyond the Granary's maps, a shadow's granules, the fields of a
Granary that goes out of service and the reports moves (R114, R115). -/
theorem migrate_frame (s : State) (b : Nat) : ∃ sp mv mg sh oos pf fl r p, s.migrate b = { s with
      granary := { s.granary with spare := sp, moved := mv, moving := mg, shadows := sh, oos := oos }
      barn := { s.barn with poolFree := pf }, fields := fl, flt := { s.flt with replace := r, pend := p } } ∧
    (s.migrate b).granary.served b = true ∧ ∀ i, s.flt.pend.getLsbD i = true → p.getLsbD i = true := by
  by_cases hs : s.granary.served b = true
  · exact ⟨_, _, _, _, _, _, _, _, _, migrate_served hs, (congrArg (·.granary.served b) (migrate_served hs)).trans hs, fun _ h => h⟩
  · have hin : b ∈ s.granary.moved ++ [b] := by simp
    unfold State.migrate
    rw [if_neg hs]
    dsimp only
    split
    · exact ⟨_, _, _, _, _, _, _, _, _, rfl, served_moved hin, fun _ h => h⟩
    · obtain ⟨sp, sh, oos, pf, fl, e⟩ := takeShadow_frame { s with granary := { s.granary with moved := s.granary.moved ++ [b] } } (b / 64)
      rw [e]
      dsimp only
      split
      all_goals
        obtain ⟨r, p, e', hp⟩ := checkReplace_reports _
        rw [e']
        exact ⟨_, _, _, _, _, _, _, _, _, rfl, served_moved hin, hp⟩

/-! ### A scrub read -/

/-- The block after the read itself: its counters, its event, and the scrubber's place. -/
def State.scrubbedAt (s : State) (b : Nat) : State := { s with
  perf := { s.perf with counters := tblModify 0 s.perf.counters 21 (· + 1) }
  energy := { s.energy with bgEvents := evAdd s.energy.bgEvents 4 1 }
  granary := s.granary.scrubPast (bankCount s.build * bankWords s.build) b }

theorem scrubRead_eq {s : State} (h : s.boot.ready = true) (b : Nat) :
    (let u := (s.perfAdd 21 1).bgEvent 4 1
     { u with granary := u.granary.scrubPast (bankCount u.build * bankWords u.build) b }) = s.scrubbedAt b := by
  simp only [State.perfAdd, h]
  rfl

theorem exec_scrubStep_off {s : State} {b w : Nat} {f : ScrubRead} {sup : Bool} (h : scrubOn s b w f = false) :
    exec (.scrubStep b w f sup) s = .next s :=
  congrArg Host.Outcome.next (show s.keep (if scrubOn s b w f then scrubDo b w f sup s else s) = s by rw [h]; rfl)

theorem scrubPast_map (g : Granary) (words b : Nat) : ∃ n sc ps, g.scrubPast words b = { g with scrubbed := n, scanned := sc, passes := ps } := by
  unfold Granary.scrubPast
  split <;> exact ⟨_, _, _, rfl⟩

theorem exec_scrubStep_on {s : State} {b w : Nat} {f : ScrubRead} {sup : Bool} (h : scrubOn s b w f = true) (hr : s.boot.ready = true) :
    exec (.scrubStep b w f sup) s = .next (s.keep (match f with
      | .clean => s.scrubbedAt b
      | .corrected => (if sup then s.scrubbedAt b else (s.scrubbedAt b).bgEvent 5 1).granaryCe b
      | .uncorrectable => ((s.scrubbedAt b).damageOwner b w).granaryUe b w)) := by
  rw [← scrubRead_eq hr b]
  refine congrArg Host.Outcome.next (show s.keep (if scrubOn s b w f then scrubDo b w f sup s else s) = _ from ?_)
  rw [h]
  cases f <;> rfl

/-- The word that the report names after an uncorrectable read of word `w` of bank `b` (R112). -/
def Granary.worse (g : Granary) (b w : Nat) : Granary := if g.ueValid then g else { g with ueValid := true, ueBank := b, ueWord := w }

theorem worse_valid (g : Granary) (b w : Nat) : (g.worse b w).ueValid = true := by
  unfold Granary.worse; split
  · assumption
  · rfl

theorem worse_map (g : Granary) (b w : Nat) : ∃ v b' w', g.worse b w = { g with ueValid := v, ueBank := b', ueWord := w' } := by
  unfold Granary.worse; split <;> exact ⟨_, _, _, rfl⟩

theorem weightUe_eq (s : State) (b w : Nat) :
    s.weightUe b w = { s with granary := s.granary.worse b w, flt := { s.flt with pend := s.flt.pend ||| 2 } } := by
  unfold State.weightUe Granary.worse
  split <;> rfl

/-- The damage of an uncorrectable word to an entry of the table of fields (R113). -/
def damageAt (b w : Nat) (e : Nat × Field) : Nat × Field :=
  if e.2.base ≤ Config.unitOfWord b w ∧ Config.unitOfWord b w < e.2.base + e.2.units ∧ e.2.state ≠ 0 then (e.1, { e.2 with state := 4 }) else e

theorem damageOwner_eq (s : State) (b w : Nat) : s.damageOwner b w = { s with fields := s.fields.map (damageAt b w) } := by
  have key (e : Nat × Field) : (e.1, if e.2.base ≤ Config.unitOfWord b w ∧ Config.unitOfWord b w < e.2.base + e.2.units
      then damageField e.2 else e.2) = damageAt b w e := by
    unfold damageAt damageField
    by_cases h0 : e.2.state = 0
    · simp [h0]
    · simp only [h0, if_false, not_false_eq_true, and_true, ne_eq]
      split <;> rfl
  unfold State.damageOwner
  simp only [key]

theorem scrubPast_served (g : Granary) (words b k : Nat) : (g.scrubPast words b).served k = g.served k := by
  obtain ⟨n, sc, ps, e⟩ := scrubPast_map g words b
  rw [e]; rfl

theorem scrubPast_bankCe (g : Granary) (words b : Nat) : (g.scrubPast words b).bankCe = g.bankCe := by
  obtain ⟨n, sc, ps, e⟩ := scrubPast_map g words b
  rw [e]

/-- A corrected read of bank `b` as it is counted (R111). -/
def State.countedCe (s : State) (b : Nat) : State := { s with
  granary := { s.granary with ceCount := s.granary.ceCount + 1, bankCe := tblModify 0 s.granary.bankCe b (· + 1) }
  flt := { s.flt with
    corrected := (s.flt.corrected + 1) % 2 ^ 16, pend := if 2 ^ 16 ≤ s.flt.corrected + 1 then s.flt.pend ||| 1 else s.flt.pend } }

theorem granaryCe_eq (s : State) (b : Nat) : s.granaryCe b =
    if s.granary.ceLimit ≤ tblGet 0 s.granary.bankCe b + 1 then (s.countedCe b).migrate b else s.countedCe b := by
  unfold State.granaryCe
  rw [corrected_eq]
  show (if s.granary.ceLimit ≤ tblGet 0 (tblModify 0 s.granary.bankCe b (· + 1)) b then _ else _) = _
  rw [tblGet_modify_same]
  rfl

/-- The event of the write-back, unless another claimant's write superseded it. -/
def State.writtenBack (s : State) (sup : Bool) : State := if sup then s else s.bgEvent 5 1

theorem writtenBack_eq (s : State) (sup : Bool) : s.writtenBack sup = { s with energy :=
    if sup then s.energy else { s.energy with bgEvents := evAdd s.energy.bgEvents 5 1 } } := by
  cases sup <;> rfl

/-- The block after a corrected read of the scrubber has been counted. -/
def State.scrubCe (s : State) (b : Nat) (sup : Bool) : State := ((s.scrubbedAt b).writtenBack sup).countedCe b

theorem scrubCe_map (s : State) (b : Nat) (sup : Bool) :
    (∀ k, (s.scrubCe b sup).granary.served k = s.granary.served k) ∧ (s.scrubCe b sup).granary.spare = s.granary.spare := by
  obtain ⟨n, sc, ps, e⟩ := scrubPast_map s.granary (bankCount s.build * bankWords s.build) b
  simp only [State.scrubCe, writtenBack_eq, State.scrubbedAt, State.countedCe, e]
  exact ⟨fun _ => rfl, trivial⟩

theorem scrubCe_eq (s : State) (b : Nat) (sup : Bool) : s.scrubCe b sup =
    (let read : Energy := { s.energy with bgEvents := evAdd s.energy.bgEvents 4 1 }
     let g := s.granary.scrubPast (bankCount s.build * bankWords s.build) b
     { s with
      perf := { s.perf with counters := tblModify 0 s.perf.counters 21 (· + 1) }
      flt := { s.flt with
        corrected := (s.flt.corrected + 1) % 2 ^ 16, pend := if 2 ^ 16 ≤ s.flt.corrected + 1 then s.flt.pend ||| 1 else s.flt.pend }
      energy := if sup then read else { read with bgEvents := evAdd read.bgEvents 5 1 }
      granary := { g with ceCount := g.ceCount + 1, bankCe := tblModify 0 s.granary.bankCe b (· + 1) } }) := by
  obtain ⟨n, sc, ps, e⟩ := scrubPast_map s.granary (bankCount s.build * bankWords s.build) b
  simp only [State.scrubCe, writtenBack_eq, State.scrubbedAt, State.countedCe, e]

/-- A word of a spare that a bank has taken while its copy runs (R116). -/
theorem tblGet_taken (t : Tbl U32) (k b : Nat) :
    tblGet 0 (tblModify 0 (tblModify 0 t k (setBit · 28)) k fun w => (w &&& ~~~ 0x3F#32) ||| BitVec.ofNat 32 (b % 64)) k =
      ((tblGet 0 t k ||| 0x10000000) &&& ~~~ 0x3F#32) ||| BitVec.ofNat 32 (b % 64) := by
  rw [tblGet_modify_same, tblGet_modify_same]
  rfl

theorem tblGet_taken_ne (t : Tbl U32) {k j : Nat} (b : Nat) (h : j ≠ k) :
    tblGet 0 (tblModify 0 (tblModify 0 t k (setBit · 28)) k fun w => (w &&& ~~~ 0x3F#32) ||| BitVec.ofNat 32 (b % 64)) j = tblGet 0 t j :=
  (tblGet_modify_ne 0 _ _ h).trans (tblGet_modify_ne 0 _ _ h)

section
variable {s : State} {b w : Nat} {f : ScrubRead} {sup : Bool}

/-- The scrubber rests (R113, R419). -/
theorem scrub_off (h : s.granary.scrubEn = false ∨ s.energy.level.val = 3 ∨ w ≠ tblGet 0 s.granary.scanned b) :
    exec (.scrubStep b w f sup) s = .next s := by
  refine exec_scrubStep_off ?_
  rcases h with h | h | h <;> simp [scrubOn, h]

theorem scrub_on (hl : s.live) (he : s.granary.scrubEn = true) (hv : s.energy.level.val < 3) (hb : b < bankCount s.build)
    (hw : w < bankWords s.build) (hn : w = tblGet 0 s.granary.scanned b) (hp : f = .uncorrectable ∨ (b, w) ∉ s.granary.poison) :
    scrubOn s b w f = true := by
  obtain ⟨hr, hh⟩ := hl
  have hp' : (f == .uncorrectable || !s.granary.poison.contains (b, w)) = true := by
    rcases hp with rfl | hp
    · rfl
    · simp [hp]
  simp only [scrubOn, hr, hh, he, hv, hb, hw, hp', ← hn]
  simp

variable (hon : scrubOn s b w f = true) (hr : s.boot.ready = true)
include hon hr

theorem scrub_clean (hf : f = .clean) : exec (.scrubStep b w f sup) s = .next (s.scrubbedAt b) := by
  subst hf; exact exec_scrubStep_on hon hr

theorem scrub_corrected (hf : f = .corrected) : exec (.scrubStep b w f sup) s = .next (s.keep (((s.scrubbedAt b).writtenBack sup).granaryCe b)) := by
  subst hf; exact exec_scrubStep_on hon hr

theorem scrub_belowLimit (hf : f = .corrected) (hc : tblGet 0 s.granary.bankCe b + 1 < s.granary.ceLimit) :
    exec (.scrubStep b w f sup) s = .next (s.scrubCe b sup) := by
  obtain ⟨n, sc, ps, e⟩ := scrubPast_map s.granary (bankCount s.build * bankWords s.build) b
  rw [scrub_corrected hon hr hf, granaryCe_eq, if_neg]
  · exact congrArg Host.Outcome.next (keep_id (by rw [scrubCe_eq]) (by rw [scrubCe_eq]) (by rw [scrubCe_eq]) : s.keep (s.scrubCe b sup) = _)
  · simpa [writtenBack_eq, State.scrubbedAt, e] using hc

/-- At the limit a bank of a group whose spare is free takes it (R114). -/
theorem scrub_atLimit (hf : f = .corrected) (hc : s.granary.ceLimit ≤ tblGet 0 s.granary.bankCe b + 1) (hs : s.granary.served b = false)
    (h31 : (tblGet 0 s.granary.spare (b / 64)).getLsbD 31 = false) (h28 : (tblGet 0 s.granary.spare (b / 64)).getLsbD 28 = false) :
    exec (.scrubStep b w f sup) s = .next (let u := s.scrubCe b sup
      { u with granary := { u.granary with
        moved := u.granary.moved ++ [b], moving := u.granary.moving ++ [b]
        spare := tblModify 0 (tblModify 0 s.granary.spare (b / 64) (setBit · 28)) (b / 64) fun w => (w &&& ~~~ 0x3F#32) ||| BitVec.ofNat 32 (b % 64) } }) := by
  obtain ⟨n, sc, ps, e⟩ := scrubPast_map s.granary (bankCount s.build * bankWords s.build) b
  obtain ⟨hsv, hsp⟩ := scrubCe_map s b sup
  have hmig := migrate_free (s := s.scrubCe b sup) ((hsv b).trans hs) (by rw [hsp]; exact h31) (by rw [hsp]; exact h28)
  rw [scrub_corrected hon hr hf, granaryCe_eq, if_pos]
  · refine congrArg Host.Outcome.next ((congrArg s.keep hmig).trans ?_)
    rw [hsp]
    exact keep_id (by rw [scrubCe_eq]) (by rw [scrubCe_eq]) (by rw [scrubCe_eq])
  · simpa [writtenBack_eq, State.scrubbedAt, e] using hc

/-- The block after an uncorrectable read, before the bank migrates (R112, R113). -/
theorem scrub_uncorrectable (hf : f = .uncorrectable) : exec (.scrubStep b w f sup) s =
    .next (s.keep (State.migrate { s.scrubbedAt b with
      fields := s.fields.map (damageAt b w), granary := (s.scrubbedAt b).granary.worse b w
      flt := { s.flt with pend := s.flt.pend ||| 2 } } b)) := by
  subst hf
  rw [exec_scrubStep_on hon hr]
  show Host.Outcome.next (s.keep ((((s.scrubbedAt b).damageOwner b w).weightUe b w).migrate b)) = _
  rw [weightUe_eq, damageOwner_eq]
  rfl

theorem scrub_servedUe (hf : f = .uncorrectable) (hs : s.granary.served b = true) : exec (.scrubStep b w f sup) s =
    .next { s.scrubbedAt b with
      fields := s.fields.map (damageAt b w), granary := (s.scrubbedAt b).granary.worse b w
      flt := { s.flt with pend := s.flt.pend ||| 2 } } := by
  obtain ⟨v, b', w', e⟩ := worse_map (s.scrubbedAt b).granary b w
  rw [scrub_uncorrectable hon hr hf, migrate_served]
  · rfl
  · rw [e]; exact (scrubPast_served _ _ _ _).trans hs

theorem scrub_anyUe (hf : f = .uncorrectable) : ∃ t, exec (.scrubStep b w f sup) s = .next t ∧ t.flt.pend.getLsbD 1 = true ∧
    t.granary.served b = true ∧ t.granary.ueValid = true ∧ t.granary.ueBank = ((s.scrubbedAt b).granary.worse b w).ueBank ∧
    t.granary.ueWord = ((s.scrubbedAt b).granary.worse b w).ueWord ∧
    t = { s with
      perf := (s.scrubbedAt b).perf, granary := t.granary, energy := (s.scrubbedAt b).energy, fields := t.fields, flt := t.flt
      barn := { s.barn with poolFree := t.barn.poolFree } } := by
  obtain ⟨sp, mv, mg, sh, oos, pf, fl, r, p, e, hsv, hp⟩ := migrate_frame { s.scrubbedAt b with
      fields := s.fields.map (damageAt b w), granary := (s.scrubbedAt b).granary.worse b w
      flt := { s.flt with pend := s.flt.pend ||| 2 } } b
  have h2 : (s.flt.pend ||| 2).getLsbD 1 = true := by simp
  refine ⟨_, scrub_uncorrectable hon hr hf, ?_, hsv, ?_, ?_, ?_, ?_⟩
  · rw [e]; exact hp 1 h2
  · rw [e]; exact worse_valid _ _ _
  · rw [e]; rfl
  · rw [e]; rfl
  · rw [e]; rfl

end

/-! ### The end of a migration copy -/

/-- The block after the copy of bank `b` has ended, before its switch (R111, R114). -/
def State.copyEnded (s : State) (b n : Nat) (bad : List Nat) : State := { s with
  granary := { s.granary with
    ceCount := s.granary.ceCount + BitVec.ofNat 32 n, moving := s.granary.moving.erase b, due := s.granary.due ++ [b]
    poison := s.granary.poison ++ (bad.filter fun w => decide (w < bankWords s.build) && !s.granary.poison.contains (b, w)).map fun w => (b, w) }
  flt := { s.flt with
    corrected := (s.flt.corrected + n) % 2 ^ 16, pend := if 2 ^ 16 ≤ s.flt.corrected + n then s.flt.pend ||| 1 else s.flt.pend }
  energy := { s.energy with bgEvents := evAdd (evAdd s.energy.bgEvents 4 (bankWords s.build)) 5 (bankWords s.build) } }

theorem exec_migrationCopyDone {s : State} {g : Fin 64} {n : Nat} {bad : List Nat} {b : Nat} (hl : s.live) (hv : s.energy.level.val < 3)
    (hb : s.granary.moving.find? (fun b => b / 64 == g.val) = some b) :
    exec (.migrationCopyDone g n bad) s = .next (s.keep (s.copyEnded b n bad).refreshWidth) := by
  obtain ⟨hr, hh⟩ := hl
  refine congrArg Host.Outcome.next (congrArg s.keep ?_)
  rw [hr, hh, decide_eq_true hv]
  show migrationCopyDo g.val n bad s = _
  unfold migrationCopyDo
  rw [hb]
  dsimp only
  rw [corrected_eq]
  rfl

section
variable {s : State} {g : Fin 64} {n : Nat} {bad : List Nat} {b : Nat} (hl : s.live) (hv : s.energy.level.val < 3)
  (hb : s.granary.moving.find? (fun b => b / 64 == g.val) = some b) (h3 : s.rowHalfNow ≠ 3) (hq : s.replaceDue = false ∨ s.flt.replace = true)
include hl hv hb h3 hq

/-- A command on the Acre: the switch waits for the boundary (R114). -/
theorem copyDone_busy (hr : s.acre.run.isSome = true) : exec (.migrationCopyDone g n bad) s = .next (s.copyEnded b n bad) := by
  have hz : (s.copyEnded b n bad).rowHalfNow = 3 → (s.copyEnded b n bad).fnReset 0 = true := fun h => absurd h h3
  rw [exec_migrationCopyDone hl hv hb, refreshWidth_eq hz]
  refine (congrArg (fun t => Host.Outcome.next (s.keep t)) (if_pos hr)).trans ?_
  exact congrArg (fun t => Host.Outcome.next (s.keep t)) (show (s.copyEnded b n bad).checkReplace = s.copyEnded b n bad from checkReplace_quiet hq)

end

/-- A spare's word after the switch of bank `b`, the last copy of its group (R114). -/
def switchedWord (x : U32) (b : Nat) : U32 :=
  (if x.getLsbD 31 = false ∧ x.toNat % 64 = b % 64 then x ||| 0x80000000 else x) &&& ~~~ 0x10000000#32

theorem switchBank_last {g : Granary} {b : Nat} (h : ∀ m ∈ g.moving, m / 64 ≠ b / 64) :
    switchBank g b = { g with spare := tblSet 0 g.spare (b / 64) (switchedWord (tblGet 0 g.spare (b / 64)) b) } := by
  have hno : (g.moving.any fun m => m / 64 == b / 64) = false := List.any_eq_false.2 fun m hm => by simpa using h m hm
  unfold switchBank switchedWord
  dsimp only
  rw [hno]
  simp only [Bool.and_eq_true, Bool.not_eq_true', beq_iff_eq]
  rfl

/-- No command on the Acre: the bank switches at once (R114). -/
theorem copyDone_idle {s : State} {g : Fin 64} {n : Nat} {bad : List Nat} {b : Nat} (hl : s.live) (hv : s.energy.level.val < 3)
    (hb : s.granary.moving.find? (fun b => b / 64 == g.val) = some b) (h3 : s.rowHalfNow ≠ 3)
    (hq : s.replaceDue = false ∨ s.flt.replace = true) (hr : s.acre.run = none) (hd : s.granary.due = [])
    (hm : ∀ m ∈ s.granary.moving.erase b, m / 64 ≠ g.val) :
    exec (.migrationCopyDone g n bad) s = .next (let c := s.copyEnded b n bad
      { c with
        acre := c.applyWidth.acre
        granary := { c.granary with due := [], spare := tblSet 0 s.granary.spare g.val (switchedWord (tblGet 0 s.granary.spare g.val) b) } }) := by
  have hg : b / 64 = g.val := by simpa using List.find?_some hb
  have hz : (s.copyEnded b n bad).rowHalfNow = 3 → (s.copyEnded b n bad).fnReset 0 = true := fun h => absurd h h3
  have hn : ¬ (s.copyEnded b n bad).acre.run.isSome = true := by
    show ¬ s.acre.run.isSome = true
    rw [hr]; exact Bool.false_ne_true
  have hdue : (s.copyEnded b n bad).granary.due = [b] := congrArg (· ++ [b]) hd
  have hsw : switchBank (s.copyEnded b n bad).granary b = _ := switchBank_last (hg ▸ hm)
  rw [exec_migrationCopyDone hl hv hb, refreshWidth_eq hz, if_neg hn,
    show (s.copyEnded b n bad).checkReplace = s.copyEnded b n bad from checkReplace_quiet hq]
  unfold State.switchBanks
  rw [show (s.copyEnded b n bad).applyWidth.granary = (s.copyEnded b n bad).granary from rfl, hdue, List.foldl_cons, List.foldl_nil, hsw, hg]
  rfl

end Sys2Proof.Machine
end

section
/-! PROOF. Faults that halt the block or switch the firmware bank (R426, R430, R431). -/

namespace Sys2Proof.Machine

/-- The record of the first uncorrectable error (R450). -/
def Flt.firstUe (f : Flt) (region word : Nat) : Flt :=
  if f.ueValid then f else { f with ueValid := true, ueRegion := region, ueWord := BitVec.ofNat 25 word }

theorem ueInfo_eq (s : State) (region word : Nat) : s.ueInfo region word = { s with flt := s.flt.firstUe region word } := by
  unfold State.ueInfo Flt.firstUe
  split <;> rfl

/-- The record of an error reports nothing by itself, and no other field moves with it. -/
theorem firstUe_frame (f : Flt) (region word : Nat) : ∃ v r w, f.firstUe region word = { f with ueValid := v, ueRegion := r, ueWord := w } := by
  unfold Flt.firstUe
  split <;> exact ⟨_, _, _, rfl⟩

/-! ### The halt of R430 -/

theorem flushPhase_none {s : State} (h : s.acre.run = none) : s.flushPhase = s := by
  unfold State.flushPhase; rw [h]

/-- An unpaired block that halts (R430). -/
theorem halt_frame {s : State} (hp : s.pair.state ≠ 2) : ∃ qs cs pf ss, s.halt = { s with
      flt := { s.flt with pend := s.flt.pend ||| 8 }, pins := { s.pins with barrierOut := false }, queue := qs, cmds := cs, perf := pf
      streams := { s.streams with queue := ss } } ∧
    (s.acre.run = none → cs = s.cmds ∧ pf = s.perf ∧ qs = s.queue.filter s.haltKeeps ∧ ss = s.streams.queue.filter s.haltSends) := by
  obtain ⟨e, -, -⟩ := flushPhase_frame (s.raise 3)
  have hn : s.acre.run = none → (s.raise 3).flushPhase = s.raise 3 := fun hr => flushPhase_none (s := s.raise 3) hr
  unfold State.halt
  generalize (s.raise 3).flushPhase = v at e hn
  have hv : v.pair.state ≠ 2 := by rw [e]; exact hp
  dsimp only
  rw [if_neg hv]
  refine ⟨v.queue.filter v.haltKeeps, v.cmds, v.perf, v.streams.queue.filter v.haltSends, ?_, fun hr => ?_⟩
  · generalize v.queue.filter v.haltKeeps = qs
    generalize v.streams.queue.filter v.haltSends = ss
    rw [e]; rfl
  · rw [hn hr]
    exact ⟨rfl, rfl, rfl, rfl⟩

/-- The packet's commit has begun: its writes still leave a halted block (R430). -/
def State.commits (u : State) (r : Nat) (q : U32) : Bool := match u.cmd r q with
  | some c => c.stage == .committing && c.commit
  | none => false

/-- The packet has ended, or is of none that the block holds. -/
def State.over (u : State) (r : Nat) (q : U32) : Bool := match u.cmd r q with
  | some c => c.stage == .finished
  | none => true

theorem haltKeeps_eq (u : State) : u.haltKeeps = fun g => g.kind != .cpl && u.commits g.ring g.seq := rfl

theorem haltSends_eq (u : State) : u.haltSends = fun g => u.commits g.ring g.seq || u.over g.ring g.seq := by
  funext g
  unfold State.haltSends State.commits State.over
  cases u.cmd g.ring g.seq with
  | none => rfl
  | some c => exact Bool.or_comm _ _

/-- The block that a fault of CTRL with record `f` has halted (R430). -/
def haltedBy (s u t : State) (f : Flt) : Prop :=
  t = { u with
    flt := f, pins := { s.pins with barrierOut := false }, queue := t.queue, cmds := t.cmds, perf := t.perf
    streams := { s.streams with queue := t.streams.queue } } ∧
  (s.acre.run = none → t.cmds = s.cmds ∧ t.perf = u.perf ∧
    t.queue = s.queue.filter (fun g => g.kind != .cpl && u.commits g.ring g.seq) ∧
    t.streams.queue = s.streams.queue.filter fun g => u.commits g.ring g.seq || u.over g.ring g.seq)

/-- The halt with record `f` of the error, whose fault is then marked by `mark`. -/
theorem haltedBy_halt {s : State} {now : Time} {f : Flt} (mark : Flt → Flt) (hp : s.pair.state ≠ 2) :
    haltedBy s (s.tick now)
      (let v := State.halt { s.tick now with flt := f }
       { v with flt := mark v.flt }) (mark { f with pend := f.pend ||| 8 }) := by
  obtain ⟨qs, cs, pf, ss, e, h⟩ := halt_frame (s := { s.tick now with flt := f }) (by rw [tick_eq]; exact hp)
  rw [e]
  refine ⟨by rw [tick_eq], fun hr => ?_⟩
  obtain ⟨h1, h2, h3, h4⟩ := h (by rw [tick_eq]; exact hr)
  refine ⟨h1.trans (by rw [tick_eq]), h2, h3.trans ?_, h4.trans ?_⟩
  · rw [haltKeeps_eq, tick_eq]; rfl
  · rw [haltSends_eq, tick_eq]; rfl

theorem keep_haltedBy {s t : State} {now : Time} {f : Flt} (h : haltedBy s (s.tick now) t f) : s.keep t = t := by
  rw [h.1]
  exact keep_id (tick_pending s now) (tick_build s now) (tick_mem s now)

theorem exec_ledgerLost {s : State} {word : Nat} {now : Time} (hr : (s.tick now).running = true) (hl : s.flt.ledgerLost = false)
    (hp : s.pair.state ≠ 2) : ∃ t, exec (.ledgerLost word now) s = .next t ∧
      haltedBy s (s.tick now) t { s.flt.firstUe 10 word with ledgerLost := true, pend := s.flt.pend ||| 8 } := by
  have h := haltedBy_halt (now := now) (f := s.flt.firstUe 10 word) (fun f => { f with ledgerLost := true }) hp
  have hdo : (if (s.tick now).running && !(s.tick now).flt.ledgerLost then ledgerLostDo word (s.tick now) else s.tick now) =
      (let v := State.halt { s.tick now with flt := s.flt.firstUe 10 word }
       { v with flt := { v.flt with ledgerLost := true } }) := by
    rw [hr, tick_flt, hl]
    show ledgerLostDo word (s.tick now) = _
    rw [ledgerLostDo, ueInfo_eq, tick_flt]
  obtain ⟨v, r, w, e⟩ := firstUe_frame s.flt 10 word
  refine ⟨_, congrArg (fun t => Host.Outcome.next (s.keep t)) hdo, ?_⟩
  rw [keep_haltedBy h]
  rw [e] at h ⊢
  exact h

theorem exec_fwBankUe_lost {s : State} {word : Nat} {now : Time} (hl : (s.tick now).live) (hv : s.flt.standbyValid = false)
    (hp : s.pair.state ≠ 2) : ∃ t, exec (.fwBankUe word now) s = .next t ∧
      haltedBy s (s.tick now) t { s.flt.firstUe 11 word with fwLost := true, pend := s.flt.pend ||| 8 } := by
  have h := haltedBy_halt (now := now) (f := s.flt.firstUe 11 word) (fun f => { f with fwLost := true }) hp
  obtain ⟨v, r, w, e⟩ := firstUe_frame s.flt 11 word
  obtain ⟨hr, hh⟩ := hl
  have hdo : (if (s.tick now).running && !(s.tick now).halted then fwBankDo word (s.tick now) else s.tick now) =
      (let v := State.halt { s.tick now with flt := s.flt.firstUe 11 word }
       { v with flt := { v.flt with fwLost := true } }) := by
    rw [hr, hh]
    show fwBankDo word (s.tick now) = _
    unfold fwBankDo
    rw [ueInfo_eq, tick_flt]
    exact if_neg (by simp [e, hv])
  refine ⟨_, congrArg (fun t => Host.Outcome.next (s.keep t)) hdo, ?_⟩
  rw [keep_haltedBy h]
  rw [e] at h ⊢
  exact h

/-! ### The firmware bank switches (R431) -/

/-- A reset keeps every register of the faults but what is pending. -/
theorem Kept.flt {s t : State} (h : Kept s t) : t.flt = { s.flt with pend := t.flt.pend } :=
  congrArg (fun x : State => { x.flt with pend := t.flt.pend }) h.lasting

theorem Kept.fw {s t : State} (h : Kept s t) : t.fw = s.fw := (congrArg State.fw h.lasting : _)

theorem or_bit_held {n m : Nat} {p : BitVec n} (h : p.getLsbD m = true) : p ||| BitVec.ofNat n (2 ^ m) = p := by
  refine BitVec.eq_of_getLsbD_eq fun i hi => ?_
  rw [BitVec.getLsbD_or, getLsbD_bit _ _ _ hi]
  by_cases hm : m = i
  · subst hm; rw [h, Bool.true_or]
  · rw [decide_eq_false hm, Bool.or_false]

/-- What the start of a reset of the command processor moves among the registers of the faults (R432, R434). -/
theorem fnStart_cp (s : State) : (s.fnStart 4).fw = s.fw ∧ ∃ p d, (s.fnStart 4).flt = { s.flt with
    pend := p, cpDue := d, inReset := if s.cmds.any Cmd.inCommit then s.flt.inReset else s.flt.inReset ||| 0x10 } := by
  by_cases hc : s.cmds.any Cmd.inCommit = true
  · rw [fnStart_waits (show s.resetWaits 4 = true from hc), if_pos hc]
    exact ⟨rfl, _, _, rfl⟩
  · rw [if_neg hc, fnStart_now (show s.resetWaits 4 = false by simpa [State.resetWaits] using hc)]
    by_cases hr : s.fnReset 4 = true
    · unfold State.fnNow
      rw [if_pos hr, show s.flt.inReset ||| 0x10 = s.flt.inReset from or_bit_held hr]
      exact ⟨rfl, _, _, rfl⟩
    · have hk := fnNow_kept s 4 (by simpa using hr)
      exact ⟨hk.fw, _, _, hk.flt⟩

/-- The block with the standby bank in use, the command processor in reset and source 2 pending (R431). -/
def State.otherBank (u : State) : State := { (u.fnStart 4).raise 2 with flt := { ((u.fnStart 4).raise 2).flt with
  activeBank := !(u.fnStart 4).flt.activeBank, standbyValid := false, switches := (u.fnStart 4).flt.switches + 1 } }

theorem otherBank_flt (u : State) : ∃ p d, p.getLsbD 2 = true ∧ u.otherBank.flt = { u.flt with
    pend := p, cpDue := d, inReset := if u.cmds.any Cmd.inCommit then u.flt.inReset else u.flt.inReset ||| 0x10
    activeBank := !u.flt.activeBank, standbyValid := false, switches := u.flt.switches + 1 } := by
  obtain ⟨-, p, d, hf⟩ := fnStart_cp u
  refine ⟨p ||| 4, d, by simp, ?_⟩
  show { ((u.fnStart 4).raise 2).flt with
    activeBank := !(u.fnStart 4).flt.activeBank, standbyValid := false, switches := (u.fnStart 4).flt.switches + 1 } = _
  simp only [State.raise, hf]
  rfl

theorem otherBank_kept (u : State) : keptByReset u u.otherBank :=
  (fnStart_keptByReset u 4).trans (.of_frame rfl (fun _ _ => rfl) rfl)

theorem exec_fwBankUe_switch {s : State} {word : Nat} {now : Time} (hl : (s.tick now).live) (hv : s.flt.standbyValid = true) :
    ∃ t, exec (.fwBankUe word now) s = .next t ∧ t.flt.activeBank = !s.flt.activeBank ∧
      t.flt.standbyValid = false ∧ t.flt.switches = s.flt.switches + 1 ∧ t.flt.fwLost = s.flt.fwLost ∧ t.flt.pend.getLsbD 2 = true ∧
      t.flt.inReset = (if (s.tick now).cmds.any Cmd.inCommit then s.flt.inReset else s.flt.inReset ||| 0x10) ∧
      t.flt.ueRegion = (s.flt.firstUe 11 word).ueRegion ∧ t.fw = s.fw ∧ keptByReset (s.tick now) t := by
  obtain ⟨hr, hh⟩ := hl
  obtain ⟨v, r, w, e⟩ := firstUe_frame s.flt 11 word
  have hu : (s.tick now).ueInfo 11 word = { s.tick now with flt := s.flt.firstUe 11 word } := by rw [ueInfo_eq, tick_flt]
  generalize hx : (s.tick now).ueInfo 11 word = x at hu
  have hxf : x.flt = s.flt.firstUe 11 word := by rw [hu]
  have hxc : x.cmds = (s.tick now).cmds := by rw [hu]
  have hxw : x.fw = s.fw := by rw [hu, tick_eq]
  have hdo : (if (s.tick now).running && !(s.tick now).halted then fwBankDo word (s.tick now) else s.tick now) = x.otherBank := by
    rw [hr, hh]
    show fwBankDo word (s.tick now) = _
    unfold fwBankDo
    rw [hx]
    exact if_pos (by simp [hxf, e, hv])
  obtain ⟨p, d, hp, hf⟩ := otherBank_flt x
  have hk : keptByReset (s.tick now) x.otherBank :=
    (show keptByReset (s.tick now) x from hu ▸ .of_frame rfl (fun _ _ => rfl) rfl).trans (otherBank_kept x)
  rw [hxf, hxc, e] at hf
  refine ⟨_, congrArg (fun t => Host.Outcome.next (s.keep t)) hdo, (congrArg Flt.activeBank hf :), (congrArg Flt.standbyValid hf :),
    (congrArg Flt.switches hf :), (congrArg Flt.fwLost hf :), ?_, (congrArg Flt.inReset hf :), ?_, (fnStart_cp x).1.trans hxw, hk.trans (keep_kbr s _)⟩
  · exact (congrArg (fun f : Flt => f.pend.getLsbD 2) hf).trans hp
  · rw [e]; exact (congrArg Flt.ueRegion hf :)

end Sys2Proof.Machine
end

section
/-! PROOF. What the loss of a strip, a time fault and the sag input do (R399, R400, R418, R419, R428). -/

namespace Sys2Proof.Machine

/-! ### A strip that is lost -/

/-- A step over the packets, each taken as it stands when its turn comes, changes each of them once. -/
theorem foldl_each (g : Cmd → Cmd) (hg : ∀ c, (g c).order = c.order) (f : State → Cmd → State)
    (hf : ∀ s d, (f s d).cmds = (s.setCmd (g d)).cmds) (l : List Cmd) (s : State) (hs : (s.cmds.map Cmd.order).Nodup) (hl : (l.map Cmd.order).Nodup) :
    (l.foldl (fun (s : State) (c : Cmd) => match s.cmds.find? (fun d => d.order == c.order) with
      | none => s
      | some d => f s d) s).cmds = s.cmds.map fun d : Cmd => if d.order ∈ l.map Cmd.order then g d else d := by
  induction l generalizing s with
  | nil => simp
  | cons c l ih =>
    have hstep : (match s.cmds.find? (fun d : Cmd => d.order == c.order) with
        | none => s
        | some d => f s d).cmds = s.cmds.map fun d : Cmd => if d.order = c.order then g d else d := by
      cases hfind : s.cmds.find? (fun d => d.order == c.order) with
      | none =>
        refine (List.map_id' s.cmds).symm.trans (List.map_congr_left fun d hd => ?_)
        rw [if_neg (by simpa using List.find?_eq_none.1 hfind d hd)]
      | some e =>
        have he : e.order = c.order := by simpa using List.find?_some hfind
        refine (hf s e).trans (List.map_congr_left fun d hd => ?_)
        rw [hg, he]
        by_cases ho : d.order = c.order
        · rw [if_pos ho, if_pos ho, List.inj_on_of_nodup_map hs hd (List.mem_of_find?_eq_some hfind) (ho.trans he.symm)]
        · rw [if_neg ho, if_neg ho]
    have horders : (s.cmds.map fun d : Cmd => if d.order = c.order then g d else d).map Cmd.order = s.cmds.map Cmd.order := by
      rw [List.map_map]
      refine List.map_congr_left fun d _ => ?_
      show (if d.order = c.order then g d else d).order = d.order
      split
      · exact hg d
      · rfl
    obtain ⟨hc, hl'⟩ := List.nodup_cons.1 hl
    rw [List.foldl_cons, ih _ (by rw [hstep, horders]; exact hs) hl', hstep, List.map_map]
    refine List.map_congr_left fun d _ => ?_
    show (if (if d.order = c.order then g d else d).order ∈ l.map Cmd.order then g _ else _) = _
    by_cases ho : d.order = c.order
    · have hn : (g d).order ∉ l.map Cmd.order := by rw [hg, ho]; exact hc
      simp only [if_neg hn, List.map_cons, List.mem_cons, ho, true_or, if_true]
    · simp only [List.map_cons, List.mem_cons, ho, false_or, if_false]

/-- A command whose strip-steps of strip `n` are lost. -/
def Cmd.losing (n : Nat) (c : Cmd) : Cmd := { c with work := { c.work with steps := c.work.steps.map (loseStep n) } }

/-- The block without the reservations that the lost steps of `d` held. -/
def State.freeLost (s : State) (n : Nat) (d : Cmd) : State :=
  d.work.steps.foldl (fun s p => if loseStep n p = p then s else s.unreserve p) s

theorem freeLost_frame (s : State) (n : Nat) (d : Cmd) : ∃ ts, s.freeLost n d = { s with tenants := ts } := by
  unfold State.freeLost
  induction d.work.steps generalizing s with
  | nil => exact ⟨_, rfl⟩
  | cons p l ih =>
    have hp : ∃ ts, (if loseStep n p = p then s else s.unreserve p) = { s with tenants := ts } := by
      unfold State.unreserve
      split
      · exact ⟨_, rfl⟩
      · split <;> exact ⟨_, rfl⟩
    obtain ⟨ts, e⟩ := hp
    obtain ⟨ts', e'⟩ := ih { s with tenants := ts }
    exact ⟨ts', by rw [List.foldl_cons, e, e']⟩

theorem loseSteps_eq (s : State) (n : Nat) : s.loseSteps n =
    s.cmds.foldl (fun s c => match s.cmds.find? (fun d => d.order == c.order) with
      | none => s
      | some d => (s.freeLost n d).setCmd (d.losing n)) s := rfl

theorem loseSteps_cmds {s : State} (n : Nat) (h : (s.cmds.map Cmd.order).Nodup) : (s.loseSteps n).cmds = s.cmds.map (Cmd.losing n) := by
  rw [loseSteps_eq, foldl_each (Cmd.losing n) (fun _ => rfl) (fun s d => (s.freeLost n d).setCmd (d.losing n)) (fun s d => ?_) _ _ h h]
  · exact List.map_congr_left fun d hd => if_pos (List.mem_map_of_mem hd)
  · obtain ⟨ts, e⟩ := freeLost_frame s n d
    rw [e]; rfl

theorem loseSteps_frame (s : State) (n : Nat) : ∃ cs ts, s.loseSteps n = { s with cmds := cs, tenants := ts } := by
  rw [loseSteps_eq]
  generalize s.cmds = l
  induction l generalizing s with
  | nil => exact ⟨_, _, rfl⟩
  | cons c l ih =>
    have hstep : ∃ cs ts, (match s.cmds.find? (fun d => d.order == c.order) with
        | none => s
        | some d => (s.freeLost n d).setCmd (d.losing n)) = { s with cmds := cs, tenants := ts } := by
      split
      · exact ⟨_, _, rfl⟩
      · obtain ⟨ts, e⟩ := freeLost_frame s n _
        rw [e]; exact ⟨_, _, rfl⟩
    obtain ⟨cs, ts, e⟩ := hstep
    obtain ⟨cs', ts', e'⟩ := ih { s with cmds := cs, tenants := ts }
    exact ⟨cs', ts', by rw [List.foldl_cons, e, e']⟩

theorem loseStep_eq (n : Nat) : loseStep n = fun p => if p.strip = n ∧ p.reason = 0 ∧ p.committed = false ∧ p.asked = false then
    { p with reason := stepCode .abortedReset, sel := none, emitted := 0, reserved := 0 } else p := by
  funext p
  simp only [loseStep, Bool.not_eq_true']

/-- The report of a strip that is lost (R426, R428, R450). -/
def Flt.stripLost (f : Flt) (strip : BitVec 12) (ledger : Bool) (word : Nat) : Flt := { f.firstUe (if ledger then 1 else 0) word with
  pend := f.pend ||| 2, lostValid := true, lostCount := f.lostCount + 1, lostStrip := if f.lostValid then f.lostStrip else strip }

theorem stripLostDo_eq (s : State) (strip : BitVec 12) (ledger : Bool) (word : Nat) : stripLostDo strip.toNat ledger word s =
    (({ s with flt := s.flt.stripLost strip ledger word } : State).modStrip strip.toNat fun t => { t with valid := false }).loseSteps strip.toNat := by
  obtain ⟨v, r, w, e⟩ := firstUe_frame s.flt (if ledger then 1 else 0) word
  unfold stripLostDo Flt.stripLost
  rw [ueInfo_eq, e, BitVec.ofNat_toNat, BitVec.setWidth_eq]
  rfl

/-- A strip that is lost (R428). -/
theorem exec_stripLost {s : State} {strip : BitVec 12} {ledger : Bool} {word : Nat} {now : Time} (hl : (s.tick now).live)
    (ho : (s.tick now).ordersOk) (hn : strip.toNat < stripCount s.build) :
    ∃ t, exec (.stripLost strip ledger word now) s = .next t ∧ t.strip strip.toNat = { s.strip strip.toNat with valid := false } ∧
      (∀ k, k ≠ strip.toNat → t.strip k = s.strip k) ∧ t.cmds = (s.tick now).cmds.map (Cmd.losing strip.toNat) ∧
      t = { s.tick now with
        strips := t.strips, cmds := t.cmds, tenants := t.tenants
        flt := { s.flt.firstUe (if ledger then 1 else 0) word with
          pend := s.flt.pend ||| 2, lostValid := true, lostCount := s.flt.lostCount + 1
          lostStrip := if s.flt.lostValid then s.flt.lostStrip else strip } } := by
  obtain ⟨hr, hh⟩ := hl
  have hdo : (if (s.tick now).running && !(s.tick now).halted && decide (strip.toNat < stripCount (s.tick now).build)
      then stripLostDo strip.toNat ledger word (s.tick now) else s.tick now) = stripLostDo strip.toNat ledger word (s.tick now) := by
    rw [hr, hh, tick_build, decide_eq_true hn]
    rfl
  have hcs : (stripLostDo strip.toNat ledger word (s.tick now)).cmds = (s.tick now).cmds.map (Cmd.losing strip.toNat) := by
    rw [stripLostDo_eq]
    exact loseSteps_cmds _ ho.1
  obtain ⟨cs, ts, e⟩ := loseSteps_frame (({ s.tick now with flt := s.flt.stripLost strip ledger word } : State).modStrip strip.toNat
    fun t => { t with valid := false }) strip.toNat
  rw [stripLostDo_eq, tick_flt, e] at hcs
  have hst (k : Nat) : (s.tick now).strip k = s.strip k := by rw [tick_eq]; rfl
  refine ⟨_, congrArg (fun t => Host.Outcome.next (s.keep t)) (hdo.trans (stripLostDo_eq _ strip ledger word)), ?_⟩
  rw [tick_flt, e]
  refine ⟨?_, fun k hk => ?_, hcs, ?_⟩
  · exact (modStrip_strip_same (s.tick now) _ fun p => { p with valid := false }).trans (congrArg (fun p : Strip => { p with valid := false }) (hst _))
  · exact (modStrip_strip_ne (s.tick now) (fun p => { p with valid := false }) hk).trans (hst k)
  · exact keep_id (tick_pending s now) (tick_build s now) (tick_mem s now)

/-! ### A time fault, and the sag input -/

theorem exec_timeFault {s : State} {input : Time} (hr : s.running = true) (h : input < s.timeNs) :
    exec (.timeFault input) s = .next { s with flt := { s.flt with pend := s.flt.pend ||| 0x201 } } := by
  have hp : s.flt.pend ||| BitVec.ofNat 10 (2 ^ 9) ||| BitVec.ofNat 10 (2 ^ 0) = s.flt.pend ||| 0x201 := BitVec.or_assoc _ _ _
  show Host.Outcome.next (s.keep (if s.running && decide (input < s.timeNs) then (s.raise 9).raise 0 else s)) = _
  rw [hr, decide_eq_true h, ← hp]
  rfl

/-- What the level in force sets at once, before the width (R96, R419). -/
def State.leveled (s : State) : State := { s with acre := { s.acre with
  clkHalf := decide (2 ≤ s.energy.level.val)
  narrow := if s.acre.run.isNone ∨ s.pair.state ≠ 2 then decide (2 ≤ s.energy.level.val) else s.acre.narrow
  shed := if s.acre.run.isNone ∨ s.pair.state ≠ 2 then decide (2 ≤ s.energy.level.val) else s.acre.shed } }

/-- The modes that follow the level at a headland, and the width that waits for a boundary (R90 to R92, R419). -/
structure LevelApplied (s : State) (l : SagLevel) (a : Acre) : Prop where
  clk : a.clkHalf = decide (2 ≤ l.val)
  modes : s.acre.run = none ∨ s.pair.state ≠ 2 → a.narrow = decide (2 ≤ l.val) ∧ a.shed = decide (2 ≤ l.val)
  busy : s.acre.run.isSome = true → a.cEff = s.acre.cEff ∧ a.sagHalf = s.acre.sagHalf
  idle : s.acre.run = none → a.cEff = effectiveCols s.usableCols (decide (l.val = 3)) ∧ a.sagHalf = decide (l.val = 3)

theorem levelEffects_applied {s : State} (h3 : s.rowHalfNow ≠ 3) : ∃ a g r p, s.levelEffects =
    { s with acre := a, granary := g, flt := { s.flt with replace := r, pend := p } } ∧ LevelApplied s s.energy.level a := by
  have hmodes (h : s.acre.run = none ∨ s.pair.state ≠ 2) :
      s.leveled.acre.narrow = decide (2 ≤ s.energy.level.val) ∧ s.leveled.acre.shed = decide (2 ≤ s.energy.level.val) := by
    have h' : s.acre.run.isNone = true ∨ s.pair.state ≠ 2 := by rwa [Option.isNone_iff_eq_none]
    exact ⟨if_pos h', if_pos h'⟩
  cases hr : s.acre.run with
  | some e =>
    obtain ⟨r, p, ec⟩ := checkReplace_frame s.leveled
    have hw : s.levelEffects = s.leveled.checkReplace :=
      (refreshWidth_eq (s := s.leveled) fun h => absurd h h3).trans (if_pos (show s.acre.run.isSome = true by rw [hr]; rfl))
    exact ⟨_, _, r, p, hw.trans ec, rfl, hmodes, fun _ => ⟨rfl, rfl⟩, fun h => absurd (hr.symm.trans h) (by simp)⟩
  | none =>
    obtain ⟨g, r, p, e⟩ := refreshWidth_boundary (s := s.leveled) hr h3
    exact ⟨_, g, r, p, e, rfl, hmodes, fun h => absurd h (by simp [hr]), fun _ => ⟨rfl, rfl⟩⟩

/-- A change of the level in force with rows left: source 7 (R418, R429). -/
theorem setLevel_change {s : State} {l : SagLevel} (hne : s.energy.level ≠ l) (h3 : s.rowHalfNow ≠ 3) : ∃ a g r p,
    s.setLevel l = { s with acre := a, granary := g, flt := { s.flt with replace := r, pend := p }, energy := { s.energy with level := l } } ∧
    p.getLsbD 7 = true ∧ LevelApplied s l a := by
  obtain ⟨a, g, r, p, e, ha⟩ := levelEffects_applied (s := { s with energy := { s.energy with level := l } }) h3
  have hbit : (p ||| BitVec.ofNat 10 (2 ^ 7)).getLsbD 7 = true := by simp
  refine ⟨a, g, r, _, ?_, hbit, ha.clk, ha.modes, ha.busy, ha.idle⟩
  unfold State.setLevel
  rw [if_neg hne, e]
  rfl

/-- Since when the input is below the level in force, after it is recognised at `n` (R418). -/
def State.belowAfter (s : State) (n : BitVec 3) : Option Time :=
  if (sagLevelOf n).val < s.energy.level.val then (if s.pins.sag.val < s.energy.level.val then s.energy.belowSince else some s.timeNs) else none

/-- The input recognised at `n`, before a rise takes effect. -/
def State.sagSeen (s : State) (n : BitVec 3) : State :=
  { s with pins := { s.pins with sagN := n }, energy := { s.energy with belowSince := s.belowAfter n } }

theorem sagInput_off {s : State} (n : BitVec 3) (h : s.running = false) : sagInput n s = { s with pins := { s.pins with sagN := n } } :=
  if_pos (show (!s.running) = true by rw [h]; rfl)

theorem sagInput_on {s : State} (n : BitVec 3) (h : s.running = true) : sagInput n s =
    ((s.sagSeen n).setLevel (if s.energy.level.val < (sagLevelOf n).val then sagLevelOf n else s.energy.level)).settle :=
  if_neg (show ¬ (!s.running) = true by rw [h]; exact Bool.false_ne_true)

theorem sagInput_noRise {s : State} {n : BitVec 3} (h : s.running = true) (hl : (sagLevelOf n).val ≤ s.energy.level.val) :
    sagInput n s = (s.sagSeen n).settle := by
  rw [sagInput_on n h, if_neg (Nat.not_lt.2 hl)]
  exact congrArg State.settle (if_pos rfl)

/-- A rise takes effect at once (R418). -/
theorem sagInput_rise {s : State} {n : BitVec 3} (h : s.running = true) (h3 : s.rowHalfNow ≠ 3) (hl : s.energy.level.val < (sagLevelOf n).val) :
    ∃ a g r p, sagInput n s = State.settle { s with
        pins := { s.pins with sagN := n }, energy := { s.energy with level := sagLevelOf n, belowSince := none }
        acre := a, granary := g, flt := { s.flt with replace := r, pend := p } } ∧
      p.getLsbD 7 = true ∧ LevelApplied s (sagLevelOf n) a := by
  have hne : (s.sagSeen n).energy.level ≠ sagLevelOf n := fun e => absurd (congrArg Fin.val e) (Nat.ne_of_lt hl)
  obtain ⟨a, g, r, p, e, hp, ha⟩ := setLevel_change hne (show (s.sagSeen n).rowHalfNow ≠ 3 from h3)
  have hb : s.belowAfter n = none := if_neg (Nat.not_lt.2 (Nat.le_of_lt hl))
  refine ⟨a, g, r, p, ?_, hp, ha.clk, ha.modes, ha.busy, ha.idle⟩
  rw [sagInput_on n h, if_pos hl, e]
  simp only [State.sagSeen, hb]

theorem flushPair_empty {s : State} (h : s.pair.queue = []) (fuel : Nat) : s.flushPair fuel = s := by
  cases fuel with
  | zero => rfl
  | succ k => rw [State.flushPair, h]

/-- A step down once the hold of EXIT_HOLD_US is over (R418). -/
theorem sagFallDo_step {s : State} (h3 : s.rowHalfNow ≠ 3) (hq : s.pair.queue = []) (hb : s.pins.sag.val < s.energy.level.val) :
    ∃ a g r p l, l.val + 1 = s.energy.level.val ∧ sagFallDo s = State.settle { s with
        energy := { s.energy with level := l, belowSince := if s.pins.sag = l then none else some s.timeNs }
        acre := a, granary := g, flt := { s.flt with replace := r, pend := p } } ∧
      p.getLsbD 7 = true ∧ LevelApplied s l a := by
  have hlv : s.energy.level.val - 1 < 4 := by omega
  have hne : s.energy.level ≠ ⟨s.energy.level.val - 1, hlv⟩ := fun e => by
    have := congrArg Fin.val e
    simp only at this
    omega
  obtain ⟨a, g, r, p, e, hp, ha⟩ := setLevel_change hne h3
  refine ⟨a, g, r, p, ⟨s.energy.level.val - 1, hlv⟩, Nat.succ_pred_eq_of_pos (Nat.zero_lt_of_lt hb), ?_, hp, ha⟩
  have hsince : (if s.pins.sag.val < s.energy.level.val - 1 then some s.timeNs else none) =
      if s.pins.sag = ⟨s.energy.level.val - 1, hlv⟩ then none else some s.timeNs := by
    by_cases hlt : s.pins.sag.val < s.energy.level.val - 1
    · rw [if_pos hlt, if_neg fun e => Nat.ne_of_lt hlt (congrArg Fin.val e)]
    · rw [if_neg hlt, if_pos (Fin.ext (show s.pins.sag.val = s.energy.level.val - 1 by omega))]
  unfold sagFallDo State.flushLink
  dsimp only
  rw [e]
  dsimp only
  rw [flushPair_empty (by exact hq), hsince]

theorem sagLevelOf_eq (n : BitVec 3) :
    sagLevelOf n = if n.getLsbD 2 = false then 3 else if n.getLsbD 1 = false then 2 else if n.getLsbD 0 = false then 1 else 0 := by
  simp only [sagLevelOf, Bool.not_eq_true']

theorem tick_rows {s : State} (h3 : s.rowHalfNow ≠ 3) (now : Time) : (s.tick now).rowHalfNow ≠ 3 := by
  rw [tick_eq]; exact h3

section
variable {s : State} {n : BitVec 3} {now : Time}

theorem exec_sagLevelRise_off (hr : (s.tick now).running = false) :
    exec (.sagLevelRise n now) s = .next { s.tick now with pins := { s.pins with sagN := n } } := by
  refine (congrArg (fun t => Host.Outcome.next (s.keep t)) (sagInput_off n hr)).trans (congrArg Host.Outcome.next ?_)
  refine (keep_id (by exact tick_pending s now) (by exact tick_build s now) (by exact tick_mem s now)).trans ?_
  rw [tick_eq]

theorem exec_sagLevelRise_noRise (hr : (s.tick now).running = true) (hl : (sagLevelOf n).val ≤ s.energy.level.val) :
    exec (.sagLevelRise n now) s = .next (State.settle { s.tick now with
      pins := { s.pins with sagN := n }
      energy := { s.energy with belowSince := if (sagLevelOf n).val < s.energy.level.val then
        (if s.pins.sag.val < s.energy.level.val then s.energy.belowSince else some (s.tick now).timeNs) else none } }) := by
  have hl' : (sagLevelOf n).val ≤ (s.tick now).energy.level.val := by rw [tick_eq]; exact hl
  refine (congrArg (fun t => Host.Outcome.next (s.keep t)) (sagInput_noRise hr hl')).trans (congrArg Host.Outcome.next ?_)
  rw [keep_settle (by exact tick_pending s now) (by exact tick_build s now) (by exact tick_mem s now)]
  unfold State.sagSeen State.belowAfter
  rw [tick_eq]

theorem exec_sagLevelRise_rise (hr : (s.tick now).running = true) (h3 : s.rowHalfNow ≠ 3) (hl : s.energy.level.val < (sagLevelOf n).val) :
    ∃ v : State, exec (.sagLevelRise n now) s = .next v.settle ∧
      v.energy = { s.energy with level := sagLevelOf n, belowSince := none } ∧ v.pins = { s.pins with sagN := n } ∧
      v.flt.pend.getLsbD 7 = true ∧ LevelApplied s (sagLevelOf n) v.acre ∧
      v = { s.tick now with energy := v.energy, pins := v.pins, acre := v.acre, flt := v.flt, granary := v.granary } := by
  have hl' : (s.tick now).energy.level.val < (sagLevelOf n).val := by rw [tick_eq]; exact hl
  obtain ⟨a, g, r, p, e, hp, ha⟩ := sagInput_rise hr (tick_rows h3 now) hl'
  refine ⟨_, (congrArg (fun t => Host.Outcome.next (s.keep t)) e).trans (congrArg Host.Outcome.next
    (keep_settle (by exact tick_pending s now) (by exact tick_build s now) (by exact tick_mem s now))), ?_, ?_, hp, ?_, rfl⟩
  · rw [tick_eq]
  · rw [tick_eq]
  · rw [tick_eq] at ha
    exact ⟨ha.clk, ha.modes, ha.busy, ha.idle⟩

theorem exec_sagLevelFall {since : Time} (hr : (s.tick now).running = true) (h3 : s.rowHalfNow ≠ 3) (hq : s.pair.queue = [])
    (hb : s.pins.sag.val < s.energy.level.val) (hs : s.energy.belowSince = some since)
    (hd : s.energy.exitHoldUs.toNat * 1000 ≤ ((s.tick now).timeNs - since).toNat) :
    ∃ v : State, exec (.sagLevelFall now) s = .next v.settle ∧ v.energy.level.val + 1 = s.energy.level.val ∧
      v.energy = { s.energy with
        level := v.energy.level, belowSince := if s.pins.sag = v.energy.level then none else some (s.tick now).timeNs } ∧
      v.flt.pend.getLsbD 7 = true ∧ v.acre.clkHalf = decide (2 ≤ v.energy.level.val) ∧
      v = { s.tick now with energy := v.energy, acre := v.acre, flt := v.flt, granary := v.granary } := by
  have hb' : (s.tick now).pins.sag.val < (s.tick now).energy.level.val := by rw [tick_eq]; exact hb
  have hq' : (s.tick now).pair.queue = [] := by rw [tick_eq]; exact hq
  obtain ⟨a, g, r, p, l, hl, e, hp, ha⟩ := sagFallDo_step (tick_rows h3 now) hq' hb'
  have hon : sagFallOn (s.tick now) = true := by
    have h1 : (s.tick now).energy = s.energy := by rw [tick_eq]
    unfold sagFallOn
    rw [hr, decide_eq_true hb', h1, hs]
    exact decide_eq_true hd
  have hdo : (if sagFallOn (s.tick now) then sagFallDo (s.tick now) else s.tick now) = _ := (if_pos hon).trans e
  refine ⟨_, (congrArg (fun t => Host.Outcome.next (s.keep t)) hdo).trans (congrArg Host.Outcome.next
    (keep_settle (by exact tick_pending s now) (by exact tick_build s now) (by exact tick_mem s now))), ?_, ?_, hp, ha.clk, rfl⟩
  · rw [tick_eq] at hl; exact hl
  · rw [tick_eq]

end

end Sys2Proof.Machine
end

section
/-! PROOF. What the power-fail hold does (R420, R429). -/

namespace Sys2Proof.Machine

/-! ### What the hold shows -/

/-- The hold and its pin are on and its report is pending (R420, R429). -/
structure Held (s : State) : Prop where
  pfail : s.energy.pfail = true
  pin : s.pins.pfailLow = true
  pend : s.flt.pend.getLsbD 7 = true

theorem Kept.pfail {s t : State} (k : Kept s t) : t.energy.pfail = s.energy.pfail :=
  (congrArg (fun x : State => x.energy.pfail) k.lasting : _)

/-- A part of the hold that keeps the registers and reports keeps what it shows. -/
theorem Held.kept {s t : State} (h : Held s) (k : Kept s t) (hf : t.flt = s.flt) : Held t := by
  have h2 : t.pins.pfailLow = s.pins.pfailLow := (congrArg (fun x : State => x.pins.pfailLow) k.lasting : _)
  exact ⟨k.pfail.trans h.pfail, h2.trans h.pin, by rw [hf]; exact h.pend⟩

theorem Held.of_eq {s t : State} (h : Held s) (h1 : t.energy.pfail = s.energy.pfail) (h2 : t.pins.pfailLow = s.pins.pfailLow)
    (h3 : t.flt = s.flt) : Held t := ⟨h1.trans h.pfail, h2.trans h.pin, by rw [h3]; exact h.pend⟩

theorem Held.foldl {α : Type} {f : State → α → State} (hf : ∀ s x, Held s → Held (f s x)) (l : List α) {s : State} (h : Held s) :
    Held (l.foldl f s) := by
  induction l generalizing s with
  | nil => exact h
  | cons x l ih => exact ih (hf s x h)

theorem endCmd_flt (s : State) (c : Cmd) (r : Reason) : (s.endCmd c r).flt = s.flt := by
  unfold State.endCmd
  split
  · exact endWork_flt s c r
  · exact refuse_flt s c r

theorem endFetch_flt (s : State) (r : Nat) (x : Reason) : (s.endFetch r x).flt = s.flt := by
  unfold State.endFetch
  extract_lets c counted past n arb u v
  have hv : v.flt = s.flt := by
    show (if past then u.modRing r fun g => { g with head := add32 g.head n, needSlots := 0 } else u).flt = s.flt
    split <;> rfl
  split
  · rw [refuse_flt]; exact hv
  · exact hv

theorem abortFetch_flt (s : State) : s.abortFetch.flt = s.flt := by
  unfold State.abortFetch
  split
  · split
    · rfl
    · exact endFetch_flt s _ _
  · rfl

theorem Held.endCmd {s : State} (h : Held s) (c : Cmd) (r : Reason) : Held (s.endCmd c r) := h.kept (endCmd_kept s c r) (endCmd_flt s c r)

theorem Held.leaveBarrier {s : State} (h : Held s) (r : Nat) : Held (s.leaveBarrier r) := by
  unfold State.leaveBarrier
  split
  · exact h.of_eq rfl rfl rfl
  · exact h

theorem ask_shows (s : State) (g : Range) : (s.ask g).energy = s.energy ∧ (s.ask g).pins = s.pins ∧ (s.ask g).flt = s.flt ∧ (s.ask g).cmds = s.cmds := by
  unfold State.ask
  split <;> exact ⟨rfl, rfl, rfl, rfl⟩

theorem Held.ask {s : State} (h : Held s) (g : Range) : Held (s.ask g) := by
  obtain ⟨h1, h2, h3, -⟩ := ask_shows s g
  exact h.of_eq (congrArg _ h1) (congrArg _ h2) h3

/-- A save ends its command, with SAVED and its image or without (R420). -/
theorem pfailSave_cases (s : State) (c : Cmd) (off : Nat) : ∃ (u : State) (r : Reason) (e : Energy),
    u = { s with freeCtr := u.freeCtr, images := u.images } ∧ e.pfail = u.energy.pfail ∧
    ((s.pfailSave c off).1 = { u.endCmd c r with energy := e } ∨ ∃ g, (s.pfailSave c off).1 = ({ u.endCmd c r with energy := e } : State).ask g) := by
  unfold State.pfailSave
  extract_lets n len u
  split
  · have hsame : (u.formImage c n).1 = { s with freeCtr := (u.formImage c n).1.freeCtr, images := (u.formImage c n).1.images } := rfl
    rcases hx : u.formImage c n with ⟨w, b⟩
    rw [hx] at hsame
    exact ⟨w, .saved, { (w.endCmd c .saved).energy with pfailCtx := (w.endCmd c .saved).energy.pfailCtx ++ [(c.ring, c.seq, off)] },
      hsame, (endCmd_kept w c .saved).pfail, .inr ⟨_, rfl⟩⟩
  · exact ⟨u, .abortedReset, { u.energy with pfailDropped := u.energy.pfailDropped + 1 },
      rfl, rfl, .inl rfl⟩

theorem Held.pfailSave {s : State} (h : Held s) (c : Cmd) (off : Nat) : Held (s.pfailSave c off).1 := by
  obtain ⟨u, r, e, hu, he, hs⟩ := pfailSave_cases s c off
  have hw : Held u := hu ▸ h.of_eq rfl rfl rfl
  have hend : Held { u.endCmd c r with energy := e } := (hw.endCmd c r).of_eq (he.trans (endCmd_kept u c r).pfail.symm) rfl rfl
  rcases hs with hs | ⟨g, hs⟩
  · rw [hs]; exact hend
  · rw [hs]; exact hend.ask g

theorem Held.pfailEnd {s : State} (h : Held s) (c : Cmd) : Held (s.pfailEnd c) := by
  unfold State.pfailEnd
  split
  · exact h
  · exact h
  · split
    · exact h.kept (endWork_kept s c _) (endWork_flt s c _)
    · exact h
  · exact h.endCmd c _

/-- Steps 3 on the commands to save (R420). -/
def State.pfailSaveAll (s : State) (l : List Cmd) (off : Nat) : State :=
  (l.foldl (fun (a : State × Nat) c => match a.1.cmd c.ring c.seq with
    | some c => a.1.pfailSave c a.2
    | none => a) (s, off)).1

/-- What each step of the saves keeps, all of them keep. -/
theorem pfailSaveAll_keeps {I : State → Prop} {l : List Cmd} (hI : ∀ s, I s → ∀ c ∈ l, ∀ d, s.cmd c.ring c.seq = some d → ∀ off, I (s.pfailSave d off).1)
    {s : State} {off : Nat} (h : I s) : I (s.pfailSaveAll l off) := by
  unfold State.pfailSaveAll
  induction l generalizing s off with
  | nil => exact h
  | cons c l ih =>
    have ih' := fun {s : State} {off : Nat} => ih (fun s hs d hd => hI s hs d (List.mem_cons_of_mem c hd)) (s := s) (off := off)
    rw [List.foldl_cons]
    dsimp only
    cases hd : s.cmd c.ring c.seq with
    | none => exact ih' h
    | some d => exact ih' (hI s h c List.mem_cons_self d hd off)

/-- Steps 4 and 5 (R420). -/
def State.pfailEndAll (s : State) (l : List Cmd) : State :=
  l.foldl (fun s c => match s.cmds.find? fun d => d.order == c.order with
    | some c => s.pfailEnd c
    | none => s) s

theorem Held.pfailEndAll {s : State} (h : Held s) (l : List Cmd) : Held (s.pfailEndAll l) := by
  refine Held.foldl (fun s c hs => ?_) l h
  split
  · exact hs.pfailEnd _
  · exact hs

/-- The block once the Acre has stopped and a fetch and the barrier are over, before the saves: steps 1 and 2 (R420). -/
def State.pfailQuit (s : State) (strand : Nat) : State :=
  let v := ({ s.pfailStop strand with energy := { (s.pfailStop strand).energy with pfail := true } }.raise 7).abortFetch
  match v.barrier with
  | some r => v.leaveBarrier r
  | none => v

theorem pfailBegin_eq (s : State) (strand : Nat) : s.pfailBegin strand =
    (let u := s.pfailQuit strand
     let v := u.pfailSaveAll u.pfailSavable (areaFixed u.build)
     v.pfailEndAll v.cmds) := rfl

/-- `d` is `c` in what decides how it ends and whether it can be saved. -/
structure Cmd.SameEnd (c d : Cmd) : Prop where
  alike : Cmd.Alike c d
  merge : d.work.merge = c.work.merge

theorem Cmd.SameEnd.trans {a b c : Cmd} (h : Cmd.SameEnd a b) (k : Cmd.SameEnd b c) : Cmd.SameEnd a c :=
  ⟨h.alike.trans k.alike, k.merge.trans h.merge⟩

theorem event_sameEnd (c : Cmd) (n k : Nat) : Cmd.SameEnd c (c.event n k) :=
  ⟨⟨rfl, rfl, rfl, rfl, rfl, rfl, rfl, rfl, rfl, rfl, rfl, rfl⟩, rfl⟩

/-- The Acre that stops inside a tile moves its command and counts only. -/
theorem stopInside_parts (s : State) (c : Cmd) (p : Nat) : ∃ d, (s.stopInside c p).cmds = (s.setCmd d).cmds ∧
    (s.stopInside c p).pins = s.pins ∧ (s.stopInside c p).nextOrder = s.nextOrder ∧ Cmd.SameEnd c d := by
  have hcmds (u : State) (k : Nat) : (u.phaseCycles k).cmds = u.cmds := by rw [(phaseCycles_frame u k).1]
  have hpins (u : State) (k : Nat) : (u.phaseCycles k).pins = u.pins := by rw [(phaseCycles_frame u k).1]
  have hnext (u : State) (k : Nat) : (u.phaseCycles k).nextOrder = u.nextOrder := by rw [(phaseCycles_frame u k).1]
  unfold State.stopInside
  extract_lets f k fp8 t extra void chains mode on es es' cls w tt u
  rcases c.tileBlocks f k with ⟨a, b⟩
  dsimp -zeta only
  extract_lets n d zs wk e g
  have hd : Cmd.SameEnd c d :=
    (((event_sameEnd c _ _).trans (event_sameEnd _ _ _)).trans (event_sameEnd _ _ _)).trans (event_sameEnd _ _ _)
  clear_value d
  have he : Cmd.SameEnd d e := by
    show Cmd.SameEnd d (match k with
      | .dw _ => d.modTrain _
      | _ => { d with work := { d.work with chains := chains } })
    clear_value k chains
    split <;> exact ⟨⟨rfl, rfl, rfl, rfl, rfl, rfl, rfl, rfl, rfl, rfl, rfl, rfl⟩, rfl⟩
  clear_value e
  rw [hcmds, hpins, hnext]
  exact ⟨_, rfl, rfl, rfl, (hd.trans he).trans ⟨⟨rfl, rfl, rfl, rfl, rfl, rfl, rfl, rfl, rfl, rfl, rfl, rfl⟩, rfl⟩⟩

theorem onAcre_mem {s : State} {c : Cmd} (h : s.onAcre = some c) : c ∈ s.cmds := by
  unfold State.onAcre at h
  split at h
  · cases h
  · exact cmd_mem h

theorem pfailStop_parts (s : State) (strand : Nat) : (s.pfailStop strand).pins = s.pins ∧ (s.pfailStop strand).nextOrder = s.nextOrder ∧
    ((s.pfailStop strand).cmds = s.cmds ∨ ∃ c ∈ s.cmds, ∃ d, Cmd.SameEnd c d ∧ (s.pfailStop strand).cmds = (s.setCmd d).cmds) := by
  unfold State.pfailStop
  cases hc : s.onAcre with
  | none => exact ⟨rfl, rfl, .inl rfl⟩
  | some c =>
    dsimp only
    split
    · obtain ⟨d, h1, h2, h3, hs⟩ := stopInside_parts s c strand
      exact ⟨h2, h3, .inr ⟨c, onAcre_mem hc, d, hs, h1⟩⟩
    · exact ⟨rfl, rfl, .inl rfl⟩

/-! ### A packet that waits through the hold -/

theorem savable_sameEnd {c d : Cmd} (h : Cmd.SameEnd c d) : d.savable = c.savable := by
  unfold Cmd.savable
  rw [h.alike.op, h.alike.stage, h.merge]

/-- Packet `c` waits, and nothing of its name can be saved. -/
structure Waits (c : Cmd) (s : State) : Prop where
  has : s.holds c.order (Cmd.Alike c)
  once : (s.cmds.map Cmd.order).Nodup
  unsaved : ∀ x ∈ s.cmds, x.ring = c.ring → x.seq = c.seq → x.savable = false

theorem Waits.of_cmds {c : Cmd} {s t : State} (h : Waits c s) (e : t.cmds = s.cmds) : Waits c t :=
  ⟨holds_of_cmds h.has e, by rw [e]; exact h.once, by rw [e]; exact h.unsaved⟩

theorem Waits.start {c : Cmd} {s : State} (ho : s.ordersOk) (hn : s.named c) (hs : c.savable = false) : Waits c s :=
  ⟨holds_self hn.1 ho.1, ho.1, fun x hx hr hq => by rw [hn.2 x hx hr hq]; exact hs⟩

theorem Waits.setCmd {c d e : Cmd} {s : State} (h : Waits c s) (hd : d ∈ s.cmds) (he : Cmd.SameEnd d e) : Waits c (s.setCmd e) := by
  refine ⟨setCmd_holds h.has fun ho => (h.has.2 d hd (he.alike.order.symm.trans ho)).trans he.alike, ?_, fun x hx hr hq => ?_⟩
  · exact (congrArg List.Nodup (setCmd_orders s e)).mpr h.once
  · obtain ⟨y, hy, rfl⟩ := List.mem_map.1 hx
    by_cases ho : y.order = e.order
    · rw [if_pos ho] at hr hq ⊢
      rw [savable_sameEnd he]
      exact h.unsaved d hd (he.alike.ring.symm.trans hr) (he.alike.seq.symm.trans hq)
    · rw [if_neg ho] at hr hq ⊢
      exact h.unsaved y hy hr hq

theorem Waits.pfailStop {c : Cmd} {s : State} (h : Waits c s) (strand : Nat) : Waits c (s.pfailStop strand) := by
  obtain ⟨-, -, e | ⟨d, hd, x, hx, e⟩⟩ := pfailStop_parts s strand
  · exact h.of_cmds e
  · exact (h.setCmd hd hx).of_cmds e

/-- Beside the packets of before, the abort of a fetch leaves one that has ended. -/
theorem abortFetch_mem {s : State} {x : Cmd} (hx : x ∈ s.abortFetch.cmds) :
    x ∈ s.cmds ∨ x.stage = .finished := by
  have fetched (r : Nat) (hx : x ∈ (s.endFetch r .abortedReset).cmds) : x ∈ s.cmds ∨ x.stage = .finished := by
    unfold State.endFetch at hx
    extract_lets c counted past n arb u v at hx
    have hv : v.cmds = s.cmds := by
      show (if past then u.modRing r fun g => { g with head := add32 g.head n, needSlots := 0 } else u).cmds = s.cmds
      split <;> rfl
    split at hx
    · obtain ⟨w, hw, e⟩ := refuse_cmds { v with nextOrder := v.nextOrder + 1, cmds := v.cmds ++ [c] } c .abortedReset
      obtain ⟨d, ed, ho, hf, -⟩ := finish_cmds w c .abortedReset bodyZero
      rw [e, ed] at hx
      obtain ⟨y, hy, rfl⟩ := List.mem_map.1 hx
      rw [hw, hv] at hy
      split
      · exact .inr hf
      · rename_i hne
        rcases List.mem_append.1 hy with hy | hy
        · exact .inl hy
        · exact absurd (by rw [List.mem_singleton.1 hy, ho]) hne
    · exact .inl (hv ▸ hx)
  unfold State.abortFetch at hx
  split at hx
  · split at hx
    · exact .inl hx
    · exact fetched _ hx
  · exact .inl hx

theorem finished_unsaved {c : Cmd} (h : c.stage = .finished) : c.savable = false := by
  simp [Cmd.savable, h]

theorem Waits.abortFetch {c : Cmd} {s : State} (h : Waits c s) (ho : ∀ c ∈ s.cmds, c.order < s.nextOrder) : Waits c s.abortFetch := by
  obtain ⟨hin, hn⟩ := abortFetch_cmds s ho h.once
  obtain ⟨⟨d, hd, hdo⟩, hall⟩ := h.has
  refine ⟨⟨⟨d, hin d hd, hdo⟩, fun x hx hxo => ?_⟩, hn, fun x hx hr hq => ?_⟩
  · rw [List.inj_on_of_nodup_map hn hx (hin d hd) (hxo.trans hdo.symm)]
    exact hall d hd hdo
  · rcases abortFetch_mem hx with hm | hf
    · exact h.unsaved x hm hr hq
    · exact finished_unsaved hf

theorem leaveBarrier_cmds (s : State) (r : Nat) : (s.leaveBarrier r).cmds = s.cmds := by
  unfold State.leaveBarrier; split <;> rfl

theorem Waits.pfailQuit {c : Cmd} {s : State} (h : Waits c s) (ho : ∀ c ∈ s.cmds, c.order < s.nextOrder) (strand : Nat) :
    Waits c (s.pfailQuit strand) := by
  have hstop := h.pfailStop strand
  have hlt : ∀ c ∈ (s.pfailStop strand).cmds, c.order < (s.pfailStop strand).nextOrder := by
    obtain ⟨-, hn, e | ⟨d, hd, x, hx, e⟩⟩ := pfailStop_parts s strand
    · rw [hn, e]; exact ho
    · rw [hn, e]
      intro y hy
      obtain ⟨z, hz, rfl⟩ := List.mem_map.1 hy
      split
      · rw [hx.alike.order]; exact ho d hd
      · exact ho z hz
  have hquit := (hstop.of_cmds (t := { s.pfailStop strand with energy := { (s.pfailStop strand).energy with pfail := true } }.raise 7) rfl).abortFetch hlt
  unfold State.pfailQuit
  dsimp only
  split
  · exact hquit.of_cmds (leaveBarrier_cmds _ _)
  · exact hquit

theorem Held.pfailQuit {s : State} (h : s.pins.pfailLow = true) (strand : Nat) : Held (s.pfailQuit strand) := by
  obtain ⟨hp, -, -⟩ := pfailStop_parts s strand
  have h7 : Held ({ s.pfailStop strand with energy := { (s.pfailStop strand).energy with pfail := true } }.raise 7) :=
    ⟨rfl, (congrArg Pins.pfailLow hp).trans h, by simp [State.raise]⟩
  have hq := h7.kept (abortFetch_kept _) (abortFetch_flt _)
  unfold State.pfailQuit
  dsimp only
  split
  · exact hq.leaveBarrier _
  · exact hq

/-! ### The saves pass it by, and the end takes it -/

theorem mem_insertByDisp {c x : Cmd} {l : List Cmd} (h : x ∈ insertByDisp c l) : x = c ∨ x ∈ l := by
  induction l with
  | nil => exact .inl (List.mem_singleton.1 h)
  | cons d l ih =>
    unfold insertByDisp at h
    split at h
    · exact List.mem_cons.1 h
    · rcases List.mem_cons.1 h with e | h
      · exact .inr (e ▸ List.mem_cons_self)
      · exact (ih h).imp id (List.mem_cons_of_mem d)

theorem mem_activeCmds {s : State} {x : Cmd} (h : x ∈ s.activeCmds) : x ∈ s.cmds := by
  have key (l : List Cmd) (h : x ∈ l.foldr insertByDisp []) : x ∈ l := by
    induction l with
    | nil => exact h
    | cons c l ih =>
      rcases mem_insertByDisp h with e | h
      · exact e ▸ List.mem_cons_self
      · exact List.mem_cons_of_mem c (ih h)
  exact List.mem_of_mem_filter (key _ h)

theorem mem_pfailSavable {s : State} {x : Cmd} (h : x ∈ s.pfailSavable) : x ∈ s.cmds ∧ x.savable = true := by
  rcases List.mem_append.1 h with h | h
  · obtain ⟨h1, h2⟩ := List.mem_filter.1 h
    exact ⟨mem_activeCmds h1, h2⟩
  · obtain ⟨h1, h2⟩ := List.mem_filter.1 h
    exact ⟨h1, (Bool.and_eq_true_iff.1 h2).2⟩

theorem plain_waiting {c : Cmd} (hc : c.stage = .waiting) : Cmd.Plain (Cmd.Alike c) :=
  ⟨fun _ _ h1 _ h => h.trans h1, fun d h k => by rw [h.stage, hc] at k; exact absurd k.2.2 (by decide)⟩

/-- The end of the work of another packet leaves what is plain. -/
theorem endWork_other {s : State} {P : Cmd → Prop} (hP : Cmd.Plain P) (c : Cmd) (r : Reason) {o : Nat} (h : s.holds o P) (ho : c.order ≠ o) :
    (s.endWork c r).holds o P := by
  rw [endWork_eq]
  refine endParts_other hP _ _ (holds_of_cmds h ?_) (by rw [(atEnd_alike s c r).order]; exact ho)
  rw [fieldLeft_cmds]
  split <;> rfl

theorem endCmd_orders (s : State) (c : Cmd) (r : Reason) : (s.endCmd c r).orders = s.orders := by
  unfold State.endCmd
  split
  · exact endWork_orders s c r
  · exact refuse_orders s c r

/-- A save of another packet leaves what is plain, and the packets' places. -/
theorem pfailSave_other {s : State} {P : Cmd → Prop} (hP : Cmd.Plain P) (c : Cmd) (off : Nat) {o : Nat} (h : s.holds o P) (ho : c.order ≠ o) :
    (s.pfailSave c off).1.holds o P ∧ (s.pfailSave c off).1.orders = s.orders := by
  obtain ⟨u, r, e, hu, -, hs⟩ := pfailSave_cases s c off
  have hcmds : u.cmds = s.cmds := by rw [hu]
  have hsame : (s.pfailSave c off).1.cmds = (u.endCmd c r).cmds := by
    rcases hs with hs | ⟨g, hs⟩
    · rw [hs]
    · rw [hs]; exact (ask_shows _ g).2.2.2
  exact ⟨holds_of_cmds (endCmd_other hP c r (holds_of_cmds h hcmds) ho) hsame,
    (orders_of_cmds hsame).trans ((endCmd_orders u c r).trans (orders_of_cmds hcmds))⟩

theorem Waits.pfailSaveAll {c : Cmd} {s : State} (h : Waits c s) (hc : c.stage = .waiting) (off : Nat) :
    (s.pfailSaveAll s.pfailSavable off).holds c.order (Cmd.Alike c) ∧ (s.pfailSaveAll s.pfailSavable off).orders = s.orders := by
  refine pfailSaveAll_keeps (I := fun t => t.holds c.order (Cmd.Alike c) ∧ t.orders = s.orders) (fun t ht x hx d hd off => ?_) ⟨h.has, rfl⟩
  obtain ⟨hm, hsv⟩ := mem_pfailSavable hx
  have hne : d.order ≠ c.order := fun e => by
    obtain ⟨hr, hq⟩ := cmd_name hd
    have ha := ht.1.2 d (cmd_mem hd) e
    rw [h.unsaved x hm (hr.symm.trans ha.ring) (hq.symm.trans ha.seq)] at hsv
    cases hsv
  obtain ⟨h1, h2⟩ := pfailSave_other (plain_waiting hc) d off ht.1 hne
  exact ⟨h1, h2.trans ht.2⟩

theorem pfailEnd_other {s : State} {P : Cmd → Prop} (hP : Cmd.Plain P) (c : Cmd) {o : Nat} (h : s.holds o P) (ho : c.order ≠ o) :
    (s.pfailEnd c).holds o P := by
  unfold State.pfailEnd
  split
  · exact h
  · exact h
  · split
    · exact endWork_other hP c _ h ho
    · exact h
  · exact endCmd_other hP c _ h ho

theorem pfailEnd_own {s : State} {c : Cmd} (h : ∃ d ∈ s.cmds, d.order = c.order) (hs : c.stage = .waiting) (hd : c.disp = none) :
    (s.pfailEnd c).holds c.order fun d => d.stage = .finished ∧ d.reason = .abortedReset := by
  obtain ⟨u, hu, e⟩ := refuse_cmds s c .abortedReset
  unfold State.pfailEnd
  rw [hs]
  show (s.endCmd c .abortedReset).holds c.order _
  unfold State.endCmd
  rw [hd, if_neg (by simp), e]
  exact finish_own _ _ (hu ▸ h)

/-- Every packet that waits undispatched is ended (R420). -/
theorem pfailEndAll_own {s : State} {c : Cmd} (h : s.holds c.order (Cmd.Alike c)) (hn : s.orders.Nodup) (hs : c.stage = .waiting)
    (hd : c.disp = none) : (s.pfailEndAll s.cmds).holds c.order fun d => d.stage = .finished ∧ d.reason = .abortedReset := by
  obtain ⟨⟨e, he, heo⟩, hall⟩ := h
  have hae := hall e he heo
  have other {P : Cmd → Prop} (hP : Cmd.Plain P) (t : State) (d : Cmd) (hne : d.order ≠ e.order) (ht : t.holds e.order P) :
      (match t.cmds.find? fun x : Cmd => x.order == d.order with
        | some c => t.pfailEnd c
        | none => t).holds e.order P := by
    split
    · rename_i x hx
      have hxo : x.order = d.order := by simpa using List.find?_some hx
      exact pfailEnd_other hP x ht (hxo ▸ hne)
    · exact ht
  have hse : e.stage = .waiting := hae.stage.trans hs
  rw [← heo]
  refine foldl_own (I := fun _ => True) (P := Cmd.Alike e) _ e (fun _ _ h => h) (fun t d _ => other (plain_waiting hse) t d)
    (fun t d _ => other (plain_ended .abortedReset) t d) (fun t _ ht => ?_) s.cmds s trivial he hn (holds_self he hn)
  obtain ⟨x, hf, hx, hxo, hxa⟩ := find_order ht
  rw [hf]
  have := pfailEnd_own (s := t) (c := x) ⟨x, hx, rfl⟩ (hxa.stage.trans hse) (hxa.disp.trans (hae.disp.trans hd))
  rwa [hxo] at this

/-! ### The row -/

/-- Step 6, as soon as commits and holds are over (R420). -/
def State.pfailArea (s : State) : State := if s.energy.pfailArea || !s.pfailIdle then s else s.writeArea

theorem pfailArea_frame (s : State) : ∃ a q, s.pfailArea = { s with energy := { s.energy with pfailArea := a }, queue := q } := by
  have hask (u : State) (g : Range) : ∃ q, u.ask g = { u with queue := q } := by
    unfold State.ask; split <;> exact ⟨_, rfl⟩
  unfold State.pfailArea State.writeArea State.askArea State.askWrite
  split
  · exact ⟨_, _, rfl⟩
  · dsimp only
    split
    · obtain ⟨q, e⟩ := hask { s with energy := { s.energy with pfailArea := true } } _
      rw [e]
      obtain ⟨q', e'⟩ := hask { s with energy := { s.energy with pfailArea := true }, queue := q } _
      exact ⟨_, q', e'⟩
    · obtain ⟨q, e⟩ := hask { s with energy := { s.energy with pfailArea := true } } _
      exact ⟨_, q, e⟩

theorem Held.pfailArea {s : State} (h : Held s) : Held s.pfailArea := by
  obtain ⟨a, q, e⟩ := pfailArea_frame s
  exact e ▸ h.of_eq rfl rfl rfl

theorem pfailArea_cmds (s : State) : s.pfailArea.cmds = s.cmds := by
  obtain ⟨a, q, e⟩ := pfailArea_frame s
  rw [e]

theorem pfailArea_pins (s : State) : s.pfailArea.energy.pfail = s.energy.pfail ∧ s.pfailArea.pins = s.pins := by
  obtain ⟨a, q, e⟩ := pfailArea_frame s
  rw [e]
  exact ⟨rfl, rfl⟩

theorem Held.pfailBegin {s : State} (h : s.pins.pfailLow = true) (strand : Nat) : Held (s.pfailBegin strand) := by
  rw [pfailBegin_eq]
  exact (pfailSaveAll_keeps (fun t ht _ _ d _ off => ht.pfailSave d off) (Held.pfailQuit h strand)).pfailEndAll _

theorem Waits.pfailBegin {c : Cmd} {s : State} (h : Waits c s) (ho : ∀ c ∈ s.cmds, c.order < s.nextOrder) (strand : Nat)
    (hs : c.stage = .waiting) (hd : c.disp = none) :
    (s.pfailBegin strand).holds c.order fun d => d.stage = .finished ∧ d.reason = .abortedReset := by
  have hq := h.pfailQuit ho strand
  obtain ⟨h1, h2⟩ := hq.pfailSaveAll hs (areaFixed (s.pfailQuit strand).build)
  rw [pfailBegin_eq]
  exact pfailEndAll_own h1 (h2.symm ▸ hq.once) hs hd

section
variable {s : State} {strand : Fin 64} {now : Time}

/-- The block with pfail_n low. -/
def State.pfailSeen (s : State) : State := { s with pins := { s.pins with pfailLow := true } }

theorem exec_powerFailHold_asleep (h : (s.tick now).awake = false) :
    exec (.powerFailHold strand now) s = .next { s.tick now with pins := { s.pins with pfailLow := true } } := by
  have hdo : (if (s.tick now).pfailSeen.awake then powerFailDo strand.val (s.tick now).pfailSeen else (s.tick now).pfailSeen) =
      (s.tick now).pfailSeen := if_neg (show ¬ (s.tick now).awake = true by rw [h]; exact Bool.false_ne_true)
  refine (congrArg (fun t => Host.Outcome.next (s.keep t)) hdo).trans (congrArg Host.Outcome.next ?_)
  refine (keep_id (by exact tick_pending s now) (by exact tick_build s now) (by exact tick_mem s now)).trans ?_
  rw [tick_eq]; rfl

theorem exec_powerFailHold_awake (h : (s.tick now).awake = true) :
    exec (.powerFailHold strand now) s = .next (s.keep (powerFailDo strand.val (s.tick now).pfailSeen)) :=
  congrArg (fun t => Host.Outcome.next (s.keep t)) (show (if (s.tick now).pfailSeen.awake then _ else _) = _ from if_pos h)

/-- Before READY the hold ends the start (R420, R462). -/
theorem exec_powerFailHold_start (h : (s.tick now).awake = true) (hr : s.boot.ready = false) (hf : s.boot.failed = false) :
    exec (.powerFailHold strand now) s = .next { s.tick now with
      pins := { s.pins with pfailLow := true, barrierOut := false }
      boot := { s.boot with failed := true, failCode := 0x0E, failDetail := s.boot.stage } } := by
  have hb : (s.tick now).boot = s.boot := by rw [tick_eq]
  have hdo : powerFailDo strand.val (s.tick now).pfailSeen = { s.tick now with
      pins := { s.pins with pfailLow := true, barrierOut := false }
      boot := { s.boot with failed := true, failCode := 0x0E, failDetail := s.boot.stage } } := by
    unfold powerFailDo State.bootFail State.pfailSeen
    dsimp only
    rw [hb, hr, hf, tick_eq]
    rfl
  rw [exec_powerFailHold_awake h, hdo]
  exact congrArg Host.Outcome.next (keep_id (by exact tick_pending s now) (by exact tick_build s now) (by exact tick_mem s now))

theorem powerFailDo_ready {s : State} (h : s.boot.ready = true) (strand : Nat) :
    powerFailDo strand s = (if s.energy.pfail then s else s.pfailBegin strand).pfailArea.settle :=
  if_neg (show ¬ (!s.boot.ready) = true by rw [h]; exact Bool.false_ne_true)

/-- After READY the hold stands, and steps 1 to 5 end a packet that waits undispatched and cannot be saved (R420, R429). -/
theorem exec_powerFailHold_ready (h : (s.tick now).awake = true) (hr : s.boot.ready = true) :
    ∃ t, exec (.powerFailHold strand now) s = .next t ∧ t.energy.pfail = true ∧ t.pins.pfailLow = true ∧
      (s.energy.pfail = false → t.flt.pend.getLsbD 7 = true ∧ ∀ c : Cmd, (s.tick now).ordersOk → (s.tick now).named c → c.stage = .waiting →
        c.disp = none → c.savable = false → t.holds c.order fun d => d.stage = .finished ∧ d.reason = .abortedReset) := by
  have hr' : (s.tick now).pfailSeen.boot.ready = true := (congrArg (·.boot.ready) (tick_eq s now)).trans hr
  have hp' : (s.tick now).pfailSeen.energy.pfail = s.energy.pfail := (congrArg (·.energy.pfail) (tick_eq s now))
  refine ⟨_, exec_powerFailHold_awake h, ?_⟩
  rw [powerFailDo_ready hr', hp']
  cases hp : s.energy.pfail with
  | true =>
    obtain ⟨h1, h2⟩ := pfailArea_pins (s.tick now).pfailSeen
    exact ⟨(settle_energy_pfail _).trans (h1.trans (hp'.trans hp)), (settle_pins_pfailLow _).trans (congrArg Pins.pfailLow h2), fun hf => by cases hf⟩
  | false =>
    have hh : Held ((s.tick now).pfailSeen.pfailBegin strand.val).pfailArea := (Held.pfailBegin rfl strand.val).pfailArea
    have hend (c : Cmd) (ho : (s.tick now).ordersOk) (hn : (s.tick now).named c) (hs : c.stage = .waiting) (hd : c.disp = none)
        (hv : c.savable = false) : ((s.tick now).pfailSeen.pfailBegin strand.val).pfailArea.settle.holds c.order
          fun d => d.stage = .finished ∧ d.reason = .abortedReset := by
      have hw : Waits c (s.tick now).pfailSeen := (Waits.start ho hn hv).of_cmds rfl
      exact (settle_adv _).cmds _ _ (stable_ended .abortedReset) (holds_of_cmds (hw.pfailBegin ho.2 strand.val hs hd) (pfailArea_cmds _))
    rw [if_neg Bool.false_ne_true]
    generalize ((s.tick now).pfailSeen.pfailBegin strand.val).pfailArea = x at hh hend
    exact ⟨(settle_energy_pfail x).trans hh.pfail, (settle_pins_pfailLow x).trans hh.pin, fun _ => ⟨(settle_adv x).pend 7 hh.pend, hend⟩⟩

end

end Sys2Proof.Machine
end

section
/-! PROOF. HELD, the supplies and presetn, and the obligation on faults and supplies (R21, R370, R420, R430). -/

namespace Sys2Proof.Machine

/-! ### The area and the records are written -/

theorem heldOn_of {s : State} (hr : s.running = true) (hp : s.energy.pfail = true) (ha : s.energy.pfailArea = true)
    (hw : ∀ g ∈ s.ranges, g.write = false)
    (hc : s.halted = true ∨ ∀ c ∈ s.cmds, (s.ring c.ring).cplBusy = false ∧ (s.recordReady c = false ∨ cplFull (s.ring c.ring) = true)) :
    heldOn s = true := by
  have hall : s.ranges.all (fun g => !g.write) = true := List.all_eq_true.2 fun g hg => by rw [hw g hg]; rfl
  have hstuck : (s.halted || s.cmds.all fun c => !(s.ring c.ring).cplBusy && s.recordStuck c) = true := by
    rcases hc with hh | hc
    · rw [hh, Bool.true_or]
    · have hrec : (s.cmds.all fun c => !(s.ring c.ring).cplBusy && s.recordStuck c) = true := List.all_eq_true.2 fun c hm => by
        obtain ⟨hb, hr | hf⟩ := hc c hm
        · simp [State.recordStuck, hb, hr]
        · simp [State.recordStuck, hb, hf]
      rw [hrec, Bool.or_true]
  simp only [heldOn, hr, hp, ha, hall, hstuck, Bool.and_self]

theorem exec_held {s : State} {now : Time} (hr : (s.tick now).running = true) (hp : s.energy.pfail = true) (ha : s.energy.pfailArea = true)
    (hw : ∀ g ∈ s.ranges, g.write = false)
    (hc : s.halted = true ∨ ∀ c ∈ s.cmds, (s.ring c.ring).cplBusy = false ∧ (s.recordReady c = false ∨ cplFull (s.ring c.ring) = true)) :
    exec (.held now) s = .next { s.tick now with energy := { s.energy with heldFlag := true } } := by
  have hon : heldOn (s.tick now) = true := by
    rw [tick_eq] at hr ⊢
    exact heldOn_of hr hp ha hw hc
  have hdo : (if heldOn (s.tick now) then { s.tick now with energy := { (s.tick now).energy with heldFlag := true } } else s.tick now) =
      { s.tick now with energy := { (s.tick now).energy with heldFlag := true } } := if_pos hon
  refine (congrArg (fun t => Host.Outcome.next (s.keep t)) hdo).trans (congrArg Host.Outcome.next ?_)
  refine (keep_id (by exact tick_pending s now) (by exact tick_build s now) (by exact tick_mem s now)).trans ?_
  rw [tick_eq]

/-! ### The supplies -/

/-- The block without the supply of an island (R21). -/
def State.unsupplied (s : State) (island : Island) : State :=
  s.keep { loseIsland island (undefinedState s.freeCtr) s with freeCtr := s.freeCtr + 1 }

/-- The loss of a supply leaves what other islands hold (R21). -/
theorem exec_supplyRemoved (s : State) (island : Island) : ∃ t, exec (.supplyRemoved island) s = .next t ∧ t.freeCtr = s.freeCtr + 1 ∧
    t.pending = s.pending ∧ t.build = s.build ∧ t.mem = s.mem ∧
    (island = .winnow → t = { s with freeCtr := t.freeCtr, win := t.win }) ∧
    (island = .harrow → t = { s with freeCtr := t.freeCtr, ttSel := t.ttSel, totals := t.totals }) ∧
    (island = .link → t = { s with freeCtr := t.freeCtr, streams := t.streams, shard := t.shard, pair := t.pair }) ∧
    (island = .acre → t = { s with
      freeCtr := t.freeCtr, acre := t.acre, granary := t.granary, fields := t.fields, barn := t.barn
      seed0 := t.seed0, seed1 := t.seed1, strips := t.strips, tensors := t.tensors }) ∧
    (∀ k, island = .port k → t = { s with freeCtr := t.freeCtr, ports := t.ports } ∧ ∀ j, j ≠ k → t.port j = s.port j) ∧
    (island = .ctrl → t.strips = s.strips ∧ t.fields = s.fields ∧ t.granary = s.granary ∧ t.tensors = s.tensors ∧ t.ports = s.ports ∧
      t.pair = s.pair ∧ t.win = s.win ∧ t.pins = s.pins ∧ t.tap = s.tap) := by
  refine ⟨s.unsupplied island, rfl, rfl, rfl, rfl, rfl, ?_, ?_, ?_, ?_, ?_, ?_⟩
  · rintro rfl; rfl
  · rintro rfl; rfl
  · rintro rfl; rfl
  · rintro rfl; rfl
  · rintro k rfl
    exact ⟨rfl, fun j hj => tblGet_set_ne portReset _ _ hj⟩
  · rintro rfl
    exact ⟨rfl, rfl, rfl, rfl, rfl, rfl, rfl, rfl, rfl⟩

/-! ### The obligation -/

/-- Settles O54: each event by what it moves, the power-fail hold by following a packet that waits through its steps. -/
theorem faultsAndSupply : Obligations.FaultsAndSupply := by
  intro s now
  refine ⟨fun b w f sup => ⟨scrub_off, fun hl he hv hb hw hn hp => ?_⟩,
    fun g n bad b hl hv hb h3 hq => ⟨copyDone_busy hl hv hb h3 hq, fun hr hd hm => ⟨_, copyDone_idle hl hv hb h3 hq hr hd hm, ?_, tblGet_set_same 0 _ _ _⟩⟩,
    fun word => ⟨fun hr hl hp => exec_ledgerLost hr hl hp, fun hl hv hp => exec_fwBankUe_lost hl hv hp, fun hl hv => exec_fwBankUe_switch hl hv⟩,
    fun strip ledger word hl ho hn => ?_, fun input hr h => exec_timeFault hr h, fun n => ?_,
    fun since hr h3 hq hb hs hd => ?_,
    fun strand => ⟨exec_powerFailHold_asleep, exec_powerFailHold_start, exec_powerFailHold_ready⟩,
    fun hr hp ha hw hc => exec_held hr hp ha hw hc, rfl, exec_supplyRemoved s⟩
  · have hon := scrub_on hl he hv hb hw hn hp
    have hr : s.boot.ready = true := (Bool.and_eq_true_iff.1 hl.1).2
    refine ⟨fun hf => scrub_clean hon hr hf, fun hf hc => ?_, fun hf hc hs h31 h28 => ?_, fun hf hs => scrub_servedUe hon hr hf hs,
      fun hf => scrub_anyUe hon hr hf⟩
    · exact (scrub_belowLimit hon hr hf hc).trans (congrArg _ (scrubCe_eq s b sup))
    · refine ⟨_, scrub_atLimit hon hr hf hc hs h31 h28, ?_, tblGet_taken _ _ _, fun k hk => tblGet_taken_ne _ b hk⟩
      rw [scrubCe_eq]; rfl
  · simp only [State.copyEnded, hd]
  · obtain ⟨t, he, h1, h2, h3, h4⟩ := exec_stripLost (ledger := ledger) (word := word) hl ho hn
    refine ⟨t, he, h1, h2, h3.trans (List.map_congr_left fun c _ => ?_), h4⟩
    rw [Cmd.losing, loseStep_eq]
  · have hn := sagLevelOf_eq n
    refine ⟨exec_sagLevelRise_off, fun hr h3 => ⟨fun hl => ?_, fun hl => ?_⟩⟩
    · rw [← hn] at hl ⊢
      obtain ⟨v, he, h1, h2, hp, ha, h4⟩ := exec_sagLevelRise_rise hr h3 hl
      exact ⟨_, v, he, rfl, h1, h2, hp, ha.clk, ha.modes, ha.busy, ha.idle, h4⟩
    · rw [← hn] at hl ⊢
      exact exec_sagLevelRise_noRise hr hl
  · obtain ⟨v, he, h1, h2, hp, hc, h4⟩ := exec_sagLevelFall hr h3 hq hb hs hd
    exact ⟨_, v, he, rfl, h1, h2, hp, hc, h4⟩

end Sys2Proof.Machine
end

section
/-! PROOF. The fill commands: their dispatch, and what one row of a fill does with its command (R104, R105, R302, R313). -/

namespace Sys2Proof.Machine

/-! ### Dispatch -/

theorem setCmd_setCmd (s : State) {a b : Cmd} (h : a.order = b.order) : (s.setCmd a).setCmd b = s.setCmd b := by
  unfold State.setCmd
  simp only [List.map_map]
  congr 1
  refine List.map_congr_left fun d _ => ?_
  show (if (if d.order = a.order then a else d).order = b.order then b else if d.order = a.order then a else d) = _
  by_cases hd : d.order = a.order
  · rw [if_pos hd, if_pos h, if_pos (hd.trans h)]
  · rw [if_neg hd]

theorem sendPair_setCmd (s : State) (d : Cmd) (k : Nat) (b : List Byte) : (s.setCmd d).sendPair k b = (s.sendPair k b).setCmd d := by
  show (if !s.build.pairLink then s.setCmd d else if s.pair.queue.isEmpty && s.mayTransmit k then (s.setCmd d).transmit k b else _) = _
  unfold State.sendPair
  split
  · rfl
  · split <;> rfl

theorem tookTurn_setCmd (s : State) (d c : Cmd) : (s.setCmd d).tookTurn c = (s.tookTurn c).setCmd d := by
  show (if s.secondary then _ else if s.primary then (s.setCmd d).sendPair _ _ else s.setCmd d) = _
  unfold State.tookTurn State.tell
  split
  · rfl
  · split
    · exact sendPair_setCmd s d _ _
    · rfl

/-- A packet that has only been prepared enters its queue like itself (R313). -/
theorem enqueue_like {u : State} {c d : Cmd} (h : c ∈ u.cmds) (ho : d.order = c.order) (hp : d.pkt = c.pkt) (hr : d.run = c.run) :
    classQueued u (u.enqueue d).settle c := by
  have hsame : (u.setCmd d).enqueue d = u.enqueue d := by
    unfold State.enqueue
    dsimp only
    rw [tookTurn_setCmd, setCmd_setCmd _ (show d.order = ({ d with disp := some ((u.tookTurn d).setCmd d).nextOrder, stage := .queued } : Cmd).order from rfl)]
    rfl
  have hd : d ∈ (u.setCmd d).cmds := List.mem_map.2 ⟨c, h, if_pos ho.symm⟩
  have hq := enqueue_queued hd
  rw [hsame] at hq
  obtain ⟨hown, hstill, hpair⟩ := hq
  rw [ho, hp, hr] at hown
  exact ⟨hown, hstill, hpair⟩

theorem prepared_parts (c : Cmd) (n : Nat) : (c.prepared n).order = c.order ∧ (c.prepared n).pkt = c.pkt ∧ (c.prepared n).run = c.run := by
  unfold Cmd.prepared
  split <;> exact ⟨rfl, rfl, rfl⟩

theorem fillRow_dispatches {u : State} {r op n : Nat} {c : Cmd} {ok : List Byte → Bool} (start : State → Cmd → State) (unit : State → State)
    (hf : u.classFront r op = some c) (hk : ok c.run = true) :
    u.fillRow r c.seq op ok n start unit = (u.enqueue (c.prepared u.acre.cEff)).settle := by
  unfold State.fillRow
  rw [hf]
  show (if c.seq = c.seq then (if ok c.run then _ else _) else _) = _
  rw [if_pos rfl, if_pos hk]

/-- The dispatch of a fill (R313). -/
theorem fillRow_queued {u : State} {r op n : Nat} {c : Cmd} {ok : List Byte → Bool} (start : State → Cmd → State) (unit : State → State)
    (hf : u.classFront r op = some c) (hk : ok c.run = true) : classQueued u (u.fillRow r c.seq op ok n start unit) c := by
  obtain ⟨h1, h2, h3⟩ := prepared_parts c u.acre.cEff
  rw [fillRow_dispatches start unit hf hk]
  exact enqueue_like (classFront_parts hf).1 h1 h2 h3

/-! ### A fill whose turn it is -/

/-- Fill `c` of ring `r` with SEQ `q` is dispatched, alone under its name, in a block of its own, and has its turn on the Harrow. -/
structure FillTurn (u : State) (r : Nat) (q : U32) (c : Cmd) : Prop where
  ring : c.ring = r
  seq : c.seq = q
  alone : u.alone c
  solo : u.solo
  front : u.classFront r c.op = none
  fillable : u.fillable c = true
  turn : u.harrowTurn c = true

theorem FillTurn.running {u : State} {r : Nat} {q : U32} {c : Cmd} (h : FillTurn u r q c) (hs : c.started = true) : c.stage = .running := by
  have hf := h.fillable
  simp only [State.fillable, hs, if_true, Bool.and_eq_true, beq_iff_eq] at hf
  exact hf.2

theorem FillTurn.row {u : State} {r n : Nat} {q : U32} {c : Cmd} (h : FillTurn u r q c) {ok : List Byte → Bool} (hk : ok c.run = true)
    (start : State → Cmd → State) (unit : State → State) :
    u.fillRow r q c.op ok n start unit = (times unit n (if c.started then u else start u c)).fillOver c := by
  obtain ⟨rfl, rfl, ha, -, hfront, hfill, hturn⟩ := h
  unfold State.fillRow State.onFill
  rw [hfront, ha.cmd]
  exact if_pos ⟨rfl, hk, hfill, hturn⟩

theorem times_fixed {f : State → State} {s : State} (h : f s = s) (n : Nat) : times f n s = s := by
  induction n with
  | zero => rfl
  | succ k ih => rw [times, h, ih]

theorem fillOver_running {s : State} {c : Cmd} (h : s.holds c.order fun d => d.stage = .running) : s.fillOver c = s := by
  obtain ⟨⟨d, hd, ho⟩, hall⟩ := h
  exact if_pos (List.any_eq_true.2 ⟨d, hd, by simp [ho, hall d hd ho]⟩)

theorem fillOver_over {s : State} {c : Cmd} (h : s.holds c.order fun d => d.stage ≠ .running) : s.fillOver c = s.settle :=
  if_neg fun hany => by
    obtain ⟨d, hd, hp⟩ := List.any_eq_true.1 hany
    simp only [Bool.and_eq_true, beq_iff_eq] at hp
    exact h.2 d hd hp.1 hp.2

theorem holds_mono {s : State} {o : Nat} {P Q : Cmd → Prop} (h : s.holds o P) (hpq : ∀ d, P d → Q d) : s.holds o Q :=
  ⟨h.1, fun d hd ho => hpq d (h.2 d hd ho)⟩

/-- A command that stands as `x` in the block. -/
theorem State.alone.holds {s : State} {c : Cmd} (h : s.alone c) {P : Cmd → Prop} (hp : P c) : s.holds c.order P :=
  ⟨⟨c, h.mem, rfl⟩, fun d hd ho => h.order d hd ho ▸ hp⟩

/-- The command replaced under its own name is alone under it. -/
theorem State.alone.setCmd {s : State} {c x : Cmd} (h : s.alone c) (ho : x.order = c.order) (hr : x.ring = c.ring) (hq : x.seq = c.seq) :
    (s.setCmd x).alone x := h.sole.setCmd ho hr hq

theorem State.alone.of_cmds {s t : State} {c : Cmd} (h : s.alone c) (e : t.cmds = s.cmds) : t.alone c :=
  ⟨e ▸ h.mem, e ▸ h.order, e ▸ h.name⟩

theorem perfAdd_cmds (s : State) (n k : Nat) : (s.perfAdd n k).cmds = s.cmds := by
  unfold State.perfAdd
  split <;> rfl

theorem State.alone.perfAdd {s : State} {c : Cmd} (h : s.alone c) (n k : Nat) : (s.perfAdd n k).alone c :=
  h.of_cmds (perfAdd_cmds s n k)

/-! ### What a unit asks for -/

theorem ask_filter (s : State) (g : Range) : s.ask g = { s with queue := s.queue ++ [g].filter fun r => r.len != 0 } := by
  unfold State.ask
  by_cases h : g.len = 0
  · rw [if_pos h]; simp [h]
  · rw [if_neg h]; simp [h]

theorem asks_filter {α : Type} (g : α → Range) (l : List α) (s : State) :
    l.foldl (fun s k => s.ask (g k)) s = { s with queue := s.queue ++ (l.map g).filter fun r => r.len != 0 } := by
  induction l generalizing s with
  | nil => simp
  | cons k l ih =>
    rw [List.foldl_cons, ih, ask_filter]
    simp only [List.append_assoc, List.map_cons]
    rw [← List.filter_append]
    rfl

/-! ### The ends of a fill -/

/-- A command whose commit begins in a block of its own. -/
def Cmd.committing (c : Cmd) : Cmd := { c with stage := .committing, commit := true }

theorem openCommit_solo {s : State} (h : s.solo) (c : Cmd) : s.openCommit c c.reason = s.setCmd c.committing := by
  have hs : (s.setCmd { c with stage := .committing, reason := c.reason, commit := !s.secondary || s.commitHeard c }).solo := h
  have hsec := h.secondary
  unfold State.openCommit State.takeCommit
  rw [if_neg (show ¬ (s.setCmd { c with stage := .committing, reason := c.reason, commit := !s.secondary || s.commitHeard c }).secondary = true by
    show ¬ s.secondary = true
    rw [hsec]; exact Bool.false_ne_true), tell_solo hs, hsec]
  rfl

/-! ### A command rewritten under its own name -/

/-- A command with its fill replaced. -/
def Cmd.filled (c : Cmd) (u : Fill) : Cmd := { c with work := { c.work with fill := u } }

/-- `d` has the name and place of `c`. -/
structure Cmd.SameName (c d : Cmd) : Prop where
  order : d.order = c.order
  ring : d.ring = c.ring
  seq : d.seq = c.seq

theorem Cmd.SameName.trans {a b c : Cmd} (h : SameName a b) (g : SameName b c) : SameName a c :=
  ⟨g.order.trans h.order, g.ring.trans h.ring, g.seq.trans h.seq⟩

theorem Cmd.event_same (c : Cmd) (n k : Nat) : SameName c (c.event n k) := ⟨rfl, rfl, rfl⟩

theorem Cmd.filled_same (c : Cmd) (u : Fill) : SameName c (c.filled u) := ⟨rfl, rfl, rfl⟩

theorem Cmd.countQuant_same (c : Cmd) (q : QCount) (n : Nat) : SameName c (c.countQuant q n) := ⟨rfl, rfl, rfl⟩

@[simp] theorem Cmd.event_stage (c : Cmd) (n k : Nat) : (c.event n k).stage = c.stage := rfl
@[simp] theorem Cmd.event_reason (c : Cmd) (n k : Nat) : (c.event n k).reason = c.reason := rfl
@[simp] theorem Cmd.event_run (c : Cmd) (n k : Nat) : (c.event n k).run = c.run := rfl
@[simp] theorem Cmd.event_op (c : Cmd) (n k : Nat) : (c.event n k).op = c.op := rfl
@[simp] theorem Cmd.event_work (c : Cmd) (n k : Nat) : (c.event n k).work = c.work := rfl
@[simp] theorem Cmd.filled_stage (c : Cmd) (u : Fill) : (c.filled u).stage = c.stage := rfl
@[simp] theorem Cmd.filled_reason (c : Cmd) (u : Fill) : (c.filled u).reason = c.reason := rfl
@[simp] theorem Cmd.filled_run (c : Cmd) (u : Fill) : (c.filled u).run = c.run := rfl
@[simp] theorem Cmd.filled_op (c : Cmd) (u : Fill) : (c.filled u).op = c.op := rfl
@[simp] theorem Cmd.filled_fill (c : Cmd) (u : Fill) : (c.filled u).work.fill = u := rfl
@[simp] theorem Cmd.filled_counts (c : Cmd) (u : Fill) : (c.filled u).work.counts = c.work.counts := rfl
@[simp] theorem Cmd.countQuant_stage (c : Cmd) (q : QCount) (n : Nat) : (c.countQuant q n).stage = c.stage := rfl
@[simp] theorem Cmd.countQuant_reason (c : Cmd) (q : QCount) (n : Nat) : (c.countQuant q n).reason = c.reason := rfl
@[simp] theorem Cmd.countQuant_run (c : Cmd) (q : QCount) (n : Nat) : (c.countQuant q n).run = c.run := rfl
@[simp] theorem Cmd.countQuant_op (c : Cmd) (q : QCount) (n : Nat) : (c.countQuant q n).op = c.op := rfl
@[simp] theorem Cmd.countQuant_fill (c : Cmd) (q : QCount) (n : Nat) : (c.countQuant q n).work.fill = c.work.fill := rfl

section
variable {s : State} {c d : Cmd} (h : s.alone c) (hd : Cmd.SameName c d)
include h hd

theorem State.alone.named : (s.setCmd d).alone d := h.setCmd hd.order hd.ring hd.seq

theorem State.alone.cmd_setCmd : (s.setCmd d).cmd c.ring c.seq = some d := by
  have e := (h.named hd).cmd
  rwa [hd.ring, hd.seq] at e

theorem State.alone.setCmd_modCmd {f : Cmd → Cmd} (hf : (f d).order = d.order) : (s.setCmd d).modCmd c.ring c.seq f = s.setCmd (f d) := by
  have e := (h.named hd).modCmd f
  rw [hd.ring, hd.seq] at e
  rw [e, setCmd_setCmd s hf.symm]

theorem State.alone.setCmd_modFill (g : Fill → Fill) : (s.setCmd d).modFill c g = s.setCmd (d.filled (g d.work.fill)) :=
  h.setCmd_modCmd hd (f := fun d : Cmd => d.filled (g d.work.fill)) rfl

theorem State.alone.setCmd_event (hs : d.stage ≠ .finished) (n k : Nat) : (s.setCmd d).event c.ring c.seq n k = s.setCmd (d.event n k) := by
  have e := (h.named hd).event hs n k
  rw [hd.ring, hd.seq] at e
  rw [e]
  exact setCmd_setCmd s (d.event_same n k).order.symm

/-- What holds of the command as it is rewritten. -/
theorem State.alone.setCmd_holds {P : Cmd → Prop} (hp : P d) : (s.setCmd d).holds c.order P := hd.order ▸ (h.named hd).holds hp

end

theorem perfAdd_setCmd (s : State) (d : Cmd) (n k : Nat) : (s.setCmd d).perfAdd n k = (s.perfAdd n k).setCmd d := by
  show (if s.boot.ready && k != 0 then _ else s.setCmd d) = _
  unfold State.perfAdd
  split <;> rfl

/-- Elements that pass the Harrow lanes for a command. -/
theorem State.alone.harrowElems {s : State} {c : Cmd} (h : s.alone c) (hs : c.stage ≠ .finished) (n : Nat) :
    s.harrowElems c n = (s.perfAdd 17 n).setCmd (c.event 10 n) := by
  unfold State.harrowElems
  rw [h.event hs, perfAdd_setCmd]

/-! ### The frame of a row -/

/-- `t` has the registers that every row keeps from `s`. -/
structure SameBase (s t : State) : Prop where
  pending : t.pending = s.pending
  build : t.build = s.build
  mem : t.mem = s.mem

theorem tick_base (s : State) (now : Time) : SameBase s (s.tick now) := ⟨tick_pending s now, tick_build s now, tick_mem s now⟩

theorem SameBase.after {s u t : State} (h : SameBase u t) (g : SameBase s u) : SameBase s t :=
  ⟨h.pending.trans g.pending, h.build.trans g.build, h.mem.trans g.mem⟩

/-- `t` is `u` but for its commands and for the named registers, those that a fill may change: the fields, the queue of the movers, the
counters, the totals and the poisoned words. -/
def State.framed (u t : State) (fs : Tbl Field) (q : List Range) (p : Perf) (x : Totals) (w : List (Nat × Nat)) : Prop :=
  t = { u with cmds := t.cmds, fields := fs, queue := q, perf := p, totals := x, granary := { u.granary with poison := w } }

theorem State.framed.refl (u : State) : u.framed u u.fields u.queue u.perf u.totals u.granary.poison := Eq.refl _

section
variable {u t : State} {fs : Tbl Field} {q : List Range} {p : Perf} {x : Totals} {w : List (Nat × Nat)} (h : u.framed t fs q p x w)
include h

theorem State.framed.setCmd (d : Cmd) : u.framed (t.setCmd d) fs q p x w := by
  unfold State.framed at h
  rw [h]
  exact Eq.refl _

theorem State.framed.modField (i : Nat) (g : Field → Field) : u.framed (t.modField i g) (t.modField i g).fields q p x w := by
  unfold State.framed at h
  rw [h]
  exact Eq.refl _

theorem State.framed.countQuant (k : QCount) (n : Nat) : u.framed (t.countQuant k n) fs q p (t.countQuant k n).totals w := by
  unfold State.framed at h
  rw [h]
  exact Eq.refl _

theorem State.framed.withQueue (q : List Range) : u.framed { t with queue := q } fs q p x w := by
  unfold State.framed at h
  rw [h]
  exact Eq.refl _

theorem State.framed.withPoison (w : List (Nat × Nat)) : u.framed { t with granary := { t.granary with poison := w } } fs q p x w := by
  unfold State.framed at h
  rw [h]
  exact Eq.refl _

theorem State.framed.perfAdd (n k : Nat) : u.framed (t.perfAdd n k) fs q (t.perfAdd n k).perf x w := by
  obtain ⟨p, e⟩ := perfAdd_frame t n k
  unfold State.framed at h
  rw [e, h]
  exact Eq.refl _

theorem State.framed.base : SameBase u t := by
  unfold State.framed at h
  rw [h]
  exact ⟨.refl _, .refl _, .refl _⟩

theorem State.framed.named : t.fields = fs ∧ t.queue = q ∧ t.perf = p ∧ t.totals = x ∧ t.granary.poison = w := by
  unfold State.framed at h
  rw [h]
  exact ⟨.refl _, .refl _, .refl _, .refl _, .refl _⟩

theorem State.framed.self_fields : u.framed t t.fields q p x w := by
  obtain ⟨rfl, -⟩ := h.named
  exact h

theorem State.framed.self_queue : u.framed t fs t.queue p x w := by
  obtain ⟨-, rfl, -⟩ := h.named
  exact h

theorem State.framed.self_perf : u.framed t fs q t.perf x w := by
  obtain ⟨-, -, rfl, -⟩ := h.named
  exact h

theorem State.framed.self_totals : u.framed t fs q p t.totals w := by
  obtain ⟨-, -, -, rfl, -⟩ := h.named
  exact h

theorem State.framed.self_poison : u.framed t fs q p x t.granary.poison := by
  obtain ⟨-, -, -, -, rfl⟩ := h.named
  exact h

end

theorem Kept.base {s t : State} (h : Kept s t) : SameBase s t :=
  ⟨(congrArg State.pending h.lasting :), (congrArg State.build h.lasting :), (congrArg State.mem h.lasting :)⟩

theorem SameBase.of_still {s u t : State} (h : SameBase s u) (k : u.sameStill t) : SameBase s t :=
  ⟨(still_pending k.1).trans h.pending, (still_build k.1).trans h.build, (still_mem k.1).trans h.mem⟩

theorem SameBase.keep {s t : State} (h : SameBase s t) : s.keep t = t := keep_id h.pending h.build h.mem

theorem SameBase.keep_settle {s t : State} (h : SameBase s t) : s.keep t.settle = t.settle :=
  Machine.keep_settle h.pending h.build h.mem

/-- A row that leaves its command running ends at once. -/
theorem SameBase.keep_running {s t : State} {c : Cmd} (h : SameBase s t) (hc : t.holds c.order fun d => d.stage = .running) :
    s.keep (t.fillOver c) = t := by
  rw [fillOver_running hc, h.keep]

/-- A row that ends its command is followed by what comes about by itself. -/
theorem SameBase.keep_over {s t : State} {c : Cmd} (h : SameBase s t) (hc : t.holds c.order fun d => d.stage ≠ .running) :
    s.keep (t.fillOver c) = t.settle := by
  rw [fillOver_over hc, h.keep_settle]

/-! ### A refusal at the start -/

/-- No packet of the name runs. -/
def State.idle (s : State) (r : Nat) (q : U32) : Prop := ∀ d, s.cmd r q = some d → d.stage ≠ .running

theorem idle_of_alone {s : State} {c : Cmd} (h : s.alone c) (hs : c.stage ≠ .running) : s.idle c.ring c.seq := fun d hd => by
  rw [h.cmd] at hd
  cases hd
  exact hs

theorem refuse_idle {s : State} {c : Cmd} (h : s.alone c) (x : Reason) : (s.refuse c x).idle c.ring c.seq := by
  obtain ⟨u, hu, e⟩ := refuse_cmds s c x
  obtain ⟨d, ed, ho, hf, -⟩ := finish_cmds u c x bodyZero
  intro y hy
  obtain ⟨hr, hq⟩ := cmd_name hy
  have hm := cmd_mem hy
  rw [e, ed] at hm
  obtain ⟨z, hz, rfl⟩ := List.mem_map.1 hm
  split at hr
  · rename_i hzo
    rw [if_pos hzo, hf]
    decide
  · rename_i hzo
    rw [if_neg hzo] at hq
    exact absurd (by rw [h.name z (hu ▸ hz) hr hq, ho]) hzo

theorem refuse_sameStill (s : State) (c : Cmd) (x : Reason) : s.sameStill (s.refuse c x).settle := by
  have h1 := (refuse_quiet s c).adv.same
  have h2 := (finish_still ((if c.op = opCtxRestore then
    { s with streams := { s.streams with frames := s.streams.frames.filter fun e => !(e == (c.ring, c.seq)) } } else s).dropQueued c.ring c.seq) c x bodyZero).1
  have h3 := (settle_adv (s.refuse c x)).same
  exact ⟨h3.1.trans (h2.1.trans h1.1), fun r => (h3.2.1 r).trans ((h2.2.1 r).trans (h1.2.1 r)), fun n => (h3.2.2 n).trans ((h2.2.2 n).trans (h1.2.2 n))⟩

theorem refuse_over {s : State} {c : Cmd} (h : c ∈ s.cmds) (x : Reason) : (s.refuse c x).holds c.order fun d => d.stage ≠ .running := by
  obtain ⟨u, hu, e⟩ := refuse_cmds s c x
  rw [e]
  exact holds_mono (finish_own x bodyZero ⟨c, hu ▸ h, rfl⟩) fun d hd hr => by rw [hd.1] at hr; cases hr

/-- A fill refused at its start ends; the units of its row find nothing to do. -/
theorem refused_row {s u : State} {c : Cmd} {x : Reason} {unit : State → State} (hb : SameBase s u) (h : u.alone c)
    (hunit : ∀ t : State, t.idle c.ring c.seq → unit t = t) (n : Nat) :
    s.keep ((times unit n (u.refuse c x)).fillOver c) = (u.refuse c x).settle ∧ u.sameStill (u.refuse c x).settle ∧
      (u.refuse c x).settle.holds c.order (Cmd.endedWith x (cplBody [])) := by
  have hs := refuse_sameStill u c x
  rw [times_fixed (hunit _ (refuse_idle h x)) n, fillOver_over (refuse_over h.mem x)]
  exact ⟨(hb.of_still hs).keep, hs, refuse_ended h.mem x⟩

/-! ### Fields that one row changes -/

/-- Of the fields only field `i` changes, to `g`. -/
def State.onlyField (u t : State) (i : Nat) (g : Field) : Prop := t.field i = g ∧ ∀ k, k ≠ i → t.field k = u.field k

theorem onlyField_of {u t : State} {i : Nat} {m : Field → Field} (e : t.fields = (u.modField i m).fields) : u.onlyField t i (m (u.field i)) := by
  have h (k : Nat) : t.field k = (u.modField i m).field k := congrArg (fun l => tblGet fieldReset l k) e
  exact ⟨(h i).trans (modField_field_same u i m), fun k hk => (h k).trans (modField_field_ne u m hk)⟩

theorem onlyField_from {u v t : State} {i : Nat} {m : Field → Field} (hv : v.fields = u.fields) (e : t.fields = (v.modField i m).fields) :
    u.onlyField t i (m (u.field i)) := by
  refine onlyField_of ?_
  rw [e, State.modField_fields, State.modField_fields, hv]

theorem onlyField_then {u v t : State} {i : Nat} {g : Field} {m : Field → Field} (h : u.onlyField v i g) (e : t.fields = (v.modField i m).fields) :
    u.onlyField t i (m g) := by
  obtain ⟨hi, hk⟩ := onlyField_of e
  exact ⟨h.1 ▸ hi, fun k hne => (hk k hne).trans (h.2 k hne)⟩

/-! ### A row of one unit -/

section
variable {s u t : State} {r : Nat} {q : U32} {c : Cmd} (hb : SameBase s u) (h : FillTurn u r q c) {ok : List Byte → Bool} (hk : ok c.run = true)
  {start : State → Cmd → State} {unit : State → State}
include hb h hk

/-- A fill refused at its start: the units of its row find nothing to do. -/
theorem FillTurn.refused {n : Nat} {x : Reason} (hs : c.started = false) (e : start u c = u.refuse c x) (hi : ∀ t : State, t.idle r q → unit t = t) :
    ∃ t, s.keep (u.fillRow r q c.op ok n start unit) = t ∧ u.sameStill t ∧ t.holds c.order (Cmd.endedWith x (cplBody [])) := by
  obtain ⟨h1, h2, h3⟩ := refused_row (x := x) hb h.alone (h.ring ▸ h.seq ▸ hi) n
  rw [h.row hk, hs]
  show ∃ t, s.keep ((times unit n (start u c)).fillOver c) = t ∧ _
  rw [e, h1]
  exact ⟨_, rfl, h2, h3⟩

/-- The start of a fill that goes on. -/
theorem FillTurn.start_goes (hs : c.started = false) (e : start u c = t) (ht : SameBase u t) (hc : t.holds c.order fun d => d.stage = .running) :
    s.keep (u.fillRow r q c.op ok 0 start unit) = t := by
  rw [h.row hk, hs]
  show s.keep ((start u c).fillOver c) = _
  rw [e]
  exact (ht.after hb).keep_running hc

/-- The start of a fill that ends. -/
theorem FillTurn.start_ends (hs : c.started = false) (e : start u c = t) (ht : SameBase u t) (hc : t.holds c.order fun d => d.stage ≠ .running) :
    s.keep (u.fillRow r q c.op ok 0 start unit) = t.settle := by
  rw [h.row hk, hs]
  show s.keep ((start u c).fillOver c) = _
  rw [e]
  exact (ht.after hb).keep_over hc

/-- A unit after which the fill goes on. -/
theorem FillTurn.unit_goes (hs : c.started = true) (e : unit u = t) (ht : SameBase u t) (hc : t.holds c.order fun d => d.stage = .running) :
    s.keep (u.fillRow r q c.op ok 1 start unit) = t := by
  rw [h.row hk, hs]
  show s.keep ((unit u).fillOver c) = _
  rw [e]
  exact (ht.after hb).keep_running hc

/-- A unit that ends the fill; the row's others find nothing to do. -/
theorem FillTurn.unit_ends (hs : c.started = true) (e : unit u = t) (ht : SameBase u t)
    (hc : t.holds c.order fun d => d.stage ≠ .running) {n : Nat} (hn : times unit n t = t) : s.keep (u.fillRow r q c.op ok (n + 1) start unit) = t.settle := by
  rw [h.row hk, hs]
  show s.keep ((times unit n (unit u)).fillOver c) = _
  rw [e, hn]
  exact (ht.after hb).keep_over hc

end

end Sys2Proof.Machine
end

section
/-! PROOF. What the rows of LOAD_HEAD do (R42, R54, R104, R107 to R109, R354). -/

namespace Sys2Proof.Machine

/-! ### The start -/

/-- The read of unit `k` of a LOAD_HEAD with index `i`: a swath record, or a block row of an array (R107, R353). -/
def loadRange (c : Cmd) (f : Field) (k i : Nat) : Range :=
  if pkLoadFmt c.run = 0 then readRange .loadSrc c i (leNat c.run 48 8 + (f.first + k) * 516 * f.h) (516 * f.h)
  else readRange .loadSrc c i (leNat c.run 48 8 + browFirst f k * f.h * loadElem c.run) (browRows f k * f.h * loadElem c.run)

theorem askUnit_eq (s : State) (c : Cmd) (f : Field) (k i : Nat) :
    s.askUnit c f k i = { s with queue := s.queue ++ [loadRange c f k i].filter fun r => r.len != 0 } := by
  rw [← ask_filter]
  unfold State.askUnit loadRange
  dsimp only
  split <;> rfl

/-- The reads of every block row of an array, with indices from `i`. -/
def loadRanges (c : Cmd) (f : Field) (i : Nat) : List Range :=
  ((List.range (64 * f.n)).map fun k => loadRange c f k (i + k)).filter fun r => r.len != 0

theorem askBrows_eq (s : State) (c : Cmd) (f : Field) (i : Nat) : s.askBrows c f i = { s with queue := s.queue ++ loadRanges c f i } := by
  have hask (s : State) (k : Nat) : s.askUnit c f k (i + k) = s.ask (loadRange c f k (i + k)) := by rw [askUnit_eq, ask_filter]
  unfold State.askBrows loadRanges
  simp only [hask]
  exact asks_filter _ _ s

/-- The descriptor that a LOAD_HEAD writes as it starts (R104, R353). -/
def loadField (p : List Byte) (base units : Nat) (stream : Bool) : Field := { packetField p with
  state := 1, stream := stream, base := base, units := units
  eRow := if pkLoadFmt p = 0 then pkERow p else globalExp .e2m1 (pkLoadAmax p) }

/-- A LOAD_HEAD as it starts. -/
def Cmd.loading (c : Cmd) (base units : Nat) : Cmd := { c with started := true, stage := .running, work := { c.work with
  fill := { c.work.fill with
    m := pkLoadAmax c.run, gathered := pkLoadFmt c.run = 0 || !fpIsZero (pkLoadAmax c.run), base := base, units := units } } }

/-- The block with the field and the command of a LOAD_HEAD that starts. -/
def State.loadBegun (s : State) (c : Cmd) (base units : Nat) (stream : Bool) : State :=
  (s.modField (pkField c.run) fun _ => loadField c.run base units stream).setCmd (c.loading base units)

theorem loadStart_refused {s : State} {c : Cmd} {r : Reason}
    (h : s.loadReason c.run = some r ∨ s.loadReason c.run = none ∧ s.loadPlace c.run = .error r) : s.loadStart c = s.refuse c r := by
  unfold State.loadStart
  dsimp only
  rcases h with h | ⟨h, hp⟩
  · rw [h]
  · rw [h]
    dsimp only
    rw [hp]

theorem loadStart_stored {s : State} {c : Cmd} {base units : Nat} (h : s.loadReason c.run = none)
    (hp : s.loadPlace c.run = .ok (base, units, false)) : s.loadStart c =
      { s.loadBegun c base units false with queue := s.queue ++ (if pkLoadFmt c.run = 0
        then [loadRange c (loadField c.run base units false) 0 0].filter fun r => r.len != 0
        else loadRanges c (loadField c.run base units false) 0) } := by
  unfold State.loadStart
  dsimp only
  rw [h]
  dsimp only
  rw [hp]
  show (if pkLoadFmt c.run = 0 then (s.loadBegun c base units false).askUnit (c.loading base units) (loadField c.run base units false) 0 0
    else (s.loadBegun c base units false).askBrows (c.loading base units) (loadField c.run base units false) 0) = _
  split
  · exact askUnit_eq _ _ _ _ _
  · exact askBrows_eq _ _ _ _

theorem loadStart_stream {s : State} {c : Cmd} {base units : Nat} (h : s.loadReason c.run = none)
    (hp : s.loadPlace c.run = .ok (base, units, true)) : s.loadStart c =
      (s.loadBegun c base units true).loadDone (c.loading base units) (if fpIsZero (pkLoadAmax c.run) then fpZero else pkLoadAmax c.run) := by
  unfold State.loadStart
  dsimp only
  rw [h]
  dsimp only
  rw [hp]
  rfl

/-! ### The end -/

/-- The Granary with the words of a stored field no longer poisoned (R114). -/
def State.rewritten (s : State) (f : Field) : State := if f.stream then s else s.unpoison f

theorem rewritten_frame (s : State) (f : Field) : ∃ p, s.rewritten f = { s with granary := { s.granary with poison := p } } := by
  unfold State.rewritten
  split
  · exact ⟨_, rfl⟩
  · exact ⟨_, rfl⟩

theorem loadDone_eq {s : State} (hs : s.solo) (c : Cmd) (amax : F32) :
    s.loadDone c amax = ((s.rewritten (s.fieldOf c)).modField (pkField c.run) (fieldReady amax)).setCmd c.committing := by
  have hsolo : ((s.rewritten (s.fieldOf c)).modField (pkField c.run) (fieldReady amax)).solo := by
    obtain ⟨p, e⟩ := rewritten_frame s (s.fieldOf c)
    rw [e]; exact hs
  unfold State.loadDone
  exact openCommit_solo hsolo c

/-! ### A unit -/

section
variable {s : State} {c : Cmd} (h : s.alone c) (hs : c.stage = .running)
include h hs

theorem loadRecord_eq (k : Nat) : s.loadRecord c k =
    (let f := s.fieldOf c
     let rows := s.recordRead c f k
     (s.modField (pkField c.run) fun f => { f with swaths := f.swaths ++ [rows] }).setCmd ((c.event 5 (tileWords f.h)).filled { c.work.fill with
      done := k + 1, amax := if fpIsZero (pkLoadAmax c.run) then blocksMax f.eRow rows c.work.fill.amax else pkLoadAmax c.run })) := by
  have hf : c.stage ≠ .finished := by rw [hs]; decide
  unfold State.loadRecord
  dsimp only
  generalize s.recordRead _ _ _ = rows
  have hm : (s.modField (pkField c.run) fun f => { f with swaths := f.swaths ++ [rows] }).alone c := h.of_cmds rfl
  rw [hm.event hf]
  exact hm.setCmd_modFill (c.event_same _ _) fun _ => _

theorem gatherBrow_eq (k : Nat) : s.gatherBrow c k =
    (let f := s.fieldOf c
     (s.perfAdd 17 (browRows f k * f.h)).setCmd ((c.event 10 (browRows f k * f.h)).filled { c.work.fill with
        done := k + 1, amax := rowsMax (s.arrayRows c.run f k).1 c.work.fill.amax })) := by
  have hf : c.stage ≠ .finished := by rw [hs]; decide
  unfold State.gatherBrow
  dsimp only
  rw [h.harrowElems hf]
  exact (h.perfAdd _ _).setCmd_modFill (c.event_same _ _) fun u =>
    { u with done := k + 1, amax := rowsMax (s.arrayRows c.run (s.fieldOf c) k).1 u.amax }

end

theorem countQuant_setCmd (s : State) (d : Cmd) (q : QCount) (n : Nat) : (s.setCmd d).countQuant q n = (s.countQuant q n).setCmd d := rfl

theorem modField_setCmd (s : State) (d : Cmd) (i : Nat) (g : Field → Field) : (s.setCmd d).modField i g = (s.modField i g).setCmd d := rfl

/-- The blocks and counts of block row `k` of an array (R54). -/
def State.converted (s : State) (c : Cmd) (f : Field) (k : Nat) : List Blk × QCount :=
  convertBrow f.eRow (weightDraw (pktBit c.run 33 4) (le64 c.run 64) (leNat c.run 34 2)) (browFirst f k) f.h (s.arrayRows c.run f k).1

/-- A LOAD_HEAD after the conversion of block row `k`, whose maximum is `m`. -/
def Cmd.convertedRow (c : Cmd) (elems words : Nat) (q : QCount) (bad k : Nat) (m : F32) : Cmd :=
  (((c.event 10 elems).event 5 words).countQuant q bad).filled { c.work.fill with done := k + 1, amax := m }

theorem Cmd.convertedRow_same (c : Cmd) (elems words : Nat) (q : QCount) (bad k : Nat) (m : F32) :
    SameName c (c.convertedRow elems words q bad k m) :=
  (((c.event_same 10 elems).trans (Cmd.event_same _ 5 words)).trans (Cmd.countQuant_same _ q bad)).trans (Cmd.filled_same _ _)

theorem convertRow_eq {s : State} {c : Cmd} (h : s.alone c) (hs : c.stage = .running) (k : Nat) : s.convertRow c k =
    (let f := s.fieldOf c
     let q := (s.converted c f k).2
     let bad := (s.arrayRows c.run f k).2
     (((s.perfAdd 17 (browRows f k * f.h)).countQuant q bad).modField (pkField c.run) (addBrow k (s.converted c f k).1)).setCmd
      (c.convertedRow (browRows f k * f.h) (f.h / 4) q bad k (rowsMax (s.arrayRows c.run f k).1 c.work.fill.amax))) := by
  have hf : c.stage ≠ .finished := by rw [hs]; decide
  have hp := h.perfAdd 17 (browRows (s.fieldOf c) k * (s.fieldOf c).h)
  unfold State.convertRow State.converted
  dsimp only
  rw [h.harrowElems hf, hp.setCmd_event (c.event_same _ _) hf, countQuant_setCmd, modField_setCmd]
  generalize s.perfAdd 17 _ = v at hp ⊢
  generalize convertBrow _ _ _ _ _ = bq
  generalize s.arrayRows _ _ _ = rb
  have hv : ((v.countQuant bq.2 rb.2).modField (pkField c.run) (addBrow k bq.1)).alone c := hp.of_cmds rfl
  refine (hv.setCmd_modCmd ((c.event_same _ _).trans (Cmd.event_same _ _ _)) (f := fun d : Cmd => (d.countQuant bq.2 rb.2).filled
    { (d.countQuant bq.2 rb.2).work.fill with done := k + 1, amax := rowsMax rb.1 (d.countQuant bq.2 rb.2).work.fill.amax })
    ((Cmd.countQuant_same _ _ _).trans (Cmd.filled_same _ _)).order).trans ?_
  simp only [Cmd.countQuant_fill, Cmd.event_work]
  rfl

end Sys2Proof.Machine
end

section
/-! PROOF. A unit of LOAD_HEAD (R42, R54, R107, R108, R354). -/

namespace Sys2Proof.Machine

theorem loadUnit_idle {s : State} {r : Nat} {q : U32} (h : s.idle r q) : s.loadUnit r q = s := by
  unfold State.loadUnit
  split
  · rfl
  · rename_i c hc
    exact if_pos (.inr (h c hc))

/-- Where a unit of a running LOAD_HEAD leaves its command (R42, R107). -/
def State.loadWork (s : State) (c : Cmd) : State :=
  if pkLoadFmt c.run = 0 then s.loadRecord c c.work.fill.done
  else if c.work.fill.gathered then s.convertRow c c.work.fill.done else s.gatherBrow c c.work.fill.done

/-- The fault of the swath record that a unit takes (R108). -/
def State.loadFault (s : State) (c : Cmd) : Option Reason :=
  if pkLoadFmt c.run = 0 then recordFault (s.fieldOf c) c.work.fill.done (s.recordRead c (s.fieldOf c) c.work.fill.done) else none

/-- The reads of a running LOAD_HEAD's next unit have been answered. -/
structure LoadTurn (s : State) (c : Cmd) : Prop where
  alone : s.alone c
  op : c.op = opLoadHead
  running : c.stage = .running
  read : s.openIdx c.ring c.seq .loadSrc (c.work.fill.done +
    if pkLoadFmt c.run != 0 && c.work.fill.gathered && fpIsZero (pkLoadAmax c.run) then loadUnits (s.fieldOf c) c.run else 0) = false

theorem LoadTurn.unit {s : State} {c : Cmd} (h : LoadTurn s c) : s.loadUnit c.ring c.seq =
    match s.loadFault c with
    | some e => s.endWork c e
    | none => match (s.loadWork c).cmd c.ring c.seq with
      | none => s.loadWork c
      | some d => (s.loadWork c).loadOn (s.fieldOf c) d := by
  unfold State.loadUnit
  rw [h.alone.cmd]
  dsimp only
  rw [if_neg (fun hn => hn.elim (fun x => x h.op) fun x => x h.running), h.read]
  rfl

theorem LoadTurn.faulty {s : State} {c : Cmd} (h : LoadTurn s c) {e : Reason} (hf : s.loadFault c = some e) :
    s.loadUnit c.ring c.seq = s.endWork c e := by
  rw [h.unit, hf]

/-- A unit without a fault goes on with the command it leaves. -/
theorem LoadTurn.sound {s v : State} {c d : Cmd} (h : LoadTurn s c) (hf : s.loadFault c = none) (hw : s.loadWork c = v.setCmd d)
    (hv : v.alone c) (hd : Cmd.SameName c d) : s.loadUnit c.ring c.seq = (v.setCmd d).loadOn (s.fieldOf c) d := by
  rw [h.unit, hf, hw, hv.cmd_setCmd hd]

/-! ### Going on -/

section
variable {s : State} {f : Field} {d : Cmd}

theorem loadOn_record (h : d.work.fill.done < f.n) (hf : pkLoadFmt d.run = 0) :
    s.loadOn f d = { s with queue := s.queue ++ [loadRange d f d.work.fill.done d.work.fill.done].filter fun r => r.len != 0 } := by
  unfold State.loadOn
  rw [if_pos (show d.work.fill.done < loadUnits f d.run by unfold loadUnits; rwa [if_pos hf]), if_pos hf]
  exact askUnit_eq _ _ _ _ _

theorem loadOn_array (h : d.work.fill.done < 64 * f.n) (hf : pkLoadFmt d.run ≠ 0) : s.loadOn f d = s := by
  unfold State.loadOn
  rw [if_pos (show d.work.fill.done < loadUnits f d.run by unfold loadUnits; rwa [if_neg hf]), if_neg hf]

theorem loadOn_last (h : d.work.fill.done = loadUnits f d.run) :
    s.loadOn f d = if d.work.fill.gathered then s.loadDone d d.work.fill.amax else s.gatherDone d := by
  unfold State.loadOn
  rw [if_neg (Nat.not_lt.2 h.ge)]

end

theorem loadRange_same {c d : Cmd} (hd : Cmd.SameName c d) (hr : d.run = c.run) (f : Field) (k i : Nat) : loadRange d f k i = loadRange c f k i := by
  unfold loadRange readRange
  rw [hd.ring, hd.seq, hr]

theorem loadRanges_same {c d : Cmd} (hd : Cmd.SameName c d) (hr : d.run = c.run) (f : Field) (i : Nat) : loadRanges d f i = loadRanges c f i := by
  unfold loadRanges
  simp only [loadRange_same hd hr]

/-- A LOAD_HEAD whose gathering read is over: M is the maximum found (R42). -/
def Cmd.gatherOver (d : Cmd) : Cmd :=
  d.filled { d.work.fill with gathered := true, m := d.work.fill.amax, amax := fpZero, done := 0 }

theorem Cmd.gatherOver_same (d : Cmd) : SameName d d.gatherOver := d.filled_same _

/-- The field with the exponent that the gathering read gives. -/
def gatherScale (d : Cmd) (f : Field) : Field := { f with eRow := globalExp .e2m1 d.work.fill.amax }

theorem gatherDone_setCmd (v : State) (d : Cmd) : (v.setCmd d).gatherDone d =
    { (v.modField (pkField d.run) (gatherScale d)).setCmd d.gatherOver with
      queue := v.queue ++ loadRanges d (gatherScale d (v.fieldOf d)) (64 * (v.fieldOf d).n) } := by
  have hf : ((v.setCmd d).modField (pkField d.run) (gatherScale d)).fieldOf d.gatherOver = gatherScale d (v.fieldOf d) :=
    modField_field_same _ _ _
  show (((v.setCmd d).modField (pkField d.run) (gatherScale d)).setCmd d.gatherOver).askBrows d.gatherOver
    (((v.setCmd d).modField (pkField d.run) (gatherScale d)).fieldOf d.gatherOver)
    (64 * (((v.setCmd d).modField (pkField d.run) (gatherScale d)).fieldOf d.gatherOver).n) = _
  rw [hf, askBrows_eq, loadRanges_same d.gatherOver_same rfl, modField_setCmd, setCmd_setCmd _ (by rfl)]
  rfl

/-- The end of a LOAD_HEAD: the field is complete, and of the Granary only its words' poison goes (R114, R354). -/
theorem loadDone_frame {v : State} (hs : v.solo) (d : Cmd) (amax : F32) : ∃ p, (v.setCmd d).loadDone d amax =
    (({ v with granary := { v.granary with poison := p } } : State).modField (pkField d.run) (fieldReady amax)).setCmd d.committing := by
  obtain ⟨p, e⟩ := rewritten_frame (v.setCmd d) ((v.setCmd d).fieldOf d)
  rw [loadDone_eq (show (v.setCmd d).solo from hs), e]
  exact ⟨p, setCmd_setCmd (({ v with granary := { v.granary with poison := p } } : State).modField (pkField d.run) (fieldReady amax)) rfl⟩

/-- The end of a stream-fed LOAD_HEAD, which has written no word of the Granary. -/
theorem loadDone_stream {v : State} (hs : v.solo) {d : Cmd} (hf : (v.fieldOf d).stream = true) (amax : F32) :
    (v.setCmd d).loadDone d amax = (v.modField (pkField d.run) (fieldReady amax)).setCmd d.committing := by
  rw [loadDone_eq (show (v.setCmd d).solo from hs), State.rewritten, if_pos (show ((v.setCmd d).fieldOf d).stream = true from hf)]
  exact setCmd_setCmd (v.modField (pkField d.run) (fieldReady amax)) rfl

theorem classBody_load {c : Cmd} (h : c.op = opLoadHead) (f : Field) (r : Reason) : classBody f c r = loadBody f c.work := by
  unfold classBody
  dsimp only
  rw [h]
  rfl

theorem loadBody_counts (f : Field) {a b : Work} (h : a.counts = b.counts) : loadBody f a = loadBody f b := by
  unfold loadBody
  rw [h]

/-! ### A faulty record -/

/-- A LOAD_HEAD that has started ends for reason `e` with no merge on it: its field is left EMPTY (R379). -/
theorem endWork_load {s : State} {c : Cmd} {e : Reason} (hc : c ∈ s.cmds) (hop : c.op = opLoadHead) (hst : c.started = true)
    (hsteps : c.work.steps = []) (hm : s.mergeOf c = none) (he : e ≠ .abortedReset) (hv : e ≠ .saved) :
    (s.endWork c e).fields = (s.modField (pkField c.run) fun _ => fieldReset).fields ∧
      (s.endWork c e).holds c.order fun d => d.stage = .finished ∧ d.reason = e := by
  have hat : s.atEnd c e = { c with work := { c.work with converting := false } } := by
    have hcut : s.fillCut c = c := if_neg fun h => absurd (hop ▸ h) (by decide)
    have htok : c.failTokens e = c := if_neg fun h => absurd (hop ▸ h.1) (by decide)
    unfold State.atEnd
    rw [hcut, htok]
  have hleft (v : State) : v.fieldLeft (s.atEnd c e) = v.modField (pkField c.run) fun _ => fieldReset := by
    rw [hat]
    exact if_pos ⟨hop, hst⟩
  rw [endWork_eq, if_neg hv, hleft]
  generalize hw : (s.dropQueued (s.atEnd c e).ring (s.atEnd c e).seq).modField (pkField c.run) (fun _ => fieldReset) = w
  have hwc : w.cmds = s.cmds := by rw [← hw]; rfl
  have hwf : w.fields = (s.modField (pkField c.run) fun _ => fieldReset).fields := by rw [← hw]; rfl
  have hn : ∀ m ∈ s.cmds, ¬ (m.op == opMerge && m.started && m.stage == .running && m.work.merge.tgtRing == c.ring
      && m.work.merge.tgtSeq == c.seq) = true := List.find?_eq_none.1 hm
  have hfin (b : Body) : (w.finish (s.atEnd c e) e b).endMergeOf (s.atEnd c e) (mergeEnd e) = w.finish (s.atEnd c e) e b := by
    obtain ⟨d, hd, ho, hs, -⟩ := finish_cmds w (s.atEnd c e) e b
    have hnone : (w.finish (s.atEnd c e) e b).mergeOf (s.atEnd c e) = none := by
      refine List.find?_eq_none.2 fun m hm => ?_
      rw [hd] at hm
      obtain ⟨x, hx, rfl⟩ := List.mem_map.1 hm
      rw [hat]
      split
      · simp [hs]
      · exact hn x (hwc ▸ hx)
    unfold State.endMergeOf
    rw [hnone]
  have hparts : ∃ b, w.endParts (s.atEnd c e) e = w.finish (s.atEnd c e) e b := by
    have hsteps' : w.stepsAtEnd (s.atEnd c e) e = [] := by
      unfold State.stepsAtEnd
      rw [if_neg fun h => he h.1, hat]
      exact hsteps
    unfold State.endParts
    rw [if_neg (fun h => by rw [hat] at h; exact absurd (hop ▸ h.1) (by decide)), hsteps', if_neg (by simp), hfin]
    exact ⟨_, rfl⟩
  obtain ⟨b, hb⟩ := hparts
  have ho : (s.atEnd c e).order = c.order := by rw [hat]
  rw [hb]
  exact ⟨(still_fields (finish_still _ _ _ _).1.1).trans hwf, ho ▸ finish_own e b ⟨c, hwc ▸ hc, ho.symm⟩⟩

end Sys2Proof.Machine
end

section
/-! PROOF. The rows of LOAD_HEAD (R42, R54, R104, R107 to R109, R354). -/

namespace Sys2Proof.Machine

section
variable {s u : State} {r n : Nat} {q : U32} {c : Cmd} (hb : SameBase s u) (h : FillTurn u r q c) (hop : c.op = opLoadHead)
include hb h hop

/-! ### The start -/

theorem loadHead_refused (hs : c.started = false) {x : Reason}
    (hx : u.loadReason c.run = some x ∨ u.loadReason c.run = none ∧ u.loadPlace c.run = .error x) :
    ∃ t, s.keep (loadHeadDo r q n u) = t ∧ u.sameStill t ∧ t.holds c.order (Cmd.endedWith x (cplBody [])) := by
  unfold loadHeadDo
  rw [← hop]
  exact FillTurn.refused hb h (ok := fun _ => true) rfl hs (loadStart_refused hx) fun _ => loadUnit_idle

theorem loadHead_stored (hs : c.started = false) {base units : Nat} (hx : u.loadReason c.run = none)
    (hp : u.loadPlace c.run = .ok (base, units, false)) :
    (let g := loadField c.run base units false
     ∃ t, s.keep (loadHeadDo r q 0 u) = t ∧
      t = { u with
        cmds := t.cmds, fields := t.fields
        queue := u.queue ++ (if pkLoadFmt c.run = 0 then [loadRange c g 0 0].filter fun r => r.len != 0 else loadRanges c g 0) } ∧
      u.onlyField t (pkField c.run) g ∧
      t.holds c.order fun d => d.stage = .running ∧ d.started = true ∧ d.work.fill.m = pkLoadAmax c.run ∧
        d.work.fill.gathered = (pkLoadFmt c.run = 0 || !fpIsZero (pkLoadAmax c.run))) := by
  intro g
  have ha : (u.modField (pkField c.run) fun _ => g).alone c := h.alone.of_cmds rfl
  have hold {P : Cmd → Prop} (hP : P (c.loading base units)) : (u.loadBegun c base units false).holds c.order P :=
    ha.setCmd_holds (d := c.loading base units) ⟨rfl, rfl, rfl⟩ hP
  have hframe := (((State.framed.refl u).modField (pkField c.run) fun _ => g).setCmd (c.loading base units)).withQueue (u.queue ++
    (if pkLoadFmt c.run = 0 then [loadRange c g 0 0].filter fun r => r.len != 0 else loadRanges c g 0))
  unfold loadHeadDo
  rw [← hop]
  exact ⟨_, FillTurn.start_goes hb h (ok := fun _ => true) rfl hs (loadStart_stored hx hp)
    hframe.base (hold rfl), hframe.self_fields,
    onlyField_of (m := fun _ => g) rfl, hold ⟨rfl, rfl, rfl, rfl⟩⟩

theorem loadHead_stream (hs : c.started = false) {base units : Nat} (hx : u.loadReason c.run = none)
    (hp : u.loadPlace c.run = .ok (base, units, true)) :
    (let m := pkLoadAmax c.run
     let g := loadField c.run base units true
     ∃ v : State, s.keep (loadHeadDo r q 0 u) = v.settle ∧ v = { u with cmds := v.cmds, fields := v.fields } ∧
      u.onlyField v (pkField c.run) { g with state := 2, amax := if fpIsZero m then fpZero else m } ∧
      v.holds c.order fun d => (d.stage = .committing ∧ d.reason = c.reason ∧ d.commit = true) ∧
        classBody (v.field (pkField c.run)) d .ok = loadBody (v.field (pkField c.run)) c.work) := by
  intro m g
  have ha : ((u.modField (pkField c.run) fun _ => g).modField (pkField c.run) (fieldReady (if fpIsZero m then fpZero else m))).alone c :=
    h.alone.of_cmds rfl
  have hd : Cmd.SameName c (c.loading base units).committing := ⟨rfl, rfl, rfl⟩
  have he : u.loadStart c = ((u.modField (pkField c.run) fun _ => g).modField (pkField c.run)
      (fieldReady (if fpIsZero m then fpZero else m))).setCmd (c.loading base units).committing := by
    rw [loadStart_stream hx hp]
    refine loadDone_stream (v := u.modField (pkField c.run) fun _ => g) h.solo (d := c.loading base units) ?_ _
    show ((u.modField (pkField c.run) fun _ => g).field (pkField c.run)).stream = true
    rw [modField_field_same]
    rfl
  have hbody (f : Field) : classBody f (c.loading base units).committing .ok = loadBody f c.work :=
    (classBody_load (c := (c.loading base units).committing) hop f .ok).trans (loadBody_counts f rfl)
  have hframe := ((((State.framed.refl u).modField (pkField c.run) fun _ => g).modField (pkField c.run)
    (fieldReady (if fpIsZero m then fpZero else m))).setCmd (c.loading base units).committing)
  have hover : (c.loading base units).committing.stage ≠ .running := by exact Stage.noConfusion
  unfold loadHeadDo
  rw [← hop]
  exact ⟨_, FillTurn.start_ends hb h (ok := fun _ => true) rfl hs he hframe.base
    (ha.setCmd_holds hd hover), hframe.self_fields, onlyField_then (onlyField_of (m := fun _ => g) rfl) rfl,
    ha.setCmd_holds hd ⟨⟨rfl, rfl, rfl⟩, hbody _⟩⟩

end

end Sys2Proof.Machine
end

section
/-! PROOF. A unit of LOAD_HEAD, what it changes and how it ends (R42, R54, R107, R108, R354). -/

namespace Sys2Proof.Machine

/-- A unit of a LOAD_HEAD leaves command `c` as `d`, with maximum `m`. -/
structure Cmd.LoadStep (c d : Cmd) (m : F32) : Prop where
  same : SameName c d
  run : d.run = c.run
  op : d.op = c.op
  stage : d.stage = c.stage
  reason : d.reason = c.reason
  done : d.work.fill.done = c.work.fill.done + 1
  amax : d.work.fill.amax = m
  gathered : d.work.fill.gathered = c.work.fill.gathered

theorem Cmd.committing_same (c : Cmd) : SameName c c.committing := ⟨rfl, rfl, rfl⟩

section
variable {s u t : State} {r : Nat} {q : U32} {c : Cmd} (hb : SameBase s u) (h : FillTurn u r q c) (hop : c.op = opLoadHead) (hs : c.started = true)
include hb h hop hs

/-- A unit after which the LOAD_HEAD goes on. -/
theorem loadHead_goes (hu : u.loadUnit r q = t) (ht : SameBase u t) (hc : t.holds c.order fun d => d.stage = .running) :
    s.keep (loadHeadDo r q 1 u) = t := by
  unfold loadHeadDo
  rw [← hop]
  exact h.unit_goes hb (ok := fun _ => true) rfl hs hu ht hc

/-- A unit that ends the LOAD_HEAD. -/
theorem loadHead_ends (hu : u.loadUnit r q = t) (ht : SameBase u t) (hc : t.holds c.order fun d => d.stage ≠ .running) :
    s.keep (loadHeadDo r q 1 u) = t.settle := by
  unfold loadHeadDo
  rw [← hop]
  exact h.unit_ends hb (ok := fun _ => true) rfl hs hu ht hc (n := 0) rfl

/-- The last unit completes the field, and the command's commit begins (R354). -/
theorem loadHead_completes {v : State} {d : Cmd} {m : F32} {fs : Tbl Field} {p : Perf} {x : Totals} (hd : Cmd.LoadStep c d m)
    (hu : u.loadUnit r q = (v.setCmd d).loadOn (u.fieldOf c) d) (hlast : c.work.fill.done + 1 = loadUnits (u.fieldOf c) c.run)
    (hg : c.work.fill.gathered = true) (hv : u.framed v fs u.queue p x u.granary.poison) (hva : v.alone c) :
    ∃ w : State, s.keep (loadHeadDo r q 1 u) = w.settle ∧ u.framed w w.fields u.queue p x w.granary.poison ∧
      (∀ g, u.onlyField v (pkField c.run) g → u.onlyField w (pkField c.run) (fieldReady m g)) ∧
      w.holds c.order fun y => (y.stage = .committing ∧ y.reason = c.reason ∧ y.commit = true) ∧ y.work.counts = d.work.counts ∧
        ∀ f, classBody f y .ok = loadBody f d.work := by
  obtain ⟨z, hz⟩ := loadDone_frame (v := v) (by unfold State.framed at hv; rw [hv]; exact h.solo) d d.work.fill.amax
  rw [loadOn_last (by rw [hd.run, hd.done, hlast]), if_pos (hd.gathered.trans hg), hz, hd.run, hd.amax] at hu
  have hw := ((hv.withPoison z).modField (pkField c.run) (fieldReady m)).setCmd d.committing
  have ha : (({ v with granary := { v.granary with poison := z } } : State).modField (pkField c.run) (fieldReady m)).alone c := hva.of_cmds rfl
  have hs' := hd.same.trans d.committing_same
  have hover : d.committing.stage ≠ .running := by exact Stage.noConfusion
  exact ⟨_, loadHead_ends hb h hop hs hu hw.base (ha.setCmd_holds hs' hover), hw.self_fields.self_poison, fun g hg => onlyField_then hg rfl,
    ha.setCmd_holds hs' ⟨⟨rfl, hd.reason, rfl⟩, rfl, fun f => classBody_load (c := d.committing) (hd.op.trans hop) f .ok⟩⟩

end

end Sys2Proof.Machine
end

section
/-! PROOF. The rows of LOAD_HEAD on an image (R42, R107, R108, R354). -/

namespace Sys2Proof.Machine

/-- A LOAD_HEAD after its next swath record. -/
def Cmd.recordTaken (c : Cmd) (words : Nat) (m : F32) : Cmd :=
  (c.event 5 words).filled { c.work.fill with done := c.work.fill.done + 1, amax := m }

theorem Cmd.recordTaken_step (c : Cmd) (words : Nat) (m : F32) : LoadStep c (c.recordTaken words m) m :=
  ⟨⟨rfl, rfl, rfl⟩, rfl, rfl, rfl, rfl, rfl, rfl, rfl⟩

theorem Cmd.recordTaken_counts (c : Cmd) (words : Nat) (m : F32) : (c.recordTaken words m).work.counts = c.work.counts := rfl

/-- A field with the blocks of one more swath. -/
def addSwath (rows : List (List Blk)) (f : Field) : Field := { f with swaths := f.swaths ++ [rows] }

/-- AMAX as a record of an image leaves it (R42). -/
def recordAmax (c : Cmd) (f : Field) (rows : List (List Blk)) : F32 :=
  if fpIsZero (pkLoadAmax c.run) then blocksMax f.eRow rows c.work.fill.amax else pkLoadAmax c.run

/-- The swath record that a LOAD_HEAD takes next. -/
def State.nextRecord (u : State) (c : Cmd) : List (List Blk) := u.recordRead c (u.fieldOf c) c.work.fill.done

section
variable {s u : State} {r : Nat} {q : U32} {c : Cmd} (hb : SameBase s u) (h : FillTurn u r q c) (hop : c.op = opLoadHead) (hs : c.started = true)
  (hf : pkLoadFmt c.run = 0) (hr : u.openIdx r q .loadSrc c.work.fill.done = false)
include h hop hs hf hr

theorem FillTurn.record_turn : LoadTurn u c := by
  refine ⟨h.alone, hop, h.running hs, ?_⟩
  rw [h.ring, h.seq, hf]
  exact hr

/-- A record without a fault (R108). -/
theorem FillTurn.record_unit (hg : u.loadFault c = none) : ∃ words,
    u.loadUnit r q = ((u.modField (pkField c.run) (addSwath (u.nextRecord c))).setCmd
      (c.recordTaken words (recordAmax c (u.fieldOf c) (u.nextRecord c)))).loadOn (u.fieldOf c)
      (c.recordTaken words (recordAmax c (u.fieldOf c) (u.nextRecord c))) := by
  have hw : u.loadWork c = (u.modField (pkField c.run) (addSwath (u.nextRecord c))).setCmd
      (c.recordTaken (tileWords (u.fieldOf c).h) (recordAmax c (u.fieldOf c) (u.nextRecord c))) := by
    unfold State.loadWork
    rw [if_pos hf, loadRecord_eq h.alone (h.running hs)]
    rfl
  have e := (h.record_turn hop hs hf hr).sound hg hw (h.alone.of_cmds rfl) (c.recordTaken_step _ _).same
  rw [h.ring, h.seq] at e
  exact ⟨_, e⟩

include hb

theorem loadHead_recordNext (hg : u.loadFault c = none) (hn : c.work.fill.done + 1 < (u.fieldOf c).n) :
    ∃ t, s.keep (loadHeadDo r q 1 u) = t ∧
      u.framed t t.fields (u.queue ++ [loadRange c (u.fieldOf c) (c.work.fill.done + 1) (c.work.fill.done + 1)].filter fun r => r.len != 0)
        u.perf u.totals u.granary.poison ∧
      u.onlyField t (pkField c.run) (addSwath (u.nextRecord c) (u.fieldOf c)) ∧
      t.holds c.order fun d => d.stage = .running ∧ d.work.fill.done = c.work.fill.done + 1 ∧
        d.work.fill.amax = recordAmax c (u.fieldOf c) (u.nextRecord c) := by
  obtain ⟨words, hu⟩ := h.record_unit hop hs hf hr hg
  have hd := c.recordTaken_step words (recordAmax c (u.fieldOf c) (u.nextRecord c))
  generalize c.recordTaken words _ = d at hd hu
  have ha : (u.modField (pkField c.run) (addSwath (u.nextRecord c))).alone c := h.alone.of_cmds rfl
  have hrun : d.stage = .running := hd.stage.trans (h.running hs)
  rw [loadOn_record (hd.done.symm ▸ hn) (hd.run.symm ▸ hf), loadRange_same hd.same hd.run, hd.done] at hu
  have hframe := (((State.framed.refl u).modField (pkField c.run) (addSwath (u.nextRecord c))).setCmd d).withQueue (u.queue ++
    [loadRange c (u.fieldOf c) (c.work.fill.done + 1) (c.work.fill.done + 1)].filter fun r => r.len != 0)
  exact ⟨_, loadHead_goes hb h hop hs hu hframe.base (ha.setCmd_holds hd.same hrun), hframe.self_fields, onlyField_of rfl,
    ha.setCmd_holds hd.same ⟨hrun, hd.done, hd.amax⟩⟩

theorem loadHead_recordLast (hg : u.loadFault c = none) (hn : c.work.fill.done + 1 = (u.fieldOf c).n) (hw : c.work.fill.gathered = true) :
    ∃ v : State, s.keep (loadHeadDo r q 1 u) = v.settle ∧ u.framed v v.fields u.queue u.perf u.totals v.granary.poison ∧
      u.onlyField v (pkField c.run) (fieldReady (recordAmax c (u.fieldOf c) (u.nextRecord c)) (addSwath (u.nextRecord c) (u.fieldOf c))) ∧
      v.holds c.order fun d => (d.stage = .committing ∧ d.reason = c.reason ∧ d.commit = true) ∧
        ∀ f, classBody f d .ok = loadBody f c.work := by
  obtain ⟨words, hu⟩ := h.record_unit hop hs hf hr hg
  have hc := c.recordTaken_counts words (recordAmax c (u.fieldOf c) (u.nextRecord c))
  have hlast : c.work.fill.done + 1 = loadUnits (u.fieldOf c) c.run := by unfold loadUnits; rwa [if_pos hf]
  obtain ⟨v, hv, hframe, hfield, hold⟩ := loadHead_completes hb h hop hs (c.recordTaken_step words _) hu hlast hw
    ((State.framed.refl u).modField _ _) (h.alone.of_cmds rfl)
  exact ⟨v, hv, hframe, hfield _ (onlyField_of rfl), holds_mono hold fun d hd => ⟨hd.1, fun f => (hd.2.2 f).trans (loadBody_counts f hc)⟩⟩

theorem loadHead_recordFaulty {e : Reason} (hg : u.loadFault c = some e) (he : e ≠ .abortedReset) (hsv : e ≠ .saved)
    (hst : c.work.steps = []) (hm : u.mergeOf c = none) :
    ∃ v : State, s.keep (loadHeadDo r q 1 u) = v.settle ∧ u.onlyField v (pkField c.run) fieldReset ∧
      v.holds c.order fun d => d.stage = .finished ∧ d.reason = e := by
  have hu := (h.record_turn hop hs hf hr).faulty hg
  rw [h.ring, h.seq] at hu
  obtain ⟨hfields, hold⟩ := endWork_load h.alone.mem hop hs hst hm he hsv
  have hover := holds_mono (Q := fun d => d.stage ≠ .running) hold fun d hd hr => by rw [hd.1] at hr; cases hr
  exact ⟨_, loadHead_ends hb h hop hs hu (endWork_kept u c e).base hover, onlyField_of (m := fun _ => fieldReset) hfields, hold⟩

end

end Sys2Proof.Machine
end

section
/-! PROOF. The rows of LOAD_HEAD on an array: the gathering read and the conversion (R42, R54, R354). -/

namespace Sys2Proof.Machine

/-- A LOAD_HEAD after its next block row in the gathering read. -/
def Cmd.rowGathered (c : Cmd) (elems : Nat) (m : F32) : Cmd :=
  (c.event 10 elems).filled { c.work.fill with done := c.work.fill.done + 1, amax := m }

theorem Cmd.rowGathered_step (c : Cmd) (elems : Nat) (m : F32) : LoadStep c (c.rowGathered elems m) m :=
  ⟨⟨rfl, rfl, rfl⟩, rfl, rfl, rfl, rfl, rfl, rfl, rfl⟩

theorem Cmd.convertedRow_step (c : Cmd) (elems words : Nat) (q : QCount) (bad : Nat) (m : F32) :
    LoadStep c (c.convertedRow elems words q bad c.work.fill.done m) m :=
  ⟨c.convertedRow_same _ _ _ _ _ _, by simp [convertedRow], by simp [convertedRow], by simp [convertedRow], by simp [convertedRow],
    by simp [convertedRow], by simp [convertedRow], by simp [convertedRow]⟩

theorem Cmd.convertedRow_counts (c : Cmd) (elems words : Nat) (q : QCount) (bad k : Nat) (m : F32) :
    (c.convertedRow elems words q bad k m).work.counts = (c.countQuant q bad).work.counts := rfl

/-- The block row of an array that a LOAD_HEAD takes next, and how many of its elements are not finite. -/
def State.nextRow (u : State) (c : Cmd) : List (List F32) × Nat := u.arrayRows c.run (u.fieldOf c) c.work.fill.done

/-- The largest magnitude after that block row. -/
def State.rowAmax (u : State) (c : Cmd) : F32 := rowsMax (u.nextRow c).1 c.work.fill.amax

/-- The blocks and the counts of its conversion. -/
def State.nextBlocks (u : State) (c : Cmd) : List Blk × QCount := u.converted c (u.fieldOf c) c.work.fill.done

theorem loadRanges_scale (c d : Cmd) (f : Field) (i : Nat) : loadRanges c (gatherScale d f) i = loadRanges c f i := rfl

theorem countQuant_totals {s t : State} (h : t.totals = s.totals) (q : QCount) (n : Nat) : (t.countQuant q n).totals = (s.countQuant q n).totals := by
  unfold State.countQuant
  dsimp only
  rw [h]

section
variable {s u : State} {r : Nat} {q : U32} {c : Cmd} (hb : SameBase s u) (h : FillTurn u r q c) (hop : c.op = opLoadHead) (hs : c.started = true)
  (hf : pkLoadFmt c.run ≠ 0) (hr : u.openIdx r q .loadSrc (c.work.fill.done +
    if c.work.fill.gathered && fpIsZero (pkLoadAmax c.run) then 64 * (u.fieldOf c).n else 0) = false)
include h hop hs hf hr

theorem FillTurn.array_turn : LoadTurn u c := by
  refine ⟨h.alone, hop, h.running hs, ?_⟩
  rw [h.ring, h.seq, loadUnits, if_neg hf, bne_iff_ne.2 hf, Bool.true_and]
  exact hr

/-- A block row of the gathering read. -/
theorem FillTurn.gather_unit (hg : c.work.fill.gathered = false) : ∃ n,
    u.loadUnit r q = ((u.perfAdd 17 n).setCmd (c.rowGathered n (u.rowAmax c))).loadOn (u.fieldOf c) (c.rowGathered n (u.rowAmax c)) := by
  have hw : u.loadWork c = (u.perfAdd 17 (browRows (u.fieldOf c) c.work.fill.done * (u.fieldOf c).h)).setCmd
      (c.rowGathered (browRows (u.fieldOf c) c.work.fill.done * (u.fieldOf c).h) (u.rowAmax c)) := by
    unfold State.loadWork
    rw [if_neg hf, hg, if_neg Bool.false_ne_true, gatherBrow_eq h.alone (h.running hs)]
    rfl
  have e := (h.array_turn hop hs hf hr).sound (if_neg hf) hw (h.alone.perfAdd _ _) (c.rowGathered_step _ _).same
  rw [h.ring, h.seq] at e
  exact ⟨_, e⟩

/-- A block row that is converted. -/
theorem FillTurn.convert_unit (hg : c.work.fill.gathered = true) : ∃ n words,
    u.loadUnit r q = ((((u.perfAdd 17 n).countQuant (u.nextBlocks c).2 (u.nextRow c).2).modField (pkField c.run)
        (addBrow c.work.fill.done (u.nextBlocks c).1)).setCmd
      (c.convertedRow n words (u.nextBlocks c).2 (u.nextRow c).2 c.work.fill.done (u.rowAmax c))).loadOn (u.fieldOf c)
      (c.convertedRow n words (u.nextBlocks c).2 (u.nextRow c).2 c.work.fill.done (u.rowAmax c)) := by
  have hw := convertRow_eq h.alone (h.running hs) c.work.fill.done
  have ha : (((u.perfAdd 17 (browRows (u.fieldOf c) c.work.fill.done * (u.fieldOf c).h)).countQuant (u.nextBlocks c).2 (u.nextRow c).2).modField
    (pkField c.run) (addBrow c.work.fill.done (u.nextBlocks c).1)).alone c := (h.alone.perfAdd _ _).of_cmds rfl
  have e := (h.array_turn hop hs hf hr).sound (if_neg hf) (by unfold State.loadWork; rw [if_neg hf, if_pos hg]; exact hw) ha (c.convertedRow_step _ _ _ _ _).same
  rw [h.ring, h.seq] at e
  exact ⟨_, _, e⟩

include hb

theorem loadHead_gatherNext (hg : c.work.fill.gathered = false) (hn : c.work.fill.done + 1 < 64 * (u.fieldOf c).n) :
    ∃ t, s.keep (loadHeadDo r q 1 u) = t ∧ u.framed t u.fields u.queue t.perf u.totals u.granary.poison ∧
      t.holds c.order fun d => d.stage = .running ∧ d.work.fill.done = c.work.fill.done + 1 ∧ d.work.fill.amax = u.rowAmax c := by
  obtain ⟨n, hu⟩ := h.gather_unit hop hs hf hr hg
  have hd := c.rowGathered_step n (u.rowAmax c)
  generalize c.rowGathered n _ = d at hd hu
  have hrun : d.stage = .running := hd.stage.trans (h.running hs)
  rw [loadOn_array (hd.done.symm ▸ hn) (hd.run.symm ▸ hf)] at hu
  have hframe := ((State.framed.refl u).perfAdd 17 n).setCmd d
  exact ⟨_, loadHead_goes hb h hop hs hu hframe.base ((h.alone.perfAdd 17 n).setCmd_holds hd.same hrun), hframe.self_perf,
    (h.alone.perfAdd 17 n).setCmd_holds hd.same ⟨hrun, hd.done, hd.amax⟩⟩

theorem loadHead_gatherLast (hg : c.work.fill.gathered = false) (hn : c.work.fill.done + 1 = 64 * (u.fieldOf c).n) :
    ∃ t, s.keep (loadHeadDo r q 1 u) = t ∧
      u.framed t t.fields (u.queue ++ loadRanges c (u.fieldOf c) (64 * (u.fieldOf c).n)) t.perf u.totals u.granary.poison ∧
      u.onlyField t (pkField c.run) { u.fieldOf c with eRow := globalExp .e2m1 (u.rowAmax c) } ∧
      t.holds c.order fun d => d.stage = .running ∧ d.work.fill.done = 0 ∧ d.work.fill.gathered = true ∧
        d.work.fill.m = u.rowAmax c ∧ d.work.fill.amax = fpZero := by
  obtain ⟨n, hu⟩ := h.gather_unit hop hs hf hr hg
  have hd := c.rowGathered_step n (u.rowAmax c)
  generalize c.rowGathered n _ = d at hd hu
  have hlast : d.work.fill.done = loadUnits (u.fieldOf c) d.run := by
    rw [hd.done, hd.run, loadUnits, if_neg hf, hn]
  obtain ⟨p, hp⟩ := perfAdd_frame u 17 n
  have hsame := hd.same.trans d.gatherOver_same
  have hfo : (u.perfAdd 17 n).fieldOf d = u.fieldOf c := by rw [hp]; unfold State.fieldOf; rw [hd.run]; rfl
  rw [loadOn_last hlast, hd.gathered, hg, if_neg Bool.false_ne_true, gatherDone_setCmd, hfo, loadRanges_scale, loadRanges_same hd.same hd.run,
    hd.run, show (u.perfAdd 17 n).queue = u.queue by rw [hp]] at hu
  have hrun : d.gatherOver.stage = .running := hd.stage.trans (h.running hs)
  have ha : ((u.perfAdd 17 n).modField (pkField c.run) (gatherScale d)).alone c := (h.alone.perfAdd 17 n).of_cmds rfl
  have hframe := ((((State.framed.refl u).perfAdd 17 n).modField (pkField c.run) (gatherScale d)).setCmd d.gatherOver).withQueue
    (u.queue ++ loadRanges c (u.fieldOf c) (64 * (u.fieldOf c).n))
  have hfield : gatherScale d (u.field (pkField c.run)) = { u.fieldOf c with eRow := globalExp .e2m1 (u.rowAmax c) } := by
    rw [← hd.amax]
    rfl
  exact ⟨_, loadHead_goes hb h hop hs hu hframe.base (ha.setCmd_holds hsame hrun), hframe.self_fields.self_perf,
    hfield ▸ onlyField_from (v := u.perfAdd 17 n) (by rw [hp]) rfl, ha.setCmd_holds hsame ⟨hrun, rfl, rfl, hd.amax, rfl⟩⟩

theorem loadHead_convertNext (hg : c.work.fill.gathered = true) (hn : c.work.fill.done + 1 < 64 * (u.fieldOf c).n) :
    ∃ t, s.keep (loadHeadDo r q 1 u) = t ∧ u.framed t t.fields u.queue t.perf t.totals u.granary.poison ∧
      t.totals = (u.countQuant (u.nextBlocks c).2 (u.nextRow c).2).totals ∧
      u.onlyField t (pkField c.run) (addBrow c.work.fill.done (u.nextBlocks c).1 (u.fieldOf c)) ∧
      t.holds c.order fun d => d.stage = .running ∧ d.work.fill.done = c.work.fill.done + 1 ∧
        d.work.counts = (c.countQuant (u.nextBlocks c).2 (u.nextRow c).2).work.counts ∧ d.work.fill.amax = u.rowAmax c := by
  obtain ⟨n, words, hu⟩ := h.convert_unit hop hs hf hr hg
  have hd := c.convertedRow_step n words (u.nextBlocks c).2 (u.nextRow c).2 (u.rowAmax c)
  have hcounts := c.convertedRow_counts n words (u.nextBlocks c).2 (u.nextRow c).2 c.work.fill.done (u.rowAmax c)
  generalize c.convertedRow _ _ _ _ _ _ = d at hd hu hcounts
  obtain ⟨p, hp⟩ := perfAdd_frame u 17 n
  have hrun : d.stage = .running := hd.stage.trans (h.running hs)
  rw [loadOn_array (hd.done.symm ▸ hn) (hd.run.symm ▸ hf)] at hu
  have ha : (((u.perfAdd 17 n).countQuant (u.nextBlocks c).2 (u.nextRow c).2).modField (pkField c.run)
    (addBrow c.work.fill.done (u.nextBlocks c).1)).alone c := (h.alone.perfAdd 17 n).of_cmds rfl
  have hframe := ((((State.framed.refl u).perfAdd 17 n).countQuant (u.nextBlocks c).2 (u.nextRow c).2).modField (pkField c.run)
    (addBrow c.work.fill.done (u.nextBlocks c).1)).setCmd d
  exact ⟨_, loadHead_goes hb h hop hs hu hframe.base (ha.setCmd_holds hd.same hrun), hframe.self_fields.self_perf.self_totals,
    countQuant_totals (by rw [hp]) _ _,
    onlyField_from (v := (u.perfAdd 17 n).countQuant (u.nextBlocks c).2 (u.nextRow c).2) (by rw [hp]; rfl) rfl,
    ha.setCmd_holds hd.same ⟨hrun, hd.done, hcounts, hd.amax⟩⟩

theorem loadHead_convertLast (hg : c.work.fill.gathered = true) (hn : c.work.fill.done + 1 = 64 * (u.fieldOf c).n) :
    ∃ v : State, s.keep (loadHeadDo r q 1 u) = v.settle ∧ u.framed v v.fields u.queue v.perf v.totals v.granary.poison ∧
      v.totals = (u.countQuant (u.nextBlocks c).2 (u.nextRow c).2).totals ∧
      u.onlyField v (pkField c.run) (fieldReady (u.rowAmax c) (addBrow c.work.fill.done (u.nextBlocks c).1 (u.fieldOf c))) ∧
      v.holds c.order fun d => (d.stage = .committing ∧ d.reason = c.reason ∧ d.commit = true) ∧
        d.work.counts = (c.countQuant (u.nextBlocks c).2 (u.nextRow c).2).work.counts ∧ ∀ f, classBody f d .ok = loadBody f d.work := by
  obtain ⟨n, words, hu⟩ := h.convert_unit hop hs hf hr hg
  have hcounts := c.convertedRow_counts n words (u.nextBlocks c).2 (u.nextRow c).2 c.work.fill.done (u.rowAmax c)
  have hlast : c.work.fill.done + 1 = loadUnits (u.fieldOf c) c.run := by rw [loadUnits, if_neg hf, hn]
  obtain ⟨p, hp⟩ := perfAdd_frame u 17 n
  obtain ⟨v, hv, hframe, hfield, hold⟩ := loadHead_completes hb h hop hs (c.convertedRow_step n words _ _ _) hu hlast hg
    ((((State.framed.refl u).perfAdd 17 n).countQuant _ _).modField _ _) ((h.alone.perfAdd 17 n).of_cmds rfl)
  exact ⟨v, hv, hframe.self_perf.self_totals, hframe.named.2.2.2.1.trans (countQuant_totals (by rw [hp]) _ _),
    hfield _ (onlyField_from (v := (u.perfAdd 17 n).countQuant (u.nextBlocks c).2 (u.nextRow c).2) (by rw [hp]; rfl) rfl),
    holds_mono hold fun d hd => ⟨hd.1, hd.2.1.trans hcounts, fun f => (hd.2.2 f).trans (loadBody_counts f hd.2.1.symm)⟩⟩

end

end Sys2Proof.Machine
end

section
/-! PROOF. The rows of UPDATE up to its first block row: the start and the gathering of GRAD_SQSUM (R187, R188, R190, R356). -/

namespace Sys2Proof.Machine

theorem State.alone.modFill {s : State} {c : Cmd} (h : s.alone c) (g : Fill → Fill) : s.modFill c g = s.setCmd (c.filled (g c.work.fill)) :=
  h.modCmd _

theorem updateUnit_idle {s : State} {r : Nat} {q : U32} (h : s.idle r q) : s.updateUnit r q = s := by
  unfold State.updateUnit
  cases hc : s.cmd r q with
  | none => rfl
  | some c => exact if_pos (.inr (h c hc))

/-- The reads of block row `k` of G, the masters and the moments (R356). -/
def browReads (c : Cmd) (f : Field) (k : Nat) : List Range :=
  ((List.range 4).map fun j => readRange .updRead c (f.brows + k) (browAddr f (leNat c.run (40 + 8 * j) 8) k) (browBytes f k)).filter fun r => r.len != 0

theorem askBrow_eq (s : State) (c : Cmd) (f : Field) (k : Nat) : s.askBrow c f k = { s with queue := s.queue ++ browReads c f k } :=
  asks_filter (fun j => readRange .updRead c (f.brows + k) (browAddr f (leNat c.run (40 + 8 * j) 8) k) (browBytes f k)) (List.range 4) s

/-- The reads of every block row of G in the gathering read (R187). -/
def gradReads (c : Cmd) (f : Field) : List Range :=
  ((List.range f.brows).map fun k => readRange .updRead c k (browAddr f (leNat c.run 40 8) k) (browBytes f k)).filter fun r => r.len != 0

theorem askGrads_eq (s : State) (c : Cmd) (f : Field) :
    (List.range f.brows).foldl (fun s k => s.askGrad c f k) s = { s with queue := s.queue ++ gradReads c f } :=
  asks_filter (fun k => readRange .updRead c k (browAddr f (leNat c.run 40 8) k) (browBytes f k)) (List.range f.brows) s

theorem browReads_same {c d : Cmd} (hd : Cmd.SameName c d) (hr : d.run = c.run) (f : Field) (k : Nat) : browReads d f k = browReads c f k := by
  unfold browReads readRange
  rw [hd.ring, hd.seq, hr]

theorem gradReads_same {c d : Cmd} (hd : Cmd.SameName c d) (hr : d.run = c.run) (f : Field) : gradReads d f = gradReads c f := by
  unfold gradReads readRange
  rw [hd.ring, hd.seq, hr]

/-! ### The start -/

/-- An UPDATE as it starts: `first` tells whether it gathers GRAD_SQSUM first (R187). -/
def Cmd.updating (c : Cmd) (f : Field) (first : Bool) : Cmd :=
  { c with started := true, stage := .running, work := { c.work with fill := { c.work.fill with
      m := f.amax, factor := pkGradMul c.run, gathered := !first
      done := if pkUpdResume c.run then f.browsDone else 0
      asked := if first then 0 else if pkUpdResume c.run then f.browsDone else 0
      amax := if pkUpdResume c.run then f.amaxPart else fpZero } } }

theorem Cmd.updating_same (c : Cmd) (f : Field) (first : Bool) : SameName c (c.updating f first) := ⟨rfl, rfl, rfl⟩

/-- The field of an UPDATE that goes on is no longer left over (R190). -/
def takenUp (f : Field) : Field := { f with leftOver := false }

theorem updateStart_refused {s : State} {c : Cmd} {x : Reason} (h : updReason (s.fieldOf c) c.run = some x) : s.updateStart c = s.refuse c x := by
  unfold State.updateStart
  dsimp only
  rw [h]

theorem updateStart_rows {s : State} {c : Cmd} (h : updReason (s.fieldOf c) c.run = none) (hf : (pkUpdMode1 c.run || pkClipEn c.run) = false)
    (hk : (if pkUpdResume c.run then (s.fieldOf c).browsDone else 0) < (s.fieldOf c).brows) :
    s.updateStart c = { (s.modField (pkField c.run) takenUp).setCmd (c.updating (s.fieldOf c) false) with
      queue := s.queue ++ browReads c (s.fieldOf c) (if pkUpdResume c.run then (s.fieldOf c).browsDone else 0) } := by
  rw [← browReads_same (c.updating_same (s.fieldOf c) false) rfl]
  unfold State.updateStart
  dsimp only
  rw [h]
  dsimp only
  rw [hf, if_neg Bool.false_ne_true, if_neg Bool.false_ne_true, if_pos hk]
  exact askBrow_eq _ _ _ _

theorem updateStart_gathers {s : State} {c : Cmd} (h : updReason (s.fieldOf c) c.run = none) (hf : (pkUpdMode1 c.run || pkClipEn c.run) = true) :
    s.updateStart c = { s.setCmd (c.updating (s.fieldOf c) true) with queue := s.queue ++ gradReads c (s.fieldOf c) } := by
  rw [← gradReads_same (c.updating_same (s.fieldOf c) true) rfl]
  unfold State.updateStart
  dsimp only
  rw [h]
  dsimp only
  rw [hf, if_pos rfl, if_pos rfl]
  exact askGrads_eq _ _ _

/-! ### A unit -/

section
variable {u : State} {r : Nat} {q : U32} {c : Cmd} (h : FillTurn u r q c) (hop : c.op = opUpdate) (hs : c.started = true)
include h hop hs

/-- A unit of an UPDATE that gathers GRAD_SQSUM. -/
theorem FillTurn.update_gathering (hg : c.work.fill.gathered = false) : u.updateUnit r q =
    if c.work.fill.asked < (u.fieldOf c).brows then
      (if u.openIdx r q .updRead c.work.fill.asked then u else u.gatherGrad c (u.fieldOf c) c.work.fill.asked)
    else u.gradDone c (u.fieldOf c) := by
  rw [← h.ring, ← h.seq]
  unfold State.updateUnit
  rw [h.alone.cmd]
  dsimp only
  rw [if_neg (fun hn => hn.elim (fun x => x hop) fun x => x (h.running hs)), hg]
  exact if_pos rfl

/-- A unit of an UPDATE among its block rows. -/
theorem FillTurn.update_rowing (hg : c.work.fill.gathered = true) : u.updateUnit r q =
    if c.work.fill.done < c.work.fill.asked then (if u.writesOpen r q then u else u.browDone c (u.fieldOf c))
    else if u.openIdx r q .updRead ((u.fieldOf c).brows + c.work.fill.done) then u
    else u.updateBrow c (u.fieldOf c) c.work.fill.done := by
  rw [← h.ring, ← h.seq]
  unfold State.updateUnit
  rw [h.alone.cmd]
  dsimp only
  rw [if_neg (fun hn => hn.elim (fun x => x hop) fun x => x (h.running hs)), hg]
  exact if_neg Bool.false_ne_true

end

/-- The sum of squares of an UPDATE after block row `k` of its gathering read (R187; log 29). -/
def State.gradSum (s : State) (c : Cmd) (f : Field) (k : Nat) : SqStack :=
  sqRow (browLeaf f k) ((s.browWords f (leNat c.run 40 8) k).map fun g =>
    if fpFinite g then some (fpMul g (pkGradMul c.run)) else none) c.work.fill.gradSq

theorem gatherGrad_eq {s : State} {c : Cmd} (h : s.alone c) (f : Field) (k : Nat) : s.gatherGrad c f k =
    s.setCmd (c.filled { c.work.fill with asked := k + 1, gradSq := s.gradSum c f k, gradSqsum := sqRoot (s.gradSum c f k) }) := by
  unfold State.gatherGrad
  exact h.modFill _

/-- An UPDATE whose gathering read is over and whose rows begin, with the factor that GRAD_SQSUM gives (R187). -/
def Cmd.clipped (c : Cmd) : Cmd := c.filled { c.work.fill with
  gathered := true, asked := c.work.fill.done, factor := clipFactor (pkGradMul c.run) (le32 c.run 144) c.work.fill.gradSqsum }

theorem gradDone_rows {s : State} {c : Cmd} {f : Field} (hm : pkUpdMode1 c.run = false) (hd : c.work.fill.done < f.brows) : s.gradDone c f =
    { (s.modField (pkField c.run) takenUp).setCmd c.clipped with queue := s.queue ++ browReads c f c.work.fill.done } := by
  rw [← browReads_same (c.filled_same _ : Cmd.SameName c c.clipped) rfl]
  unfold State.gradDone
  dsimp only
  rw [if_neg (by rw [hm]; exact Bool.false_ne_true), if_pos hd]
  exact askBrow_eq _ _ _ _

theorem gradDone_sum {s : State} (hs : s.solo) {c : Cmd} {f : Field} (hm : pkUpdMode1 c.run = true) : s.gradDone c f =
    s.setCmd (c.filled { c.work.fill with asked := 0 }).committing := by
  unfold State.gradDone
  dsimp only
  rw [if_pos hm]
  exact openCommit_solo hs (c.filled { c.work.fill with asked := 0 })

theorem classBody_update {c : Cmd} (h : c.op = opUpdate) (f : Field) (r : Reason) : classBody f c r = updateBody c.run c.work := by
  unfold classBody
  dsimp only
  rw [h]
  rfl

/-! ### The rows -/

section
variable {s u t : State} {r n : Nat} {q : U32} {c : Cmd} {ok : List Byte → Bool} (hb : SameBase s u) (h : FillTurn u r q c) (hop : c.op = opUpdate)
  (hk : ok c.run = true)
include hb h hop hk

theorem update_refused (hs : c.started = false) {x : Reason} (hx : updReason (u.fieldOf c) c.run = some x) :
    ∃ t, s.keep (updateDo ok r q n u) = t ∧ u.sameStill t ∧ t.holds c.order (Cmd.endedWith x (cplBody [])) := by
  unfold updateDo
  rw [← hop]
  exact FillTurn.refused hb h hk hs (updateStart_refused hx) fun _ => updateUnit_idle

theorem update_starts (hs : c.started = false) (hu : u.updateStart c = t) (ht : SameBase u t) (hc : t.holds c.order fun d => d.stage = .running) :
    s.keep (updateDo ok r q 0 u) = t := by
  unfold updateDo
  rw [← hop]
  exact h.start_goes hb hk hs hu ht hc

/-- A unit after which the UPDATE goes on. -/
theorem update_goes (hs : c.started = true) (hu : u.updateUnit r q = t) (ht : SameBase u t) (hc : t.holds c.order fun d => d.stage = .running) :
    s.keep (updateDo ok r q 1 u) = t := by
  unfold updateDo
  rw [← hop]
  exact h.unit_goes hb hk hs hu ht hc

/-- A unit that ends the UPDATE. -/
theorem update_ends (hs : c.started = true) (hu : u.updateUnit r q = t) (ht : SameBase u t) (hc : t.holds c.order fun d => d.stage ≠ .running)
    (hi : t.idle r q) (n : Nat) : s.keep (updateDo ok r q (n + 1) u) = t.settle := by
  unfold updateDo
  rw [← hop]
  exact h.unit_ends hb hk hs hu ht hc (times_fixed (updateUnit_idle hi) n)

theorem update_startRows (hs : c.started = false) (hx : updReason (u.fieldOf c) c.run = none) (hm : pkUpdMode1 c.run = false)
    (hcl : pkClipEn c.run = false) (hlt : (if pkUpdResume c.run then (u.fieldOf c).browsDone else 0) < (u.fieldOf c).brows) :
    ∃ t, s.keep (updateDo ok r q 0 u) = t ∧
      u.framed t t.fields (u.queue ++ browReads c (u.fieldOf c) (if pkUpdResume c.run then (u.fieldOf c).browsDone else 0))
        u.perf u.totals u.granary.poison ∧
      u.onlyField t (pkField c.run) (takenUp (u.fieldOf c)) ∧
      t.holds c.order fun d => d.stage = .running ∧ d.work.fill.done = (if pkUpdResume c.run then (u.fieldOf c).browsDone else 0) ∧
        d.work.fill.factor = pkGradMul c.run ∧ d.work.fill.gathered = true := by
  have hu := updateStart_rows hx (by rw [hm, hcl]; rfl) hlt
  have ha : (u.modField (pkField c.run) takenUp).alone c := h.alone.of_cmds rfl
  have hd := c.updating_same (u.fieldOf c) false
  have hframe := (((State.framed.refl u).modField (pkField c.run) takenUp).setCmd (c.updating (u.fieldOf c) false)).withQueue
    (u.queue ++ browReads c (u.fieldOf c) (if pkUpdResume c.run then (u.fieldOf c).browsDone else 0))
  exact ⟨_, update_starts hb h hop hk hs hu hframe.base (ha.setCmd_holds hd rfl), hframe.self_fields, onlyField_of rfl,
    ha.setCmd_holds hd ⟨rfl, rfl, rfl, rfl⟩⟩

theorem update_startGathers (hs : c.started = false) (hx : updReason (u.fieldOf c) c.run = none) (hcl : pkClipEn c.run = true) :
    ∃ t, s.keep (updateDo ok r q 0 u) = t ∧
      u.framed t u.fields (u.queue ++ gradReads c (u.fieldOf c)) u.perf u.totals u.granary.poison ∧
      t.holds c.order fun d => d.stage = .running ∧ d.work.fill.asked = 0 ∧ d.work.fill.gathered = false := by
  have hu := updateStart_gathers hx (by rw [hcl, Bool.or_true])
  have hd := c.updating_same (u.fieldOf c) true
  have hframe := ((State.framed.refl u).setCmd (c.updating (u.fieldOf c) true)).withQueue (u.queue ++ gradReads c (u.fieldOf c))
  exact ⟨_, update_starts hb h hop hk hs hu hframe.base (h.alone.setCmd_holds hd rfl), hframe, h.alone.setCmd_holds hd ⟨rfl, rfl, rfl⟩⟩

theorem update_gathers (hs : c.started = true) (hg : c.work.fill.gathered = false) (hlt : c.work.fill.asked < (u.fieldOf c).brows)
    (ho : u.openIdx r q .updRead c.work.fill.asked = false) :
    (let sq := u.gradSum c (u.fieldOf c) c.work.fill.asked
     ∃ t, s.keep (updateDo ok r q 1 u) = t ∧ u.framed t u.fields u.queue u.perf u.totals u.granary.poison ∧
      t.holds c.order fun d => d.stage = .running ∧ d.work.fill.asked = c.work.fill.asked + 1 ∧ d.work.fill.gradSq = sq ∧
        d.work.fill.gradSqsum = sqRoot sq) := by
  have hu := h.update_gathering hop hs hg
  rw [if_pos hlt, ho, if_neg Bool.false_ne_true, gatherGrad_eq h.alone] at hu
  have hrun := h.running hs
  have hframe := (State.framed.refl u).setCmd (c.filled { c.work.fill with
    asked := c.work.fill.asked + 1, gradSq := u.gradSum c (u.fieldOf c) c.work.fill.asked
    gradSqsum := sqRoot (u.gradSum c (u.fieldOf c) c.work.fill.asked) })
  exact ⟨_, update_goes hb h hop hk hs hu hframe.base (h.alone.setCmd_holds (c.filled_same _) hrun), hframe,
    h.alone.setCmd_holds (c.filled_same _) ⟨hrun, rfl, rfl, rfl⟩⟩

theorem update_clips (hs : c.started = true) (hm : pkUpdMode1 c.run = false) (hg : c.work.fill.gathered = false)
    (hge : (u.fieldOf c).brows ≤ c.work.fill.asked) (hlt : c.work.fill.done < (u.fieldOf c).brows) :
    ∃ t, s.keep (updateDo ok r q 1 u) = t ∧
      u.framed t t.fields (u.queue ++ browReads c (u.fieldOf c) c.work.fill.done) u.perf u.totals u.granary.poison ∧
      u.onlyField t (pkField c.run) (takenUp (u.fieldOf c)) ∧
      t.holds c.order fun d => d.stage = .running ∧ d.work.fill.gathered = true ∧ d.work.fill.asked = c.work.fill.done ∧
        d.work.fill.factor = clipFactor (pkGradMul c.run) (le32 c.run 144) c.work.fill.gradSqsum := by
  have hu := h.update_gathering hop hs hg
  rw [if_neg (Nat.not_lt.2 hge), gradDone_rows hm hlt] at hu
  have hrun := h.running hs
  have ha : (u.modField (pkField c.run) takenUp).alone c := h.alone.of_cmds rfl
  have hd : Cmd.SameName c c.clipped := c.filled_same _
  have hframe := (((State.framed.refl u).modField (pkField c.run) takenUp).setCmd c.clipped).withQueue
    (u.queue ++ browReads c (u.fieldOf c) c.work.fill.done)
  exact ⟨_, update_goes hb h hop hk hs hu hframe.base (ha.setCmd_holds hd hrun), hframe.self_fields, onlyField_of rfl,
    ha.setCmd_holds hd ⟨hrun, rfl, rfl, rfl⟩⟩

theorem update_sumDone (hs : c.started = true) (hm : pkUpdMode1 c.run = true) (hg : c.work.fill.gathered = false)
    (hge : (u.fieldOf c).brows ≤ c.work.fill.asked) (n : Nat) :
    ∃ v : State, s.keep (updateDo ok r q (n + 1) u) = v.settle ∧ u.framed v u.fields u.queue u.perf u.totals u.granary.poison ∧
      v.holds c.order fun d => (d.stage = .committing ∧ d.reason = c.reason ∧ d.commit = true) ∧
        d.work.fill.gradSqsum = c.work.fill.gradSqsum ∧ ∀ f, classBody f d .ok = updateBody c.run d.work := by
  have hu := h.update_gathering hop hs hg
  rw [if_neg (Nat.not_lt.2 hge), gradDone_sum h.solo hm] at hu
  have hd : Cmd.SameName c (c.filled { c.work.fill with asked := 0 }).committing := (c.filled_same _).trans (Cmd.committing_same _)
  have hover : (c.filled { c.work.fill with asked := 0 }).committing.stage ≠ .running := by exact Stage.noConfusion
  have hframe := (State.framed.refl u).setCmd (c.filled { c.work.fill with asked := 0 }).committing
  have hi := idle_of_alone (h.alone.named hd) hover
  rw [hd.ring, hd.seq, h.ring, h.seq] at hi
  exact ⟨_, update_ends hb h hop hk hs hu hframe.base (h.alone.setCmd_holds hd hover) hi n, hframe,
    h.alone.setCmd_holds hd ⟨⟨rfl, rfl, rfl⟩, rfl, fun f => classBody_update (c := (c.filled { c.work.fill with asked := 0 }).committing) hop f .ok⟩⟩

end

end Sys2Proof.Machine
end

section
/-! PROOF. A block row of UPDATE and its answer (R104, R186, R188 to R190, R356). -/

namespace Sys2Proof.Machine

/-! ### The writes of a block row -/

theorem sourceElems_length (b16 : Bool) (b : List Byte) (n : Nat) : (sourceElems b16 b n).length = n := by
  unfold sourceElems
  rw [List.length_map, List.length_range]

theorem browWords_length (s : State) (f : Field) (base k : Nat) : (s.browWords f base k).length = browRows f k * f.h := sourceElems_length _ _ _

/-- The elements of block row `k` as an UPDATE leaves them (R186, R189). -/
def State.browOut (s : State) (c : Cmd) (f : Field) (k : Nat) : List Updated :=
  (List.range (browRows f k * f.h)).map fun i => updElem (pkHyper c.run) c.work.fill.factor ((s.browWords f (leNat c.run 40 8) k).getD i 0)
    ((s.browWords f (leNat c.run 48 8) k).getD i 0) ((s.browWords f (leNat c.run 56 8) k).getD i 0) ((s.browWords f (leNat c.run 64 8) k).getD i 0)

/-- One array of a block row as bytes. -/
def outBytes (out : List Updated) (g : Updated → F32) : List Byte := (out.map fun o => leBytes 4 (g o).toNat).flatten

theorem outBytes_length (out : List Updated) (g : Updated → F32) : (outBytes out g).length = 4 * out.length := by
  induction out with
  | nil => rfl
  | cons o l ih =>
    have hl := leBytes_length 4 (g o).toNat
    simp only [outBytes, List.map_cons, List.flatten_cons, List.length_append, List.length_cons] at ih ⊢
    omega

theorem browOut_bytes {s : State} {c : Cmd} {f : Field} {k : Nat} (h : browBytes f k ≠ 0) (g : Updated → F32) : (outBytes (s.browOut c f k) g).length ≠ 0 := by
  rw [outBytes_length, State.browOut, List.length_map, List.length_range]
  exact h

/-- The writes of block row `k`: the masters and the moments (R186). -/
def State.browWrites (s : State) (c : Cmd) (f : Field) (k : Nat) : List Range :=
  [writeRange .updWrite c k (browAddr f (leNat c.run 72 8) k) (outBytes (s.browOut c f k) Updated.w),
   writeRange .updWrite c k (browAddr f (leNat c.run 80 8) k) (outBytes (s.browOut c f k) Updated.m1),
   writeRange .updWrite c k (browAddr f (leNat c.run 88 8) k) (outBytes (s.browOut c f k) Updated.m2)]

theorem outputs_solo {s : State} (hs : s.solo) (c : Cmd) (k : Nat) {a₁ a₂ a₃ : Nat} {b₁ b₂ b₃ : List Byte} (h₁ : b₁.length ≠ 0) (h₂ : b₂.length ≠ 0)
    (h₃ : b₃.length ≠ 0) : ((s.output c .updWrite 1 k a₁ b₁).output c .updWrite 2 k a₂ b₂).output c .updWrite 3 k a₃ b₃ =
      { s with queue := s.queue ++ [writeRange .updWrite c k a₁ b₁, writeRange .updWrite c k a₂ b₂, writeRange .updWrite c k a₃ b₃] } := by
  have next {v : State} (hv : v.solo) (j a : Nat) {b : List Byte} (h : b.length ≠ 0) :
      v.output c .updWrite j k a b = { v with queue := v.queue ++ [writeRange .updWrite c k a b] } := by rw [output_solo hv, if_neg h]
  rw [next hs _ _ h₁, next (by exact hs) _ _ h₂, next (by exact hs) _ _ h₃]
  simp only [List.append_assoc, List.cons_append, List.nil_append]

/-! ### The block row -/

/-- The field of an UPDATE with a block row requantised: it is UPDATING (R104). -/
def requantised (k : Nat) (b : List Blk) (f : Field) : Field :=
  { f with state := if f.state = 2 then 3 else f.state, swaths := (List.range f.swaths.length).map fun w =>
      let sw := f.swaths.getD w []
      if w = k / 64 then sw.set (k % 64) b else sw }

/-- An UPDATE after a block row's elements. -/
def Cmd.rowUpdated (c : Cmd) (n words : Nat) (q : QCount) (bad : Nat) (x : Fill) : Cmd :=
  ((((c.event 10 n).event 14 n).event 5 words).countQuant q bad).filled x

theorem Cmd.rowUpdated_same (c : Cmd) (n words : Nat) (q : QCount) (bad : Nat) (x : Fill) : SameName c (c.rowUpdated n words q bad x) :=
  ((((c.event_same 10 n).trans (Cmd.event_same _ 14 n)).trans (Cmd.event_same _ 5 words)).trans (Cmd.countQuant_same _ q bad)).trans (Cmd.filled_same _ _)

theorem Cmd.rowUpdated_stage (c : Cmd) (n words : Nat) (q : QCount) (bad : Nat) (x : Fill) : (c.rowUpdated n words q bad x).stage = c.stage := by
  simp [rowUpdated]

theorem Cmd.rowUpdated_fill (c : Cmd) (n words : Nat) (q : QCount) (bad : Nat) (x : Fill) : (c.rowUpdated n words q bad x).work.fill = x := by
  simp [rowUpdated]

/-- The counts, the field and the command of a block row whose writes are asked. -/
theorem rowUpdated_of {v : State} {c : Cmd} (h : v.alone c) (hs : c.stage = .running) (n words bad i : Nat) (q : QCount) (g : Field → Field) (x : Fill) :
    (((((v.harrowElems c n).event c.ring c.seq 14 n).event c.ring c.seq 5 words).countQuant q bad).modField i g).modCmd c.ring c.seq
      (fun d => (d.countQuant q bad).filled x) = (((v.perfAdd 17 n).countQuant q bad).modField i g).setCmd (c.rowUpdated n words q bad x) := by
  have hf : c.stage ≠ .finished := by rw [hs]; decide
  have hp := h.perfAdd 17 n
  have h1 := c.event_same 10 n
  have h2 := h1.trans (Cmd.event_same _ 14 n)
  have h3 := h2.trans (Cmd.event_same _ 5 words)
  rw [h.harrowElems hf, hp.setCmd_event h1 hf, hp.setCmd_event h2 hf, countQuant_setCmd, modField_setCmd]
  have hv : (((v.perfAdd 17 n).countQuant q bad).modField i g).alone c := hp.of_cmds rfl
  exact hv.setCmd_modCmd h3 (f := fun d : Cmd => (d.countQuant q bad).filled x) ((Cmd.countQuant_same _ _ _).trans (Cmd.filled_same _ _)).order

theorem updateBrow_eq {s : State} {c : Cmd} (h : s.alone c) (hsolo : s.solo) (hs : c.stage = .running) {f : Field} {k : Nat} (hne : browBytes f k ≠ 0) :
    ∃ n words q bad b x, x.asked = k + 1 ∧ s.updateBrow c f k =
      (((({ s with queue := s.queue ++ s.browWrites c f k } : State).perfAdd 17 n).countQuant q bad).modField (pkField c.run)
        (requantised k b)).setCmd (c.rowUpdated n words q bad x) := by
  have ho : (List.range (s.browWords f (leNat c.run 40 8) k).length).map (fun i =>
      updElem (pkHyper c.run) c.work.fill.factor ((s.browWords f (leNat c.run 40 8) k).getD i 0) ((s.browWords f (leNat c.run 48 8) k).getD i 0)
        ((s.browWords f (leNat c.run 56 8) k).getD i 0) ((s.browWords f (leNat c.run 64 8) k).getD i 0)) = s.browOut c f k := by
    rw [browWords_length]
    rfl
  have hw := outputs_solo hsolo c k (a₁ := browAddr f (leNat c.run 72 8) k) (a₂ := browAddr f (leNat c.run 80 8) k)
    (a₃ := browAddr f (leNat c.run 88 8) k) (browOut_bytes (s := s) (c := c) hne Updated.w) (browOut_bytes (s := s) (c := c) hne Updated.m1)
    (browOut_bytes (s := s) (c := c) hne Updated.m2)
  unfold outBytes at hw
  unfold State.updateBrow
  dsimp only
  rw [ho]
  generalize convertBrow _ _ _ _ _ = bq
  rw [hw]
  have hq : ({ s with queue := s.queue ++ s.browWrites c f k } : State).alone c := h.of_cmds rfl
  refine ⟨_, _, _, _, _, _, ?_, rowUpdated_of hq hs _ _ _ _ _ (requantised k bq.1) _⟩
  rfl

/-! ### Its answer -/

/-- An UPDATE whose block row has been answered: it counts as done (R186, R190). -/
def Cmd.answered (c : Cmd) : Cmd :=
  c.filled { c.work.fill with done := c.work.fill.asked, amax := fpMax c.work.fill.amax c.work.fill.rowMax, rowMax := fpZero }

theorem Cmd.answered_same (c : Cmd) : SameName c c.answered := c.filled_same _

theorem browDone_next {s : State} (hs : s.solo) {c : Cmd} {f : Field} (h : c.work.fill.asked < f.brows) :
    s.browDone c f = { s.setCmd c.answered with queue := s.queue ++ browReads c f c.work.fill.asked } := by
  rw [← browReads_same c.answered_same rfl]
  unfold State.browDone
  dsimp only
  rw [tell_solo (by exact hs), if_pos h]
  exact askBrow_eq _ _ _ _

/-- The field of an UPDATE whose last block row is written (R188). -/
def updatedField (m amax : F32) (f : Field) : Field :=
  fieldReady amax { f with eRow := globalExp .e2m1 m, leftOver := false, browsDone := 0, amaxPart := fpZero }

theorem browDone_last {s : State} (hs : s.solo) {c : Cmd} {f : Field} (h : f.brows ≤ c.work.fill.asked) :
    s.browDone c f = (s.modField (pkField c.run) (updatedField c.work.fill.m (fpMax c.work.fill.amax c.work.fill.rowMax))).setCmd
      c.answered.committing := by
  unfold State.browDone
  dsimp only
  rw [tell_solo (by exact hs), if_neg (Nat.not_lt.2 h)]
  have e := openCommit_solo (s := (s.setCmd c.answered).modField (pkField c.run)
    (updatedField c.work.fill.m (fpMax c.work.fill.amax c.work.fill.rowMax))) hs c.answered
  rw [modField_setCmd, setCmd_setCmd _ c.answered.committing_same.order.symm] at e
  exact e

/-! ### The rows -/

section
variable {s u : State} {r : Nat} {q : U32} {c : Cmd} {ok : List Byte → Bool} (hb : SameBase s u) (h : FillTurn u r q c) (hop : c.op = opUpdate)
  (hk : ok c.run = true) (hs : c.started = true) (hg : c.work.fill.gathered = true)
include hb h hop hk hs hg

theorem update_row (he : c.work.fill.asked = c.work.fill.done)
    (ho : u.openIdx r q .updRead ((u.fieldOf c).brows + c.work.fill.done) = false) (hne : browBytes (u.fieldOf c) c.work.fill.done ≠ 0) :
    ∃ t, s.keep (updateDo ok r q 1 u) = t ∧
      u.framed t t.fields (u.queue ++ u.browWrites c (u.fieldOf c) c.work.fill.done) t.perf t.totals u.granary.poison ∧
      (∃ b, u.onlyField t (pkField c.run) (requantised c.work.fill.done b (u.fieldOf c))) ∧
      t.holds c.order fun d => d.stage = .running ∧ d.work.fill.asked = c.work.fill.done + 1 := by
  obtain ⟨n, words, k, bad, b, x, hx, e⟩ := updateBrow_eq h.alone h.solo (h.running hs) hne
  have hu := h.update_rowing hop hs hg
  rw [if_neg (by omega), ho, if_neg Bool.false_ne_true, e] at hu
  have hd := c.rowUpdated_same n words k bad x
  have hrun := (c.rowUpdated_stage n words k bad x).trans (h.running hs)
  have hfill := c.rowUpdated_fill n words k bad x
  generalize c.rowUpdated n words k bad x = d at hd hrun hfill hu
  have hq := (State.framed.refl u).withQueue (u.queue ++ u.browWrites c (u.fieldOf c) c.work.fill.done)
  have hqa : ({ u with queue := u.queue ++ u.browWrites c (u.fieldOf c) c.work.fill.done } : State).alone c := h.alone.of_cmds rfl
  generalize hv : ({ u with queue := u.queue ++ u.browWrites c (u.fieldOf c) c.work.fill.done } : State) = v at hq hqa hu
  obtain ⟨p, hp⟩ := perfAdd_frame v 17 n
  have ha : (((v.perfAdd 17 n).countQuant k bad).modField (pkField c.run) (requantised c.work.fill.done b)).alone c :=
    (hqa.perfAdd 17 n).of_cmds rfl
  have hframe := (((hq.perfAdd 17 n).countQuant k bad).modField (pkField c.run) (requantised c.work.fill.done b)).setCmd d
  exact ⟨_, update_goes hb h hop hk hs hu hframe.base (ha.setCmd_holds hd hrun), hframe.self_fields.self_perf.self_totals,
    ⟨b, onlyField_from (v := (v.perfAdd 17 n).countQuant k bad) (by rw [hp, ← hv]; rfl) rfl⟩,
    ha.setCmd_holds hd ⟨hrun, by rw [hfill, hx]⟩⟩

theorem update_answered (hlt : c.work.fill.done < c.work.fill.asked) (hw : u.writesOpen r q = false)
    (hn : c.work.fill.asked < (u.fieldOf c).brows) :
    ∃ t, s.keep (updateDo ok r q 1 u) = t ∧
      u.framed t u.fields (u.queue ++ browReads c (u.fieldOf c) c.work.fill.asked) u.perf u.totals u.granary.poison ∧
      t.holds c.order fun d => d.stage = .running ∧ d.work.fill.done = c.work.fill.asked ∧
        d.work.fill.amax = fpMax c.work.fill.amax c.work.fill.rowMax := by
  have hu := h.update_rowing hop hs hg
  rw [if_pos hlt, hw, if_neg Bool.false_ne_true, browDone_next h.solo hn] at hu
  have hrun := h.running hs
  have hframe := ((State.framed.refl u).setCmd c.answered).withQueue (u.queue ++ browReads c (u.fieldOf c) c.work.fill.asked)
  exact ⟨_, update_goes hb h hop hk hs hu hframe.base (h.alone.setCmd_holds c.answered_same hrun), hframe,
    h.alone.setCmd_holds c.answered_same ⟨hrun, rfl, rfl⟩⟩

theorem update_completes (hlt : c.work.fill.done < c.work.fill.asked) (hw : u.writesOpen r q = false)
    (hn : (u.fieldOf c).brows ≤ c.work.fill.asked) :
    ∃ v : State, s.keep (updateDo ok r q 1 u) = v.settle ∧ u.framed v v.fields u.queue u.perf u.totals u.granary.poison ∧
      u.onlyField v (pkField c.run) (updatedField c.work.fill.m (fpMax c.work.fill.amax c.work.fill.rowMax) (u.fieldOf c)) ∧
      v.holds c.order fun d => (d.stage = .committing ∧ d.reason = c.reason ∧ d.commit = true) ∧ d.work.fill.done = c.work.fill.asked ∧
        d.work.fill.amax = fpMax c.work.fill.amax c.work.fill.rowMax ∧ ∀ f, classBody f d .ok = updateBody c.run d.work := by
  have hu := h.update_rowing hop hs hg
  rw [if_pos hlt, hw, if_neg Bool.false_ne_true, browDone_last h.solo hn] at hu
  have hd := c.answered_same.trans (Cmd.committing_same _)
  have hover : c.answered.committing.stage ≠ .running := by exact Stage.noConfusion
  have ha : (u.modField (pkField c.run) (updatedField c.work.fill.m (fpMax c.work.fill.amax c.work.fill.rowMax))).alone c := h.alone.of_cmds rfl
  have hframe := ((State.framed.refl u).modField (pkField c.run)
    (updatedField c.work.fill.m (fpMax c.work.fill.amax c.work.fill.rowMax))).setCmd c.answered.committing
  have hi := idle_of_alone (ha.named hd) hover
  rw [hd.ring, hd.seq, h.ring, h.seq] at hi
  exact ⟨_, update_ends hb h hop hk hs hu hframe.base (ha.setCmd_holds hd hover) hi 0, hframe.self_fields, onlyField_of rfl,
    ha.setCmd_holds hd ⟨⟨rfl, rfl, rfl⟩, rfl, rfl, fun f => classBody_update (c := c.answered.committing) hop f .ok⟩⟩

end

end Sys2Proof.Machine
end

section
/-! PROOF. The rows of SOW_FILL: a chunk and its answer (R154, R155, R358). -/

namespace Sys2Proof.Machine

/-- A SOW_FILL as it starts. -/
def Cmd.fillStarted (c : Cmd) : Cmd := { c with started := true, stage := .running }

/-- A SOW_FILL whose chunk of `n` elements is asked for. -/
def Cmd.chunkAsked (c : Cmd) (n : Nat) : Cmd := (c.event 10 n).filled { c.work.fill with asked := c.work.fill.done + n }

theorem Cmd.chunkAsked_same (c : Cmd) (n : Nat) : SameName c (c.chunkAsked n) := (c.event_same 10 n).trans (Cmd.filled_same _ _)

/-- A SOW_FILL whose chunk has been answered. -/
def Cmd.chunkDone (c : Cmd) : Cmd := c.filled { c.work.fill with done := c.work.fill.asked }

theorem Cmd.chunkDone_same (c : Cmd) : SameName c c.chunkDone := c.filled_same _

/-- The elements of the next chunk. -/
def Cmd.chunk (c : Cmd) : Nat := min fillChunk (pkFillCount c.run - c.work.fill.done)

/-- The write of the next chunk. -/
def Cmd.chunkWrite (c : Cmd) : Range :=
  writeRange .fill c c.work.fill.done (leNat c.run 48 8 + fillOffset c.run c.work.fill.done) (pkFillBytes c.run c.work.fill.done c.chunk)

theorem fillNext_eq {s : State} (hsolo : s.solo) {c : Cmd} (h : s.alone c) (hs : c.stage = .running)
    (hne : pkFillBytes c.run c.work.fill.done c.chunk ≠ []) : s.fillNext c =
      (({ s with queue := s.queue ++ [c.chunkWrite] } : State).perfAdd 17 c.chunk).setCmd (c.chunkAsked c.chunk) := by
  have hf : c.stage ≠ .finished := by rw [hs]; decide
  have hq : ({ s with queue := s.queue ++ [c.chunkWrite] } : State).alone c := h.of_cmds rfl
  have ho := output_solo hsolo c .fill 0 c.work.fill.done (leNat c.run 48 8 + fillOffset c.run c.work.fill.done)
    (pkFillBytes c.run c.work.fill.done c.chunk)
  rw [if_neg (by rwa [List.length_eq_zero_iff])] at ho
  show ((s.output c .fill 0 c.work.fill.done (leNat c.run 48 8 + fillOffset c.run c.work.fill.done)
    (pkFillBytes c.run c.work.fill.done c.chunk)).harrowElems c c.chunk).modFill c (fun u => { u with asked := c.work.fill.done + c.chunk }) = _
  rw [ho]
  show (({ s with queue := s.queue ++ [c.chunkWrite] } : State).harrowElems c c.chunk).modFill c _ = _
  rw [hq.harrowElems hf]
  exact (hq.perfAdd _ _).setCmd_modFill (c.event_same 10 _) _

theorem fillDone_next {s : State} (hs : s.solo) {c : Cmd} (h : c.work.fill.asked ≠ pkFillCount c.run) : s.fillDone c = s.setCmd c.chunkDone := by
  unfold State.fillDone
  dsimp only
  rw [if_neg h, tell_solo (by exact hs)]
  rfl

theorem fillDone_last {s : State} (hs : s.solo) {c : Cmd} (h : c.work.fill.asked = pkFillCount c.run) :
    s.fillDone c = s.setCmd c.chunkDone.committing := by
  unfold State.fillDone
  dsimp only
  rw [if_pos h, tell_solo (by exact hs)]
  have e := openCommit_solo (s := s.setCmd c.chunkDone) hs c.chunkDone
  rw [setCmd_setCmd _ c.chunkDone.committing_same.order.symm] at e
  exact e

theorem classBody_fill {c : Cmd} (h : c.op = opSowFill) (f : Field) (r : Reason) : classBody f c r = ⟨[(32, 8, c.work.fill.done)], false, false⟩ := by
  unfold classBody
  dsimp only
  rw [h]
  rfl

section
variable {s u : State} {r : Nat} {q : U32} {c : Cmd} (hb : SameBase s u) (h : FillTurn u r q c) (hop : c.op = opSowFill)
include h hop

theorem FillTurn.fill_unit (hs : c.started = true) : u.fillUnit r q =
    if c.work.fill.asked = c.work.fill.done then u.fillNext c else if u.writesOpen r q then u else u.fillDone c := by
  rw [← h.ring, ← h.seq]
  unfold State.fillUnit
  rw [h.alone.cmd]
  exact if_neg fun hn => hn.elim (fun x => x hop) fun x => x (h.running hs)

include hb

theorem sowFill_starts (hs : c.started = false) : ∃ t, s.keep (sowFillDo r q 0 u) = t ∧
    u.framed t u.fields u.queue u.perf u.totals u.granary.poison ∧ t.holds c.order fun d => d.stage = .running ∧ d.started = true := by
  have hframe := (State.framed.refl u).setCmd c.fillStarted
  have hd : Cmd.SameName c c.fillStarted := ⟨rfl, rfl, rfl⟩
  unfold sowFillDo
  rw [← hop]
  exact ⟨_, h.start_goes hb (ok := fun _ => true) rfl hs rfl hframe.base (h.alone.setCmd_holds hd rfl), hframe, h.alone.setCmd_holds hd ⟨rfl, rfl⟩⟩

theorem sowFill_chunk (hs : c.started = true) (he : c.work.fill.asked = c.work.fill.done)
    (hne : pkFillBytes c.run c.work.fill.done c.chunk ≠ []) : ∃ t, s.keep (sowFillDo r q 1 u) = t ∧
      u.framed t u.fields (u.queue ++ [c.chunkWrite]) t.perf u.totals u.granary.poison ∧
      t.holds c.order fun d => d.stage = .running ∧ d.work.fill.asked = c.work.fill.done + c.chunk := by
  have hu := h.fill_unit hop hs
  rw [if_pos he, fillNext_eq h.solo h.alone (h.running hs) hne] at hu
  have hq : ({ u with queue := u.queue ++ [c.chunkWrite] } : State).alone c := h.alone.of_cmds rfl
  have ha := hq.perfAdd 17 c.chunk
  have hd := c.chunkAsked_same c.chunk
  have hrun : (c.chunkAsked c.chunk).stage = .running := h.running hs
  have hframe := (((State.framed.refl u).withQueue (u.queue ++ [c.chunkWrite])).perfAdd 17 c.chunk).setCmd (c.chunkAsked c.chunk)
  unfold sowFillDo
  rw [← hop]
  exact ⟨_, h.unit_goes hb (ok := fun _ => true) rfl hs hu hframe.base (ha.setCmd_holds hd hrun), hframe.self_perf,
    ha.setCmd_holds hd ⟨hrun, rfl⟩⟩

theorem sowFill_answered (hs : c.started = true) (he : c.work.fill.asked ≠ c.work.fill.done) (hw : u.writesOpen r q = false)
    (hn : c.work.fill.asked ≠ pkFillCount c.run) : ∃ t, s.keep (sowFillDo r q 1 u) = t ∧
      u.framed t u.fields u.queue u.perf u.totals u.granary.poison ∧
      t.holds c.order fun d => d.stage = .running ∧ d.work.fill.done = c.work.fill.asked := by
  have hu := h.fill_unit hop hs
  rw [if_neg he, hw, if_neg Bool.false_ne_true, fillDone_next h.solo hn] at hu
  have hrun := h.running hs
  have hframe := (State.framed.refl u).setCmd c.chunkDone
  unfold sowFillDo
  rw [← hop]
  exact ⟨_, h.unit_goes hb (ok := fun _ => true) rfl hs hu hframe.base (h.alone.setCmd_holds c.chunkDone_same hrun), hframe,
    h.alone.setCmd_holds c.chunkDone_same ⟨hrun, rfl⟩⟩

theorem sowFill_ends (hs : c.started = true) (he : c.work.fill.asked ≠ c.work.fill.done) (hw : u.writesOpen r q = false)
    (hn : c.work.fill.asked = pkFillCount c.run) : ∃ v : State, s.keep (sowFillDo r q 1 u) = v.settle ∧
      u.framed v u.fields u.queue u.perf u.totals u.granary.poison ∧
      v.holds c.order fun d => (d.stage = .committing ∧ d.reason = c.reason ∧ d.commit = true) ∧
        ∀ f, classBody f d .ok = ⟨[(32, 8, pkFillCount c.run)], false, false⟩ := by
  have hu := h.fill_unit hop hs
  rw [if_neg he, hw, if_neg Bool.false_ne_true, fillDone_last h.solo hn] at hu
  have hd := c.chunkDone_same.trans (Cmd.committing_same _)
  have hover : c.chunkDone.committing.stage ≠ .running := by exact Stage.noConfusion
  have hbody (f : Field) := classBody_fill (c := c.chunkDone.committing) hop f .ok
  have hframe := (State.framed.refl u).setCmd c.chunkDone.committing
  unfold sowFillDo
  rw [← hop]
  exact ⟨_, h.unit_ends hb (ok := fun _ => true) rfl hs hu hframe.base (h.alone.setCmd_holds hd hover) (n := 0) rfl, hframe,
    h.alone.setCmd_holds hd ⟨⟨rfl, rfl, rfl⟩, fun f => hn ▸ hbody f⟩⟩

end

end Sys2Proof.Machine
end

section
/-! PROOF. LOAD_HEAD, UPDATE and SOW_FILL: their dispatch, their rows and their ends (R31, R42, R54, R104 to R109, R154, R155, R186 to R190, R354,
R356, R358). -/

namespace Sys2Proof.Machine

/-! ### What the statement's words are here -/

theorem loadRange_image {c : Cmd} (h : pkLoadFmt c.run = 0) (f : Field) (k i : Nat) : loadRange c f k i =
    readRange .loadSrc c i (leNat c.run 48 8 + (f.first + k) * 516 * f.h) (516 * f.h) := if_pos h

theorem loadRanges_array {c : Cmd} (h : pkLoadFmt c.run ≠ 0) (f : Field) (i : Nat) : loadRanges c f i =
    ((List.range (64 * f.n)).map fun k => readRange .loadSrc c (i + k) (leNat c.run 48 8 + browFirst f k * f.h * loadElem c.run)
      (browRows f k * f.h * loadElem c.run)).filter fun r => r.len != 0 := by
  unfold loadRanges loadRange
  simp only [if_neg h]

theorem loadFault_none {u : State} {c : Cmd} (hf : pkLoadFmt c.run = 0) (hs : hasScaleFault (u.nextRecord c) = false)
    (hr : hasRowFault ((u.fieldOf c).rowsOf c.work.fill.done) (u.nextRecord c) = false) : u.loadFault c = none := by
  unfold State.nextRecord at hs hr
  unfold State.loadFault recordFault
  rw [if_pos hf, hs, hr]
  rfl

theorem loadFault_some {u : State} {c : Cmd} (hf : pkLoadFmt c.run = 0) (h : hasScaleFault (u.nextRecord c) = true ∨
    hasRowFault ((u.fieldOf c).rowsOf c.work.fill.done) (u.nextRecord c) = true) :
    u.loadFault c = some (if hasScaleFault (u.nextRecord c) then .badScale else .badImage) := by
  unfold State.nextRecord at h ⊢
  unfold State.loadFault recordFault
  rw [if_pos hf]
  cases hs : hasScaleFault (u.recordRead c (u.fieldOf c) c.work.fill.done) with
  | true => rfl
  | false =>
    rw [hs] at h
    rw [h.resolve_left Bool.false_ne_true]
    rfl

/-- The row of an UPDATE by its mode: the packet is the row's own, and the units are the row's, all of them with MODE = 1. -/
theorem exec_update (ring : Fin 64) (seq : U32) (k : Nat) (now : Time) (s : State) (p : List Byte) : ∃ ok m, ok p = true ∧
    exec (if pkUpdMode1 p then .updateSqsum ring seq now else if pkUpdResume p then .updateResume ring seq k now else .update ring seq k now) s =
      .next (s.keep (updateDo ok ring.val seq m (s.tick now))) ∧ m = if pkUpdMode1 p then 65537 else k := by
  cases hm : pkUpdMode1 p with
  | true => exact ⟨fun p => pkUpdMode1 p, 65537, hm, rfl, rfl⟩
  | false =>
    cases hr : pkUpdResume p with
    | true => exact ⟨fun p => !pkUpdMode1 p && pkUpdResume p, k, by dsimp only; rw [hm, hr]; rfl, rfl, rfl⟩
    | false => exact ⟨fun p => !pkUpdMode1 p && !pkUpdResume p, k, by dsimp only; rw [hm, hr]; rfl, rfl, rfl⟩

/-- A row that dispatches its packet. -/
theorem dispatch_goes {s u : State} (hb : SameBase s u) {r op n : Nat} {c : Cmd} {ok : List Byte → Bool} (start : State → Cmd → State)
    (unit : State → State) (hf : u.classFront r op = some c) (hk : ok c.run = true) :
    ∃ t, s.keep (u.fillRow r c.seq op ok n start unit) = t ∧ classQueued u t c := by
  have hq := fillRow_queued (n := n) start unit hf hk
  exact ⟨_, (SameBase.of_still (u := { u with nextOrder := u.nextOrder + 1 }) ⟨hb.pending, hb.build, hb.mem⟩ hq.2.1).keep, hq⟩

/-- A row that goes on, as its instruction. -/
theorem goes_of {a : Instr} {s x : State} {P Q : State → Prop} (e : exec a s = .next x) (h : ∃ t, x = t ∧ P t) (hpq : ∀ t, P t → Q t) :
    ∃ t, exec a s = .next t ∧ Q t := by
  obtain ⟨t, rfl, ht⟩ := h
  exact ⟨x, e, hpq x ht⟩

/-- A row that ends its command, as its instruction. -/
theorem ends_of {a : Instr} {s x : State} {P Q : State → Prop} (e : exec a s = .next x) (h : ∃ v : State, x = v.settle ∧ P v) (hpq : ∀ v, P v → Q v) :
    ∃ v : State, exec a s = .next v.settle ∧ Q v := by
  obtain ⟨v, rfl, hv⟩ := h
  exact ⟨v, e, hpq v hv⟩

/-- Settles O50: each row of a fill is the start or one unit of its command, and what a unit does is said once for each kind of unit; how many units
a row runs is the model's cut (log 34). -/
theorem fillCommands : Obligations.FillCommands := by
  unfold Obligations.FillCommands
  intro ring seq n now s c u p f w i goes ends onlyField queued load upd fill record rowsRead brow begins
  have hb : SameBase s u := tick_base s now
  have hload (k : Nat) : exec (load k) s = .next (s.keep (loadHeadDo ring.val seq k u)) := rfl
  have hfill (k : Nat) : exec (fill k) s = .next (s.keep (sowFillDo ring.val seq k u)) := rfl
  have hupd (k : Nat) : ∃ ok m, ok p = true ∧ exec (upd k) s = .next (s.keep (updateDo ok ring.val seq m u)) ∧
    m = if pkUpdMode1 p then 65537 else k := exec_update ring seq k now s p
  have hrow (k : Nat) (hm : pkUpdMode1 p = false) : ∃ ok, ok p = true ∧ exec (upd k) s = .next (s.keep (updateDo ok ring.val seq k u)) := by
    obtain ⟨ok, m, hk, e, hn⟩ := hupd k
    rw [hm, if_neg Bool.false_ne_true] at hn
    exact ⟨ok, hk, hn ▸ e⟩
  refine ⟨fun hq => ⟨fun hf => ?_, fun hf => ?_, fun hf => ?_⟩, fun hring hseq hnamed hord hsolo hfront hfillable hturn => ?_⟩
  · exact goes_of (hload n) (hq ▸ dispatch_goes hb (ok := fun _ => true) _ _ hf rfl) fun t ht => ht
  · obtain ⟨ok, m, hk, e, -⟩ := hupd n
    exact goes_of e (hq ▸ dispatch_goes hb _ _ hf hk) fun t ht => ht
  · exact goes_of (hfill n) (hq ▸ dispatch_goes hb (ok := fun _ => true) _ _ hf rfl) fun t ht => ht
  have h : FillTurn u ring.val seq c := ⟨hring, hseq, hnamed.alone hord, hsolo, hfront, hfillable, hturn⟩
  refine ⟨fun hop hs => ⟨fun x hx => ?_, fun base units stream hx hp => ?_⟩, fun hop hs hfmt hg ho hlt => ?_, fun hop hs hfmt hlt ho => ?_,
    fun hop hs => ⟨fun x hx => ?_, fun hx hm hcl hk => ?_, fun hx hm hcl => ?_⟩, fun hop hs hm hg hlt ho => ?_,
    fun hop hs hm hg hge hlt => ?_, fun hop hs hm hg hge => ?_, fun hop hs hm hg he ho hne => ?_, fun hop hs hm hg hlt hw => ?_,
    fun hop hs => ?_, fun hop hs he hne => ?_, fun hop hs he hw => ⟨fun hn => ?_, fun hn => ?_⟩⟩
  · exact goes_of (hload n) (loadHead_refused hb h hop hs hx) fun t ht => ht
  · refine ⟨fun hst => ?_, fun hst => ?_⟩
    · subst hst
      refine goes_of (hload 0) (loadHead_stored hb h hop hs hx hp) fun t ⟨ht, hf, hh⟩ => ⟨?_, hf, hh⟩
      by_cases hfmt : pkLoadFmt c.run = 0
      · rw [if_pos hfmt, loadRange_image hfmt] at ht
        rw [if_pos (show pkLoadFmt p = 0 from hfmt)]
        exact ht
      · rw [if_neg hfmt, loadRanges_array hfmt] at ht
        rw [if_neg (show ¬ pkLoadFmt p = 0 from hfmt)]
        exact ht
    · subst hst
      exact ends_of (hload 0) (loadHead_stream hb h hop hs hx hp) fun v hv => hv
  · refine ⟨fun hbad hst hm => ?_, fun hsc hrow => ⟨fun hn => ?_, fun hn => ?_⟩⟩
    · refine ends_of (hload 1) (loadHead_recordFaulty hb h hop hs hfmt ho (loadFault_some hfmt hbad) ?_ ?_ hst hm) fun v hv => hv
      · split <;> decide
      · split <;> decide
    · refine goes_of (hload 1) (loadHead_recordNext hb h hop hs hfmt ho (loadFault_none hfmt hsc hrow) hn) fun t ⟨ht, hf, hh⟩ => ⟨?_, hf, hh⟩
      rw [loadRange_image hfmt] at ht
      exact ht
    · exact ends_of (hload 1) (loadHead_recordLast hb h hop hs hfmt ho (loadFault_none hfmt hsc hrow) hn hg) fun v ⟨hv, hf, hh⟩ =>
        ⟨hv, hf, holds_mono hh fun d hd => ⟨hd.1, hd.2 _⟩⟩
  · rcases hrows : u.arrayRows p f w.done with ⟨rows, bad⟩
    dsimp only
    rcases hblks : convertBrow f.eRow (weightDraw (pktBit p 33 4) (le64 p 64) (leNat p 34 2)) (browFirst f w.done) f.h rows with ⟨blks, q⟩
    dsimp only
    have hr : u.nextRow c = (rows, bad) := hrows
    have hbq : u.nextBlocks c = (blks, q) := by
      unfold State.nextBlocks State.converted
      exact (congrArg (fun x : List (List F32) × Nat => convertBrow f.eRow (weightDraw (pktBit p 33 4) (le64 p 64) (leNat p 34 2))
        (browFirst f w.done) f.h x.1) hrows).trans hblks
    have hm : u.rowAmax c = rowsMax rows w.amax := by
      unfold State.rowAmax
      rw [hr]
    refine ⟨fun hg hn => ?_, fun hg hn => ?_, fun hg hn => ?_, fun hg hn => ?_⟩
    · have hg := loadHead_gatherNext hb h hop hs hfmt ho hg hn
      rw [hm] at hg
      exact goes_of (hload 1) hg fun t ht => ht
    · have hg := loadHead_gatherLast hb h hop hs hfmt ho hg hn
      rw [hm] at hg
      refine goes_of (hload 1) hg fun t ⟨ht, hf, hh⟩ => ⟨?_, hf, hh⟩
      rw [loadRanges_array hfmt] at ht
      exact ht
    · have hg := loadHead_convertNext hb h hop hs hfmt ho hg hn
      rw [hm, hr, hbq] at hg
      exact goes_of (hload 1) hg fun t ht => ht
    · have hg := loadHead_convertLast hb h hop hs hfmt ho hg hn
      rw [hm, hr, hbq] at hg
      exact ends_of (hload 1) hg fun v ⟨hv, ht, hf, hh⟩ =>
        ⟨hv, ht, hf, holds_mono hh fun d hd => ⟨hd.1, hd.2.1, hd.2.2 _⟩⟩
  · obtain ⟨ok, m, hk, e, -⟩ := hupd n
    exact goes_of e (update_refused hb h hop hk hs hx) fun t ht => ht
  · obtain ⟨ok, hko, e⟩ := hrow 0 hm
    exact goes_of e (update_startRows hb h hop hko hs hx hm hcl hk) fun t ht => ht
  · obtain ⟨ok, hk, e⟩ := hrow 0 hm
    exact goes_of e (update_startGathers hb h hop hk hs hx hcl) fun t ht => ht
  · obtain ⟨ok, hk, e⟩ := hrow 1 hm
    exact goes_of e (update_gathers hb h hop hk hs hg hlt ho) fun t ht => ht
  · obtain ⟨ok, hk, e⟩ := hrow 1 hm
    exact goes_of e (update_clips hb h hop hk hs hm hg hge hlt) fun t ht => ht
  · obtain ⟨ok, m, hk, e, hm'⟩ := hupd n
    rw [hm, if_pos rfl] at hm'
    subst hm'
    exact ends_of e (update_sumDone hb h hop hk hs hm hg hge 65536) fun v ⟨hv, hh⟩ => ⟨hv, holds_mono hh fun d hd => ⟨hd.1, hd.2.1, hd.2.2 _⟩⟩
  · obtain ⟨ok, hk, e⟩ := hrow 1 hm
    refine goes_of e (update_row hb h hop hk hs hg he ho hne) fun t ⟨ht, ⟨b, hf⟩, hh⟩ => ⟨ht.named.2.1, ht.self_queue, ⟨?_, hf.2⟩, hh⟩
    have hi : t.field i = requantised w.done b f := hf.1
    rw [hi]
    rfl
  · obtain ⟨ok, hk, e⟩ := hrow 1 hm
    refine ⟨fun hn => ?_, fun hn => ?_⟩
    · exact goes_of e (update_answered hb h hop hk hs hg hlt hw hn) fun t ht => ht
    · exact ends_of e (update_completes hb h hop hk hs hg hlt hw hn) fun v ⟨hv, hf, hh⟩ =>
        ⟨hv, hf, holds_mono hh fun d hd => ⟨hd.1, hd.2.1, hd.2.2.1, hd.2.2.2 _⟩⟩
  · exact goes_of (hfill 0) (sowFill_starts hb h hop hs) fun t ht => ht
  · exact goes_of (hfill 1) (sowFill_chunk hb h hop hs he hne) fun t ⟨ht, hh⟩ => ⟨ht.self_queue, ht.named.2.1, hh⟩
  · exact goes_of (hfill 1) (sowFill_answered hb h hop hs he hw hn) fun t ht => ht
  · exact ends_of (hfill 1) (sowFill_ends hb h hop hs he hw hn) fun v ⟨hv, hh⟩ => ⟨hv, holds_mono hh fun d hd => ⟨hd.1, hd.2 _⟩⟩

end Sys2Proof.Machine
end

section
/-! PROOF. The Sower probe and the Winnower's function probe (R157, R229). -/

namespace Sys2Proof.Machine

/-! ### The Sower probe -/

theorem sowGoDo_one (s : State) : sowGoDo 1 s = { s with win := { s.win with sowBusy := true } } := by
  cases hb : s.win.sowBusy with
  | false => exact if_pos (by rw [hb]; decide)
  | true =>
    calc sowGoDo 1 s = s := if_neg (by simp [hb])
      _ = { s with win := { s.win with sowBusy := true } } := by rw [← hb]

theorem exec_sowProbeGo {s : State} (hs : s.serves) :
    exec .sowProbeGo s = .next { s with win := { s.win with sowBusy := true }, apb := apbDone } := by
  refine congrArg Host.Outcome.next ((regWrite_row hs (sowGoDo 1)).trans ?_)
  rw [sowGoDo_one]
  rfl

theorem exec_sowProbeDone {s : State} (hr : s.running = true) : exec .sowProbeDone s = .next (s.keep (sowDoneDo s)) :=
  congrArg (fun x => Host.Outcome.next (s.keep x)) (if_pos hr)

/-! ### The function probe -/

/-- FN and GO are taken only while BUSY is 0 (R229). -/
theorem fnCtlDo_win (v : U32) (s : State) :
    fnCtlDo v s = { s with win := if s.win.fnBusy then s.win else { s.win with fnSel := v.getLsbD 1, fnBusy := v.getLsbD 0 } } := by
  unfold fnCtlDo
  split <;> rfl

theorem exec_winFnGo (v : U32) {s : State} (hs : s.serves) : exec (.winFnGo v) s = .next { s with
    apb := apbDone, win := if s.win.fnBusy then s.win else { s.win with fnSel := v.getLsbD 1, fnBusy := v.getLsbD 0 } } := by
  refine congrArg Host.Outcome.next ((regWrite_row hs (fnCtlDo v)).trans ?_)
  rw [fnCtlDo_win]
  rfl

theorem exec_winFnDone {s : State} (hr : s.running = true) : exec .winFnDone s = .next (s.keep (fnDoneDo s)) :=
  congrArg (fun x => Host.Outcome.next (s.keep x)) (if_pos hr)

/-- The result of an argument: 0 outside the domain, else the function that FN selects. -/
def fnProbeOut (ln : Bool) (x : F32) : F32 := if fnDomErr ln x then 0 else if ln then lnFn x else expFn x

theorem fnDone_eq {s : State} (hb : s.win.fnBusy = true) : fnDoneDo s = { s with win := { s.win with
    fnBusy := false, fnDomErr := fnDomErr s.win.fnSel s.win.fnArg, fnOut := fnProbeOut s.win.fnSel s.win.fnArg } } :=
  if_neg (by rw [hb]; exact Bool.false_ne_true)

theorem fnProbeOut_outside {ln : Bool} {x : F32} (h : fnDomErr ln x = true) : fnProbeOut ln x = 0 := if_pos h

theorem fnProbeOut_exp {x : F32} (h : fnDomErr false x = false) : fnProbeOut false x = expFn x := by
  simp [fnProbeOut, h]

theorem fnProbeOut_ln {x : F32} (h : fnDomErr true x = false) : fnProbeOut true x = lnFn x := by
  simp [fnProbeOut, h]

/-- exp takes a finite argument that is not positive. -/
theorem fnDomErr_exp {x : F32} : fnDomErr false x = true ↔ fpFinite x = false ∨ fpPosFinite x = true := by
  simp [fnDomErr]

/-- ln takes a positive finite argument. -/
theorem fnDomErr_ln {x : F32} : fnDomErr true x = true ↔ fpPosFinite x = false := by
  simp [fnDomErr]

theorem fnDomErr_exp_inside {x : F32} (hf : fpFinite x = true) (hp : fpPosFinite x = false) : fnDomErr false x = false := by
  simp [fnDomErr, hf, hp]

theorem fnDomErr_ln_inside {x : F32} (hp : fpPosFinite x = true) : fnDomErr true x = false := by
  simp [fnDomErr, hp]

/-- The row writes DOM_ERR and WIN_FN_OUT, clears BUSY and leaves the rest of the block. -/
theorem winFnDone_row (s : State) (hr : s.running = true) (hb : s.win.fnBusy = true) :
    ∃ t, exec .winFnDone s = .next t ∧
      t = { s with win := { s.win with fnBusy := false, fnDomErr := t.win.fnDomErr, fnOut := t.win.fnOut } } ∧
      t.win.fnDomErr = fnDomErr s.win.fnSel s.win.fnArg ∧ t.win.fnOut = fnProbeOut s.win.fnSel s.win.fnArg := by
  rw [exec_winFnDone hr, fnDone_eq hb]
  exact ⟨_, rfl, rfl, rfl, rfl⟩

/-- Settles O32: GO by the answer to a register write, the ends by what the evaluations write; the domain of exp and of ln tells
DOM_ERR, and DOM_ERR which value is written. -/
theorem functionProbes : Obligations.FunctionProbes := by
  unfold Obligations.FunctionProbes
  refine ⟨fun s hs => exec_sowProbeGo hs, fun s hr hb => ?_, fun v s hs => exec_winFnGo v hs, fun s hr hb => ?_⟩
  · obtain ⟨q, hq, hout⟩ := sowDone_eq s hb
    rw [exec_sowProbeDone hr, hq]
    exact ⟨_, rfl, rfl, hout⟩
  · obtain ⟨t, he, ht, herr, hout⟩ := winFnDone_row s hr hb
    have outside (h : fnDomErr s.win.fnSel s.win.fnArg = true) : t.win.fnDomErr = true ∧ t.win.fnOut = 0 :=
      ⟨herr.trans h, hout.trans (fnProbeOut_outside h)⟩
    refine ⟨t, he, ht, ?exp, ?expErr, ?ln, ?lnErr⟩
    all_goals
      intro hsel
      rw [hsel] at herr hout outside
    case exp =>
      intro hf hp
      have hd := fnDomErr_exp_inside hf hp
      exact ⟨herr.trans hd, hout.trans (fnProbeOut_exp hd)⟩
    case expErr => exact fun h => outside (fnDomErr_exp.2 h)
    case ln =>
      intro hp
      have hd := fnDomErr_ln_inside hp
      exact ⟨herr.trans hd, hout.trans (fnProbeOut_ln hd)⟩
    case lnErr => exact fun h => outside (fnDomErr_ln.2 h)

end Sys2Proof.Machine
end

section
/-! PROOF. The class commands at their dispatch: the entry into a class queue, the early shard records, and SHARD_MERGE
(R119, R120, R256, R257, R260, R313, R342, R345, R359, R369, R487). -/

namespace Sys2Proof.Machine

/-! ### The entry into a class queue -/

theorem tookTurn_solo {s : State} (h : s.solo) (c : Cmd) : s.tookTurn c = s := by
  unfold State.tookTurn
  rw [h.secondary, if_neg Bool.false_ne_true, tell_solo h]

theorem sameStill_trans {s t w : State} (h : s.sameStill t) (k : t.sameStill w) : s.sameStill w := by
  obtain ⟨hstill, hring, htenant⟩ := h
  obtain ⟨kstill, kring, ktenant⟩ := k
  exact ⟨kstill.trans hstill, fun r => (kring r).trans (hring r), fun n => (ktenant n).trans (htenant n)⟩

/-- Command `d` in its class queue, dispatched as number `n`, with its pool allocation or without (R313, R119). -/
def Cmd.queuedAs (d : Cmd) (n : Nat) (granted : Bool) : Cmd := { d with disp := some n, stage := .queued, granted := granted }

/-- The order of the activation stream once `d` has joined it, where it takes a frame (R342, R389). -/
def Streams.joined (x : Streams) (d : Cmd) : Streams :=
  if isAcreOp d.op && pkStreamSrc d.run then { x with frames := x.frames ++ [(d.ring, d.seq)] } else x

/-- What a dispatch takes from the pool (R119, R120). -/
structure PoolGrant (s : State) (x : Cmd) (granted : Bool) (free : Nat) : Prop where
  takes : x.granted = false → free = s.barn.poolFree - if granted then x.granules else 0
  first : x.allocKnown = true → x.granules ≤ s.barn.poolFree →
    (∀ e ∈ s.cmds, e.order ≠ x.order → e.waitsPool = true → x.cls < e.cls) → granted = true
  other : x.allocKnown = false → granted = x.granted ∧ free = s.barn.poolFree

theorem grantAtDispatch_setCmd (s : State) (x : Cmd) : ∃ g n, PoolGrant s x g n ∧
    (s.setCmd x).grantAtDispatch x = { s.setCmd { x with granted := g } with barn := { s.barn with poolFree := n } } := by
  unfold State.grantAtDispatch
  split
  · rename_i h
    refine ⟨true, s.barn.poolFree - x.granules, ⟨fun _ => rfl, fun _ _ _ => rfl, fun hk => ?_⟩, ?_⟩
    · simp [hk] at h
    · unfold State.grantPool
      rw [setCmd_setCmd s (show x.order = ({ x with granted := true } : Cmd).order from rfl)]
      rfl
  · rename_i h
    refine ⟨x.granted, s.barn.poolFree, ⟨fun hx => by simp [hx], fun hk hfit hfirst => absurd ?_ h, fun _ => ⟨rfl, rfl⟩⟩, rfl⟩
    have hall : (s.setCmd x).cmds.all (fun e => e.order == x.order || !(e.waitsPool && (s.setCmd x).poolHolds e) || decide (x.cls < e.cls)) = true := by
      refine List.all_eq_true.2 fun e he => ?_
      obtain ⟨e', he', rfl⟩ := List.mem_map.1 he
      split
      · simp
      · rename_i hne
        cases hw : e'.waitsPool
        · simp
        · simp [hfirst e' he' hne hw]
    simp only [hk, Bool.true_and, Bool.or_eq_true, Bool.and_eq_true, decide_eq_true_eq]
    exact .inr ⟨hfit, hall⟩

/-- The next dispatch number is taken, and the stream's order joined. -/
def State.numbered (y : State) (d : Cmd) : State := { y with nextOrder := y.nextOrder + 1, streams := y.streams.joined d }

theorem enqueue_eq (u : State) (d : Cmd) :
    (let w := u.tookTurn d
     let x := d.queuedAs w.nextOrder d.granted
     u.enqueue d = ((w.setCmd x).grantAtDispatch x).numbered d) := rfl

/-- What the dispatch of `d` leaves once its turn is taken (R313). -/
theorem enqueue_form {u w : State} {d : Cmd} (hw : u.tookTurn d = w) : ∃ g n, PoolGrant w (d.queuedAs w.nextOrder d.granted) g n ∧
    u.enqueue d = State.numbered { w.setCmd (d.queuedAs w.nextOrder g) with barn := { w.barn with poolFree := n } } d := by
  subst hw
  obtain ⟨g, n, hg, e⟩ := grantAtDispatch_setCmd (u.tookTurn d) (d.queuedAs (u.tookTurn d).nextOrder d.granted)
  exact ⟨g, n, hg, (enqueue_eq u d).trans (congrArg (State.numbered · d) e)⟩

/-- `d` is packet `c`, before its dispatch, in all that its entry into a queue asks of it; its allocation may be known now. -/
structure Cmd.Prepares (c d : Cmd) : Prop where
  ring : d.ring = c.ring
  seq : d.seq = c.seq
  order : d.order = c.order
  pkt : d.pkt = c.pkt
  run : d.run = c.run
  op : d.op = c.op
  granted : d.granted = c.granted

theorem prepared_prepares (c : Cmd) (n : Nat) : Cmd.Prepares c (c.prepared n) := by
  unfold Cmd.prepared
  split <;> exact ⟨rfl, rfl, rfl, rfl, rfl, rfl, rfl⟩

theorem Cmd.Prepares.joined {c d : Cmd} (h : Prepares c d) (x : Streams) : x.joined d = x.joined c := by
  unfold Streams.joined
  rw [h.op, h.run, h.ring, h.seq]

/-- The entry into a class queue, before what comes about by itself (R313). -/
theorem enqueue_dispatches {u : State} {c d : Cmd} (hc : c ∈ u.cmds) (hd : Cmd.Prepares c d) : classQueued u (u.enqueue d) c := by
  have k := tookTurn_quiet u d
  generalize hw : u.tookTurn d = w at k
  have hnext : w.nextOrder = u.nextOrder := still_nextOrder k.still
  obtain ⟨g, n, -, e⟩ := enqueue_form hw
  have hstill : (u.enqueue d).still = ({ u with nextOrder := u.nextOrder + 1 } : State).still := by
    have hframe : (u.enqueue d).still = { w.still with nextOrder := w.nextOrder + 1 } := by
      rw [e]
      unfold State.numbered State.still Streams.joined
      dsimp only
      split <;> rfl
    rw [hframe, k.still, hnext]
    rfl
  refine ⟨?own, ⟨hstill, fun r => ?ring, fun m => ?tenant⟩, fun hs => ?pair⟩
  case own =>
    have hown := setCmd_own (s := w) (c := d.queuedAs w.nextOrder g) (P := fun x => x.dispatchedAs u.nextOrder ∧ x.pkt = c.pkt ∧ x.run = c.run)
      ⟨c, k.cmds.symm ▸ hc, hd.order.symm⟩ ⟨congrArg some hnext, hd.pkt, hd.run⟩
    rw [e]
    exact hd.order ▸ hown
  case ring => rw [e]; exact k.adv.same.2.1 r
  case tenant => rw [e]; exact k.adv.same.2.2 m
  case pair => rw [e]; exact k.pair hs

/-! ### The early records of a step -/

/-- A packet with its exchange as `m`. -/
def Cmd.withMerge (c : Cmd) (m : Merge) : Cmd := { c with work := { c.work with merge := m } }

/-- From `s` to `t` records have been taken: only exchanges and the count of discarded records have moved (R257). -/
structure TakesRecords (s t : State) : Prop where
  frame : t = { s with cmds := t.cmds, shard := { s.shard with bad := t.shard.bad } }
  holds : ∀ o P, (∀ c m, P c → P (Cmd.withMerge c m)) → s.holds o P → t.holds o P

theorem TakesRecords.refl (s : State) : TakesRecords s s := ⟨rfl, fun _ _ _ h => h⟩

theorem TakesRecords.trans {a b c : State} (h : TakesRecords a b) (k : TakesRecords b c) : TakesRecords a c := by
  refine ⟨?_, fun o P hP x => k.holds o P hP (h.holds o P hP x)⟩
  have e := k.frame
  rw [h.frame] at e
  exact e

theorem TakesRecords.foldl {α : Type} {f : State → α → State} (h : ∀ s x, TakesRecords s (f s x)) (l : List α) (s : State) :
    TakesRecords s (l.foldl f s) := by
  induction l generalizing s with
  | nil => exact .refl s
  | cons x l ih => exact (h s x).trans (ih _)

theorem takeRecord_takes (s : State) (c : Cmd) (b : List Byte) : TakesRecords s (s.takeRecord c b) := by
  unfold State.takeRecord State.modCmd
  split
  · exact ⟨rfl, fun _ _ _ h => h⟩
  · split
    · rename_i d hd
      exact ⟨rfl, fun o P hP h => setCmd_holds h fun ho => hP d _ (h.2 d (cmd_mem hd) ho)⟩
    · exact .refl s

/-- The early buffer once the records of `c` have left it; a VERIFY_TREE takes none (R257). -/
def State.earlyLeft (s : State) (c : Cmd) : List (List Byte) :=
  if isAcreOp c.op && c.op != opVerify && pkShardEn c.run then s.shard.early.filter (fun b => recTag b != pkStepTag c.run) else s.shard.early

/-- The block without the early records of `c`. -/
def State.withoutEarly (s : State) (c : Cmd) : State := { s with shard := { s.shard with early := s.earlyLeft c } }

theorem withoutEarly_verify {c : Cmd} (h : c.op = opVerify) (s : State) : s.withoutEarly c = s := by
  simp [State.withoutEarly, State.earlyLeft, h]

theorem takeEarly_takes {c : Cmd} (h : c.op ≠ opVerify) (s : State) : TakesRecords (s.withoutEarly c) (s.takeEarly c) := by
  unfold State.takeEarly State.withoutEarly State.earlyLeft
  rw [bne_iff_ne.2 h, Bool.and_true]
  split
  · refine TakesRecords.foldl (fun t b => ?_) _ _
    split
    · exact takeRecord_takes t _ b
    · exact .refl t
  · exact .refl s

/-! ### The four Acre commands -/

/-- `v` is `u` once class command `c` has been dispatched as `d`, has taken its early records and has asked for the ranges `l`. -/
structure Dispatches (u v : State) (c d : Cmd) (l : List Range) : Prop where
  mem : c ∈ u.cmds
  prepares : Cmd.Prepares c d
  taken : ∃ w, TakesRecords ((u.enqueue d).withoutEarly c) w ∧ v = { w with queue := w.queue ++ l }

/-- Beside the dispatch only shard records have moved in what stands still. -/
theorem Dispatches.queued {u v : State} {c d : Cmd} {l : List Range} (h : Dispatches u v c d l) :
    classQueued { u with shard := v.shard } v c := by
  obtain ⟨hc, hd, w, hw, rfl⟩ := h
  obtain ⟨hown, ⟨hstill, hring, htenant⟩, hpair⟩ := enqueue_dispatches hc hd
  have htaken := hw.holds c.order _ (fun _ _ h => h) hown
  obtain ⟨x, b, rfl⟩ : ∃ x b, w = { (u.enqueue d).withoutEarly c with
    cmds := x, shard := { ((u.enqueue d).withoutEarly c).shard with bad := b } } := ⟨_, _, hw.frame⟩
  exact ⟨holds_of_cmds htaken rfl, ⟨congrArg (fun y : State => { y with shard := { ((u.enqueue d).withoutEarly c).shard with bad := b } }) hstill,
    hring, htenant⟩, hpair⟩

theorem Dispatches.settled {u v : State} {c d : Cmd} {l : List Range} (h : Dispatches u v c d l) :
    classQueued { u with shard := v.settle.shard } v.settle c := by
  obtain ⟨hown, hstill, hpair⟩ := h.queued
  have a := settle_adv v
  rw [settle_shard]
  refine ⟨a.cmds _ _ (fun x y k hp => ⟨dispatchedAs_stable _ x y k hp.1, k.pkt.trans hp.2.1, k.run.trans hp.2.2⟩) hown,
    sameStill_trans hstill a.same, fun hs => ?_⟩
  exact (a.pair (hs.of_pair (hpair hs))).trans (hpair hs)

theorem Dispatches.enters {u v : State} {c d : Cmd} {l : List Range} (h : Dispatches u v c d l) (hs : u.solo) (hop : c.op ≠ opCtxRestore) :
    entersQueue u v c l := by
  obtain ⟨hc, hd, w, hw, hv⟩ := h
  obtain ⟨g, n, hg, e⟩ := enqueue_form (tookTurn_solo hs d)
  rw [e] at hw
  have hown := hw.holds c.order (fun x => x.dispatchedAs u.nextOrder ∧ x.stage = .queued ∧ x.pkt = c.pkt ∧ x.run = c.run ∧ x.granted = g ∧
      x.granules = d.granules) (fun _ _ h => h)
    (hd.order ▸ setCmd_own (c := d.queuedAs u.nextOrder g) ⟨c, hc, hd.order.symm⟩ ⟨rfl, rfl, hd.pkt, hd.run, rfl, rfl⟩)
  have hfree : v.barn.poolFree = n := by rw [hv, hw.frame]; rfl
  have hcls : (d.queuedAs u.nextOrder d.granted).cls = c.cls := congrArg₂ classOf hd.op hd.run
  refine ⟨holds_mono (holds_of_cmds hown (by rw [hv])) fun x ⟨h1, h2, h3, h4, h5, h6⟩ => ⟨h1, h2, h3, h4, fun hn => ?takes, fun ha hne hfit hfirst => ?first⟩, ?frame⟩
  case takes =>
    rw [hfree, h5, h6]
    exact hg.takes (hd.granted.trans hn)
  case first =>
    rw [h5]
    refine hg.first ?_ (h6 ▸ hfit) fun e he hne hw => ?_
    · simp [Cmd.allocKnown, Cmd.queuedAs, hd.op, ha, hne]
    · exact hcls ▸ hfirst e he (fun h => hne (h.trans hd.order.symm)) hw
  case frame =>
    rw [hfree, hv, hw.frame, beq_false_of_ne hop, Bool.or_false]
    unfold State.withoutEarly State.earlyLeft State.numbered
    dsimp only
    rw [hd.joined]
    unfold Streams.joined
    split <;> rfl

/-- What comes about by itself follows the dispatch, and the frame of the row changes nothing (R313). -/
theorem Dispatches.row {i : Instr} {s v : State} {now : Time} {c d : Cmd} {l : List Range} (h : Dispatches (s.tick now) v c d l)
    (hop : c.op ≠ opCtxRestore) (hi : exec i s = .next (s.keep v.settle)) :
    ∃ t, exec i s = .next t ∧ classQueued { s.tick now with shard := t.shard } t c ∧
      ((s.tick now).solo → ∃ v : State, t = v.settle ∧ entersQueue (s.tick now) v c l) := by
  have hbase : SameBase s v.settle := by
    obtain ⟨-, hstill, -⟩ := h.settled
    refine .of_still ?_ hstill
    exact ⟨tick_pending s now, tick_build s now, tick_mem s now⟩
  exact ⟨_, hi.trans (congrArg _ hbase.keep), h.settled, fun hs => ⟨v, rfl, h.enters hs hop⟩⟩

section
variable {ring : Fin 64} {now : Time} {s : State} {c : Cmd}

/-- Command `c` in its class queue with its pass size fixed (R313, R486). -/
def State.prepared (u : State) (c : Cmd) : State := u.enqueue (c.prepared u.acre.cEff)

theorem dispatches_reads {u w : State} (hc : c ∈ u.cmds) (hw : TakesRecords ((u.prepared c).withoutEarly c) w) (g : Range) :
    Dispatches u (w.ask g) c (c.prepared u.acre.cEff) ([g].filter fun r => r.len != 0) :=
  ⟨hc, prepared_prepares c _, w, hw, ask_filter w g⟩

theorem dispatches_only {u w : State} (hc : c ∈ u.cmds) (hw : TakesRecords ((u.prepared c).withoutEarly c) w) :
    Dispatches u w c (c.prepared u.acre.cEff) [] :=
  ⟨hc, prepared_prepares c _, w, hw, by rw [List.append_nil]⟩

theorem sampleStep_dispatches (h : (s.tick now).classFront ring.val opSample = some c) :
    exec (.sampleStep ring now) s = .next (s.keep (sampleDo (s.tick now) c)) := by
  rw [← onClass_front (f := sampleDo) h]; rfl

theorem verifyTree_dispatches (h : (s.tick now).classFront ring.val opVerify = some c) :
    exec (.verifyTree ring now) s = .next (s.keep (verifyDo (s.tick now) c)) := by
  rw [← onClass_front (f := verifyDo) h]; rfl

theorem headFwd_dispatches (h : (s.tick now).classFront ring.val opHeadFwd = some c) :
    exec (.headFwd ring now) s = .next (s.keep (queueDo (s.tick now) c)) := by
  rw [← onClass_front (f := queueDo) h]; rfl

theorem trainStep_dispatches (h : (s.tick now).classFront ring.val opTrain = some c) :
    exec (.trainStep ring now) s = .next (s.keep (queueDo (s.tick now) c)) := by
  rw [← onClass_front (f := queueDo) h]; rfl

end

/-! ### SHARD_MERGE -/

/-- The records of a round that `c` sends to its peers, as they leave the port (R250, R393). -/
def State.outRecords (s : State) (c : Cmd) (round : Nat) (units : List (Nat × Nat × List Byte)) : List (Nat × List Byte) :=
  ((s.fieldOf c).peers.map fun p => (roundRecords (s.fieldOf c) c round p units).map fun b => (pkField c.run, b)).flatten

/-- `c` with `n` more records sent in a round. -/
def Cmd.sentOut (c : Cmd) (round n : Nat) : Cmd :=
  let m := c.work.merge
  c.withMerge (if round = 1 then { m with sent1 := m.sent1 + n } else if round = 2 then { m with sent2 := m.sent2 + n } else m)

/-- The block with the records `l` behind what its row has sent (R393). -/
def State.shipped (s : State) (l : List (Nat × List Byte)) : State :=
  { s with shard := { s.shard with out := s.shard.out ++ l, sent := add32 s.shard.sent l.length } }

theorem modCmd_secondary (s : State) (r : Nat) (q : U32) (f : Cmd → Cmd) : (s.modCmd r q f).secondary = s.secondary := by
  unfold State.modCmd
  split <;> rfl

/-- A round that a block on its own sends (R250, R369, R406). -/
theorem sendRound_solo {s : State} (hs : s.solo) (hf : s.fnReset 7 = false) (c : Cmd) (round : Nat) (units : List (Nat × Nat × List Byte)) :
    s.sendRound c round units = ((s.modCmd c.ring c.seq fun d => d.sentOut round (s.outRecords c round units).length).shipped
      (s.outRecords c round units)).event c.ring c.seq 13 (4 * (s.outRecords c round units).length) := by
  have h := (modCmd_secondary s c.ring c.seq fun d => d.sentOut round (s.outRecords c round units).length).trans hs.secondary
  unfold State.sendRound
  rw [if_neg (by rw [hf]; exact Bool.false_ne_true)]
  exact if_neg (ne_true_of_eq_false h)

theorem find?_map_of_fixed {α : Type} {f : α → α} {p : α → Bool} {l : List α}
    (h : ∀ x ∈ l, f x = x ∨ p (f x) = false ∧ p x = false) : (l.map f).find? p = l.find? p := by
  induction l with
  | nil => rfl
  | cons x l ih =>
    rw [List.map_cons, List.find?_cons, List.find?_cons, ih fun y hy => h y (List.mem_cons_of_mem x hy)]
    obtain hx | ⟨hx, hx'⟩ := h x List.mem_cons_self
    · rw [hx]
    · rw [hx, hx']

section
variable {s : State} {c d x : Cmd}

/-- A command that is rewritten leaves every other one alone under its name. -/
theorem State.alone.other (hd : s.alone d) (hc : s.alone c) (hx : Cmd.SameName c x) (hne : d ≠ c) : (s.setCmd x).alone d := by
  have key : ∀ e ∈ (s.setCmd x).cmds, e = x ∨ e ∈ s.cmds := fun e he => by
    obtain ⟨e', he', rfl⟩ := List.mem_map.1 he
    split
    · exact .inl rfl
    · exact .inr he'
  refine ⟨List.mem_map.2 ⟨d, hd.mem, if_neg fun e => hne (hc.order d hd.mem (e.trans hx.order))⟩, fun e he ho => ?_, fun e he hr hq => ?_⟩
  all_goals obtain rfl | he' := key e he
  · exact absurd (hd.order c hc.mem (hx.order.symm.trans ho)).symm hne
  · exact hd.order e he' ho
  · exact absurd (hd.name c hc.mem (hx.ring.symm.trans hr) (hx.seq.symm.trans hq)).symm hne
  · exact hd.name e he' hr hq

theorem awaitsMerge_ne {m : Cmd} (hm : m.op = opMerge) : m.awaitsMerge = false := by
  unfold Cmd.awaitsMerge
  rw [hm]
  rfl

/-- A SHARD_MERGE that is rewritten under its own name finds the same step. -/
theorem State.alone.mergeTarget (hc : s.alone c) (hop : c.op = opMerge) (ho : x.order = c.order) (hx : x.op = opMerge) (hrun : x.run = c.run) :
    (s.setCmd x).mergeTarget x = s.mergeTarget c := by
  unfold State.mergeTarget
  rw [hrun]
  refine find?_map_of_fixed fun e he => ?_
  by_cases h : e.order = x.order
  · rw [if_pos h, hc.order e he (h.trans ho)]
    simp [awaitsMerge_ne hop, awaitsMerge_ne hx]
  · exact .inl (if_neg h)

/-- The step that a SHARD_MERGE finds has not ended, and is no SHARD_MERGE. -/
theorem mergeTarget_parts (h : s.mergeTarget c = some d) : d.stage ≠ .finished ∧ d.op ≠ opMerge := by
  have hw : d.awaitsMerge = true := by
    have hp := List.find?_some h
    simp only [Bool.and_eq_true] at hp
    exact hp.1.1.1
  refine ⟨fun e => ?_, fun e => ?_⟩
  · rw [Cmd.awaitsMerge, e] at hw
    simp at hw
  · rw [awaitsMerge_ne e] at hw
    cases hw

/-- A SHARD_MERGE that has claimed the step `d`. -/
def Cmd.claiming (m d : Cmd) : Cmd :=
  { m with
    started := true, stage := .running
    work := { m.work with merge := { m.work.merge with tgtRing := d.ring, tgtSeq := d.seq } } }

/-- The step `d` once it is claimed by `m`. -/
def Cmd.claimed (d m : Cmd) : Cmd :=
  d.withMerge { d.work.merge with active := true, aborted := d.work.merge.aborted || pktBit m.run 33 0 }

/-- The abort records that a SHARD_MERGE `c` makes its step `d` send (R256, R260, R369, R419). -/
def State.abortRecords (s : State) (c d : Cmd) : List (Nat × List Byte) :=
  if pktBit c.run 33 0 = true ∧ s.energy.level.val < 3 ∧ d.work.merge.aborted = false ∧ s.fnReset 7 = false then s.outRecords d 3 [(0, 0, [])] else []

/-- The block with the records `l` sent as the only ones of its row (R393). -/
def State.sentOnly (s : State) (l : List (Nat × List Byte)) : State := s.clearOut.shipped l

theorem sentOnly_nil (s : State) : s.sentOnly [] = s.clearOut := by
  have h : add32 s.shard.sent 0 = s.shard.sent := by
    unfold add32
    exact BitVec.add_zero _
  unfold State.sentOnly State.shipped State.clearOut
  simp only [List.length_nil, List.append_nil, h]

/-- What keeps the abort record of the step `d` back holds (R256, R369, R419). -/
def State.abortHeld (s : State) (d : Cmd) : Prop := ¬ (s.energy.level.val < 3 ∧ d.work.merge.aborted = false ∧ s.fnReset 7 = false)

theorem sendAbort_held {d : Cmd} (h : s.abortHeld d) : s.sendAbort d = s := by
  unfold State.sendAbort
  split
  · rename_i hg
    unfold State.sendRound
    refine if_pos (by_contra fun hf => h ⟨hg.1, ?_, ?_⟩)
    · simpa using hg.2
    · simpa using hf
  · rfl

/-- The abort records of a step that goes on, which stands as `x` in the block (R256, R406). -/
theorem sendAbort_sent (hs : s.solo) (ha : s.alone x) (hd : Cmd.SameName x d) (hend : x.stage ≠ .finished) (h : ¬ s.abortHeld d) :
    s.sendAbort d = (s.setCmd (x.event 13 (4 * (s.outRecords d 3 [(0, 0, [])]).length))).shipped (s.outRecords d 3 [(0, 0, [])]) := by
  obtain ⟨hlevel, haborted, hf⟩ := not_not.1 h
  unfold State.sendAbort
  rw [if_pos ⟨hlevel, by simp [haborted]⟩, sendRound_solo hs hf, hd.ring, hd.seq, ha.modCmd]
  have hsame : Cmd.SameName x (x.sentOut 3 (s.outRecords d 3 [(0, 0, [])]).length) := ⟨rfl, rfl, rfl⟩
  generalize hl : s.outRecords d 3 [(0, 0, [])] = l at hsame
  have hx : ((s.setCmd (x.sentOut 3 l.length)).shipped l).alone (x.sentOut 3 l.length) := (ha.named hsame).of_cmds rfl
  refine (hx.event hend 13 (4 * l.length)).trans ?_
  exact congrArg (State.shipped · l) (setCmd_setCmd s (a := x.sentOut 3 l.length) (b := (x.sentOut 3 l.length).event 13 (4 * l.length)) rfl)

/-- `m` has claimed the step `d` and has sent nothing. -/
def State.afterClaim (s : State) (m d : Cmd) : State := ((s.setCmd (m.claiming d)).setCmd (d.claimed m)).clearOut

/-- The claim of a step (R256, R260): the merge runs, the step is claimed, and the abort records are what the row sends. -/
theorem claim_solo {m : Cmd} (hs : s.solo) (hm : s.alone m) (hd : s.alone d) (hne : d ≠ m) (hend : d.stage ≠ .finished) :
    ∃ y, Cmd.SameName d y ∧ y.work = (d.claimed m).work ∧
      s.claim m d = ((s.setCmd (m.claiming d)).setCmd y).sentOnly (s.abortRecords m d) := by
  have hw : (s.setCmd (m.claiming d)).alone d := hd.other hm ⟨rfl, rfl, rfl⟩ hne
  have hv : (s.afterClaim m d).alone (d.claimed m) := (hw.named (d := d.claimed m) ⟨rfl, rfl, rfl⟩).of_cmds rfl
  have hclaim : s.claim m d = if pktBit m.run 33 0 then (s.afterClaim m d).sendAbort d else s.afterClaim m d := by
    have e := hw.modCmd fun e => e.withMerge { e.work.merge with active := true, aborted := e.work.merge.aborted || pktBit m.run 33 0 }
    exact congrArg (fun z : State => if pktBit m.run 33 0 then z.clearOut.sendAbort d else z.clearOut) e
  by_cases hb : pktBit m.run 33 0 = true ∧ ¬ (s.afterClaim m d).abortHeld d
  · obtain ⟨hb, hg⟩ := hb
    have hsent : s.abortRecords m d = (s.afterClaim m d).outRecords d 3 [(0, 0, [])] := if_pos ⟨hb, not_not.1 hg⟩
    have e := sendAbort_sent (s := s.afterClaim m d) (x := d.claimed m) (d := d) hs hv ⟨rfl, rfl, rfl⟩ hend hg
    rw [hclaim, if_pos hb, hsent, e]
    generalize (s.afterClaim m d).outRecords d 3 [(0, 0, [])] = l
    refine ⟨(d.claimed m).event 13 (4 * l.length), ⟨rfl, rfl, rfl⟩, rfl, ?_⟩
    have e' := setCmd_setCmd (s.setCmd (m.claiming d)) (a := d.claimed m) (b := (d.claimed m).event 13 (4 * l.length)) rfl
    exact congrArg (State.sentOnly · l) e'
  · have hsent : s.abortRecords m d = [] := if_neg fun h => hb ⟨h.1, not_not.2 h.2⟩
    refine ⟨d.claimed m, ⟨rfl, rfl, rfl⟩, rfl, ?_⟩
    rw [hclaim, hsent, sentOnly_nil]
    split
    · rename_i h
      exact sendAbort_held (by_contra fun hg => hb ⟨h, hg⟩)
    · rfl

/-- A SHARD_MERGE at its dispatch: it takes nothing from the pool and no place in the stream (R313, R359). -/
theorem merge_enqueue {u w : State} (hop : c.op = opMerge) (hw : u.tookTurn c = w) :
    u.enqueue c = { w.setCmd (c.queuedAs w.nextOrder c.granted) with nextOrder := w.nextOrder + 1 } := by
  obtain ⟨g, n, hg, e⟩ := enqueue_form hw
  have hacre : isAcreOp c.op = false := by rw [hop]; rfl
  obtain ⟨rfl, rfl⟩ := hg.other (congrArg (· && _) hacre)
  have hjoined : w.streams.joined c = w.streams := by
    unfold Streams.joined
    rw [hacre]
    rfl
  refine e.trans ?_
  unfold State.numbered
  exact congrArg (fun x => { w.setCmd (c.queuedAs w.nextOrder c.granted) with nextOrder := w.nextOrder + 1, streams := x }) hjoined

/-- `q` is SHARD_MERGE `c` once it is dispatched, the one that the row goes on with. -/
structure MergeQueued (u : State) (c q : Cmd) : Prop where
  same : Cmd.SameName c q
  run : q.run = c.run
  op : q.op = opMerge
  disp : q.disp = some u.nextOrder
  alone : (u.enqueue c).alone q
  target : (u.enqueue c).mergeTarget q = u.mergeTarget c

theorem merge_queued {u : State} (hc : u.alone c) (hop : c.op = opMerge) : ∃ q, MergeQueued u c q := by
  have k := tookTurn_quiet u c
  generalize hw : u.tookTurn c = w at k
  have hcw : w.alone c := hc.of_cmds k.cmds
  have hq : (w.setCmd (c.queuedAs w.nextOrder c.granted)).alone (c.queuedAs w.nextOrder c.granted) := hcw.named ⟨rfl, rfl, rfl⟩
  refine ⟨c.queuedAs w.nextOrder c.granted, ⟨rfl, rfl, rfl⟩, rfl, hop, congrArg some (still_nextOrder k.still), ?_, ?_⟩
  · exact hq.of_cmds (by rw [merge_enqueue hop hw])
  · have e := hcw.mergeTarget (x := c.queuedAs w.nextOrder c.granted) hop rfl hop rfl
    rw [merge_enqueue hop hw]
    exact e.trans (congrArg (List.find? _) k.cmds)

theorem MergeQueued.found {u : State} {q : Cmd} (h : MergeQueued u c q) : (u.enqueue c).cmd c.ring c.seq = some q := by
  rw [← h.same.ring, ← h.same.seq]
  exact h.alone.cmd

/-- Without a step the merge ends with NO_STEP (R359). -/
theorem shardMergeDo_noStep {u : State} {q : Cmd} (h : MergeQueued u c q) (hn : u.mergeTarget c = none) :
    shardMergeDo u c = ((u.enqueue c).finish q .noStep bodyZero).settle := by
  simp only [shardMergeDo, h.found, h.target, hn]

theorem shardMergeDo_claim {u : State} {q : Cmd} (h : MergeQueued u c q) (hd : u.mergeTarget c = some d) :
    shardMergeDo u c = ((u.enqueue c).claim q d).settle := by
  simp only [shardMergeDo, h.found, h.target, hd]

/-- A merge that finds no step has ended as the next packet dispatched, and nothing that stands still has moved. -/
theorem noStep_ends {u : State} {q : Cmd} (hc : c ∈ u.cmds) (h : MergeQueued u c q) :
    (((u.enqueue c).finish q .noStep bodyZero).settle.holds c.order fun d => d.endedWith .noStep (cplBody []) ∧ d.dispatchedAs u.nextOrder) ∧
    ({ u with nextOrder := u.nextOrder + 1 } : State).sameStill ((u.enqueue c).finish q .noStep bodyZero).settle := by
  have a := settle_adv ((u.enqueue c).finish q .noStep bodyZero)
  obtain ⟨-, hqueued, -⟩ := enqueue_dispatches hc (⟨rfl, rfl, rfl, rfl, rfl, rfl, rfl⟩ : Cmd.Prepares c c)
  obtain ⟨hfinish, -⟩ := finish_still (u.enqueue c) q .noStep bodyZero
  constructor
  · have hown := finish_body .noStep bodyZero ⟨q, h.alone.mem, rfl⟩
    rw [h.same.order] at hown
    exact a.cmds _ _ (fun x y k hp => ⟨endedWith_stable _ _ x y k hp.1, dispatchedAs_stable _ x y k hp.2⟩)
      (holds_mono hown fun x hx => ⟨hx.1, hx.2.trans h.disp⟩)
  · exact sameStill_trans hqueued (sameStill_trans hfinish a.same)

/-- `v` is `u` once SHARD_MERGE `c` has claimed the step `d` and sent what it sends (R256, R260, R359, R369). -/
structure Claims (u v : State) (c d : Cmd) : Prop where
  merge : v.holds c.order fun x => x.stage = .running ∧ x.dispatchedAs u.nextOrder ∧ x.work.merge.tgtRing = d.ring ∧ x.work.merge.tgtSeq = d.seq
  step : v.holds d.order fun x => x.work.merge.active = true ∧ x.work.merge.aborted = (d.work.merge.aborted || pktBit c.run 33 0)
  out : v.shard.out = u.abortRecords c d
  frame : v = { u with
    cmds := v.cmds, nextOrder := u.nextOrder + 1
    shard := { u.shard with out := v.shard.out, sent := add32 u.shard.sent v.shard.out.length } }

/-- Commands rewritten and records sent leave the rest of a block alone. -/
theorem sentOnly_frame (u : State) (q x y : Cmd) (l : List (Nat × List Byte)) :
    (let v := ((({ u.setCmd q with nextOrder := u.nextOrder + 1 } : State).setCmd x).setCmd y).sentOnly l
     v = { u with
      cmds := v.cmds, nextOrder := u.nextOrder + 1
      shard := { u.shard with out := v.shard.out, sent := add32 u.shard.sent v.shard.out.length } }) := by
  unfold State.sentOnly State.shipped State.clearOut State.setCmd
  rfl

theorem merge_claims {u : State} {q : Cmd} (hs : u.solo) (hc : u.alone c) (hop : c.op = opMerge) (h : MergeQueued u c q) (hd : u.alone d)
    (htarget : u.mergeTarget c = some d) : Claims u ((u.enqueue c).claim q d) c d := by
  obtain ⟨hend, hdop⟩ := mergeTarget_parts htarget
  have e := merge_enqueue hop (tookTurn_solo hs c)
  have hne : d ≠ q := fun e => hdop (e ▸ h.op)
  have hdw : (u.enqueue c).alone d := by
    rw [e]
    exact (hd.other hc (x := c.queuedAs u.nextOrder c.granted) ⟨rfl, rfl, rfl⟩ fun e => hdop (e ▸ hop)).of_cmds rfl
  have hsolo : (u.enqueue c).solo := by rw [e]; exact hs
  obtain ⟨y, hy, hwork, hclaim⟩ := claim_solo hsolo h.alone hdw hne hend
  have hrec : (u.enqueue c).abortRecords q d = u.abortRecords c d := by
    rw [e]
    unfold State.abortRecords
    rw [h.run]
    rfl
  have hq : ((u.enqueue c).setCmd (q.claiming d)).holds c.order fun x => x.stage = .running ∧ x.dispatchedAs u.nextOrder ∧
      x.work.merge.tgtRing = d.ring ∧ x.work.merge.tgtSeq = d.seq := by
    have hx := h.alone.setCmd_holds (d := q.claiming d) ⟨rfl, rfl, rfl⟩ (P := fun x => x.stage = .running ∧ x.dispatchedAs u.nextOrder ∧
      x.work.merge.tgtRing = d.ring ∧ x.work.merge.tgtSeq = d.seq) ⟨rfl, h.disp, rfl, rfl⟩
    rwa [h.same.order] at hx
  have hdy : ((u.enqueue c).setCmd (q.claiming d)).alone d := hdw.other h.alone ⟨rfl, rfl, rfl⟩ hne
  have hother : y.order ≠ c.order := fun ho => hdop (hc.order d hd.mem (hy.order.symm.trans ho) ▸ hop)
  rw [hclaim, hrec]
  refine ⟨holds_of_cmds (setCmd_holds hq fun ho => absurd ho hother) rfl, ?step, rfl, ?frame⟩
  case step =>
    refine holds_of_cmds (hdy.setCmd_holds hy ?_) rfl
    rw [hwork, ← h.run]
    exact ⟨rfl, rfl⟩
  case frame => rw [e]; exact sentOnly_frame _ _ _ _ _

end

theorem shardMerge_dispatches {ring : Fin 64} {now : Time} {s : State} {c : Cmd} (h : (s.tick now).classFront ring.val opMerge = some c) :
    exec (.shardMerge ring now) s = .next (s.keep (shardMergeDo (s.tick now) c)) := by
  rw [← onClass_front (f := shardMergeDo) h]; rfl

/-! ### The obligation -/

/-- Settles O48: the four Acre commands enter their queue as `Dispatches` says, and a SHARD_MERGE ends or claims its step. -/
theorem classCommands : Obligations.ClassCommands := by
  unfold Obligations.ClassCommands
  intro ring now s c u enters
  refine ⟨fun h => ?sample, fun h => ?verify, fun h => ?head, fun h => ?train, fun h ho hn => ?merge⟩
  all_goals obtain ⟨hc, hop, -⟩ := classFront_parts h
  case sample =>
    exact (dispatches_reads hc (takeEarly_takes (by rw [hop]; decide) _) _).row (by rw [hop]; decide) (sampleStep_dispatches h)
  case verify =>
    refine (dispatches_reads hc ?_ _).row (by rw [hop]; decide) (verifyTree_dispatches h)
    rw [withoutEarly_verify hop]
    exact .refl _
  case head =>
    exact (dispatches_only hc (takeEarly_takes (by rw [hop]; decide) _)).row (by rw [hop]; decide) (headFwd_dispatches h)
  case train =>
    exact (dispatches_only hc (takeEarly_takes (by rw [hop]; decide) _)).row (by rw [hop]; decide) (trainStep_dispatches h)
  case merge =>
    obtain ⟨q, hq⟩ := merge_queued (hn.alone ho) hop
    refine ⟨_, shardMerge_dispatches h, fun hnone => ?none, fun d hd hdn hs => ?some⟩
    case none =>
      rw [shardMergeDo_noStep hq hnone]
      obtain ⟨hends, hstill⟩ := noStep_ends hc hq
      have hbase : SameBase s ((u.enqueue c).finish q .noStep bodyZero).settle :=
        .of_still (u := { u with nextOrder := u.nextOrder + 1 }) ⟨tick_pending s now, tick_build s now, tick_mem s now⟩ hstill
      rw [hbase.keep]
      exact ⟨hends, hstill⟩
    case some =>
      have hclaims := merge_claims hs (hn.alone ho) hop hq (hdn.alone ho) hd
      have hbase : SameBase s ((u.enqueue c).claim q d) := by
        rw [hclaims.frame]
        exact ⟨tick_pending s now, tick_build s now, tick_mem s now⟩
      rw [shardMergeDo_claim hq hd, hbase.keep_settle]
      exact ⟨_, rfl, hclaims.merge, hclaims.step, hclaims.out, hclaims.frame⟩

end Sys2Proof.Machine
end

section
/-! PROOF. Vocabulary sharding: an exchange that takes an ended TRAIN_STEP for its step (R250, R406). -/

namespace Sys2Proof.Machine

/-! ### What comes about by itself charges nothing to BG -/

/-- On a block of its own, `t` stands alone as `s` does and BG has been charged nothing more (R406). -/
structure Uncharged (s t : State) : Prop where
  pair : s.solo → t.pair = s.pair
  bg : s.solo → t.energy.bgEvents = s.energy.bgEvents

theorem Uncharged.of_eq {s t : State} (hp : t.pair = s.pair) (hb : t.energy.bgEvents = s.energy.bgEvents) : Uncharged s t :=
  ⟨fun _ => hp, fun _ => hb⟩

theorem Uncharged.refl (s : State) : Uncharged s s := .of_eq rfl rfl

theorem Uncharged.trans {a b c : State} (h : Uncharged a b) (k : Uncharged b c) : Uncharged a c :=
  ⟨fun hs => (k.pair (hs.of_pair (h.pair hs))).trans (h.pair hs), fun hs => (k.bg (hs.of_pair (h.pair hs))).trans (h.bg hs)⟩

theorem Uncharged.foldl {α : Type} {f : State → α → State} (h : ∀ s x, Uncharged s (f s x)) (l : List α) (s : State) :
    Uncharged s (l.foldl f s) := by
  induction l generalizing s with
  | nil => exact .refl s
  | cons x l ih => exact (h s x).trans (ih _)

theorem modCmd_uncharged (s : State) (r : Nat) (q : U32) (f : Cmd → Cmd) : Uncharged s (s.modCmd r q f) := by
  unfold State.modCmd
  split <;> exact .of_eq rfl rfl

theorem ask_uncharged (s : State) (g : Range) : Uncharged s (s.ask g) := by
  unfold State.ask
  split <;> exact .of_eq rfl rfl

theorem tell_uncharged (s : State) (k : Nat) (c : Cmd) (n d : Bool) (a b : Nat) : Uncharged s (s.tell k c n d a b) :=
  ⟨fun hs => by rw [tell_solo hs], fun hs => by rw [tell_solo hs]⟩

theorem output_uncharged (s : State) (c : Cmd) (k : Traffic) (r i a : Nat) (b : List Byte) : Uncharged s (s.output c k r i a b) := by
  constructor
  all_goals intro hs; rw [output_solo hs]; split <;> rfl

theorem passOn_uncharged (s : State) : Uncharged s s.passOn := by
  unfold State.passOn State.markTurns State.joinBarrier
  split
  · exact .of_eq rfl rfl
  · split <;> exact .of_eq rfl rfl

theorem leaveBarrier_uncharged (s : State) (r : Nat) : Uncharged s (s.leaveBarrier r) := by
  unfold State.leaveBarrier
  split <;> exact .of_eq rfl rfl

theorem finish_uncharged (s : State) (c : Cmd) (r : Reason) (b : Body) : Uncharged s (s.finish c r b) := by
  have hleave : Uncharged s (if (s.convert c).2.disp.isNone then (s.convert c).1.leaveBarrier (s.convert c).2.ring else (s.convert c).1) := by
    have hconvert : Uncharged s (s.convert c).1 := .of_eq rfl rfl
    split
    · exact hconvert.trans (leaveBarrier_uncharged _ _)
    · exact hconvert
  have hend (u : State) (d : Cmd) (a : Nat) (q : U32) (k : Uncharged s u) : Uncharged s ((u.setCmd d).freeAcre a q) := k.trans (.of_eq rfl rfl)
  unfold State.finish
  exact hend _ _ _ _ hleave

theorem tryComplete_uncharged (s : State) (c : Cmd) : Uncharged s (s.tryComplete c) := by
  unfold State.tryComplete
  split
  · split
    · split <;> exact .of_eq rfl rfl
    · exact finish_uncharged _ _ _ _
  · dsimp only
    split
    · exact finish_uncharged _ _ _ _
    · exact .refl s

theorem gradCommit_uncharged (n : Nat) (s : State) (r : Nat) (q : U32) : Uncharged s (s.gradCommit r q n) := by
  induction n generalizing s with
  | zero => exact .refl s
  | succ n ih =>
    unfold State.gradCommit
    split
    · exact .refl s
    · rename_i c hc
      dsimp only
      split
      · exact .refl s
      · have htold (f : Cmd → Cmd) : Uncharged s (if c.work.train.gDone < c.work.train.gAsked then
            (s.modCmd r q f).tell stProgress c false false c.work.train.gAsked c.work.train.dhValid else s) := by
          split
          · exact (modCmd_uncharged s r q f).trans (tell_uncharged _ _ _ _ _ _ _)
          · exact .refl s
        have hsat (t : State) (b : Bool) (f : Cmd → Cmd) : Uncharged t (if b = true then t.modCmd r q f else t) := by
          split
          · exact modCmd_uncharged t r q f
          · exact .refl t
        split
        · exact htold _
        · split
          · exact (((htold _).trans (modCmd_uncharged _ r q _)).trans (ask_uncharged _ _)).trans (ih _)
          · exact ((((htold _).trans (hsat _ _ _)).trans (modCmd_uncharged _ r q _)).trans (output_uncharged _ _ _ _ _ _ _)).trans (ih _)

theorem pumpRing_uncharged (s : State) (r : Nat) : Uncharged s (s.pumpRing r) := by
  unfold State.pumpRing
  split
  · exact .refl s
  · dsimp only
    split
    · have hmark (x : Cmd) (f : Ring → Ring) : Uncharged s ((s.setCmd x).modRing r f) := .of_eq rfl rfl
      exact (hmark _ _).trans (ask_uncharged _ _)
    · exact .refl s

theorem compareDigests_uncharged (s : State) : Uncharged s s.compareDigests := by
  have h (hs : s.solo) : s.compareDigests = s := by
    unfold State.compareDigests
    rw [hs.secondary]
    rfl
  exact ⟨fun hs => by rw [h hs], fun hs => by rw [h hs]⟩

theorem passOn_working (s : State) : s.passOn.working = s.working := by
  unfold State.passOn State.markTurns State.joinBarrier
  split
  · rfl
  · split <;> rfl

/-- While the block takes no new work, what comes about by itself charges nothing to BG. -/
theorem settle_uncharged {s : State} (hw : s.working = false) : Uncharged s s.settle := by
  unfold State.settle
  dsimp only
  rw [passOn_working, hw, if_neg Bool.false_ne_true]
  refine (((passOn_uncharged s).trans ?_).trans (compareDigests_uncharged _)).trans (Uncharged.foldl pumpRing_uncharged _ _)
  split
  · exact .refl _
  · refine Uncharged.foldl (fun t c => ?_) _ _
    have hcommit : Uncharged t (if c.op = opTrain then t.gradCommit c.ring c.seq (2 * (t.fieldOf c).n + 2) else t) := by
      split
      · exact gradCommit_uncharged _ _ _ _
      · exact .refl t
    split
    · exact hcommit.trans (tryComplete_uncharged _ _)
    · exact hcommit

/-! ### The exchange -/

/-- A TRAIN_STEP of a shard that has ended: ring 0 with SEQ 0, one token, phase A of its pass over. -/
def endedTrain : Cmd := { (default : Cmd) with
  op := opTrain, run := List.replicate 256 0, disp := some 0, stage := .finished
  work := { (default : Work) with tokens := 1, s := 1, begun := true, phase := 2 } }

/-- A SHARD_MERGE of ring 63 that runs with that TRAIN_STEP for its step. -/
def mergeOfEnded : Cmd := { (default : Cmd) with
  ring := 63, order := 1, op := opMerge, run := List.replicate 64 0, disp := some 1, stage := .running, started := true }

/-- A block in operation at time 0, in the power-fail hold, with the two packets and a field of two shards. -/
def mergingEnded : State := ({ State.reset with
  boot := { State.reset.boot with ready := true, stage := 8 }, pins := { State.reset.pins with rstLow := false }
  cmds := [endedTrain, mergeOfEnded], nextOrder := 2, energy := { State.reset.energy with pfail := true } } : State).modField 0
  fun f => { f with shard := true, qM1 := 1, v := 2048 }

/-- The events of class 13 that BG has been charged once a row is over (R406). -/
def bgFrames : Out → Nat
  | .next t => tblGet 0 t.energy.bgEvents 13
  | _ => 0

theorem mergingEnded_charges : bgFrames (exec (.mergeStart 63 0 0) mergingEnded) = 4 := by decide +kernel

/-- The premises of the clause on the begin of an exchange. -/
theorem mergingEnded_begins : (mergingEnded.tick 0).ordersOk ∧ (mergingEnded.tick 0).named endedTrain ∧ (mergingEnded.tick 0).live ∧
    (mergingEnded.tick 0).solo ∧ (mergingEnded.tick 0).fnReset 1 = false ∧ (mergingEnded.tick 0).fnReset 7 = false ∧
    (mergingEnded.tick 0).exchangeOf 63 0 = some endedTrain ∧ endedTrain.mayExchange = true ∧ endedTrain.work.merge.aborted = false := by
  simp only [State.ordersOk, State.named, State.live, State.solo]
  decide +kernel

/-- Refutes O59: the clause on the begin of an exchange moves commands and shard counters alone, but the step that a running SHARD_MERGE
names may be a TRAIN_STEP that has ended, and the record that is then sent for it is charged to BG (R406): 4 events of class 13. -/
theorem not_shardCommands : ¬ Obligations.ShardCommands := by
  rintro ⟨hstart, -, -⟩
  obtain ⟨hords, hnamed, hlive, hsolo, h1, h7, hex, hmay, hab⟩ := mergingEnded_begins
  obtain ⟨t, v, ht, rfl, -, hsends⟩ := hstart 63 0 0 mergingEnded endedTrain hords hnamed hlive hsolo h1 h7 hex hmay hab
  obtain ⟨hv, -⟩ := hsends (by decide) (by decide) (by decide) (by decide)
  have henergy : v.energy = (mergingEnded.tick 0).energy := (congrArg State.energy hv :)
  have hidle : v.working = false := (congrArg State.working hv).trans (show (mergingEnded.tick 0).working = false by decide)
  have hstays : tblGet 0 v.settle.energy.bgEvents 13 = 0 := by
    rw [(settle_uncharged hidle).bg (hsolo.of_pair (congrArg State.pair hv :)), henergy]
    decide
  have hcharged := mergingEnded_charges
  rw [ht] at hcharged
  exact absurd (hstays.symm.trans hcharged) (by decide)

end Sys2Proof.Machine
end

section
/-! PROOF. The commit of strip-steps to memory or the result stream (R274, R287, R289 to R298, R391). -/

namespace Sys2Proof.Machine

/-! ### The flags and the record of a strip-step (R293, R298) -/

theorem hasFlag_or (a b f : U32) : hasFlag (a ||| b) f = (hasFlag a f || hasFlag b f) := by
  have h : (a ||| b) &&& f = (a &&& f) ||| (b &&& f) := by
    ext i
    simp [Bool.and_or_distrib_right]
  unfold hasFlag
  rw [h, Bool.eq_iff_iff]
  simp only [bne_iff_ne, Bool.or_eq_true, ne_eq, ← not_and_or]
  exact not_congr BitVec.or_eq_zero_iff

theorem hasFlag_ite (b : Bool) (x f : U32) : hasFlag (if b then x else 0) f = (b && hasFlag x f) := by
  cases b
  · simp [hasFlag]
  · simp

/-- A result record is 256 bytes, and begins with its reason; its commit time stands at byte 32 (R298). -/
theorem resultBytes_fields (p : StripStep) (pos : U32) (sel : Option Selection) (token accepted emitted : Nat) (lp : F32) :
    (resultBytes p pos sel token accepted emitted lp).length = 256 ∧ leNat (resultBytes p pos sel token accepted emitted lp) 0 1 = p.reason % 256 ∧
    le64 (resultBytes p pos sel token accepted emitted lp) 32 = p.time := by
  refine ⟨padTo_length _ _, ?_⟩
  unfold resultBytes
  dsimp only
  rw [padTo_eq 256 _ (by simp [leBytes_length, zeros_length, padTo_length])]
  unfold le64
  simp (disch := simp [leBytes_length]) only [List.append_assoc, leNat_left, leNat_right, leBytes_length, Nat.sub_self, leNat_leBytes, Nat.reduceSub,
    pow_one, true_and]
  rw [Nat.mod_eq_of_lt (show _ < 256 ^ 8 from p.time.isLt)]
  exact BitVec.ofNat_toNat ..

/-- A record says nothing of where it is kept. -/
theorem resultBytes_unwritten (p : StripStep) (b v : List Byte) (pos : U32) (sel : Option Selection) (token accepted emitted : Nat) (lp : F32) :
    resultBytes { p with record := b, vrec := v } pos sel token accepted emitted lp = resultBytes p pos sel token accepted emitted lp := rfl

/-- The flags of a strip-step that commits, as its record gives them (R298). -/
def recordFlags (flags : U32) (late full sat wrap first : Bool) : U32 :=
  flags ||| (if late then rfLate else 0) ||| (if full then rfLedgerFull else 0) ||| (if sat then rfIntSat else 0)
    ||| (if wrap then rfIntWrap else 0) ||| (if first then 0 else rfFirst)

theorem recordFlags_late (flags : U32) (late full sat wrap first : Bool) :
    hasFlag (recordFlags flags late full sat wrap first) rfLate = (hasFlag flags rfLate || late) := by
  have hlate : hasFlag rfLate rfLate = true := by decide
  have hfull : hasFlag rfLedgerFull rfLate = false := by decide
  have hsat : hasFlag rfIntSat rfLate = false := by decide
  have hwrap : hasFlag rfIntWrap rfLate = false := by decide
  have hfirst : hasFlag (if first then 0 else rfFirst) rfLate = false := by cases first <;> decide
  unfold recordFlags
  simp only [hasFlag_or, hasFlag_ite, hlate, hfull, hsat, hwrap, hfirst, Bool.and_true, Bool.and_false, Bool.or_false]

/-- No flag that was gathered is lost. -/
theorem recordFlags_and (flags : U32) (late full sat wrap first : Bool) : recordFlags flags late full sat wrap first &&& flags = flags := by
  unfold recordFlags
  ext i
  simp only [BitVec.getElem_and, BitVec.getElem_or]
  cases flags[i] <;> simp

/-- `q` is strip-step `p` with its records asked for at commit time `t` (R293, R296, R298). -/
structure Recorded (s : State) (c : Cmd) (t : Time) (p q : StripStep) : Prop where
  asked : q.asked = true
  time : q.time = t
  reason : q.reason = p.reason
  emitted : q.emitted = p.emitted
  committed : q.committed = p.committed
  walk : q.walk = p.walk
  idx : q.idx = p.idx
  late : p.reason = 0 → hasFlag q.flags rfLate = (hasFlag p.flags rfLate || isLate t p.deadline)
  flags : p.reason = 0 → q.flags &&& p.flags = p.flags
  length : q.record.length = 256
  first : leNat q.record 0 1 = p.reason % 256
  stamp : le64 q.record 32 = t
  record : p.reason = 0 → c.stepWord p.idx < stripCount s.build → q.record =
    resultBytes q (p.params.pos + BitVec.ofNat 32 (p.emitted - 1)) p.sel (p.sel.getD default).token p.walk.accepted p.emitted (p.sel.getD default).logprob
  vrec : p.reason = 0 → q.vrec = if c.op = opVerify then vrecBytes p.walk (hasFlag q.flags rfScaleShift) p.params.pos else []

/-- A strip-step that commits, with its records. -/
theorem stepRecord_ok {s : State} {c : Cmd} {t : Time} {p : StripStep} (hr : p.reason = 0) : ∃ full sat wrap first, s.stepRecord c t p =
    (let q := { p with time := t, flags := recordFlags p.flags (isLate t p.deadline) full sat wrap first, asked := true }
     { q with
       record := resultBytes q (s.recordPos c q) p.sel (p.sel.getD default).token p.walk.accepted p.emitted (p.sel.getD default).logprob
       vrec := if c.op = opVerify then vrecBytes p.walk (hasFlag q.flags rfScaleShift) p.params.pos else [] }) := by
  unfold State.stepRecord
  exact ⟨_, _, _, _, if_neg (not_not.2 hr)⟩

/-- A strip-step that has ended without a token, with its record. -/
theorem stepRecord_ended {s : State} {c : Cmd} {t : Time} {p : StripStep} (hr : p.reason ≠ 0) : s.stepRecord c t p =
    { p with time := t, asked := true, record := resultBytes { p with time := t } (s.recordPos c { p with time := t }) none 0 0 0 fpZero } := by
  unfold State.stepRecord
  exact if_pos hr

theorem recordPos_ok {s : State} {c : Cmd} {p : StripStep} (hr : p.reason = 0) (hs : c.stepWord p.idx < stripCount s.build) :
    s.recordPos c p = p.params.pos + BitVec.ofNat 32 (p.emitted - 1) := by
  unfold State.recordPos
  rw [if_neg (by omega), if_pos hr]

/-- The record of a strip-step, whether it commits or has ended without a token. -/
theorem stepRecord_recorded (s : State) (c : Cmd) (t : Time) (p : StripStep) : Recorded s c t p (s.stepRecord c t p) := by
  by_cases hr : p.reason = 0
  · obtain ⟨full, sat, wrap, first, e⟩ := stepRecord_ok (s := s) (c := c) (t := t) hr
    have hlate := recordFlags_late p.flags (isLate t p.deadline) full sat wrap first
    have hand := recordFlags_and p.flags (isLate t p.deadline) full sat wrap first
    generalize recordFlags p.flags (isLate t p.deadline) full sat wrap first = flags at e hlate hand
    dsimp only at e
    obtain ⟨hlength, hfirst, hstamp⟩ := resultBytes_fields { p with time := t, flags := flags, asked := true }
      (s.recordPos c { p with time := t, flags := flags, asked := true }) p.sel (p.sel.getD default).token p.walk.accepted p.emitted
      (p.sel.getD default).logprob
    rw [e]
    generalize hb : resultBytes { p with time := t, flags := flags, asked := true } _ _ _ _ _ _ = b at hlength hfirst hstamp ⊢
    refine ⟨rfl, rfl, rfl, rfl, rfl, rfl, rfl, fun _ => hlate, fun _ => hand, hlength, hfirst, hstamp, fun _ hs => hb.symm.trans ?_, fun _ => rfl⟩
    rw [recordPos_ok (p := { p with time := t, flags := flags, asked := true }) hr hs]
    exact (resultBytes_unwritten _ b _ _ _ _ _ _ _).symm
  · obtain ⟨hlength, hfirst, hstamp⟩ := resultBytes_fields { p with time := t } (s.recordPos c { p with time := t }) none 0 0 0 fpZero
    rw [stepRecord_ended hr]
    generalize resultBytes { p with time := t } (s.recordPos c { p with time := t }) none 0 0 0 fpZero = b at hlength hfirst hstamp ⊢
    exact ⟨rfl, rfl, rfl, rfl, rfl, rfl, rfl, fun h => absurd h hr, fun h => absurd h hr, hlength, hfirst, hstamp, fun h => absurd h hr,
      fun h => absurd h hr⟩

/-! ### Where the records go (R274, R297, R391) -/

/-- The verification record of strip-step `p`, where it has one (R274). -/
def Cmd.vrecWrite (c : Cmd) (p : StripStep) : List Range :=
  if p.vrec = [] then [] else [writeRange .vrec c p.idx (c.work.descs.getD p.idx default).vrecAddr p.vrec]

/-- The writes of the records of strip-step `p`. -/
def Cmd.recordWrites (c : Cmd) (p : StripStep) : List Range :=
  c.vrecWrite p ++ if pkResStream c.run then [] else [writeRange .result c p.idx (pkResAddr c.run + 256 * p.idx) p.record]

/-- The segment of strip-step `p`, where its command's results go to the stream (R391). -/
def Cmd.recordSegment (c : Cmd) (p : StripStep) : List Segment :=
  if pkResStream c.run then [⟨c.ring, c.seq, 0, decide (p.idx + 1 = c.work.steps.length), p.record⟩] else []

/-- Data that a block on its own puts out wait at their mover. -/
theorem output_some {s : State} (hs : s.solo) (c : Cmd) (k : Traffic) (r i a : Nat) {b : List Byte} (hb : b.length ≠ 0) :
    s.output c k r i a b = { s with queue := s.queue ++ [writeRange k c i a b] } := by
  rw [output_solo hs, if_neg hb]

theorem writeRecord_solo {s : State} {c : Cmd} {p : StripStep} (hs : s.solo) (hr : p.record.length ≠ 0) : s.writeRecord c p = { s with
    queue := s.queue ++ c.recordWrites p, streams := { s.streams with queue := s.streams.queue ++ c.recordSegment p } } := by
  have hvrec : (if p.vrec.isEmpty then s else s.output c .vrec (2 * p.idx) p.idx (c.work.descs.getD p.idx default).vrecAddr p.vrec) =
      { s with queue := s.queue ++ c.vrecWrite p } := by
    unfold Cmd.vrecWrite
    by_cases hv : p.vrec = []
    · simp [hv]
    · rw [if_neg (by simpa using hv), if_neg hv]
      exact output_some hs _ _ _ _ _ (by simpa using hv)
  unfold State.writeRecord Cmd.recordWrites Cmd.recordSegment
  rw [hvrec]
  cases pkResStream c.run with
  | true => simp [State.pushSegment]
  | false =>
    refine (output_some (by exact hs) _ _ _ _ _ hr).trans ?_
    simp

/-- The records of strip-steps, asked for in order, by a block on its own. -/
theorem writeRecords_solo {s : State} {c : Cmd} (hs : s.solo) {ps : List StripStep} (hr : ∀ p ∈ ps, p.record.length ≠ 0) :
    ps.foldl (fun s p => s.writeRecord c p) s = { s with
      queue := s.queue ++ (ps.map c.recordWrites).flatten
      streams := { s.streams with queue := s.streams.queue ++ (ps.map c.recordSegment).flatten } } := by
  induction ps generalizing s with
  | nil => simp
  | cons p ps ih =>
    rw [List.foldl_cons, writeRecord_solo hs (hr p List.mem_cons_self), ih (by exact hs) fun x hx => hr x (List.mem_cons_of_mem _ hx)]
    simp [List.append_assoc]

/-! ### STRIP_COMMIT -/

/-- Windows that a commit finds past their end turn (R287): the tenants alone differ. -/
theorem turnTenants_frame (s : State) (ps : List StripStep) (ts : List Time) : ∃ x, s.turnTenants ps ts = { s with tenants := x } := by
  unfold State.turnTenants
  induction ps generalizing s with
  | nil => exact ⟨_, rfl⟩
  | cons p ps ih =>
    rw [List.foldl_cons]
    split
    · obtain ⟨x, e⟩ := ih (s.modTenant p.tenant (turnAt (ts.getD p.idx s.timeNs)))
      exact ⟨x, e⟩
    · exact ih s

theorem turnTenants_tenant (s : State) (ps : List StripStep) (ts : List Time) (k : Nat) : (s.turnTenants ps ts).tenant k =
    ps.foldl (fun m p => if p.reason = 0 ∧ p.tenant = k then turnAt (ts.getD p.idx s.timeNs) m else m) (s.tenant k) := by
  unfold State.turnTenants
  induction ps generalizing s with
  | nil => rfl
  | cons p ps ih =>
    rw [List.foldl_cons, List.foldl_cons]
    by_cases hr : p.reason = 0
    · rw [if_pos hr]
      refine (ih _).trans ?_
      by_cases hk : p.tenant = k
      · subst hk
        rw [modTenant_tenant_same, if_pos ⟨hr, rfl⟩]
        rfl
      · rw [modTenant_tenant_ne _ _ (Ne.symm hk), if_neg (by simp [hk])]
        rfl
    · rw [if_neg hr, if_neg (by simp [hr])]
      exact ih s

/-- The time of a step is taken: TIME_NS and the counters of time. -/
theorem at_eq {s : State} {now : Time} (h : s.timeNs ≤ now) : ∃ q : Perf, s.at now = { s with timeNs := now, perf := q } := by
  unfold State.at
  rw [if_pos h]
  split
  · exact ⟨_, by rw [passTime_eq]⟩
  · exact ⟨_, rfl⟩

theorem timesRise_of_pairwise {t : Time} {ts : List Time} (h : (t :: ts).Pairwise (· ≤ ·)) : timesRise t ts = true := by
  induction ts generalizing t with
  | nil => rfl
  | cons x ts ih =>
    obtain ⟨hle, hrest⟩ := List.pairwise_cons.1 h
    simp only [timesRise, ih hrest, Bool.and_true, decide_eq_true_eq]
    exact hle x List.mem_cons_self

/-- The last of times that never fall. -/
theorem le_getLastD {t : Time} {ts : List Time} (h : (t :: ts).Pairwise (· ≤ ·)) : t ≤ ts.getLastD t := by
  rcases List.mem_cons.1 (List.getLastD_mem_cons (l := ts) (a := t)) with hlast | hlast
  · rw [hlast]
    exact BitVec.le_refl _
  · exact (List.pairwise_cons.1 h).1 _ hlast

theorem stripCommitOn_eq {s : State} {c : Cmd} {ts : List Time} (ha : s.alone c) (hl : s.live) (hs : s.solo) (hc : c.stage = .committing)
    (h0 : c.work.steps ≠ []) (hp : ∀ p ∈ c.work.steps, p.asked = false) (hn : ts.length = c.work.steps.length)
    (ht : timesRise s.timeNs ts = true) : stripCommitOn s c.ring c.seq ts = some (c, ts) := by
  have htimes : s.commitTimes c ts = some ts := by
    simp [State.commitTimes, hn, ht, hs.secondary, hs.1]
  have hall : (c.work.steps.all fun p => !p.asked) = true := by simpa using hp
  simp [stripCommitOn, ha.cmd, hl.1, hl.2, hs.2, hc, h0, htimes]
  exact hp

theorem exec_stripCommit {ring : Fin 64} {seq : U32} {times ts : List Time} {s : State} {c : Cmd}
    (h : stripCommitOn s ring.val seq times = some (c, ts)) : exec (.stripCommit ring seq times) s = .next (s.keep (stripCommitDo c ts s)) := by
  show Host.Outcome.next (s.keep (match stripCommitOn s ring.val seq times with
    | some (c, ts) => stripCommitDo c ts s
    | none => s)) = _
  rw [h]

/-- The command as its commit has begun with the strip-steps `ps` (R297). -/
def Cmd.askedWith (c : Cmd) (ps : List StripStep) : Cmd := { c with commit := true, work := { c.work with steps := ps } }

@[simp] theorem Cmd.askedWith_run (c : Cmd) (ps : List StripStep) : (c.askedWith ps).run = c.run := rfl

/-- The block at the commit times `ts` of `c`: windows have turned, and the last of the times is taken (R287, R294). -/
def State.commitTurn (s : State) (c : Cmd) (ts : List Time) : State := (s.turnTenants c.work.steps ts).at (ts.getLastD s.timeNs)

/-- The strip-steps of `c` with their records, as the block `w` at the commit times `ts` forms them. -/
def State.commitSteps (w : State) (c : Cmd) (ts : List Time) : List StripStep :=
  c.work.steps.map fun p => w.stepRecord c (ts.getD p.idx w.timeNs) p

/-- The commit of `c` from the block `w` at the commit times `ts`, before what comes about by itself (R294, R297). -/
def State.commitAsked (w : State) (c : Cmd) (ts : List Time) : State :=
  let ps := w.commitSteps c ts
  let d := c.askedWith ps
  ps.foldl (fun s p => s.writeRecord d p)
    (((({ w with freeCtr := w.freeCtr + ps.length } : State).takeCommit c).setCmd d).tell stCommit d false false 0 0)

theorem stripCommitDo_eq (c : Cmd) (ts : List Time) (s : State) : stripCommitDo c ts s = ((s.commitTurn c ts).commitAsked c ts).settle := rfl

theorem commitTurn_eq {s : State} {c : Cmd} {ts : List Time} (h : s.timeNs ≤ ts.getLastD s.timeNs) :
    ∃ x q, s.commitTurn c ts = { s with tenants := x, timeNs := ts.getLastD s.timeNs, perf := q } := by
  obtain ⟨x, e⟩ := turnTenants_frame s c.work.steps ts
  unfold State.commitTurn
  rw [e]
  obtain ⟨q, e'⟩ := at_eq (s := { s with tenants := x }) h
  exact ⟨x, q, e'⟩

theorem at_tenant (s : State) (now : Time) (k : Nat) : (s.at now).tenant k = s.tenant k := by
  unfold State.at
  split
  · split
    · rw [passTime_eq]
      rfl
    · rfl
  · rfl

theorem commitSteps_some {w : State} {c : Cmd} {ts : List Time} {p : StripStep} (hp : p ∈ w.commitSteps c ts) : p.record.length ≠ 0 := by
  obtain ⟨x, -, rfl⟩ := List.mem_map.1 hp
  rw [(stepRecord_recorded _ _ _ _).length]
  decide

/-- What the begin of a commit leaves of a block on its own, whose strip-steps are then `ps`. -/
theorem commitAsked_solo {w : State} {c : Cmd} {ts : List Time} {ps : List StripStep} (hs : w.solo) (hps : w.commitSteps c ts = ps) :
    w.commitAsked c ts = { w.setCmd (c.askedWith ps) with
      freeCtr := w.freeCtr + ps.length
      queue := w.queue ++ (ps.map (c.askedWith ps).recordWrites).flatten
      streams := { w.streams with queue := w.streams.queue ++ (ps.map (c.askedWith ps).recordSegment).flatten } } := by
  have htake (u : State) (hu : u.solo) : u.takeCommit c = u := by
    unfold State.takeCommit
    rw [hu.secondary]
    rfl
  unfold State.commitAsked
  dsimp only
  rw [htake _ (by exact hs), tell_solo (by exact hs), writeRecords_solo (by exact hs) fun p hp => commitSteps_some hp, hps]
  rfl

/-- `v` is `s` with the commit of `c` begun at the times `ts`, its strip-steps then `ps` (R287, R294, R297). -/
structure CommitBegun (s v : State) (c : Cmd) (ts : List Time) (ps : List StripStep) : Prop where
  base : SameBase s v
  time : v.timeNs = ts.getLastD s.timeNs
  frame : v = { s with
    timeNs := v.timeNs, perf := v.perf, freeCtr := v.freeCtr, cmds := v.cmds, queue := v.queue, streams := v.streams, tenants := v.tenants }
  tenant : ∀ k, v.tenant k =
    c.work.steps.foldl (fun m p => if p.reason = 0 ∧ p.tenant = k then turnAt (ts.getD p.idx s.timeNs) m else m) (s.tenant k)
  cmds : v.cmds = (s.setCmd (c.askedWith ps)).cmds
  queue : v.queue = s.queue ++ (ps.map (c.askedWith ps).recordWrites).flatten
  streams : v.streams = { s.streams with queue := s.streams.queue ++ (ps.map (c.askedWith ps).recordSegment).flatten }

theorem commitAsked_begun {s : State} {c : Cmd} {ts : List Time} (hs : s.solo) (h : s.timeNs ≤ ts.getLastD s.timeNs) :
    CommitBegun s ((s.commitTurn c ts).commitAsked c ts) c ts ((s.commitTurn c ts).commitSteps c ts) := by
  obtain ⟨x, q, hturn⟩ := commitTurn_eq (c := c) h
  have htenant (k : Nat) := (at_tenant (s.turnTenants c.work.steps ts) (ts.getLastD s.timeNs) k).trans (turnTenants_tenant s c.work.steps ts k)
  generalize hps : (s.commitTurn c ts).commitSteps c ts = ps
  rw [commitAsked_solo (by rw [hturn]; exact hs) hps]
  change ∀ k, (s.commitTurn c ts).tenant k = _ at htenant
  rw [hturn] at htenant ⊢
  exact ⟨⟨rfl, rfl, rfl⟩, rfl, rfl, htenant, rfl, rfl, rfl⟩

/-- Strip-steps in command order, by their numbers. -/
theorem map_numbered {β : Type} {ps : List StripStep} (h : ∀ i, i < ps.length → (ps.getD i default).idx = i) (f : Nat → StripStep → β) :
    ps.map (fun p => f p.idx p) = (List.range ps.length).map fun i => f i (ps.getD i default) := by
  refine List.ext_getElem (by simp) fun i h1 _ => ?_
  have hi : i < ps.length := by simpa using h1
  have hidx := h i hi
  rw [List.getD_eq_getElem _ _ hi] at hidx
  simp [hidx, hi]

section
variable {w : State} {c : Cmd} {ts : List Time}

theorem commitSteps_length : (w.commitSteps c ts).length = c.work.steps.length := List.length_map _

theorem commitSteps_getD {i : Nat} (hi : i < c.work.steps.length) (hidx : (c.work.steps.getD i default).idx = i) (hn : ts.length = c.work.steps.length) :
    Recorded w c (ts.getD i 0) (c.work.steps.getD i default) ((w.commitSteps c ts).getD i default) := by
  have hget : (w.commitSteps c ts).getD i default =
      w.stepRecord c (ts.getD (c.work.steps.getD i default).idx w.timeNs) (c.work.steps.getD i default) := by
    simp [State.commitSteps, hi]
  have htime : ts.getD i w.timeNs = ts.getD i 0 := by simp [hn, hi]
  rw [hget, hidx, htime]
  exact stepRecord_recorded _ _ _ _

/-- Strip-steps in the order of their numbers stay so. -/
theorem commitSteps_numbered (hidx : ∀ i, i < c.work.steps.length → (c.work.steps.getD i default).idx = i) (hn : ts.length = c.work.steps.length) :
    ∀ i, i < (w.commitSteps c ts).length → ((w.commitSteps c ts).getD i default).idx = i := fun i hi => by
  rw [commitSteps_length] at hi
  exact (commitSteps_getD hi (hidx i hi) hn).idx.trans (hidx i hi)

end

/-- The verification records of strip-steps `ps`, in command order (R274). -/
theorem vrecWrites_numbered {c : Cmd} {ps : List StripStep} (h : ∀ i, i < ps.length → (ps.getD i default).idx = i) :
    ps.map (c.askedWith ps).vrecWrite = (List.range ps.length).map fun i => if (ps.getD i default).vrec = [] then [] else
      [writeRange .vrec c i (c.work.descs.getD i default).vrecAddr (ps.getD i default).vrec] :=
  map_numbered h fun i p => if p.vrec = [] then [] else [writeRange .vrec c i (c.work.descs.getD i default).vrecAddr p.vrec]

theorem recordWrites_memory {c : Cmd} {ps : List StripStep} (hm : pkResStream c.run = false) (h : ∀ i, i < ps.length → (ps.getD i default).idx = i) :
    ps.map (c.askedWith ps).recordWrites = (List.range ps.length).map fun i => (if (ps.getD i default).vrec = [] then [] else
      [writeRange .vrec c i (c.work.descs.getD i default).vrecAddr (ps.getD i default).vrec]) ++
      [writeRange .result c i (pkResAddr c.run + 256 * i) (ps.getD i default).record] := by
  rw [← map_numbered h fun i p => (if p.vrec = [] then [] else [writeRange .vrec c i (c.work.descs.getD i default).vrecAddr p.vrec]) ++
      [writeRange .result c i (pkResAddr c.run + 256 * i) p.record]]
  refine List.map_congr_left fun p _ => congrArg ((c.askedWith ps).vrecWrite p ++ ·) ?_
  exact if_neg (by simpa using hm)

theorem recordSegment_memory {c : Cmd} (hm : pkResStream c.run = false) (ps qs : List StripStep) : (qs.map (c.askedWith ps).recordSegment).flatten = [] := by
  have hnone (p : StripStep) : (c.askedWith ps).recordSegment p = [] := if_neg (by simpa using hm)
  simp [hnone]

theorem recordWrites_stream {c : Cmd} (hm : pkResStream c.run = true) (ps : List StripStep) (p : StripStep) :
    (c.askedWith ps).recordWrites p = (c.askedWith ps).vrecWrite p := by
  unfold Cmd.recordWrites
  rw [if_pos (by exact hm), List.append_nil]

theorem recordSegment_stream {c : Cmd} {ps : List StripStep} (hm : pkResStream c.run = true) (h : ∀ i, i < ps.length → (ps.getD i default).idx = i) :
    (ps.map (c.askedWith ps).recordSegment).flatten = (List.range ps.length).map fun i =>
      ⟨c.ring, c.seq, 0, decide (i + 1 = ps.length), (ps.getD i default).record⟩ := by
  have hone (p : StripStep) : (c.askedWith ps).recordSegment p = [⟨c.ring, c.seq, 0, decide (p.idx + 1 = ps.length), p.record⟩] := if_pos (by exact hm)
  rw [← map_numbered h fun i p => (⟨c.ring, c.seq, 0, decide (i + 1 = ps.length), p.record⟩ : Segment)]
  rw [funext hone]
  exact List.map_eq_flatMap.symm

end Sys2Proof.Machine
end

section
/-! PROOF. What written result records apply to strips, tenants and counts (R276, R278, R289, R296, R304, R380). -/

namespace Sys2Proof.Machine

/-! ### What a strip-step with answered records applies (R289, R296) -/

/-- A strip-step whose token goes into its strip: it has a selection, and its records are written. -/
def StripStep.good (p : StripStep) : Bool := p.reason == 0 && !p.failedWrite

/-- A strip-step whose records have been answered. -/
def StripStep.closed (p : StripStep) : StripStep :=
  if p.failedWrite then { p with reserved := 0 } else if p.reason = 0 then { p with committed := true, reserved := 0 } else p

/-- The strip of a strip-step with its tokens in it (R276, R296). -/
def Cmd.stripAfter (c : Cmd) (p : StripStep) (x : Strip) : Strip :=
  commitStrip (pkIntMode c.run) p (if p.params.ledgerUpd then (ledgerApply (pkIntMode c.run) x.ledger (p.tokens c.op)).1 else x.ledger) x

/-- The debit of a committed strip-step, with its late token (R289, R304). -/
def StripStep.debited (p : StripStep) (m : Tenant) : Tenant :=
  { debit p.time p.emitted p.reserved p.counted m with late := if hasFlag p.flags rfLate then m.late + 1 else m.late }

/-- Tenant `k` after a strip-step: the home shard debits what it committed; one that commits nothing gives its reservation back (R289). -/
def tenantAfter (home : Bool) (k : Nat) (m : Tenant) (p : StripStep) : Tenant :=
  if p.tenant ≠ k then m
  else if p.good then (if home then p.debited m else m)
  else if p.reason = 0 ∧ p.reserved ≠ 0 then { m with reserved := m.reserved - p.reserved } else m

theorem StripStep.good_iff {p : StripStep} : p.good = true ↔ p.failedWrite = false ∧ p.reason = 0 := by
  simp [good, and_comm]

/-- A strip-step fails its records, or has ended without a token, or goes into its strip. -/
theorem StripStep.kinds (p : StripStep) : p.failedWrite = true ∨ (p.failedWrite = false ∧ p.reason ≠ 0) ∨ p.good = true := by
  rw [good_iff]
  cases p.failedWrite <;> simp [em']

theorem StripStep.not_good_of_failed {p : StripStep} (h : p.failedWrite = true) : p.good = false := by simp [good, h]

theorem StripStep.not_good_of_ended {p : StripStep} (h : p.reason ≠ 0) : p.good = false := by simp [good, h]

/-! The stages of a commit, each a function of the state before it. -/

/-- A strip-step's written records are counted. -/
def State.countRecord (s : State) : State := { s with totals := { s.totals with records := s.totals.records + 1 } }

/-- The counts of a committed strip-step: `full` insertions were refused by its ledger (R229, R263, R278). -/
def State.countCommit (s : State) (op full : Nat) (p : StripStep) : State :=
  { s with
    win := countWin op full p s.win
    totals := { s.totals with
      commits := add32 s.totals.commits p.emitted, late := if hasFlag p.flags rfLate then s.totals.late + 1 else s.totals.late } }

/-- The debit of a committed strip-step, on the home shard alone (R253, R289), with the performance counters `q` after it. -/
def State.debitCommit (s : State) (home : Bool) (p : StripStep) (q : Perf) : State :=
  { s with
    perf := q
    tenants := if home then (s.modTenant p.tenant p.debited).tenants else s.tenants
    energy := { s.energy with
      served := s.energy.served + BitVec.ofNat 64 (if home then p.emitted else 0)
      epochServed := s.energy.epochServed + if home then p.emitted else 0 } }

theorem debitCommit_counted (s : State) (home : Bool) (p : StripStep) : ∃ q : Perf,
    ((if home then { s.modTenant p.tenant p.debited with energy := { s.energy with
      served := s.energy.served + BitVec.ofNat 64 p.emitted, epochServed := s.energy.epochServed + p.emitted } } else s).perfAdd 11 1).perfAdd
        12 p.emitted = s.debitCommit home p q := by
  have hperf (u : State) : ∃ q, (u.perfAdd 11 1).perfAdd 12 p.emitted = { u with perf := q } := by
    obtain ⟨q, e⟩ := perfAdd_frame u 11 1
    obtain ⟨q', e'⟩ := perfAdd_frame (u.perfAdd 11 1) 12 p.emitted
    exact ⟨q', by rw [e', e]⟩
  cases home with
  | false =>
    obtain ⟨q, e⟩ := hperf s
    exact ⟨q, by simpa [State.debitCommit] using e⟩
  | true =>
    obtain ⟨q, e⟩ := hperf { s.modTenant p.tenant p.debited with energy := { s.energy with
      served := s.energy.served + BitVec.ofNat 64 p.emitted, epochServed := s.energy.epochServed + p.emitted } }
    exact ⟨q, e⟩

section
variable (s : State) (c : Cmd) (p : StripStep)

theorem ledgerAfter_fst : (s.ledgerAfter c p).1 =
    if p.params.ledgerUpd then (ledgerApply (pkIntMode c.run) (s.strip p.strip).ledger (p.tokens c.op)).1 else (s.strip p.strip).ledger := by
  unfold State.ledgerAfter
  split <;> rfl

theorem modStrip_ledgerAfter : s.modStrip p.strip (commitStrip (pkIntMode c.run) p (s.ledgerAfter c p).1) = s.modStrip p.strip (c.stripAfter p) := by
  rw [ledgerAfter_fst]; rfl

/-- Steps 3 to 6 of R296, one stage after another. -/
theorem commitStep_eq : ∃ q : Perf, s.commitStep c p =
    ((s.modStrip p.strip (c.stripAfter p)).countCommit c.op (s.ledgerAfter c p).2.2 p).debitCommit (s.fieldOf c).home p q := by
  rw [← modStrip_ledgerAfter]
  obtain ⟨q, e⟩ := debitCommit_counted ((s.modStrip p.strip (commitStrip (pkIntMode c.run) p (s.ledgerAfter c p).1)).countCommit c.op
    (s.ledgerAfter c p).2.2 p) (s.fieldOf c).home p
  exact ⟨q, Eq.trans rfl e⟩

theorem closeStep_snd : (s.closeStep c p).2 = p.closed := by
  unfold State.closeStep StripStep.closed
  split
  · rfl
  · dsimp only
    split <;> rfl

/-- A strip-step whose records are not all written. -/
theorem closeStep_failed (h : p.failedWrite = true) : (s.closeStep c p).1 = if p.reason = 0 then s.unreserve p else s := by
  unfold State.closeStep
  rw [if_pos h]

/-- A strip-step that has ended without a token. -/
theorem closeStep_ended (h : p.failedWrite = false) (hr : p.reason ≠ 0) : (s.closeStep c p).1 = s.countRecord := by
  unfold State.closeStep
  rw [if_neg (by simp [h])]
  exact congrArg Prod.fst (if_neg hr)

/-- A strip-step whose token goes into its strip. -/
theorem closeStep_good (h : p.good = true) : ∃ q : Perf, (s.closeStep c p).1 =
    ((s.countRecord.modStrip p.strip (c.stripAfter p)).countCommit c.op (s.ledgerAfter c p).2.2 p).debitCommit (s.fieldOf c).home p q := by
  obtain ⟨hf, hr⟩ := StripStep.good_iff.1 h
  obtain ⟨q, e⟩ := commitStep_eq s.countRecord c p
  refine ⟨q, Eq.trans ?_ e⟩
  unfold State.closeStep
  rw [if_neg (by simp [hf])]
  exact congrArg Prod.fst (if_pos hr)

/-- `t` comes from `s` by written records: strips, tenants, counts and what has been served may differ. -/
def State.recordedTo (s t : State) : Prop :=
  t = { s with
    perf := t.perf, strips := t.strips, win := t.win, tenants := t.tenants
    totals := { s.totals with commits := t.totals.commits, records := t.totals.records, late := t.totals.late }
    energy := { s.energy with served := t.energy.served, epochServed := t.energy.epochServed } }

theorem State.recordedTo.trans {s t u : State} (h : s.recordedTo t) (g : t.recordedTo u) : s.recordedTo u := by
  unfold recordedTo at *
  rw [h] at g
  exact g

theorem modStrip_recorded (k : Nat) (f : Strip → Strip) : s.recordedTo (s.modStrip k f) := Eq.refl _

theorem modTenant_recorded (k : Nat) (f : Tenant → Tenant) : s.recordedTo (s.modTenant k f) := Eq.refl _

theorem countRecord_recorded : s.recordedTo s.countRecord := Eq.refl _

theorem countCommit_recorded (op full : Nat) : s.recordedTo (s.countCommit op full p) := Eq.refl _

theorem debitCommit_recorded (home : Bool) (q : Perf) : s.recordedTo (s.debitCommit home p q) := Eq.refl _

theorem unreserve_recorded : s.recordedTo (s.unreserve p) := by
  unfold State.unreserve
  split
  · exact Eq.refl _
  · exact modTenant_recorded s _ _

theorem closeStep_recorded : s.recordedTo (s.closeStep c p).1 := by
  rcases p.kinds with h | ⟨h, hr⟩ | h
  · rw [closeStep_failed _ _ _ h]
    split
    · exact unreserve_recorded s p
    · exact Eq.refl _
  · rw [closeStep_ended _ _ _ h hr]
    exact countRecord_recorded s
  · obtain ⟨q, e⟩ := closeStep_good s c p h
    rw [e]
    exact (countRecord_recorded s).trans ((modStrip_recorded _ _ _).trans ((countCommit_recorded _ _ _ _).trans (debitCommit_recorded _ _ _ _)))

/-! What the stages read as, where they do not stand in for one another. -/

@[simp] theorem countRecord_strip (k : Nat) : s.countRecord.strip k = s.strip k := rfl
@[simp] theorem countCommit_strip (op full k : Nat) : (s.countCommit op full p).strip k = s.strip k := rfl
@[simp] theorem debitCommit_strip (home : Bool) (q : Perf) (k : Nat) : (s.debitCommit home p q).strip k = s.strip k := rfl
@[simp] theorem countRecord_tenant (k : Nat) : s.countRecord.tenant k = s.tenant k := rfl
@[simp] theorem modStrip_tenant (f : Strip → Strip) (i k : Nat) : (s.modStrip i f).tenant k = s.tenant k := rfl
@[simp] theorem countCommit_tenant (op full k : Nat) : (s.countCommit op full p).tenant k = s.tenant k := rfl
@[simp] theorem debitCommit_totals (home : Bool) (q : Perf) : (s.debitCommit home p q).totals = s.totals := rfl
@[simp] theorem debitCommit_win (home : Bool) (q : Perf) : (s.debitCommit home p q).win = s.win := rfl

theorem unreserve_strip (k : Nat) : (s.unreserve p).strip k = s.strip k := by
  unfold State.unreserve
  split <;> rfl

theorem unreserve_tenant (k : Nat) : (s.unreserve p).tenant k =
    if p.tenant = k ∧ p.reserved ≠ 0 then { s.tenant k with reserved := (s.tenant k).reserved - p.reserved } else s.tenant k := by
  unfold State.unreserve
  by_cases h0 : p.reserved = 0
  · rw [if_pos h0, if_neg (by simp [h0])]
  · rw [if_neg h0]
    by_cases hk : p.tenant = k
    · subst hk
      rw [modTenant_tenant_same, if_pos ⟨rfl, h0⟩]
    · rw [modTenant_tenant_ne _ _ (Ne.symm hk), if_neg (by simp [hk])]

theorem debitCommit_tenant (home : Bool) (q : Perf) (k : Nat) : (s.debitCommit home p q).tenant k =
    if p.tenant = k ∧ home = true then p.debited (s.tenant k) else s.tenant k := by
  cases home
  · rw [if_neg (by simp)]; rfl
  · by_cases hk : p.tenant = k
    · subst hk
      rw [if_pos ⟨rfl, rfl⟩]
      exact modTenant_tenant_same s p.tenant p.debited
    · rw [if_neg (by simp [hk])]
      exact modTenant_tenant_ne s p.debited (Ne.symm hk)

/-! ### One strip-step, register by register -/

/-- A strip that the strip-step's token does not go into. -/
theorem closeStep_strip_other {k : Nat} (hk : p.good = true → p.strip ≠ k) : (s.closeStep c p).1.strip k = s.strip k := by
  rcases p.kinds with h | ⟨h, hr⟩ | h
  · rw [closeStep_failed _ _ _ h]
    split
    · exact unreserve_strip s p k
    · rfl
  · rw [closeStep_ended _ _ _ h hr, countRecord_strip]
  · obtain ⟨q, e⟩ := closeStep_good s c p h
    rw [e, debitCommit_strip, countCommit_strip, modStrip_strip_ne _ _ (hk h).symm, countRecord_strip]

theorem closeStep_strip_own (h : p.good = true) : (s.closeStep c p).1.strip p.strip = c.stripAfter p (s.strip p.strip) := by
  obtain ⟨q, e⟩ := closeStep_good s c p h
  rw [e, debitCommit_strip, countCommit_strip, modStrip_strip_same, countRecord_strip]

/-- Each strip-step leaves its tenant as R289 says, and every other as it was. -/
theorem closeStep_tenant (k : Nat) : (s.closeStep c p).1.tenant k = tenantAfter (s.fieldOf c).home k (s.tenant k) p := by
  unfold tenantAfter
  rcases p.kinds with h | ⟨h, hr⟩ | h
  · rw [closeStep_failed _ _ _ h]
    by_cases hr : p.reason = 0
    · rw [if_pos hr, unreserve_tenant]
      by_cases hk : p.tenant = k <;> simp [hk, StripStep.not_good_of_failed h, hr]
    · simp [StripStep.not_good_of_failed h, hr]
  · rw [closeStep_ended _ _ _ h hr, countRecord_tenant]
    simp [StripStep.not_good_of_ended hr, hr]
  · obtain ⟨q, e⟩ := closeStep_good s c p h
    rw [e, debitCommit_tenant, countCommit_tenant, modStrip_tenant, countRecord_tenant]
    by_cases hk : p.tenant = k <;> simp [hk, h]

theorem closeStep_totals : (s.closeStep c p).1.totals = { s.totals with
    records := s.totals.records + BitVec.ofNat 32 (if !p.failedWrite then 1 else 0)
    commits := s.totals.commits + BitVec.ofNat 32 (if p.good then p.emitted else 0)
    late := s.totals.late + BitVec.ofNat 32 (if p.good && hasFlag p.flags rfLate then 1 else 0) } := by
  rcases p.kinds with h | ⟨h, hr⟩ | h
  · have ht : (s.unreserve p).totals = s.totals := by unfold State.unreserve; split <;> rfl
    rw [closeStep_failed _ _ _ h, apply_ite State.totals, ht, ite_self]
    simp [StripStep.not_good_of_failed h, h]
  · rw [closeStep_ended _ _ _ h hr]
    simp [State.countRecord, StripStep.not_good_of_ended hr, h]
  · obtain ⟨q, e⟩ := closeStep_good s c p h
    rw [e, debitCommit_totals]
    cases hl : hasFlag p.flags rfLate <;> simp [State.countCommit, State.countRecord, State.modStrip, add32, h, hl, (StripStep.good_iff.1 h).1]

theorem closeStep_energy : (s.closeStep c p).1.energy = { s.energy with
    served := s.energy.served + BitVec.ofNat 64 (if p.good && (s.fieldOf c).home then p.emitted else 0)
    epochServed := s.energy.epochServed + if p.good && (s.fieldOf c).home then p.emitted else 0 } := by
  rcases p.kinds with h | ⟨h, hr⟩ | h
  · have ht : (s.unreserve p).energy = s.energy := by unfold State.unreserve; split <;> rfl
    rw [closeStep_failed _ _ _ h, apply_ite State.energy, ht, ite_self]
    simp [StripStep.not_good_of_failed h]
  · rw [closeStep_ended _ _ _ h hr]
    simp [State.countRecord, StripStep.not_good_of_ended hr]
  · obtain ⟨q, e⟩ := closeStep_good s c p h
    rw [e, h, Bool.true_and]
    rfl

/-- The Winnower's counts of trees (R278). -/
theorem closeStep_verified :
    (s.closeStep c p).1.win.verifyStrips = s.win.verifyStrips + BitVec.ofNat 32 (if p.good && decide (c.op = opVerify) then 1 else 0) ∧
    (s.closeStep c p).1.win.verifyAccepted =
      s.win.verifyAccepted + BitVec.ofNat 32 (if p.good && decide (c.op = opVerify) then p.walk.accepted else 0) := by
  rcases p.kinds with h | ⟨h, hr⟩ | h
  · have ht : (s.unreserve p).win = s.win := by unfold State.unreserve; split <;> rfl
    rw [closeStep_failed _ _ _ h, apply_ite State.win, ht, ite_self]
    simp [StripStep.not_good_of_failed h]
  · rw [closeStep_ended _ _ _ h hr]
    simp [State.countRecord, StripStep.not_good_of_ended hr]
  · obtain ⟨q, e⟩ := closeStep_good s c p h
    rw [e, debitCommit_win]
    by_cases ho : c.op = opVerify <;> simp [State.countCommit, State.countRecord, State.modStrip, countWin, add32, h, ho]

end

/-! ### All strip-steps, in order -/

/-- The records of strip-steps `ps` have been answered, one after another (R296, R297). -/
def State.closeAll (s : State) (c : Cmd) (ps : List StripStep) : State := ps.foldl (fun s p => (s.closeStep c p).1) s

section
variable {s : State} {c : Cmd}

theorem closeSteps_eq (s : State) (c : Cmd) (ps done : List StripStep) : ps.foldl (fun (a : State × List StripStep) p =>
    let (s, p) := a.1.closeStep c p
    (s, a.2 ++ [p])) (s, done) = (s.closeAll c ps, done ++ ps.map StripStep.closed) := by
  induction ps generalizing s done with
  | nil => simp [State.closeAll]
  | cons p ps ih =>
    refine (ih (s.closeStep c p).1 (done ++ [(s.closeStep c p).2])).trans ?_
    rw [closeStep_snd, List.append_assoc]
    rfl

theorem closeAll_recorded (s : State) (c : Cmd) (ps : List StripStep) : s.recordedTo (s.closeAll c ps) := by
  induction ps generalizing s with
  | nil => exact Eq.refl _
  | cons p ps ih => exact (closeStep_recorded s c p).trans (ih _)

theorem State.recordedTo.fields {s t : State} (h : s.recordedTo t) : t.fields = s.fields := (congrArg State.fields h :)

theorem State.recordedTo.fieldOf {s t : State} (h : s.recordedTo t) (c : Cmd) : t.fieldOf c = s.fieldOf c :=
  congrArg (fun x => tblGet fieldReset x (pkField c.run)) h.fields

theorem closeAll_tenant (s : State) (c : Cmd) (ps : List StripStep) (k : Nat) :
    (s.closeAll c ps).tenant k = ps.foldl (tenantAfter (s.fieldOf c).home k) (s.tenant k) := by
  induction ps generalizing s with
  | nil => rfl
  | cons p ps ih =>
    refine (ih _).trans ?_
    rw [closeStep_tenant, (closeStep_recorded s c p).fieldOf]
    rfl

/-- A count that every strip-step with `q` adds its `g` to. -/
theorem closeAll_sum {α : Type} [AddMonoidWithOne α] (f : State → α) (q : StripStep → Bool) (g : StripStep → Nat)
    (h : ∀ t p, s.recordedTo t → f (t.closeStep c p).1 = f t + ((if q p then g p else 0 : Nat) : α)) (ps : List StripStep) :
    f (s.closeAll c ps) = f s + ((((ps.filter q).map g).sum : Nat) : α) := by
  induction ps generalizing s with
  | nil => simp [State.closeAll]
  | cons p ps ih =>
    refine (ih fun t x ht => h t x ((closeStep_recorded s c p).trans ht)).trans ?_
    rw [h s p (Eq.refl _)]
    cases hq : q p <;> simp [hq, add_assoc]

/-- Strips that no token goes into stay as they are. -/
theorem closeAll_strip_other {ps : List StripStep} {k : Nat} (hk : ∀ p ∈ ps.filter StripStep.good, p.strip ≠ k) :
    (s.closeAll c ps).strip k = s.strip k := by
  induction ps generalizing s with
  | nil => rfl
  | cons p ps ih =>
    refine (ih fun x hx => hk x ?_).trans (closeStep_strip_other s c p fun hg => hk p ?_)
    · simp only [List.mem_filter, List.mem_cons] at hx ⊢
      exact ⟨.inr hx.1, hx.2⟩
    · simp [hg]

/-- The strips that a token goes into, each once (R285). -/
theorem closeAll_strip_own {ps : List StripStep} (hn : ((ps.filter StripStep.good).map StripStep.strip).Nodup) {p : StripStep}
    (hp : p ∈ ps.filter StripStep.good) : (s.closeAll c ps).strip p.strip = c.stripAfter p (s.strip p.strip) := by
  induction ps generalizing s with
  | nil => simp at hp
  | cons x ps ih =>
    cases hx : x.good with
    | false =>
      rw [List.filter_cons_of_neg (by simp [hx])] at hn hp
      refine (ih hn hp).trans ?_
      rw [closeStep_strip_other s c x (by simp [hx])]
    | true =>
      rw [List.filter_cons_of_pos hx] at hn hp
      obtain ⟨hne, hrest⟩ := List.nodup_cons.1 hn
      rcases List.mem_cons.1 hp with rfl | hp
      · refine (closeAll_strip_other fun y hy he => hne (List.mem_map.2 ⟨y, hy, he⟩)).trans (closeStep_strip_own s c p hx)
      · refine (ih hrest hp).trans ?_
        rw [closeStep_strip_other s c x fun _ he => hne (List.mem_map.2 ⟨p, hp, he.symm⟩)]

theorem closeAll_totals (s : State) (c : Cmd) (ps : List StripStep) : (s.closeAll c ps).totals = { s.totals with
    records := s.totals.records + BitVec.ofNat 32 (ps.filter fun p => !p.failedWrite).length
    commits := s.totals.commits + BitVec.ofNat 32 ((ps.filter StripStep.good).map StripStep.emitted).sum
    late := s.totals.late + BitVec.ofNat 32 ((ps.filter StripStep.good).filter fun p => hasFlag p.flags rfLate).length } := by
  have hrecords := closeAll_sum (s := s) (c := c) (fun t => t.totals.records) (fun p => !p.failedWrite) (fun _ => 1)
    (fun t p _ => by simp only [closeStep_totals, BitVec.natCast_eq_ofNat]) ps
  have hcommits := closeAll_sum (s := s) (c := c) (fun t => t.totals.commits) StripStep.good StripStep.emitted
    (fun t p _ => by simp only [closeStep_totals, BitVec.natCast_eq_ofNat]) ps
  have hlate := closeAll_sum (s := s) (c := c) (fun t => t.totals.late) (fun p => p.good && hasFlag p.flags rfLate) (fun _ => 1)
    (fun t p _ => by simp only [closeStep_totals, BitVec.natCast_eq_ofNat]) ps
  simp only [List.map_const', List.sum_replicate, smul_eq_mul, mul_one, BitVec.natCast_eq_ofNat] at hrecords hcommits hlate
  rw [List.filter_filter, ← hrecords, ← hcommits]
  simp only [Bool.and_comm (hasFlag _ _), ← hlate]
  exact (congrArg State.totals (closeAll_recorded s c ps) :)

theorem closeAll_energy (s : State) (c : Cmd) (ps : List StripStep) : (s.closeAll c ps).energy = { s.energy with
    served := s.energy.served + BitVec.ofNat 64 (if (s.fieldOf c).home then ((ps.filter StripStep.good).map StripStep.emitted).sum else 0)
    epochServed := s.energy.epochServed + if (s.fieldOf c).home then ((ps.filter StripStep.good).map StripStep.emitted).sum else 0 } := by
  have hserved := closeAll_sum (s := s) (c := c) (fun t => t.energy.served) (fun p => p.good && (s.fieldOf c).home) StripStep.emitted
    (fun t p ht => by simp only [closeStep_energy, ht.fieldOf, BitVec.natCast_eq_ofNat]) ps
  have hepoch := closeAll_sum (s := s) (c := c) (fun t => t.energy.epochServed) (fun p => p.good && (s.fieldOf c).home) StripStep.emitted
    (fun t p ht => by simp only [closeStep_energy, ht.fieldOf, Nat.cast_id]) ps
  have hsum : ((ps.filter fun p => p.good && (s.fieldOf c).home).map StripStep.emitted).sum =
      if (s.fieldOf c).home then ((ps.filter StripStep.good).map StripStep.emitted).sum else 0 := by
    cases (s.fieldOf c).home <;> simp
  simp only [hsum, BitVec.natCast_eq_ofNat, Nat.cast_id] at hserved hepoch
  rw [← hserved, ← hepoch]
  exact (congrArg State.energy (closeAll_recorded s c ps) :)

theorem closeAll_verified (s : State) (c : Cmd) (ps : List StripStep) :
    (c.op = opVerify → (s.closeAll c ps).win.verifyStrips = s.win.verifyStrips + BitVec.ofNat 32 (ps.filter StripStep.good).length ∧
      (s.closeAll c ps).win.verifyAccepted =
        s.win.verifyAccepted + BitVec.ofNat 32 ((ps.filter StripStep.good).map fun p => p.walk.accepted).sum) ∧
    (c.op ≠ opVerify → (s.closeAll c ps).win.verifyStrips = s.win.verifyStrips ∧ (s.closeAll c ps).win.verifyAccepted = s.win.verifyAccepted) := by
  have hstrips := closeAll_sum (s := s) (c := c) (fun t => t.win.verifyStrips) (fun p => p.good && decide (c.op = opVerify)) (fun _ => 1)
    (fun t p _ => by simp only [closeStep_verified, BitVec.natCast_eq_ofNat]) ps
  have haccepted := closeAll_sum (s := s) (c := c) (fun t => t.win.verifyAccepted) (fun p => p.good && decide (c.op = opVerify))
    (fun p => p.walk.accepted) (fun t p _ => by simp only [closeStep_verified, BitVec.natCast_eq_ofNat]) ps
  simp only [List.map_const', List.sum_replicate, smul_eq_mul, mul_one, BitVec.natCast_eq_ofNat] at hstrips haccepted
  constructor <;> intro ho <;> simpa [ho] using And.intro hstrips haccepted

/-! ### RESULT_RECORDS_WRITTEN -/

/-- The command as its strip-steps have been closed, before its end. -/
def Cmd.withRecords (c : Cmd) : Cmd :=
  let steps := c.work.steps.map StripStep.closed
  let done := steps.filter fun p => p.committed
  { c with
    work := { c.work with steps := steps }
    intSat := c.intSat || done.any fun p => hasFlag p.flags rfIntSat
    intWrap := c.intWrap || done.any fun p => hasFlag p.flags rfIntWrap }

/-- The reason with which a command ends whose records have been answered (R380). -/
def Cmd.reasonAnswered (c : Cmd) : Reason := if c.reason = .ok ∧ c.work.steps.any StripStep.failedWrite then .badAddr else c.reason

/-- The block as the records of `c` have been answered and it has ended. -/
def State.recordsOver (s : State) (c : Cmd) : State :=
  let t := s.closeAll c c.work.steps
  t.finish c.withRecords c.reasonAnswered (classBody (t.fieldOf c.withRecords) c.withRecords c.reasonAnswered)

@[simp] theorem StripStep.closed_failedWrite (p : StripStep) : p.closed.failedWrite = p.failedWrite := by
  unfold closed
  split
  · rfl
  · split <;> rfl

theorem resultRecordsDo_eq (s : State) (c : Cmd) : resultRecordsDo c s = (s.recordsOver c).settle.afterCommit := by
  have hany : (c.work.steps.map StripStep.closed).any StripStep.failedWrite = c.work.steps.any StripStep.failedWrite := by
    simp [List.any_map, Function.comp_def]
  unfold resultRecordsDo State.recordsOver Cmd.reasonAnswered
  rw [closeSteps_eq, List.nil_append, ← hany]
  rfl

theorem exec_resultRecordsWritten {ring : Fin 64} {seq : U32} {now : Time} {s : State} {c : Cmd}
    (h : resultRecordsOn (s.tick now) ring.val seq = some c) :
    exec (.resultRecordsWritten ring seq now) s = .next (s.keep (((s.tick now).recordsOver c).settle.afterCommit)) := by
  rw [← resultRecordsDo_eq]
  show Host.Outcome.next (s.keep (match resultRecordsOn (s.tick now) ring.val seq with
    | some c => resultRecordsDo c (s.tick now)
    | none => s.tick now)) = _
  rw [h]

theorem resultRecordsOn_eq {s : State} {c : Cmd} (ha : s.alone c) (h1 : s.running = true) (h2 : s.pair.holding = false) (h3 : c.stage = .committing)
    (h4 : c.work.steps ≠ []) (h5 : ∀ p ∈ c.work.steps, p.asked = true) (h6 : s.writesOpen c.ring c.seq = false)
    (h7 : s.segmentsWait c.ring c.seq = false) : resultRecordsOn s c.ring c.seq = some c := by
  simp [resultRecordsOn, ha.cmd, h1, h2, h3, h4, h6, h7]
  exact h5

/-- The end of a command, in two parts: what it accounts for and leaves, and the command as it has ended. -/
theorem finish_parts (s : State) (c : Cmd) (r : Reason) (b : Body) : ∃ (u : State) (d : Cmd), Quiet s u ∧
    s.finish c r b = (u.setCmd d).freeAcre c.ring c.seq ∧ d.order = c.order ∧ d.stage = .finished ∧ d.reason = r ∧ d.work = c.work := by
  have q : Quiet s (if (s.convert c).2.disp.isNone then (s.convert c).1.leaveBarrier (s.convert c).2.ring else (s.convert c).1) := by
    split
    · exact (convert_quiet s c).trans (leaveBarrier_quiet _ _)
    · exact convert_quiet s c
  exact ⟨_, _, q, rfl, rfl, rfl, rfl, rfl⟩

/-- The end of a command keeps its work. -/
theorem finish_work {s : State} {c : Cmd} (r : Reason) (b : Body) (h : ∃ d ∈ s.cmds, d.order = c.order) :
    (s.finish c r b).holds c.order fun d => d.stage = .finished ∧ d.reason = r ∧ d.work = c.work := by
  obtain ⟨u, d, hq, e, ho, hd⟩ := finish_parts s c r b
  rw [e, ← ho]
  rw [← ho, ← hq.cmds] at h
  exact holds_of_cmds (setCmd_own (c := d) h hd) (freeAcre_quiet _ _ _).cmds

theorem finish_tenant (s : State) (c : Cmd) (r : Reason) (b : Body) (k : Nat) : (s.finish c r b).tenant k = s.tenant k := by
  obtain ⟨u, d, hq, e, -⟩ := finish_parts s c r b
  rw [e, (freeAcre_quiet _ _ _).tenant]
  exact hq.tenant k

/-- The registers of a block whose command has ended that no end of a command moves are those after its records. -/
theorem recordsOver_still (s : State) (c : Cmd) : (s.recordsOver c).still = (s.closeAll c c.work.steps).still := (finish_still _ _ _ _).1.1

theorem recordsOver_cmd {s : State} {c : Cmd} (ha : s.alone c) : (s.recordsOver c).holds c.order fun d =>
    d.stage = .finished ∧ d.reason = c.reasonAnswered ∧ d.work.steps = c.work.steps.map StripStep.closed := by
  have hcmds : (s.closeAll c c.work.steps).cmds = s.cmds := (congrArg State.cmds (closeAll_recorded s c c.work.steps) :)
  have hown := finish_work (s := s.closeAll c c.work.steps) (c := c.withRecords) c.reasonAnswered
    (classBody ((s.closeAll c c.work.steps).fieldOf c.withRecords) c.withRecords c.reasonAnswered) ⟨c, hcmds ▸ ha.mem, rfl⟩
  exact holds_mono hown fun d ⟨hstage, hreason, hwork⟩ => ⟨hstage, hreason, congrArg Work.steps hwork⟩

theorem recordsOver_base (s : State) (c : Cmd) : SameBase s (s.recordsOver c) := by
  have hclosed := closeAll_recorded s c c.work.steps
  exact (finish_kept _ _ _ _).base.after ⟨(congrArg State.pending hclosed :), (congrArg State.build hclosed :), (congrArg State.mem hclosed :)⟩

theorem recordsOver_cpDue (s : State) (c : Cmd) : (s.recordsOver c).flt.cpDue = s.flt.cpDue :=
  (still_flt_cpDue (recordsOver_still s c)).trans (congrArg (fun t : State => t.flt.cpDue) (closeAll_recorded s c c.work.steps) :)

end

end Sys2Proof.Machine
end

section
/-! PROOF. Debits in windows that have turned, segments of the result stream, and the image of a command that pauses, and the obligation on what
a command's phase leaves (R87, R287, R289, R365, R391, R437). -/

namespace Sys2Proof.Machine

/-! ### One debit (R287, R289, R290) -/

theorem turnAt_current {t : Time} {m : Tenant} (h : m.windowUs = 0 ∨ windowOf t m.windowUs ≤ m.window) : turnAt t m = m := by
  unfold turnAt
  rcases h with h | h
  · exact if_pos h
  · dsimp only
    rw [if_neg (by omega : ¬ m.window < windowOf t m.windowUs), ite_self]

/-- A debit in the window in force. -/
theorem debit_current {t : Time} (k r : Nat) {m : Tenant} (hp : m.past = []) (hw : m.windowUs = 0 ∨ windowOf t m.windowUs ≤ m.window) :
    debit t k r true m =
      { m with remain := m.remain - k, reserved := m.reserved - r, committed := m.committed + BitVec.ofNat 32 k } := by
  unfold debit
  rw [turnAt_current hw]
  simp [hp, carryTurns, add32, Int.sub_eq_add_neg]

/-- A debit in a window that has turned once since: the turn carries what is left of it. -/
theorem debit_turned {t : Time} (k r : Nat) {m : Tenant} {x : Turn} (hp : m.past = [x]) (ht : t.toNat < x.since) (hx : x.count = 1)
    (hw : m.windowUs = 0 ∨ windowOf t m.windowUs ≤ m.window) :
    (debit t k r true m).remain = m.remain + (min (x.before - k) 0 - min x.before 0) := by
  unfold debit
  rw [turnAt_current hw]
  simp [hp, ht, hx, carryTurns, afterTurns]
  omega

/-! ### A segment of the result stream -/

theorem resSegmentDo_eq {s : State} {g : Segment} {rest : List Segment} (h : s.streams.queue = g :: rest) :
    resSegmentDo s = (({ s with streams := { s.streams with queue := rest } }).perfAdd 16 (ceilDiv g.data.length 64)).event g.ring g.seq 13
      (ceilDiv g.data.length 64) := by
  unfold resSegmentDo
  rw [h]

theorem exec_resSegmentSend {now : Time} {s : State} (hr : (s.tick now).running = true) (h6 : (s.tick now).fnReset 6 = false) :
    exec (.resSegmentSend now) s = .next (s.keep (resSegmentDo (s.tick now)).settle) := by
  show Host.Outcome.next (s.keep (if (s.tick now).running && !(s.tick now).fnReset 6 then _ else _)) = _
  rw [hr, h6]
  rfl

/-- Events of a packet that is not there, or has ended, go to BG (R406). -/
theorem event_bg {s : State} {r : Nat} {q : U32} (h : s.cmd r q = none ∨ ∃ c, s.cmd r q = some c ∧ c.stage = .finished) (n k : Nat) :
    s.event r q n k = s.bgEvent n k := by
  unfold State.event
  rcases h with h | ⟨c, h, hs⟩
  · rw [h]
  · rw [h]
    exact if_pos hs

/-- Events of a packet that has not ended. -/
theorem event_cmd {s : State} {r : Nat} {q : U32} {c : Cmd} (h : s.cmd r q = some c) (hs : c.stage ≠ .finished) (n k : Nat) :
    s.event r q n k = s.setCmd (c.event n k) := by
  unfold State.event
  rw [h]
  exact if_neg hs

theorem event_frame (s : State) (r : Nat) (q : U32) (n k : Nat) : ∃ x e, s.event r q n k = { s with cmds := x, energy := e } := by
  unfold State.event
  split
  · split <;> exact ⟨_, _, rfl⟩
  · exact ⟨_, _, rfl⟩

/-- `v` is `u` after segment `g` of `n` events has left the output queue, with `rest` behind it (R391, R392, R406). -/
structure SegmentSent (u v : State) (g : Segment) (rest : List Segment) (n : Nat) : Prop where
  base : SameBase u v
  perf : v.perf = { u.perf with counters := v.perf.counters }
  count : tblGet 0 v.perf.counters 16 = tblGet 0 u.perf.counters 16 + BitVec.ofNat 64 n
  gone : u.cmd g.ring g.seq = none ∨ (∃ c, u.cmd g.ring g.seq = some c ∧ c.stage = .finished) → v = { u with
    streams := { u.streams with queue := rest }, perf := v.perf, energy := { u.energy with bgEvents := evAdd u.energy.bgEvents 13 n } }
  own : ∀ c, u.cmd g.ring g.seq = some c → c.stage ≠ .finished →
    v = { u with streams := { u.streams with queue := rest }, perf := v.perf, cmds := v.cmds } ∧
      v.holds c.order fun d => d = { c with events := evAdd c.events 13 n }

theorem resSegmentDo_sent {u : State} {g : Segment} {rest : List Segment} (hready : u.boot.ready = true) (hq : u.streams.queue = g :: rest) :
    SegmentSent u (resSegmentDo u) g rest (ceilDiv g.data.length 64) := by
  have hcount := perfAdd_counts (s := { u with streams := { u.streams with queue := rest } }) hready 16 (ceilDiv g.data.length 64)
  have hperf (s : State) (n k : Nat) : (s.perfAdd n k).perf = { s.perf with counters := (s.perfAdd n k).perf.counters } := by
    unfold State.perfAdd
    split <;> rfl
  have hperf := hperf { u with streams := { u.streams with queue := rest } } 16 (ceilDiv g.data.length 64)
  have hsegment := resSegmentDo_eq hq
  rw [perfAdd_eq] at hcount hsegment hperf
  generalize ceilDiv g.data.length 64 = n at hcount hsegment hperf ⊢
  generalize State.perf (State.perfAdd _ 16 n) = p at hcount hsegment hperf
  rw [hsegment]
  obtain ⟨x, e, hframe⟩ := event_frame ({ u with streams := { u.streams with queue := rest }, perf := p } : State) g.ring g.seq 13 n
  constructor
  case base =>
    rw [hframe]
    exact ⟨rfl, rfl, rfl⟩
  case perf =>
    rw [hframe]
    exact hperf
  case count =>
    rw [hframe]
    exact hcount
  case gone =>
    intro hnone
    rw [event_bg (by exact hnone), State.bgEvent]
  case own =>
    intro c hc hs
    rw [event_cmd (by exact hc) hs]
    exact ⟨rfl, setCmd_own (c := c.event 13 n) ⟨c, cmd_mem hc, rfl⟩ rfl⟩

/-! ### The image of a command that pauses -/

@[simp] theorem savedForm_op (s : State) (c : Cmd) : (s.savedForm c).op = c.op := by
  unfold State.savedForm Cmd.prepared
  split
  · split <;> rfl
  · rfl

/-- The front of an image's header (R437). -/
theorem imageHeader_front (s : State) (c : Cmd) (n : Nat) : ∃ rest, s.imageHeader c n = leBytes 8 n ++ (leBytes 1 c.op ++ rest) := by
  unfold State.imageHeader
  dsimp only
  rw [padTo_eq 248 _ (by simp [leBytes_length])]
  simp only [List.append_assoc]
  exact ⟨_, rfl⟩

/-- The fields that every image begins with (R437). -/
structure ImageFront (b : List Byte) (size op : Nat) : Prop where
  size : leNat b 8 8 = size % 2 ^ 64
  op : leNat b 16 1 = op % 256
  check : le32 b 4 = crc32c (b.drop 8)
  some : b.length ≠ 0

theorem imageOf_front (s : State) (c : Cmd) (n : Nat) : ImageFront (s.imageOf c n) (imageBytes n) c.op := by
  obtain ⟨rest, e⟩ := imageHeader_front s c (imageBytes n)
  have hform : s.imageOf c n = leBytes 4 glbVersion.toNat ++ (leBytes 4 (crc32c (s.imageHeader c (imageBytes n) ++ Config.ctxSections n)).toNat ++
      (s.imageHeader c (imageBytes n) ++ Config.ctxSections n)) := List.append_assoc _ _ _
  generalize hcrc : crc32c (s.imageHeader c (imageBytes n) ++ Config.ctxSections n) = crc at hform
  rw [hform]
  constructor
  case check =>
    have hdrop : (leBytes 4 glbVersion.toNat ++ (leBytes 4 crc.toNat ++ (s.imageHeader c (imageBytes n) ++ Config.ctxSections n))).drop 8 =
        s.imageHeader c (imageBytes n) ++ Config.ctxSections n := by
      rw [← List.append_assoc, List.drop_left' (by simp [leBytes_length])]
    rw [hdrop, hcrc]
    unfold le32
    simp (disch := simp [leBytes_length]) only [leNat_left, leNat_right, leBytes_length, Nat.sub_self, leNat_leBytes]
    rw [Nat.mod_eq_of_lt (show _ < 256 ^ 4 from crc.isLt)]
    exact BitVec.ofNat_toNat ..
  case size =>
    rw [e]
    simp (disch := simp [leBytes_length]) only [List.append_assoc, leNat_left, leNat_right, leBytes_length, Nat.sub_self, leNat_leBytes, Nat.reduceSub]
    rfl
  case op =>
    rw [e]
    simp (disch := simp [leBytes_length]) only [List.append_assoc, leNat_left, leNat_right, leBytes_length, Nat.sub_self, leNat_leBytes, Nat.reduceSub, pow_one]
  case some => simp [leBytes_length]

/-- The pause of `d`, at the headland or slot end where it stands, for the CTX_SAVE `c` (R87, R365). -/
theorem ctxPauseOn_here {s : State} {c d : Cmd} (hd : s.alone d) (hsaver : s.saverOf d = some c) (hl : s.live) (hsav : d.savable = true)
    (hb : d.work.begun = true) (hp : d.work.pauseAsked = true) : ctxPauseOn s d.ring d.seq 0 = some (c, d) := by
  simp [ctxPauseOn, hd.cmd, hl.1, hl.2, hsav, hb, hp, hsaver]

theorem saverOf_eq {s : State} {c d : Cmd} (ho : s.ordersOk) (hc : c ∈ s.cmds) (hop : c.op = opCtxSave) (hs : c.stage = .hold 0)
    (hr : pkTgtRing c.run = d.ring) (hq : pkTgtSeq c.run = d.seq)
    (hall : ∀ e ∈ s.cmds, e.op = opCtxSave → e.stage = .hold 0 → pkTgtRing e.run = d.ring → pkTgtSeq e.run = d.seq → e.order = c.order) :
    s.saverOf d = some c := by
  unfold State.saverOf
  cases hf : s.cmds.find? _ with
  | none => exact absurd (List.find?_eq_none.1 hf c hc) (by simp [hop, hs, hr, hq])
  | some e =>
    have hp := List.find?_some hf
    have hm := List.mem_of_find?_eq_some hf
    simp only [Bool.and_eq_true, beq_iff_eq] at hp
    obtain ⟨⟨⟨h1, h2⟩, h3⟩, h4⟩ := hp
    rw [ordersOk_inj ho hc hm (hall e hm h1 h2 h3 h4)]

theorem State.alone.setCmd_self {s : State} {c : Cmd} (h : s.alone c) : s.setCmd c = s := by
  have hmap : (s.cmds.map fun d => if d.order = c.order then c else d) = s.cmds := by
    refine (List.map_congr_left fun d hd => ?_).trans (List.map_id _)
    split
    · exact (h.order d hd ‹_›).symm
    · rfl
  show { s with cmds := s.cmds.map fun d => if d.order = c.order then c else d } = s
  rw [hmap]

/-- A target that was asked to pause already gives its image, and the CTX_SAVE waits for it to be written (R365). -/
theorem saveImage_solo {s : State} {c d : Cmd} (hd : s.alone d) (hs : s.solo) (hp : d.work.pauseAsked = true) :
    s.saveImage c d = { (s.formImage d c.work.fill.base).1.holdPart c 1 with
      queue := s.queue ++ [writeRange .ctxWrite c 0 (pkCtxAddr c.run) (s.imageOf (s.savedForm d) c.work.fill.base)] } := by
  have hself : s.modCmd d.ring d.seq (fun d => { d with work := { d.work with pauseAsked := true } }) = s := by
    rw [hd.modCmd, ← hp]
    exact hd.setCmd_self
  unfold State.saveImage
  dsimp only
  rw [hself, output_solo (show ((s.formImage d c.work.fill.base).1.holdPart c 1).solo from hs)]
  exact if_neg (imageOf_front s (s.savedForm d) c.work.fill.base).some

/-- `t` is `u` with the image `b` on its way to memory for the CTX_SAVE `c`, which waits for it (R365). -/
structure ImageSaved (u t : State) (c : Cmd) (b : List Byte) : Prop where
  base : SameBase u t
  frame : t = { u with cmds := t.cmds, images := t.images, queue := u.queue ++ [writeRange .ctxWrite c 0 (pkCtxAddr c.run) b] }
  held : t.holds c.order fun x => x.stage = .hold 1
  kept : ∃ e ∈ t.images, e.bytes = b

theorem saveImage_saved {s : State} {c d : Cmd} (hc : c ∈ s.cmds) (hd : s.alone d) (hs : s.solo) (hp : d.work.pauseAsked = true) :
    ImageSaved s (s.saveImage c d) c (s.imageOf (s.savedForm d) c.work.fill.base) := by
  rw [saveImage_solo hd hs hp]
  exact ⟨⟨rfl, rfl, rfl⟩, rfl, setCmd_own (c := { c with stage := .hold 1, entered := c.entered }) ⟨c, hc, rfl⟩ rfl, ⟨_, List.mem_cons_self, rfl⟩⟩

theorem exec_ctxPauseReached {now : Time} {s : State} {c d : Cmd} {ring : Fin 64} {seq : U32} (hd : (s.tick now).alone d) (hr : d.ring = ring.val)
    (hq : d.seq = seq) (hon : ctxPauseOn (s.tick now) d.ring d.seq 0 = some (c, d)) :
    exec (.ctxPauseReached ring seq 0 now) s = .next (s.keep ((s.tick now).saveImage c d)) := by
  show Host.Outcome.next (s.keep (match ctxPauseOn (s.tick now) ring.val seq 0 with
    | some (c, d) => ctxPauseDo c d 0 (s.tick now)
    | none => s.tick now)) = _
  rw [← hr, ← hq, hon]
  show Host.Outcome.next (s.keep (match (s.tick now).cmd d.ring d.seq with
    | some d => (s.tick now).saveImage c d
    | none => s.tick now)) = _
  rw [hd.cmd]

/-! ### The clauses together -/

/-- Settles O58: a commit asks for each strip-step's records as `stepRecord` forms them (`Recorded`, `commitAsked_solo`); written records
go through the strip-steps one after another (`closeAll`), each touching its strip, its tenant and counts alone; a segment leaves one
count and its events, and a pause the image. -/
theorem resultCommands : Obligations.ResultCommands := by
  refine ⟨?commit, ?written, ?debit, ?segment, ?pause⟩
  case commit =>
    intro ring seq times s c ho hn hring hseq hl hs hstage _ hsome hp hidx hlen hrise
    have ha : s.alone c := hn.alone ho
    have hlast := le_getLastD hrise
    have hon : stripCommitOn s ring.val seq times = some (c, times) := by
      rw [← hring, ← hseq]
      exact stripCommitOn_eq ha hl hs hstage hsome (fun p h => (hp p h).1) hlen (timesRise_of_pairwise hrise)
    have hbegun := commitAsked_begun (c := c) hs hlast
    have hnum := commitSteps_numbered (w := s.commitTurn c times) hidx hlen
    have hlength : ((s.commitTurn c times).commitSteps c times).length = c.work.steps.length := commitSteps_length
    have hstep (i : Nat) (hi : i < c.work.steps.length) := commitSteps_getD (w := s.commitTurn c times) hi (hidx i hi) hlen
    have hbuild : (s.commitTurn c times).build = s.build := by
      obtain ⟨x, q, hturn⟩ := commitTurn_eq (c := c) hlast
      rw [hturn]
    generalize (s.commitTurn c times).commitSteps c times = ps at hbegun hnum hlength hstep
    have hown : (s.setCmd (c.askedWith ps)).holds c.order (· = c.askedWith ps) := setCmd_own (c := c.askedWith ps) ⟨c, hn.1, rfl⟩ rfl
    refine ⟨_, (s.commitTurn c times).commitAsked c times, (exec_stripCommit hon).trans ?_, rfl, hbegun.time, hbegun.frame, hbegun.tenant,
      holds_mono (holds_of_cmds hown hbegun.cmds) ?records⟩
    · rw [stripCommitDo_eq, hbegun.base.keep_settle]
    case records =>
      rintro d rfl
      refine ⟨hstage, rfl, hlength, ⟨fun hm => ?_, fun hm => ?_⟩, fun i hi => ?_⟩
      · rw [hbegun.queue, hbegun.streams, recordSegment_memory hm, recordWrites_memory hm hnum, hlength, List.append_nil]
        exact ⟨rfl, rfl⟩
      · rw [hbegun.queue, hbegun.streams, funext (recordWrites_stream hm ps), vrecWrites_numbered hnum, recordSegment_stream hm hnum, hlength]
        exact ⟨rfl, rfl⟩
      · have h := hstep i hi
        have hmem : c.work.steps.getD i default ∈ c.work.steps := by
          rw [List.getD_eq_getElem _ _ hi]
          exact List.getElem_mem hi
        exact ⟨h.asked, h.time, h.reason, h.emitted, h.committed, h.walk, h.late, h.flags, h.length,
          h.first.trans (Nat.mod_eq_of_lt (hp _ hmem).2), h.stamp, fun hr hw => h.record hr (hbuild.symm ▸ hw), h.vrec⟩
  case written =>
    intro ring seq now s c u ps good done home late emitted ho hn hring hseq hrun hhold hstage hsome hasked hwrites hsegs hdistinct
    have ha : u.alone c := hn.alone ho
    have hon : resultRecordsOn u ring.val seq = some c := by
      rw [← hring, ← hseq] at hwrites hsegs ⊢
      exact resultRecordsOn_eq ha hrun hhold hstage hsome hasked hwrites hsegs
    have hstill := recordsOver_still u c
    have hstrip (k : Nat) : (u.recordsOver c).strip k = (u.closeAll c ps).strip k := congrArg (fun t => tblGet stripReset t k) (still_strips hstill)
    obtain ⟨hverify, hother⟩ := closeAll_verified u c ps
    refine ⟨_, u.recordsOver c, exec_resultRecordsWritten hon, fun hdue => ?settled, recordsOver_cmd ha, fun p hp => ?own, fun k hk => ?rest, fun k => ?tenant,
      ?totals, ?served, ?epoch, fun h => ?verified, fun h => ?unverified⟩
    case settled =>
      have hsettle : s.keep (u.recordsOver c).settle.afterCommit = (u.recordsOver c).settle := by
        rw [afterCommit_none ((settle_flt_cpDue _).trans ((recordsOver_cpDue u c).trans hdue))]
        exact ((recordsOver_base u c).after (tick_base s now)).keep_settle
      rw [hsettle]
      exact ⟨rfl, settle_strips _, settle_totals _⟩
    case own => exact (hstrip _).trans ((closeAll_strip_own hdistinct hp).trans (congrArg (c.stripAfter p) (tick_strip s now _)))
    case rest => exact (hstrip k).trans ((closeAll_strip_other hk).trans (tick_strip s now k))
    case tenant =>
      refine (finish_tenant _ _ _ _ k).trans ((closeAll_tenant u c ps k).trans ?_)
      rw [tick_tenant]
      rfl
    case totals => exact (still_totals hstill).trans ((closeAll_totals u c ps).trans (by rw [tick_totals]; rfl))
    case served => exact (still_energy_served hstill).trans (by rw [closeAll_energy, tick_energy]; rfl)
    case epoch => exact (still_energy_epochServed hstill).trans (by rw [closeAll_energy, tick_energy]; rfl)
    case verified =>
      rw [still_win hstill]
      exact tick_win s now ▸ hverify h
    case unverified =>
      rw [still_win hstill]
      exact tick_win s now ▸ hother h
  case debit => exact fun t k r m => ⟨fun h hw => debit_current k r h hw, fun x h ht hx hw => debit_turned k r h ht hx hw⟩
  case segment =>
    intro now s g rest u n hrun h6 hq
    have hready : u.boot.ready = true := by
      simp only [State.running, Bool.and_eq_true] at hrun
      exact hrun.2
    have hsent := resSegmentDo_sent hready hq
    rw [exec_resSegmentSend hrun h6, (hsent.base.after (tick_base s now)).keep_settle]
    exact ⟨_, resSegmentDo u, rfl, rfl, hsent.perf, hsent.count, hsent.gone, fun c hc _ => hsent.own c hc⟩
  case pause =>
    intro ring seq now s c d u ho hc hd hring hseq hl hs hsav hbegun hpause _ hop hstage hr hq hall
    have hda := hd.alone ho
    have hon := ctxPauseOn_here hda (saverOf_eq ho hc.1 hop hstage hr hq hall) hl hsav hbegun hpause
    have hfront := imageOf_front u (u.savedForm d) c.work.fill.base
    have hsaved := saveImage_saved hc.1 hda hs hpause
    rw [exec_ctxPauseReached hda hring hseq hon, (hsaved.base.after (tick_base s now)).keep]
    exact ⟨_, _, rfl, hsaved.frame, hsaved.held, hfront.size, hfront.op.trans (by rw [savedForm_op]), hfront.check, hsaved.kept⟩

end Sys2Proof.Machine
end

section
/-! PROOF. The image of a strip that STRIP_GET writes is one that INSTALL reads (R58, R204, R279, R281, R282). -/

namespace Sys2Proof.Machine

/-! ### Parts of a little-endian field -/

theorem byteAt_toNat (b : List Byte) (o : Nat) : (byteAt b o).toNat = leNat b o 1 := rfl

/-- A field is its low part and its high part. -/
theorem leNat_parts (b : List Byte) (o m n : Nat) : leNat b o (m + n) = leNat b o m + 256 ^ m * leNat b (o + m) n := by
  induction m generalizing o with
  | zero => simp [leNat]
  | succ m ih =>
    rw [Nat.succ_add, leNat, ih, leNat, pow_succ', show o + 1 + m = o + (m + 1) by omega]
    ring

theorem pktBit_eq (b : List Byte) (o i : Nat) : pktBit b o i = decide (leNat b o 1 / 2 ^ i % 2 = 1) := by
  rw [pktBit, BitVec.getLsbD, byteAt_toNat, Nat.testBit_eq_decide_div_mod_eq]

/-- Bytes that form a field of value 0 are zero. -/
theorem zeroRange_of_leNat {b : List Byte} {o n : Nat} (h : leNat b o n = 0) : zeroRange b o n = true := by
  refine List.all_eq_true.2 fun i hi => beq_iff_eq.2 (BitVec.eq_of_toNat_eq ?_)
  have hsplit : leNat b o (i + (1 + (n - i - 1))) = 0 := by
    rwa [show i + (1 + (n - i - 1)) = n by have := List.mem_range.1 hi; omega]
  rw [leNat_parts, leNat_parts] at hsplit
  have hpow : 256 ^ i ≠ 0 := by positivity
  rw [byteAt_toNat]
  simp only [Nat.add_eq_zero_iff, mul_eq_zero, hpow, false_or] at hsplit
  exact hsplit.2.1

/-! ### Records formed of fields -/

/-- The bytes of the fields `l`, each given as (size, value), one after another. -/
def fieldBytes (l : List (Nat × Nat)) : List Byte := l.flatMap fun f => leBytes f.1 f.2

/-- Where field `i` of such a record begins. -/
def fieldOffset (l : List (Nat × Nat)) (i : Nat) : Nat := ((l.map Prod.fst).take i).sum

theorem fieldBytes_length (l : List (Nat × Nat)) : (fieldBytes l).length = (l.map Prod.fst).sum := by
  simp [fieldBytes, List.length_flatMap, leBytes_length]

/-- A field is read back as it was written, where its value fits. -/
theorem leNat_field {l : List (Nat × Nat)} {w v : Nat} (i : Nat) (z : List Byte) (hi : l[i]? = some (w, v)) (hv : v < 256 ^ w) :
    leNat (fieldBytes l ++ z) (fieldOffset l i) w = v := by
  obtain ⟨hlt, hget⟩ := List.getElem?_eq_some_iff.1 hi
  have hform : fieldBytes l ++ z = fieldBytes (l.take i) ++ (leBytes w v ++ (fieldBytes (l.drop (i + 1)) ++ z)) := by
    conv_lhs => rw [← List.take_append_drop i l, List.drop_eq_getElem_cons hlt, hget]
    simp [fieldBytes]
  rw [hform, fieldOffset, ← List.map_take, ← fieldBytes_length, leNat_right _ _ _ _ le_rfl, Nat.sub_self, leNat_left _ _ _ _ (by simp [leBytes_length]),
    leNat_leBytes, Nat.mod_eq_of_lt hv]

/-! ### The flags of a strip -/

/-- The top byte of SFLAGS (R279); the three others are reserved. -/
def stripFlagByte (t : Strip) : Nat :=
  128 * t.valid.toNat + 64 * t.dropLate.toNat + 32 * t.firstDone.toNat + 16 * t.params.penEn.toNat + 8 * t.params.ledgerUpd.toNat
    + t.params.hedgeMode % 8

theorem flagBit_eq_mul (b : Bool) (w : Nat) : flagBit b w = w * b.toNat := by cases b <;> simp [flagBit]

theorem stripFlags_eq (t : Strip) : stripFlags t = 2 ^ 24 * stripFlagByte t := by
  simp only [stripFlags, stripFlagByte, flagBit_eq_mul]
  omega

theorem stripFlags_lt (t : Strip) : stripFlags t < 2 ^ 32 := by
  have hvalid := t.valid.toNat_le
  have hdrop := t.dropLate.toNat_le
  have hfirst := t.firstDone.toNat_le
  have hpen := t.params.penEn.toNat_le
  have hupd := t.params.ledgerUpd.toNat_le
  rw [stripFlags_eq, stripFlagByte]
  omega

/-- What a record whose byte 3 is the flag byte of `t` tells of `t`. -/
structure FlagsOf (b : List Byte) (t : Strip) : Prop where
  drop : pktBit b 3 6 = t.dropLate
  first : pktBit b 3 5 = t.firstDone
  pen : pktBit b 3 4 = t.params.penEn
  upd : pktBit b 3 3 = t.params.ledgerUpd
  hedge : leNat b 3 1 % 8 = t.params.hedgeMode % 8

theorem decide_toNat_eq_one {b : Bool} {n : Nat} (h : n = b.toNat) : decide (n = 1) = b := by
  subst h
  cases b <;> rfl

theorem flagsOf_byte {b : List Byte} {t : Strip} (h : leNat b 3 1 = stripFlagByte t) : FlagsOf b t := by
  have hdrop := t.dropLate.toNat_le
  have hfirst := t.firstDone.toNat_le
  have hpen := t.params.penEn.toNat_le
  have hupd := t.params.ledgerUpd.toNat_le
  rw [stripFlagByte] at h
  constructor
  case hedge => omega
  all_goals
    rw [pktBit_eq]
    exact decide_toNat_eq_one (by omega)

/-! ### The image -/

/-- The fields of the record up to byte 132, from which on it is reserved (R279). -/
def stripFields (t : Strip) (a : U64) : List (Nat × Nat) :=
  let p := t.params
  [(4, stripFlags t), (1, t.tenant), (1, p.altCount), (2, p.topK), (8, p.seed.toNat), (4, p.sowTag.toNat), (4, p.pos.toNat),
    (4, t.amax.toNat), (4, p.invTemp.toNat), (4, p.minP.toNat), (4, p.topP.toNat), (4, p.repPos.toNat), (4, p.repNeg.toNat),
    (4, p.presPen.toNat), (4, p.freqPen.toNat), (2, p.biasCount), (2, t.ledger.length), (2, p.hedgeCount), (2, 0), (8, p.biasAddr),
    (8, p.hedgeAddr), (8, a.toNat), (8, t.hostTag.toNat), (8, t.ttft.toNat), (4, t.itl.toNat), (4, t.lateCount.toNat),
    (8, t.firstCommit.toNat), (8, t.lastCommit.toNat), (4, t.committed.toNat)]

/-- The sizes of those fields (R279). -/
def stripSizes : List Nat := [4, 1, 1, 2, 8, 4, 4, 4, 4, 4, 4, 4, 4, 4, 4, 2, 2, 2, 2, 8, 8, 8, 8, 8, 4, 4, 8, 8, 4]

theorem stripFields_sizes (t : Strip) (a : U64) : (stripFields t a).map Prod.fst = stripSizes := rfl

theorem stripFields_length (t : Strip) (a : U64) : (fieldBytes (stripFields t a)).length = 132 := by
  rw [fieldBytes_length, stripFields_sizes]
  decide

theorem stripImage_eq (t : Strip) (a : U64) : stripImage t a = fieldBytes (stripFields t a) ++ zeros 124 := by
  have h : stripImage t a = padTo 256 (fieldBytes (stripFields t a)) := by
    simp only [stripImage, fieldBytes, stripFields, List.flatMap_cons, List.flatMap_nil, List.append_nil, List.append_assoc]
    rfl
  rw [h, padTo_eq _ _ (by rw [stripFields_length]; omega), stripFields_length]

section
variable {t : Strip} {a : U64}

/-- Field `i` of the image stands at offset `o`. -/
theorem stripImage_field (i o : Nat) {w v : Nat} (ho : (stripSizes.take i).sum = o) (hi : (stripFields t a)[i]? = some (w, v))
    (hv : v < 256 ^ w) : leNat (stripImage t a) o w = v := by
  rw [← ho, ← stripFields_sizes t a, stripImage_eq]
  exact leNat_field i _ hi hv

theorem stripImage_word (i o : Nat) {v : U32} (ho : (stripSizes.take i).sum = o) (hi : (stripFields t a)[i]? = some (4, v.toNat)) :
    le32 (stripImage t a) o = v := by
  rw [le32, stripImage_field i o ho hi v.isLt, BitVec.ofNat_toNat, BitVec.setWidth_eq]

theorem stripImage_long (i o : Nat) {v : U64} (ho : (stripSizes.take i).sum = o) (hi : (stripFields t a)[i]? = some (8, v.toNat)) :
    le64 (stripImage t a) o = v := by
  rw [le64, stripImage_field i o ho hi v.isLt, BitVec.ofNat_toNat, BitVec.setWidth_eq]

end

/-- SFLAGS in the image: the reserved bytes and the flag byte. -/
theorem stripImage_flags (t : Strip) (a : U64) : leNat (stripImage t a) 0 3 = 0 ∧ leNat (stripImage t a) 3 1 = stripFlagByte t := by
  have hword : leNat (stripImage t a) 0 4 = stripFlags t := stripImage_field 0 0 (by decide) rfl (stripFlags_lt t)
  have hparts : leNat (stripImage t a) 0 4 = leNat (stripImage t a) 0 3 + 256 ^ 3 * leNat (stripImage t a) 3 1 := leNat_parts _ 0 3 1
  have hlow := leNat_lt (stripImage t a) 0 3
  rw [hword, stripFlags_eq] at hparts
  omega

/-- The reserved fields of the image are zero (R279). -/
theorem stripImage_reservedOk (t : Strip) (a : U64) : imageReservedOk (stripImage t a) = true := by
  have hmid : leNat (stripImage t a) 62 2 = 0 := stripImage_field 18 62 (by decide) rfl (by decide)
  have hend : leNat (stripImage t a) 132 124 = 0 := by
    rw [stripImage_eq, leNat_right _ _ _ _ (stripFields_length t a).le, leNat_zeros]
  simp only [imageReservedOk, zeroRange_of_leNat (stripImage_flags t a).1, zeroRange_of_leNat hmid, zeroRange_of_leNat hend, Bool.and_self]

/-- The fields of a strip fit in those of its record (R279). -/
structure Strip.Fits (t : Strip) : Prop where
  tenant : t.tenant < 256 ^ 1
  altCount : t.params.altCount < 256 ^ 1
  topK : t.params.topK < 256 ^ 2
  biasCount : t.params.biasCount < 256 ^ 2
  hedgeCount : t.params.hedgeCount < 256 ^ 2
  hedgeMode : t.params.hedgeMode < 8
  biasAddr : t.params.biasAddr < 256 ^ 8
  hedgeAddr : t.params.hedgeAddr < 256 ^ 8

/-- The parameters that the image tells, with the POS that it tells. -/
theorem parseParams_image {t : Strip} (a : U64) (h : t.Fits) : parseParams (stripImage t a) (le32 (stripImage t a) 20) = t.params := by
  have hflags := flagsOf_byte (stripImage_flags t a).2
  unfold parseParams
  rw [hflags.pen, hflags.upd, hflags.hedge, Nat.mod_eq_of_lt h.hedgeMode, stripImage_field 19 64 (by decide) rfl h.biasAddr,
    stripImage_field 15 56 (by decide) rfl h.biasCount,
    stripImage_word 11 40 (by decide) rfl, stripImage_word 12 44 (by decide) rfl, stripImage_word 13 48 (by decide) rfl,
    stripImage_word 14 52 (by decide) rfl, stripImage_field 20 72 (by decide) rfl h.hedgeAddr,
    stripImage_field 17 60 (by decide) rfl h.hedgeCount, stripImage_word 8 28 (by decide) rfl, stripImage_field 3 6 (by decide) rfl h.topK,
    stripImage_word 9 32 (by decide) rfl, stripImage_word 10 36 (by decide) rfl, stripImage_field 2 5 (by decide) rfl h.altCount,
    stripImage_long 4 8 (by decide) rfl, stripImage_word 5 16 (by decide) rfl, stripImage_word 6 20 (by decide) rfl]

/-- INSTALL of the image and the ledger of a strip makes the strip, with the image's LEDGER_ADDR (R281, R282). -/
theorem installStrip_image {t : Strip} (a : U64) (hvalid : t.valid = true) (h : t.Fits) :
    installStrip (stripImage t a) t.ledger = { t with ledgerAddr := a } := by
  have hflags := flagsOf_byte (stripImage_flags t a).2
  unfold installStrip setParams
  rw [parseParams_image a h, hflags.drop, hflags.first, ← hvalid, stripImage_field 1 4 (by decide) rfl h.tenant,
    stripImage_long 21 80 (by decide) rfl,
    stripImage_long 22 88 (by decide) rfl, stripImage_long 23 96 (by decide) rfl, stripImage_word 24 104 (by decide) rfl,
    stripImage_word 7 24 (by decide) rfl, stripImage_word 25 108 (by decide) rfl, stripImage_long 26 112 (by decide) rfl,
    stripImage_long 27 120 (by decide) rfl, stripImage_word 28 128 (by decide) rfl]

/-! ### The ledger -/

/-- A pair of a ledger as the word that holds it (R58). -/
def ledgerWord (p : Nat × Nat) : Nat × Nat := (4, p.1 + p.2 * 2 ^ 20)

theorem ledgerBytes_eq (l : Ledger) : ledgerBytes l = fieldBytes (l.map ledgerWord) := by
  rw [fieldBytes, List.flatMap_map]
  rfl

/-- Word `i` of a ledger's bytes holds pair `i` (R58). -/
theorem ledgerBytes_word {l : Ledger} {i : Nat} (h : i < l.length) (hp : l[i].1 < 2 ^ 20 ∧ l[i].2 < 2 ^ 12) :
    leNat (ledgerBytes l) (4 * i) 4 = l[i].1 + l[i].2 * 2 ^ 20 := by
  have hoff : fieldOffset (l.map ledgerWord) i = 4 * i := by
    have hsizes : (l.map ledgerWord).map Prod.fst = List.replicate l.length 4 := by
      rw [List.map_map]
      exact List.map_const'
    rw [fieldOffset, hsizes, List.take_replicate, Nat.min_eq_left h.le, List.sum_replicate, smul_eq_mul, Nat.mul_comm]
  rw [ledgerBytes_eq, ← hoff, ← List.append_nil (fieldBytes _)]
  exact leNat_field i [] (by simp [h, ledgerWord]) (by omega)

/-- A ledger whose tokens rise is read back as it was written (R58, R204). -/
theorem parseLedger_bytes {l : Ledger} (hrise : l.Pairwise fun p q => p.1 < q.1) (hp : ∀ p ∈ l, p.1 < 2 ^ 20 ∧ p.2 < 2 ^ 12) :
    parseLedger (ledgerBytes l) l.length = some l := by
  have hpairs : ((List.range l.length).map fun i => let w := leNat (ledgerBytes l) (4 * i) 4; (w % 2 ^ 20, w / 2 ^ 20)) = l := by
    refine List.ext_getElem (by simp) fun i h₁ h₂ => ?_
    have hi := hp l[i] (List.getElem_mem h₂)
    simp only [List.getElem_map, List.getElem_range, ledgerBytes_word h₂ hi]
    exact Prod.ext (by dsimp only; omega) (by dsimp only; omega)
  have hasc : ((List.range (l.length - 1)).all fun i => decide ((l.getD i default).1 < (l.getD (i + 1) default).1)) = true := by
    refine List.all_eq_true.2 fun i hi => decide_eq_true ?_
    have hlt : i + 1 < l.length := by have := List.mem_range.1 hi; omega
    rw [List.getD_eq_getElem _ _ (Nat.lt_of_succ_lt hlt), List.getD_eq_getElem _ _ hlt]
    exact List.pairwise_iff_getElem.1 hrise i (i + 1) _ hlt (Nat.lt_succ_self i)
  unfold parseLedger
  rw [hpairs]
  exact if_pos hasc

/-- Settles O45: each field of the record stands where INSTALL reads it (`installStrip_image`), and each word of the ledger holds its
pair (`parseLedger_bytes`). -/
theorem stripImageRoundTrip : Obligations.StripImageRoundTrip := by
  intro t a hvalid htenant halt htop hbias hcount hmode hbaddr hhaddr hlen hrise hp
  have hlength : leNat (stripImage t a) 58 2 = t.ledger.length := stripImage_field 16 58 (by decide) rfl hlen
  exact ⟨stripImage_length t a, stripImage_reservedOk t a, hlength, parseLedger_bytes hrise hp,
    installStrip_image a hvalid ⟨htenant, halt, htop, hbias, hcount, hmode, hbaddr, hhaddr⟩⟩

end Sys2Proof.Machine
end

section
/-! PROOF. A tenant's budget: ADJ, a new window length, and the turn of a window (R287, R289, R290). -/

namespace Sys2Proof.Machine

/-! ### Turns of a window -/

/-- REMAIN after one turn (R287). -/
def afterTurn (refill : Nat) (r : Int) : Int := refill + min r 0

/-- The closed form of many turns is the turn iterated: REFILL is not negative, so nothing of it is cut off between two turns. -/
theorem afterTurns_eq_iterate (k refill : Nat) (x : Int) : afterTurns k refill x = (afterTurn refill)^[k] x := by
  induction k with
  | zero => rfl
  | succ k ih =>
    rw [Function.iterate_succ_apply', ← ih]
    cases k with
    | zero => simp [afterTurns, afterTurn]
    | succ n =>
      have hrefill : (0 : Int) ≤ refill := Int.natCast_nonneg refill
      have hstep : ((n + 1 : Nat) : Int) * refill = n * refill + refill := by push_cast; ring
      simp only [afterTurns, afterTurn, Nat.succ_ne_zero, if_false, Nat.add_sub_cancel, hstep]
      generalize (n : Int) * refill = y
      omega

theorem afterTurns_one (refill : Nat) (x : Int) : afterTurns 1 refill x = refill + min x 0 := by
  rw [afterTurns_eq_iterate]; rfl

/-- The turn into a later window, counted once for each window entered since (R287). -/
theorem turnAt_later {t : Time} {x : Tenant} (hw : x.windowUs ≠ 0) (h : x.window < windowOf t x.windowUs) :
    turnAt t x = { x with
      remain := (afterTurn x.refill)^[windowOf t x.windowUs - x.window] x.remain, window := windowOf t x.windowUs
      past := if x.reserved = 0 then []
        else ⟨(x.window + 1) * (x.windowUs.toNat * 1000), x.remain, windowOf t x.windowUs - x.window, x.refill⟩ :: x.past } := by
  rw [← afterTurns_eq_iterate, turnAt]
  rw [if_neg hw, if_pos h]
  rfl

theorem writeWindow_zero (t : Time) (x : Tenant) : writeWindow t 0 x = { x with windowUs := 0 } := rfl

/-- A new length turns the window at once (R287). -/
theorem writeWindow_turns {v : U32} (hv : v ≠ 0) (t : Time) (x : Tenant) : writeWindow t v x = { x with
    windowUs := v, window := windowOf t v, remain := x.refill + min x.remain 0
    past := if x.reserved = 0 then [] else ⟨t.toNat, x.remain, 1, x.refill⟩ :: x.past } := by
  rw [← afterTurns_one, writeWindow]
  rw [if_neg hv]
  rfl

/-! ### The rows -/

theorem exec_tenAdj {s : State} (hs : s.serves) (n : Fin 256) (v : U32) :
    exec (.tenAdj n v) s = .next (s.keep { s.modTenant n.val (writeAdj v) with apb := apbDone }) :=
  congrArg Host.Outcome.next (regWrite_row hs _)

theorem exec_tenWindowWrite {s : State} (hs : s.serves) (n : Fin 256) (v : U32) (now : Time) :
    exec (.tenWindowWrite n v now) s = .next (s.keep { (s.tick now).modTenant n.val (writeWindow (s.tick now).timeNs v) with apb := apbDone }) :=
  congrArg Host.Outcome.next ((tick_keep s _ now).symm.trans ((regWrite_row (tick_serves hs now) _).trans (tick_keep s _ now)))

theorem exec_tenantWindowTurn {s : State} (hs : s.live) (n : Fin 256) (now : Time) :
    exec (.tenantWindowTurn n now) s = .next (s.keep ((s.tick now).modTenant n.val (turnAt (s.tick now).timeNs))) := by
  obtain ⟨hrun, hhalt⟩ := hs
  refine congrArg (fun x => Host.Outcome.next (s.keep x)) (if_pos ?_)
  simp [hrun, hhalt]

/-- What a row that changes one tenant at the tick leaves, answered or not. -/
theorem keep_modTenant (s : State) (now : Time) (n : Nat) (f : Tenant → Tenant) (a : Apb) :
    (let t := s.keep { (s.tick now).modTenant n f with apb := a }
     t = { s.tick now with tenants := t.tenants, apb := a } ∧ (∀ j, j ≠ n → t.tenant j = s.tenant j) ∧ t.tenant n = f (s.tenant n)) := by
  rw [← tick_keep s _ now]
  refine ⟨rfl, fun j hj => ?_, ?_⟩
  · exact (modTenant_tenant_ne (s.tick now) f hj).trans (tick_tenant s now j)
  · exact (modTenant_tenant_same (s.tick now) n f).trans (congrArg f (tick_tenant s now n))

/-- Settles O29: each row changes its own tenant alone (`keep_modTenant`), by ADJ, by a new length (`writeWindow_turns`) or by the
turns that have come (`turnAt_later`). -/
theorem tenantRegisters : Obligations.TenantRegisters := by
  refine ⟨?adj, ?window, ?turn⟩
  case adj =>
    intro n v s hs
    exact ⟨_, exec_tenAdj hs n v, rfl, fun j hj => modTenant_tenant_ne s _ hj, modTenant_tenant_same s n.val _⟩
  case window =>
    intro n v now s hs
    obtain ⟨hframe, hother, hown⟩ := keep_modTenant s now n.val (writeWindow (s.tick now).timeNs v) apbDone
    refine ⟨_, exec_tenWindowWrite hs n v now, hframe, hother, fun hv => ?_, fun hv => ?_⟩
    · rw [hown, hv, writeWindow_zero]
    · rw [hown, writeWindow_turns hv]
      rfl
  case turn =>
    intro n now s hs
    obtain ⟨hframe, hother, hown⟩ := keep_modTenant s now n.val (turnAt (s.tick now).timeNs) (s.tick now).apb
    refine ⟨_, exec_tenantWindowTurn hs n now, hframe, hother, fun hw hk => ?_, fun h => ?_⟩
    · exact hown.trans (turnAt_later hw hk)
    · exact hown.trans (turnAt_current h)

end Sys2Proof.Machine
end

section
/-! PROOF. STRIP_SET and STRIP_GET at the end of their holds (R210, R281 to R283, R331, R357). -/

namespace Sys2Proof.Machine

/-! ### Ends and holds under a row's frame -/

theorem stripEnded.kept {s t : State} {now : Time} {c : Cmd} {r : Reason} {f : Strip → Strip} (h : stripEnded (s.tick now) t c r f) :
    stripEnded (s.tick now) (s.keep t) c r f := by
  rw [h.keep]
  exact h

theorem holdGoesOn.kept {s t : State} {now : Time} {c : Cmd} {k : Nat} {l : List Range} (h : holdGoesOn (s.tick now) t c k l) :
    holdGoesOn (s.tick now) (s.keep t) c k l := by
  rw [h.keep]
  exact h

/-- A strip that does not exist ends the hold, under the row's frame too. -/
theorem stripDone_bad_kept {s : State} {now : Time} {c : Cmd} (hc : c ∈ (s.tick now).cmds) (hn : stripCount (s.tick now).build ≤ pkStrip c.run) :
    ctlEnded (s.tick now) (s.keep ((s.tick now).stripDone c .badStrip)) c .badStrip [(32, 2, pkStrip c.run)] := by
  have he := stripDone_bad .badStrip ⟨c, hc, rfl⟩ hn
  rw [he.keep (now := now) ⟨rfl, rfl, rfl⟩]
  exact he

/-- The hold begins or goes on with a read of memory. -/
theorem readAsked_goes {u : State} {c : Cmd} (hc : c ∈ u.cmds) (hd : c.disp = none) (k : Nat) (tr : Traffic) (i a : Nat) {n : Nat} (hn : n ≠ 0) :
    holdGoesOn u ((u.holdPart c k).askRead tr c.ring c.seq i a n) c k [readRange tr c i a n] :=
  hold_goes hc hd (readAsked k tr i a n hn)

/-! ### STRIP_SET -/

/-- The row that a STRIP_SET with MODE `m` takes; one whose MODE does not exist is refused by that of INSTALL (R281, R357). -/
def stripSetRow (m : Nat) (ring : Fin 64) (now : Time) : Instr :=
  if m = 1 then .stripSetParams ring now else if m = 2 then .stripSetRelease ring now else .stripSetInstall ring now

theorem stripSetDo_params {u : State} {c : Cmd} (h : pkStripMode c.run = 1) : stripSetDo u c = stripParamsDo u c := by
  simp only [stripSetDo, h]

theorem stripSetDo_release {u : State} {c : Cmd} (h : pkStripMode c.run = 2) : stripSetDo u c = stripReleaseDo u c := by
  simp only [stripSetDo, h]

theorem stripSetDo_install {u : State} {c : Cmd} (h₁ : pkStripMode c.run ≠ 1) (h₂ : pkStripMode c.run ≠ 2) :
    stripSetDo u c = stripInstallDo u c := by
  unfold stripSetDo
  split
  · contradiction
  · contradiction
  · rfl

theorem exec_stripSet_front {ring : Fin 64} {now : Time} {s : State} {c : Cmd} (h : (s.tick now).ctlFront ring.val opStripSet = some c) :
    exec (stripSetRow (pkStripMode c.run) ring now) s = .next (s.keep (stripSetDo (s.tick now) c)) := by
  have row (ok : Nat → Bool) (f : State → Cmd → State) (hm : ok (pkStripMode c.run) = true) :
      (Host.Outcome.next (s.keep (s.onStripSet ring.val now ok f)) : Out) = .next (s.keep (f (s.tick now) c)) := by
    rw [State.onStripSet, onCtl_front h, if_pos hm]
  unfold stripSetRow
  split
  · rename_i hm
    rw [stripSetDo_params hm]
    exact row (· == 1) stripParamsDo (by simp [hm])
  · split
    · rename_i _ hm
      rw [stripSetDo_release hm]
      exact row (· == 2) stripReleaseDo (by simp [hm])
    · rename_i h₁ h₂
      rw [stripSetDo_install h₁ h₂]
      exact row (fun m => m != 1 && m != 2) stripInstallDo (by simp [h₁, h₂])

theorem stripSetDo_missing {u : State} {c : Cmd} (h : stripCount u.build ≤ pkStrip c.run) : stripSetDo u c = u.stripDone c .badStrip := by
  unfold stripSetDo
  split
  · exact if_pos h
  · exact if_pos h
  · exact if_pos h

section
variable {u : State} {c : Cmd} (hn : pkStrip c.run < stripCount u.build)
include hn

theorem stripSetDo_badMode (hm : 2 < pkStripMode c.run) : stripSetDo u c = u.stripDone c .badMode := by
  rw [stripSetDo_install (by omega) (by omega), stripInstallDo, if_neg (Nat.not_le.2 hn), if_pos (by omega)]

theorem stripSetDo_releases (hm : pkStripMode c.run = 2) :
    stripSetDo u c = (u.modStrip (pkStrip c.run) fun x => { x with valid := false }).stripDone c .ok := by
  rw [stripSetDo_release hm]
  exact if_neg (Nat.not_le.2 hn)

theorem stripSetDo_empty (hm : pkStripMode c.run = 1) (hv : (u.strip (pkStrip c.run)).valid = false) :
    stripSetDo u c = u.stripDone c .stripEmpty := by
  simp only [stripSetDo_params hm, stripParamsDo, if_neg (Nat.not_le.2 hn), hv, Bool.not_false, if_true]

/-- INSTALL, and PARAMS of a strip that exists: the image is read first. -/
theorem stripSetDo_asks (hm : pkStripMode c.run = 0 ∨ pkStripMode c.run = 1 ∧ (u.strip (pkStrip c.run)).valid = true) (hs : c.stage = .waiting) :
    stripSetDo u c = (u.holdPart c 0).askRead .stripRead c.ring c.seq 0 (pkImageAddr c.run) 256 := by
  rcases hm with hm | ⟨hm, hv⟩
  · rw [stripSetDo_install (by omega) (by omega)]
    simp only [stripInstallDo, if_neg (Nat.not_le.2 hn), if_neg (not_not.2 hm), hs]
  · rw [stripSetDo_params hm]
    simp only [stripParamsDo, if_neg (Nat.not_le.2 hn), hv, Bool.not_true, Bool.false_eq_true, if_false, hs]

theorem stripSetDo_waits (hm : pkStripMode c.run = 0 ∨ pkStripMode c.run = 1 ∧ (u.strip (pkStrip c.run)).valid = true) {k : Nat}
    (hs : c.stage = .hold k) (ho : u.open c.ring c.seq .stripRead = true) : stripSetDo u c = u := by
  rcases hm with hm | ⟨hm, hv⟩
  · rw [stripSetDo_install (by omega) (by omega)]
    simp only [stripInstallDo, if_neg (Nat.not_le.2 hn), if_neg (not_not.2 hm), hs, ho, if_true]
  · rw [stripSetDo_params hm]
    simp only [stripParamsDo, if_neg (Nat.not_le.2 hn), hv, Bool.not_true, Bool.false_eq_true, if_false, hs, ho, if_true]

section
variable {k : Nat} (hs : c.stage = .hold k) (ho : u.open c.ring c.seq .stripRead = false)
include hs ho

theorem stripSetDo_setsParams (hm : pkStripMode c.run = 1) (hv : (u.strip (pkStrip c.run)).valid = true) :
    stripSetDo u c = (u.modStrip (pkStrip c.run) (setParams (u.bytes (pkImageAddr c.run) 256))).stripDone c .ok := by
  rw [stripSetDo_params hm]
  simp only [stripParamsDo, if_neg (Nat.not_le.2 hn), hv, Bool.not_true, Bool.false_eq_true, if_false, hs, ho]

/-- INSTALL checks the image once it has been read, and then its ledger. -/
theorem stripSetDo_installs (hm : pkStripMode c.run = 0) : stripSetDo u c = if k = 0 then installImage u c else installLedger u c := by
  rw [stripSetDo_install (by omega) (by omega)]
  simp only [stripInstallDo, if_neg (Nat.not_le.2 hn), if_neg (not_not.2 hm), hs, ho, Bool.false_eq_true, if_false]

end
end

/-! ### The image and the ledger of an INSTALL -/

section
variable {u : State} {c : Cmd} {img : List Byte} (himg : img = u.bytes (pkImageAddr c.run) 256)
include himg

theorem installImage_reserved (h : imageReservedOk img = false) : installImage u c = u.stripDone c .badStripRecord := by
  subst himg
  exact if_pos (by rw [h]; rfl)

section
variable (h : imageReservedOk img = true)
include h

/-- An image that names no ledger makes the strip at once (R281). -/
theorem installImage_alone (hlen : leNat img 58 2 = 0) :
    installImage u c = (u.modStrip (pkStrip c.run) fun _ => installStrip img []).stripDone c .ok := by
  subst himg
  simp only [installImage, h, Bool.not_true, Bool.false_eq_true, if_false, hlen, if_true]

theorem installImage_badLedger (hlen : leNat img 58 2 ≠ 0) (ha : leNat img 80 8 % 4 ≠ 0 ∨ 2048 < leNat img 58 2) :
    installImage u c = u.stripDone c .badLedger := by
  subst himg
  simp only [installImage, h, Bool.not_true, Bool.false_eq_true, if_false, if_neg hlen, if_pos (show _ ∨ leNat _ 58 2 > 2048 from ha)]

/-- Any other image has its ledger read next (R210). -/
theorem installImage_asks (hlen : leNat img 58 2 ≠ 0) (ha : leNat img 80 8 % 4 = 0) (hmax : leNat img 58 2 ≤ 2048) :
    installImage u c = (u.holdPart c 1).askRead .stripRead c.ring c.seq 1 (leNat img 80 8) (4 * leNat img 58 2) := by
  subst himg
  have hok : ¬ (leNat (u.bytes (pkImageAddr c.run) 256) 80 8 % 4 ≠ 0 ∨ leNat (u.bytes (pkImageAddr c.run) 256) 58 2 > 2048) := by omega
  simp only [installImage, h, Bool.not_true, Bool.false_eq_true, if_false, if_neg hlen, if_neg hok]

end

theorem installLedger_parsed {l : Ledger} (h : parseLedger (u.bytes (leNat img 80 8) (4 * leNat img 58 2)) (leNat img 58 2) = some l) :
    installLedger u c = (u.modStrip (pkStrip c.run) fun _ => installStrip img l).stripDone c .ok := by
  subst himg
  simp only [installLedger, h]

theorem installLedger_refused (h : parseLedger (u.bytes (leNat img 80 8) (4 * leNat img 58 2)) (leNat img 58 2) = none) :
    installLedger u c = u.stripDone c .badLedger := by
  subst himg
  simp only [installLedger, h]

end

/-! ### STRIP_GET -/

theorem exec_stripGet_front {ring : Fin 64} {now : Time} {s : State} {c : Cmd} (h : (s.tick now).ctlFront ring.val opStripGet = some c) :
    exec (.stripGet ring now) s = .next (s.keep (stripGetDo (s.tick now) c)) := by
  rw [← onCtl_front (f := stripGetDo) h]; rfl

theorem stripGetDo_missing {u : State} {c : Cmd} (h : stripCount u.build ≤ pkStrip c.run) : stripGetDo u c = u.stripDone c .badStrip := if_pos h

/-- The bytes of a ledger are none where it has no pair. -/
theorem ledgerBytes_length_eq_zero {l : Ledger} : (ledgerBytes l).length = 0 ↔ l = [] := by
  cases l with
  | nil => simp [ledgerBytes]
  | cons p l => simp [ledgerBytes, leBytes]

/-- The ranges of a STRIP_GET: the image with the packet's LEDGER_ADDR and, where it has a pair, the ledger (R282). -/
def stripGetRanges (c : Cmd) (x : Strip) : List Range :=
  writeRange .stripWrite c 0 (pkImageAddr c.run) (stripImage x (le64 c.run 48)) ::
    if x.ledger = [] then [] else [writeRange .stripWrite c 1 (pkLedgerAddr c.run) (ledgerBytes x.ledger)]

section
variable {u : State} {c : Cmd} (hn : pkStrip c.run < stripCount u.build)
include hn

theorem stripGetDo_empty (hv : (u.strip (pkStrip c.run)).valid = false) : stripGetDo u c = u.stripDone c .stripEmpty := by
  simp only [stripGetDo, if_neg (Nat.not_le.2 hn), hv, Bool.not_false, if_true]

section
variable (hv : (u.strip (pkStrip c.run)).valid = true)
include hv

theorem stripGetDo_asks (hs : c.stage = .waiting) (hsolo : u.solo) :
    stripGetDo u c = { u.holdPart c 0 with queue := u.queue ++ stripGetRanges c (u.strip (pkStrip c.run)) } := by
  have hstrip : (u.holdPart c 0).strip (pkStrip c.run) = u.strip (pkStrip c.run) := rfl
  have himage : (stripImage (u.strip (pkStrip c.run)) (le64 c.run 48)).length ≠ 0 := by rw [stripImage_length]; decide
  have hfirst : (u.holdPart c 0).solo := hsolo
  have hsecond (q : List Range) : ({ u.holdPart c 0 with queue := q } : State).solo := hsolo
  simp only [stripGetDo, if_neg (Nat.not_le.2 hn), hv, Bool.not_true, Bool.false_eq_true, if_false, hs, hstrip, output_solo hfirst,
    if_neg himage, output_solo (hsecond _), ledgerBytes_length_eq_zero]
  unfold stripGetRanges
  split
  · rfl
  · rw [List.append_assoc]; rfl

theorem stripGetDo_waits {k : Nat} (hs : c.stage = .hold k) (ho : u.writesOpen c.ring c.seq = true) : stripGetDo u c = u := by
  simp only [stripGetDo, if_neg (Nat.not_le.2 hn), hv, Bool.not_true, Bool.false_eq_true, if_false, hs, ho, if_true]

/-- Once both writes are answered the strip is released if asked (R282). -/
theorem stripGetDo_ended {k : Nat} (hs : c.stage = .hold k) (ho : u.writesOpen c.ring c.seq = false) (hc : c ∈ u.cmds) :
    stripEnded u (stripGetDo u c) c .ok fun y => { y with valid := y.valid && !pktBit c.run 34 0 } := by
  simp only [stripGetDo, if_neg (Nat.not_le.2 hn), hv, Bool.not_true, Bool.false_eq_true, if_false, hs, ho]
  cases pktBit c.run 34 0
  · simp only [Bool.false_eq_true, if_false, Bool.not_false, Bool.and_true]
    exact stripDone_same rfl .ok ⟨c, hc, rfl⟩ hn
  · simp only [if_true, Bool.not_true, Bool.and_false]
    exact stripDone_ended rfl _ .ok ⟨c, hc, rfl⟩ hn

end
end

/-- Settles O44: of STRIP_SET each mode's checks in their order, the reads that its hold asks for and the strip that it leaves; of
STRIP_GET its writes and its release. -/
theorem stripCommands : Obligations.StripCommands := by
  refine ⟨fun ring now s c hfront => ?set, fun ring now s c hfront => ?get⟩
  case set =>
    obtain ⟨hmem, -, -, hdisp, -⟩ := ctlFront_parts hfront
    have hc : ∃ d ∈ (s.tick now).cmds, d.order = c.order := ⟨c, hmem, rfl⟩
    refine ⟨_, exec_stripSet_front hfront, fun hn => ?_, fun hn => ?_⟩
    · rw [stripSetDo_missing hn]; exact stripDone_bad_kept hmem hn
    refine ⟨fun hm => ?_, fun hm => ?_, fun hm hv => ?_, fun hm hs => ?_, fun hm k hs ho => ?_, fun k hs ho => ?_⟩
    · rw [stripSetDo_badMode hn hm]; exact (stripDone_same rfl .badMode hc hn).kept
    · rw [stripSetDo_releases hn hm]; exact (stripDone_ended rfl _ .ok hc hn).kept
    · rw [stripSetDo_empty hn hm hv]; exact (stripDone_same rfl .stripEmpty hc hn).kept
    · rw [stripSetDo_asks hn hm hs]; exact (readAsked_goes hmem hdisp 0 .stripRead 0 _ (by decide)).kept
    · rw [stripSetDo_waits hn hm hs ho]; exact keep_tick s now
    refine ⟨fun hm hv => ?_, fun hm hk hr => ?_, fun hm hk hr hl => ?_, fun hm hk hr hl ha => ?_, fun hm hk hr hl ha hmax => ?_,
      fun hm hk l hp => ?_, fun hm hk hp => ?_⟩
    · rw [stripSetDo_setsParams hn hs ho hm hv]; exact (stripDone_ended rfl _ .ok hc hn).kept
    · rw [stripSetDo_installs hn hs ho hm, if_pos hk, installImage_reserved rfl hr]; exact (stripDone_same rfl .badStripRecord hc hn).kept
    · rw [stripSetDo_installs hn hs ho hm, if_pos hk, installImage_alone rfl hr hl]; exact (stripDone_ended rfl _ .ok hc hn).kept
    · rw [stripSetDo_installs hn hs ho hm, if_pos hk, installImage_badLedger rfl hr hl ha]; exact (stripDone_same rfl .badLedger hc hn).kept
    · rw [stripSetDo_installs hn hs ho hm, if_pos hk, installImage_asks rfl hr hl ha hmax]
      exact (readAsked_goes hmem hdisp 1 .stripRead 1 _ (by omega)).kept
    · rw [stripSetDo_installs hn hs ho hm, if_neg hk, installLedger_parsed rfl hp]; exact (stripDone_ended rfl _ .ok hc hn).kept
    · rw [stripSetDo_installs hn hs ho hm, if_neg hk, installLedger_refused rfl hp]; exact (stripDone_same rfl .badLedger hc hn).kept
  case get =>
    obtain ⟨hmem, -, -, hdisp, -⟩ := ctlFront_parts hfront
    refine ⟨_, exec_stripGet_front hfront, fun hn => ?_, fun hn => ⟨fun hv => ?_, fun hv hs hsolo => ?_, fun hv k hs ho => ?_,
      fun hv k hs ho => ?_⟩⟩
    · rw [stripGetDo_missing hn]; exact stripDone_bad_kept hmem hn
    · rw [stripGetDo_empty hn hv]; exact (stripDone_same rfl .stripEmpty ⟨c, hmem, rfl⟩ hn).kept
    · exact (hold_goes (l := stripGetRanges c ((s.tick now).strip (pkStrip c.run))) hmem hdisp (stripGetDo_asks hn hv hs hsolo)).kept
    · rw [stripGetDo_waits hn hv hs ho]; exact keep_tick s now
    · exact (stripGetDo_ended hn hv hs ho hmem).kept

end Sys2Proof.Machine
end

section
/-! PROOF. The ring lottery: its source, its tickets and seeds, and a draw (R328 to R335, R384). -/

namespace Sys2Proof.Machine

/-! ### The shift register (R328) -/

theorem lotStep_ne_zero {l : U32} (h : l ≠ 0) : lotStep l ≠ 0 := by
  intro hz
  unfold lotStep at hz
  split at hz
  · -- The taps set bit 31, which the shift has cleared.
    have hbit := congrArg (BitVec.getLsbD · 31) hz
    simp at hbit
  · rename_i heven
    apply h
    ext i hi
    cases i with
    | zero => simpa using heven
    | succ i =>
      have hbit := congrArg (BitVec.getLsbD · i) hz
      simp only [BitVec.getLsbD_ushiftRight] at hbit
      simpa [BitVec.getElem_eq_testBit_toNat, BitVec.getLsbD, Nat.add_comm] using hbit

/-- Settles O17, by induction on the cycles. -/
theorem lotterySourceNeverZero : Obligations.LotterySourceNeverZero := by
  intro n
  induction n with
  | zero => exact fun _ h => h
  | succ n ih => exact fun l h => ih (lotStep l) (lotStep_ne_zero h)

/-! ### Tickets and seeds (R333, R335, R384) -/

/-- The commit of one ticket word (R333). -/
def Tickets.committed (k : Tickets) : Tickets := { k with live := k.shadow }

theorem tblGet_unlisted {α : Type} (d : α) (t : Tbl α) {m : Nat} (h : m ∉ t.map Prod.fst) : tblGet d t m = d := by
  induction t with
  | nil => rfl
  | cons e t ih =>
    simp only [List.map_cons, List.mem_cons, not_or] at h
    simp only [tblGet, if_neg (Ne.symm h.1), ih h.2]

theorem commits_get (l : Tbl Tickets) (t : Tbl Tickets) (m : Nat) :
    tblGet ticketsReset (l.foldl (fun t e => tblModify ticketsReset t e.1 Tickets.committed) t) m =
      if m ∈ l.map Prod.fst then (tblGet ticketsReset t m).committed else tblGet ticketsReset t m := by
  induction l generalizing t with
  | nil => rfl
  | cons e l ih =>
    rw [List.foldl_cons, ih]
    by_cases h : m = e.1
    · subst h
      simp [Tickets.committed]
    · simp only [List.map_cons, List.mem_cons, h, false_or, tblGet_modify_ne _ _ _ h]

/-- A commit copies every shadow; a word that is not listed holds the reset element, whose words agree. -/
theorem commitTickets_get (t : Tbl Tickets) (m : Nat) :
    tblGet ticketsReset (commitTickets t) m = (tblGet ticketsReset t m).committed := by
  refine (commits_get t t m).trans ?_
  split
  · rfl
  · rename_i h
    rw [tblGet_unlisted _ _ h]
    rfl

/-- The row of a register write that leaves queue, build and memory, in a block that serves. -/
theorem keep_regWrite {s : State} (h : s.serves) (f : State → State) : s.keep (s.regWrite f) = s.keep { f s with apb := apbDone } := by
  rw [regWrite_serves h]
  rfl

/-- Settles O12: each row touches the ticket table and PENDING. -/
theorem ringTickets : Obligations.RingTickets := by
  refine ⟨fun n v s hs => ⟨_, congrArg Host.Outcome.next (keep_regWrite hs _), rfl, ?_, fun m hm => tblGet_modify_ne _ _ _ hm⟩,
    fun s hs => ⟨_, congrArg Host.Outcome.next (keep_regWrite hs _), rfl, commitTickets_get s.arb.tickets⟩⟩
  exact ⟨tblGet_modify_same _ _ _ _, rfl⟩

theorem seedPorts_port (s : State) (v : U32) : ∃ p, s.seedPorts v = { s with ports := p } ∧
    (∀ k < 24, tblGet portReset p k = { s.port k with lot := portLot v k }) ∧ ∀ k ≥ 24, tblGet portReset p k = s.port k := by
  have key (n : Nat) : ∃ p, (List.range n).foldl (fun s k => s.modPort k fun p => { p with lot := portLot v k }) s = { s with ports := p } ∧
      (∀ k < n, tblGet portReset p k = { s.port k with lot := portLot v k }) ∧ ∀ k ≥ n, tblGet portReset p k = s.port k := by
    induction n with
    | zero => exact ⟨s.ports, rfl, fun k h => absurd h (Nat.not_lt_zero k), fun k _ => rfl⟩
    | succ n ih =>
      obtain ⟨p, hp, hin, hout⟩ := ih
      rw [List.range_succ, List.foldl_append, hp]
      refine ⟨_, rfl, fun k hk => ?_, fun k hk => (tblGet_modify_ne _ _ _ (by omega)).trans (hout k (by omega))⟩
      rcases Nat.lt_succ_iff_lt_or_eq.1 hk with h | rfl
      · exact (tblGet_modify_ne _ _ _ (by omega)).trans (hin k h)
      · exact (tblGet_modify_same _ _ _ _).trans (by rw [hout k le_rfl])
  exact key 24

/-- Settles O14: ARB_RING_SEED loads L, ARB_MVR_SEED every port's. -/
theorem lotterySeeds : Obligations.LotterySeeds := by
  refine ⟨fun v s hs => congrArg Host.Outcome.next (keep_regWrite hs _), fun v s hs => ?_⟩
  obtain ⟨p, hp, hin, hout⟩ := seedPorts_port { s with marb := { s.marb with seed := v } } v
  refine ⟨_, congrArg Host.Outcome.next (keep_regWrite hs _), ?_, fun k hk => ?_, fun k hk => ?_⟩
  · simp only [arbMvrSeedDo, hp]
    rfl
  · simp only [arbMvrSeedDo, hp]
    exact hin k hk
  · simp only [arbMvrSeedDo, hp]
    exact hout k hk

/-! ### A draw (R329, R330, R332) -/

/-- Ring `r` takes part in a draw: it requests, and where its next packet does not lie wholly before TAIL its LEN is known (R307). -/
def State.asks (s : State) (short : BitVec 64) (r : Nat) : Prop :=
  s.requests r = true ∧ ¬ (short.getLsbD r = true ∧ (s.ring r).needSlots = 0)

theorem ringRequesters_rings (s : State) (short : BitVec 64) : (s.ringRequesters short).map Prod.fst =
    (List.range 64).filter fun r => s.requests r && !(short.getLsbD r && (s.ring r).needSlots == 0) := by
  rw [State.ringRequesters, List.map_map]
  exact List.map_id _

theorem mem_ringRequesters {s : State} {short : BitVec 64} {r : Nat} : r ∈ (s.ringRequesters short).map Prod.fst ↔ r < 64 ∧ s.asks short r := by
  simp [ringRequesters_rings, State.asks, Decidable.imp_iff_not_or]

theorem ringRequesters_pairwise (s : State) (short : BitVec 64) : (s.ringRequesters short).Pairwise fun a b => a.1 < b.1 := by
  have h : ((s.ringRequesters short).map Prod.fst).Pairwise (· < ·) := by
    rw [ringRequesters_rings]
    exact List.pairwise_lt_range.filter _
  exact List.pairwise_map.1 h

/-- LOSSES of a requester after a draw that ring `w` wins (R329). -/
def Tickets.drawn (w r : Nat) (k : Tickets) : Tickets := { k with losses := if r = w then 0 else k.losses + 1 }

/-- The tickets after a draw that ring `w` wins. -/
def State.drawnTickets (s : State) (short : BitVec 64) (w : Nat) : Tbl Tickets :=
  (s.ringRequesters short).foldl (fun t e => tblModify ticketsReset t e.1 (Tickets.drawn w e.1)) s.arb.tickets

theorem drawnTickets_get (s : State) (short : BitVec 64) (w r : Nat) : tblGet ticketsReset (s.drawnTickets short w) r =
    if r ∈ (s.ringRequesters short).map Prod.fst then (tblGet ticketsReset s.arb.tickets r).drawn w r
    else tblGet ticketsReset s.arb.tickets r :=
  foldl_modify ticketsReset _ (Tickets.drawn w) (ringRequesters_pairwise s short) _ r

/-- The requesters that the draw starves (R332). -/
def State.drawnStarved (s : State) (short : BitVec 64) (w : Nat) : List (Nat × Nat) :=
  (s.ringRequesters short).filter fun e => e.1 != w && s.arb.starveDraws != 0
    && decide ((tblGet ticketsReset (s.drawnTickets short w) e.1).losses ≥ s.arb.starveDraws.toNat)

theorem mem_drawnStarved {s : State} {short : BitVec 64} {w r : Nat} : r ∈ (s.drawnStarved short w).map Prod.fst ↔
    r < 64 ∧ s.asks short r ∧ r ≠ w ∧ s.arb.starveDraws ≠ 0 ∧ (tblGet ticketsReset s.arb.tickets r).losses + 1 ≥ s.arb.starveDraws.toNat := by
  have hfst : r ∈ (s.drawnStarved short w).map Prod.fst ↔ r ∈ (s.ringRequesters short).map Prod.fst ∧
      (r ≠ w ∧ s.arb.starveDraws ≠ 0) ∧ (tblGet ticketsReset (s.drawnTickets short w) r).losses ≥ s.arb.starveDraws.toNat := by
    simp only [State.drawnStarved, List.mem_map, List.mem_filter, Bool.and_eq_true, bne_iff_ne, decide_eq_true_eq]
    constructor
    · rintro ⟨e, ⟨he, hc⟩, rfl⟩
      exact ⟨⟨e, he, rfl⟩, hc⟩
    · rintro ⟨⟨e, he, rfl⟩, hc⟩
      exact ⟨e, ⟨he, hc⟩, rfl⟩
  rw [hfst, mem_ringRequesters]
  constructor
  · rintro ⟨hr, ⟨hw, hd⟩, hl⟩
    rw [drawnTickets_get, if_pos (mem_ringRequesters.2 hr)] at hl
    simp only [Tickets.drawn, if_neg hw] at hl
    exact ⟨hr.1, hr.2, hw, hd, hl⟩
  · rintro ⟨h64, ha, hw, hd, hl⟩
    refine ⟨⟨h64, ha⟩, ⟨hw, hd⟩, ?_⟩
    rw [drawnTickets_get, if_pos (mem_ringRequesters.2 ⟨h64, ha⟩)]
    simpa only [Tickets.drawn, if_neg hw] using hl

/-- The block after a draw with shift-register value `l` that ring `w` wins. -/
def State.drawn (s : State) (short : BitVec 64) (l : U32) (w : Nat) : State :=
  let starved := s.drawnStarved short w
  { s with
    arb := { s.arb with
      l := l, tickets := s.drawnTickets short w, grant := some (w, 0)
      starve := starved.foldl (fun b e => b ||| BitVec.ofNat 64 (2 ^ e.1)) s.arb.starve }
    flt := { s.flt with pend := if starved.isEmpty then s.flt.pend else s.flt.pend ||| 32#10 } }

theorem drawRing_eq {s : State} {short : BitVec 64} {l : U32} {w : Nat} (h : lotDraw l (s.ringRequesters short) = some w) :
    s.drawRing short l = s.drawn short l w := by
  simp only [State.drawRing, h]
  show (if (s.drawnStarved short w).isEmpty then _ else _ : State) = _
  unfold State.drawn
  dsimp only
  split <;> rfl

/-- What RING_DRAW answers where a draw is held: the winner is the one that `lotDraw` names. -/
theorem exec_ringDraw {n : Nat} {short : BitVec 64} {s : State} (h : ringDrawOn s short = true) :
    ∃ w, lotDraw (lotAdvance n s.arb.l) (s.ringRequesters short) = some w ∧
      exec (.ringDraw n short) s = .next (s.drawn short (lotAdvance n s.arb.l) w) ∧ s.ringRequesters short ≠ [] := by
  have hne : s.ringRequesters short ≠ [] := by
    unfold ringDrawOn at h
    simp only [Bool.and_eq_true, Bool.not_eq_true', List.isEmpty_eq_false_iff] at h
    exact h.2
  obtain ⟨w, hw, -⟩ := lotDraw_spec _ (ringRequesters_pairwise s short) (lotAdvance n s.arb.l) hne
  refine ⟨w, hw, ?_, hne⟩
  simp only [exec, execRingDraw, h, if_true, drawRing_eq hw]
  rfl

/-- Settles O15: the winner by `lotDraw_spec`, the losses by the fold over the requesters. -/
theorem ringDrawGrants : Obligations.RingDrawGrants := by
  intro n short s hon asks rs sigma l x
  have hmem (r : Nat) : r ∈ rs.map Prod.fst ↔ r < 64 ∧ asks r := mem_ringRequesters
  obtain ⟨w, hw, hexec, hne⟩ := exec_ringDraw (n := n) hon
  obtain ⟨w', hw', hwm, hzero, hinterval⟩ := lotDraw_spec rs (ringRequesters_pairwise s short) l hne
  obtain rfl : w = w' := Option.some.inj (hw.symm.trans hw')
  obtain ⟨hw64, hwa⟩ := (hmem w).1 hwm
  refine ⟨hmem, w, _, hexec, hwa, hw64, rfl, rfl, fun h0 r hr ha => ?_, hinterval, fun r hr => ?_, rfl⟩
  · exact hzero h0 r hr ((hmem r).2 ⟨by omega, ha⟩)
  · have hget := drawnTickets_get s short w r
    refine ⟨fun h => ?_, fun h ha => ?_, fun h ha => ?_⟩
    · subst h
      exact (hget.trans (if_pos hwm)).trans (by rw [Tickets.drawn, if_pos rfl])
    · exact (hget.trans (if_pos ((hmem r).2 ⟨hr, ha⟩))).trans (by rw [Tickets.drawn, if_neg h])
    · exact hget.trans (if_neg fun hc => ha ((hmem r).1 hc).2)

/-- Settles O16: the bits and the interrupt come from one list of starved requesters. -/
theorem starvedRingsRaise : Obligations.StarvedRingsRaise := by
  intro n short s t hon ht starved
  obtain ⟨w, -, hexec, -⟩ := exec_ringDraw (n := n) hon
  obtain rfl : s.drawn short (lotAdvance n s.arb.l) w = t := Host.Outcome.next.inj (hexec.symm.trans ht)
  have hmem (r : Nat) : r ∈ (s.drawnStarved short w).map Prod.fst ↔ r < 64 ∧ starved r := by
    have hgrant : r ≠ w ↔ (s.drawn short (lotAdvance n s.arb.l) w).arb.grant ≠ some (r, 0) := by
      show r ≠ w ↔ some (w, 0) ≠ some (r, 0)
      simp [eq_comm]
    rw [mem_drawnStarved, hgrant]
    exact ⟨fun ⟨h, ⟨ha, hs⟩, hr⟩ => ⟨h, ha, hs, hr⟩, fun ⟨h, ha, hs, hr⟩ => ⟨h, ⟨ha, hs⟩, hr⟩⟩
  refine ⟨fun r hr => ?_, fun ⟨r, hr, hs⟩ => ?_, fun hn => ?_⟩
  · refine (orFold _ _ r hr).trans (congrArg _ (decide_eq_decide.2 ?_))
    rw [hmem]
    exact and_iff_right hr
  · refine if_neg fun he => ?_
    have := (hmem r).2 ⟨hr, hs⟩
    rw [List.isEmpty_iff.1 he] at this
    exact absurd this List.not_mem_nil
  · refine if_pos (List.isEmpty_iff.2 ?_)
    cases hl : s.drawnStarved short w with
    | nil => rfl
    | cons e l =>
      have : e.1 ∈ (s.drawnStarved short w).map Prod.fst := by rw [hl]; exact List.mem_cons_self
      exact absurd ⟨e.1, (hmem e.1).1 this⟩ hn

end Sys2Proof.Machine
end


section
/-! PROOF. Every row answers a next state, and what it leaves (R314, R373, R385, R387; log 4, log 5). -/

namespace Sys2Proof.Machine

/-- A row answers a next state with the queue and the build of `s`, and with its memory where it brings none. -/
def Answers (s : State) (brings : Bool) (o : Out) : Prop :=
  ∃ t, o = .next t ∧ t.pending = s.pending ∧ t.build = s.build ∧ (brings = false → t.mem = s.mem)

theorem keep_answers (b : Bool) (s t : State) : Answers s b (.next (s.keep t)) := ⟨_, rfl, rfl, rfl, fun _ => rfl⟩

theorem keepMem_answers (s : State) (m : List Host.Cell) (t : State) : Answers s true (.next (s.keepMem m t)) :=
  ⟨_, rfl, rfl, rfl, fun h => nomatch h⟩

section
variable (s : State)

theorem readResponse_answers (k : Fin 24) (tag : BitVec 10) (beat : BitVec 3) (last : Bool) (code : RspCode) (data : List Byte) (now : Time) :
    Answers s true (execReadResponse k tag beat last code data now s) := by
  unfold execReadResponse
  extract_lets t
  split
  · exact keep_answers _ _ _
  · split
    · exact keep_answers _ _ _
    · split
      · exact keep_answers _ _ _
      · exact keepMem_answers _ _ _

theorem writeResponse_answers (k : Fin 24) (tag : BitVec 10) (beat : BitVec 3) (last : Bool) (code : RspCode) (now : Time) :
    Answers s true (execWriteResponse k tag beat last code now s) := by
  unfold execWriteResponse
  extract_lets t
  split
  · exact keep_answers _ _ _
  · split
    · exact keep_answers _ _ _
    · split
      · exact keep_answers _ _ _
      · exact keepMem_answers _ _ _

theorem prtProbeResponse_answers (code : RspCode) (data : U64) (now : Time) : Answers s true (execPrtProbeResponse code data now s) := by
  unfold execPrtProbeResponse
  extract_lets t
  split
  · exact keep_answers _ _ _
  · exact keepMem_answers _ _ _

theorem wrapperInstructionUpdate_answers (ins : WrapperIns) : Answers s (ins != .bypass) (execWrapperInstructionUpdate ins s) := by
  unfold execWrapperInstructionUpdate
  split
  · exact keep_answers _ _ _
  · rename_i h
    rw [bne_iff_ne.2 h]
    exact keepMem_answers _ _ _

theorem ijtagSelfTestInstrument_answers (ev : TapEvent) : Answers s (ev == .run) (execIjtagSelfTestInstrument ev s) := by
  unfold execIjtagSelfTestInstrument
  split
  case h_1 => exact keep_answers _ _ _
  case h_2 => exact keep_answers _ _ _
  case h_3 =>
    split
    · exact keepMem_answers _ _ _
    · exact keep_answers _ _ _

end

/-- Settles O2: five rows bring memory or take the block out of operation; every other one ends in `State.keep`. -/
theorem everyCommandAnswers : Obligations.EveryCommandAnswers := by
  intro c s
  change Answers s (bringsMemory c) (exec c s)
  cases c
  case readResponse => exact readResponse_answers s _ _ _ _ _ _ _
  case writeResponse => exact writeResponse_answers s _ _ _ _ _ _
  case prtProbeResponse => exact prtProbeResponse_answers s _ _ _
  case wrapperInstructionUpdate ins => exact wrapperInstructionUpdate_answers s ins
  case ijtagSelfTestInstrument ev => exact ijtagSelfTestInstrument_answers s ev
  all_goals exact keep_answers _ _ _

end Sys2Proof.Machine
end


section
/-! PROOF. The registers of rings and gates (R306 to R311, R321 to R325, R330, R334). -/

namespace Sys2Proof.Machine

/-! ### What the grant and the packet in the fetch become -/

/-- The grant that is left once a ring that stopped requesting has given it up (R330). -/
def State.heldGrant (s : State) : Option (Nat × Nat) :=
  match s.arb.grant with
  | some e => if s.arb.fetching = 0 ∧ s.keepsGrant e.1 = false then none else some e
  | none => none

theorem dropGrant_eq (s : State) : s.dropGrant = { s with arb := { s.arb with grant := s.heldGrant } } := by
  have hself (g : Option (Nat × Nat)) (h : s.arb.grant = g) : s = { s with arb := { s.arb with grant := g } } := by rw [← h]
  unfold State.dropGrant State.heldGrant
  cases hg : s.arb.grant with
  | none => exact hself none hg
  | some e =>
    dsimp only
    by_cases h : s.arb.fetching = 0 ∧ s.keepsGrant e.1 = false
    · rw [if_pos h, if_pos (by simp [h])]
    · rw [if_neg h, if_neg (by simpa using h)]
      exact hself _ hg

/-- During a fetch the grant stays (R330). -/
theorem heldGrant_fetching {s : State} (h : s.arb.fetching ≠ 0) : s.heldGrant = s.arb.grant := by
  unfold State.heldGrant
  cases s.arb.grant with
  | none => rfl
  | some e => exact if_neg fun hc => h hc.1

theorem fetchingRing_of_counted {s : State} {r : Nat} (h : s.fetchCounted r = true) : s.fetchingRing r = true := by
  unfold State.fetchCounted at h
  unfold State.fetchingRing
  simp only [Bool.and_eq_true, Bool.or_eq_true, beq_iff_eq] at h
  rw [Bool.and_eq_true, bne_iff_ne]
  refine ⟨fun h0 => ?_, h.1⟩
  rcases h.2 with h2 | h1
  · omega
  · omega

/-- The block without the packet in the fetch of ring `r` (log 74). -/
def State.fetchDropped (s : State) (r : Nat) : State :=
  { s with
    arb := { s.arb with fetching := 0, beats := 0, grant := none }
    queue := s.queue.filter fun g => !(g.ring == r && g.seq == s.arb.fetchSeq) || g.kind == .cpl
    energy := { s.energy with bgEvents := evAdd s.energy.bgEvents 11 s.arb.beats } }

theorem cancelFetch_dropped {s : State} {r : Nat} (hf : s.fetchingRing r = true) (hc : s.fetchCounted r = false) :
    s.cancelFetch r = s.fetchDropped r := if_pos (by simp [hf, hc])

theorem cancelFetch_none {s : State} {r : Nat} (h : s.fetchingRing r = false ∨ s.fetchCounted r = true) : s.cancelFetch r = s :=
  if_neg (by rcases h with h | h <;> simp [h])

/-- The reads that fetch slots `i` to `n - 1` of the packet whose first slot has count `q` (R307). -/
def slotRanges (g : Ring) (r : Nat) (q : U32) (i n : Nat) : List Range :=
  let c := (q.toNat + i) % 2 ^ g.log2Slots
  let k := min (n - i) (2 ^ g.log2Slots - c)
  [⟨0, false, addrWrap (slotAddr g c), 64 * k, [], r, q, .fetch, 0, 0⟩,
    ⟨0, false, addrWrap (slotAddr g 0), 64 * (n - i - k), [], r, q, .fetch, 0, 0⟩].filter fun x => x.len != 0

theorem askSlots_eq (s : State) (r : Nat) (q : U32) (i n : Nat) :
    s.askSlots r q i n = { s with queue := s.queue ++ slotRanges (s.ring r) r q i n } := by
  unfold State.askSlots slotRanges
  extract_lets g c k u
  simp only [u, State.askRead, ask_filter, List.append_assoc, ← List.filter_append]
  rfl

/-- HEAD is about to move under a packet that counts as fetched (R306, R312). -/
theorem moveHead_counted {s : State} {r : Nat} (h : s.fetchCounted r = true) : s.moveHead r = { s with
    arb := { s.arb with fetching := 2, moved := true }
    queue := if s.arb.fetching = 1 then (s.askSlots r s.arb.fetchSeq 1 (s.fetchLen r)).queue else s.queue } := by
  unfold State.moveHead
  rw [if_pos h]
  dsimp only
  split
  · rw [askSlots_eq, askSlots_eq]; rfl
  · rfl

theorem moveHead_uncounted {s : State} {r : Nat} (h : s.fetchCounted r = false) : s.moveHead r = s.cancelFetch r :=
  if_neg (by simp [h])

/-! ### Writes of a ring's registers -/

/-- Settles O8. -/
theorem ringRestarts : Obligations.RingRestarts :=
  fun r s hs => ⟨_, congrArg Host.Outcome.next (keep_regWrite hs _), rfl, fun _ hk => modRing_ring_ne s _ hk, modRing_ring_same s r.val _⟩

/-- A write that changes ring `r` by `f` and nothing else but the grant. -/
def State.ringWritten (s : State) (r : Nat) (f : Ring → Ring) : State :=
  { (s.modRing r f).dropGrant with apb := apbDone }

section
variable (s : State) (r : Nat) (f : Ring → Ring)

theorem ringWritten_eq : s.ringWritten r f = { s with
    rings := tblModify ringReset s.rings r f, arb := { s.arb with grant := (s.modRing r f).heldGrant }, apb := apbDone } := by
  rw [State.ringWritten, dropGrant_eq]
  rfl

theorem ringWritten_ring : (s.ringWritten r f).ring r = f (s.ring r) := by
  rw [ringWritten_eq]
  exact modRing_ring_same s r f

theorem ringWritten_other {k : Nat} (h : k ≠ r) : (s.ringWritten r f).ring k = s.ring k := by
  rw [ringWritten_eq]
  exact modRing_ring_ne s f h

theorem ringWritten_grantGoesOn : grantGoesOn s (s.ringWritten r f) := by
  rw [ringWritten_eq]
  rfl

end

theorem doorbellRing_idle {g : Ring} (h : g.en = false) (v : U32) : doorbellRing v g = { g with head := v, tail := v, needSlots := 0 } :=
  if_pos (by simp [h])

theorem doorbellRing_over {g : Ring} {v : U32} (h : g.en = true) (hover : (v.toNat + 2 ^ 32 - g.head.toNat) % 2 ^ 32 > 2 ^ g.log2Slots) :
    doorbellRing v g = { g with tail := v, stopped := true, cause := 1 } := by
  rw [← sub32] at hover
  exact (if_neg (by simp [h])).trans (if_pos hover)

theorem doorbellRing_fits {g : Ring} {v : U32} (h : g.en = true) (hfits : (v.toNat + 2 ^ 32 - g.head.toNat) % 2 ^ 32 ≤ 2 ^ g.log2Slots) :
    doorbellRing v g = { g with tail := v } := by
  rw [← sub32] at hfits
  exact (if_neg (by simp [h])).trans (if_neg (Nat.not_lt.2 hfits))

/-- What a doorbell on ring `r` makes of the block before the ring takes it (R306). -/
def State.beforeBell (s : State) (r : Nat) : State := if (s.ring r).en then s else s.moveHead r

theorem exec_doorbell {s : State} (hs : s.serves) (r : Fin 64) (v : U32) :
    exec (.doorbell r v) s = .next (s.keep ((s.beforeBell r.val).ringWritten r.val (doorbellRing v))) :=
  congrArg Host.Outcome.next (keep_regWrite hs _)

theorem beforeBell_same {s : State} {r : Nat} (h : (s.ring r).en = true ∨ s.fetchingRing r = false) : s.beforeBell r = s := by
  unfold State.beforeBell
  split
  · rfl
  · rename_i hen
    have hf := h.resolve_left hen
    have hc : s.fetchCounted r = false := Bool.eq_false_iff.2 fun hc => by simp [fetchingRing_of_counted hc] at hf
    rw [moveHead_uncounted hc, cancelFetch_none (.inl hf)]

theorem beforeBell_counted {s : State} {r : Nat} (h : (s.ring r).en = false) (hc : s.fetchCounted r = true) : s.beforeBell r = { s with
    arb := { s.arb with fetching := 2, moved := true }
    queue := if s.arb.fetching = 1 then (s.askSlots r s.arb.fetchSeq 1 (s.fetchLen r)).queue else s.queue } := by
  unfold State.beforeBell
  rw [if_neg (by simp [h]), moveHead_counted hc]

theorem beforeBell_dropped {s : State} {r : Nat} (h : (s.ring r).en = false) (hf : s.fetchingRing r = true) (hc : s.fetchCounted r = false) :
    s.beforeBell r = s.fetchDropped r := by
  unfold State.beforeBell
  rw [if_neg (by simp [h]), moveHead_uncounted hc, cancelFetch_dropped hf hc]

/-- What may move before the ring itself takes the doorbell. -/
theorem beforeBell_frame (s : State) (r : Nat) : ∃ a q e, s.beforeBell r = { s with arb := a, queue := q, energy := { s.energy with bgEvents := e } } := by
  by_cases h : (s.ring r).en = true ∨ s.fetchingRing r = false
  · rw [beforeBell_same h]
    exact ⟨_, _, _, rfl⟩
  · simp only [not_or, Bool.not_eq_true, Bool.not_eq_false] at h
    cases hc : s.fetchCounted r with
    | true => rw [beforeBell_counted h.1 hc]; exact ⟨_, _, s.energy.bgEvents, rfl⟩
    | false => rw [beforeBell_dropped h.1 h.2 hc]; exact ⟨_, _, _, rfl⟩

/-- Settles O7, by what the packet in the fetch is: another ring's or none, counted, or dropped. -/
theorem ringDoorbell : Obligations.RingDoorbell := by
  intro r v s hs
  obtain ⟨a, q, e, hbell⟩ := beforeBell_frame s r.val
  have hring : (s.keep ((s.beforeBell r.val).ringWritten r.val (doorbellRing v))).ring r.val = doorbellRing v (s.ring r.val) := by
    rw [keep_ring, ringWritten_ring, hbell]
    rfl
  refine ⟨_, exec_doorbell hs r v, ?_, fun k hk => ?_, fun hsame => ?_, fun hen hf => ⟨fun hc => ?_, fun hc => ?_⟩, fun hen => ?_,
    fun hen hover => ?_, fun hen hfits => ?_⟩
  · rw [ringWritten_eq, hbell]
    rfl
  · rw [keep_ring, ringWritten_other _ _ _ hk, hbell]
    rfl
  · rw [beforeBell_same hsame]
    refine ⟨?_, ringWritten_grantGoesOn s r.val _⟩
    rw [ringWritten_eq]
    rfl
  · rw [ringWritten_eq, beforeBell_counted hen hc, heldGrant_fetching two_ne_zero]
    exact ⟨rfl, rfl, rfl⟩
  · rw [ringWritten_eq, beforeBell_dropped hen hf hc]
    exact ⟨rfl, rfl⟩
  · rw [hring, doorbellRing_idle hen]
    exact ⟨rfl, by simp [ringAvail]⟩
  · refine ⟨hring.trans (doorbellRing_over hen hover), ?_⟩
    unfold State.requests State.wants
    rw [hring, doorbellRing_over hen hover]
    simp
  · exact hring.trans (doorbellRing_fits hen hfits)

/-! ### Configuration words -/

/-- Ring `r` may be configured anew: EN = 0 and INFLIGHT = 0, the packet being fetched counted (R308, R312). -/
def State.ringQuiet (s : State) (r : Nat) : Bool := !(s.ring r).en && s.inflightNow r == 0

theorem ringQuiet_iff {s : State} {r : Nat} : s.ringQuiet r = true ↔ (s.ring r).en = false ∧ s.inflightNow r = 0 := by
  simp [State.ringQuiet]

theorem ringQuiet_uncounted {s : State} {r : Nat} (h : s.ringQuiet r = true) : s.fetchCounted r = false := by
  obtain ⟨-, h0⟩ := ringQuiet_iff.1 h
  unfold State.inflightNow at h0
  cases hc : s.fetchCounted r with
  | false => rfl
  | true => simp [hc] at h0

/-- What a configuration write makes of the block before the ring takes it (log 74). -/
def State.beforeCfg (s : State) (r : Nat) : State := if s.ringQuiet r then s.cancelFetch r else s

theorem exec_ringCfgWrite {s : State} (hs : s.serves) (r : Fin 64) (reg : Fin 6) (v : U32) : exec (.ringCfgWrite r reg v) s =
    .next (s.keep ((s.beforeCfg r.val).ringWritten r.val (cfgRing (s.ringQuiet r.val) reg.val v))) :=
  congrArg Host.Outcome.next (keep_regWrite hs _)

theorem beforeCfg_same {s : State} {r : Nat} (h : s.ringQuiet r = false ∨ s.fetchingRing r = false) : s.beforeCfg r = s := by
  unfold State.beforeCfg
  split
  · rename_i hq
    exact cancelFetch_none (.inl (h.resolve_left (by simp [hq])))
  · rfl

theorem beforeCfg_dropped {s : State} {r : Nat} (h : s.ringQuiet r = true) (hf : s.fetchingRing r = true) : s.beforeCfg r = s.fetchDropped r := by
  unfold State.beforeCfg
  rw [if_pos h, cancelFetch_dropped hf (ringQuiet_uncounted h)]

theorem beforeCfg_frame (s : State) (r : Nat) : ∃ a q e, s.beforeCfg r = { s with arb := a, queue := q, energy := { s.energy with bgEvents := e } } := by
  by_cases h : s.ringQuiet r = false ∨ s.fetchingRing r = false
  · rw [beforeCfg_same h]
    exact ⟨_, _, _, rfl⟩
  · simp only [not_or, Bool.not_eq_false] at h
    rw [beforeCfg_dropped h.1 h.2]
    exact ⟨_, _, _, rfl⟩

theorem cfgRing_busy {reg : Nat} (h : reg ≠ 2) (v : U32) (g : Ring) : cfgRing false reg v g = { g with cfgIgnored := true } :=
  (if_neg h).trans (if_pos rfl)

/-- A write of CFG: EN, MAX_INFLIGHT and IRQ_LINE take effect at any time (R308). -/
theorem cfgRing_cfg (quiet : Bool) (v : U32) (g : Ring) : cfgRing quiet 2 v g = { g with
    en := v.getLsbD 31
    maxInflight := storeInflight (bitField v.toNat 20 16)
    irqLine := bitField v.toNat 10 8
    fetchFailed := g.fetchFailed && v.getLsbD 31
    log2Slots := if quiet then (if 6 ≤ v.toNat % 32 ∧ v.toNat % 32 ≤ 20 then v.toNat % 32 else 6) else g.log2Slots
    cfgIgnored := if quiet then g.cfgIgnored else g.cfgIgnored || decide (v.toNat % 32 ≠ g.log2Slots) } := by
  unfold cfgRing
  cases quiet with
  | true => simp
  | false =>
    by_cases h : v.toNat % 32 = g.log2Slots
    · simp [h]
    · simp [h]

/-- Settles O9: CFG at any time, every other word in a quiet ring only. -/
theorem ringConfiguration : Obligations.RingConfiguration := by
  intro r reg v s hs
  obtain ⟨a, q, e, hcfg⟩ := beforeCfg_frame s r.val
  have hring : (s.keep ((s.beforeCfg r.val).ringWritten r.val (cfgRing (s.ringQuiet r.val) reg.val v))).ring r.val =
      cfgRing (s.ringQuiet r.val) reg.val v (s.ring r.val) := by
    rw [keep_ring, ringWritten_ring, hcfg]
    rfl
  refine ⟨_, exec_ringCfgWrite hs r reg v, ?_, fun k hk => ?_, ?_⟩
  · rw [ringWritten_eq, hcfg]
    rfl
  · rw [keep_ring, ringWritten_other _ _ _ hk, hcfg]
    rfl
  intro g quiet
  have hquiet : s.ringQuiet r.val = true ↔ quiet := ringQuiet_iff
  have hbusy (h : ¬ quiet) : s.ringQuiet r.val = false := by rwa [← hquiet, Bool.not_eq_true] at h
  refine ⟨fun hq hf => ?_, fun hsame => ?_, fun hreg hq => ?_, fun hreg => ?_, fun hq => ?_⟩
  · rw [ringWritten_eq, beforeCfg_dropped (hquiet.2 hq) hf]
    exact ⟨rfl, rfl⟩
  · rw [beforeCfg_same (hsame.imp_left hbusy)]
    refine ⟨?_, ringWritten_grantGoesOn s r.val _⟩
    rw [ringWritten_eq]
    rfl
  · rw [hring, hbusy hq, cfgRing_busy hreg]
  · rw [hring, hreg, cfgRing_cfg]
    refine ⟨rfl, fun hq => ?_, fun hq => ?_⟩
    · rw [hquiet.2 hq]
      exact ⟨rfl, rfl⟩
    · rw [hbusy hq]
      exact ⟨rfl, rfl⟩
  · rw [hring, hquiet.2 hq]
    refine ⟨fun h => ?_, fun h => ?_, fun h => ?_, fun h => ?_, fun h => ?_⟩ <;> rw [h] <;> rfl

/-! ### CPL_HEAD and the gates -/

/-- Settles O10: beside HEAD, the record pump and the grant move. -/
theorem completionHead : Obligations.CompletionHead := by
  intro r v s hs
  have hsame := modRing_ring_same s r.val (cplHeadRing v)
  have hother (k : Nat) (h : k ≠ r.val) := modRing_ring_ne s (cplHeadRing v) h
  obtain ⟨rings, cmds, queue, hpump⟩ := pumpRing_frame (s.modRing r.val (cplHeadRing v)) r.val
  have hrow : exec (.cplHeadWrite r v) s = .next { (s.modRing r.val (cplHeadRing v)).pumpRing r.val with
      arb := { s.arb with grant := ((s.modRing r.val (cplHeadRing v)).pumpRing r.val).heldGrant }, apb := apbDone } := by
    refine (congrArg Host.Outcome.next (keep_regWrite hs _)).trans ?_
    simp only [cplHeadDo, dropGrant_eq, hpump]
    rfl
  refine ⟨_, hrow, rfl, ?_, ?_, fun k hk => (pumpRing_ring_ne _ _ _ hk).trans (hother k hk), ?_, fun hbusy => ?_⟩
  · rw [hpump]
    rfl
  · rw [hpump]
    rfl
  · show ((s.modRing r.val (cplHeadRing v)).pumpRing r.val).ring r.val = { s.ring r.val with
      cplHead := v, cplTail := if (s.ring r.val).en then (s.ring r.val).cplTail else v
      cplBusy := (((s.modRing r.val (cplHeadRing v)).pumpRing r.val).ring r.val).cplBusy }
    rcases pumpRing_ring_same (s.modRing r.val (cplHeadRing v)) r.val with h | h
    · rw [h, hsame]; rfl
    · rw [h, hsame]; rfl
  · have hbusy' : ((s.modRing r.val (cplHeadRing v)).ring r.val).cplBusy = true := by rw [hsame]; exact hbusy
    rw [pumpRing_busy _ _ hbusy']
    exact ⟨(congrArg Ring.cplBusy hsame).trans hbusy, rfl, rfl⟩

/-- A wait on the gate is released by the value that it is satisfied by (R321, R322). -/
theorem gateRelease_eq (g : Nat) (x : U32) (c : Cmd) : gateRelease g x c =
    if c.disp = none ∧ c.stage = .waiting ∧ c.gateOk = false ∧ pkWaitEn c.pkt = true ∧ pkWaitGate c.pkt = g ∧
        (x.toNat + 2 ^ 32 - (pkWaitValue c.pkt).toNat) % 2 ^ 32 < 2 ^ 31
    then { c with gateOk := true, valueSeen := x } else c := by
  unfold gateRelease gateSatisfied
  rw [sub32]
  refine if_congr ?_ rfl rfl
  simp only [Bool.and_eq_true, Option.isNone_iff_eq_none, beq_iff_eq, Bool.not_eq_true', decide_eq_true_eq, and_assoc]

theorem passOn_frame (s : State) : ∃ b o, s.passOn = { s with
    barrier := b, pins := { s.pins with barrierOut := o }, cmds := s.cmds.map (Cmd.marked s.nextOrder) } := by
  obtain ⟨b, o, h⟩ := joinBarrier_frame s
  refine ⟨b, o, ?_⟩
  unfold State.passOn State.markTurns
  rw [h]

/-- Settles O11: the gate adds, its waits are released, and what is released goes on. -/
theorem gateWriteAdds : Obligations.GateWriteAdds := by
  intro g v s hs
  obtain ⟨b, o, hpass⟩ := passOn_frame (s.gateAdd g.val v)
  have hrow : exec (.gateWrite g v) s = .next { s with
      gates := tblSet 0 s.gates g.val (s.gate g.val + v)
      cmds := (s.cmds.map (gateRelease g.val (s.gate g.val + v))).map (Cmd.marked s.nextOrder)
      barrier := b, pins := { s.pins with barrierOut := o }, apb := apbDone } := by
    refine (congrArg Host.Outcome.next (keep_regWrite hs _)).trans ?_
    simp only [gateWriteDo, hpass]
    rfl
  refine ⟨_, hrow, rfl, tblGet_set_same 0 _ _ _, fun k hk => tblGet_set_ne 0 _ _ hk, ?_⟩
  exact congrArg (List.map _) (List.map_congr_left fun c _ => gateRelease_eq g.val _ c)

end Sys2Proof.Machine
end


section
/-! PROOF. NOP, FENCE, GATE_WAIT and GATE_SIGNAL at their dispatch (R314, R361 to R363). -/

namespace Sys2Proof.Machine

section
variable {ring : Fin 64} {now : Time} {s : State} {c : Cmd}

/-- A control row answers what its action makes of the packet whose turn it is. -/
theorem exec_nop_front (h : (s.tick now).ctlFront ring.val opNop = some c) : exec (.nop ring now) s = .next (s.keep (nopDo (s.tick now) c)) :=
  congrArg (Host.Outcome.next <| s.keep ·) (onCtl_front h)

theorem exec_fence_front (h : (s.tick now).ctlFront ring.val opFence = some c) :
    exec (.fence ring now) s = .next (s.keep (fenceDo (s.tick now) c)) := congrArg (Host.Outcome.next <| s.keep ·) (onCtl_front h)

theorem exec_gateWait_front (h : (s.tick now).ctlFront ring.val opGateWait = some c) :
    exec (.gateWait ring now) s = .next (s.keep (gateWaitDo (s.tick now) c)) := congrArg (Host.Outcome.next <| s.keep ·) (onCtl_front h)

theorem exec_gateSignal_front (h : (s.tick now).ctlFront ring.val opGateSignal = some c) :
    exec (.gateSignal ring now) s = .next (s.keep (gateSignalDo (s.tick now) c)) := congrArg (Host.Outcome.next <| s.keep ·) (onCtl_front h)

/-- The end of a hold under its row's frame. -/
theorem ctlDone_kept (r : Reason) (b : Body) (hc : c ∈ (s.tick now).cmds) :
    ctlEnded (s.tick now) (s.keep ((s.tick now).ctlDone c r b)) c r b.fields := by
  obtain ⟨hkeep, hend⟩ := ctlRow (s := s) (now := now) (r := r) (b := b) rfl ⟨c, hc, rfl⟩ ⟨rfl, rfl, rfl⟩
  rw [hkeep]
  exact hend

end

theorem gateRelease_order (g : Nat) (v : U32) (c : Cmd) : (gateRelease g v c).order = c.order := by
  unfold gateRelease
  split <;> rfl

/-- The end of a GATE_SIGNAL that has added to its gate (R361). -/
theorem gateSignal_ended {s : State} {now : Time} {c : Cmd} (hc : c ∈ (s.tick now).cmds) (hs : pkSigEn c.pkt = true) :
    let u := s.tick now
    let t := s.keep (gateSignalDo u c)
    ctlEnded { u with gates := t.gates } t c .ok [(32, 4, (u.gate (pkSigGate c.pkt) + pkSigAdd c.pkt).toNat)] ∧
      (∀ j, j ≠ pkSigGate c.pkt → t.gate j = u.gate j) ∧ t.gate (pkSigGate c.pkt) = u.gate (pkSigGate c.pkt) + pkSigAdd c.pkt := by
  intro u t
  generalize hv : u.gateAdd (pkSigGate c.pkt) (pkSigAdd c.pkt) = v
  have hsame : v.gate (pkSigGate c.pkt) = u.gate (pkSigGate c.pkt) + pkSigAdd c.pkt := by
    rw [← hv]
    exact tblGet_set_same 0 _ _ _
  have hother (j : Nat) (hj : j ≠ pkSigGate c.pkt) : v.gate j = u.gate j := by
    rw [← hv]
    exact tblGet_set_ne 0 _ _ hj
  have hmem : ∃ d ∈ v.cmds, d.order = c.order := by
    rw [← hv]
    exact ⟨_, List.mem_map_of_mem hc, gateRelease_order _ _ c⟩
  obtain ⟨hkeep, hend⟩ := ctlRow (s := s) (v := v) (now := now) (r := .ok) (b := ⟨[(32, 4, (v.gate (pkSigGate c.pkt)).toNat)], false, false⟩)
    rfl hmem (by rw [← hv]; exact ⟨rfl, rfl, rfl⟩)
  have ht : t = v.ctlDone c .ok ⟨[(32, 4, (v.gate (pkSigGate c.pkt)).toNat)], false, false⟩ := by
    show s.keep (gateSignalDo u c) = _
    rw [gateSignalDo, if_pos hs, hv, hkeep]
  rw [← ht, hsame] at hend
  have hgates : t.gates = v.gates := (still_gates hend.2.1.1 :)
  have hgate (j : Nat) : t.gate j = v.gate j := congrArg (tblGet 0 · j) hgates
  refine ⟨hend.of_still ?_ ?_, fun j hj => (hgate j).trans (hother j hj), (hgate _).trans hsame⟩
  · rw [hgates, ← hv]
    exact ⟨rfl, fun _ => rfl, fun _ => rfl⟩
  · rw [← hv]
    rfl

/-- Settles O43. -/
theorem gateCommands : Obligations.GateCommands := by
  intro ring now s c u
  refine ⟨fun h => ?_, fun h => ?_, fun h => ?_, fun h => ?_⟩
  all_goals have hmem := (ctlFront_parts h).1
  case refine_1 => exact ⟨_, exec_nop_front h, ctlDone_kept .ok bodyZero hmem⟩
  case refine_2 =>
    refine ⟨_, exec_fence_front h, ?_⟩
    have hreason : (if leNat c.run 32 1 < 2 then Reason.ok else .badMode) = if leNat c.run 32 1 ≥ 2 then .badMode else .ok := by
      rw [← ite_not]
      simp only [not_lt, ge_iff_le]
    rw [hreason]
    exact ctlDone_kept _ bodyZero hmem
  case refine_3 =>
    refine ⟨_, exec_gateWait_front h, fun hw => ?_, fun hw => ?_⟩
    · rw [gateWaitDo, if_pos hw]
      exact ctlDone_kept .ok _ hmem
    · rw [gateWaitDo, if_neg (by simp [hw])]
      exact ctlDone_kept .badGateOp bodyZero hmem
  case refine_4 =>
    refine ⟨_, exec_gateSignal_front h, gateSignal_ended hmem, fun hs => ?_⟩
    rw [gateSignalDo, if_neg (by simp [hs])]
    exact ctlDone_kept .badGateOp bodyZero hmem

end Sys2Proof.Machine
end


section
/-! PROOF. ENERGY_SET at its dispatch (R314, R367, R412, R413, R423). -/

namespace Sys2Proof.Machine

/-! ### The values of the packet -/

/-- ALLOWANCE, RESERVE and the epoch length that an ENERGY_SET asks for, those in force where it carries none (R367). -/
def askedAllow (e : Energy) (p : List Byte) : Nat := if pktBit p 32 0 then leNat p 40 8 else e.allow
def askedReserve (e : Energy) (p : List Byte) : Nat := if pktBit p 32 1 then leNat p 48 8 else e.reserve
def askedEpoch (e : Energy) (p : List Byte) : Nat := if pktBit p 32 2 then leNat p 56 4 else e.epochUs

/-- The coefficients that it loads. -/
def loadedCoefs (p : List Byte) : Nat := if pktBit p 32 3 then leNat p 60 2 else 0

/-- Its values are in range (R367, R489). -/
def EnergyInRange (e : Energy) (p : List Byte) : Prop :=
  (pktBit p 32 1 = true → leNat p 48 8 ≤ askedAllow e p) ∧ (pktBit p 32 2 = true → 10 ≤ askedEpoch e p ∧ askedEpoch e p ≤ 1000000) ∧
    (pktBit p 32 3 = true → 1 ≤ leNat p 60 2 ∧ leNat p 60 2 ≤ 256)

theorem getD_flag {α : Type} (b : Bool) (x y : α) : (if b then some x else none).getD y = if b then x else y := by
  cases b <;> rfl

theorem energyFields_get (e : Energy) (p : List Byte) (l : List U32) : (energyFields p l).allow.getD e.allow = askedAllow e p ∧
    (energyFields p l).reserve.getD e.reserve = askedReserve e p ∧ (energyFields p l).epochUs.getD e.epochUs = askedEpoch e p :=
  ⟨getD_flag _ _ _, getD_flag _ _ _, getD_flag _ _ _⟩

theorem energyOk_iff (e : Energy) (p : List Byte) : energyOk e p = true ↔ EnergyInRange e p := by
  unfold energyOk EnergyInRange
  simp only [(energyFields_get e p []).1]
  unfold energyFields askedEpoch
  cases pktBit p 32 1 <;> cases pktBit p 32 2 <;> cases pktBit p 32 3 <;> simp [and_assoc]

/-! ### What takes effect at once -/

/-- The coefficients `l` loaded from 0 on. -/
def coefsWith (l : List U32) (t : Tbl U32) : Tbl U32 := (List.range l.length).foldl (fun t i => tblSet 0 t i (l.getD i 0)) t

theorem coefsWith_get (l : List U32) (t : Tbl U32) (i : Nat) :
    tblGet 0 (coefsWith l t) i = if i < l.length then l.getD i 0 else tblGet 0 t i := by
  have key (n : Nat) : tblGet 0 ((List.range n).foldl (fun t i => tblSet 0 t i (l.getD i 0)) t) i = if i < n then l.getD i 0 else tblGet 0 t i := by
    induction n with
    | zero => rfl
    | succ n ih =>
      rw [List.range_succ, List.foldl_append, List.foldl_cons, List.foldl_nil]
      by_cases h : i = n
      · subst h
        simp
      · rw [tblGet_set_ne 0 _ _ h, ih]
        exact if_congr (by omega) rfl rfl
  exact key l.length

/-- The ledger when an ENERGY_SET of the values `l` takes effect at once: a new epoch length turns the epoch, and what waits for
the next epoch goes on waiting (R367, R412; log 45). -/
def State.energyAtOnce (s : State) (p : List Byte) (l : List U32) : Energy :=
  let e := { s.energy with next := some (energyFields p l) }
  if pktBit p 32 2 then { turnEpoch s.timeNs e with next := s.energy.next } else { applyNext e with next := s.energy.next }

/-- What an ENERGY_SET of `p` at time `now` makes of the ledger `e`, in what ENERGY_SET is about. -/
structure EnergySet (e : Energy) (now : Time) (p : List Byte) (l : List U32) (x : Energy) : Prop where
  allow : x.allow = askedAllow e p
  reserve : x.reserve = askedReserve e p
  epochUs : x.epochUs = askedEpoch e p
  next : x.next = e.next
  planEn : x.planEn = e.planEn
  trim : x.trim = e.trim
  level : x.level = e.level
  served : x.served = e.served
  coefs : x.coefs = if pktBit p 32 3 then coefsWith l e.coefs else e.coefs
  same : pktBit p 32 2 = false → x.epoch = e.epoch ∧ x.deficit = e.deficit
  turned : pktBit p 32 2 = true → x.epoch = now.toNat / (askedEpoch e p * 1000) ∧ x.deficit = min e.remain 0

theorem applyNext_coefs (e : Energy) (p : List Byte) (l : List U32) :
    (applyNext { e with next := some (energyFields p l) }).coefs = if pktBit p 32 3 then coefsWith l e.coefs else e.coefs := by
  unfold applyNext energyFields
  cases pktBit p 32 3 <;> rfl

theorem energyAtOnce_set (s : State) (p : List Byte) (l : List U32) : EnergySet s.energy s.timeNs p l (s.energyAtOnce p l) := by
  obtain ⟨ha, hr, hu⟩ := energyFields_get s.energy p l
  unfold State.energyAtOnce
  extract_lets e
  cases h2 : pktBit p 32 2 with
  | false => exact ⟨ha, hr, hu, rfl, rfl, rfl, rfl, rfl, applyNext_coefs _ p l, fun _ => ⟨rfl, rfl⟩, fun h => nomatch h2.symm.trans h⟩
  | true =>
    refine ⟨ha, hr, hu, rfl, rfl, rfl, rfl, rfl, applyNext_coefs (epochReports s.energy) p l, fun h => (nomatch h2.symm.trans h), fun _ => ⟨?_, rfl⟩⟩
    show epochOf s.timeNs ((energyFields p l).epochUs.getD s.energy.epochUs) = _
    rw [hu]
    rfl

/-! ### The planner's look afterwards -/

theorem reconsider_arb (b : Bool) (s : State) : (s.reconsider b).arb = s.arb := by
  have key (l : List Cmd) (acc : State × Bool) : (l.foldl (fun (acc : State × Bool) c =>
      match acc.1.cmds.find? (fun d => d.order == c.order) with
      | some d => if acc.1.deferredBefore d then acc else (acc.1.consider (b && acc.2) d, false)
      | none => acc) acc).1.arb = acc.1.arb := by
    induction l generalizing acc with
    | nil => rfl
    | cons c l ih =>
      refine (ih _).trans ?_
      dsimp only
      split
      · split
        · rfl
        · obtain ⟨e, x, h⟩ := consider_frame acc.1 (b && acc.2) ‹Cmd›
          exact (congrArg State.arb h :)
      · rfl
  unfold State.reconsider
  split
  · rfl
  · exact (settle_arb _).trans (key _ (s, true))

/-- The ledger without what charges, reports and the planner's look move. -/
def Energy.quiet (e : Energy) : Energy :=
  { e with spent := 0, genSpent := 0, sampleAccrued := 0, carry := 0, totCmd := 0, totClass := [], bgEvents := [], lastProj := 0, oversize := 0 }

theorem EnergySet.of_quiet {e x y : Energy} {now : Time} {p : List Byte} {l : List U32} (h : EnergySet e now p l x) (hq : y.quiet = x.quiet) :
    EnergySet e now p l y := by
  have heq {α : Type} (f : Energy → α) (hf : ∀ z : Energy, f z = f z.quiet) : f y = f x := by rw [hf y, hq, ← hf x]
  refine ⟨(heq (·.allow) fun _ => rfl).trans h.allow, (heq (·.reserve) fun _ => rfl).trans h.reserve, (heq (·.epochUs) fun _ => rfl).trans h.epochUs,
    (heq (·.next) fun _ => rfl).trans h.next, (heq (·.planEn) fun _ => rfl).trans h.planEn, (heq (·.trim) fun _ => rfl).trans h.trim,
    (heq (·.level) fun _ => rfl).trans h.level, (heq (·.served) fun _ => rfl).trans h.served, (heq (·.coefs) fun _ => rfl).trans h.coefs,
    fun hb => ?_, fun hb => ?_⟩
  · exact ⟨(heq (·.epoch) fun _ => rfl).trans (h.same hb).1, (heq (·.deficit) fun _ => rfl).trans (h.same hb).2⟩
  · exact ⟨(heq (·.epoch) fun _ => rfl).trans (h.turned hb).1, (heq (·.deficit) fun _ => rfl).trans (h.turned hb).2⟩

/-- The end of a hold in a state whose ledger is `x`, and the planner's look (R314, R416). -/
theorem ctlDone_reconsidered {u : State} {c : Cmd} (hc : c ∈ u.cmds) (x : Energy) (r : Reason) (b : Body) (turn : Bool) :
    let t := (({ u with energy := x } : State).ctlDone c r b).reconsider turn
    (t.holds c.order fun d => d.endedWith r (cplBody b.fields) ∧ d.dispatchedAs u.nextOrder) ∧
      ({ u with nextOrder := u.nextOrder + 1, energy := t.energy } : State).sameStill t ∧ t.energy.quiet = x.quiet := by
  intro t
  obtain ⟨hholds, ⟨hstill, hrings, htenants⟩, -⟩ := ctlDone_ended (u := { u with energy := x }) (c := c) r b ⟨c, hc, rfl⟩
  have hplan := reconsider_plans turn (({ u with energy := x } : State).ctlDone c r b)
  have harb := reconsider_arb turn (({ u with energy := x } : State).ctlDone c r b)
  change Plans _ t at hplan
  change t.arb = _ at harb
  clear_value t
  generalize ({ u with energy := x } : State).ctlDone c r b = w at *
  obtain ⟨hsame, hrings', htenants'⟩ := hplan.adv.same
  have hstable : Cmd.Stable fun d => d.endedWith r (cplBody b.fields) ∧ d.dispatchedAs u.nextOrder :=
    fun c d l h => ⟨endedWith_stable _ _ c d l h.1, dispatchedAs_stable _ c d l h.2⟩
  refine ⟨hplan.adv.cmds _ _ hstable hholds, ⟨?_, fun k => (hrings' k).trans (hrings k), fun k => (htenants' k).trans (htenants k)⟩, ?_⟩
  · have ht : t.still = { t.unplanned.still with arb := t.arb, energy := t.still.energy } := rfl
    have hw : ({ w.unplanned.still with arb := w.arb, energy := t.still.energy } : State) = { w.still with energy := t.still.energy } := rfl
    rw [ht, hsame, harb, hw, hstill]
    rfl
  · have h1 : t.energy.quiet = w.energy.quiet := (congrArg (fun s : State => s.energy.quiet) hsame :)
    have h2 : w.energy.quiet = x.quiet := (congrArg (fun s : State => s.energy.quiet) hstill :)
    exact h1.trans h2

/-! ### The two ends of the hold -/

theorem energyFields_loaded {p : List Byte} {l : List U32} (h : pktBit p 32 3 = true → l.length = leNat p 60 2) :
    ((energyFields p l).coefs.map List.length).getD 0 = loadedCoefs p := by
  unfold energyFields loadedCoefs
  cases hb : pktBit p 32 3 with
  | false => rfl
  | true => exact h hb

/-- AT_NEXT_EPOCH: the values wait (R367). -/
theorem energyApply_next (u : State) {c : Cmd} {l : List U32} (h4 : pktBit c.run 32 4 = true) (hl : pktBit c.run 32 3 = true → l.length = leNat c.run 60 2) :
    u.energyApply c l = ({ u with energy := { u.energy with next := some (energyFields c.run l) } } : State).ctlDone c .ok
      (energyBody u.energy (loadedCoefs c.run)) := by
  unfold State.energyApply
  extract_lets p n loaded
  rw [if_pos h4]
  exact congrArg (fun k => State.ctlDone _ c .ok (energyBody u.energy k)) (energyFields_loaded hl)

theorem energyApply_now (u : State) {c : Cmd} {l : List U32} (h4 : pktBit c.run 32 4 = false) (hl : pktBit c.run 32 3 = true → l.length = leNat c.run 60 2) :
    u.energyApply c l = (({ u with energy := u.energyAtOnce c.run l } : State).ctlDone c .ok
      (energyBody (u.energyAtOnce c.run l) (loadedCoefs c.run))).reconsider (pktBit c.run 32 2) := by
  unfold State.energyApply
  extract_lets p n loaded
  have hloaded : loaded = loadedCoefs c.run := energyFields_loaded hl
  clear_value loaded
  rw [if_neg (by simp [p, h4]), hloaded]
  rfl

theorem exec_energySet_front {ring : Fin 64} {now : Time} {s : State} {c : Cmd} (h : (s.tick now).ctlFront ring.val opEnergySet = some c) :
    exec (.energySet ring now) s = .next (s.keep (energySetDo (s.tick now) c)) := congrArg (Host.Outcome.next <| s.keep ·) (onCtl_front h)

section
variable {u : State} {c : Cmd} (hf : u.fnReset 9 = false)
include hf

theorem energySetDo_refused (hs : c.stage = .waiting) (hr : ¬ EnergyInRange u.energy c.run) :
    energySetDo u c = u.ctlDone c .badEnergy (energyBody u.energy 0) := by
  rw [← energyOk_iff] at hr
  simp only [energySetDo, hf, hs, Bool.false_eq_true, if_false]
  rw [if_pos (by simpa using hr)]

theorem energySetDo_asks (hs : c.stage = .waiting) (hr : EnergyInRange u.energy c.run) (h3 : pktBit c.run 32 3 = true) :
    energySetDo u c = (u.holdPart c 0).askRead .coef c.ring c.seq 0 (leNat c.run 64 8) (4 * leNat c.run 60 2) := by
  rw [← energyOk_iff] at hr
  simp only [energySetDo, hf, hs, hr, h3, Bool.false_eq_true, Bool.not_true, if_false, if_true]
  rfl

theorem energySetDo_waits {k : Nat} (hs : c.stage = .hold k) (ho : u.open c.ring c.seq .coef = true) : energySetDo u c = u := by
  simp only [energySetDo, hf, hs, ho, Bool.false_eq_true, if_false, if_true]

/-- The coefficients that the hold has read, none where it reads none. -/
theorem energySetDo_applies (h : (c.stage = .waiting ∧ EnergyInRange u.energy c.run ∧ pktBit c.run 32 3 = false) ∨
      (∃ k, c.stage = .hold k) ∧ pktBit c.run 32 3 = true ∧ u.open c.ring c.seq .coef = false) :
    ∃ l, energySetDo u c = u.energyApply c l ∧ (pktBit c.run 32 3 = true →
      l = (List.range (leNat c.run 60 2)).map fun i => le32 (u.bytes (leNat c.run 64 8) (4 * leNat c.run 60 2)) (4 * i)) := by
  rcases h with ⟨hs, hr, h3⟩ | ⟨⟨k, hs⟩, h3, ho⟩
  · rw [← energyOk_iff] at hr
    refine ⟨[], ?_, fun h => nomatch h3.symm.trans h⟩
    simp only [energySetDo, hf, hs, hr, h3, Bool.false_eq_true, Bool.not_true, if_false]
  · refine ⟨_, ?_, fun _ => rfl⟩
    simp only [energySetDo, hf, hs, ho, Bool.false_eq_true, if_false]

end

/-- Settles O47: the hold by its stage, and its end by AT_NEXT_EPOCH. -/
theorem energySetting : Obligations.EnergySetting := by
  intro ring now s c u e p n allow reserve us inRange coef hfront hord
  obtain ⟨hmem, -, -, hdisp, -⟩ := ctlFront_parts hfront
  refine ⟨_, exec_energySet_front hfront, fun hf => ?_, fun hf => ⟨fun hs hr => ?_, fun hs hr h3 => ?_, fun k hs ho => ?_, fun hend => ?_⟩⟩
  · rw [energySetDo, if_pos hf]
    exact keep_tick s now
  · rw [energySetDo_refused hf hs hr]
    exact ctlDone_kept .badEnergy _ hmem
  · have hn : 4 * leNat c.run 60 2 ≠ 0 := by have h1 : 1 ≤ leNat c.run 60 2 := (hr.2.2 h3).1; omega
    rw [energySetDo_asks hf hs hr h3]
    exact (readAsked_goes hmem hdisp 0 .coef 0 _ hn).kept
  · rw [energySetDo_waits hf hs ho]
    exact keep_tick s now
  obtain ⟨l, hdo, hl⟩ := energySetDo_applies hf hend
  have hlen (h : pktBit c.run 32 3 = true) : l.length = leNat c.run 60 2 := by rw [hl h]; simp
  rw [hdo]
  refine ⟨fun h4 => ?_, fun h4 => ?_⟩
  · rw [energyApply_next u h4 hlen]
    obtain ⟨hkeep, hctl⟩ := ctlRow (s := s) (now := now) (v := { u with energy := { e with next := some (energyFields p l) } }) (r := .ok)
      (b := energyBody e (loadedCoefs p)) rfl ⟨c, hmem, rfl⟩ ⟨rfl, rfl, rfl⟩
    have hnext := (still_energy_next hctl.2.1.1 :)
    rw [hkeep]
    refine ⟨?_, energyFields p l, hnext, ?_, ?_, ?_, ?_⟩
    · rw [hnext]
      exact hctl
    · exact if_ctx_congr Iff.rfl (fun h => congrArg some (if_pos h).symm) fun _ => rfl
    · exact if_ctx_congr Iff.rfl (fun h => congrArg some (if_pos h).symm) fun _ => rfl
    · exact if_ctx_congr Iff.rfl (fun h => congrArg some (if_pos h).symm) fun _ => rfl
    · exact if_ctx_congr Iff.rfl (fun h => congrArg some (hl h)) fun _ => rfl
  · rw [energyApply_now u h4 hlen]
    have hset := energyAtOnce_set u p l
    obtain ⟨hholds, hstill, hquiet⟩ := ctlDone_reconsidered hmem (u.energyAtOnce p l) .ok (energyBody (u.energyAtOnce p l) (loadedCoefs p)) (pktBit p 32 2)
    have hkeep := keep_of_still (s := s) (now := now) hstill.1 ⟨rfl, rfl, rfl⟩
    have hbody : (energyBody (u.energyAtOnce p l) (loadedCoefs p)).fields = [(32, 8, allow), (40, 8, reserve), (48, 4, us), (52, 2, loadedCoefs p)] := by
      rw [energyBody, hset.allow, hset.reserve, hset.epochUs]
      rfl
    rw [hbody] at hholds
    obtain ⟨ha, hr, hu, hn, hp, ht, hv, hse, hco, hsame, hturn⟩ := hset.of_quiet hquiet
    rw [hkeep]
    refine ⟨hholds, hstill, ha, hr, hu, hn, hp, ht, hv, hse, fun i => ?_, hsame, hturn⟩
    rw [hco]
    by_cases h3 : pktBit c.run 32 3 = true
    · rw [if_pos h3, coefsWith_get, hlen h3, hl h3]
      refine if_ctx_congr (iff_and_self.2 fun _ => h3) (fun hi => ?_) fun _ => rfl
      rw [List.getD_eq_getElem?_getD, List.getElem?_map, List.getElem?_range hi.2]
      rfl
    · rw [if_neg h3, if_neg fun h => h3 h.1]

end Sys2Proof.Machine
end


section
/-! PROOF. The bytes of a completion record, a result record and a verification record (R274, R298, R316). -/

namespace Sys2Proof.Machine

/-! ### Parts and arrays of a record -/

/-- A field that was written without regard to its size reads as what fits. -/
theorem leNat_field_mod {l : List (Nat × Nat)} {w v : Nat} (i : Nat) (z : List Byte) (hi : l[i]? = some (w, v)) :
    leNat (fieldBytes l ++ z) (fieldOffset l i) w = v % 256 ^ w := by
  obtain ⟨hlt, hget⟩ := List.getElem?_eq_some_iff.1 hi
  have hform : fieldBytes l ++ z = fieldBytes (l.take i) ++ (leBytes w v ++ (fieldBytes (l.drop (i + 1)) ++ z)) := by
    conv_lhs => rw [← List.take_append_drop i l, List.drop_eq_getElem_cons hlt, hget]
    simp [fieldBytes]
  rw [hform, fieldOffset, ← List.map_take, ← fieldBytes_length, leNat_right _ _ _ _ le_rfl, Nat.sub_self,
    leNat_left _ _ _ _ (by rw [leBytes_length, Nat.zero_add]), leNat_leBytes]

/-- A field that lies in the middle part. -/
theorem leNat_part {a x : List Byte} {o n : Nat} (z : List Byte) (h : o + n ≤ x.length) : leNat (a ++ (x ++ z)) (a.length + o) n = leNat x o n := by
  rw [leNat_right _ _ _ _ (Nat.le_add_right _ _), Nat.add_sub_cancel_left, leNat_left _ _ _ _ h]

theorem leNat_take (b : List Byte) {o n m : Nat} (h : o + n ≤ m) : leNat (b.take m) o n = leNat b o n := by
  induction n generalizing o with
  | zero => rfl
  | succ n ih =>
    have hbyte : byteAt (b.take m) o = byteAt b o := by
      simp only [byteAt, List.getD_eq_getElem?_getD, List.getElem?_take_of_lt (show o < m by omega)]
    rw [leNat, leNat, hbyte, ih (by omega)]

/-- The bytes of an array of `w`-byte words. -/
def wordBytes (w : Nat) (l : List Nat) : List Byte := l.flatMap (leBytes w)

/-- A word of an array that is cut or padded to `n` bytes; beyond its end it reads 0. -/
theorem padTo_word {w n j : Nat} (l : List Nat) (h : w * j + w ≤ n) : leNat (padTo n (wordBytes w l)) (w * j) w = l.getD j 0 % 256 ^ w := by
  have key (m : Nat) : leNat (wordBytes w l ++ zeros m) (w * j) w = l.getD j 0 % 256 ^ w := by
    clear h
    induction l generalizing j with
    | nil => simp [wordBytes, leNat_zeros]
    | cons v l ih =>
      have hcons : wordBytes w (v :: l) ++ zeros m = leBytes w v ++ (wordBytes w l ++ zeros m) := by simp [wordBytes]
      rw [hcons]
      cases j with
      | zero => rw [Nat.mul_zero, leNat_left _ _ _ _ (by rw [leBytes_length, Nat.zero_add]), leNat_leBytes, List.getD_cons_zero]
      | succ j =>
        rw [leNat_right _ _ _ _ (by rw [leBytes_length]; exact Nat.le_mul_of_pos_right w j.succ_pos), leBytes_length, Nat.mul_succ,
          Nat.add_sub_cancel, ih, List.getD_cons_succ]
  rw [padTo, leNat_take _ h, key]

theorem getD_map {α : Type} (f : α → Nat) (l : List α) (d : α) (j : Nat) : (l.map f).getD j (f d) = f (l.getD j d) := by
  simp only [List.getD_eq_getElem?_getD, List.getElem?_map]
  cases l[j]? <;> rfl

theorem le32_of_leNat {b : List Byte} {o : Nat} {v : U32} (h : leNat b o 4 = v.toNat % 2 ^ 32) : le32 b o = v := by
  rw [le32, h, Nat.mod_eq_of_lt v.isLt, BitVec.ofNat_toNat, BitVec.setWidth_eq]

theorem le64_of_leNat {b : List Byte} {o : Nat} {v : U64} (h : leNat b o 8 = v.toNat % 2 ^ 64) : le64 b o = v := by
  rw [le64, h, Nat.mod_eq_of_lt v.isLt, BitVec.ofNat_toNat, BitVec.setWidth_eq]

/-! ### The completion record (R316) -/

/-- CFLAGS. -/
def cplFlags (h : CplHeader) : Nat :=
  flagBit h.intSat 1 + flagBit h.intWrap 2 + flagBit h.preempted 4 + flagBit h.sigSkipped 8 + flagBit h.phase 128

theorem cplFlags_lt (h : CplHeader) : cplFlags h < 256 := by
  have hsat := h.intSat.toNat_le
  have hwrap := h.intWrap.toNat_le
  have hpre := h.preempted.toNat_le
  have hsig := h.sigSkipped.toNat_le
  have hphase := h.phase.toNat_le
  simp only [cplFlags, flagBit_eq_mul]
  omega

/-- The header, as (size, value). -/
def cplFields (h : CplHeader) : List (Nat × Nat) :=
  [(1, h.opcode), (1, h.reason), (1, h.ring % 64), (1, cplFlags h), (4, h.seq.toNat), (8, h.userTag.toNat), (8, h.tDone.toNat), (4, h.cycles),
    (4, sat32 h.charge)]

theorem cplBytes_eq (h : CplHeader) {b : List Byte} (hb : b.length = 96) : cplBytes h b = fieldBytes (cplFields h) ++ b := by
  have hpad : padTo 96 b = b := by rw [padTo_eq 96 b hb.le, hb]; exact List.append_nil b
  have hform : cplBytes h b = padTo 128 (fieldBytes (cplFields h) ++ b) := by
    simp only [cplBytes, hpad, fieldBytes, cplFields, List.flatMap_cons, List.flatMap_nil, List.append_nil, List.append_assoc]
    rfl
  have hlen : (fieldBytes (cplFields h) ++ b).length = 128 := by rw [List.length_append, fieldBytes_length, hb]; rfl
  rw [hform, padTo_eq _ _ hlen.le, hlen]
  exact List.append_nil _

/-- The bits of CFLAGS, as a record with that byte gives them (R316). -/
theorem cplFlags_bits {b : List Byte} {h : CplHeader} (hf : leNat b 3 1 = cplFlags h) :
    pktBit b 3 0 = h.intSat ∧ pktBit b 3 1 = h.intWrap ∧ pktBit b 3 2 = h.preempted ∧ pktBit b 3 3 = h.sigSkipped ∧
      pktBit b 3 4 = false ∧ pktBit b 3 5 = false ∧ pktBit b 3 6 = false ∧ pktBit b 3 7 = h.phase := by
  simp only [pktBit_eq, hf, cplFlags]
  cases h.intSat <;> cases h.intWrap <;> cases h.preempted <;> cases h.sigSkipped <;> cases h.phase <;> decide

theorem reasonCode_lt (r : Reason) : reasonCode r < 256 := by
  cases r <;> decide

/-- PHASE is the complement of the bit of CPL_TAIL above the ring's index (R316). -/
theorem cplPhase_eq (g : Ring) : cplPhase g = !g.cplTail.getLsbD g.log2Entries := by
  rw [cplPhase, BitVec.getLsbD, Nat.testBit_eq_decide_div_mod_eq]
  rcases Nat.mod_two_eq_zero_or_one (g.cplTail.toNat / 2 ^ g.log2Entries) with h | h <;> rw [h] <;> rfl

theorem sat32_eq (n : Nat) : sat32 n = if 2 ^ 32 ≤ n then 2 ^ 32 - 1 else n := by
  unfold sat32
  split <;> omega

/-- The header of a command's record. -/
def cplHeaderOf (g : Ring) (c : Cmd) : CplHeader :=
  ⟨c.raw, reasonCode c.reason, c.ring, c.intSat, c.intWrap, c.preempted, c.sigSkipped, cplPhase g, c.seq, pkUserTag c.pkt, c.tDone, c.cycles, c.charge⟩

theorem recordBytes_fields (g : Ring) (c : Cmd) (hraw : c.raw < 2 ^ 8) (hring : c.ring < 2 ^ 6) (hbody : c.body.length = 96) :
    let b := recordBytes g c
    b.length = 128 ∧ leNat b 0 1 = c.raw ∧ leNat b 1 1 = reasonCode c.reason ∧ leNat b 2 1 = c.ring ∧ leNat b 3 1 = cplFlags (cplHeaderOf g c) ∧
      le32 b 4 = c.seq ∧ le64 b 8 = pkUserTag c.pkt ∧ le64 b 16 = c.tDone ∧ leNat b 24 4 = c.cycles % 2 ^ 32 ∧
      leNat b 28 4 = sat32 c.charge ∧ b.drop 32 = c.body := by
  intro b
  have hb : b = fieldBytes (cplFields (cplHeaderOf g c)) ++ c.body := cplBytes_eq (cplHeaderOf g c) hbody
  have hlen : (fieldBytes (cplFields (cplHeaderOf g c))).length = 32 := by rw [fieldBytes_length]; rfl
  have hread (i : Nat) {w v : Nat} (hi : (cplFields (cplHeaderOf g c))[i]? = some (w, v)) :
      leNat b (fieldOffset (cplFields (cplHeaderOf g c)) i) w = v % 256 ^ w := by
    rw [hb]
    exact leNat_field_mod i _ hi
  refine ⟨by rw [hb, List.length_append, hlen, hbody], (hread 0 rfl).trans (Nat.mod_eq_of_lt (show c.raw < 256 ^ 1 from hraw)),
    (hread 1 rfl).trans (Nat.mod_eq_of_lt (reasonCode_lt c.reason)), (hread 2 rfl).trans ?_, (hread 3 rfl).trans (Nat.mod_eq_of_lt (cplFlags_lt _)),
    le32_of_leNat (hread 4 rfl), le64_of_leNat (hread 5 rfl), le64_of_leNat (hread 6 rfl), hread 7 rfl, (hread 8 rfl).trans ?_,
    by rw [hb, List.drop_left' hlen]⟩
  · show c.ring % 64 % 256 ^ 1 = c.ring
    omega
  · refine Nat.mod_eq_of_lt (show sat32 c.charge < 256 ^ 4 from ?_)
    unfold sat32
    omega

/-! ### The result record (R298) -/

/-- The fields of a record with reason OK before its alternatives, as (size, value). -/
def resultFields (p : StripStep) (pos : U32) (x : Selection) (token accepted emitted : Nat) (lp : F32) : List (Nat × Nat) :=
  [(1, p.reason), (1, x.alts.length), (2, p.strip), (4, p.flags.toNat), (8, p.hostTag.toNat), (4, token), (4, lp.toNat), (4, pos.toNat),
    (2, x.survivors), (1, accepted), (1, emitted), (8, p.time.toNat), (8, p.deadline.toNat), (2, p.idx), (1, p.tenant), (5, 0)]

theorem resultBytes_eq {p : StripStep} (hp : p.reason = 0) (pos : U32) (x : Selection) (token accepted emitted : Nat) (lp : F32) :
    resultBytes p pos (some x) token accepted emitted lp = fieldBytes (resultFields p pos x token accepted emitted lp) ++
      (padTo 80 (wordBytes 4 (x.alts.map Prod.fst)) ++ (padTo 80 (wordBytes 4 (x.alts.map fun a => a.2.toNat)) ++ zeros 40)) := by
  have hempty : ¬ p.reason = stepCode .stripEmpty := by rw [hp]; decide
  have hform : resultBytes p pos (some x) token accepted emitted lp = padTo 256 (fieldBytes (resultFields p pos x token accepted emitted lp) ++
      (padTo 80 (wordBytes 4 (x.alts.map Prod.fst)) ++ padTo 80 (wordBytes 4 (x.alts.map fun a => a.2.toNat)))) := by
    simp only [resultBytes, if_neg hempty, if_pos hp, fieldBytes, resultFields, wordBytes, List.append_assoc, List.flatMap_def, List.map_map]
    rfl
  have hlen : (fieldBytes (resultFields p pos x token accepted emitted lp) ++ (padTo 80 (wordBytes 4 (x.alts.map Prod.fst)) ++
      padTo 80 (wordBytes 4 (x.alts.map fun a => a.2.toNat)))).length = 216 := by
    simp only [List.length_append, fieldBytes_length, padTo_length]
    rfl
  rw [hform, padTo_eq _ _ (by omega), hlen, List.append_assoc, List.append_assoc]

/-- The sizes of those fields. -/
def resultSizes : List Nat := [1, 1, 2, 4, 8, 4, 4, 4, 2, 1, 1, 8, 8, 2, 1, 5]

theorem resultBytes_parts {p : StripStep} (hp : p.reason = 0) (pos : U32) (x : Selection) (token accepted emitted : Nat) (lp : F32) :
    let b := resultBytes p pos (some x) token accepted emitted lp
    b.length = 256 ∧ leNat b 0 1 = 0 ∧ leNat b 1 1 = x.alts.length % 2 ^ 8 ∧ leNat b 2 2 = p.strip % 2 ^ 16 ∧ le32 b 4 = p.flags ∧
      le64 b 8 = p.hostTag ∧ leNat b 16 4 = token % 2 ^ 32 ∧ le32 b 20 = lp ∧ le32 b 24 = pos ∧ leNat b 28 2 = x.survivors % 2 ^ 16 ∧
      leNat b 30 1 = accepted % 2 ^ 8 ∧ leNat b 31 1 = emitted % 2 ^ 8 ∧ le64 b 32 = p.time ∧ le64 b 40 = p.deadline ∧
      leNat b 48 2 = p.idx % 2 ^ 16 ∧ leNat b 50 1 = p.tenant % 2 ^ 8 ∧ leNat b 51 5 = 0 ∧
      (∀ j, j < 20 → leNat b (56 + 4 * j) 4 = (x.alts.getD j (0, fpZero)).1 % 2 ^ 32 ∧ le32 b (136 + 4 * j) = (x.alts.getD j (0, fpZero)).2) ∧
      b.drop 216 = zeros 40 := by
  intro b
  have hb := resultBytes_eq hp pos x token accepted emitted lp
  change b = _ at hb
  have hsize : b.length = 256 := (resultBytes_fields p pos (some x) token accepted emitted lp).1
  clear_value b
  have hlen : (fieldBytes (resultFields p pos x token accepted emitted lp)).length = 56 := by rw [fieldBytes_length]; rfl
  have hread (i o : Nat) (ho : (resultSizes.take i).sum = o) {w v : Nat} (hi : (resultFields p pos x token accepted emitted lp)[i]? = some (w, v)) :
      leNat b o w = v % 256 ^ w := by
    rw [hb, ← ho]
    exact leNat_field_mod i _ hi
  refine ⟨hsize, (hread 0 0 rfl rfl).trans (by rw [hp]; rfl), hread 1 1 rfl rfl, hread 2 2 rfl rfl,
    le32_of_leNat (hread 3 4 rfl rfl), le64_of_leNat (hread 4 8 rfl rfl), hread 5 16 rfl rfl, le32_of_leNat (hread 6 20 rfl rfl),
    le32_of_leNat (hread 7 24 rfl rfl), hread 8 28 rfl rfl, hread 9 30 rfl rfl, hread 10 31 rfl rfl, le64_of_leNat (hread 11 32 rfl rfl),
    le64_of_leNat (hread 12 40 rfl rfl), hread 13 48 rfl rfl, hread 14 50 rfl rfl, hread 15 51 rfl rfl,
    fun j hj => ⟨?_, le32_of_leNat ?_⟩, ?_⟩
  · rw [hb, ← hlen, leNat_part _ (by rw [padTo_length]; omega), padTo_word _ (by omega)]
    exact congrArg (· % 2 ^ 32) (getD_map Prod.fst x.alts (0, fpZero) j)
  · rw [hb, ← List.append_assoc, show 136 + 4 * j = (fieldBytes (resultFields p pos x token accepted emitted lp) ++
      padTo 80 (wordBytes 4 (x.alts.map Prod.fst))).length + 4 * j by rw [List.length_append, hlen, padTo_length],
      leNat_part _ (by rw [padTo_length]; omega), padTo_word _ (by omega)]
    exact congrArg (· % 2 ^ 32) (getD_map (fun a => a.2.toNat) x.alts (0, fpZero) j)
  · rw [hb, ← List.append_assoc, ← List.append_assoc, List.drop_left' (by simp only [List.length_append, hlen, padTo_length])]

/-! ### The verification record (R274) -/

/-- A sum of distinct powers of two has the bits that were summed. -/
theorem foldl_bits (p : Nat → Bool) (m : Nat) : (List.range m).foldl (fun a t => if p t then a + 2 ^ t else a) 0 < 2 ^ m ∧
    ∀ i < m, ((List.range m).foldl (fun a t => if p t then a + 2 ^ t else a) 0).testBit i = p i := by
  induction m with
  | zero => exact ⟨Nat.one_pos, fun i h => absurd h (Nat.not_lt_zero i)⟩
  | succ m ih =>
    obtain ⟨hlt, hbit⟩ := ih
    rw [List.range_succ, List.foldl_append, List.foldl_cons, List.foldl_nil]
    generalize (List.range m).foldl (fun a t => if p t then a + 2 ^ t else a) 0 = a at hlt hbit
    have hpow : 2 ^ (m + 1) = 2 ^ m + 2 ^ m := by rw [pow_succ]; omega
    refine ⟨by split <;> omega, fun i hi => ?_⟩
    rcases Nat.lt_succ_iff_lt_or_eq.1 hi with h | rfl
    · rw [← hbit i h]
      split
      · rw [Nat.add_comm, Nat.testBit_two_pow_add_gt h]
      · rfl
    · split
      · rename_i hp
        rw [Nat.add_comm, Nat.testBit_two_pow_add_eq, Nat.testBit_lt_two_pow hlt, hp]
        rfl
      · rename_i hp
        rw [Nat.testBit_lt_two_pow hlt, Bool.eq_false_iff.2 hp]

/-- The nodes that a tree keeps, a bit for each. -/
def keepBytes (path : List Nat) : List Byte := (List.range 32).map fun k => BitVec.ofNat 8
  ((List.range 8).foldl (fun a t => let n := 8 * k + t; if n != 0 && path.contains n then a + 2 ^ t else a) 0)

theorem keepBytes_bit (path : List Nat) {n : Nat} (h : n < 256) : pktBit (keepBytes path) (n / 8) (n % 8) = (n != 0 && path.contains n) := by
  have hbyte : byteAt (keepBytes path) (n / 8) = BitVec.ofNat 8 ((List.range 8).foldl
      (fun a t => if 8 * (n / 8) + t != 0 && path.contains (8 * (n / 8) + t) then a + 2 ^ t else a) 0) := by
    rw [byteAt, keepBytes, List.getD_eq_getElem?_getD, List.getElem?_map, List.getElem?_range (show n / 8 < 32 by omega)]
    rfl
  have hbit := (foldl_bits (fun t => 8 * (n / 8) + t != 0 && path.contains (8 * (n / 8) + t)) 8).2 (n % 8) (Nat.mod_lt _ (by decide))
  rw [pktBit, hbyte, BitVec.getLsbD_ofNat, hbit, Nat.div_add_mod]
  simp [Nat.mod_lt]

/-- VFLAGS. -/
def vrecFlags (w : Walk) (shift : Bool) : Nat := (if w.hedgeStop then 1 else 0) + (if w.budgetCap then 2 else 0) + (if shift then 4 else 0)

theorem vrecFlags_lt (w : Walk) (shift : Bool) : vrecFlags w shift < 8 := by
  unfold vrecFlags
  split <;> split <;> split <;> decide

theorem vrecFlags_bits {b : List Byte} {w : Walk} {shift : Bool} (h : leNat b 2 1 = vrecFlags w shift) :
    pktBit b 2 0 = w.hedgeStop ∧ pktBit b 2 1 = w.budgetCap ∧ pktBit b 2 2 = shift := by
  simp only [pktBit_eq, h, vrecFlags]
  cases w.hedgeStop <;> cases w.budgetCap <;> cases shift <;> decide

/-- The fields before the nodes that are kept, as (size, value). -/
def vrecFields (w : Walk) (shift : Bool) (pos : U32) : List (Nat × Nat) :=
  [(1, w.accepted), (1, w.path.length), (1, vrecFlags w shift), (1, 0), (4, pos.toNat), (8, 0)]

theorem ofNat_bytes (l : List Nat) : l.map (BitVec.ofNat 8) = wordBytes 1 l := by
  have hbyte (n : Nat) : leBytes 1 n = [BitVec.ofNat 8 n] := by
    simp only [leBytes]
    exact congrArg (fun x => [x]) (BitVec.eq_of_toNat_eq (by simp))
  rw [wordBytes, List.flatMap_congr fun n _ => hbyte n]
  induction l with
  | nil => rfl
  | cons n l ih => rw [List.map_cons, ih, List.flatMap_cons]; rfl

theorem vrecBytes_eq (w : Walk) (shift : Bool) (pos : U32) : vrecBytes w shift pos = fieldBytes (vrecFields w shift pos) ++ (keepBytes w.path ++
    (padTo 32 (wordBytes 1 w.path) ++ (padTo 128 (wordBytes 4 w.tokens) ++ (padTo 128 (wordBytes 4 (w.lps.map BitVec.toNat)) ++ zeros 176)))) := by
  rw [← ofNat_bytes]
  simp only [vrecBytes, fieldBytes, vrecFields, wordBytes, List.append_assoc, List.flatMap_def, List.map_map]
  rfl

theorem vrecBytes_parts (w : Walk) (shift : Bool) (pos : U32) (hw : w.path.length ≤ 32) :
    let b := vrecBytes w shift pos
    b.length = 512 ∧ leNat b 0 1 = w.accepted % 2 ^ 8 ∧ leNat b 1 1 = w.path.length ∧ leNat b 2 1 = vrecFlags w shift ∧ leNat b 3 1 = 0 ∧
      le32 b 4 = pos ∧ le64 b 8 = 0 ∧ (∀ n, n < 256 → pktBit b (16 + n / 8) (n % 8) = (n != 0 && w.path.contains n)) ∧
      (∀ k, k < 32 → leNat b (48 + k) 1 = w.path.getD k 0 % 2 ^ 8 ∧ leNat b (80 + 4 * k) 4 = w.tokens.getD k 0 % 2 ^ 32 ∧
        le32 b (208 + 4 * k) = w.lps.getD k fpZero) ∧
      b.drop 336 = zeros 176 := by
  intro b
  have hb := vrecBytes_eq w shift pos
  change b = _ at hb
  have hhead : (fieldBytes (vrecFields w shift pos)).length = 16 := by rw [fieldBytes_length]; rfl
  have hkeep : (keepBytes w.path).length = 32 := by simp [keepBytes]
  have hread (i : Nat) {n v : Nat} (hi : (vrecFields w shift pos)[i]? = some (n, v)) :
      leNat b (fieldOffset (vrecFields w shift pos) i) n = v % 256 ^ n := by
    rw [hb]
    exact leNat_field_mod i _ hi
  refine ⟨?_, hread 0 rfl, (hread 1 rfl).trans (Nat.mod_eq_of_lt (by omega)), (hread 2 rfl).trans (Nat.mod_eq_of_lt ?_), hread 3 rfl,
    le32_of_leNat (hread 4 rfl), le64_of_leNat (v := 0) (hread 5 rfl), fun n hn => ?_, fun k hk => ⟨?_, ?_, le32_of_leNat ?_⟩, ?_⟩
  · simp only [hb, List.length_append, hhead, hkeep, padTo_length, zeros_length]
  · have := vrecFlags_lt w shift
    omega
  · have hbyte : byteAt b (16 + n / 8) = byteAt (keepBytes w.path) (n / 8) := by
      rw [hb, byteAt_right _ _ _ (by omega), hhead, Nat.add_sub_cancel_left, byteAt_left _ _ _ (by omega)]
    rw [pktBit, hbyte]
    exact keepBytes_bit w.path hn
  · rw [hb, ← List.append_assoc, show 48 + k = (fieldBytes (vrecFields w shift pos) ++ keepBytes w.path).length + 1 * k by
      rw [List.length_append, hhead, hkeep, Nat.one_mul], leNat_part _ (by rw [padTo_length]; omega), padTo_word _ (by omega)]
    rfl
  · rw [hb, ← List.append_assoc, ← List.append_assoc, show 80 + 4 * k = (fieldBytes (vrecFields w shift pos) ++ keepBytes w.path ++
      padTo 32 (wordBytes 1 w.path)).length + 4 * k by simp only [List.length_append, hhead, hkeep, padTo_length],
      leNat_part _ (by rw [padTo_length]; omega), padTo_word _ (by omega)]
    rfl
  · rw [hb, ← List.append_assoc, ← List.append_assoc, ← List.append_assoc, show 208 + 4 * k = (fieldBytes (vrecFields w shift pos) ++
      keepBytes w.path ++ padTo 32 (wordBytes 1 w.path) ++ padTo 128 (wordBytes 4 w.tokens)).length + 4 * k by
        simp only [List.length_append, hhead, hkeep, padTo_length],
      leNat_part _ (by rw [padTo_length]; omega), padTo_word _ (by omega)]
    exact congrArg (· % 2 ^ 32) (getD_map BitVec.toNat w.lps fpZero k)
  · rw [hb, ← List.append_assoc, ← List.append_assoc, ← List.append_assoc, ← List.append_assoc,
      List.drop_left' (by simp only [List.length_append, hhead, hkeep, padTo_length])]

/-- Settles O51, one record after the other. -/
theorem recordFormat : Obligations.RecordFormat := by
  refine ⟨fun g c hraw hring hbody => ?_, fun p pos x token accepted emitted lp hp => resultBytes_parts hp pos x token accepted emitted lp,
    fun w shift pos hw => ?_⟩
  · obtain ⟨hlen, h0, h1, h2, hflags, h4, h8, h16, h24, h28, h32⟩ := recordBytes_fields g c hraw hring hbody
    obtain ⟨b0, b1, b2, b3, b4, b5, b6, b7⟩ := cplFlags_bits hflags
    exact ⟨hlen, h0, h1, h2, b0, b1, b2, b3, b4, b5, b6, b7.trans (cplPhase_eq g), h4, h8, h16, h24, h28.trans (sat32_eq _), h32⟩
  · obtain ⟨hlen, h0, h1, hflags, h3, h4, h8, hkeep, harr, hrest⟩ := vrecBytes_parts w shift pos hw
    obtain ⟨b0, b1, b2⟩ := vrecFlags_bits hflags
    exact ⟨hlen, h0, h1, h3, h4, h8, b0, b1, b2, hflags ▸ vrecFlags_lt w shift, hkeep, harr, hrest⟩

end Sys2Proof.Machine
end


section
/-! PROOF. Timeouts of the wait stage, the hold limit, and the barrier (R324 to R327, R330, R331). -/

namespace Sys2Proof.Machine

/-! ### A packet that ends without a dispatch -/

theorem Cmd.Stable.and {P Q : Cmd → Prop} (hP : Cmd.Stable P) (hQ : Cmd.Stable Q) : Cmd.Stable fun d => P d ∧ Q d :=
  fun c d h hc => ⟨hP c d h hc.1, hQ c d h hc.2⟩

theorem ring_stable (r : Nat) : Cmd.Stable fun d => d.ring = r := fun _ _ h hc => h.ring.trans hc

theorem seq_stable (q : U32) : Cmd.Stable fun d => d.seq = q := fun _ _ h hc => h.seq.trans hc

theorem pkt_stable (p : List Byte) : Cmd.Stable fun d => d.pkt = p := fun _ _ h hc => h.pkt.trans hc

/-- The end of a packet keeps its ring, its SEQ and its bytes. -/
theorem finish_named {s : State} {c : Cmd} (r : Reason) (b : Body) (h : ∃ d ∈ s.cmds, d.order = c.order) :
    (s.finish c r b).holds c.order fun d => d.endedWith r (cplBody b.fields) ∧ d.ring = c.ring ∧ d.seq = c.seq ∧ d.pkt = c.pkt := by
  have q : Quiet s (if (s.convert c).2.disp.isNone then (s.convert c).1.leaveBarrier (s.convert c).2.ring else (s.convert c).1) := by
    split
    · exact (convert_quiet s c).trans (leaveBarrier_quiet _ _)
    · exact convert_quiet s c
  have hset (u : State) (d : Cmd) (a : Nat) (q : U32) (hu : u.cmds = s.cmds) (hd : d.order = c.order)
      (hp : d.endedWith r (cplBody b.fields) ∧ d.ring = c.ring ∧ d.seq = c.seq ∧ d.pkt = c.pkt) : ((u.setCmd d).freeAcre a q).holds c.order
        fun d => d.endedWith r (cplBody b.fields) ∧ d.ring = c.ring ∧ d.seq = c.seq ∧ d.pkt = c.pkt := by
    refine holds_of_cmds ?_ (freeAcre_quiet (u.setCmd d) a q).cmds
    rw [← hd] at h ⊢
    exact setCmd_own (hu ▸ h) hp
  unfold State.finish
  exact hset _ _ _ _ q.cmds rfl ⟨⟨rfl, rfl, rfl⟩, rfl, rfl, rfl⟩

theorem refuse_named {s : State} {c : Cmd} (r : Reason) (h : ∃ d ∈ s.cmds, d.order = c.order) :
    (s.refuse c r).holds c.order fun d => d.endedWith r (cplBody []) ∧ d.ring = c.ring ∧ d.seq = c.seq ∧ d.pkt = c.pkt := by
  obtain ⟨u, hu, e⟩ := refuse_cmds s c r
  rw [e]
  exact finish_named r bodyZero (hu ▸ h)

theorem named_stable (r : Reason) (c : Cmd) :
    Cmd.Stable fun d => d.endedWith r (cplBody []) ∧ d.ring = c.ring ∧ d.seq = c.seq ∧ d.pkt = c.pkt :=
  (endedWith_stable _ _).and ((ring_stable _).and ((seq_stable _).and (pkt_stable _)))

theorem refuse_same (s : State) (c : Cmd) (r : Reason) : s.sameStill (s.refuse c r) :=
  sameStill_trans (refuse_quiet s c).adv.same (finish_still _ c r bodyZero).1

theorem unpause_same (s : State) (c : Cmd) : s.sameStill (s.unpause c) := by
  unfold State.unpause State.modCmd
  split
  · split <;> exact ⟨rfl, fun _ => rfl, fun _ => rfl⟩
  · exact ⟨rfl, fun _ => rfl, fun _ => rfl⟩

theorem setCmd_has {s : State} (d : Cmd) {o : Nat} (h : ∃ e ∈ s.cmds, e.order = o) : ∃ e ∈ (s.setCmd d).cmds, e.order = o := by
  obtain ⟨e, he, ho⟩ := h
  refine ⟨_, List.mem_map_of_mem he, ?_⟩
  split
  · rename_i hd
    exact hd.symm.trans ho
  · exact ho

theorem unpause_has {s : State} (c : Cmd) {o : Nat} (h : ∃ e ∈ s.cmds, e.order = o) : ∃ e ∈ (s.unpause c).cmds, e.order = o := by
  unfold State.unpause State.modCmd
  split
  · split
    · exact setCmd_has _ h
    · exact h
  · exact h

/-! ### The stop of a ring with CAUSE = HOLD (R331) -/

/-- Ring `r` stops, and with it the grant that it holds. -/
def State.stopRing (s : State) (r : Nat) : State := ((s.modRing r stopHold).dropGrant).settle

section
variable {u w : State} (r : Nat)

theorem stopRing_still (h : u.sameStill w) : (w.stopRing r).still = { u with arb := (w.stopRing r).arb }.still := by
  have hw : (w.stopRing r).still = { w.still with arb := (w.stopRing r).arb } := by
    unfold State.stopRing
    rw [settle_still, settle_arb, dropGrant_eq]
    rfl
  rw [hw, h.1]
  rfl

theorem stopRing_tenant (h : u.sameStill w) (m : Nat) : (w.stopRing r).tenantStill m = u.tenantStill m := by
  refine ((settle_adv _).same.2.2 m).trans (Eq.trans ?_ (h.2.2 m))
  rw [dropGrant_eq]
  rfl

theorem stopRing_same (h : u.sameStill w) : (w.stopRing r).ringStill r = { u.ringStill r with stopped := true, cause := 3 } := by
  refine ((settle_adv _).same.2.1 r).trans ?_
  rw [← h.2.1 r, dropGrant_eq]
  exact congrArg (fun g : Ring => { g with cplBusy := false }) (modRing_ring_same w r stopHold)

theorem stopRing_other (h : u.sameStill w) {k : Nat} (hk : k ≠ r) : (w.stopRing r).ringStill k = u.ringStill k := by
  refine ((settle_adv _).same.2.1 k).trans ?_
  rw [← h.2.1 k, dropGrant_eq]
  exact congrArg (fun g : Ring => { g with cplBusy := false }) (modRing_ring_ne w stopHold hk)

theorem stopRing_arb (h : u.sameStill w) : (w.stopRing r).arb = { u.arb with grant := (w.stopRing r).arb.grant } := by
  unfold State.stopRing
  rw [settle_arb, dropGrant_eq, ← still_arb h.1]
  rfl

/-- A stopped ring does not request, so that it gives its grant up (R330). -/
theorem stopRing_grant (h : u.sameStill w) {j : Nat} (hg : u.arb.grant = some (r, j)) (hf : u.arb.fetching = 0) : (w.stopRing r).arb.grant = none := by
  have hstop : (w.modRing r stopHold).keepsGrant r = false := by
    unfold State.keepsGrant State.wants
    rw [modRing_ring_same]
    simp [stopHold]
  have harb : (w.modRing r stopHold).arb = u.arb := still_arb h.1
  unfold State.stopRing
  rw [settle_arb, dropGrant_eq]
  simp only [State.heldGrant, harb, hg, hf, hstop, and_self, if_pos]

end

/-! ### CUT_OFF -/

/-- A dispatch hold that lasts too long (R331). -/
theorem cutOffDo_hold {s : State} {r : Nat} {c : Cmd} {k : Nat} (hd : s.dispatching = true) (hw : s.waiting r = some c) (hs : c.stage = .hold k)
    (ho : s.holdOver r c.entered = true) : cutOffDo r s = ((s.unpause c).refuse c .cutOff).stopRing r := by
  unfold cutOffDo
  simp only [hw, hs, hd, ho, Bool.and_self, if_pos]
  rfl

/-- A fetch that lasts too long (R331). -/
theorem cutOffDo_fetch {s : State} {r : Nat} (hd : s.dispatching = true) (hw : s.waiting r = none) (hf : s.fetchingRing r = true)
    (ho : s.holdOver r s.arb.since = true) : cutOffDo r s = (s.endFetch r .cutOff).stopRing r := by
  have hd' : s.fetching = true := hd
  unfold cutOffDo
  simp only [hw, hf, hd', ho, Bool.and_self, if_pos]
  rfl

theorem exec_cutOff {s t : State} {ring : Fin 64} {now : Time} {v : State} (h : cutOffDo ring.val (s.tick now) = t) (hs : t.still = v.still)
    (hv : v.pending = (s.tick now).pending ∧ v.build = (s.tick now).build ∧ v.mem = (s.tick now).mem) : exec (.cutOff ring now) s = .next t := by
  have hrow : exec (.cutOff ring now) s = .next (s.keep (cutOffDo ring.val (s.tick now))) := rfl
  rw [hrow, h, keep_of_still hs hv]

/-! ### The end of a fetch (R307, R312) -/

/-- HEAD passes the packet in the fetch of ring `r` (R307), unless a doorbell has moved it since (R306; log 74). -/
def State.fetchPast (s : State) (r : Nat) : Bool := s.fetchRead r && !s.arb.moved

/-- The ring of a fetch that has ended. -/
def State.ringPast (s : State) (r : Nat) : Ring :=
  { s.ring r with
    needSlots := if s.fetchPast r then 0 else (s.ring r).needSlots
    head := if s.fetchPast r then (s.ring r).head + BitVec.ofNat 32 (s.fetchLen r) else (s.ring r).head }

/-- The block with the fetch of ring `r` over, before the packet takes its record. -/
def State.fetchOver (s : State) (r : Nat) : State :=
  let u := ({ s with arb := { s.arb with fetching := 0, beats := 0 } }.dropQueued r s.arb.fetchSeq).bgEvent 11 s.arb.beats
  if s.fetchPast r then u.modRing r fun g => { g with head := add32 g.head (s.fetchLen r), needSlots := 0 } else u

/-- The packet in the fetch of ring `r` as a record names it. -/
def State.fetchCmd (s : State) (r : Nat) : Cmd := newCmd r s.arb.fetchSeq (s.slots r s.arb.fetchSeq 1) s.nextOrder s.timeNs 0

/-- A further packet takes the next place in the order of fetches. -/
def State.addCmd (s : State) (c : Cmd) : State := { s with nextOrder := s.nextOrder + 1, cmds := s.cmds ++ [c] }

theorem fetchOver_frame (s : State) (r : Nat) : ∃ l q e, s.fetchOver r =
    { s with rings := l, arb := { s.arb with fetching := 0, beats := 0 }, queue := q, energy := { s.energy with bgEvents := e } } := by
  unfold State.fetchOver
  dsimp only
  split
  · exact ⟨_, _, _, rfl⟩
  · exact ⟨s.rings, _, _, rfl⟩

theorem fetchOver_ring (s : State) (r : Nat) : (s.fetchOver r).ring r = s.ringPast r := by
  unfold State.fetchOver State.ringPast
  cases s.fetchPast r with
  | true => exact modRing_ring_same _ r _
  | false => rfl

theorem fetchOver_other (s : State) {r k : Nat} (h : k ≠ r) : (s.fetchOver r).ring k = s.ring k := by
  unfold State.fetchOver
  dsimp only
  split
  · exact modRing_ring_ne _ _ h
  · rfl

theorem endFetch_counted {s : State} {r : Nat} (h : s.fetchCounted r = true) (x : Reason) :
    s.endFetch r x = ((s.fetchOver r).addCmd (s.fetchCmd r)).refuse (s.fetchCmd r) x := by
  have hif : s.endFetch r x = if s.fetchCounted r then ((s.fetchOver r).addCmd (s.fetchCmd r)).refuse (s.fetchCmd r) x else s.fetchOver r := rfl
  rw [hif, if_pos h]

theorem endFetch_uncounted {s : State} {r : Nat} (h : s.fetchCounted r = false) (x : Reason) : s.endFetch r x = s.fetchOver r := by
  have hif : s.endFetch r x = if s.fetchCounted r then ((s.fetchOver r).addCmd (s.fetchCmd r)).refuse (s.fetchCmd r) x else s.fetchOver r := rfl
  rw [hif, if_neg (by simp [h])]

/-- The block once the fetch is over, its packet there where it counts as fetched (R312). -/
def State.fetchLeft (s : State) (r : Nat) : State := if s.fetchCounted r then (s.fetchOver r).addCmd (s.fetchCmd r) else s.fetchOver r

theorem endFetch_same (s : State) (r : Nat) (x : Reason) : (s.fetchLeft r).sameStill (s.endFetch r x) := by
  unfold State.fetchLeft
  cases hc : s.fetchCounted r with
  | true =>
    rw [endFetch_counted hc]
    exact refuse_same _ _ _
  | false =>
    rw [endFetch_uncounted hc]
    exact ⟨rfl, fun _ => rfl, fun _ => rfl⟩

theorem fetchLeft_frame (s : State) (r : Nat) : ∃ l q e cs, s.fetchLeft r = { s with
    rings := l, arb := { s.arb with fetching := 0, beats := 0 }, queue := q, energy := { s.energy with bgEvents := e }, cmds := cs
    nextOrder := if s.fetchCounted r then s.nextOrder + 1 else s.nextOrder } := by
  obtain ⟨l, q, e, hover⟩ := fetchOver_frame s r
  unfold State.fetchLeft
  rw [hover]
  split
  · exact ⟨l, q, e, _, rfl⟩
  · exact ⟨l, q, e, s.cmds, rfl⟩

theorem fetchLeft_ring (s : State) (r k : Nat) : (s.fetchLeft r).ring k = (s.fetchOver r).ring k := by
  unfold State.fetchLeft
  split <;> rfl

/-- The packet of a fetch that is cut off takes its record where it counts as fetched (R312, R331). -/
theorem endFetch_holds {s : State} {r : Nat} (h : s.fetchCounted r = true) (x : Reason) :
    (s.endFetch r x).holds s.nextOrder fun d => d.endedWith x (cplBody []) ∧ d.ring = r ∧ d.seq = s.arb.fetchSeq := by
  have hlast : s.fetchCmd r ∈ ((s.fetchOver r).addCmd (s.fetchCmd r)).cmds := List.mem_append_right _ (List.mem_singleton_self _)
  rw [endFetch_counted h]
  exact holds_mono (refuse_named x ⟨_, hlast, rfl⟩) fun d ⟨hend, hring, hseq, _⟩ => ⟨hend, hring, hseq⟩

theorem stopRing_holds {w : State} (r : Nat) {o : Nat} {P : Cmd → Prop} (hP : Cmd.Stable P) (h : w.holds o P) : (w.stopRing r).holds o P := by
  refine (settle_adv _).cmds o P hP ?_
  rw [dropGrant_eq]
  exact h

theorem fetchingRing_of_grant {s : State} {r j : Nat} (hg : s.arb.grant = some (r, j)) (hf : s.arb.fetching ≠ 0) : s.fetchingRing r = true := by
  unfold State.fetchingRing
  simp [hg, hf]

@[simp] theorem tick_fetchCounted (s : State) (now : Time) (r : Nat) : (s.tick now).fetchCounted r = s.fetchCounted r := by rw [tick_eq]; rfl

@[simp] theorem tick_ringPast (s : State) (now : Time) (r : Nat) : (s.tick now).ringPast r = s.ringPast r := by rw [tick_eq]; rfl

theorem tick_ringStill (s : State) (now : Time) (r : Nat) : (s.tick now).ringStill r = s.ringStill r := by rw [tick_eq]; rfl

theorem tick_tenantStill (s : State) (now : Time) (n : Nat) : (s.tick now).tenantStill n = s.tenantStill n := by rw [tick_eq]; rfl

/-- What CUT_OFF makes of a fetch (R331). -/
theorem cutFetch_parts (s : State) {r j : Nat} (hg : s.arb.grant = some (r, j)) :
    let t := (s.endFetch r .cutOff).stopRing r
    t.arb = { s.arb with fetching := 0, beats := 0, grant := none } ∧
      t.ringStill r = { s.ringPast r with cplBusy := false, stopped := true, cause := 3 } ∧
      (∀ k, k ≠ r → t.ringStill k = s.ringStill k) ∧ (∀ m, t.tenantStill m = s.tenantStill m) ∧
      t.nextOrder = (if s.fetchCounted r then s.nextOrder + 1 else s.nextOrder) ∧
      { s with arb := t.arb, nextOrder := t.nextOrder }.still = t.still := by
  intro t
  have hsame := endFetch_same s r .cutOff
  obtain ⟨l, q, e, cs, hleft⟩ := fetchLeft_frame s r
  have harb : t.arb = { s.arb with fetching := 0, beats := 0, grant := none } := by
    have hgrant : t.arb.grant = none := stopRing_grant r hsame (j := j) (by rw [hleft]; exact hg) (by rw [hleft])
    have hrest : t.arb = { (s.fetchLeft r).arb with grant := t.arb.grant } := stopRing_arb r hsame
    rw [hrest, hgrant, hleft]
  have hstill : t.still = { s.fetchLeft r with arb := t.arb }.still := stopRing_still r hsame
  have hnext : t.nextOrder = (if s.fetchCounted r then s.nextOrder + 1 else s.nextOrder) := by
    have hn : t.nextOrder = ({ s.fetchLeft r with arb := t.arb } : State).nextOrder := still_nextOrder hstill
    rw [hn, hleft]
  refine ⟨harb, ?_, fun k hk => ?_, fun m => ?_, hnext, ?_⟩
  · rw [stopRing_same r hsame, State.ringStill, fetchLeft_ring, fetchOver_ring]
  · rw [stopRing_other r hsame hk, State.ringStill, fetchLeft_ring, fetchOver_other s hk]
    rfl
  · rw [stopRing_tenant r hsame, hleft]
    rfl
  · rw [hstill, hnext, hleft]
    rfl

/-! ### The barrier (R325 to R327) -/

/-- A packet as its release and the marks of turns leave it (R314, R325). -/
def Cmd.raised (o n : Nat) (d : Cmd) : Cmd := (if d.order = o then { d with joined := true } else d).marked n

/-- Only the release of a packet and its turn move. -/
theorem raised_eq (o n : Nat) (d : Cmd) : ∃ j t, d.raised o n = { d with joined := j, turn := t } := by
  unfold Cmd.raised Cmd.marked
  split <;> split <;> exact ⟨_, _, rfl⟩

/-- What does not read the release of a packet or its turn. -/
def Cmd.Unraised {α : Type} (p : Cmd → α) : Prop := ∀ d j t, p { d with joined := j, turn := t } = p d

theorem raised_same {α : Type} {p : Cmd → α} (hp : Cmd.Unraised p) (o n : Nat) (d : Cmd) : p (d.raised o n) = p d := by
  obtain ⟨j, t, h⟩ := raised_eq o n d
  rw [h, hp]

theorem find_raised {p : Cmd → Bool} (hp : Cmd.Unraised p) (o n : Nat) (l : List Cmd) :
    (l.map (Cmd.raised o n)).find? p = (l.find? p).map (Cmd.raised o n) := by
  rw [List.find?_map, show p ∘ Cmd.raised o n = p from funext fun d => raised_same hp o n d]

theorem any_raised {p : Cmd → Bool} (hp : Cmd.Unraised p) (o n : Nat) (l : List Cmd) : (l.map (Cmd.raised o n)).any p = l.any p := by
  rw [List.any_map, show p ∘ Cmd.raised o n = p from funext fun d => raised_same hp o n d]

/-- The block with barrier_in high. -/
def State.barrierUp (s : State) : State := { s with pins := { s.pins with barrierIn := true } }

/-- The block once packet `c` of ring `r` has left the barrier, released (R325 steps 3 and 4). -/
def State.barrierLeft (s : State) (c : Cmd) : State := { s with
  barrier := none, pins := { s.pins with barrierIn := true, barrierOut := false }
  cmds := (s.cmds.map fun d => if d.order = c.order then { c with joined := true } else d).map (Cmd.marked s.nextOrder) }

section
variable {s : State} {c : Cmd} {r : Nat}

theorem barrierLeft_cmds (ho : s.ordersOk) (hc : c ∈ s.cmds) : (s.barrierLeft c).cmds = s.cmds.map (Cmd.raised c.order s.nextOrder) := by
  refine (List.map_map ..).trans (List.map_congr_left fun d hd => ?_)
  show Cmd.marked s.nextOrder (if d.order = c.order then { c with joined := true } else d) = d.raised c.order s.nextOrder
  unfold Cmd.raised
  split
  · rename_i h
    rw [ordersOk_inj ho hc hd h]
  · rfl

theorem barrierLeft_waiting (ho : s.ordersOk) (hw : s.waiting r = some c) : (s.barrierLeft c).waiting r = some (c.raised c.order s.nextOrder) := by
  unfold State.waiting at hw ⊢
  rw [barrierLeft_cmds ho (List.mem_of_find?_eq_some hw), find_raised fun _ _ _ => rfl, hw]
  rfl

theorem barrierLeft_cmd (ho : s.ordersOk) (hc : c ∈ s.cmds) (k : Nat) (q : U32) :
    (s.barrierLeft c).cmd k q = (s.cmd k q).map (Cmd.raised c.order s.nextOrder) := by
  unfold State.cmd
  rw [barrierLeft_cmds ho hc, find_raised fun _ _ _ => rfl, find_raised fun _ _ _ => rfl]
  cases s.cmds.find? (fun c => c.ring == k && c.seq == q && c.stage != .finished) <;> rfl

theorem barrierLeft_phaseCounts (ho : s.ordersOk) (hc : c ∈ s.cmds) : (s.barrierLeft c).phaseCounts = s.phaseCounts := by
  unfold State.phaseCounts
  rw [show (s.barrierLeft c).acre = s.acre from rfl]
  refine congrArg _ ?_
  cases s.acre.run with
  | none => rfl
  | some e =>
    dsimp only
    rw [barrierLeft_cmd ho hc]
    cases s.cmd e.1 e.2 with
    | none => rfl
    | some d => exact raised_same (p := fun d => d.work.begun && !d.work.ended) (fun _ _ _ => rfl) _ _ d

end

section
variable {s : State} {c : Cmd} {ring : Fin 64} {now : Time}

theorem exec_barrierInHigh (ha : s.awake = true) : exec (.barrierInHigh now) s = .next (s.keep (barrierHighDo (s.tick now).barrierUp)) :=
  congrArg (Host.Outcome.next <| s.keep ·) (if_pos ((tick_awake s now).trans ha))

theorem barrierHighDo_eq {s : State} {r : Nat} (hb : s.barrier = some r) (hw : s.waiting r = some c) :
    barrierHighDo s.barrierUp = (s.barrierLeft c).dispatchNow r := by
  unfold barrierHighDo State.leaveBarrier
  rw [show s.barrierUp.barrier = some r from hb]
  dsimp only
  rw [show s.barrierUp.waiting r = some c from hw]
  dsimp only
  rw [if_pos (show (s.barrierUp.setCmd { c with joined := true }).barrier = some r from hb)]
  rfl

/-- Time does not pass a second time in the row of the packet that the barrier releases. -/
theorem barrierLeft_tick (ho : s.ordersOk) (hc : c ∈ s.cmds) : ((s.tick now).barrierLeft c).tick now = (s.tick now).barrierLeft c := by
  have ho' : (s.tick now).ordersOk := by rw [tick_eq]; exact ho
  have hc' : c ∈ (s.tick now).cmds := by rw [tick_cmds]; exact hc
  have hcmds := barrierLeft_cmds ho' hc'
  refine tick_again (s := s) rfl rfl (tick_awake s now) (tick_boot s now) ?_ ?_ ?_
  · rw [barrierLeft_phaseCounts ho' hc', tick_eq]
    rfl
  · rw [hcmds, any_raised fun _ _ _ => rfl, tick_cmds]
    exact id
  · rw [hcmds, any_raised fun _ _ _ => rfl, tick_cmds]
    exact id

end

section
variable {v : State} {c : Cmd} {r : Nat} (hw : v.waiting r = some c)
include hw

/-- A control packet is dispatched as its own row would. -/
theorem dispatchNow_ctl (hk : isClassOp c.op = false) (hr : c.op ≠ opCtxRestore) (now : Time) (ht : v.tick now = v) :
    v.dispatchNow r = v.onCtl r c.op now (ctlAction c.op) := by
  unfold State.dispatchNow State.onCtl
  simp only [hw, hk, ht, beq_iff_eq, Bool.false_or, if_neg hr]
  cases hf : v.ctlFront r c.op with
  | none => rfl
  | some d =>
    obtain ⟨-, hop, -⟩ := ctlFront_parts hf
    simp only [hop]

/-- A class packet is dispatched as its own row would. -/
theorem dispatchNow_class (hk : isClassOp c.op = true) (now : Time) (ht : v.tick now = v) :
    v.dispatchNow r = v.onClass r c.op now (classAction c.op) := by
  unfold State.dispatchNow State.onClass
  simp only [hw, hk, ht, Bool.true_or, if_pos]
  cases hf : v.classFront r c.op with
  | none => rfl
  | some d =>
    obtain ⟨-, hop, -⟩ := classFront_parts hf
    simp only [hop]

/-- A CTX_RESTORE that no other part of its row comes before is dispatched as its own row would. -/
theorem dispatchNow_restore (hop : c.op = opCtxRestore) (hr : v.restoring r = none) (hs : v.seeding r = none) :
    v.dispatchNow r = ctxRestoreStep v r := by
  unfold State.dispatchNow ctxRestoreStep
  simp only [hw, hop, hr, hs, ite_self, beq_self_eq_true, Bool.or_true, if_pos]
  cases hf : v.classFront r opCtxRestore with
  | none => rfl
  | some d =>
    obtain ⟨-, hop, -⟩ := classFront_parts hf
    simp only [hop]
    rfl

theorem dispatchNow_none (hctl : v.ctlFront r c.op = none) (hclass : v.classFront r c.op = none) : v.dispatchNow r = v := by
  unfold State.dispatchNow
  simp only [hw, hctl, hclass, ite_self]

end

/-- The packet that joins the barrier is the first that may (R325). -/
theorem joinBarrier_busy {s : State} (h : s.barrier.isSome = true) : s.joinBarrier = s := if_pos (by simp [h])

theorem joinBarrier_joins {s : State} {c : Cmd} (hb : s.barrier = none) (hin : s.pins.barrierIn = false) (hw : s.working = true)
    (hc : s.cmds.find? Cmd.joins = some c) : s.joinBarrier = { s with barrier := some c.ring, pins := { s.pins with barrierOut := true } } := by
  unfold State.joinBarrier
  simp [hb, hin, hw, hc]

theorem exec_barrierInLow {s : State} (ha : s.awake = true) :
    exec .barrierInLow s = .next (s.keep ({ s with pins := { s.pins with barrierIn := false } } : State).passOn) :=
  congrArg (Host.Outcome.next <| s.keep ·) (if_pos ha)

/-- A rise of barrier_in with nobody at the barrier. -/
theorem barrierHighDo_none {s : State} (h : s.barrier = none) : barrierHighDo s = s := by
  unfold barrierHighDo
  simp only [h]

section
variable {ring : Fin 64} {now : Time} {s : State} {c : Cmd}

theorem gateTimeout_ends (h : gateTimeoutOn (s.tick now) ring.val = some c) : ∃ t, exec (.gateTimeout ring now) s = .next t ∧
    (s.tick now).sameStill t ∧ t.holds c.order (Cmd.endedWith .gateTimeout (cplBody [])) := by
  have hmem : c ∈ (s.tick now).cmds := by
    unfold gateTimeoutOn at h
    split at h
    · rename_i d hd
      dsimp only at h
      split at h
      · cases h
        exact waiting_mem hd
      · cases h
    · cases h
  have hrow : exec (.gateTimeout ring now) s = .next (s.keep ((s.tick now).refuse c .gateTimeout).settle) := by
    simp only [exec, execGateTimeout, h]
  have hsame := refuse_sameStill (s.tick now) c .gateTimeout
  rw [hrow, keep_of_still hsame.1 ⟨rfl, rfl, rfl⟩]
  exact ⟨_, rfl, hsame, refuse_ended hmem .gateTimeout⟩

theorem cutOff_hold {k : Nat} (hd : s.dispatching = true) (hw : s.waiting ring.val = some c) (hs : c.stage = .hold k)
    (ho : (s.tick now).holdOver ring.val c.entered = true) :
    ∃ t, exec (.cutOff ring now) s = .next t ∧ t.holds c.order (Cmd.endedWith .cutOff (cplBody [])) ∧
      t.still = { s.tick now with arb := t.arb }.still ∧ (∀ m, t.tenantStill m = s.tenantStill m) ∧
      t.arb = { s.arb with grant := t.arb.grant } ∧
      (∀ j, s.arb.grant = some (ring.val, j) → s.arb.fetching = 0 → t.arb.grant = none) ∧
      t.ringStill ring.val = { s.ringStill ring.val with stopped := true, cause := 3 } ∧ ∀ r, r ≠ ring.val → t.ringStill r = s.ringStill r := by
  have hdo := cutOffDo_hold ((tick_dispatching s now).trans hd) ((tick_waiting s now ring.val).trans hw) hs ho
  have hsame := sameStill_trans (unpause_same (s.tick now) c) (refuse_same _ c .cutOff)
  have hstill := stopRing_still ring.val hsame
  have hmem : ∃ d ∈ (s.tick now).cmds, d.order = c.order := ⟨c, (tick_cmds s now).symm ▸ waiting_mem hw, rfl⟩
  refine ⟨_, exec_cutOff hdo hstill ⟨rfl, rfl, rfl⟩, ?_, hstill, fun m => ?_, ?_, fun j hg hf => ?_, ?_, fun r hr => ?_⟩
  · exact stopRing_holds _ (endedWith_stable _ _) (holds_mono (refuse_named .cutOff (unpause_has c hmem)) fun d h => h.1)
  · rw [stopRing_tenant ring.val hsame, tick_tenantStill]
  · rw [← tick_arb s now]
    exact stopRing_arb ring.val hsame
  · exact stopRing_grant ring.val hsame (by rw [tick_arb, hg]) (by rw [tick_arb, hf])
  · rw [stopRing_same ring.val hsame, tick_ringStill]
  · rw [stopRing_other ring.val hsame hr, tick_ringStill]

end

/-- Settles O42, one cause after the other; the rise of barrier_in is compared with the packet's own row. -/
theorem waitsAndBarrier : Obligations.WaitsAndBarrier := by
  refine ⟨fun ring now s c h => gateTimeout_ends h, fun ring now s c k hd hw hs ho => cutOff_hold hd hw hs ho,
    fun ring now s j hd hw hg hf ho _ => ?_, fun s ha => ?_, fun now s ha hb => ?_, fun now s ring c ha ho hb hw => ?_⟩
  case refine_1 =>
    intro past
    have hfetch := fetchingRing_of_grant hg hf
    have hdo := cutOffDo_fetch (s := s.tick now) ((tick_dispatching s now).trans hd) ((tick_waiting s now ring.val).trans hw)
      (by rw [tick_eq]; exact hfetch) (by rw [tick_arb]; exact ho)
    obtain ⟨harb, hring, hother, htenant, hnext, hstill⟩ := cutFetch_parts (s.tick now) (r := ring.val) (j := j) (by rw [tick_arb]; exact hg)
    rw [tick_fetchCounted, tick_nextOrder] at hnext
    refine ⟨_, exec_cutOff hdo hstill.symm ⟨rfl, rfl, rfl⟩, by rw [harb, tick_arb], ?_, fun k hk => ?_, fun m => ?_, hstill, fun hc => ?_,
      fun hc => ⟨?_, ?_⟩⟩
    · rw [hring, tick_ringPast]
      rfl
    · rw [hother k hk, tick_ringStill]
    · rw [htenant, tick_tenantStill]
    · rw [hnext, if_neg (by simp [hc])]
    · rw [hnext, if_pos hc]
    · have hends := endFetch_holds (s := s.tick now) (r := ring.val) (by rw [tick_fetchCounted]; exact hc) .cutOff
      rw [tick_nextOrder, tick_arb] at hends
      exact stopRing_holds _ ((endedWith_stable _ _).and ((ring_stable _).and (seq_stable _))) hends
  case refine_2 =>
    refine ⟨_, exec_barrierInLow ha, ?_, fun hb => ?_, fun hb hwork c hc => ?_⟩
    · obtain ⟨b, o, hpass⟩ := passOn_frame { s with pins := { s.pins with barrierIn := false } }
      rw [hpass]
      rfl
    · unfold State.passOn
      rw [joinBarrier_busy (by exact hb)]
      exact ⟨rfl, rfl⟩
    · unfold State.passOn
      rw [joinBarrier_joins (by exact hb) rfl (by exact hwork) (by exact hc)]
      exact ⟨rfl, rfl⟩
  case refine_3 =>
    rw [exec_barrierInHigh ha, barrierHighDo_none (show (s.tick now).barrierUp.barrier = none from (tick_barrier s now).trans hb),
      keep_id (x := (s.tick now).barrierUp) (tick_pending s now) (tick_build s now) (tick_mem s now), State.barrierUp, tick_pins]
  case refine_4 =>
    intro v
    have hv : (s.tick now).barrierLeft c = v := by
      simp only [v, State.barrierLeft, tick_pins, tick_cmds, tick_nextOrder]
    have ho' : (s.tick now).ordersOk := by rw [tick_eq]; exact ho
    have hwait := barrierLeft_waiting ho' ((tick_waiting s now ring.val).trans hw)
    have hrow : exec (.barrierInHigh now) s = .next (s.keep (v.dispatchNow ring.val)) := by
      rw [exec_barrierInHigh ha, barrierHighDo_eq ((tick_barrier s now).trans hb) ((tick_waiting s now ring.val).trans hw), hv]
    have htick : v.tick now = v := by rw [← hv]; exact barrierLeft_tick ho (waiting_mem hw)
    have hop : (c.raised c.order (s.tick now).nextOrder).op = c.op := raised_same (p := Cmd.op) (fun _ _ _ => rfl) _ _ c
    have hkeep (x : State) : s.keep x = v.keep x := tick_keep s x now ▸ rfl
    rw [hv] at hwait
    generalize c.raised c.order (s.tick now).nextOrder = d at hwait hop
    refine ⟨⟨_, hrow⟩, fun hctl hclass => ?_, ?_, fun hc hr hs => ?_⟩
    · rw [hrow, dispatchNow_none hwait (by rw [hop]; exact hctl) (by rw [hop]; exact hclass), hkeep]
      rfl
    · have hctl (op : Nat) (f : State → Cmd → State) (i : Instr) (hi : exec i v = .next (v.keep (v.onCtl ring.val op now f)))
          (hf : ctlAction op = f) (hk : isClassOp op = false) (hr : op ≠ opCtxRestore) (hc : c.op = op) : exec (.barrierInHigh now) s = exec i v := by
        obtain rfl : op = d.op := (hop.trans hc).symm
        rw [hrow, dispatchNow_ctl hwait hk hr now htick, hi, hf, hkeep]
      have hclass (op : Nat) (f : State → Cmd → State) (i : Instr) (hi : exec i v = .next (v.keep (v.onClass ring.val op now f)))
          (hf : classAction op = f) (hk : isClassOp op = true) (hc : c.op = op) : exec (.barrierInHigh now) s = exec i v := by
        obtain rfl : op = d.op := (hop.trans hc).symm
        rw [hrow, dispatchNow_class hwait hk now htick, hi, hf, hkeep]
      simp only [List.forall_mem_cons]
      exact ⟨hctl _ _ _ rfl rfl rfl (by decide), hctl _ _ _ rfl rfl rfl (by decide), hctl _ _ _ rfl rfl rfl (by decide),
        hctl _ _ _ rfl rfl rfl (by decide), hctl _ _ _ rfl rfl rfl (by decide), hctl _ _ _ rfl rfl rfl (by decide),
        hctl _ _ _ rfl rfl rfl (by decide), hctl _ _ _ rfl rfl rfl (by decide), hclass _ _ _ rfl rfl rfl, hclass _ _ _ rfl rfl rfl,
        hclass _ _ _ rfl rfl rfl, hclass _ _ _ rfl rfl rfl, hclass _ _ _ rfl rfl rfl, fun _ h => nomatch h⟩
    · rw [hrow, dispatchNow_restore hwait (hop.trans hc) hr hs, hkeep]
      simp only [exec, execCtxRestore, htick]

end Sys2Proof.Machine
end


section
/-! PROOF. The fetch of a packet, its checks, and the retries (R307, R311 to R313, R330, R379). -/

namespace Sys2Proof.Machine

/-! ### The parts of a fetch -/

section
variable {s : State} {r : Nat}

theorem slotRanges_header (g : Ring) (r : Nat) (q : U32) : slotRanges g r q 0 1 =
    [⟨0, false, (g.base.toNat + 64 * (q.toNat % 2 ^ g.log2Slots)) % 2 ^ 64, 64, [], r, q, .fetch, 0, 0⟩] := by
  have hfirst : min 1 (2 ^ g.log2Slots - q.toNat % 2 ^ g.log2Slots) = 1 := by
    have := Nat.mod_lt q.toNat (Nat.two_pow_pos g.log2Slots)
    omega
  unfold slotRanges
  simp [hfirst, slotAddr, addrWrap]
  rfl

/-- The reads of the rest of a packet bring its slots from the second on. -/
theorem slotRanges_sum (g : Ring) (r : Nat) (q : U32) {i n : Nat} (h : i ≤ n) : ((slotRanges g r q i n).map Range.len).sum = 64 * (n - i) := by
  unfold slotRanges
  extract_lets c k
  have hk : k ≤ n - i := Nat.min_le_left _ _
  have hfilter (l : List Range) : ((l.filter fun x => x.len != 0).map Range.len).sum = (l.map Range.len).sum := by
    induction l with
    | nil => rfl
    | cons x l ih =>
      rw [List.filter_cons]
      split
      · rw [List.map_cons, List.sum_cons, ih, List.map_cons, List.sum_cons]
      · rename_i h0
        have h0' : x.len = 0 := by simpa using h0
        rw [ih, List.map_cons, List.sum_cons, h0', Nat.zero_add]
  rw [hfilter]
  simp only [List.map_cons, List.map_nil, List.sum_cons, List.sum_nil]
  omega

theorem mem_slotRanges {g : Ring} {q : U32} {i n : Nat} {x : Range} (h : x ∈ slotRanges g r q i n) :
    x.write = false ∧ x.kind = .fetch ∧ x.ring = r ∧ x.seq = q := by
  have hmem := List.mem_of_mem_filter h
  simp only [List.mem_cons, List.not_mem_nil, or_false] at hmem
  rcases hmem with rfl | rfl <;> exact ⟨rfl, rfl, rfl, rfl⟩

theorem fetchStep_begin (h : s.arb.fetching = 0) (ho : s.open r (s.ring r).head .fetch = false) : s.fetchStep r =
    { s with arb := { s.arb with fetching := 1, since := s.timeNs, beats := 0, fetchSeq := (s.ring r).head, moved := false } }.askSlots
      r (s.ring r).head 0 1 := by
  unfold State.fetchStep
  simp only [h, ho, if_pos, if_neg, Bool.false_eq_true, not_false_eq_true]

section
variable (h : s.arb.fetching = 1) (ho : s.open r s.arb.fetchSeq .fetch = false)
include h ho

theorem fetchStep_short (hn : ringAvail (s.ring r) < s.fetchLen r) :
    s.fetchStep r = (s.cancelFetch r).modRing r fun g => { g with needSlots := s.fetchLen r } := by
  unfold State.fetchStep
  simp [h, ho, hn]

theorem fetchStep_rest (hn : s.fetchLen r ≤ ringAvail (s.ring r)) (h1 : 1 < s.fetchLen r) :
    s.fetchStep r = { s with arb := { s.arb with fetching := 2 } }.askSlots r s.arb.fetchSeq 1 (s.fetchLen r) := by
  unfold State.fetchStep
  simp [h, ho, Nat.not_lt.2 hn, h1]

theorem fetchStep_single (hn : s.fetchLen r ≤ ringAvail (s.ring r)) (h1 : s.fetchLen r = 1) : s.fetchStep r = s.fetched r (s.fetchLen r) := by
  unfold State.fetchStep
  simp [h, ho, Nat.not_lt.2 hn, Nat.not_lt.2 h1.le]

end

theorem fetchStep_last (h : s.arb.fetching = 2) (ho : s.open r s.arb.fetchSeq .fetch = false) : s.fetchStep r = s.fetched r (s.fetchLen r) := by
  unfold State.fetchStep
  simp [h, ho]

end

/-! ### The end of a fetch -/

section
variable (s : State) (r n : Nat)

/-- The first check that the packet in the fetch fails (R311, R339). -/
def State.fetchFault : Option Reason := fetchReason (stripCount s.build) s.acre.cEff (s.slots r s.arb.fetchSeq n)

/-- The packet in the fetch, `n` slots long, as it enters its ring's wait stage (R313). -/
def State.fetchedCmd : Cmd :=
  let p := s.slots r s.arb.fetchSeq n
  (newCmd r s.arb.fetchSeq p s.nextOrder s.timeNs (s.gate (pkWaitGate p))).event 11 (if (s.fetchFault r n).isNone then s.arb.beats else 0)

/-- The ring whose packet has been fetched (R307, R311). -/
def State.fetchedRing : Ring :=
  let bad := s.fetchFault r n == some .badLength
  { s.ring r with
    head := if bad || s.arb.moved then (s.ring r).head else add32 (s.ring r).head n
    needSlots := 0
    stopped := (s.ring r).stopped || bad
    cause := if bad then 2 else (s.ring r).cause }

/-- The block with the packet fetched, before its check speaks. -/
def State.fetchedBlock : State :=
  let u := if (s.fetchFault r n).isNone then s else s.bgEvent 11 s.arb.beats
  { u with
    nextOrder := s.nextOrder + 1
    cmds := s.cmds ++ [s.fetchedCmd r n]
    arb := { s.arb with fetching := 0, beats := 0, grant := s.arb.grant.map fun (e : Nat × Nat) => (e.1, e.2 + 1) }
    rings := tblModify ringReset s.rings r fun _ => s.fetchedRing r n }

/-- The block with the packet in its wait stage, or refused. -/
def State.fetchChecked : State :=
  match s.fetchFault r n with
  | some x => ((s.fetchedBlock r n).refuse (s.fetchedCmd r n) x).settle
  | none => (s.fetchedBlock r n).settle

theorem fetchedBlock_frame : ∃ e, s.fetchedBlock r n = { s with
    nextOrder := s.nextOrder + 1, cmds := s.cmds ++ [s.fetchedCmd r n]
    arb := { s.arb with fetching := 0, beats := 0, grant := s.arb.grant.map fun (e : Nat × Nat) => (e.1, e.2 + 1) }
    rings := tblModify ringReset s.rings r fun _ => s.fetchedRing r n, energy := { s.energy with bgEvents := e } } := by
  unfold State.fetchedBlock
  dsimp only
  split
  · exact ⟨s.energy.bgEvents, rfl⟩
  · exact ⟨_, rfl⟩

theorem fetchedBlock_ring : (s.fetchedBlock r n).ring r = s.fetchedRing r n := by
  obtain ⟨e, h⟩ := fetchedBlock_frame s r n
  rw [h]
  exact tblGet_modify_same ringReset s.rings r fun _ => s.fetchedRing r n

theorem fetchedBlock_other {k : Nat} (hk : k ≠ r) : (s.fetchedBlock r n).ring k = s.ring k := by
  obtain ⟨e, h⟩ := fetchedBlock_frame s r n
  rw [h]
  exact tblGet_modify_ne ringReset s.rings (fun _ => s.fetchedRing r n) hk

theorem fetched_eq : s.fetched r n = (s.fetchChecked r n).dropGrant := by
  unfold State.fetched State.fetchChecked State.fetchedBlock State.fetchedCmd State.fetchedRing State.fetchFault
  dsimp only
  cases fetchReason (stripCount s.build) s.acre.cEff (s.slots r s.arb.fetchSeq n) <;> rfl

theorem fetchChecked_same : (s.fetchedBlock r n).sameStill (s.fetchChecked r n) := by
  unfold State.fetchChecked
  split
  · exact refuse_sameStill _ _ _
  · exact (settle_adv _).same

variable {s r n}

/-- A packet that fails a check is refused with the reason (R311). -/
theorem fetchChecked_refused {x : Reason} (hx : s.fetchFault r n = some x) : (s.fetchChecked r n).holds s.nextOrder fun d =>
    d.endedWith x (cplBody []) ∧ d.ring = r ∧ d.seq = s.arb.fetchSeq ∧ d.pkt = s.slots r s.arb.fetchSeq n := by
  have hlast : s.fetchedCmd r n ∈ (s.fetchedBlock r n).cmds := by
    obtain ⟨e, h⟩ := fetchedBlock_frame s r n
    rw [h]
    exact List.mem_append_right _ (List.mem_singleton_self _)
  unfold State.fetchChecked
  rw [hx]
  exact (settle_adv _).cmds _ _ (named_stable x (s.fetchedCmd r n)) (refuse_named x ⟨_, hlast, rfl⟩)

/-- A packet that fails none waits in its ring's wait stage (R313). -/
theorem fetchChecked_waits (hx : s.fetchFault r n = none) (ho : ∀ d ∈ s.cmds, d.order < s.nextOrder) : (s.fetchChecked r n).holds s.nextOrder
    fun d => d.ring = r ∧ d.seq = s.arb.fetchSeq ∧ d.pkt = s.slots r s.arb.fetchSeq n ∧ d.disp = none := by
  have hcmds : (s.fetchedBlock r n).cmds = s.cmds ++ [s.fetchedCmd r n] := by
    obtain ⟨e, h⟩ := fetchedBlock_frame s r n
    rw [h]
  have hstable : Cmd.Stable fun d => d.ring = r ∧ d.seq = s.arb.fetchSeq ∧ d.pkt = s.slots r s.arb.fetchSeq n ∧ d.disp = none :=
    (ring_stable _).and ((seq_stable _).and ((pkt_stable _).and fun _ _ h hd => h.disp.trans hd))
  unfold State.fetchChecked
  rw [hx]
  refine (settle_adv _).cmds _ _ hstable ⟨⟨_, hcmds ▸ List.mem_append_right _ (List.mem_singleton_self _), rfl⟩, fun d hd hord => ?_⟩
  rw [hcmds, List.mem_append, List.mem_singleton] at hd
  rcases hd with hd | rfl
  · exact absurd hord (ho d hd).ne
  · exact ⟨rfl, rfl, rfl, rfl⟩

end

/-! ### What each part of the row answers -/

section
variable {s : State} {r : Nat}

theorem fetchingRing_of_on (hon : packetFetchOn s r = true) (h : s.arb.fetching ≠ 0) : s.fetchingRing r = true := by
  unfold packetFetchOn at hon
  rw [if_neg h, Bool.and_eq_true] at hon
  exact hon.2

theorem fetchCounted_short (h : s.arb.fetching = 1) (hn : ringAvail (s.ring r) < s.fetchLen r) : s.fetchCounted r = false := by
  unfold State.fetchCounted
  simp [h, hn]

/-- A packet that the slot condition does not let be fetched (R307, R330). -/
theorem fetchStep_short_parts (h : s.arb.fetching = 1) (ho : s.open r s.arb.fetchSeq .fetch = false) (hon : packetFetchOn s r = true)
    (hn : ringAvail (s.ring r) < s.fetchLen r) :
    let t := s.fetchStep r
    t = { s with rings := t.rings, arb := t.arb, queue := t.queue, energy := { s.energy with bgEvents := t.energy.bgEvents } } ∧
      t.arb = { s.arb with fetching := 0, beats := 0, grant := none } ∧ t.ring r = { s.ring r with needSlots := s.fetchLen r } ∧
      ∀ k, k ≠ r → t.ring k = s.ring k := by
  intro t
  have ht : t = (s.fetchDropped r).modRing r fun g => { g with needSlots := s.fetchLen r } := by
    rw [← cancelFetch_dropped (fetchingRing_of_on hon (by omega)) (fetchCounted_short h hn)]
    exact fetchStep_short h ho hn
  clear_value t
  subst ht
  exact ⟨rfl, rfl, modRing_ring_same _ r _, fun k hk => modRing_ring_ne _ _ hk⟩

/-- The rest of a packet is asked for (R307). -/
theorem fetchStep_rest_parts (h : s.arb.fetching = 1) (ho : s.open r s.arb.fetchSeq .fetch = false) (hn : s.fetchLen r ≤ ringAvail (s.ring r))
    (h1 : 1 < s.fetchLen r) :
    let t := s.fetchStep r
    t = { s with arb := { s.arb with fetching := 2 }, queue := t.queue } ∧ ∃ l : List Range, t.queue = s.queue ++ l ∧
      (l.map Range.len).sum = 64 * (s.fetchLen r - 1) ∧ ∀ x ∈ l, x.write = false ∧ x.kind = .fetch ∧ x.ring = r ∧ x.seq = s.arb.fetchSeq := by
  intro t
  have ht : t = { s with
      arb := { s.arb with fetching := 2 }, queue := s.queue ++ slotRanges (s.ring r) r s.arb.fetchSeq 1 (s.fetchLen r) } :=
    (fetchStep_rest h ho hn h1).trans (askSlots_eq _ _ _ _ _)
  clear_value t
  subst ht
  exact ⟨rfl, _, rfl, slotRanges_sum _ _ _ h1.le, fun x hx => mem_slotRanges hx⟩

/-- Once no fetch is open, the grant is left to a ring that goes on requesting (R330). -/
theorem heldGrant_idle {e : Nat × Nat} (h : s.arb.fetching = 0) (hg : s.arb.grant = some e) :
    s.heldGrant = if s.keepsGrant e.1 = true then some e else none := by
  unfold State.heldGrant
  rw [hg]
  dsimp only
  cases s.keepsGrant e.1 <;> simp [h]

/-- The packet is in its wait stage or refused (R307, R311 to R313, R330). -/
theorem fetched_parts (s : State) (r n : Nat) (ho : ∀ d ∈ s.cmds, d.order < s.nextOrder) :
    let t := s.fetched r n
    let b := s.slots r s.arb.fetchSeq n
    let reason := fetchReason (stripCount s.build) s.acre.cEff b
    { s with nextOrder := s.nextOrder + 1, arb := t.arb }.still = t.still ∧ (∀ m, t.tenantStill m = s.tenantStill m) ∧
      t.arb = { s.arb with fetching := 0, beats := 0, grant := t.arb.grant } ∧
      (∀ e, s.arb.grant = some e → t.arb.grant = if t.keepsGrant e.1 = true then some (e.1, e.2 + 1) else none) ∧
      (∀ k, k ≠ r → t.ringStill k = s.ringStill k) ∧
      t.ringStill r = { s.ringStill r with
        needSlots := 0, head := if reason = some .badLength ∨ s.arb.moved = true then (s.ring r).head else (s.ring r).head + BitVec.ofNat 32 n
        stopped := (s.ring r).stopped || decide (reason = some .badLength), cause := if reason = some .badLength then 2 else (s.ring r).cause } ∧
      (∀ x, reason = some x → t.holds s.nextOrder fun d => d.endedWith x (cplBody []) ∧ d.ring = r ∧ d.seq = s.arb.fetchSeq ∧ d.pkt = b) ∧
      (reason = none → t.holds s.nextOrder fun d => d.ring = r ∧ d.seq = s.arb.fetchSeq ∧ d.pkt = b ∧ d.disp = none) := by
  intro t b reason
  obtain ⟨hstill, hring, htenant⟩ := fetchChecked_same s r n
  have ht : t = { s.fetchChecked r n with arb := { (s.fetchChecked r n).arb with grant := (s.fetchChecked r n).heldGrant } } :=
    (fetched_eq s r n).trans (dropGrant_eq _)
  obtain ⟨e, hblock⟩ := fetchedBlock_frame s r n
  have harb := still_arb hstill
  rw [hblock] at harb
  clear_value t
  subst ht
  refine ⟨?_, fun m => ?_, ?_, fun e he => ?_, fun k hk => ?_, ?_, fun x hx => fetchChecked_refused hx, fun hx => fetchChecked_waits hx ho⟩
  · have ht : ({ s.fetchChecked r n with arb := { (s.fetchChecked r n).arb with grant := (s.fetchChecked r n).heldGrant } } : State).still =
        { (s.fetchChecked r n).still with arb := { (s.fetchChecked r n).arb with grant := (s.fetchChecked r n).heldGrant } } := rfl
    rw [ht, hstill, hblock]
    rfl
  · refine (htenant m).trans ?_
    rw [hblock]
    rfl
  · rw [harb]
  · exact heldGrant_idle (e := (e.1, e.2 + 1)) (by rw [harb]) (by rw [harb, he]; rfl)
  · refine (hring k).trans ?_
    rw [State.ringStill, fetchedBlock_other s r n hk]
    rfl
  · refine (hring r).trans ?_
    rw [State.ringStill, fetchedBlock_ring]
    unfold State.fetchedRing
    rw [show s.fetchFault r n = reason from rfl]
    generalize reason = x
    by_cases hx : x = some .badLength
    · simp [hx, State.ringStill]
    · simp [hx, State.ringStill, add32]

theorem fetched_base (s : State) (r n : Nat) : SameBase s (s.fetched r n) := by
  obtain ⟨e, hblock⟩ := fetchedBlock_frame s r n
  have hsame : SameBase s (s.fetchedBlock r n) := by rw [hblock]; exact ⟨rfl, rfl, rfl⟩
  have hchecked := hsame.of_still (fetchChecked_same s r n)
  rw [fetched_eq, dropGrant_eq]
  exact ⟨hchecked.pending, hchecked.build, hchecked.mem⟩

theorem fetchStep_base (s : State) (r : Nat) : SameBase s (s.fetchStep r) := by
  unfold State.fetchStep
  extract_lets q
  split
  · exact ⟨rfl, rfl, rfl⟩
  split
  · rw [askSlots_eq]
    exact ⟨rfl, rfl, rfl⟩
  split
  · exact fetched_base s r _
  split
  · unfold State.cancelFetch
    split <;> exact ⟨rfl, rfl, rfl⟩
  split
  · rw [askSlots_eq]
    exact ⟨rfl, rfl, rfl⟩
  · exact fetched_base s r _

/-- A row's frame changes nothing where its step does not. -/
theorem keep_ticked {x : State} {now : Time} (h : SameBase (s.tick now) x) : s.keep x = x :=
  keep_id (h.pending.trans (tick_pending s now)) (h.build.trans (tick_build s now)) (h.mem.trans (tick_mem s now))

theorem exec_packetFetch {ring : Fin 64} {now : Time} (hon : packetFetchOn (s.tick now) ring.val = true) :
    exec (.packetFetch ring now) s = .next ((s.tick now).fetchStep ring.val) := by
  rw [← keep_ticked (fetchStep_base (s.tick now) ring.val)]
  exact congrArg (Host.Outcome.next <| s.keep ·) (if_pos hon)

/-! ### The retries (R379) -/

theorem exec_fetchRetry {ring : Fin 64} {now : Time} (hd : s.dispatching = true) :
    exec (.fetchRetry ring now) s = .next ((s.tick now).modRing ring.val fun g => { g with fetchFailed := false }) := by
  rw [← keep_ticked (x := (s.tick now).modRing ring.val fun g => { g with fetchFailed := false }) ⟨rfl, rfl, rfl⟩]
  exact congrArg (Host.Outcome.next <| s.keep ·) (if_pos ((tick_dispatching s now).trans hd))

/-- The block with the failed record of ring `r` asked for again. -/
def State.recordAsked (s : State) (r : Nat) (c : Cmd) : State := { s.modRing r fun g => { g with cplFailed := false } with
  queue := s.queue ++ [⟨0, true, ((s.ring r).cplBase.toNat + 128 * ((s.ring r).cplTail.toNat % 2 ^ (s.ring r).log2Entries)) % 2 ^ 64,
    128, recordBytes (s.ring r) c, r, c.seq, .cpl, 0, 0⟩] }

theorem recordAsked_ring (c : Cmd) : (s.recordAsked r c).ring r = { s.ring r with cplFailed := false } :=
  modRing_ring_same s r fun g => { g with cplFailed := false }

theorem recordAsked_other (c : Cmd) {k : Nat} (h : k ≠ r) : (s.recordAsked r c).ring k = s.ring k :=
  modRing_ring_ne s (fun g => { g with cplFailed := false }) h

theorem cplRetryDo_eq {c : Cmd} (hl : s.live) (hb : (s.ring r).cplBusy = true) (hf : (s.ring r).cplFailed = true) (hc : s.recorded r = some c) :
    cplRetryDo r s = s.recordAsked r c := by
  have hlen : (recordBytes (s.ring r) c).length = 128 := padTo_length 128 _
  unfold cplRetryDo
  rw [if_pos (by simp [hl.1, hl.2, hb, hf])]
  simp only [hc, State.askWrite, State.ask, hlen]
  rfl

theorem exec_cplWriteRetry {ring : Fin 64} {now : Time} {c : Cmd} (hl : s.live) (hb : (s.ring ring.val).cplBusy = true)
    (hf : (s.ring ring.val).cplFailed = true) (hc : s.recorded ring.val = some c) :
    exec (.cplWriteRetry ring now) s = .next ((s.tick now).recordAsked ring.val c) := by
  have hdo : cplRetryDo ring.val (s.tick now) = (s.tick now).recordAsked ring.val c := by
    refine cplRetryDo_eq ⟨(tick_running s now).trans hl.1, (tick_halted s now).trans hl.2⟩ (by rwa [tick_ring]) (by rwa [tick_ring]) ?_
    rw [tick_eq]
    exact hc
  rw [← keep_ticked (x := (s.tick now).recordAsked ring.val c) ⟨rfl, rfl, rfl⟩, ← hdo]
  rfl

end

/-- Settles O41: each part of the fetch, then the two retries. -/
theorem packetFetches : Obligations.PacketFetches := by
  refine ⟨fun ring now s => ?_, fun ring now s hd => ?_, fun ring now s c hl hb hf hc => ?_⟩
  · intro u g q p n hon hopen
    have hopen' (h : u.arb.fetching ≠ 0) : u.open ring.val u.arb.fetchSeq .fetch = false := by rwa [if_neg h] at hopen
    refine ⟨_, exec_packetFetch hon, fun h => ?_, fun h hn => ?_, fun h hn h1 => ?_, fun h ho => ?_⟩
    · have ht := fetchStep_begin h (by rwa [if_pos h] at hopen)
      rw [askSlots_eq, slotRanges_header] at ht
      exact ht
    · exact fetchStep_short_parts h (hopen' (by omega)) hon hn
    · exact fetchStep_rest_parts h (hopen' (by omega)) hn h1
    · have hstep : u.fetchStep ring.val = u.fetched ring.val n := by
        rcases h with ⟨h, hn, h1⟩ | h
        · exact fetchStep_single h (hopen' (by omega)) hn h1
        · exact fetchStep_last h (hopen' (by omega))
      rw [hstep]
      exact fetched_parts u ring.val n ho
  · exact ⟨_, exec_fetchRetry hd, rfl, (modRing_ring_same ..).trans (by rw [tick_ring]),
      fun r hr => (modRing_ring_ne _ _ hr).trans (tick_ring s now r)⟩
  · refine ⟨_, exec_cplWriteRetry hl hb hf hc, rfl, (recordAsked_ring c).trans (by rw [tick_ring]),
      fun r hr => (recordAsked_other c hr).trans (tick_ring s now r), ?_⟩
    unfold State.recordAsked
    rw [tick_ring, tick_queue]

end Sys2Proof.Machine
end


section
/-! PROOF. Fetch orders name packets (R307, R312; log 5, log 26), first part: the operations that the rows share. One lemma per
operation: no packet gets another fetch order, and the next packet's stays new. -/

namespace Sys2Proof.Machine

/-! ### How the orders are kept -/

theorem ordersOk_of {s t : State} (h : s.ordersOk) (ho : t.orders = s.orders) (hn : t.nextOrder = s.nextOrder) : t.ordersOk := by
  have hiff (u : State) : u.ordersOk ↔ u.orders.Nodup ∧ ∀ o ∈ u.orders, o < u.nextOrder := by
    unfold State.ordersOk State.orders
    rw [List.forall_mem_map]
  rw [hiff] at h ⊢
  rw [ho, hn]
  exact h

theorem ordersOk_ite {p : Prop} [Decidable p] {t u : State} (ht : t.ordersOk) (hu : u.ordersOk) : (if p then t else u).ordersOk := by
  split
  · exact ht
  · exact hu

theorem ordersOk_foldl {α : Type} {f : State → α → State} (hf : ∀ t x, t.ordersOk → (f t x).ordersOk) (l : List α) {s : State} (h : s.ordersOk) :
    (l.foldl f s).ordersOk := by
  induction l generalizing s with
  | nil => exact h
  | cons x l ih => exact ih (hf s x h)

theorem ordersOk_foldr {α : Type} {f : α → State → State} (hf : ∀ x t, t.ordersOk → (f x t).ordersOk) (l : List α) {s : State} (h : s.ordersOk) :
    (l.foldr f s).ordersOk := by
  induction l with
  | nil => exact h
  | cons x l ih => exact hf x _ ih

theorem ordersOk_foldl_fst {α β : Type} {f : State × β → α → State × β} (hf : ∀ a x, a.1.ordersOk → (f a x).1.ordersOk) (l : List α)
    {a : State × β} (h : a.1.ordersOk) : (l.foldl f a).1.ordersOk := by
  induction l generalizing a with
  | nil => exact h
  | cons x l ih => exact ih (hf a x h)

section
variable {s : State} (h : s.ordersOk)
include h

theorem Quiet.ordersOk {t : State} (k : Quiet s t) : t.ordersOk := ordersOk_of h k.orders (still_nextOrder k.still)

/-- Each packet becomes one with its order. -/
theorem ordersOk_map {f : Cmd → Cmd} (hf : ∀ c, (f c).order = c.order) : ({ s with cmds := s.cmds.map f } : State).ordersOk :=
  ordersOk_of h (map_orders hf) rfl

/-- The next number is given away. -/
theorem ordersOk_next : ({ s with nextOrder := s.nextOrder + 1 } : State).ordersOk :=
  ⟨h.1, fun c hc => Nat.lt_succ_of_lt (h.2 c hc)⟩

/-- Packets leave. -/
theorem ordersOk_filter (p : Cmd → Bool) : ({ s with cmds := s.cmds.filter p } : State).ordersOk :=
  ⟨h.1.sublist (List.filter_sublist.map _), fun c hc => h.2 c (List.mem_of_mem_filter hc)⟩

/-- A packet comes with the next number. -/
theorem ordersOk_append {c : Cmd} (hc : c.order = s.nextOrder) : (s.addCmd c).ordersOk := by
  obtain ⟨hnodup, hlt⟩ := h
  constructor
  · show ((s.cmds ++ [c]).map Cmd.order).Nodup
    rw [List.map_append, List.nodup_append]
    refine ⟨hnodup, List.nodup_singleton _, fun o ho o' ho' => ?_⟩
    obtain ⟨d, hd, rfl⟩ := List.mem_map.1 ho
    rw [List.map_singleton, List.mem_singleton] at ho'
    have := hlt d hd
    omega
  · intro d hd
    show d.order < s.nextOrder + 1
    rcases List.mem_append.1 hd with hd | hd
    · exact Nat.lt_succ_of_lt (hlt d hd)
    · rw [List.mem_singleton.1 hd, hc]
      exact Nat.lt_succ_self _

/-! ### Parts of the state beside the packets -/

theorem energy_ordersOk (e : Energy) : ({ s with energy := e } : State).ordersOk := h

theorem flt_ordersOk (f : Flt) : ({ s with flt := f } : State).ordersOk := h

theorem modPort_ordersOk (k : Nat) (f : Port → Port) : (s.modPort k f).ordersOk := h

theorem modRing_ordersOk (r : Nat) (f : Ring → Ring) : (s.modRing r f).ordersOk := h

theorem modTenant_ordersOk (n : Nat) (f : Tenant → Tenant) : (s.modTenant n f).ordersOk := h

theorem modStrip_ordersOk (n : Nat) (f : Strip → Strip) : (s.modStrip n f).ordersOk := h

theorem modField_ordersOk (n : Nat) (f : Field → Field) : (s.modField n f).ordersOk := h

theorem raise_ordersOk (i : Nat) : (s.raise i).ordersOk := h

/-! ### Packets -/

theorem setCmd_ordersOk (c : Cmd) : (s.setCmd c).ordersOk := ordersOk_of h (setCmd_orders s c) rfl

theorem modCmd_ordersOk (r : Nat) (q : U32) (f : Cmd → Cmd) : (s.modCmd r q f).ordersOk := by
  unfold State.modCmd
  split
  · exact setCmd_ordersOk h _
  · exact h

theorem gateAdd_ordersOk (g : Nat) (v : U32) : (s.gateAdd g v).ordersOk := ordersOk_map h (gateRelease_order g _)

theorem tick_ordersOk (now : Time) : (s.tick now).ordersOk := by
  rw [tick_eq]
  exact h

/-! ### Counters, events and interrupts -/

theorem perfAdd_ordersOk (n k : Nat) : (s.perfAdd n k).ordersOk := ordersOk_ite h h

theorem phaseCycles_ordersOk (k : Nat) : (s.phaseCycles k).ordersOk := ordersOk_ite (perfAdd_ordersOk h 0 k) (perfAdd_ordersOk h 0 k)

theorem flushPhase_ordersOk : s.flushPhase.ordersOk := by
  unfold State.flushPhase
  split
  · exact phaseCycles_ordersOk (modCmd_ordersOk h _ _ _) _
  · exact h

theorem event_ordersOk (r : Nat) (q : U32) (c k : Nat) : (s.event r q c k).ordersOk := by
  unfold State.event
  split
  · exact ordersOk_ite h (setCmd_ordersOk h _)
  · exact h

theorem charge_ordersOk (g : Range) (c k : Nat) : (s.charge g c k).ordersOk := ordersOk_ite h (event_ordersOk h _ _ _ _)

theorem corrected_ordersOk (n : Nat) : (s.corrected n).ordersOk := ordersOk_ite h h

theorem ueInfo_ordersOk (region word : Nat) : (s.ueInfo region word).ordersOk := ordersOk_ite h h

/-! ### Ranges -/

theorem ask_ordersOk (g : Range) : (s.ask g).ordersOk := ordersOk_ite h h

theorem askRead_ordersOk (k : Traffic) (r : Nat) (q : U32) (i a n : Nat) : (s.askRead k r q i a n).ordersOk := ask_ordersOk h _

theorem askWrite_ordersOk (k : Traffic) (r : Nat) (q : U32) (i a : Nat) (b : List Byte) : (s.askWrite k r q i a b).ordersOk := ask_ordersOk h _

theorem output_ordersOk (c : Cmd) (k : Traffic) (r i a : Nat) (b : List Byte) : (s.output c k r i a b).ordersOk :=
  ordersOk_ite (ordersOk_ite (modCmd_ordersOk h _ _ _) h) (ask_ordersOk (ordersOk_ite (modCmd_ordersOk h _ _ _) h) _)

/-! ### The pair -/

theorem sendPair_ordersOk (t : Nat) (p : List Byte) : (s.sendPair t p).ordersOk := ordersOk_ite h (ordersOk_ite h h)

theorem tell_ordersOk (k : Nat) (c : Cmd) (n d : Bool) (a b : Nat) : (s.tell k c n d a b).ordersOk := ordersOk_ite (sendPair_ordersOk h _ _) h

theorem takeCommit_ordersOk (c : Cmd) : (s.takeCommit c).ordersOk := ordersOk_ite h h

theorem openCommit_ordersOk (c : Cmd) (r : Reason) : (s.openCommit c r).ordersOk :=
  tell_ordersOk (takeCommit_ordersOk (setCmd_ordersOk h _) c) _ _ _ _ _ _

theorem setPair_ordersOk (st : Nat) : (s.setPair st).ordersOk := ordersOk_ite h h

theorem linkDown_ordersOk : s.linkDown.ordersOk := ordersOk_ite (setPair_ordersOk (by exact h) 4) h

theorem diverge_ordersOk (r : Nat) (q crc : U32) : (s.diverge r q crc).ordersOk :=
  setPair_ordersOk (by exact ordersOk_ite (p := s.secondary = true) (sendPair_ordersOk h _ _) h) 4

theorem tookTurn_ordersOk (c : Cmd) : (s.tookTurn c).ordersOk := ordersOk_ite h (tell_ordersOk h _ _ _ _ _ _)

/-! ### The end of a command -/

theorem leaveBarrier_ordersOk (r : Nat) : (s.leaveBarrier r).ordersOk := ordersOk_ite h h

theorem finish_ordersOk (c : Cmd) (r : Reason) (b : Body) : (s.finish c r b).ordersOk :=
  ordersOk_of h (finish_orders s c r b) (still_nextOrder (finish_still s c r b).1.1)

theorem refuse_ordersOk (c : Cmd) (r : Reason) : (s.refuse c r).ordersOk :=
  ordersOk_of h (refuse_orders s c r) (still_nextOrder (refuse_same s c r).1)

theorem unreserve_ordersOk (p : StripStep) : (s.unreserve p).ordersOk := ordersOk_ite h h

theorem fieldLeft_ordersOk (c : Cmd) : (s.fieldLeft c).ordersOk := ordersOk_ite h (ordersOk_ite h h)

theorem closeMerge_ordersOk (c : Cmd) (r : Reason) : (s.closeMerge c r).ordersOk := by
  unfold State.closeMerge
  split
  · exact finish_ordersOk h _ _ _
  · exact ordersOk_ite (setCmd_ordersOk h _) (finish_ordersOk (setCmd_ordersOk h _) _ _ _)

theorem endMergeOf_ordersOk (c : Cmd) (r : Reason) : (s.endMergeOf c r).ordersOk := by
  unfold State.endMergeOf
  split
  · exact closeMerge_ordersOk h _ _
  · exact h

theorem endWork_ordersOk (c : Cmd) (r : Reason) : (s.endWork c r).ordersOk := by
  unfold State.endWork
  extract_lets d₀ w d s₁ s₂ steps
  have h₂ : s₂.ordersOk := fieldLeft_ordersOk (by exact ordersOk_ite (p := r = .saved) h h) d
  clear_value s₂ steps d
  refine ordersOk_ite (closeMerge_ordersOk h₂ _ _) (ordersOk_ite ?_ (endMergeOf_ordersOk (finish_ordersOk h₂ _ _ _) _ _))
  have h₃ := ordersOk_foldl (f := fun s p => if p.committed then s else s.unreserve p) (fun t p ht => ordersOk_ite ht (unreserve_ordersOk ht p)) steps h₂
  exact endMergeOf_ordersOk (by exact setCmd_ordersOk h₃ _) _ _

theorem endCmd_ordersOk (c : Cmd) (r : Reason) : (s.endCmd c r).ordersOk := ordersOk_ite (endWork_ordersOk h c r) (refuse_ordersOk h c r)

/-! ### What comes about by itself -/

theorem joinBarrier_ordersOk : s.joinBarrier.ordersOk := (joinBarrier_quiet s).ordersOk h

theorem markTurns_ordersOk : s.markTurns.ordersOk := ordersOk_map h fun c => (marked_later _ c).order

theorem passOn_ordersOk : s.passOn.ordersOk := markTurns_ordersOk (joinBarrier_ordersOk h)

theorem settle_ordersOk : s.settle.ordersOk := ordersOk_of h (settle_orders s) (settle_nextOrder s)

theorem pumpRing_ordersOk (r : Nat) : (s.pumpRing r).ordersOk := by
  unfold State.pumpRing
  extract_lets g
  split
  · exact h
  · exact ordersOk_ite (askWrite_ordersOk (by exact setCmd_ordersOk h _) _ _ _ _ _ _) h

theorem grantPool_ordersOk (c : Cmd) : (s.grantPool c).ordersOk := setCmd_ordersOk h _

theorem grantAtDispatch_ordersOk (c : Cmd) : (s.grantAtDispatch c).ordersOk := ordersOk_ite (grantPool_ordersOk h c) h

theorem takeHalves_ordersOk (c : Cmd) : (s.takeHalves c).ordersOk :=
  ordersOk_ite (ordersOk_map h fun d => by split <;> rfl) h

theorem dropGrant_ordersOk : s.dropGrant.ordersOk := by
  rw [dropGrant_eq]
  exact h

/-! ### Dispatch -/

theorem ctlDone_ordersOk (c : Cmd) (r : Reason) (b : Body) : (s.ctlDone c r b).ordersOk :=
  settle_ordersOk (finish_ordersOk (ordersOk_next (tookTurn_ordersOk h c)) _ r b)

theorem enqueue_ordersOk (c : Cmd) : (s.enqueue c).ordersOk :=
  ordersOk_next (grantAtDispatch_ordersOk (setCmd_ordersOk (tookTurn_ordersOk h c) _) _)

theorem onCtl_ordersOk {r op : Nat} {now : Time} {f : State → Cmd → State} (hf : ∀ t c, t.ordersOk → (f t c).ordersOk) :
    (s.onCtl r op now f).ordersOk := by
  unfold State.onCtl
  extract_lets t
  split
  · exact hf _ _ (tick_ordersOk h now)
  · exact tick_ordersOk h now

theorem onClass_ordersOk {r op : Nat} {now : Time} {f : State → Cmd → State} (hf : ∀ t c, t.ordersOk → (f t c).ordersOk) :
    (s.onClass r op now f).ordersOk := by
  unfold State.onClass
  extract_lets t
  split
  · exact hf _ _ (tick_ordersOk h now)
  · exact tick_ordersOk h now

/-- A register write is performed or refused. -/
theorem regWrite_ordersOk {f : State → State} (hf : ∀ t, t.ordersOk → (f t).ordersOk) : (s.regWrite f).ordersOk :=
  ordersOk_ite h (ordersOk_ite h (ordersOk_ite h (hf s h)))

end

end Sys2Proof.Machine
end


section
/-! PROOF. Fetch orders name packets, second part: the fetch, the ports, the resets, the pair and the energy accounts. -/

namespace Sys2Proof.Machine

section
variable {s : State} (h : s.ordersOk)
include h

/-! ### The registers of rings -/

theorem askSlots_ordersOk (r : Nat) (q : U32) (i n : Nat) : (s.askSlots r q i n).ordersOk := by
  rw [askSlots_eq]
  exact h

theorem cancelFetch_ordersOk (r : Nat) : (s.cancelFetch r).ordersOk := ordersOk_ite h h

theorem doorbellDo_ordersOk (r : Nat) (v : U32) : (doorbellDo r v s).ordersOk := by
  refine dropGrant_ordersOk (s := State.modRing _ _ _) ?_
  obtain ⟨a, q, e, hbell⟩ := beforeBell_frame s r
  have hb : (s.beforeBell r).ordersOk := by rw [hbell]; exact h
  exact hb

theorem ringCfgDo_ordersOk (r reg : Nat) (v : U32) : (ringCfgDo r reg v s).ordersOk :=
  dropGrant_ordersOk (by exact ordersOk_ite (p := s.ringQuiet r = true) (cancelFetch_ordersOk h r) h)

theorem cplHeadDo_ordersOk (r : Nat) (v : U32) : (cplHeadDo r v s).ordersOk := dropGrant_ordersOk (pumpRing_ordersOk (by exact h) r)

theorem gateWriteDo_ordersOk (g : Nat) (v : U32) : (gateWriteDo g v s).ordersOk := passOn_ordersOk (gateAdd_ordersOk h g v)

theorem seedPorts_ordersOk (v : U32) : (s.seedPorts v).ordersOk := by
  refine ordersOk_foldl (f := fun s k => s.modPort k fun p => { p with lot := portLot v k }) (fun t k ht => ?_) _ h
  exact ht

/-! ### Draws and fetches -/

theorem drawRing_ordersOk (short : BitVec 64) (l : U32) : (s.drawRing short l).ordersOk := by
  unfold State.drawRing
  extract_lets rs
  split
  · exact h
  · exact ordersOk_ite h h

/-- A packet that is fetched takes the next number. -/
theorem fetchedBlock_ordersOk (r n : Nat) : (s.fetchedBlock r n).ordersOk := by
  obtain ⟨e, hblock⟩ := fetchedBlock_frame s r n
  rw [hblock]
  exact ordersOk_append h (c := s.fetchedCmd r n) rfl

theorem fetched_ordersOk (r n : Nat) : (s.fetched r n).ordersOk := by
  rw [fetched_eq]
  refine dropGrant_ordersOk ?_
  unfold State.fetchChecked
  split
  · exact settle_ordersOk (refuse_ordersOk (fetchedBlock_ordersOk h r n) _ _)
  · exact settle_ordersOk (fetchedBlock_ordersOk h r n)

theorem fetchStep_ordersOk (r : Nat) : (s.fetchStep r).ordersOk := by
  unfold State.fetchStep
  extract_lets q
  refine ordersOk_ite h (ordersOk_ite (askSlots_ordersOk (by exact h) _ _ _ _) (ordersOk_ite (fetched_ordersOk h _ _) ?_))
  exact ordersOk_ite (cancelFetch_ordersOk h r) (ordersOk_ite (askSlots_ordersOk (by exact h) _ _ _ _) (fetched_ordersOk h _ _))

/-- A fetch that ends early gives its packet the next number where it counts as fetched (R312). -/
theorem endFetch_ordersOk (r : Nat) (x : Reason) : (s.endFetch r x).ordersOk := by
  obtain ⟨l, q, e, hover⟩ := fetchOver_frame s r
  cases hc : s.fetchCounted r with
  | true =>
    rw [endFetch_counted hc]
    refine refuse_ordersOk (ordersOk_append (s := s.fetchOver r) ?_ ?_) _ _
    · rw [hover]; exact h
    · rw [hover]; rfl
  | false =>
    rw [endFetch_uncounted hc, hover]
    exact h

theorem abortFetch_ordersOk : s.abortFetch.ordersOk := by
  unfold State.abortFetch
  split
  · exact ordersOk_ite h (endFetch_ordersOk h _ _)
  · exact h

theorem unpause_ordersOk (c : Cmd) : (s.unpause c).ordersOk := ordersOk_ite (modCmd_ordersOk h _ _ _) h

theorem stopRing_ordersOk (r : Nat) : (s.stopRing r).ordersOk := settle_ordersOk (dropGrant_ordersOk (by exact h))

theorem cutOffDo_ordersOk (r : Nat) : (cutOffDo r s).ordersOk := by
  unfold cutOffDo
  split
  · split
    · exact ordersOk_ite (stopRing_ordersOk (refuse_ordersOk (unpause_ordersOk h _) _ _) r) h
    · exact h
  · exact ordersOk_ite (stopRing_ordersOk (endFetch_ordersOk h r _) r) h

/-! ### Transfers and ports -/

theorem present_ordersOk (k tag op : Nat) (g : Range) : (s.present k tag op g).ordersOk :=
  ordersOk_ite (perfAdd_ordersOk (charge_ordersOk (by exact h) _ _ _) _ _) h

theorem probeIssue_ordersOk : s.probeIssue.ordersOk := by
  unfold State.probeIssue
  split
  · exact h
  · exact ordersOk_ite (present_ordersOk (by exact h) _ _ _ _) h

theorem bootFail_ordersOk (code detail : Nat) : (s.bootFail code detail).ordersOk := ordersOk_ite h h

theorem failClass_ordersOk (c : Cmd) (k : Traffic) (i a : Nat) : (s.failClass c k i a).ordersOk :=
  ordersOk_ite (setCmd_ordersOk h _) (ordersOk_ite (setCmd_ordersOk h _) (ordersOk_ite (setCmd_ordersOk h _)
    (ordersOk_ite (refuse_ordersOk h _ _) (endWork_ordersOk h _ _))))

theorem failTraffic_ordersOk (g : Range) (port : Nat) : (s.failTraffic g port).ordersOk := by
  unfold State.failTraffic
  split
  · exact h
  · exact h
  · exact bootFail_ordersOk h _ _
  · exact bootFail_ordersOk h _ _
  · exact h
  · exact h
  · split
    · exact h
    · exact ordersOk_ite h (ordersOk_ite (failClass_ordersOk h _ _ _ _) (refuse_ordersOk (unpause_ordersOk h _) _ _))

theorem probeEnd_ordersOk (code : Nat) : (s.probeEnd code).ordersOk := h

theorem failXfer_ordersOk (x : Xfer) (code : Nat) : (s.failXfer x code).ordersOk := by
  have hport := raise_ordersOk (raise_ordersOk (modPort_ordersOk h x.port (failPort x.op x.range.mover x.start code)) 6) 1
  have hfail := failTraffic_ordersOk hport x.range x.port
  exact ordersOk_ite (probeEnd_ordersOk hfail code) hfail

theorem again_ordersOk (g : Range) : (s.again g).ordersOk := ordersOk_ite h (ordersOk_ite h h)

theorem endXfer_ordersOk (x : Xfer) (code : RspCode) : (s.endXfer x code).ordersOk := by
  unfold State.endXfer
  split
  · exact ordersOk_ite h h
  · exact ordersOk_ite (again_ordersOk h _) (failXfer_ordersOk h _ _)
  · exact failXfer_ordersOk h _ _
  · exact failXfer_ordersOk h _ _

theorem reissueWrites_ordersOk (k : Nat) : (s.reissueWrites k).ordersOk := ordersOk_foldr (fun g _ ht => again_ordersOk ht g) _ (by exact h)

theorem resetPort_ordersOk (k : Nat) : (s.resetPort k).ordersOk := by
  unfold State.resetPort
  extract_lets mine u v w x
  have hw : w.ordersOk := ordersOk_foldr (fun g _ ht => again_ordersOk ht g) _ (by exact h)
  have hx : x.ordersOk := ordersOk_foldl (fun _ y ht => failXfer_ordersOk ht y 2) _ hw
  exact probeIssue_ordersOk (ordersOk_ite (reissueWrites_ordersOk hx k) hx)

theorem protoError_ordersOk (k cause : Nat) : (s.protoError k cause).ordersOk :=
  resetPort_ordersOk (raise_ordersOk (raise_ordersOk (modPort_ordersOk h k _) 6) 2) k

theorem bootAdvance_ordersOk : s.bootAdvance.ordersOk := ordersOk_ite (askRead_ordersOk (by exact h) _ _ _ _ _ _) h

theorem drawMover_ordersOk (k : Nat) (l : U32) : (s.drawMover k l).ordersOk := by
  unfold State.drawMover
  extract_lets rs
  split
  · exact h
  · exact ordersOk_ite h h

theorem granted_ordersOk (k cycles : Nat) : (s.granted k cycles).ordersOk := by
  unfold State.granted
  extract_lets n
  split
  · exact ordersOk_ite h (drawMover_ordersOk h _ _)
  · exact drawMover_ordersOk h _ _

theorem endGrant_ordersOk (k : Nat) : (s.endGrant k).ordersOk := by
  unfold State.endGrant
  split
  · exact ordersOk_ite h h
  · exact h

theorem endGrants_ordersOk : s.endGrants.ordersOk := ordersOk_foldl (fun _ k ht => endGrant_ordersOk ht k) _ h

theorem issue_ordersOk (k tag : Nat) (g : Range) : (s.issue k tag g).ordersOk := endGrant_ordersOk (by exact present_ordersOk h _ _ _ _) k

theorem issueDo_ordersOk (k m tag cycles : Nat) : (issueDo k m tag cycles s).ordersOk := by
  have hp := probeIssue_ordersOk h
  have hg := granted_ordersOk hp k cycles
  unfold issueDo
  extract_lets u
  split
  · refine ordersOk_ite hp ?_
    split
    · exact ordersOk_ite (issue_ordersOk hg _ _ _) hg
    · exact hg
  · exact hp

theorem readBeat_ordersOk (g : Range) : (s.readBeat g).ordersOk :=
  ordersOk_ite (perfAdd_ordersOk h 13 1) (charge_ordersOk (perfAdd_ordersOk h 13 1) _ _ _)

theorem takeBeat_ordersOk (x : Xfer) (code : RspCode) : (s.takeBeat x code).ordersOk :=
  ordersOk_ite (settle_ordersOk (endXfer_ordersOk (by exact readBeat_ordersOk h _) _ _)) (readBeat_ordersOk h x.range)

theorem takeAck_ordersOk (x : Xfer) (code : RspCode) : (s.takeAck x code).ordersOk := settle_ordersOk (endXfer_ordersOk (by exact h) x code)

theorem portCtlDo_ordersOk (k : Nat) (v : U32) : (portCtlDo k v s).ordersOk := ordersOk_ite (endGrants_ordersOk (by exact h)) h

theorem probeGoDo_ordersOk (v : U32) : (probeGoDo v s).ordersOk :=
  ordersOk_ite h (ordersOk_ite h (ordersOk_ite (probeIssue_ordersOk (by exact h)) h))

/-! ### Resets and the effective width -/

theorem clearFn_ordersOk (n : Nat) : (s.clearFn n).ordersOk := by
  unfold State.clearFn
  split
  · exact h
  · exact h
  · exact h
  · exact h
  · exact linkDown_ordersOk h
  · exact h

theorem fnNow_ordersOk (n : Nat) : (s.fnNow n).ordersOk := by
  unfold State.fnNow
  refine ordersOk_ite h ?_
  extract_lets u _ v w x
  have hu : u.ordersOk := ordersOk_ite (flushPhase_ordersOk h) h
  have hw : w.ordersOk := ordersOk_ite (abortFetch_ordersOk (by exact hu)) hu
  have hx : x.ordersOk := by
    refine ordersOk_foldl (fun t c ht => ?_) _ hw
    split
    · exact ht
    · split
      · exact ordersOk_ite ht (endCmd_ordersOk (unpause_ordersOk ht _) _ _)
      · exact ht
  exact settle_ordersOk (clearFn_ordersOk hx n)

theorem fnStart_ordersOk (n : Nat) : (s.fnStart n).ordersOk := ordersOk_ite h (fnNow_ordersOk h n)

theorem afterCommit_ordersOk : s.afterCommit.ordersOk := ordersOk_ite (fnNow_ordersOk (by exact h) 4) h

theorem fnAuto_ordersOk (n : Nat) : (s.fnAuto n).ordersOk := fnStart_ordersOk h n

theorem checkReplace_ordersOk : s.checkReplace.ordersOk := ordersOk_ite h h

theorem takeShadow_ordersOk (g : Nat) : (s.takeShadow g).ordersOk := ordersOk_ite h (ordersOk_ite h h)

theorem applyWidth_ordersOk : s.applyWidth.ordersOk := h

theorem switchBanks_ordersOk : s.switchBanks.ordersOk := h

theorem refreshWidth_ordersOk : s.refreshWidth.ordersOk := by
  have hc := checkReplace_ordersOk h
  have hw := ordersOk_ite (p := s.checkReplace.acre.run.isSome = true) hc (switchBanks_ordersOk (applyWidth_ordersOk hc))
  exact ordersOk_ite (fnStart_ordersOk hw 0) hw

theorem fnRstAssertDo_ordersOk (n : Nat) (src : ResetSource) : (fnRstAssertDo n src s).ordersOk := by
  unfold fnRstAssertDo
  split
  · exact fnStart_ordersOk (by exact h) n
  · exact ordersOk_ite (fnAuto_ordersOk (ueInfo_ordersOk h _ _) n) h

/-! ### The pair -/

theorem flushPair_ordersOk (n : Nat) : (s.flushPair n).ordersOk := by
  induction n generalizing s with
  | zero => exact h
  | succ n ih =>
    unfold State.flushPair
    split
    · exact h
    · exact ordersOk_ite (ih (by exact h)) h

theorem receive_ordersOk (f : FrameHdr) : (s.receive f).1.ordersOk := by
  unfold State.receive
  extract_lets _ u _ v
  have hu : u.ordersOk := ordersOk_ite (by exact h) h
  have hv : v.ordersOk := flushPair_ordersOk (by exact hu) 64
  split
  · exact hu
  · split
    · split
      · exact hv
      · exact hv
    · exact hu

theorem onFrame_ordersOk (f : FrameHdr) {g : State → State} (hg : ∀ t, t.ordersOk → (g t).ordersOk) : (s.onFrame f g).ordersOk := by
  have hr := receive_ordersOk h f
  unfold State.onFrame
  refine ordersOk_ite h ?_
  split
  · rename_i e
    rw [e] at hr
    exact hg _ hr
  · rename_i e
    rw [e] at hr
    exact hr

theorem onEntry_ordersOk (f : FrameHdr) {g : State → State} (hg : ∀ t, t.ordersOk → (g t).ordersOk) : (s.onEntry f g).ordersOk :=
  onFrame_ordersOk h f fun t ht => ordersOk_ite (hg t ht) ht

theorem abandon_ordersOk (c : Cmd) (p : Nat × Nat) : (s.abandon c p).ordersOk :=
  ordersOk_ite (ordersOk_ite h (setCmd_ordersOk h _)) (endCmd_ordersOk (unpause_ordersOk (setCmd_ordersOk h _) _) _ _)

theorem inherit_ordersOk (c : Cmd) : (s.inherit c).ordersOk :=
  ordersOk_ite (setCmd_ordersOk h _) (ordersOk_ite (ordersOk_foldl (fun _ g ht => ask_ordersOk ht g) _ (setCmd_ordersOk h _))
    (ordersOk_ite (ordersOk_foldl (fun _ _ ht => askWrite_ordersOk ht _ _ _ _ _ _) _ (setCmd_ordersOk h _)) (abandon_ordersOk h _ _)))

theorem eachDispatched_ordersOk {f : State → Cmd → State} (hf : ∀ t c, t.ordersOk → (f t c).ordersOk) : (s.eachDispatched f).ordersOk := by
  refine ordersOk_foldl (fun t c ht => ?_) _ h
  split
  · exact ordersOk_ite (hf _ _ ht) ht
  · exact ht

theorem ownCommit_ordersOk : ({ s with cmds := s.cmds.map Cmd.ownCommit } : State).ordersOk :=
  ordersOk_map h fun c => by unfold Cmd.ownCommit; split <;> rfl

theorem takeoverDo_ordersOk : (takeoverDo s).ordersOk :=
  ordersOk_ite h (settle_ordersOk (setPair_ordersOk (by
    exact ownCommit_ordersOk (eachDispatched_ordersOk h fun _ c ht => inherit_ordersOk ht c)) 5))

theorem detachDo_ordersOk : (detachDo s).ordersOk := by
  unfold detachDo
  extract_lets u v
  have hu : u.ordersOk := ordersOk_ite (sendPair_ordersOk h _ _) h
  refine ordersOk_ite (settle_ordersOk (setPair_ordersOk ?_ 4)) (ordersOk_ite (settle_ordersOk (setPair_ordersOk hu 4)) hu)
  exact eachDispatched_ordersOk hu fun _ c ht => abandon_ordersOk ht c _

theorem compareHello_ordersOk (e : Bool × U32 × U32 × U32 × U32) : (s.compareHello e).ordersOk :=
  ordersOk_ite (setPair_ordersOk (by exact h) 2) (setPair_ordersOk (by exact h) 3)

theorem pairCtlDo_ordersOk (v : U32) : (pairCtlDo v s).ordersOk := by
  unfold pairCtlDo
  refine ordersOk_ite h ?_
  extract_lets u w _ x idle _ y
  have hu : u.ordersOk := ordersOk_ite (detachDo_ordersOk h) h
  have hw : w.ordersOk := ordersOk_ite (takeoverDo_ordersOk hu) hu
  have hy : y.ordersOk := sendPair_ordersOk (setPair_ordersOk (by exact hw) 1) _ _
  refine ordersOk_ite ?_ hw
  split
  · exact compareHello_ordersOk hy _
  · exact hy

theorem helloDo_ordersOk (role : Bool) (version build fwVersion fwCrc : U32) : (helloDo role version build fwVersion fwCrc s).ordersOk :=
  ordersOk_ite (compareHello_ordersOk h _) (ordersOk_ite h h)

theorem failingDo_ordersOk : (failingDo s).ordersOk := ordersOk_ite (takeoverDo_ordersOk (by exact h)) h

theorem detachFrameDo_ordersOk : (detachFrameDo s).ordersOk := ordersOk_ite (setPair_ordersOk (by exact h) 4) h

theorem digestDo_ordersOk (e : DigestEntry) : (digestDo e s).ordersOk :=
  ordersOk_ite (settle_ordersOk (by exact h)) (ordersOk_ite (diverge_ordersOk h _ _ _) h)

theorem commitEntryDo_ordersOk (e : StateEntry) : (commitEntryDo e s).ordersOk := by
  unfold commitEntryDo
  extract_lets kept
  split
  · exact ordersOk_ite (settle_ordersOk (setCmd_ordersOk h _)) h
  · exact h

/-! ### Energy -/

theorem accrueAll_ordersOk : s.accrueAll.ordersOk := by
  refine ordersOk_foldl (fun t c ht => ?_) _ h
  dsimp only
  split
  · exact setCmd_ordersOk (by exact ht) _
  · exact ht

theorem accrueBg_ordersOk : s.accrueBg.ordersOk := h

theorem ledgerTickDo_ordersOk (bg : List TickCount) (barn : List BarnUse) (ce : Nat) : (ledgerTickDo bg barn ce s).ordersOk := by
  have hce : (s.barnCe ce).ordersOk := corrected_ordersOk (flt_ordersOk h _) ce
  have hbg := ordersOk_foldl (f := fun s (e : TickCount) => s.bgEvent e.1 e.2) (fun _ _ ht => ht) bg hce
  have hbarn := ordersOk_foldl (f := fun s e => s.event e.ring.val e.seq 6 e.n) (fun _ _ ht => event_ordersOk ht _ _ _ _) barn hbg
  exact energy_ordersOk (accrueBg_ordersOk (accrueAll_ordersOk hbarn)) _

theorem decideOn_ordersOk (first : Bool) (c : Cmd) (p : Nat) (big : Bool) : (s.decideOn first c p big).ordersOk := by
  obtain ⟨n, p, a, d, e⟩ := decideOn_eq s first c p big
  rw [e]
  exact setCmd_ordersOk (by exact h) _

theorem consider_ordersOk (first : Bool) (c : Cmd) : (s.consider first c).ordersOk := by
  unfold State.consider
  exact decideOn_ordersOk (energy_ordersOk h _) _ _ _ _

theorem reconsider_ordersOk (turn : Bool) : (State.reconsider turn s).ordersOk := by
  have hfold (l : List Cmd) (acc : State × Bool) (hacc : acc.1.ordersOk) : (l.foldl (fun (acc : State × Bool) c =>
      let s := acc.1
      match s.cmds.find? (fun d => d.order == c.order) with
      | some d => if s.deferredBefore d then acc else (s.consider (turn && acc.2) d, false)
      | none => acc) acc).1.ordersOk := by
    induction l generalizing acc with
    | nil => exact hacc
    | cons c l ih =>
      refine ih _ ?_
      dsimp only
      split
      · split
        · exact hacc
        · exact consider_ordersOk hacc _ _
      · exact hacc
  exact ordersOk_ite h (settle_ordersOk (hfold _ (s, true) h))

theorem energyAdmitDo_ordersOk (r : Nat) (q : U32) : (energyAdmitDo r q s).ordersOk := by
  unfold energyAdmitDo
  split
  · exact ordersOk_ite (ordersOk_ite (setCmd_ordersOk h _) (settle_ordersOk (consider_ordersOk h _ _))) h
  · exact h

theorem energyApply_ordersOk (c : Cmd) (coefs : List U32) : (s.energyApply c coefs).ordersOk :=
  ordersOk_ite (ctlDone_ordersOk (by exact h) _ _ _) (reconsider_ordersOk (ctlDone_ordersOk (by exact h) _ _ _) _)

theorem energySetDo_ordersOk (c : Cmd) : (energySetDo s c).ordersOk := by
  unfold energySetDo
  refine ordersOk_ite h ?_
  split
  · exact ordersOk_ite h (energyApply_ordersOk h _ _)
  · exact ordersOk_ite (ctlDone_ordersOk h _ _ _) (ordersOk_ite (askRead_ordersOk (setCmd_ordersOk h _) _ _ _ _ _ _) (energyApply_ordersOk h _ _))

theorem fnResetDoneDo_ordersOk (n : Nat) : (fnResetDoneDo n s).ordersOk :=
  ordersOk_ite (ordersOk_ite (reconsider_ordersOk (settle_ordersOk (by exact h)) _) (settle_ordersOk (by exact h))) h

end

end Sys2Proof.Machine
end


section
/-! PROOF. Fetch orders name packets, third part: the registers, the start, the faults, completion records and the commands of strips and
fields. -/

namespace Sys2Proof.Machine

/-- A reset leaves no packet. -/
theorem resetDo_ordersOk (s : State) : (resetDo s).ordersOk := ⟨List.nodup_nil, fun _ hc => nomatch hc⟩

section
variable {s : State} (h : s.ordersOk)
include h

/-! ### Registers -/

theorem win_ordersOk (w : Win) : ({ s with win := w } : State).ordersOk := h

theorem granary_ordersOk (g : Granary) : ({ s with granary := g } : State).ordersOk := h

theorem readDo_ordersOk (a : BitVec 20) (r : Reg) : (readDo a r s).ordersOk := by
  unfold readDo
  extract_lets v u
  show State.ordersOk u
  show (match latchPartner r with | some q => _ | none => _ : State).ordersOk
  split
  · exact h
  · exact h

theorem goDo_ordersOk : (goDo s).ordersOk := ordersOk_ite h (bootAdvance_ordersOk (by exact h))

theorem acrSpareDo_ordersOk (row : Bool) (n : Nat) (v : U32) : (acrSpareDo row n v s).ordersOk :=
  ordersOk_ite (refreshWidth_ordersOk (by exact h)) (ordersOk_ite (refreshWidth_ordersOk (by exact h)) h)

theorem grnSpareDo_ordersOk (g : Nat) (v : U32) : (grnSpareDo g v s).ordersOk := ordersOk_ite h (ordersOk_ite h h)

theorem fltResetDo_ordersOk (port : Bool) (v : U32) : (fltResetDo port v s).ordersOk :=
  ordersOk_ite (ordersOk_foldl (fun _ k ht => resetPort_ordersOk ht k) _ (flt_ordersOk h _))
    (ordersOk_foldl (fun _ n ht => fnStart_ordersOk ht n) _ (flt_ordersOk h _))

theorem perfCtlDo_ordersOk (snap release : Bool) : (perfCtlDo snap release s).ordersOk :=
  ordersOk_ite (by exact ordersOk_ite (p := release = true) h h) (ordersOk_ite h h)

theorem sowGoDo_ordersOk (v : U32) : (sowGoDo v s).ordersOk := ordersOk_ite h h

theorem sowDoneDo_ordersOk : (sowDoneDo s).ordersOk := by
  unfold sowDoneDo
  split
  · exact h
  · exact win_ordersOk h _

theorem fnCtlDo_ordersOk (v : U32) : (fnCtlDo v s).ordersOk := ordersOk_ite h h

theorem fnDoneDo_ordersOk : (fnDoneDo s).ordersOk := ordersOk_ite h h

theorem restartDo_ordersOk (r : Nat) : (restartDo r s).ordersOk := h

theorem ringWordDo_ordersOk (n o : Nat) (v : U32) : (ringWordDo n o v s).ordersOk := by
  unfold ringWordDo
  split
  · exact ringCfgDo_ordersOk h _ _ _
  · exact ringCfgDo_ordersOk h _ _ _
  · exact ringCfgDo_ordersOk h _ _ _
  · exact doorbellDo_ordersOk h _ _
  · exact ordersOk_ite (restartDo_ordersOk (ordersOk_ite (modRing_ordersOk h _ _) h) _) (ordersOk_ite (modRing_ordersOk h _ _) h)
  · exact modRing_ordersOk h _ _
  · exact ringCfgDo_ordersOk h _ _ _
  · exact ringCfgDo_ordersOk h _ _ _
  · exact ringCfgDo_ordersOk h _ _ _
  · exact cplHeadDo_ordersOk h _ _
  · exact h

theorem portWordDo_ordersOk (k o : Nat) (v : U32) : (portWordDo k o v s).ordersOk := by
  unfold portWordDo
  refine ordersOk_ite h ?_
  split
  · exact modPort_ordersOk h _ _
  · exact modPort_ordersOk h _ _
  · exact portCtlDo_ordersOk h _ _
  · exact h

theorem steerWordDo_ordersOk (n o : Nat) (v : U32) : (steerWordDo n o v s).ordersOk := endGrants_ordersOk (by exact h)

theorem tenantWordDo_ordersOk (n o : Nat) (v : U32) : (tenantWordDo n o v s).ordersOk := by
  unfold tenantWordDo
  split
  · exact modTenant_ordersOk h _ _
  · exact modTenant_ordersOk h _ _
  · exact modTenant_ordersOk h _ _
  · exact modTenant_ordersOk h _ _
  · exact h

theorem probeWordDo_ordersOk (data hi : Bool) (v : U32) : (probeWordDo data hi v s).ordersOk := ordersOk_ite h (ordersOk_ite h h)

theorem bootWriteDo_ordersOk (r : Reg) (v : U32) : (bootWriteDo r v s).ordersOk := by
  unfold bootWriteDo
  extract_lets set
  have hset (b : Boot) : (set b).ordersOk := ordersOk_ite h h
  split
  · exact ordersOk_ite (goDo_ordersOk h) h
  · exact hset _
  · exact hset _
  · exact hset _
  · exact h

theorem regWriteDo_ordersOk (r : Reg) (v : U32) : (regWriteDo r v s).ordersOk := by
  cases r
  case start => exact bootWriteDo_ordersOk h .start v
  case paramAddr hi => exact bootWriteDo_ordersOk h (.paramAddr hi) v
  case fwAddr hi => exact bootWriteDo_ordersOk h (.fwAddr hi) v
  case fwLen => exact bootWriteDo_ordersOk h .fwLen v
  case ring k o => exact ringWordDo_ordersOk h k o v
  case spareCol k => exact acrSpareDo_ordersOk h false k v
  case spareRow k => exact acrSpareDo_ordersOk h true k v
  case spareBank g => exact grnSpareDo_ordersOk h g v
  case fnArg => exact ordersOk_ite h h
  case fnCtl => exact fnCtlDo_ordersOk h v
  case sowKey k => exact ordersOk_ite h h
  case sowCtr k => exact ordersOk_ite h h
  case sowCtl => exact sowGoDo_ordersOk h v
  case arbCommit => exact ordersOk_ite h h
  case mvrCommit => exact ordersOk_ite h h
  case mvrSeed => exact seedPorts_ordersOk (s := { s with marb := { s.marb with seed := v } }) h v
  case port k o => exact portWordDo_ordersOk h k o v
  case probeAddr hi => exact probeWordDo_ordersOk h false hi v
  case probeData hi => exact probeWordDo_ordersOk h true hi v
  case probeCtl => exact probeGoDo_ordersOk h v
  case steer k o => exact steerWordDo_ordersOk h k o v
  case fltReset => exact fltResetDo_ordersOk h false v
  case fltPortReset => exact fltResetDo_ordersOk h true v
  case pairCtl => exact pairCtlDo_ordersOk h v
  case pairStatus => exact ordersOk_ite h h
  case gate g => exact gateWriteDo_ordersOk h g v
  case tenant k o => exact tenantWordDo_ordersOk h k o v
  case perfCtl => exact perfCtlDo_ordersOk h _ _
  all_goals exact h

/-! ### Sag levels -/

theorem levelEffects_ordersOk : s.levelEffects.ordersOk := refreshWidth_ordersOk (by exact h)

theorem setLevel_ordersOk (l : SagLevel) : (s.setLevel l).ordersOk :=
  ordersOk_ite h (raise_ordersOk (levelEffects_ordersOk (energy_ordersOk h _)) 7)

theorem sagInput_ordersOk (n : BitVec 3) : (sagInput n s).ordersOk := by
  unfold sagInput
  extract_lets old l _ u since _
  exact ordersOk_ite h (settle_ordersOk (setLevel_ordersOk (energy_ordersOk (s := u) h _) _))

theorem sagFallDo_ordersOk : (sagFallDo s).ordersOk := by
  unfold sagFallDo
  extract_lets l u v
  have hu : u.ordersOk := setLevel_ordersOk h l
  exact settle_ordersOk (flushPair_ordersOk (energy_ordersOk hu _) 64)

/-! ### The start -/

theorem giveShadow_ordersOk (g : Nat) : (s.giveShadow g).ordersOk := ordersOk_ite h h

theorem selfTestApply_ordersOk (r : SelfTest) : (selfTestApply r s).ordersOk := h

theorem selfTestDo_ordersOk (r : SelfTest) : (selfTestDo r s).ordersOk := by
  unfold selfTestDo
  split
  · exact bootAdvance_ordersOk (selfTestApply_ordersOk h r)
  · exact bootFail_ordersOk h _ _
  · exact bootFail_ordersOk h _ _

theorem paramsApply_ordersOk (p : List Byte) : (paramsApply p s).ordersOk := by
  unfold paramsApply
  extract_lets hh train pool u bare v
  have hv : v.ordersOk := ordersOk_foldl (fun _ _ ht => giveShadow_ordersOk ht _) _ (show u.ordersOk from h)
  exact hv

theorem askFirmware_ordersOk : (askFirmware s).ordersOk := ordersOk_ite (bootFail_ordersOk h _ _) (askRead_ordersOk h _ _ _ _ _ _)

theorem paramsReadDo_ordersOk : (paramsReadDo s).ordersOk :=
  ordersOk_ite (ordersOk_ite (askFirmware_ordersOk (paramsApply_ordersOk h _)) (bootFail_ordersOk h _ _)) h

theorem stage7_ordersOk : s.stage7.ordersOk := ordersOk_ite h h

theorem firmwareReadDo_ordersOk : (firmwareReadDo s).ordersOk := by
  unfold firmwareReadDo
  refine ordersOk_ite ?_ h
  extract_lets n img
  split
  · exact stage7_ordersOk (by exact h)
  · exact bootFail_ordersOk h _ _
  · exact bootFail_ordersOk h _ _
  · exact bootFail_ordersOk h _ _

theorem fwReadyDo_ordersOk : (fwReadyDo s).ordersOk := by
  have hlevel (t : State) (ht : t.ordersOk) : (if t.pins.sag.val = 0 then t else t.setLevel t.pins.sag).ordersOk :=
    ordersOk_ite ht (setLevel_ordersOk ht _)
  exact refreshWidth_ordersOk (hlevel _ h)

theorem stageTimeoutDo_ordersOk (port : Nat) : (stageTimeoutDo port s).ordersOk := by
  unfold stageTimeoutDo
  refine ordersOk_ite h ?_
  split
  · exact bootFail_ordersOk h _ _
  · exact bootFail_ordersOk h _ _
  · exact bootFail_ordersOk h _ _
  · exact ordersOk_ite (bootFail_ordersOk h _ _) h
  · exact bootFail_ordersOk h _ _
  · exact ordersOk_ite h (bootFail_ordersOk h _ _)
  · exact ordersOk_ite h (bootFail_ordersOk h _ _)
  · exact h

/-! ### Faults -/

theorem migrate_ordersOk (b : Nat) : (s.migrate b).ordersOk := by
  unfold State.migrate
  refine ordersOk_ite h ?_
  extract_lets g _ u w copy v _ x
  have hcopy (t : State) (ht : t.ordersOk) : (copy t).ordersOk := ht
  have hx : x.ordersOk := takeShadow_ordersOk (s := u) h g
  exact ordersOk_ite (hcopy u h) (checkReplace_ordersOk (ordersOk_ite hx (hcopy x hx)))

theorem granaryCe_ordersOk (b : Nat) : (s.granaryCe b).ordersOk := by
  unfold State.granaryCe
  extract_lets _ u
  have hu : u.ordersOk := corrected_ordersOk (by exact h) 1
  exact ordersOk_ite (migrate_ordersOk hu b) hu

theorem scaleCe_ordersOk (n : Nat) : (s.scaleCe n).ordersOk := corrected_ordersOk (by exact h) n

theorem weightUe_ordersOk (b w : Nat) : (s.weightUe b w).ordersOk := raise_ordersOk (by exact ordersOk_ite (p := s.granary.ueValid = true) h h) 1

theorem granaryUe_ordersOk (b w : Nat) : (s.granaryUe b w).ordersOk := migrate_ordersOk (weightUe_ordersOk h b w) b

theorem damageOwner_ordersOk (b w : Nat) : (s.damageOwner b w).ordersOk := h

theorem bgEvent_ordersOk (c k : Nat) : (s.bgEvent c k).ordersOk := h

theorem scrubDo_ordersOk (b w : Nat) (found : ScrubRead) (superseded : Bool) : (scrubDo b w found superseded s).ordersOk := by
  unfold scrubDo
  extract_lets u v
  have hv : v.ordersOk := granary_ordersOk (bgEvent_ordersOk (perfAdd_ordersOk h 21 1) 4 1) _
  split
  · exact hv
  · exact granaryCe_ordersOk (ordersOk_ite hv (bgEvent_ordersOk hv _ _)) b
  · exact granaryUe_ordersOk (damageOwner_ordersOk hv b w) b w

theorem migrationCopyDo_ordersOk (g n : Nat) (poisoned : List Nat) : (migrationCopyDo g n poisoned s).ordersOk := by
  unfold migrationCopyDo
  split
  · exact h
  · exact refreshWidth_ordersOk (bgEvent_ordersOk (bgEvent_ordersOk (corrected_ordersOk (granary_ordersOk h _) n) _ _) _ _)

theorem halt_ordersOk : s.halt.ordersOk := by
  have hf := flushPhase_ordersOk (raise_ordersOk h 3)
  exact ordersOk_ite (sendPair_ordersOk (by exact hf) _ _) hf

theorem ledgerLostDo_ordersOk (word : Nat) : (ledgerLostDo word s).ordersOk := flt_ordersOk (halt_ordersOk (ueInfo_ordersOk h 10 word)) _

theorem fwBankDo_ordersOk (word : Nat) : (fwBankDo word s).ordersOk :=
  ordersOk_ite (flt_ordersOk (fnAuto_ordersOk (ueInfo_ordersOk h 11 word) 4) _) (flt_ordersOk (halt_ordersOk (ueInfo_ordersOk h 11 word)) _)

theorem loseSteps_ordersOk (n : Nat) : (s.loseSteps n).ordersOk := by
  refine ordersOk_foldl (fun t c ht => ?_) _ h
  split
  · exact ht
  · exact setCmd_ordersOk (ordersOk_foldl (fun u p hu => ordersOk_ite hu (unreserve_ordersOk hu p)) _ ht) _

theorem stripLostDo_ordersOk (n : Nat) (ledger : Bool) (word : Nat) : (stripLostDo n ledger word s).ordersOk :=
  loseSteps_ordersOk (flt_ordersOk (modStrip_ordersOk (raise_ordersOk (ueInfo_ordersOk h _ word) 1) n _) _) n

/-- Of the islands, only CTRL holds the packets (R21). -/
theorem loseIsland_ordersOk {island : Island} (hi : island ≠ .ctrl) (u : State) : (loseIsland island u s).ordersOk := by
  unfold loseIsland
  split
  case h_4 => exact absurd rfl hi
  all_goals exact h

/-! ### Completion records -/

theorem freePool_ordersOk (c : Cmd) : (s.freePool c).ordersOk := ordersOk_ite h h

theorem dropCmd_ordersOk (c : Cmd) : (s.dropCmd c).ordersOk := ordersOk_filter h fun d => d.order != c.order

theorem markIrq_ordersOk (c : Cmd) : (s.markIrq c).ordersOk := ordersOk_ite h h

theorem countTrained_ordersOk (c : Cmd) : (s.countTrained c).ordersOk := ordersOk_ite h h

theorem completionDo_ordersOk (c : Cmd) : (completionDo c s).ordersOk := by
  unfold completionDo
  extract_lets u₁ u₂ u₃ u₄ u₅ u₆ u₇ u₈
  have h₁ : u₁.ordersOk := modRing_ordersOk h _ _
  have h₂ : u₂.ordersOk := ordersOk_ite (sendPair_ordersOk h₁ _ _) h₁
  have h₃ : u₃.ordersOk := dropCmd_ordersOk (freePool_ordersOk h₂ c) c
  have h₄ : u₄.ordersOk := ordersOk_ite (gateAdd_ordersOk h₃ _ _) h₃
  have h₅ : u₅.ordersOk := countTrained_ordersOk (markIrq_ordersOk h₄ c) c
  have h₆ : u₆.ordersOk := perfAdd_ordersOk h₅ _ _
  have h₇ : u₇.ordersOk := ordersOk_ite h₆ (perfAdd_ordersOk h₆ _ _)
  have h₈ : u₈.ordersOk := dropGrant_ordersOk (settle_ordersOk h₇)
  exact ordersOk_ite (reconsider_ordersOk h₈ false) h₈

theorem cplRetryDo_ordersOk (r : Nat) : (cplRetryDo r s).ordersOk := by
  unfold cplRetryDo
  extract_lets g
  refine ordersOk_ite ?_ h
  split
  · exact askWrite_ordersOk (modRing_ordersOk h _ _) _ _ _ _ _ _
  · exact h

/-! ### STRIP_SET and STRIP_GET -/

theorem stripDone_ordersOk (c : Cmd) (r : Reason) : (s.stripDone c r).ordersOk := ctlDone_ordersOk h _ _ _

theorem holdPart_ordersOk (c : Cmd) (k : Nat) : (s.holdPart c k).ordersOk := setCmd_ordersOk h _

theorem onStripSet_ordersOk {r : Nat} {now : Time} {f : Nat → Bool} {g : State → Cmd → State} (hg : ∀ t c, t.ordersOk → (g t c).ordersOk) :
    (s.onStripSet r now f g).ordersOk := onCtl_ordersOk h fun t c ht => ordersOk_ite (hg t c ht) ht

theorem installImage_ordersOk (c : Cmd) : (installImage s c).ordersOk :=
  ordersOk_ite (stripDone_ordersOk h _ _) (ordersOk_ite (stripDone_ordersOk (modStrip_ordersOk h _ _) _ _)
    (ordersOk_ite (stripDone_ordersOk h _ _) (askRead_ordersOk (holdPart_ordersOk h _ _) _ _ _ _ _ _)))

theorem installLedger_ordersOk (c : Cmd) : (installLedger s c).ordersOk := by
  unfold installLedger
  extract_lets b n
  split
  · exact stripDone_ordersOk (modStrip_ordersOk h _ _) _ _
  · exact stripDone_ordersOk h _ _

theorem stripInstallDo_ordersOk (c : Cmd) : (stripInstallDo s c).ordersOk := by
  unfold stripInstallDo
  refine ordersOk_ite (stripDone_ordersOk h _ _) (ordersOk_ite (stripDone_ordersOk h _ _) ?_)
  split
  · exact ordersOk_ite h (ordersOk_ite (installImage_ordersOk h c) (installLedger_ordersOk h c))
  · exact askRead_ordersOk (holdPart_ordersOk h _ _) _ _ _ _ _ _

theorem stripParamsDo_ordersOk (c : Cmd) : (stripParamsDo s c).ordersOk := by
  unfold stripParamsDo
  refine ordersOk_ite (stripDone_ordersOk h _ _) (ordersOk_ite (stripDone_ordersOk h _ _) ?_)
  split
  · exact ordersOk_ite h (stripDone_ordersOk (modStrip_ordersOk h _ _) _ _)
  · exact askRead_ordersOk (holdPart_ordersOk h _ _) _ _ _ _ _ _

theorem stripReleaseDo_ordersOk (c : Cmd) : (stripReleaseDo s c).ordersOk :=
  ordersOk_ite (stripDone_ordersOk h _ _) (stripDone_ordersOk (modStrip_ordersOk h _ _) _ _)

theorem stripGetDo_ordersOk (c : Cmd) : (stripGetDo s c).ordersOk := by
  unfold stripGetDo
  refine ordersOk_ite (stripDone_ordersOk h _ _) (ordersOk_ite (stripDone_ordersOk h _ _) ?_)
  split
  · exact ordersOk_ite h (ordersOk_ite (stripDone_ordersOk (modStrip_ordersOk h _ _) _ _) (stripDone_ordersOk h _ _))
  · exact output_ordersOk (output_ordersOk (holdPart_ordersOk h _ _) _ _ _ _ _ _) _ _ _ _ _ _

/-! ### The Harrow and the fields -/

theorem seedTake_ordersOk (c : Cmd) (q : Nat) (b : SeedBuf) : (s.seedTake c q b).ordersOk := by
  unfold State.seedTake
  extract_lets i u v
  have hu : u.ordersOk := modCmd_ordersOk h _ _ _
  have hv : v.ordersOk := ordersOk_ite hu hu
  exact hv

theorem seedPut_ordersOk (b : SeedBuf) : (s.seedPut b).ordersOk := ordersOk_ite h (ordersOk_ite h h)

theorem seedDrop_ordersOk (r : Nat) (q : U32) (p : Nat) : (s.seedDrop r q p).ordersOk := ordersOk_ite h (ordersOk_ite h h)

theorem countQuant_ordersOk (q : QCount) (n : Nat) : (s.countQuant q n).ordersOk := h

theorem harrowElems_ordersOk (c : Cmd) (n : Nat) : (s.harrowElems c n).ordersOk := perfAdd_ordersOk (event_ordersOk h _ _ _ _) _ _

theorem askUnit_ordersOk (c : Cmd) (f : Field) (k i : Nat) : (s.askUnit c f k i).ordersOk :=
  ordersOk_ite (askRead_ordersOk h _ _ _ _ _ _) (askRead_ordersOk h _ _ _ _ _ _)

theorem loadDone_ordersOk (c : Cmd) (amax : F32) : (s.loadDone c amax).ordersOk := by
  unfold State.loadDone
  refine openCommit_ordersOk (modField_ordersOk ?_ _ _) _ _
  split
  · exact h
  · exact h

theorem askBrows_ordersOk (c : Cmd) (f : Field) (i : Nat) : (s.askBrows c f i).ordersOk := ordersOk_foldl (fun _ _ ht => askUnit_ordersOk ht _ _ _ _) _ h

theorem loadStart_ordersOk (c : Cmd) : (s.loadStart c).ordersOk := by
  unfold State.loadStart
  extract_lets p
  split
  · exact refuse_ordersOk h _ _
  · split
    · exact refuse_ordersOk h _ _
    · extract_lets f u d v
      have hv : v.ordersOk := setCmd_ordersOk (modField_ordersOk h _ _) _
      exact ordersOk_ite (loadDone_ordersOk hv _ _) (ordersOk_ite (askUnit_ordersOk hv _ _ _ _) (askBrows_ordersOk hv _ _ _))

theorem loadRecord_ordersOk (c : Cmd) (k : Nat) : (s.loadRecord c k).ordersOk :=
  modCmd_ordersOk (event_ordersOk (modField_ordersOk h _ _) _ _ _ _) _ _ _

theorem gatherBrow_ordersOk (c : Cmd) (k : Nat) : (s.gatherBrow c k).ordersOk := modCmd_ordersOk (harrowElems_ordersOk h _ _) _ _ _

theorem convertRow_ordersOk (c : Cmd) (k : Nat) : (s.convertRow c k).ordersOk :=
  modCmd_ordersOk (modField_ordersOk (countQuant_ordersOk (event_ordersOk (harrowElems_ordersOk h _ _) _ _ _ _) _ _) _ _) _ _ _

theorem gatherDone_ordersOk (c : Cmd) : (s.gatherDone c).ordersOk := askBrows_ordersOk (setCmd_ordersOk (modField_ordersOk h _ _) _) _ _ _

theorem loadOn_ordersOk (f : Field) (d : Cmd) : (s.loadOn f d).ordersOk :=
  ordersOk_ite (ordersOk_ite (askUnit_ordersOk h _ _ _ _) h) (ordersOk_ite (loadDone_ordersOk h _ _) (gatherDone_ordersOk h _))

theorem loadUnit_ordersOk (r : Nat) (q : U32) : (s.loadUnit r q).ordersOk := by
  unfold State.loadUnit
  split
  · exact h
  · rename_i c _
    refine ordersOk_ite h ?_
    extract_lets p f u second t
    have ht : t.ordersOk := ordersOk_ite (loadRecord_ordersOk h _ _) (ordersOk_ite (convertRow_ordersOk h _ _) (gatherBrow_ordersOk h _ _))
    refine ordersOk_ite h ?_
    split
    · exact endWork_ordersOk h _ _
    · split
      · exact ht
      · exact loadOn_ordersOk ht _ _

theorem times_ordersOk {f : State → State} (hf : ∀ t, t.ordersOk → (f t).ordersOk) (n : Nat) : (times f n s).ordersOk := by
  induction n generalizing s with
  | zero => exact h
  | succ n ih => exact ih (hf s h)

theorem fillOver_ordersOk (c : Cmd) : (s.fillOver c).ordersOk := ordersOk_ite h (settle_ordersOk h)

section
variable {start : State → Cmd → State} {unit : State → State} (hstart : ∀ t c, t.ordersOk → (start t c).ordersOk)
  (hunit : ∀ t, t.ordersOk → (unit t).ordersOk)
include hstart hunit

theorem onFill_ordersOk (r : Nat) (q : U32) (op : Nat) (ok : List Byte → Bool) (n : Nat) : (s.onFill r q op ok n start unit).ordersOk := by
  unfold State.onFill
  split
  · exact ordersOk_ite (fillOver_ordersOk (times_ordersOk (ordersOk_ite h (hstart _ _ h)) hunit n) _) h
  · exact h

theorem fillRow_ordersOk (r : Nat) (q : U32) (op : Nat) (ok : List Byte → Bool) (n : Nat) : (s.fillRow r q op ok n start unit).ordersOk := by
  have hfill := onFill_ordersOk h hstart hunit r q op ok n
  unfold State.fillRow
  split
  · exact ordersOk_ite (ordersOk_ite (settle_ordersOk (enqueue_ordersOk h _)) h) hfill
  · exact hfill

end

theorem loadHeadDo_ordersOk (r : Nat) (q : U32) (n : Nat) : (loadHeadDo r q n s).ordersOk :=
  fillRow_ordersOk h (fun _ c ht => loadStart_ordersOk ht c) (fun _ ht => loadUnit_ordersOk ht r q) _ _ _ _ _

theorem evictHeadDo_ordersOk (c : Cmd) : (evictHeadDo s c).ordersOk :=
  ordersOk_ite (ctlDone_ordersOk h _ _ _) (ctlDone_ordersOk (modField_ordersOk h _ _) _ _ _)

end

end Sys2Proof.Machine
end


section
/-! PROOF. Fetch orders name packets, fourth part: the fills, the firmware, the dispatch by class, the Harrow, the checks and the tiles. -/

namespace Sys2Proof.Machine

section
variable {s : State} (h : s.ordersOk)
include h

theorem totals_ordersOk (t : Totals) : ({ s with totals := t } : State).ordersOk := h

theorem tensors_ordersOk (t : Tbl F32) : ({ s with tensors := t } : State).ordersOk := h

theorem acre_ordersOk (a : Acre) : ({ s with acre := a } : State).ordersOk := h

/-! ### UPDATE -/

theorem askBrow_ordersOk (c : Cmd) (f : Field) (k : Nat) : (s.askBrow c f k).ordersOk :=
  ordersOk_foldl (fun _ _ ht => askRead_ordersOk ht _ _ _ _ _ _) _ h

theorem askGrad_ordersOk (c : Cmd) (f : Field) (k : Nat) : (s.askGrad c f k).ordersOk := askRead_ordersOk h _ _ _ _ _ _

theorem modFill_ordersOk (c : Cmd) (g : Fill → Fill) : (s.modFill c g).ordersOk := modCmd_ordersOk h _ _ _

theorem gatherGrad_ordersOk (c : Cmd) (f : Field) (k : Nat) : (s.gatherGrad c f k).ordersOk := modFill_ordersOk h c _

theorem updateBrow_ordersOk (c : Cmd) (f : Field) (k : Nat) : (s.updateBrow c f k).ordersOk :=
  modCmd_ordersOk (modField_ordersOk (countQuant_ordersOk (event_ordersOk (event_ordersOk (harrowElems_ordersOk
    (output_ordersOk (output_ordersOk (output_ordersOk h _ _ _ _ _ _) _ _ _ _ _ _) _ _ _ _ _ _) _ _) _ _ _ _) _ _ _ _) _ _) _ _) _ _ _

theorem updateDone_ordersOk (c : Cmd) : (s.updateDone c).ordersOk := openCommit_ordersOk (modField_ordersOk h _ _) _ _

theorem browDone_ordersOk (c : Cmd) (f : Field) : (s.browDone c f).ordersOk := by
  have ht (d : Cmd) (n : Nat) : ((s.setCmd d).tell stProgress d false false n 0).ordersOk := tell_ordersOk (setCmd_ordersOk h d) _ _ _ _ _ _
  exact ordersOk_ite (askBrow_ordersOk (ht _ _) _ _ _) (updateDone_ordersOk (ht _ _) _)

theorem gradDone_ordersOk (c : Cmd) (f : Field) : (s.gradDone c f).ordersOk :=
  ordersOk_ite (openCommit_ordersOk h _ _) (ordersOk_ite (askBrow_ordersOk (setCmd_ordersOk (modField_ordersOk h _ _) _) _ _ _)
    (updateDone_ordersOk (setCmd_ordersOk (modField_ordersOk h _ _) _) _))

theorem updateUnit_ordersOk (r : Nat) (q : U32) : (s.updateUnit r q).ordersOk := by
  unfold State.updateUnit
  split
  · exact h
  · refine ordersOk_ite h (ordersOk_ite ?_ (ordersOk_ite ?_ ?_))
    · exact ordersOk_ite (ordersOk_ite h (gatherGrad_ordersOk h _ _ _)) (gradDone_ordersOk h _ _)
    · exact ordersOk_ite h (browDone_ordersOk h _ _)
    · exact ordersOk_ite h (updateBrow_ordersOk h _ _ _)

theorem updateStart_ordersOk (c : Cmd) : (s.updateStart c).ordersOk := by
  unfold State.updateStart
  extract_lets p f first resume _ _ _ d v w
  have hv : v.ordersOk := setCmd_ordersOk h d
  have hw : w.ordersOk := ordersOk_ite hv (modField_ordersOk hv _ _)
  split
  · exact refuse_ordersOk h _ _
  · exact ordersOk_ite (ordersOk_foldl (fun _ k ht => askGrad_ordersOk ht _ _ k) _ hw)
      (ordersOk_ite (askBrow_ordersOk hw _ _ _) (updateDone_ordersOk hw _))

theorem updateDo_ordersOk (ok : List Byte → Bool) (r : Nat) (q : U32) (n : Nat) : (updateDo ok r q n s).ordersOk :=
  fillRow_ordersOk h (fun _ c ht => updateStart_ordersOk ht c) (fun _ ht => updateUnit_ordersOk ht r q) _ _ _ _ _

/-! ### SOW_FILL -/

theorem fillNext_ordersOk (c : Cmd) : (s.fillNext c).ordersOk :=
  modFill_ordersOk (harrowElems_ordersOk (output_ordersOk h _ _ _ _ _ _) _ _) c _

theorem fillDone_ordersOk (c : Cmd) : (s.fillDone c).ordersOk := by
  have ht (d : Cmd) (n m : Nat) : ((s.setCmd d).tell stProgress d false false n m).ordersOk := tell_ordersOk (setCmd_ordersOk h d) _ _ _ _ _ _
  exact ordersOk_ite (openCommit_ordersOk (ht _ _ _) _ _) (ht _ _ _)

theorem fillUnit_ordersOk (r : Nat) (q : U32) : (s.fillUnit r q).ordersOk := by
  unfold State.fillUnit
  split
  · exact h
  · exact ordersOk_ite h (ordersOk_ite (fillNext_ordersOk h _) (ordersOk_ite h (fillDone_ordersOk h _)))

theorem fillStart_ordersOk (c : Cmd) : (s.fillStart c).ordersOk := setCmd_ordersOk h _

theorem sowFillDo_ordersOk (r : Nat) (q : U32) (n : Nat) : (sowFillDo r q n s).ordersOk :=
  fillRow_ordersOk h (fun _ c ht => fillStart_ordersOk ht c) (fun _ ht => fillUnit_ordersOk ht r q) _ _ _ _ _

/-! ### The firmware -/

theorem fwDone_ordersOk (c : Cmd) (r : Reason) : (s.fwDone c r).ordersOk := ctlDone_ordersOk h _ _ _

theorem setStandby_ordersOk (img : List Byte) (valid : Bool) : (s.setStandby img valid).ordersOk := h

theorem switchFw_ordersOk : s.switchFw.ordersOk := h

theorem loadFailed_ordersOk (c : Cmd) (r : Reason) : (s.loadFailed c r).ordersOk := fwDone_ordersOk (setStandby_ordersOk h _ _) _ _

theorem loadFw_ordersOk (c : Cmd) {next : State → State} (hn : ∀ t, t.ordersOk → (next t).ordersOk) : (s.loadFw c next).ordersOk := by
  unfold State.loadFw
  refine ordersOk_ite (loadFailed_ordersOk h _ _) ?_
  split
  · refine ordersOk_ite h ?_
    extract_lets img
    split
    · exact hn _ (setStandby_ordersOk h _ _)
    · exact loadFailed_ordersOk h _ _
    · exact loadFailed_ordersOk h _ _
    · exact loadFailed_ordersOk h _ _
  · exact askRead_ordersOk (holdPart_ordersOk h _ _) _ _ _ _ _ _

theorem onFwSwap_ordersOk {r : Nat} {now : Time} {ok : Nat → Bool} {f : State → Cmd → State} (hf : ∀ t c, t.ordersOk → (f t c).ordersOk) :
    (s.onFwSwap r now ok f).ordersOk := onCtl_ordersOk h fun t c ht => ordersOk_ite (hf t c ht) ht

theorem fwLoadDo_ordersOk (c : Cmd) : (fwLoadDo s c).ordersOk :=
  ordersOk_ite (fwDone_ordersOk h _ _) (loadFw_ordersOk h _ fun _ ht => fwDone_ordersOk ht _ _)

theorem fwSwitchDo_ordersOk (c : Cmd) : (fwSwitchDo s c).ordersOk :=
  ordersOk_ite (fwDone_ordersOk (switchFw_ordersOk h) _ _) (fwDone_ordersOk h _ _)

theorem fwLoadSwitchDo_ordersOk (c : Cmd) : (fwLoadSwitchDo s c).ordersOk :=
  loadFw_ordersOk h _ fun _ ht => fwDone_ordersOk (switchFw_ordersOk ht) _ _

/-! ### Dispatch by class -/

theorem takeRecord_ordersOk (c : Cmd) (b : List Byte) : (s.takeRecord c b).ordersOk := ordersOk_ite h (modCmd_ordersOk h _ _ _)

theorem takeEarly_ordersOk (c : Cmd) : (s.takeEarly c).ordersOk := by
  unfold State.takeEarly
  refine ordersOk_ite ?_ h
  extract_lets mine _ t
  refine ordersOk_foldl (fun t b ht => ?_) _ (show t.ordersOk from h)
  split
  · exact takeRecord_ordersOk ht _ _
  · exact ht

theorem sampleDo_ordersOk (c : Cmd) : (sampleDo s c).ordersOk :=
  settle_ordersOk (askRead_ordersOk (takeEarly_ordersOk (enqueue_ordersOk h _) _) _ _ _ _ _ _)

theorem verifyDo_ordersOk (c : Cmd) : (verifyDo s c).ordersOk := settle_ordersOk (askRead_ordersOk (enqueue_ordersOk h _) _ _ _ _ _ _)

theorem queueDo_ordersOk (c : Cmd) : (queueDo s c).ordersOk := settle_ordersOk (takeEarly_ordersOk (enqueue_ordersOk h _) _)

theorem poolGrantDo_ordersOk : (poolGrantDo s).ordersOk := by
  unfold poolGrantDo
  split
  · exact ordersOk_ite (settle_ordersOk (grantPool_ordersOk h _)) h
  · exact h

/-! ### The conversion of hidden states -/

theorem seedTensor_ordersOk (c : Cmd) (ue : Bool) : (s.seedTensor c ue).ordersOk := by
  unfold State.seedTensor
  extract_lets id u v
  have hu : u.ordersOk := by
    refine ordersOk_ite ?_ h
    exact raise_ordersOk (ueInfo_ordersOk (tensors_ordersOk h _) _ _) _
  have hv : v.ordersOk := modCmd_ordersOk hu _ _ _
  exact ordersOk_ite hv (tensors_ordersOk hv _)

theorem frameMalformed_ordersOk (r : Nat) (q : U32) : (s.frameMalformed r q).ordersOk := by
  unfold State.frameMalformed
  extract_lets _ u
  have hu : u.ordersOk := h
  split
  · exact settle_ordersOk (ordersOk_ite (endWork_ordersOk hu _ _) (refuse_ordersOk hu _ _))
  · exact hu

theorem harrowConvertDo_ordersOk (c : Cmd) (ue : Bool) : (harrowConvertDo c ue s).ordersOk := by
  unfold harrowConvertDo
  extract_lets q bytes u v _ w
  have hu : u.ordersOk := ordersOk_ite (seedTensor_ordersOk h c ue) h
  have hw : w.ordersOk := seedTake_ordersOk (modCmd_ordersOk hu _ _ _) _ _ _
  split
  exact ordersOk_ite hw (askRead_ordersOk hw _ _ _ _ _ _)

theorem conversionDoneDo_ordersOk (c : Cmd) : (conversionDoneDo c s).ordersOk := by
  unfold conversionDoneDo
  extract_lets q a d u _ v w x y
  have hv : v.ordersOk := totals_ordersOk (countQuant_ordersOk h _ _) _
  have hx : x.ordersOk := harrowElems_ordersOk (seedPut_ordersOk (setCmd_ordersOk hv d) _) _ _
  have hy : y.ordersOk := ordersOk_ite (tensors_ordersOk hx _) hx
  exact settle_ordersOk hy

theorem bgFrame_ordersOk (n : Nat) : ((s.perfAdd 15 n).bgEvent 13 n).ordersOk := bgEvent_ordersOk (perfAdd_ordersOk h _ _) _ _

theorem frameBeats_ordersOk (c : Option Cmd) (n : Nat) : (s.frameBeats c n).ordersOk := by
  unfold State.frameBeats
  split
  · exact event_ordersOk (perfAdd_ordersOk h _ _) _ _ _ _
  · exact bgFrame_ordersOk h _

theorem streams_ordersOk (t : Streams) : ({ s with streams := t } : State).ordersOk := h

theorem actFrameDo_ordersOk (bytes : List Byte) (badKeep : Option Nat) : (actFrameDo bytes badKeep s).ordersOk := by
  unfold actFrameDo
  split
  · exact h
  · rename_i r q rest _
    extract_lets pop
    have hpop : (pop s).ordersOk := h
    split
    · exact frameBeats_ordersOk hpop _ _
    · exact ordersOk_ite (frameBeats_ordersOk hpop _ _) (ordersOk_ite h
        (ordersOk_ite (frameMalformed_ordersOk (frameBeats_ordersOk hpop _ _) _ _) (modCmd_ordersOk (frameBeats_ordersOk hpop _ _) _ _ _)))

/-! ### Checks -/

theorem countSkip_ordersOk (r : StepReason) (n : Nat) : (s.countSkip r n).ordersOk := by
  unfold State.countSkip
  split
  · exact modTenant_ordersOk h _ _
  · exact totals_ordersOk h _
  all_goals exact h

theorem reserve_ordersOk (c : Cmd) (t : Time) (p : StripStep) : (s.reserve c t p).1.ordersOk := by
  unfold State.reserve
  extract_lets u x
  have hu : u.ordersOk := modTenant_ordersOk h _ _
  split
  · exact hu
  · split
    · exact countSkip_ordersOk hu _ _
    · exact modTenant_ordersOk hu _ _

theorem checkStep_ordersOk (c : Cmd) (t : Time) (i : Nat) : (s.checkStep c t i).1.ordersOk := by
  unfold State.checkStep
  extract_lets p
  split
  · exact countSkip_ordersOk h _ _
  · exact reserve_ordersOk h _ _ _

theorem checkSteps_ordersOk (c : Cmd) (t : Time) : (s.checkSteps c t).1.ordersOk :=
  ordersOk_foldl_fst (β := List StripStep) (fun _ i ha => checkStep_ordersOk ha c t i) _ h

/-! ### What a tile asks for -/

theorem askFuse_ordersOk (c : Cmd) (f : Field) (k : TileKind) : (s.askFuse c f k).ordersOk := by
  unfold State.askFuse
  extract_lets p n t0 cols
  split
  exact ordersOk_ite h (ordersOk_ite (ordersOk_foldl (fun _ _ ht => askRead_ordersOk ht _ _ _ _ _ _) _ h)
    (ordersOk_ite (askRead_ordersOk h _ _ _ _ _ _) (askRead_ordersOk h _ _ _ _ _ _)))

theorem askSlices_ordersOk (c : Cmd) (f : Field) (w : Nat) : (s.askSlices c f w).ordersOk := by
  unfold State.askSlices
  refine ordersOk_ite h ?_
  extract_lets u a b v
  have hv : v.ordersOk := modCmd_ordersOk h _ _ _
  refine ordersOk_foldl (fun t i ht => ?_) _ hv
  refine ordersOk_foldl (fun t j ht => ?_) _ ht
  split
  · exact askRead_ordersOk ht _ _ _ _ _ _
  · exact ht

theorem askTile_ordersOk (c : Cmd) : (s.askTile c).ordersOk := by
  unfold State.askTile
  extract_lets f k u
  have hu : u.ordersOk := askFuse_ordersOk h _ _ _
  clear_value u k
  split
  · exact ordersOk_ite (askRead_ordersOk hu _ _ _ _ _ _) hu
  · exact ordersOk_ite (askRead_ordersOk hu _ _ _ _ _ _) hu
  · exact askSlices_ordersOk hu _ _ _

/-! ### The choice of the Acre's command -/

theorem beginPhase_ordersOk (c : Cmd) : (s.beginPhase c).ordersOk := by
  unfold State.beginPhase
  split
  rename_i t narrow shed _
  extract_lets _ u f w
  have hu : u.ordersOk := by
    refine ordersOk_ite ?_ h
    exact h
  split
  rename_i v steps hv
  replace hv : v.ordersOk := by
    have hsteps := checkSteps_ordersOk hu c t
    rw [hv] at hsteps
    exact hsteps
  extract_lets mixed d x _ y z
  have hy : y.ordersOk := acre_ordersOk (setCmd_ordersOk hv d) _
  have hz : z.ordersOk := tell_ordersOk (perfAdd_ordersOk hy _ _) _ _ _ _ _ _
  exact ordersOk_ite hz (askTile_ordersOk hz _)

theorem takeAcre_ordersOk (c : Cmd) : (s.takeAcre c).ordersOk := by
  unfold State.takeAcre
  extract_lets u v
  have hu : u.ordersOk := refreshWidth_ordersOk h
  have hv : v.ordersOk := takeHalves_ordersOk hu c
  refine ordersOk_ite hu (ordersOk_ite (settle_ordersOk (acre_ordersOk hv _)) ?_)
  split
  · exact settle_ordersOk (refuse_ordersOk hv _ _)
  · exact settle_ordersOk (beginPhase_ordersOk hv _)

theorem pauseRun_ordersOk (c : Cmd) (priority : Bool) : (s.pauseRun c priority).ordersOk :=
  ordersOk_ite (perfAdd_ordersOk (setCmd_ordersOk (acre_ordersOk h _) _) _ _) (acre_ordersOk h _)

theorem acreSelectDo_ordersOk : (acreSelectDo s).ordersOk := by
  unfold acreSelectDo
  extract_lets choose
  have hchoose (t : State) (ht : t.ordersOk) : (choose t).ordersOk := by
    show (match t.bestReady with | some c => t.takeAcre c | none => t : State).ordersOk
    split
    · exact takeAcre_ordersOk ht _
    · exact ht
  split
  · exact hchoose s h
  · exact ordersOk_ite h (ordersOk_ite (hchoose _ (pauseRun_ordersOk h _ _)) (ordersOk_ite (hchoose _ (pauseRun_ordersOk h _ _)) h))

/-! ### What a tile drains -/

theorem pushSegment_ordersOk (c : Cmd) (k : Nat) (last : Bool) (b : List Byte) : (s.pushSegment c k last b).ordersOk := h

theorem rawOut_ordersOk (c : Cmd) (f : Field) (w t : Nat) (xs : List F32) : (s.rawOut c f w t xs).ordersOk := by
  unfold State.rawOut
  extract_lets p bf16 data u
  have hu : u.ordersOk := modCmd_ordersOk h _ _ _
  exact ordersOk_ite (pushSegment_ordersOk hu _ _ _ _) (output_ordersOk hu _ _ _ _ _ _)

theorem drainToken_ordersOk (c : Cmd) (f : Field) (w j : Nat) (narrow off : Bool) (vals : List F32) :
    (s.drainToken c f w j narrow off vals).ordersOk := by
  unfold State.drainToken
  extract_lets t u rows v
  have hv : v.ordersOk := by
    show (match u with | .discard => s | _ => _ : State).ordersOk
    clear_value rows u
    split
    · exact h
    · exact ordersOk_ite (rawOut_ordersOk h _ _ _ _ _) h
  clear_value v
  split
  · exact hv
  · exact perfAdd_ordersOk (event_ordersOk (win_ordersOk (setCmd_ordersOk hv _) _) _ _ _ _) _ _

theorem drainServe_ordersOk (c : Cmd) (f : Field) (w : Nat) (narrow off : Bool) (d : Drained) : (s.drainServe c f w narrow off d).ordersOk := by
  unfold State.drainServe
  refine ordersOk_ite h (ordersOk_foldl (fun t i ht => ?_) _ h)
  split
  · exact drainToken_ordersOk ht _ _ _ _ _ _ _
  · exact ht

theorem modTrain_ordersOk (c : Cmd) (g : Train → Train) : (s.modTrain c g).ordersOk := modCmd_ordersOk h _ _ _

theorem freeCtr_ordersOk (n : Nat) : ({ s with freeCtr := n } : State).ordersOk := h

theorem privateWrite_ordersOk (c : Cmd) (k : Traffic) (a n : Nat) : (s.privateWrite c k a n).ordersOk :=
  ordersOk_ite h (askWrite_ordersOk (freeCtr_ordersOk h _) _ _ _ _ _ _)

theorem drainDz_ordersOk (c : Cmd) (f : Field) (w : Nat) (d : Drained) : (s.drainDz c f w d).ordersOk := by
  unfold State.drainDz
  exact privateWrite_ordersOk (totals_ordersOk (setCmd_ordersOk h _) _) _ _ _ _

theorem drainDw_ordersOk (c : Cmd) (f : Field) (w : Nat) (chains : List (List Chain)) : (s.drainDw c f w chains).ordersOk := by
  unfold State.drainDw
  extract_lets u
  have hu : u.ordersOk := setCmd_ordersOk h _
  exact ordersOk_ite (privateWrite_ordersOk hu _ _ _ _) hu

theorem dhOut_ordersOk (c : Cmd) (f : Field) (k t : Nat) (xs : List F32) : (s.dhOut c f k t xs).ordersOk :=
  ordersOk_ite (pushSegment_ordersOk h _ _ _ _) (output_ordersOk h _ _ _ _ _ _)

theorem drainDh_ordersOk (c : Cmd) (f : Field) (k : Nat) (d : Drained) : (s.drainDh c f k d).ordersOk :=
  ordersOk_ite (modTrain_ordersOk h _ _) (ordersOk_foldl (fun _ _ ht => dhOut_ordersOk ht _ _ _ _ _) _ (modTrain_ordersOk h _ _))

/-! ### Faults that a tile meets, and what it counts -/

theorem retireLine_ordersOk (row : Bool) (line : Nat) : (s.retireLine row line).ordersOk := by
  unfold State.retireLine
  exact refreshWidth_ordersOk (acre_ordersOk h _)

theorem parityError_ordersOk (row : Bool) (line : Nat) : (s.parityError row line).ordersOk :=
  retireLine_ordersOk (fnAuto_ordersOk (flt_ordersOk h _) 0) row line

theorem correctedReads_ordersOk (ce : Corrected) : (s.correctedReads ce).ordersOk :=
  corrected_ordersOk (flt_ordersOk (scaleCe_ordersOk (ordersOk_foldl (fun _ _ ht => ordersOk_ite (granaryCe_ordersOk ht _) ht) _ h) _) _) _

theorem tileUe_ordersOk (c : Cmd) (store : Bool) (bank word : Nat) : (s.tileUe c store bank word).ordersOk := by
  have hf := modField_ordersOk h (pkField c.run) damageField
  exact modCmd_ordersOk (ordersOk_ite (weightUe_ordersOk hf _ _) (granaryUe_ordersOk hf _ _)) _ _ _

theorem totalTile_ordersOk (r : TileRun) : (s.totalTile r).ordersOk := phaseCycles_ordersOk (totals_ordersOk h _) _

theorem drainUnit_ordersOk (c : Cmd) (f : Field) (k : TileKind) (r : TileRun) (chains : List (List Chain)) (d : Drained) :
    (s.drainUnit c f k r chains d).ordersOk := by
  unfold State.drainUnit
  split
  · exact ordersOk_ite (ordersOk_ite (setCmd_ordersOk h _) (drainDz_ordersOk h _ _ _ _)) (drainServe_ordersOk h _ _ _ _ _ _)
  · exact drainDw_ordersOk h _ _ _ _
  · exact drainDh_ordersOk h _ _ _ _

theorem runTile_ordersOk (c : Cmd) (bad : Bool) : (s.runTile c bad).ordersOk := by
  unfold State.runTile
  extract_lets f k fp8 shed es on chains d t r u d' c' c''
  have hu : u.ordersOk := ordersOk_ite (freeCtr_ordersOk h _) h
  clear_value u
  exact drainUnit_ordersOk (setCmd_ordersOk (totalTile_ordersOk hu r) _) _ _ _ _ _ _

theorem spend_ordersOk (c : Cmd) (n : Nat) : (s.spend c n).ordersOk := phaseCycles_ordersOk (modCmd_ordersOk h _ _ _) n

end

end Sys2Proof.Machine
end


section
/-! PROOF. Fetch orders name packets, fifth part: the phases, the commits, the merges, the context images, the power-fail hold and the
barrier. -/

namespace Sys2Proof.Machine

section
variable {s : State} (h : s.ordersOk)
include h

/-! ### The ends of the phases -/

theorem endServe_ordersOk (c : Cmd) (f : Field) : (s.endServe c f).ordersOk := by
  unfold State.endServe
  extract_lets w d u
  have hu : u.ordersOk := seedDrop_ordersOk (setCmd_ordersOk h d) _ _ _
  exact ordersOk_ite (spend_ordersOk hu _ _) hu

theorem endPhaseA_ordersOk (c : Cmd) : (s.endPhaseA c).ordersOk := spend_ordersOk (setCmd_ordersOk h _) _ _

theorem endPhaseB_ordersOk (c : Cmd) : (s.endPhaseB c).ordersOk := spend_ordersOk (setCmd_ordersOk h _) _ _

theorem endPhaseC_ordersOk (c : Cmd) (f : Field) : (s.endPhaseC c f).ordersOk := by
  unfold State.endPhaseC
  exact spend_ordersOk (seedDrop_ordersOk (setCmd_ordersOk h _) _ _ _) _ _

theorem endPhase_ordersOk (c : Cmd) (f : Field) : (s.endPhase c f).ordersOk := by
  unfold State.endPhase
  split
  · exact endServe_ordersOk h c f
  · exact endPhaseA_ordersOk h c
  · exact endPhaseB_ordersOk h c
  · exact endPhaseC_ordersOk h c f

theorem nextTile_ordersOk (c : Cmd) : (s.nextTile c).ordersOk := by
  unfold State.nextTile
  extract_lets f k d e u v
  have hu : u.ordersOk := setCmd_ordersOk h e
  have hv : v.ordersOk := ordersOk_ite (setCmd_ordersOk h d) (ordersOk_ite hu (endPhase_ordersOk hu _ _))
  clear_value v
  split
  · exact ordersOk_ite hv (askTile_ordersOk hv _)
  · exact hv

theorem afterTile_ordersOk (c : Cmd) : (s.afterTile c).ordersOk := by
  unfold State.afterTile
  split
  · exact nextTile_ordersOk h _
  · exact h

theorem tileAfterUe_ordersOk (c : Cmd) : (s.tileAfterUe c).ordersOk := by
  unfold State.tileAfterUe
  split
  · exact settle_ordersOk (afterTile_ordersOk (runTile_ordersOk h _ _) _)
  · exact h

theorem held_ordersOk (a : Acre) (x : Streams) : ({ s with acre := a, streams := x } : State).ordersOk := h

theorem acreTileDo_ordersOk (fault : TileFault) (ce : Corrected) (c : Cmd) : (acreTileDo fault ce c s).ordersOk := by
  unfold acreTileDo
  refine ordersOk_ite h (ordersOk_ite (held_ordersOk h _ _) ?_)
  have hce := correctedReads_ordersOk h ce
  cases fault with
  | parity row line => exact parityError_ordersOk hce row line
  | granary b w => exact tileAfterUe_ordersOk (tileUe_ordersOk hce c false b w) c
  | scaleStore b w => exact tileAfterUe_ordersOk (tileUe_ordersOk hce c true b w) c
  | none => exact settle_ordersOk (afterTile_ordersOk (runTile_ordersOk hce c false) c)

theorem tileReleaseDo_ordersOk : (tileReleaseDo s).ordersOk := by
  unfold tileReleaseDo
  split
  · exact ordersOk_ite (held_ordersOk h _ _) h
  · exact h

theorem stagingDo_ordersOk (c : Cmd) : (stagingDo c s).ordersOk := event_ordersOk (modCmd_ordersOk h _ _ _) _ _ _ _

theorem freeAcre_ordersOk (r : Nat) (q : U32) : (s.freeAcre r q).ordersOk := (freeAcre_quiet s r q).ordersOk h

theorem endSteps_ordersOk (c : Cmd) : (s.endSteps c).1.ordersOk := by
  refine ordersOk_foldl_fst (β := List StripStep) (fun a p ha => ?_) _ h
  have hu := ordersOk_ite (p := p.reason = 0 ∧ (a.1.endStep c p).reason ≠ 0) (unreserve_ordersOk ha p) ha
  exact ordersOk_ite (countSkip_ordersOk hu _ _) hu

theorem writeStats_ordersOk (c : Cmd) (roots : List (Option MZ)) : (s.writeStats c roots).ordersOk := by
  unfold State.writeStats
  extract_lets recs u n
  have hu : u.ordersOk := modCmd_ordersOk h _ _ _
  exact ordersOk_ite (ordersOk_foldl (fun _ _ ht => pushSegment_ordersOk ht _ _ _ _) _ hu) (output_ordersOk hu _ _ _ _ _ _)

theorem endTrain_ordersOk (c : Cmd) : (s.endTrain c).ordersOk :=
  ordersOk_ite (output_ordersOk (openCommit_ordersOk h _ _) _ _ _ _ _ _) (openCommit_ordersOk h _ _)

theorem endHead_ordersOk (c : Cmd) : (s.endHead c).ordersOk :=
  ordersOk_ite (setCmd_ordersOk h _) (ordersOk_ite (writeStats_ordersOk (openCommit_ordersOk h _ _) _ _) (openCommit_ordersOk h _ _))

theorem endServing_ordersOk (c : Cmd) : (s.endServing c).ordersOk := setCmd_ordersOk (endSteps_ordersOk h c) _

theorem computePhaseEndDo_ordersOk (c : Cmd) : (computePhaseEndDo c s).ordersOk := by
  unfold computePhaseEndDo
  extract_lets u _ d v
  have hu : u.ordersOk := freeAcre_ordersOk h _ _
  have hv : v.ordersOk := ordersOk_ite (endTrain_ordersOk hu d) (ordersOk_ite (endHead_ordersOk hu d) (endServing_ordersOk hu d))
  exact afterCommit_ordersOk (settle_ordersOk (levelEffects_ordersOk hv))

/-! ### Commits -/

theorem writeRecord_ordersOk (c : Cmd) (p : StripStep) : (s.writeRecord c p).ordersOk := by
  unfold State.writeRecord
  extract_lets u
  have hu : u.ordersOk := ordersOk_ite h (output_ordersOk h _ _ _ _ _ _)
  exact ordersOk_ite (pushSegment_ordersOk hu _ _ _ _) (output_ordersOk hu _ _ _ _ _ _)

theorem turnTenants_ordersOk (ps : List StripStep) (ts : List Time) : (s.turnTenants ps ts).ordersOk :=
  ordersOk_foldl (fun _ _ ht => ordersOk_ite (modTenant_ordersOk ht _ _) ht) _ h

theorem at_ordersOk (now : Time) : (s.at now).ordersOk := by
  unfold State.at
  rw [passTime_eq]
  exact ordersOk_ite (by exact ordersOk_ite (p := s.boot.ready = true) h h) h

theorem stripCommitDo_ordersOk (c : Cmd) (ts : List Time) : (stripCommitDo c ts s).ordersOk := by
  unfold stripCommitDo
  extract_lets u steps v _ d w
  have hu : u.ordersOk := at_ordersOk (turnTenants_ordersOk h _ _) _
  have hv : v.ordersOk := takeCommit_ordersOk (freeCtr_ordersOk hu _) c
  have hw : w.ordersOk := tell_ordersOk (setCmd_ordersOk hv d) _ _ _ _ _ _
  exact settle_ordersOk (ordersOk_foldl (fun _ _ ht => writeRecord_ordersOk ht _ _) _ hw)

theorem commitStep_ordersOk (c : Cmd) (p : StripStep) : (s.commitStep c p).ordersOk := by
  unfold State.commitStep
  have hw (w : Win) (t : Totals) (g : Strip → Strip) : ({ s.modStrip p.strip g with win := w, totals := t } : State).ordersOk := h
  exact perfAdd_ordersOk (perfAdd_ordersOk (ordersOk_ite (energy_ordersOk (modTenant_ordersOk (hw _ _ _) _ _) _) (hw _ _ _)) _ _) _ _

theorem closeStep_ordersOk (c : Cmd) (p : StripStep) : (s.closeStep c p).1.ordersOk := by
  unfold State.closeStep
  extract_lets _ u
  have hu : u.ordersOk := totals_ordersOk h _
  split
  · exact ordersOk_ite (unreserve_ordersOk h p) h
  · split
    · exact commitStep_ordersOk hu c p
    · exact hu

theorem resultRecordsDo_ordersOk (c : Cmd) : (resultRecordsDo c s).ordersOk := by
  have hclose : ((c.work.steps.foldl (fun (a : State × List StripStep) p => let (s, p) := a.1.closeStep c p; (s, a.2 ++ [p])) (s, [])).1).ordersOk :=
    ordersOk_foldl_fst (β := List StripStep) (fun _ p ha => closeStep_ordersOk ha c p) _ h
  exact afterCommit_ordersOk (settle_ordersOk (finish_ordersOk hclose _ _ _))

theorem resSegmentDo_ordersOk : (resSegmentDo s).ordersOk := by
  unfold resSegmentDo
  split
  · exact h
  · exact event_ordersOk (perfAdd_ordersOk (streams_ordersOk h _) _ _) _ _ _ _

/-! ### Merges -/

theorem shard_ordersOk (x : Shard) : ({ s with shard := x } : State).ordersOk := h

theorem clearOut_ordersOk : s.clearOut.ordersOk := h

theorem sendRound_ordersOk (c : Cmd) (round : Nat) (units : List (Nat × Nat × List Byte)) : (s.sendRound c round units).ordersOk := by
  unfold State.sendRound
  extract_lets f out n u _
  have hu : u.ordersOk := modCmd_ordersOk h _ _ _
  exact ordersOk_ite h (ordersOk_ite hu (event_ordersOk (shard_ordersOk hu _) _ _ _ _))

theorem sendAbort_ordersOk (c : Cmd) : (s.sendAbort c).ordersOk := ordersOk_ite (sendRound_ordersOk h _ _ _) h

theorem countMismatch_ordersOk (n : Nat) : (s.countMismatch n).ordersOk := h

theorem mergeStep_ordersOk (c : Cmd) (f : Field) (p : StripStep) : (s.mergeStep c f p).1.ordersOk := by
  unfold State.mergeStep
  extract_lets es
  split
  · exact h
  · split
    · exact unreserve_ordersOk (countMismatch_ordersOk h 1) p
    · split
      · exact unreserve_ordersOk h p
      · split
        · exact unreserve_ordersOk (countSkip_ordersOk h _ _) p
        · exact h

theorem endShards_ordersOk (c : Cmd) : (s.endShards c).ordersOk := by
  unfold State.endShards
  split
  · exact h
  · exact endWork_ordersOk (setCmd_ordersOk h _) _ _

theorem failShards_ordersOk (c : Cmd) : (s.failShards c).ordersOk := endShards_ordersOk (shard_ordersOk h _) c

theorem endSampleMerge_ordersOk (c : Cmd) (f : Field) : (s.endSampleMerge c f).ordersOk := by
  have hmerge : ((c.work.steps.foldl (fun (a : State × List StripStep) p => let (s, p) := a.1.mergeStep c f p; (s, a.2 ++ [p])) (s, [])).1).ordersOk :=
    ordersOk_foldl_fst (β := List StripStep) (fun _ p ha => mergeStep_ordersOk ha c f p) _ h
  exact setCmd_ordersOk (freeCtr_ordersOk hmerge _) _

theorem endHeadMerge_ordersOk (c : Cmd) (f : Field) : (s.endHeadMerge c f).ordersOk := by
  unfold State.endHeadMerge
  extract_lets ts roots _ _ d u v
  have hu : u.ordersOk := countMismatch_ordersOk (freeCtr_ordersOk h _) _
  have hv : v.ordersOk := openCommit_ordersOk hu _ _
  exact ordersOk_ite hv (writeStats_ordersOk hv _ _)

theorem endTrainExchange_ordersOk (c : Cmd) (f : Field) : (s.endTrainExchange c f).ordersOk :=
  ordersOk_ite (endShards_ordersOk h c) (setCmd_ordersOk h _)

theorem endExchange_ordersOk (c : Cmd) (f : Field) : (s.endExchange c f).ordersOk := by
  unfold State.endExchange
  extract_lets _ _ d u
  have hu : u.ordersOk := setCmd_ordersOk h d
  exact ordersOk_ite (endTrainExchange_ordersOk h c f)
    (endMergeOf_ordersOk (ordersOk_ite (endSampleMerge_ordersOk hu d f) (endHeadMerge_ordersOk hu d f)) _ _)

theorem pumpMerge_ordersOk (r : Nat) (q : U32) (fuel : Nat) : (s.pumpMerge r q fuel).ordersOk := by
  induction fuel generalizing s with
  | zero => exact h
  | succ fuel ih =>
    unfold State.pumpMerge
    split
    · exact h
    · refine ordersOk_ite h (ordersOk_ite ?_ (ordersOk_ite ?_ ?_))
      · exact ordersOk_ite (failShards_ordersOk h _) h
      · exact ih (modCmd_ordersOk (sendRound_ordersOk h _ _ _) _ _ _)
      · exact ordersOk_ite (endExchange_ordersOk h _ _) h

theorem runMerge_ordersOk (c : Cmd) : (s.runMerge c).ordersOk := settle_ordersOk (pumpMerge_ordersOk h _ _ _)

theorem claim_ordersOk (m c : Cmd) : (s.claim m c).ordersOk := by
  unfold State.claim
  extract_lets abort _ _ u v
  have hv : v.ordersOk := modCmd_ordersOk (setCmd_ordersOk h _) _ _ _
  exact ordersOk_ite (sendAbort_ordersOk (clearOut_ordersOk hv) c) (clearOut_ordersOk hv)

theorem shardMergeDo_ordersOk (m : Cmd) : (shardMergeDo s m).ordersOk := by
  unfold shardMergeDo
  extract_lets u
  have hu : u.ordersOk := enqueue_ordersOk h m
  clear_value u
  split
  · exact hu
  · split
    · exact settle_ordersOk (finish_ordersOk hu _ _ _)
    · exact settle_ordersOk (claim_ordersOk hu _ _)

theorem mergeStartDo_ordersOk (c : Cmd) : (mergeStartDo c s).ordersOk := by
  unfold mergeStartDo
  extract_lets m start send m' _ d u
  have hu : u.ordersOk := setCmd_ordersOk h d
  exact runMerge_ordersOk (ordersOk_ite (sendRound_ordersOk hu _ _ _) hu) d

theorem shardRecordDo_ordersOk (b : List Byte) : (shardRecordDo b s).ordersOk := by
  unfold shardRecordDo
  extract_lets took bad _
  have hbad (t : State) (ht : t.ordersOk) : (bad t).ordersOk := shard_ordersOk ht _
  have htook (t : State) (ht : t.ordersOk) : (took t).ordersOk := shard_ordersOk ht _
  clear_value took bad
  refine ordersOk_ite (bgEvent_ordersOk (hbad s h) _ _) ?_
  split
  · rename_i c _
    have hc := event_ordersOk h c.ring c.seq 13 4
    exact ordersOk_ite (hbad _ hc) (runMerge_ordersOk (takeRecord_ordersOk (htook _ hc) _ _) _)
  · exact ordersOk_ite (bgEvent_ordersOk (hbad s h) _ _) (bgEvent_ordersOk (htook _ (shard_ordersOk h _)) _ _)

/-! ### Context images -/

theorem formImage_ordersOk (c : Cmd) (n : Nat) : (s.formImage c n).1.ordersOk := h

theorem saveImage_ordersOk (c d : Cmd) : (s.saveImage c d).ordersOk :=
  output_ordersOk (holdPart_ordersOk (formImage_ordersOk (modCmd_ordersOk h _ _ _) _ _) _ _) _ _ _ _ _ _

theorem ctxSaveDo_ordersOk (c : Cmd) : (ctxSaveDo s c).ordersOk := by
  unfold ctxSaveDo
  extract_lets n u _ _ d e v
  have hu : u.ordersOk := freeCtr_ordersOk h _
  have hv : v.ordersOk := setCmd_ordersOk hu e
  split
  · split
    · exact h
    · exact ctlDone_ordersOk h _ _ _
  · refine ordersOk_ite h ?_
    split
    · exact ctlDone_ordersOk (endCmd_ordersOk h _ _) _ _ _
    · exact ctlDone_ordersOk h _ _ _
  · split
    · exact ctlDone_ordersOk h _ _ _
    · exact ordersOk_ite (ctlDone_ordersOk hu _ _ _) (ordersOk_ite (modCmd_ordersOk hv _ _ _) (saveImage_ordersOk hv _ _))

theorem stopInside_ordersOk (c : Cmd) (p : Nat) : (s.stopInside c p).ordersOk := by
  unfold State.stopInside
  exact phaseCycles_ordersOk (setCmd_ordersOk (totals_ordersOk h _) _) _

theorem ctxPauseDo_ordersOk (c d : Cmd) (strand : Nat) : (ctxPauseDo c d strand s).ordersOk := by
  unfold ctxPauseDo
  extract_lets u
  have hu : u.ordersOk := ordersOk_ite h (stopInside_ordersOk h d strand)
  clear_value u
  split
  · exact saveImage_ordersOk hu _ _
  · exact hu

theorem takeImage_ordersOk (c : Cmd) (b : List Byte) : (s.takeImage c b).ordersOk := by
  unfold State.takeImage
  extract_lets p f w _ u v
  have hu : u.ordersOk := ordersOk_ite h (streams_ordersOk h _)
  have hv : v.ordersOk := ordersOk_ite (tensors_ordersOk hu _) hu
  exact settle_ordersOk (takeEarly_ordersOk (grantAtDispatch_ordersOk (setCmd_ordersOk hv _) _) _)

theorem refuseImage_ordersOk (c : Cmd) (b : List Byte) (r : Reason) : (s.refuseImage c b r).ordersOk := by
  unfold State.refuseImage
  extract_lets fr t _
  have ht : t.ordersOk := refuse_ordersOk h c r
  exact settle_ordersOk (ordersOk_ite (streams_ordersOk ht _) ht)

theorem restorePart_ordersOk (c : Cmd) : (restorePart s c).ordersOk := by
  unfold restorePart
  extract_lets a size head n b
  clear_value size head n b
  refine ordersOk_ite (askRead_ordersOk (modCmd_ordersOk h _ _ _) _ _ _ _ _ _) ?_
  split
  · exact refuseImage_ordersOk h _ _ _
  · exact takeImage_ordersOk h _ _

theorem seedLoad_ordersOk (c : Cmd) : (s.seedLoad c).ordersOk := by
  unfold State.seedLoad
  split
  · exact h
  · exact settle_ordersOk (seedTake_ordersOk (modCmd_ordersOk h _ _ _) _ _ _)

theorem ctxRestoreDo_ordersOk (c : Cmd) : (ctxRestoreDo s c).ordersOk :=
  settle_ordersOk (askRead_ordersOk (streams_ordersOk (enqueue_ordersOk h c) _) _ _ _ _ _ _)

theorem ctxRestoreStep_ordersOk (r : Nat) : (ctxRestoreStep s r).ordersOk := by
  unfold ctxRestoreStep
  split
  · exact restorePart_ordersOk h _
  · split
    · exact seedLoad_ordersOk h _
    · split
      · exact ctxRestoreDo_ordersOk h _
      · exact h

/-! ### The power-fail hold -/

theorem askArea_ordersOk (r : Nat) (q : U32) (off : Nat) (b : List Byte) : (s.askArea r q off b).ordersOk := askWrite_ordersOk h _ _ _ _ _ _

theorem writeArea_ordersOk : s.writeArea.ordersOk := by
  unfold State.writeArea
  extract_lets _ u v
  have hu : u.ordersOk := energy_ordersOk h _
  have hv : v.ordersOk := ordersOk_ite (askArea_ordersOk hu _ _ _ _) hu
  exact askArea_ordersOk hv _ _ _ _

theorem pfailSave_ordersOk (c : Cmd) (off : Nat) : (s.pfailSave c off).1.ordersOk := by
  unfold State.pfailSave
  extract_lets n len u _ _
  have hu : u.ordersOk := freeCtr_ordersOk h _
  split
  · exact askArea_ordersOk (energy_ordersOk (endCmd_ordersOk (formImage_ordersOk hu c n) c .saved) _) _ _ _ _
  · exact energy_ordersOk (endCmd_ordersOk hu c .abortedReset) _

theorem pfailEnd_ordersOk (c : Cmd) : (s.pfailEnd c).ordersOk := by
  unfold State.pfailEnd
  split
  · exact h
  · exact h
  · exact ordersOk_ite (endWork_ordersOk h _ _) h
  · exact endCmd_ordersOk h _ _

theorem pfailStop_ordersOk (strand : Nat) : (s.pfailStop strand).ordersOk := by
  unfold State.pfailStop
  split
  · exact ordersOk_ite (stopInside_ordersOk h _ _) h
  · exact h

theorem pfailBegin_ordersOk (strand : Nat) : (s.pfailBegin strand).ordersOk := by
  unfold State.pfailBegin
  extract_lets u _ v w x y
  have hv : v.ordersOk := raise_ordersOk (energy_ordersOk (pfailStop_ordersOk h strand) _) 7
  have hw : w.ordersOk := abortFetch_ordersOk hv
  have hx : x.ordersOk := by
    show (match w.barrier with | some r => w.leaveBarrier r | none => w : State).ordersOk
    clear_value w
    split
    · exact leaveBarrier_ordersOk hw _
    · exact hw
  have hy : y.ordersOk := by
    refine ordersOk_foldl_fst (β := Nat) (fun a c ha => ?_) _ hx
    split
    · exact pfailSave_ordersOk ha _ _
    · exact ha
  refine ordersOk_foldl (fun t c ht => ?_) _ hy
  split
  · exact pfailEnd_ordersOk ht _
  · exact ht

theorem powerFailDo_ordersOk (strand : Nat) : (powerFailDo strand s).ordersOk := by
  unfold powerFailDo
  extract_lets u
  have hu : u.ordersOk := ordersOk_ite h (pfailBegin_ordersOk h strand)
  exact ordersOk_ite (bootFail_ordersOk h _ _) (settle_ordersOk (ordersOk_ite hu (writeArea_ordersOk hu)))

/-! ### The barrier -/

theorem gateSignalDo_ordersOk (c : Cmd) : (gateSignalDo s c).ordersOk :=
  ordersOk_ite (ctlDone_ordersOk (gateAdd_ordersOk h _ _) _ _ _) (ctlDone_ordersOk h _ _ _)

theorem gateWaitDo_ordersOk (c : Cmd) : (gateWaitDo s c).ordersOk := ordersOk_ite (ctlDone_ordersOk h _ _ _) (ctlDone_ordersOk h _ _ _)

theorem stripSetDo_ordersOk (c : Cmd) : (stripSetDo s c).ordersOk := by
  unfold stripSetDo
  split
  · exact stripParamsDo_ordersOk h c
  · exact stripReleaseDo_ordersOk h c
  · exact stripInstallDo_ordersOk h c

theorem fwSwapDo_ordersOk (c : Cmd) : (fwSwapDo s c).ordersOk := by
  unfold fwSwapDo
  split
  · exact fwSwitchDo_ordersOk h c
  · exact fwLoadSwitchDo_ordersOk h c
  · exact fwLoadDo_ordersOk h c

theorem ctlAction_ordersOk (op : Nat) (c : Cmd) : (ctlAction op s c).ordersOk := by
  unfold ctlAction
  split
  · exact ctlDone_ordersOk h _ _ _
  · exact ctlDone_ordersOk h _ _ _
  · exact gateWaitDo_ordersOk h c
  · exact gateSignalDo_ordersOk h c
  · exact evictHeadDo_ordersOk h c
  · exact stripSetDo_ordersOk h c
  · exact stripGetDo_ordersOk h c
  · exact ctxSaveDo_ordersOk h c
  · exact energySetDo_ordersOk h c
  · exact fwSwapDo_ordersOk h c

theorem classAction_ordersOk (op : Nat) (c : Cmd) : (classAction op s c).ordersOk := by
  unfold classAction
  split
  · exact sampleDo_ordersOk h c
  · exact verifyDo_ordersOk h c
  · exact queueDo_ordersOk h c
  · exact shardMergeDo_ordersOk h c
  · exact queueDo_ordersOk h c
  · exact ctxRestoreDo_ordersOk h c
  · exact settle_ordersOk (enqueue_ordersOk h _)

theorem dispatchNow_ordersOk (r : Nat) : (s.dispatchNow r).ordersOk := by
  unfold State.dispatchNow
  split
  · exact h
  · refine ordersOk_ite ?_ ?_
    · split
      · exact classAction_ordersOk h _ _
      · exact h
    · split
      · exact ctlAction_ordersOk h _ _
      · exact h

theorem barrierHighDo_ordersOk : (barrierHighDo s).ordersOk := by
  unfold barrierHighDo
  split
  · exact h
  · rename_i r _
    extract_lets u
    have hu : u.ordersOk := by
      show (match s.waiting r with | some c => s.setCmd { c with joined := true } | none => s : State).ordersOk
      split
      · exact setCmd_ordersOk h _
      · exact h
    exact dispatchNow_ordersOk (markTurns_ordersOk (leaveBarrier_ordersOk hu r)) r

theorem answered_ordersOk : s.answered.ordersOk := probeIssue_ordersOk (afterCommit_ordersOk h)

end

end Sys2Proof.Machine
end


section
/-! PROOF. Fetch orders name packets, last part: the rows, one step, and the reset (O60). -/

namespace Sys2Proof.Machine

/-- What a row answers keeps the fetch orders. -/
def Orderly (o : Out) : Prop := ∀ t, o = .next t → t.ordersOk

theorem keep_orderly {s t : State} (ht : t.ordersOk) : Orderly (.next (s.keep t)) := by
  rintro _ ⟨⟩
  exact ht

theorem keepMem_orderly {s t : State} (m : List Host.Cell) (ht : t.ordersOk) : Orderly (.next (s.keepMem m t)) := by
  rintro _ ⟨⟩
  exact ht

section
variable {s : State} (h : s.ordersOk)
include h

theorem pins_ordersOk (p : Pins) : ({ s with pins := p } : State).ordersOk := h

theorem mem_ordersOk (m : List Host.Cell) : ({ s with mem := m } : State).ordersOk := h

theorem apbOut_ordersOk (v : U32) (e : Bool) : (s.apbOut v e).ordersOk := h

/-! ### Registers -/

theorem fltResetWrite_orderly (port : Bool) (v : U32) (now : Time) : Orderly (execFltResetWrite port v now s) := by
  have ht := tick_ordersOk h now
  exact keep_orderly (ordersOk_ite ht (ordersOk_ite (apbOut_ordersOk ht _ _) (apbOut_ordersOk (fltResetDo_ordersOk ht port v) _ _)))

theorem loReadLatch_orderly (a : BitVec 20) (now : Time) : Orderly (execLoReadLatch a now s) := by
  have ht := tick_ordersOk h now
  refine keep_orderly (ordersOk_ite ht ?_)
  split
  · exact apbOut_ordersOk ht _ _
  · exact ordersOk_ite (readDo_ordersOk ht a _) (apbOut_ordersOk ht _ _)

theorem registerWrite_orderly (a : BitVec 20) (v : U32) (strb : BitVec 4) (now : Time) : Orderly (execRegisterWrite a v strb now s) := by
  have ht := tick_ordersOk h now
  have hout (e : Bool) := apbOut_ordersOk ht 0 e
  refine keep_orderly (ordersOk_ite ht ?_)
  split
  · exact hout _
  · refine ordersOk_ite (hout _) (ordersOk_ite ?_ (ordersOk_ite (hout _) ?_))
    · exact ordersOk_ite (apbOut_ordersOk (bootWriteDo_ordersOk ht _ _) _ _) (hout _)
    · exact apbOut_ordersOk (regWriteDo_ordersOk ht _ _) _ _

/-! ### Resets and ports -/

theorem fnRstAssert_orderly (fn : Fin 10) (src : ResetSource) (now : Time) : Orderly (execFnRstAssert fn src now s) := by
  have ht := tick_ordersOk h now
  refine keep_orderly (ordersOk_ite (fnRstAssertDo_ordersOk ht _ _) ?_)
  cases src with
  | pin => exact pins_ordersOk ht _
  | auto => exact ht

theorem stkPortReset_orderly (port : Fin 24) (low : Bool) (now : Time) : Orderly (execStkPortReset port low now s) := by
  have ht (p : Pins) := pins_ordersOk (tick_ordersOk h now) p
  exact keep_orderly (ordersOk_ite (resetPort_ordersOk (ht _) _) (ht _))

theorem stkDrained_orderly (port : Fin 24) (high : Bool) : Orderly (execStkDrained port high s) := by
  have ht (p : Pins) := pins_ordersOk h p
  exact keep_orderly (ordersOk_ite (probeIssue_ordersOk (reissueWrites_ordersOk (ht _) _)) (ht _))

theorem reqCreditReturn_orderly (port : Fin 24) (now : Time) : Orderly (execReqCreditReturn port now s) := by
  have ht := tick_ordersOk h now
  exact keep_orderly (ordersOk_ite ht (ordersOk_ite (protoError_ordersOk ht _ _)
    (bootAdvance_ordersOk (probeIssue_ordersOk (modPort_ordersOk ht _ _)))))

theorem wdCreditReturn_orderly (port : Fin 24) (now : Time) : Orderly (execWdCreditReturn port now s) := by
  have ht := tick_ordersOk h now
  exact keep_orderly (ordersOk_ite ht (ordersOk_ite (protoError_ordersOk ht _ _) (probeIssue_ordersOk (modPort_ordersOk ht _ _))))

theorem readResponse_orderly (port : Fin 24) (tag : BitVec 10) (beat : BitVec 3) (last : Bool) (code : RspCode) (data : List Byte) (now : Time) :
    Orderly (execReadResponse port tag beat last code data now s) := by
  have ht := tick_ordersOk h now
  unfold execReadResponse
  extract_lets t
  split
  · exact keep_orderly ht
  · split
    · exact keep_orderly (protoError_ordersOk ht _ _)
    · split
      · exact keep_orderly (protoError_ordersOk ht _ _)
      · exact keepMem_orderly _ (answered_ordersOk (takeBeat_ordersOk (mem_ordersOk ht _) _ _))

theorem writeResponse_orderly (port : Fin 24) (tag : BitVec 10) (beat : BitVec 3) (last : Bool) (code : RspCode) (now : Time) :
    Orderly (execWriteResponse port tag beat last code now s) := by
  have ht := tick_ordersOk h now
  unfold execWriteResponse
  extract_lets t
  split
  · exact keep_orderly ht
  · split
    · exact keep_orderly (protoError_ordersOk ht _ _)
    · split
      · exact keep_orderly (protoError_ordersOk ht _ _)
      · exact keepMem_orderly _ (answered_ordersOk (takeAck_ordersOk (mem_ordersOk ht _) _ _))

theorem prtProbeResponse_orderly (code : RspCode) (data : U64) (now : Time) : Orderly (execPrtProbeResponse code data now s) := by
  have ht := tick_ordersOk h now
  unfold execPrtProbeResponse
  extract_lets t
  split
  · exact keep_orderly ht
  · have hm (m : List Host.Cell) := mem_ordersOk ht m
    exact keepMem_orderly _ (answered_ordersOk (ordersOk_ite (takeBeat_ordersOk (hm _) _ _) (takeAck_ordersOk (hm _) _ _)))

theorem transferTimeout_orderly (port : Fin 24) (tag : BitVec 10) (now : Time) : Orderly (execTransferTimeout port tag now s) := by
  have ht := tick_ordersOk h now
  refine keep_orderly ?_
  split
  · exact ordersOk_ite (protoError_ordersOk ht _ _) ht
  · exact ht

theorem moverPowerDown_orderly (mover : Fin 16) : Orderly (execMoverPowerDown mover s) := by
  have ht (p : Pins) := pins_ordersOk h p
  exact keep_orderly (ordersOk_ite (endGrants_ordersOk (ht _)) (ht _))

/-! ### Rings and gates -/

theorem gateTimeout_orderly (ring : Fin 64) (now : Time) : Orderly (execGateTimeout ring now s) := by
  have ht := tick_ordersOk h now
  refine keep_orderly ?_
  split
  · exact settle_ordersOk (refuse_ordersOk ht _ _)
  · exact ht

theorem barrierInHigh_orderly (now : Time) : Orderly (execBarrierInHigh now s) := by
  have ht (p : Pins) := pins_ordersOk (tick_ordersOk h now) p
  exact keep_orderly (ordersOk_ite (barrierHighDo_ordersOk (ht _)) (ht _))

theorem barrierInLow_orderly : Orderly (execBarrierInLow s) := by
  have ht (p : Pins) := pins_ordersOk h p
  exact keep_orderly (ordersOk_ite (passOn_ordersOk (ht _)) (ht _))

/-! ### Compute -/

theorem harrowConvert_orderly (ring : Fin 64) (seq : U32) (ue : Bool) : Orderly (execHarrowConvert ring seq ue s) := by
  refine keep_orderly ?_
  split
  · exact ordersOk_ite (frameMalformed_ordersOk h _ _) (harrowConvertDo_ordersOk h _ _)
  · exact h

theorem conversionDone_orderly (ring : Fin 64) (seq : U32) : Orderly (execConversionDone ring seq s) := by
  refine keep_orderly ?_
  split
  · exact conversionDoneDo_ordersOk h _
  · exact h

theorem acreTile_orderly (fault : TileFault) (ce : Corrected) (now : Time) : Orderly (execAcreTile fault ce now s) := by
  have ht := tick_ordersOk h now
  refine keep_orderly ?_
  split
  · exact acreTileDo_ordersOk ht _ _ _
  · exact ht

theorem stagingSwath_orderly (ring : Fin 64) (seq : U32) : Orderly (execStagingSwath ring seq s) := by
  refine keep_orderly ?_
  split
  · exact stagingDo_ordersOk h _
  · exact h

theorem computePhaseEnd_orderly (now : Time) : Orderly (execComputePhaseEnd now s) := by
  have ht := tick_ordersOk h now
  refine keep_orderly ?_
  split
  · exact computePhaseEndDo_ordersOk ht _
  · exact ht

theorem stripCommit_orderly (ring : Fin 64) (seq : U32) (times : List Time) : Orderly (execStripCommit ring seq times s) := by
  refine keep_orderly ?_
  split
  · exact stripCommitDo_ordersOk h _ _
  · exact h

theorem resultRecordsWritten_orderly (ring : Fin 64) (seq : U32) (now : Time) : Orderly (execResultRecordsWritten ring seq now s) := by
  have ht := tick_ordersOk h now
  refine keep_orderly ?_
  split
  · exact resultRecordsDo_ordersOk ht _
  · exact ht

theorem completionWritten_orderly (ring : Fin 64) (now : Time) : Orderly (execCompletionWritten ring now s) := by
  have ht := tick_ordersOk h now
  refine keep_orderly ?_
  split
  · exact completionDo_ordersOk ht _
  · exact ht

theorem ctxPauseReached_orderly (ring : Fin 64) (seq : U32) (strand : Fin 64) (now : Time) :
    Orderly (execCtxPauseReached ring seq strand now s) := by
  have ht := tick_ordersOk h now
  refine keep_orderly ?_
  split
  · exact ctxPauseDo_ordersOk ht _ _ _
  · exact ht

theorem mergeStart_orderly (ring : Fin 64) (seq : U32) (now : Time) : Orderly (execMergeStart ring seq now s) := by
  have ht := tick_ordersOk h now
  refine keep_orderly (ordersOk_ite ?_ ht)
  split
  · exact ordersOk_ite (mergeStartDo_ordersOk (clearOut_ordersOk ht) _) ht
  · exact ht

theorem shardTimeout_orderly (ring : Fin 64) (seq : U32) (now : Time) : Orderly (execShardTimeout ring seq now s) := by
  have ht := tick_ordersOk h now
  refine keep_orderly ?_
  split
  · exact settle_ordersOk (failShards_ordersOk (sendAbort_ordersOk (clearOut_ordersOk ht) _) _)
  · exact ht

theorem powerFailHold_orderly (strand : Fin 64) (now : Time) : Orderly (execPowerFailHold strand now s) := by
  have ht (p : Pins) := pins_ordersOk (tick_ordersOk h now) p
  exact keep_orderly (ordersOk_ite (powerFailDo_ordersOk (ht _) _) (ht _))

/-! ### The pair -/

theorem pair_ordersOk (p : Pair) : ({ s with pair := p } : State).ordersOk := h

theorem pairResendDo_ordersOk : (pairResendDo s).ordersOk := bgEvent_ordersOk (pair_ordersOk h _) _ _

theorem transmit_ordersOk (type : Nat) (b : List Byte) : (s.transmit type b).ordersOk := bgEvent_ordersOk (pair_ordersOk h _) _ _

/-! ### Rows that can leave the state open -/

theorem wrapperInstructionUpdate_orderly {ins : WrapperIns} (hi : ins = .bypass) : Orderly (execWrapperInstructionUpdate ins s) := by
  subst hi
  exact keep_orderly (pins_ordersOk h _)

theorem ijtagSelfTestInstrument_orderly {ev : TapEvent} (he : ev ≠ .run) : Orderly (execIjtagSelfTestInstrument ev s) := by
  cases ev with
  | trst => exact keep_orderly h
  | clock tms tdi => exact keep_orderly h
  | run => exact absurd rfl he

theorem supplyRemoved_orderly {island : Island} (hi : island ≠ .ctrl) : Orderly (execSupplyRemoved island s) :=
  keep_orderly (freeCtr_ordersOk (loseIsland_ordersOk h hi _) _)

/-! ### Every row -/

theorem nopDo_ordersOk (c : Cmd) : (nopDo s c).ordersOk := ctlDone_ordersOk h _ _ _

theorem fenceDo_ordersOk (c : Cmd) : (fenceDo s c).ordersOk := ctlDone_ordersOk h _ _ _

theorem exec_orderly (i : Instr) (hi : leavesOpen i = false) : Orderly (exec i s) := by
  have ht (now : Time) := tick_ordersOk h now
  cases i
  case nop => exact keep_orderly (onCtl_ordersOk h fun _ c ht => nopDo_ordersOk ht c)
  case fence => exact keep_orderly (onCtl_ordersOk h fun _ c ht => fenceDo_ordersOk ht c)
  case gateWait => exact keep_orderly (onCtl_ordersOk h fun _ c ht => gateWaitDo_ordersOk ht c)
  case gateSignal => exact keep_orderly (onCtl_ordersOk h fun _ c ht => gateSignalDo_ordersOk ht c)
  case loadHead now => exact keep_orderly (loadHeadDo_ordersOk (ht now) _ _ _)
  case evictHead => exact keep_orderly (onCtl_ordersOk h fun _ c ht => evictHeadDo_ordersOk ht c)
  case stripSetInstall => exact keep_orderly (onStripSet_ordersOk h fun _ c ht => stripInstallDo_ordersOk ht c)
  case stripSetParams => exact keep_orderly (onStripSet_ordersOk h fun _ c ht => stripParamsDo_ordersOk ht c)
  case stripSetRelease => exact keep_orderly (onStripSet_ordersOk h fun _ c ht => stripReleaseDo_ordersOk ht c)
  case stripGet => exact keep_orderly (onCtl_ordersOk h fun _ c ht => stripGetDo_ordersOk ht c)
  case sampleStep => exact keep_orderly (onClass_ordersOk h fun _ c ht => sampleDo_ordersOk ht c)
  case verifyTree => exact keep_orderly (onClass_ordersOk h fun _ c ht => verifyDo_ordersOk ht c)
  case headFwd => exact keep_orderly (onClass_ordersOk h fun _ c ht => queueDo_ordersOk ht c)
  case shardMerge => exact keep_orderly (onClass_ordersOk h fun _ c ht => shardMergeDo_ordersOk ht c)
  case trainStep => exact keep_orderly (onClass_ordersOk h fun _ c ht => queueDo_ordersOk ht c)
  case update now => exact keep_orderly (updateDo_ordersOk (ht now) _ _ _ _)
  case updateSqsum now => exact keep_orderly (updateDo_ordersOk (ht now) _ _ _ _)
  case updateResume now => exact keep_orderly (updateDo_ordersOk (ht now) _ _ _ _)
  case sowFill now => exact keep_orderly (sowFillDo_ordersOk (ht now) _ _ _)
  case ctxSave => exact keep_orderly (onCtl_ordersOk h fun _ c ht => ctxSaveDo_ordersOk ht c)
  case ctxRestore now => exact keep_orderly (ctxRestoreStep_ordersOk (ht now) _)
  case energySet => exact keep_orderly (onCtl_ordersOk h fun _ c ht => energySetDo_ordersOk ht c)
  case fwSwapLoad => exact keep_orderly (onFwSwap_ordersOk h fun _ c ht => fwLoadDo_ordersOk ht c)
  case fwSwapSwitch => exact keep_orderly (onFwSwap_ordersOk h fun _ c ht => fwSwitchDo_ordersOk ht c)
  case fwSwapLoadSwitch => exact keep_orderly (onFwSwap_ordersOk h fun _ c ht => fwLoadSwitchDo_ordersOk ht c)
  case doorbell => exact keep_orderly (regWrite_ordersOk h fun _ ht => doorbellDo_ordersOk ht _ _)
  case ringRestart => exact keep_orderly (regWrite_ordersOk h fun _ ht => restartDo_ordersOk ht _)
  case ringCfgWrite => exact keep_orderly (regWrite_ordersOk h fun _ ht => ringCfgDo_ordersOk ht _ _ _)
  case cplHeadWrite => exact keep_orderly (regWrite_ordersOk h fun _ ht => cplHeadDo_ordersOk ht _ _)
  case gateWrite => exact keep_orderly (regWrite_ordersOk h fun _ ht => gateWriteDo_ordersOk ht _ _)
  case arbRingCommit => exact keep_orderly (regWrite_ordersOk h fun _ ht => ht)
  case arbRingSeed => exact keep_orderly (regWrite_ordersOk h fun _ ht => ht)
  case arbRingTktWrite => exact keep_orderly (regWrite_ordersOk h fun _ ht => ht)
  case arbMvrCommit => exact keep_orderly (regWrite_ordersOk h fun _ ht => ht)
  case arbMvrSeed => exact keep_orderly (regWrite_ordersOk h fun _ ht => seedPorts_ordersOk (by exact ht) _)
  case arbMvrTktWrite => exact keep_orderly (regWrite_ordersOk h fun _ ht => ht)
  case sowProbeGo => exact keep_orderly (regWrite_ordersOk h fun _ ht => sowGoDo_ordersOk ht _)
  case sowProbeDone => exact keep_orderly (ordersOk_ite (sowDoneDo_ordersOk h) h)
  case winFnGo => exact keep_orderly (regWrite_ordersOk h fun _ ht => fnCtlDo_ordersOk ht _)
  case winFnDone => exact keep_orderly (ordersOk_ite (fnDoneDo_ordersOk h) h)
  case prtProbeGo now => exact keep_orderly (regWrite_ordersOk (ht now) fun _ ht => probeGoDo_ordersOk ht _)
  case prtProbeResponse => exact prtProbeResponse_orderly h _ _ _
  case portOosWrite => exact keep_orderly (regWrite_ordersOk h fun _ ht => portCtlDo_ordersOk ht _ _)
  case tenAdj => exact keep_orderly (regWrite_ordersOk h fun _ ht => modTenant_ordersOk ht _ _)
  case tenWindowWrite now => exact keep_orderly (regWrite_ordersOk (ht now) fun _ ht => modTenant_ordersOk ht _ _)
  case grnSpareBankWrite => exact keep_orderly (regWrite_ordersOk h fun _ ht => grnSpareDo_ordersOk ht _ _)
  case acrSpareWrite => exact keep_orderly (regWrite_ordersOk h fun _ ht => acrSpareDo_ordersOk ht _ _ _)
  case fltResetWrite => exact fltResetWrite_orderly h _ _ _
  case pairEn => exact keep_orderly (regWrite_ordersOk h fun _ ht => pairCtlDo_ordersOk ht _)
  case detach now => exact keep_orderly (regWrite_ordersOk (ht now) fun _ ht => pairCtlDo_ordersOk ht _)
  case takeover now => exact keep_orderly (regWrite_ordersOk (ht now) fun _ ht => pairCtlDo_ordersOk ht _)
  case perfSnap now => exact keep_orderly (regWrite_ordersOk (ht now) fun _ ht => perfCtlDo_ordersOk ht _ _)
  case perfRelease => exact keep_orderly (regWrite_ordersOk h fun _ ht => perfCtlDo_ordersOk ht _ _)
  case go => exact keep_orderly (ordersOk_ite (apbOut_ordersOk (goDo_ordersOk h) _ _) h)
  case loReadLatch => exact loReadLatch_orderly h _ _
  case registerWrite => exact registerWrite_orderly h _ _ _ _
  case rstNAssert => exact keep_orderly (resetDo_ordersOk s)
  case rstNRelease => exact keep_orderly (pins_ordersOk h _)
  case pllBLock => exact keep_orderly (ordersOk_ite h h)
  case pllALock => exact keep_orderly (ordersOk_ite h h)
  case selfTestDone => exact keep_orderly (ordersOk_ite (selfTestDo_ordersOk h _) h)
  case paramsRead now => exact keep_orderly (paramsReadDo_ordersOk (ht now))
  case firmwareRead now => exact keep_orderly (firmwareReadDo_ordersOk (ht now))
  case fwReady now => exact keep_orderly (ordersOk_ite (fwReadyDo_ordersOk (ht now)) (ht now))
  case startStageTimeout => exact keep_orderly (stageTimeoutDo_ordersOk h _)
  case fnRstAssert => exact fnRstAssert_orderly h _ _ _
  case fnRstRelease => exact keep_orderly (stage7_ordersOk (pins_ordersOk h _))
  case fnResetDone now => exact keep_orderly (ordersOk_ite (fnResetDoneDo_ordersOk (ht now) _) (ht now))
  case stkPortReset => exact stkPortReset_orderly h _ _ _
  case stkDrained => exact stkDrained_orderly h _ _
  case stkUp => exact keep_orderly (ordersOk_ite (modPort_ordersOk h _ _) h)
  case reqCreditReturn => exact reqCreditReturn_orderly h _ _
  case wdCreditReturn => exact wdCreditReturn_orderly h _ _
  case readResponse => exact readResponse_orderly h _ _ _ _ _ _ _
  case writeResponse => exact writeResponse_orderly h _ _ _ _ _ _
  case transferTimeout => exact transferTimeout_orderly h _ _ _
  case moverTransferIssue now => exact keep_orderly (ordersOk_ite (issueDo_ordersOk (ht now) _ _ _ _) (ht now))
  case moverPowerDown => exact moverPowerDown_orderly h _
  case moverPowerUp => exact keep_orderly (pins_ordersOk h _)
  case fetchRetry now => exact keep_orderly (ordersOk_ite (modRing_ordersOk (ht now) _ _) (ht now))
  case cplWriteRetry now => exact keep_orderly (cplRetryDo_ordersOk (ht now) _)
  case ringDraw => exact keep_orderly (ordersOk_ite (drawRing_ordersOk h _ _) h)
  case packetFetch now => exact keep_orderly (ordersOk_ite (fetchStep_ordersOk (ht now) _) (ht now))
  case gateTimeout => exact gateTimeout_orderly h _ _
  case barrierInHigh => exact barrierInHigh_orderly h _
  case cutOff now => exact keep_orderly (cutOffDo_ordersOk (ht now) _)
  case energyAdmit => exact keep_orderly (energyAdmitDo_ordersOk h _ _)
  case poolGrant => exact keep_orderly (ordersOk_ite (poolGrantDo_ordersOk h) h)
  case harrowConvert => exact harrowConvert_orderly h _ _ _
  case conversionDone => exact conversionDone_orderly h _ _
  case actFrame now => exact keep_orderly (ordersOk_ite (actFrameDo_ordersOk (ht now) _ _) (ht now))
  case acreSelect now => exact keep_orderly (ordersOk_ite (acreSelectDo_ordersOk (ht now)) (ht now))
  case acreTile => exact acreTile_orderly h _ _ _
  case tileHoldRelease now => exact keep_orderly (tileReleaseDo_ordersOk (ht now))
  case stagingSwath => exact stagingSwath_orderly h _ _
  case computePhaseEnd => exact computePhaseEnd_orderly h _
  case stripCommit => exact stripCommit_orderly h _ _ _
  case resultRecordsWritten => exact resultRecordsWritten_orderly h _ _ _
  case completionWritten => exact completionWritten_orderly h _ _
  case ctxPauseReached => exact ctxPauseReached_orderly h _ _ _ _
  case mergeStart => exact mergeStart_orderly h _ _ _
  case shardRecord now => exact keep_orderly (ordersOk_ite (shardRecordDo_ordersOk (clearOut_ordersOk (ht now)) _) (ht now))
  case shardTimeout => exact shardTimeout_orderly h _ _ _
  case resSegmentSend now => exact keep_orderly (ordersOk_ite (settle_ordersOk (resSegmentDo_ordersOk (ht now))) (ht now))
  case scrubStep => exact keep_orderly (ordersOk_ite (scrubDo_ordersOk h _ _ _ _) h)
  case migrationCopyDone => exact keep_orderly (ordersOk_ite (migrationCopyDo_ordersOk h _ _ _) h)
  case ledgerLost now => exact keep_orderly (ordersOk_ite (ledgerLostDo_ordersOk (ht now) _) (ht now))
  case fwBankUe now => exact keep_orderly (ordersOk_ite (fwBankDo_ordersOk (ht now) _) (ht now))
  case stripLost now => exact keep_orderly (ordersOk_ite (stripLostDo_ordersOk (ht now) _ _ _) (ht now))
  case tenantWindowTurn now => exact keep_orderly (ordersOk_ite (modTenant_ordersOk (ht now) _ _) (ht now))
  case ledgerTick now _ _ _ => exact keep_orderly (ordersOk_ite (ledgerTickDo_ordersOk (ht now) _ _ _) (ht now))
  case epochTurn now => exact keep_orderly (ordersOk_ite (reconsider_ordersOk (energy_ordersOk (ht now) _) true) (ht now))
  case telemetrySample now => exact keep_orderly (ordersOk_ite (energy_ordersOk (ht now) _) (ht now))
  case sagLevelRise now => exact keep_orderly (sagInput_ordersOk (ht now) _)
  case sagLevelFall now => exact keep_orderly (ordersOk_ite (sagFallDo_ordersOk (ht now)) (ht now))
  case powerFailHold => exact powerFailHold_orderly h _ _
  case held now => exact keep_orderly (ordersOk_ite (energy_ordersOk (ht now) _) (ht now))
  case timeFault => exact keep_orderly (ordersOk_ite (raise_ordersOk (raise_ordersOk h 9) 0) h)
  case pairHello => exact keep_orderly (onFrame_ordersOk h _ fun _ ht => helloDo_ordersOk ht _ _ _ _ _)
  case pairFailing now => exact keep_orderly (onFrame_ordersOk (ht now) _ fun _ ht => failingDo_ordersOk ht)
  case pairDetachFrame => exact keep_orderly (onFrame_ordersOk h _ fun _ ht => detachFrameDo_ordersOk ht)
  case pairDigest now => exact keep_orderly (onFrame_ordersOk (ht now) _ fun _ ht => digestDo_ordersOk ht _)
  case pairStateDispatch now => exact keep_orderly (onEntry_ordersOk (ht now) _ fun _ ht => settle_ordersOk (pair_ordersOk ht _))
  case pairStateCheck => exact keep_orderly (onEntry_ordersOk h _ fun _ ht => pair_ordersOk ht _)
  case pairStateCommit => exact keep_orderly (onEntry_ordersOk h _ fun _ ht => commitEntryDo_ordersOk ht _)
  case pairStateProgress => exact keep_orderly (onEntry_ordersOk h _ fun _ ht => pair_ordersOk ht _)
  case pairIdle => exact keep_orderly (onFrame_ordersOk h _ fun _ ht => ht)
  case pairCredit => exact keep_orderly (ordersOk_ite (flushPair_ordersOk (pair_ordersOk h _) 64) h)
  case pairResend => exact keep_orderly (ordersOk_ite (pairResendDo_ordersOk h) h)
  case pairIdleSend => exact keep_orderly (ordersOk_ite (transmit_ordersOk h _ _) h)
  case pairLinkDown => exact keep_orderly (ordersOk_ite (linkDown_ordersOk h) h)
  case barrierInLow => exact barrierInLow_orderly h
  case apbInterfaceReset => exact keep_orderly h
  case wrapperInstructionUpdate ins => exact wrapperInstructionUpdate_orderly h (bne_eq_false_iff_eq.1 hi)
  case ijtagSelfTestInstrument ev => exact ijtagSelfTestInstrument_orderly h (beq_eq_false_iff_ne.1 hi)
  case supplyRemoved island =>
    refine supplyRemoved_orderly h ?_
    rintro rfl
    exact absurd hi (by decide)

end

/-- The block leaves its reset with no packet. -/
theorem reset_ordersOk : State.reset.ordersOk := ⟨List.nodup_nil, fun _ hc => nomatch hc⟩

/-- Settles O60: each row keeps the orders, for each operation of a row does. -/
theorem ordersStayDistinct : Obligations.OrdersStayDistinct := by
  refine ⟨reset_ordersOk, fun s t hi h ht => ?_⟩
  unfold step at ht
  split at ht
  · cases ht
    exact h
  · rename_i i rest hp
    have hs : ({ s with pending := rest } : State).ordersOk := h
    exact exec_orderly hs i (hi i (by rw [hp]; rfl)) t ht

end Sys2Proof.Machine
end
